-- ==== Sys2Proof/Word.lean ====
section
/-! DEFINITION. The word types of the W48: bytes, 32-bit lanes, 64-bit words and lane masks. -/
namespace Sys2Proof

/-- A byte of memory (R6). -/
abbrev Byte := BitVec 8

/-- The content of one lane of a v register (R136). -/
abbrev Lane := BitVec 32

/-- The content of an s register, a special register or a generic pointer (R136, R225). -/
abbrev Word := BitVec 64

/-- A lane mask: bit l stands for lane l (R156). -/
abbrev Mask := BitVec 64

end Sys2Proof
end

