-- ==== Sys2Proof/Syntax.lean ====
section
/-! DEFINITION. The steps of the W48: one constructor of `Instr` for each row of spec/opcode_table.json.
A row of the instruction set carries the operand fields of its format (R128 to R134); a row that is a step of the
device carries what that step is about (a queue, a launch, a group, an engine, a line, a value written). -/
namespace Sys2Proof

/-! ## Operand fields -/

/-- Register specifiers (R135), one constructor per row of its table. -/
inductive Spec where
  | v (n : Fin 128)
  | s (n : Fin 64)
  | txq (n : Fin 4)
  | rxq (n : Fin 4)
  | sq (n : Fin 8)
  | laneid
  | grouplanes
  | exec
  | reserved (n : Fin 13)
  /-- Integer constants 0 to 15. -/
  | int (n : Fin 16)
  /-- Integer constants −1 to −8: `neg n` is −1 − n. -/
  | neg (n : Fin 8)
  /-- 0.5, 1.0, 2.0, 4.0, −0.5, −1.0, −2.0, ln 2. -/
  | fp (n : Fin 8)
  deriving DecidableEq, Repr

/-- Patterns of a source field (R140). -/
inductive Pat where
  | none | rot | rotd | seg | bfly | mir | undef6 | undef7
  deriving DecidableEq, Repr

/-- A 15-bit source field: specifier, pattern and parameter (R128). -/
structure Src where
  spec : Spec
  pat : Pat
  par : BitVec 4
  deriving DecidableEq, Repr

/-- Type codes 0 to 13 (R138). -/
inductive Ty where
  | i32 | n32 | i64 | n64 | f32 | f64 | f16 | bf16 | f16x2 | bf16x2 | i16x2 | n16x2 | i8x4 | n8x4
  deriving DecidableEq, Repr

/-- Rounding modes (R52, R128). -/
inductive Rnd where
  | rne | rtz | rup | rdn
  deriving DecidableEq, Repr

/-- The 32 format codes (R46). -/
inductive Fmt where
  | f64 | f32 | f16 | bf16 | e4m3 | e5m2 | e3m2 | e2m3 | e2m1 | i32 | i16 | i8 | n8 | i4 | n4 | b1
  | e4m3s | e5m2s | e3m2s | e2m3s | e2m1s | i8s | e2m1s16 | i4s
  | a8g32 | a8g64 | a8g128 | a4g32 | a4g64 | a4g128 | e4m3x | e2m1x
  deriving DecidableEq, Repr

/-- Request types (R130, R241). -/
inductive Req where
  | i | o | w | u
  deriving DecidableEq, Repr

/-- Placement hints (R130, R249). -/
inductive Hint where
  | page | replicate | pin | stream
  deriving DecidableEq, Repr

/-- Memory orders (R130). -/
inductive Order where
  | relaxed | acquire | release | acqRel
  deriving DecidableEq, Repr

/-- Scopes (R130, R317); `none` is a weak access. -/
inductive Scope where
  | none | group | team | reticle | device | system
  deriving DecidableEq, Repr

/-- Per-lane sizes (R130). -/
inductive Size where
  | b1 | b2 | b4 | b8 | b16
  deriving DecidableEq, Repr

/-- Atomic operations (R276). -/
inductive AtomOp where
  | swap | cas | add | and | or | xor | min | max | umin | umax | inc | dec | fadd | fmin | fmax
  deriving DecidableEq, Repr

/-- Sub-kinds of BRA (R175). -/
inductive BraSub where
  | all | any | none
  deriving DecidableEq, Repr

/-- Items of WINFO (R187). -/
inductive WItem where
  | depth | tokens | base | room | occ | ring
  deriving DecidableEq, Repr

/-- Scopes of barrier objects (R342, R343). -/
inductive BScope where
  | team | reticle | device | system
  deriving DecidableEq, Repr

/-- Semirings (R301). -/
inductive Semiring where
  | plusTimes | minPlus | maxPlus | maxTimes | orAnd
  deriving DecidableEq, Repr

/-- Accumulator formats (R133). -/
inductive AccFmt where
  | f32 | i32 | f64
  deriving DecidableEq, Repr

/-- Engine classes of a clause header (R119). -/
inductive Class where
  | alu | mem | mat | eng | sys
  deriving DecidableEq, Repr

/-- A clause header (R119): class, instruction count, wait mask and the two set-flags (`none` is 15). -/
structure Header where
  cls : Class
  count : Fin 16
  wait : BitVec 12
  setA : Option (Fin 12)
  setB : Option (Fin 12)
  yield : Bool
  deriving DecidableEq, Repr

/-! ## Formats -/

/-- The operate format (R128) with every field; `WellFormed` says which fields an instruction uses. -/
structure OForm where
  d : Spec
  a : Src
  b : Src
  c : Spec
  ty : Ty
  rnd : Rnd
  sat : Bool
  ftz : Bool
  uni : Bool
  deriving DecidableEq, Repr

/-- QCVT, DQCVT and QSCALE (R221): field C is a format code. -/
structure QForm where
  d : Spec
  a : Src
  b : Src
  fmt : Fmt
  rnd : Rnd
  sat : Bool
  ftz : Bool
  uni : Bool
  deriving DecidableEq, Repr

/-- The immediate format (R129). -/
structure IForm where
  d : Spec
  a : Src
  fill : Bool
  imm : BitVec 32
  deriving DecidableEq, Repr

/-- The memory format (R130). -/
structure MForm where
  data : Spec
  addr : Spec
  off : BitVec 20
  recIx : BitVec 6
  req : Req
  hint : Hint
  ord : Order
  scope : Scope
  size : Size
  aux : Bool
  fb : Bool
  deriving DecidableEq, Repr

/-- The memory format as ATOM and ATOMU use it (R131). -/
structure AForm where
  data : Spec
  addr : Spec
  off : BitVec 12
  op : AtomOp
  recIx : BitVec 6
  req : Req
  hint : Hint
  ord : Order
  scope : Scope
  size : Size
  fb : Bool
  deriving DecidableEq, Repr

/-- The matrix format (R133, R306). -/
structure XForm where
  acc : BitVec 4
  slot : BitVec 7
  abase : Spec
  aoff : BitVec 16
  chunks : BitVec 6
  sem : Semiring
  afmt : Fmt
  col : Bool
  skip : Bool
  accum : Bool
  accf : AccFmt
  sat : Bool
  fb : Bool
  deriving DecidableEq, Repr

/-- The engine format of BCOPY (R134, R288). -/
structure EForm where
  place : BitVec 12
  src : Spec
  dst : Spec
  len : Spec
  bar : BitVec 12
  twoD : Bool
  sig : Bool
  fb : Bool
  deriving DecidableEq, Repr

/-! ## Subjects of device steps -/

/-- Parts that can be lost (R23, R79, R80). -/
inductive Part where
  | reticle (n : Fin 48)
  | stack (n : Fin 16)
  | link (n : Fin 12)
  | hostPort
  deriving DecidableEq, Repr

/-- Where an uncorrectable error is found (R369, R371). -/
inductive ErrSite where
  /-- The 32-byte sector of physical memory that holds this address. -/
  | sector (addr : Nat)
  /-- The sector of a team's scratchpad share that holds this offset. -/
  | scratchpad (team : Nat) (off : Nat)
  /-- The pannier slot of a team. -/
  | slot (team : Nat) (n : Nat)
  /-- State of a launch that has no poison bit. -/
  | state (launch : Nat)
  /-- A look-aside entry, a clean line or the code copy at a place, in a unit of R391: it is fetched again. -/
  | refetched (unit : BitVec 8) (place : BitVec 12)
  /-- A wrong value that no code catches, since it was formed correctly encoded: bits of one lane of a group's v register. -/
  | silent (group : Nat) (reg : Fin 128) (lane : Fin 64) (mask : BitVec 32)
  deriving DecidableEq, Repr

/-- States of a device link (R398). -/
inductive LinkState where
  | down | training | up | retraining
  deriving DecidableEq, Repr

/-- Arrays that can enter retention (R262): the scratchpad of a core, or a 512 KiB array of a bank. -/
inductive Array_ where
  | scratchpad (place : BitVec 12)
  | bank (place : BitVec 12) (n : Fin 4)
  deriving DecidableEq, Repr

/-! ## The steps -/

/-- One constructor per row of spec/opcode_table.json, in the table's order. -/
inductive Instr where
  -- launching (R72 to R117)
  | qtailWrite (q : Fin 64) (v : BitVec 32)
  | qctlEnable (q : Fin 64) (v : Word)
  | abortHead (q : Fin 64)
  | rewrite (q : Fin 64)
  | qcackWrite (q : Fin 64) (v : BitVec 32)
  | qstatClearStopped (q : Fin 64)
  | queueSlotAccept (q : Fin 64)
  | regionLoad (launch : Nat)
  | regionRelease (region : Nat)
  | warmSlotImageWrite (slot : BitVec 8) (ptr : Word)
  | warmSlotStaged (slot : BitVec 8)
  | teamDispatch (launch : Nat)
  | clauseIssue (group : Nat)
  | clauseResume (group : Nat)
  | endLaunch (launch : Nat)
  | instructionComplete (op : Nat)
  | launchRetire (launch : Nat)
  | mailboxFiring (box : Nat)
  | handlerLaunch (box : Nat)
  -- control (R171 to R188)
  | nop
  | bra (sub : BraSub) (cond : Spec) (target : BitVec 32)
  | brd (cond : Spec) (target : BitVec 32)
  | tokenIf
  | tokenLoop (target : BitVec 32)
  | joinIf (target : BitVec 32)
  | joinLoop (cond : Spec) (target : BitVec 32)
  | brk (cond : Spec)
  | cont (cond : Spec)
  | brx (index : Spec)
  | call (cond : Spec) (slide : BitVec 4) (target : BitVec 32)
  | callx (cond : Spec) (slide : BitVec 4) (index : Spec)
  | ret
  | exit (cond : Spec)
  | yield
  | wsyncWait
  | wsyncWb
  | winfo (item : WItem) (dst : Spec)
  | pauseTime (n : BitVec 16)
  | pauseRecv (n : BitVec 16)
  | pauseExpiry (group : Nat)
  -- integer (R203 to R210)
  | add (f : OForm)
  | sub (f : OForm)
  | mul (f : OForm)
  | mulh (f : OForm)
  | mad (f : OForm)
  | and (f : OForm)
  | or (f : OForm)
  | xor (f : OForm)
  | andn (f : OForm)
  | shl (f : OForm)
  | shr (f : OForm)
  | sar (f : OForm)
  | rot (f : OForm)
  | min (f : OForm)
  | max (f : OForm)
  | sel (f : OForm)
  | abs (f : OForm)
  | neg (f : OForm)
  | clz (f : OForm)
  | popc (f : OForm)
  | brev (f : OForm)
  | bfe (f : OForm)
  | bfi (f : OForm)
  | cmp (f : OForm)
  | lea (f : OForm)
  | mov (f : OForm)
  | movi (f : IForm)
  | addi (f : IForm)
  | andi (f : IForm)
  | ori (f : IForm)
  | cmpi (f : IForm)
  | idot4 (f : OForm)
  -- floating point (R211 to R224)
  | fadd (f : OForm)
  | fsub (f : OForm)
  | fmul (f : OForm)
  | ffma (f : OForm)
  | fmin (f : OForm)
  | fmax (f : OForm)
  | fminnm (f : OForm)
  | fmaxnm (f : OForm)
  | fcmp (f : OForm)
  | fclass (f : OForm)
  | frnd (f : OForm)
  | fdiv (f : OForm)
  | fsqrt (f : OForm)
  | fdot2 (f : OForm)
  | fabs (f : OForm)
  | fneg (f : OForm)
  | fexp2f (f : OForm)
  | flog2m (f : OForm)
  | frcp (f : OForm)
  | frsq (f : OForm)
  | fsinpi (f : OForm)
  | fcospi (f : OForm)
  | fldexp (f : OForm)
  | fgetexp (f : OForm)
  | fgetman (f : OForm)
  | fcvt (f : OForm)
  | itof (f : OForm)
  | ftoi (f : OForm)
  | qcvt (f : QForm)
  | dqcvt (f : QForm)
  | qscale (f : QForm)
  -- cross-lane (R189 to R197)
  | shfl (f : OForm)
  | vote (f : OForm)
  | redux (f : OForm)
  | scan (f : OForm)
  | elect (f : OForm)
  | bcast (f : OForm)
  | setlane (f : OForm)
  -- memory (R263 to R287)
  | ld (f : MForm)
  | st (f : MForm)
  | ldu (f : MForm)
  | stu (f : MForm)
  | atom (f : AForm)
  | atomu (f : AForm)
  | ldfe (f : MForm)
  | stfe (f : MForm)
  | bufstRecord (f : MForm)
  | bufstBuffer (f : MForm)
  | pref (f : MForm)
  | vdec (f : MForm)
  | venc (f : MForm)
  | fence (f : MForm)
  | fenceLinkTimeout (group : Nat)
  | flushl (f : MForm)
  | invl (f : MForm)
  | subscr (f : MForm)
  -- engines, barriers and launches (R288 to R291, R343 to R349, R93 to R98, R378)
  | bcopy (f : EForm)
  | bcopyFirstBeat (op : Nat)
  | bcopyComplete (op : Nat)
  | bcopyFault (op : Nat)
  | stream (a : Spec) (n : Fin 8) (fb : Bool)
  | sclose (n : Fin 8) (fb : Bool)
  | outriderFetch (group : Nat) (n : Fin 8)
  | barw (a : Spec) (phase : Spec) (scope : BScope) (fb : Bool)
  | bara (d : Spec) (a : Spec) (count : Spec) (scope : BScope) (fb : Bool)
  | tbar (fb : Bool)
  | coll (a : Spec) (fb : Bool)
  | collComplete (op : Nat)
  | collFault (op : Nat)
  | launch (d : Spec) (a : Spec) (fb : Bool)
  | mboxBind (d : Spec) (a : Spec) (place : BitVec 12)
  | mboxUnbind (d : Spec) (a : Spec) (place : BitVec 12)
  | mboxCount (d : Spec) (a : Spec) (place : BitVec 12)
  | depsig (fb : Bool)
  | waypt (fb : Bool)
  -- the matrix engine (R292 to R315)
  | mldb (a : Spec) (b : Spec) (fmt : Fmt) (fb : Bool)
  | mldbComplete (op : Nat)
  | mldbFault (op : Nat)
  | mma (f : XForm)
  | mmaWriteback (op : Nat)
  | mmaFault (op : Nat)
  | mzero (b : Spec) (fb : Bool)
  | mrd (d : Spec) (a : Spec) (b : Spec) (ty : Ty) (rnd : Rnd) (sat : Bool) (fb : Bool)
  | mwr (a : Spec) (b : Spec) (c : Spec) (ty : Ty) (fb : Bool)
  | mst (f : MForm)
  | mwait (b : Spec) (fb : Bool)
  -- system (R355 to R362, R368)
  | sread (d : Spec) (n : BitVec 8)
  | swrite (a : Spec) (n : BitVec 8)
  | trap (imm : BitVec 32)
  | rftRetry
  | rftNext
  | rftAbort
  | mappg (d : Spec) (a : Spec) (b : Spec) (fb : Bool)
  | tlbinvPage (a : Spec) (fb : Bool)
  | tlbinvContext (a : Spec) (fb : Bool)
  | ctxsv (a : Spec) (fb : Bool)
  -- the porter (R161, R166)
  | porterSpill (group : Nat)
  | porterRefill (group : Nat)
  | tokenSpill (group : Nat)
  | tokenReadback (group : Nat)
  -- the memory hierarchy (R234 to R262, R332, R333)
  | tlbWalk (reticle : Fin 48)
  | requestAtHome (op : Nat)
  | refusalRetry (op : Nat)
  | atomicRepeatTimeout (op : Nat)
  | atomicRepeatPathLost (op : Nat)
  | l1WriteBack (core : BitVec 12) (line : Nat)
  | l1Invalidation (core : BitVec 12) (line : Nat)
  | subscriberLineInstall (core : BitVec 12) (line : Nat)
  | droverMigration (reticle : Fin 48) (line : Nat)
  | retentionEntry (a : Array_)
  | retentionExit (a : Array_)
  -- message queues and links (R336 to R341, R398, R399)
  | flitDelivery (flit : Nat)
  | creditGrant (group : Nat) (port : Fin 4)
  | linkRetry (link : Fin 12)
  | linkStateChange (link : Fin 12) (st : LinkState)
  | peerAccessTimeout (op : Nat)
  -- ends, pre-emption, recovery (R359, R364 to R381, R390)
  | endRequestArrival (launch : Nat)
  | ctxsuspSuspend (ctx : BitVec 16)
  | ctxsuspResume (ctx : BitVec 16)
  | preemptSave (team : Nat)
  | teamRestore (team : Nat)
  | uncorrectableError (site : ErrSite)
  | snapshotCopy (page : Nat)
  | rollback (launch : Nat)
  | convoyMatch (group : Nat)
  | convoyMismatch (team : Nat)
  | commitLogFull (team : Nat)
  | assayerReplay (team : Nat)
  -- the event log and attestation (R391 to R394, R401)
  | eventLogRecord
  | checkpoint
  | ckptcmdCheckpoint
  | attcmdQuote
  -- bias, migration, reset, power, the host (R257 to R259, R395 to R404, R415)
  | biasFlipStart (v : Word)
  | biasFlipComplete
  | migrationStart (v : Word)
  | migrationLineCopy
  | migrationComplete
  | devrstReset
  | powerOn
  | powerLoss
  | partLost (part : Part)
  | hostPortReturn
  | thermalThrottle (reticle : Fin 48)
  | thermalShutdown
  | hostBar2Access (off : Nat) (size : Nat) (data : Option Word)
  | jibuegHostSnoop (line : Nat)
  | jibuegNegotiation (up : Bool)
  | pwrcapWrite (reticle : Fin 48) (v : Word)
  | assayctlWrite (v : Word)
  | irqcauseClear (v : Word)
  | registerWrite (off : Nat) (v : Word)
  | coalescedWindowEnd (unit : BitVec 8) (cause : BitVec 8)
  deriving DecidableEq, Repr

end Sys2Proof
end

