-- ==== Sys2Proof/WellFormed.lean ====
section
/-! DEFINITION. `Instr.wf`: the conditions that check 6 of R121 makes on an instruction's fields at fetch.
What R135 and the instruction chapters check at issue (specifier classes, register parity, ranges of operands) is not
here: those traps belong to the meanings. -/
namespace Sys2Proof

def Spec.isS : Spec → Bool
  | .s _ => true
  | _ => false

/-- An even s register, the first of a pair. -/
def Spec.isEvenS : Spec → Bool
  | .s n => n.val % 2 == 0
  | _ => false

/-- An integer constant 0 to 15. -/
def Spec.isInt : Spec → Bool
  | .int _ => true
  | _ => false

/-- An integer constant −1 to −8. -/
def Spec.isNeg : Spec → Bool
  | .neg _ => true
  | _ => false

/-- An unused source field holds all zeros (R198). -/
def Src.zero : Src := ⟨.v 0, .none, 0⟩

def Ty.isInt : Ty → Bool
  | .i32 | .n32 | .i64 | .n64 => true
  | _ => false

def Ty.isPackedInt : Ty → Bool
  | .i16x2 | .n16x2 | .i8x4 | .n8x4 => true
  | _ => false

/-- "F" of R211. -/
def Ty.isF : Ty → Bool
  | .f32 | .f64 | .f16 | .bf16 => true
  | _ => false

/-- "FX" of R211. -/
def Ty.isFX : Ty → Bool
  | .f16x2 | .bf16x2 => true
  | _ => false

/-- 64-bit types (R136). -/
def Ty.is64 : Ty → Bool
  | .i64 | .n64 | .f64 => true
  | _ => false

namespace OForm

/-- Modifiers a row of R203 or R211 marks unused are zero; B and C too where the row has a dash. -/
def fits (f : OForm) (ty b c rnd sat ftz : Bool) : Bool :=
  ty && (b || f.b == Src.zero) && (c || f.c == .v 0) && (rnd || f.rnd == .rne) && (sat || !f.sat) && (ftz || !f.ftz)

/-- B holds an integer constant from lo to hi, with pattern and parameter zero. -/
def bConst (f : OForm) (lo hi : Nat) : Bool :=
  match f.b with
  | ⟨.int n, .none, 0⟩ => lo ≤ n.val && n.val ≤ hi
  | _ => false

/-- C holds an integer constant up to hi. -/
def cConst (f : OForm) (hi : Nat) : Bool :=
  match f.c with
  | .int n => n.val ≤ hi
  | _ => false

end OForm

/-- Format codes that QCVT and DQCVT accept (R221). -/
def Fmt.qcvtOk : Fmt → Bool
  | .f64 | .f32 | .f16 | .bf16 | .i32 | .i16 | .b1 => false
  | _ => true

/-- Format codes 16 to 31: they name a scale (R46). -/
def Fmt.hasScale : Fmt → Bool
  | .e4m3s | .e5m2s | .e3m2s | .e2m3s | .e2m1s | .i8s | .e2m1s16 | .i4s
  | .a8g32 | .a8g64 | .a8g128 | .a4g32 | .a4g64 | .a4g128 | .e4m3x | .e2m1x => true
  | _ => false

/-- Format codes 16 to 23 (R56). -/
def Fmt.isShift : Fmt → Bool
  | .e4m3s | .e5m2s | .e3m2s | .e2m3s | .e2m1s | .i8s | .e2m1s16 | .i4s => true
  | _ => false

namespace MForm

def weak (f : MForm) : Bool := f.ord == .relaxed && f.scope == .none

def strong (f : MForm) : Bool := f.scope != .none

/-- A weak access, or a strong one with one of the orders given; size 4 only weak (R130, R263, R268). -/
def ordOk (f : MForm) (ord : Order) : Bool :=
  f.weak || (f.strong && (f.ord == .relaxed || f.ord == ord) && f.size != .b16)

def sizeIn (f : MForm) (lo hi : Nat) : Bool :=
  let n := match f.size with | .b1 => 0 | .b2 => 1 | .b4 => 2 | .b8 => 3 | .b16 => 4
  decide (lo ≤ n) && decide (n ≤ hi)

/-- The plain fields of the rows of R263 that use neither record, request nor hint. -/
def plain (f : MForm) : Bool := f.req == .i && f.hint == .page && f.weak

/-- The offset of BUFST, FLUSHL, INVL and SUBSCR with an s address register is zero (R263). -/
def offOk (f : MForm) : Bool := !f.addr.isS || f.off == 0

end MForm

/-- The rounding field is legal only with FADD, saturate only with ADD, FTZ only with the floating codes (R191). -/
def foldOk (f : OForm) (code : Nat) : Bool :=
  let k := if code < 9 then code else code - 9
  let fp := decide (6 ≤ code) && decide (code ≤ 8)
  (if fp then f.ty == .f32 || f.ty == .f64 else f.ty.isInt)
    && (code == 6 || f.rnd == .rne) && ((!fp && k == 0) || !f.sat) && (fp || !f.ftz) && !f.uni

def foldCode (f : OForm) (hi : Nat) : Option Nat :=
  match f.b with
  | ⟨.int n, .none, 0⟩ => if n.val ≤ hi then some n.val else none
  | _ => none

def AForm.wf (f : AForm) : Bool :=
  f.req == .i && (f.hint == .page || f.hint == .pin) && f.scope != .none && (f.size == .b4 || f.size == .b8)

/-- The fields of step `i` are as check 6 of R121 requires; a device step has no fields to check. -/
def Instr.wf : Instr → Bool
  | .call _ k _ => decide (1 ≤ k.toNat) && decide (k.toNat ≤ 14)
  | .callx _ k _ => decide (1 ≤ k.toNat) && decide (k.toNat ≤ 14)
  | .add f | .sub f | .mul f => f.fits (f.ty.isInt || f.ty.isPackedInt) true false false true false
  | .mulh f | .and f | .or f | .xor f | .andn f | .shl f | .shr f | .sar f | .rot f =>
      f.fits f.ty.isInt true false false false false
  | .mad f => f.fits f.ty.isInt true true false true false
  | .min f | .max f => f.fits (f.ty.isInt || f.ty.isPackedInt) true false false false false
  | .sel f => f.fits (f.ty == .i32 || f.ty == .i64) true true false false false
  | .abs f | .neg f => f.fits (f.ty == .i32 || f.ty == .i64 || f.ty == .i16x2 || f.ty == .i8x4) false false false true false
  | .clz f | .popc f | .brev f => f.fits (f.ty == .n32 || f.ty == .n64) false false false false false
  | .bfe f => f.fits f.ty.isInt true true false false false
  | .bfi f => f.fits (f.ty == .n32 || f.ty == .n64) true true false false false
  | .cmp f => f.fits f.ty.isInt true true false false false && f.cConst 5
  | .lea f => f.fits (f.ty == .i32 || f.ty == .n32) true true false false false && f.cConst 7
  | .mov f => f.fits (f.ty == .i32 || f.ty == .i64) false false false false false
  | .idot4 f => f.fits (f.ty == .i8x4 || f.ty == .n8x4) true true false true false
  | .movi f => f.a == Src.zero
  | .cmpi f => f.a.pat == .none && decide (f.a.par.toNat ≤ 9)
  | .fadd f | .fsub f | .fmul f => f.fits (f.ty.isF || f.ty.isFX) true false true true true
  | .ffma f => f.fits (f.ty.isF || f.ty.isFX) true true true true true
  | .fmin f | .fmax f | .fminnm f | .fmaxnm f => f.fits (f.ty.isF || f.ty.isFX) true false false false true
  | .fcmp f => f.fits f.ty.isF true true false false true && f.cConst 7
  | .fclass f | .fgetexp f | .fgetman f => f.fits f.ty.isF false false false false true
  | .frnd f => f.fits (f.ty.isF || f.ty.isFX) false false true false true
  | .fdiv f => f.fits f.ty.isF true false true true true
  | .fsqrt f => f.fits f.ty.isF false false true false true
  | .fdot2 f => f.fits f.ty.isFX true true true true true
  | .fabs f | .fneg f => f.fits (f.ty.isF || f.ty.isFX) false false false false false
  | .fexp2f f | .flog2m f | .fsinpi f | .fcospi f => f.fits (f.ty == .f32) false false true false true
  | .frcp f => f.fits (f.ty == .f32 || f.ty == .f64) false false true true true
  | .frsq f => f.fits (f.ty == .f32 || f.ty == .f64) false false true false true
  | .fldexp f => f.fits f.ty.isF true false true true true
  | .fcvt f => f.fits f.ty.isF true false true true true && f.bConst 4 7
  | .itof f => f.fits f.ty.isF true false true true false && f.bConst 0 3
  | .ftoi f => f.fits f.ty.isInt true false true true true && f.bConst 4 7
  | .qcvt f | .dqcvt f => f.fmt.qcvtOk
  | .qscale f => f.fmt.hasScale && !f.sat
  | .shfl f | .bcast f | .setlane f => f.fits (f.ty == .i32 || f.ty == .i64) true true false false false && !f.uni
  | .vote f => f.fits (f.ty == .i32) true true false false false && !f.uni && f.bConst 0 3
  | .redux f => match foldCode f 8 with | some k => foldOk f k | none => false
  | .scan f => match foldCode f 14 with | some k => foldOk f k | none => false
  | .elect f => f.fits (f.ty == .i32) false true false false false && !f.uni && f.a == Src.zero
  | .ld f => f.ordOk .acquire
  | .st f => f.ordOk .release && !f.aux
  | .ldu f => f.ordOk .acquire && f.size != .b16
  | .stu f => f.ordOk .release && f.size != .b16 && !f.aux
  | .atom f => f.wf
  | .atomu f => f.wf
  | .ldfe f => f.plain && f.recIx == 0 && f.sizeIn 2 4
  | .stfe f => f.plain && f.recIx == 0 && f.sizeIn 2 4 && !f.aux
  | .bufstRecord f => f.plain && f.data == .v 0 && f.size == .b1 && f.offOk && !f.aux
  | .bufstBuffer f => f.plain && f.data == .v 0 && f.size == .b1 && f.offOk && f.aux
  | .pref f => f.weak && f.data == .v 0 && f.req != .u
  | .vdec f => f.weak && f.recIx == 0 && (f.req == .i || f.req == .u) && f.size == .b4
  | .venc f => f.weak && f.recIx == 0 && f.req != .o && f.size == .b4
  | .fence f => f.data == .v 0 && f.addr == .v 0 && f.off == 0 && f.recIx == 0 && f.req == .i && f.hint == .page
      && f.ord != .relaxed && f.scope != .none && f.size == .b1 && (!f.aux || f.ord == .acqRel)
  | .flushl f => f.plain && f.data == .v 0 && f.offOk
  | .invl f => f.plain && f.data == .v 0 && f.offOk && !f.aux
  | .subscr f => f.weak && f.data == .v 0 && f.recIx != 0 && f.req == .o && f.offOk
  | .mma f => (!f.skip || (f.sem == .plusTimes && f.afmt.isShift)) && (!f.sat || f.accf == .i32)
  | .mrd _ _ _ ty rnd sat _ => (ty == .i32 || ty == .f32 || ty == .f64 || ty == .f16 || ty == .bf16)
      && (ty == .f16 || ty == .bf16 || (rnd == .rne && !sat))
  | .mwr _ _ _ ty _ => ty == .i32 || ty == .f32 || ty == .f64 || ty == .f16 || ty == .bf16
  | .mst f => f.weak && f.recIx != 0 && f.sizeIn 2 3 && f.data.isInt && f.addr.isS
  | .stream a _ _ => a.isS
  | .mboxBind d a _ | .mboxUnbind d a _ | .mboxCount d a _ => d.isS && a.isEvenS
  | .sread d _ => d.isS
  | .swrite a _ => a.isS || a.isInt || a.isNeg
  | _ => true

end Sys2Proof
end

