-- ==== Sys2Proof/Decode.lean ====
section
/-! DEFINITION. The encoding tables of the W48: fields of the six formats (R128 to R134), the clause header (R119), the
opcode map (R141), a total decoder that rejects by name, and the encoder written from the same tables. -/
namespace Sys2Proof

/-! ## Bit fields -/

/-- The unsigned field of n bits whose lowest bit is lo (`bits` of R11). -/
def fld (w lo n : Nat) : Nat := w / 2 ^ lo % 2 ^ n

/-- One bit as a Bool. -/
def bitAt (w lo : Nat) : Bool := w / 2 ^ lo % 2 == 1

def b2n (b : Bool) : Nat := if b then 1 else 0

/-! ## Codes of the fields -/

/-- The 8-bit specifier codes of R135. -/
def Spec.code : Spec → Nat
  | .v n => n.val
  | .s n => 0x80 + n.val
  | .txq n => 0xC0 + n.val
  | .rxq n => 0xC4 + n.val
  | .sq n => 0xC8 + n.val
  | .laneid => 0xD0
  | .grouplanes => 0xD1
  | .exec => 0xD2
  | .reserved n => 0xD3 + n.val
  | .int n => 0xE0 + n.val
  | .neg n => 0xF0 + n.val
  | .fp n => 0xF8 + n.val

def Spec.ofCode (c : Nat) : Spec :=
  if c < 0x80 then .v (Fin.ofNat 128 c)
  else if c < 0xC0 then .s (Fin.ofNat 64 (c - 0x80))
  else if c < 0xC4 then .txq (Fin.ofNat 4 (c - 0xC0))
  else if c < 0xC8 then .rxq (Fin.ofNat 4 (c - 0xC4))
  else if c < 0xD0 then .sq (Fin.ofNat 8 (c - 0xC8))
  else if c = 0xD0 then .laneid
  else if c = 0xD1 then .grouplanes
  else if c = 0xD2 then .exec
  else if c < 0xE0 then .reserved (Fin.ofNat 13 (c - 0xD3))
  else if c < 0xF0 then .int (Fin.ofNat 16 (c - 0xE0))
  else if c < 0xF8 then .neg (Fin.ofNat 8 (c - 0xF0))
  else .fp (Fin.ofNat 8 (c - 0xF8))

/-- Pattern codes of R140. -/
def Pat.code : Pat → Nat
  | .none => 0 | .rot => 1 | .rotd => 2 | .seg => 3 | .bfly => 4 | .mir => 5 | .undef6 => 6 | .undef7 => 7

def Pat.ofCode : Nat → Pat
  | 0 => .none | 1 => .rot | 2 => .rotd | 3 => .seg | 4 => .bfly | 5 => .mir | 6 => .undef6 | _ => .undef7

/-- Bits [14:7] specifier, [6:4] pattern, [3:0] parameter of an operand field (R128). -/
def Src.code (x : Src) : Nat := x.spec.code * 2 ^ 7 + x.pat.code * 2 ^ 4 + x.par.toNat

def Src.ofCode (c : Nat) : Src := ⟨.ofCode (fld c 7 8), .ofCode (fld c 4 3), BitVec.ofNat 4 (fld c 0 4)⟩

/-- Type codes of R138. -/
def Ty.code : Ty → Nat
  | .i32 => 0 | .n32 => 1 | .i64 => 2 | .n64 => 3 | .f32 => 4 | .f64 => 5 | .f16 => 6 | .bf16 => 7
  | .f16x2 => 8 | .bf16x2 => 9 | .i16x2 => 10 | .n16x2 => 11 | .i8x4 => 12 | .n8x4 => 13

def Ty.ofCode : Nat → Option Ty
  | 0 => some .i32 | 1 => some .n32 | 2 => some .i64 | 3 => some .n64 | 4 => some .f32 | 5 => some .f64
  | 6 => some .f16 | 7 => some .bf16 | 8 => some .f16x2 | 9 => some .bf16x2 | 10 => some .i16x2
  | 11 => some .n16x2 | 12 => some .i8x4 | 13 => some .n8x4 | _ => none

def Rnd.code : Rnd → Nat
  | .rne => 0 | .rtz => 1 | .rup => 2 | .rdn => 3

def Rnd.ofCode : Nat → Rnd
  | 0 => .rne | 1 => .rtz | 2 => .rup | _ => .rdn

/-- Format codes of R46. -/
def Fmt.code : Fmt → Nat
  | .f64 => 0 | .f32 => 1 | .f16 => 2 | .bf16 => 3 | .e4m3 => 4 | .e5m2 => 5 | .e3m2 => 6 | .e2m3 => 7 | .e2m1 => 8
  | .i32 => 9 | .i16 => 10 | .i8 => 11 | .n8 => 12 | .i4 => 13 | .n4 => 14 | .b1 => 15
  | .e4m3s => 16 | .e5m2s => 17 | .e3m2s => 18 | .e2m3s => 19 | .e2m1s => 20 | .i8s => 21 | .e2m1s16 => 22 | .i4s => 23
  | .a8g32 => 24 | .a8g64 => 25 | .a8g128 => 26 | .a4g32 => 27 | .a4g64 => 28 | .a4g128 => 29 | .e4m3x => 30 | .e2m1x => 31

def Fmt.ofCode : Nat → Fmt
  | 0 => .f64 | 1 => .f32 | 2 => .f16 | 3 => .bf16 | 4 => .e4m3 | 5 => .e5m2 | 6 => .e3m2 | 7 => .e2m3 | 8 => .e2m1
  | 9 => .i32 | 10 => .i16 | 11 => .i8 | 12 => .n8 | 13 => .i4 | 14 => .n4 | 15 => .b1
  | 16 => .e4m3s | 17 => .e5m2s | 18 => .e3m2s | 19 => .e2m3s | 20 => .e2m1s | 21 => .i8s | 22 => .e2m1s16 | 23 => .i4s
  | 24 => .a8g32 | 25 => .a8g64 | 26 => .a8g128 | 27 => .a4g32 | 28 => .a4g64 | 29 => .a4g128 | 30 => .e4m3x | _ => .e2m1x

def Req.code : Req → Nat
  | .i => 0 | .o => 1 | .w => 2 | .u => 3

def Req.ofCode : Nat → Req
  | 0 => .i | 1 => .o | 2 => .w | _ => .u

def Hint.code : Hint → Nat
  | .page => 0 | .replicate => 1 | .pin => 2 | .stream => 3

def Hint.ofCode : Nat → Hint
  | 0 => .page | 1 => .replicate | 2 => .pin | _ => .stream

def Order.code : Order → Nat
  | .relaxed => 0 | .acquire => 1 | .release => 2 | .acqRel => 3

def Order.ofCode : Nat → Order
  | 0 => .relaxed | 1 => .acquire | 2 => .release | _ => .acqRel

def Scope.code : Scope → Nat
  | .none => 0 | .group => 1 | .team => 2 | .reticle => 3 | .device => 4 | .system => 5

/-- Codes 6 and 7 are illegal-encoding (R130). -/
def Scope.ofCode : Nat → Option Scope
  | 0 => some .none | 1 => some .group | 2 => some .team | 3 => some .reticle | 4 => some .device | 5 => some .system
  | _ => none

def Size.code : Size → Nat
  | .b1 => 0 | .b2 => 1 | .b4 => 2 | .b8 => 3 | .b16 => 4

/-- Codes 5 to 7 are illegal-encoding (R130). -/
def Size.ofCode : Nat → Option Size
  | 0 => some .b1 | 1 => some .b2 | 2 => some .b4 | 3 => some .b8 | 4 => some .b16 | _ => none

/-- Operation codes of R276. -/
def AtomOp.code : AtomOp → Nat
  | .swap => 0 | .cas => 1 | .add => 2 | .and => 3 | .or => 4 | .xor => 5 | .min => 6 | .max => 7 | .umin => 8
  | .umax => 9 | .inc => 10 | .dec => 11 | .fadd => 12 | .fmin => 13 | .fmax => 14

def AtomOp.ofCode : Nat → Option AtomOp
  | 0 => some .swap | 1 => some .cas | 2 => some .add | 3 => some .and | 4 => some .or | 5 => some .xor
  | 6 => some .min | 7 => some .max | 8 => some .umin | 9 => some .umax | 10 => some .inc | 11 => some .dec
  | 12 => some .fadd | 13 => some .fmin | 14 => some .fmax | _ => none

def BScope.code : BScope → Nat
  | .team => 0 | .reticle => 1 | .device => 2 | .system => 3

def BScope.ofCode : Nat → BScope
  | 0 => .team | 1 => .reticle | 2 => .device | _ => .system

def Semiring.code : Semiring → Nat
  | .plusTimes => 0 | .minPlus => 1 | .maxPlus => 2 | .maxTimes => 3 | .orAnd => 4

def Semiring.ofCode : Nat → Option Semiring
  | 0 => some .plusTimes | 1 => some .minPlus | 2 => some .maxPlus | 3 => some .maxTimes | 4 => some .orAnd | _ => none

def AccFmt.code : AccFmt → Nat
  | .f32 => 0 | .i32 => 1 | .f64 => 2

def AccFmt.ofCode : Nat → Option AccFmt
  | 0 => some .f32 | 1 => some .i32 | 2 => some .f64 | _ => none

def WItem.code : WItem → Nat
  | .depth => 0 | .tokens => 1 | .base => 2 | .room => 3 | .occ => 4 | .ring => 5

def WItem.ofCode : Nat → Option WItem
  | 0 => some .depth | 1 => some .tokens | 2 => some .base | 3 => some .room | 4 => some .occ | 5 => some .ring | _ => none

def BraSub.code : BraSub → Nat
  | .all => 0 | .any => 1 | .none => 2

def BraSub.ofCode : Nat → Option BraSub
  | 0 => some .all | 1 => some .any | 2 => some .none | _ => none

def Class.code : Class → Nat
  | .alu => 0 | .mem => 1 | .mat => 2 | .eng => 3 | .sys => 4

def Class.ofCode : Nat → Option Class
  | 0 => some .alu | 1 => some .mem | 2 => some .mat | 3 => some .eng | 4 => some .sys | _ => none

/-! ## The formats -/

def OForm.pack (f : OForm) (op : Nat) : Nat :=
  op * 2 ^ 56 + f.d.code * 2 ^ 48 + f.a.code * 2 ^ 33 + f.b.code * 2 ^ 18 + f.c.code * 2 ^ 10 + f.ty.code * 2 ^ 6
    + f.rnd.code * 2 ^ 4 + b2n f.sat * 2 ^ 3 + b2n f.ftz * 2 ^ 2 + b2n f.uni

def OForm.parse (w : Nat) : Option OForm :=
  match Ty.ofCode (fld w 6 4) with
  | none => none
  | some ty => some
    { d := .ofCode (fld w 48 8), a := .ofCode (fld w 33 15), b := .ofCode (fld w 18 15), c := .ofCode (fld w 10 8), ty,
      rnd := .ofCode (fld w 4 2), sat := bitAt w 3, ftz := bitAt w 2, uni := bitAt w 0 }

/-- The type field is 4 (F32), bits [17:13] the format code, bits [12:10] zero (R221). -/
def QForm.pack (f : QForm) (op : Nat) : Nat :=
  op * 2 ^ 56 + f.d.code * 2 ^ 48 + f.a.code * 2 ^ 33 + f.b.code * 2 ^ 18 + f.fmt.code * 2 ^ 13 + 4 * 2 ^ 6
    + f.rnd.code * 2 ^ 4 + b2n f.sat * 2 ^ 3 + b2n f.ftz * 2 ^ 2 + b2n f.uni

def QForm.parse (w : Nat) : QForm :=
  { d := .ofCode (fld w 48 8), a := .ofCode (fld w 33 15), b := .ofCode (fld w 18 15), fmt := .ofCode (fld w 13 5),
    rnd := .ofCode (fld w 4 2), sat := bitAt w 3, ftz := bitAt w 2, uni := bitAt w 0 }

def IForm.pack (f : IForm) (op : Nat) : Nat :=
  op * 2 ^ 56 + f.d.code * 2 ^ 48 + f.a.code * 2 ^ 33 + b2n f.fill * 2 ^ 32 + f.imm.toNat

def IForm.parse (w : Nat) : IForm :=
  { d := .ofCode (fld w 48 8), a := .ofCode (fld w 33 15), fill := bitAt w 32, imm := BitVec.ofNat 32 (fld w 0 32) }

def MForm.pack (f : MForm) (op : Nat) : Nat :=
  op * 2 ^ 56 + f.data.code * 2 ^ 48 + f.addr.code * 2 ^ 40 + f.off.toNat * 2 ^ 20 + f.recIx.toNat * 2 ^ 14
    + f.req.code * 2 ^ 12 + f.hint.code * 2 ^ 10 + f.ord.code * 2 ^ 8 + f.scope.code * 2 ^ 5 + f.size.code * 2 ^ 2
    + b2n f.aux * 2 + b2n f.fb

def MForm.parse (w : Nat) : Option MForm :=
  match Scope.ofCode (fld w 5 3), Size.ofCode (fld w 2 3) with
  | some scope, some size => some
    { data := .ofCode (fld w 48 8), addr := .ofCode (fld w 40 8), off := BitVec.ofNat 20 (fld w 20 20),
      recIx := BitVec.ofNat 6 (fld w 14 6), req := .ofCode (fld w 12 2), hint := .ofCode (fld w 10 2),
      ord := .ofCode (fld w 8 2), scope, size, aux := bitAt w 1, fb := bitAt w 0 }
  | _, _ => none

def AForm.pack (f : AForm) (op : Nat) : Nat :=
  op * 2 ^ 56 + f.data.code * 2 ^ 48 + f.addr.code * 2 ^ 40 + f.off.toNat * 2 ^ 28 + f.op.code * 2 ^ 24
    + f.recIx.toNat * 2 ^ 14 + f.req.code * 2 ^ 12 + f.hint.code * 2 ^ 10 + f.ord.code * 2 ^ 8 + f.scope.code * 2 ^ 5
    + f.size.code * 2 ^ 2 + b2n f.fb

def AForm.parse (w : Nat) : Option AForm :=
  match AtomOp.ofCode (fld w 24 4), Scope.ofCode (fld w 5 3), Size.ofCode (fld w 2 3) with
  | some op, some scope, some size => some
    { data := .ofCode (fld w 48 8), addr := .ofCode (fld w 40 8), off := BitVec.ofNat 12 (fld w 28 12), op,
      recIx := BitVec.ofNat 6 (fld w 14 6), req := .ofCode (fld w 12 2), hint := .ofCode (fld w 10 2),
      ord := .ofCode (fld w 8 2), scope, size, fb := bitAt w 0 }
  | _, _, _ => none

/-- The control format (R132, R172). -/
def packC (op : Nat) (cond : Spec) (kind sub : Nat) (index : Nat) (target : BitVec 32) : Nat :=
  op * 2 ^ 56 + cond.code * 2 ^ 48 + kind * 2 ^ 44 + sub * 2 ^ 40 + index * 2 ^ 32 + target.toNat

def XForm.pack (f : XForm) : Nat :=
  0x81 * 2 ^ 56 + f.acc.toNat * 2 ^ 52 + f.slot.toNat * 2 ^ 45 + f.abase.code * 2 ^ 37 + f.aoff.toNat * 2 ^ 21
    + f.chunks.toNat * 2 ^ 15 + f.sem.code * 2 ^ 12 + f.afmt.code * 2 ^ 7 + b2n f.col * 2 ^ 6 + b2n f.skip * 2 ^ 5
    + b2n f.accum * 2 ^ 4 + f.accf.code * 2 ^ 2 + b2n f.sat * 2 + b2n f.fb

def XForm.parse (w : Nat) : Option XForm :=
  match Semiring.ofCode (fld w 12 3), AccFmt.ofCode (fld w 2 2) with
  | some sem, some accf => some
    { acc := BitVec.ofNat 4 (fld w 52 4), slot := BitVec.ofNat 7 (fld w 45 7), abase := .ofCode (fld w 37 8),
      aoff := BitVec.ofNat 16 (fld w 21 16), chunks := BitVec.ofNat 6 (fld w 15 6), sem, afmt := .ofCode (fld w 7 5),
      col := bitAt w 6, skip := bitAt w 5, accum := bitAt w 4, accf, sat := bitAt w 1, fb := bitAt w 0 }
  | _, _ => none

def EForm.pack (f : EForm) : Nat :=
  0x70 * 2 ^ 56 + f.place.toNat * 2 ^ 44 + f.src.code * 2 ^ 36 + f.dst.code * 2 ^ 28 + f.len.code * 2 ^ 20
    + f.bar.toNat * 2 ^ 8 + b2n f.twoD * 2 ^ 5 + b2n f.sig * 2 ^ 4 + b2n f.fb

def EForm.parse (w : Nat) : EForm :=
  { place := BitVec.ofNat 12 (fld w 44 12), src := .ofCode (fld w 36 8), dst := .ofCode (fld w 28 8),
    len := .ofCode (fld w 20 8), bar := BitVec.ofNat 12 (fld w 8 12), twoD := bitAt w 5, sig := bitAt w 4, fb := bitAt w 0 }

/-- An O-layout word with plain specifiers: patterns, parameters and unlisted fields zero. -/
def packP (op : Nat) (d a b : Nat) (c : Nat) (low : Nat) : Nat :=
  op * 2 ^ 56 + d * 2 ^ 48 + a * 2 ^ 40 + b * 2 ^ 25 + c * 2 ^ 10 + low

/-! ## The clause header -/

def Header.setCode : Option (Fin 12) → Nat
  | none => 15
  | some f => f.val

/-- A header's word (R119). -/
def Header.pack (h : Header) : Nat :=
  0b111111 * 2 ^ 58 + h.cls.code * 2 ^ 55 + h.count.val * 2 ^ 51 + h.wait.toNat * 2 ^ 39 + setCode h.setA * 2 ^ 35
    + setCode h.setB * 2 ^ 31 + b2n h.yield * 2 ^ 30

def Header.setOf (c : Nat) : Option (Option (Fin 12)) :=
  if c < 12 then some (some (Fin.ofNat 12 c)) else if c = 15 then some none else none

/-- The header that a word holds, when it is one that R119 allows. -/
def decodeHeader (w : Word) : Option Header :=
  let n := w.toNat
  match Class.ofCode (fld n 55 3), Header.setOf (fld n 35 4), Header.setOf (fld n 31 4) with
  | some cls, some setA, some setB =>
    if fld n 58 6 = 0b111111 ∧ fld n 0 30 = 0 then
      some { cls, count := Fin.ofNat 16 (fld n 51 4), wait := BitVec.ofNat 12 (fld n 39 12), setA, setB, yield := bitAt n 30 }
    else none
  | _, _, _ => none

/-- A word whose bits [63:58] are all ones is a clause header in shape (R31, R171). -/
def isHeaderWord (w : Word) : Bool := fld w.toNat 58 6 == 0b111111

/-! ## Instructions -/

/-- The word of an instruction as a number below 2^64; 0 for a device step, which has no encoding (0 itself is no
instruction: NOP holds 0xE0 in its condition field). -/
def encodeRow : Instr → Nat
  | .nop => packC 0x00 (.int 0) 0 0 0 0
  | .bra sub c t => packC 0x01 c 0 sub.code 0 t
  | .brd c t => packC 0x02 c 0 0 0 t
  | .tokenIf => packC 0x03 (.int 0) 0 0 0 0
  | .tokenLoop t => packC 0x03 (.int 0) 1 0 0 t
  | .joinIf t => packC 0x04 (.int 0) 0 0 0 t
  | .joinLoop c t => packC 0x04 c 1 0 0 t
  | .brk c => packC 0x05 c 0 0 0 0
  | .cont c => packC 0x06 c 0 0 0 0
  | .brx x => packC 0x07 (.int 0) 0 0 x.code 0
  | .call c k t => packC 0x08 c k.toNat 0 0 t
  | .callx c k x => packC 0x09 c k.toNat 0 x.code 0
  | .ret => packC 0x0A (.int 0) 0 0 0 0
  | .exit c => packC 0x0B c 0 0 0 0
  | .yield => packC 0x0C (.int 0) 0 0 0 0
  | .wsyncWait => packC 0x0D (.int 0) 0 0 0 0
  | .wsyncWb => packC 0x0D (.int 0) 0 1 0 0
  | .winfo k d => packC 0x0E (.int 0) 0 k.code d.code 0
  | .pauseTime n => packC 0x0F (.int 0) 0 0 0 (n.zeroExtend 32)
  | .pauseRecv n => packC 0x0F (.int 0) 0 1 0 (n.zeroExtend 32)
  | .add f => f.pack 0x10
  | .sub f => f.pack 0x11
  | .mul f => f.pack 0x12
  | .mulh f => f.pack 0x13
  | .mad f => f.pack 0x14
  | .and f => f.pack 0x15
  | .or f => f.pack 0x16
  | .xor f => f.pack 0x17
  | .andn f => f.pack 0x18
  | .shl f => f.pack 0x19
  | .shr f => f.pack 0x1a
  | .sar f => f.pack 0x1b
  | .rot f => f.pack 0x1c
  | .min f => f.pack 0x1d
  | .max f => f.pack 0x1e
  | .sel f => f.pack 0x1f
  | .abs f => f.pack 0x20
  | .neg f => f.pack 0x21
  | .clz f => f.pack 0x22
  | .popc f => f.pack 0x23
  | .brev f => f.pack 0x24
  | .bfe f => f.pack 0x25
  | .bfi f => f.pack 0x26
  | .cmp f => f.pack 0x27
  | .lea f => f.pack 0x28
  | .mov f => f.pack 0x29
  | .movi f => f.pack 0x2a
  | .addi f => f.pack 0x2b
  | .andi f => f.pack 0x2c
  | .ori f => f.pack 0x2d
  | .cmpi f => f.pack 0x2e
  | .idot4 f => f.pack 0x2f
  | .fadd f => f.pack 0x30
  | .fsub f => f.pack 0x31
  | .fmul f => f.pack 0x32
  | .ffma f => f.pack 0x33
  | .fmin f => f.pack 0x34
  | .fmax f => f.pack 0x35
  | .fminnm f => f.pack 0x36
  | .fmaxnm f => f.pack 0x37
  | .fcmp f => f.pack 0x38
  | .fclass f => f.pack 0x39
  | .frnd f => f.pack 0x3a
  | .fdiv f => f.pack 0x3b
  | .fsqrt f => f.pack 0x3c
  | .fdot2 f => f.pack 0x3d
  | .fabs f => f.pack 0x3e
  | .fneg f => f.pack 0x3f
  | .fexp2f f => f.pack 0x40
  | .flog2m f => f.pack 0x41
  | .frcp f => f.pack 0x42
  | .frsq f => f.pack 0x43
  | .fsinpi f => f.pack 0x44
  | .fcospi f => f.pack 0x45
  | .fldexp f => f.pack 0x46
  | .fgetexp f => f.pack 0x47
  | .fgetman f => f.pack 0x48
  | .fcvt f => f.pack 0x49
  | .itof f => f.pack 0x4a
  | .ftoi f => f.pack 0x4b
  | .qcvt f => f.pack 0x4c
  | .dqcvt f => f.pack 0x4d
  | .qscale f => f.pack 0x4e
  | .shfl f => f.pack 0x50
  | .vote f => f.pack 0x51
  | .redux f => f.pack 0x52
  | .scan f => f.pack 0x53
  | .elect f => f.pack 0x54
  | .bcast f => f.pack 0x55
  | .setlane f => f.pack 0x56
  | .ld f => f.pack 0x60
  | .st f => f.pack 0x61
  | .ldu f => f.pack 0x62
  | .stu f => f.pack 0x63
  | .atom f => f.pack 0x64
  | .atomu f => f.pack 0x65
  | .ldfe f => f.pack 0x66
  | .stfe f => f.pack 0x67
  | .pref f => f.pack 0x69
  | .vdec f => f.pack 0x6a
  | .venc f => f.pack 0x6b
  | .fence f => f.pack 0x6c
  | .flushl f => f.pack 0x6d
  | .invl f => f.pack 0x6e
  | .subscr f => f.pack 0x6f
  | .mst f => f.pack 0x85
  | .bufstRecord f => f.pack 0x68
  | .bufstBuffer f => f.pack 0x68
  | .bcopy f => f.pack
  | .stream a n fb => packP 0x71 0 a.code (0xE0 + n.val) 0 (b2n fb * 2)
  | .sclose n fb => packP 0x72 0 0 (0xE0 + n.val) 0 (b2n fb * 2)
  | .barw a p sc fb => packP 0x73 0 a.code p.code 0 (sc.code * 2 ^ 4 + b2n fb * 2)
  | .bara d a n sc fb => packP 0x74 d.code a.code n.code 0 (sc.code * 2 ^ 4 + b2n fb * 2)
  | .tbar fb => packP 0x75 0 0 0 0 (b2n fb * 2)
  | .coll a fb => packP 0x76 0 a.code 0 0 (b2n fb * 2)
  | .launch d a fb => packP 0x77 d.code a.code 0 0 (b2n fb * 2 + 1)
  | .mboxBind d a p => 0x78 * 2 ^ 56 + d.code * 2 ^ 48 + a.code * 2 ^ 40 + p.toNat
  | .mboxUnbind d a p => 0x78 * 2 ^ 56 + d.code * 2 ^ 48 + a.code * 2 ^ 40 + 1 * 2 ^ 28 + p.toNat
  | .mboxCount d a p => 0x78 * 2 ^ 56 + d.code * 2 ^ 48 + a.code * 2 ^ 40 + 2 * 2 ^ 28 + p.toNat
  | .depsig fb => packP 0x79 0 0 0 0 (b2n fb * 2)
  | .waypt fb => packP 0x7A 0 0 0 0 (b2n fb * 2)
  | .mldb a b fmt fb => packP 0x80 0 a.code b.code 0 (fmt.code * 2 ^ 13 + b2n fb * 2)
  | .mma f => f.pack
  | .mzero b fb => packP 0x82 0 0 b.code 0 (b2n fb * 2)
  | .mrd d a b ty rnd sat fb =>
      packP 0x83 d.code a.code b.code 0 (ty.code * 2 ^ 6 + rnd.code * 2 ^ 4 + b2n sat * 2 ^ 3 + b2n fb * 2)
  | .mwr a b c ty fb => packP 0x84 0 a.code b.code c.code (ty.code * 2 ^ 6 + b2n fb * 2)
  | .mwait b fb => packP 0x86 0 0 b.code 0 (b2n fb * 2)
  | .sread d n => packP 0x90 d.code 0 0 n.toNat 0
  | .swrite a n => packP 0x91 0 a.code 0 n.toNat 0
  | .trap imm => 0x92 * 2 ^ 56 + imm.toNat
  | .rftRetry => packP 0x93 0 0 0xE0 0 0
  | .rftNext => packP 0x93 0 0 0xE1 0 0
  | .rftAbort => packP 0x93 0 0 0xE2 0 0
  | .mappg d a b fb => packP 0x94 d.code a.code b.code 0 (b2n fb * 2)
  | .tlbinvPage a fb => packP 0x95 0 a.code 0xE0 0 (b2n fb * 2)
  | .tlbinvContext a fb => packP 0x95 0 a.code 0xE1 0 (b2n fb * 2)
  | .ctxsv a fb => packP 0x96 0 a.code 0 0 (b2n fb * 2)
  | _ => 0

/-- The word of an instruction; `none` for a device step. -/
def encode (i : Instr) : Option Nat := if encodeRow i = 0 then none else some (encodeRow i)

/-- Why a word is no instruction: the checks 4 and 6 of R121. -/
inductive DecodeError where
  /-- Top byte 0xFC to 0xFF: a header's signature in an instruction position. -/
  | headerSignature
  /-- An opcode that R141 leaves unassigned. -/
  | unassignedOpcode
  /-- A field that the format or the instruction's description fixes, reserves or calls illegal holds another value. -/
  | illegalField
  deriving DecidableEq, Repr

/-- The opcodes that R141 assigns. -/
def opcodeAssigned (op : Nat) : Bool :=
  op ≤ 0x4E || (0x50 ≤ op && op ≤ 0x56) || (0x60 ≤ op && op ≤ 0x7A) || (0x80 ≤ op && op ≤ 0x86) || (0x90 ≤ op && op ≤ 0x96)

/-- The fields of the word read under its opcode's format, before the fixed fields are compared. -/
def parseRow (w : Nat) : Option Instr :=
  let c := Spec.ofCode (fld w 48 8)
  let x := Spec.ofCode (fld w 32 8)
  let t := BitVec.ofNat 32 (fld w 0 32)
  let a := Spec.ofCode (fld w 40 8)
  let b := Spec.ofCode (fld w 25 8)
  let fb := bitAt w 1
  match fld w 56 8 with
  | 0x00 => some .nop
  | 0x01 => (BraSub.ofCode (fld w 40 4)).map fun k => .bra k c t
  | 0x02 => some (.brd c t)
  | 0x03 => some (if fld w 44 4 = 0 then .tokenIf else .tokenLoop t)
  | 0x04 => some (if fld w 44 4 = 0 then .joinIf t else .joinLoop c t)
  | 0x05 => some (.brk c)
  | 0x06 => some (.cont c)
  | 0x07 => some (.brx x)
  | 0x08 => some (.call c (BitVec.ofNat 4 (fld w 44 4)) t)
  | 0x09 => some (.callx c (BitVec.ofNat 4 (fld w 44 4)) x)
  | 0x0A => some .ret
  | 0x0B => some (.exit c)
  | 0x0C => some .yield
  | 0x0D => some (if fld w 40 4 = 0 then .wsyncWait else .wsyncWb)
  | 0x0E => (WItem.ofCode (fld w 40 4)).map fun k => .winfo k x
  | 0x0F => some (if fld w 40 4 = 0 then .pauseTime (t.setWidth 16) else .pauseRecv (t.setWidth 16))
  | 0x10 => (OForm.parse w).map .add
  | 0x11 => (OForm.parse w).map .sub
  | 0x12 => (OForm.parse w).map .mul
  | 0x13 => (OForm.parse w).map .mulh
  | 0x14 => (OForm.parse w).map .mad
  | 0x15 => (OForm.parse w).map .and
  | 0x16 => (OForm.parse w).map .or
  | 0x17 => (OForm.parse w).map .xor
  | 0x18 => (OForm.parse w).map .andn
  | 0x19 => (OForm.parse w).map .shl
  | 0x1a => (OForm.parse w).map .shr
  | 0x1b => (OForm.parse w).map .sar
  | 0x1c => (OForm.parse w).map .rot
  | 0x1d => (OForm.parse w).map .min
  | 0x1e => (OForm.parse w).map .max
  | 0x1f => (OForm.parse w).map .sel
  | 0x20 => (OForm.parse w).map .abs
  | 0x21 => (OForm.parse w).map .neg
  | 0x22 => (OForm.parse w).map .clz
  | 0x23 => (OForm.parse w).map .popc
  | 0x24 => (OForm.parse w).map .brev
  | 0x25 => (OForm.parse w).map .bfe
  | 0x26 => (OForm.parse w).map .bfi
  | 0x27 => (OForm.parse w).map .cmp
  | 0x28 => (OForm.parse w).map .lea
  | 0x29 => (OForm.parse w).map .mov
  | 0x2a => some (.movi (IForm.parse w))
  | 0x2b => some (.addi (IForm.parse w))
  | 0x2c => some (.andi (IForm.parse w))
  | 0x2d => some (.ori (IForm.parse w))
  | 0x2e => some (.cmpi (IForm.parse w))
  | 0x2f => (OForm.parse w).map .idot4
  | 0x30 => (OForm.parse w).map .fadd
  | 0x31 => (OForm.parse w).map .fsub
  | 0x32 => (OForm.parse w).map .fmul
  | 0x33 => (OForm.parse w).map .ffma
  | 0x34 => (OForm.parse w).map .fmin
  | 0x35 => (OForm.parse w).map .fmax
  | 0x36 => (OForm.parse w).map .fminnm
  | 0x37 => (OForm.parse w).map .fmaxnm
  | 0x38 => (OForm.parse w).map .fcmp
  | 0x39 => (OForm.parse w).map .fclass
  | 0x3a => (OForm.parse w).map .frnd
  | 0x3b => (OForm.parse w).map .fdiv
  | 0x3c => (OForm.parse w).map .fsqrt
  | 0x3d => (OForm.parse w).map .fdot2
  | 0x3e => (OForm.parse w).map .fabs
  | 0x3f => (OForm.parse w).map .fneg
  | 0x40 => (OForm.parse w).map .fexp2f
  | 0x41 => (OForm.parse w).map .flog2m
  | 0x42 => (OForm.parse w).map .frcp
  | 0x43 => (OForm.parse w).map .frsq
  | 0x44 => (OForm.parse w).map .fsinpi
  | 0x45 => (OForm.parse w).map .fcospi
  | 0x46 => (OForm.parse w).map .fldexp
  | 0x47 => (OForm.parse w).map .fgetexp
  | 0x48 => (OForm.parse w).map .fgetman
  | 0x49 => (OForm.parse w).map .fcvt
  | 0x4a => (OForm.parse w).map .itof
  | 0x4b => (OForm.parse w).map .ftoi
  | 0x4c => some (.qcvt (QForm.parse w))
  | 0x4d => some (.dqcvt (QForm.parse w))
  | 0x4e => some (.qscale (QForm.parse w))
  | 0x50 => (OForm.parse w).map .shfl
  | 0x51 => (OForm.parse w).map .vote
  | 0x52 => (OForm.parse w).map .redux
  | 0x53 => (OForm.parse w).map .scan
  | 0x54 => (OForm.parse w).map .elect
  | 0x55 => (OForm.parse w).map .bcast
  | 0x56 => (OForm.parse w).map .setlane
  | 0x60 => (MForm.parse w).map .ld
  | 0x61 => (MForm.parse w).map .st
  | 0x62 => (MForm.parse w).map .ldu
  | 0x63 => (MForm.parse w).map .stu
  | 0x64 => (AForm.parse w).map .atom
  | 0x65 => (AForm.parse w).map .atomu
  | 0x66 => (MForm.parse w).map .ldfe
  | 0x67 => (MForm.parse w).map .stfe
  | 0x69 => (MForm.parse w).map .pref
  | 0x6a => (MForm.parse w).map .vdec
  | 0x6b => (MForm.parse w).map .venc
  | 0x6c => (MForm.parse w).map .fence
  | 0x6d => (MForm.parse w).map .flushl
  | 0x6e => (MForm.parse w).map .invl
  | 0x6f => (MForm.parse w).map .subscr
  | 0x85 => (MForm.parse w).map .mst
  | 0x68 => (MForm.parse w).map fun f => if f.aux then .bufstBuffer f else .bufstRecord f
  | 0x70 => some (.bcopy (EForm.parse w))
  | 0x71 => some (.stream a (Fin.ofNat 8 (fld w 25 3)) fb)
  | 0x72 => some (.sclose (Fin.ofNat 8 (fld w 25 3)) fb)
  | 0x73 => some (.barw a b (BScope.ofCode (fld w 4 2)) fb)
  | 0x74 => some (.bara c a b (BScope.ofCode (fld w 4 2)) fb)
  | 0x75 => some (.tbar fb)
  | 0x76 => some (.coll a fb)
  | 0x77 => some (.launch c a fb)
  | 0x78 =>
    let p := BitVec.ofNat 12 (fld w 0 12)
    match fld w 28 4 with
    | 0 => some (.mboxBind c a p)
    | 1 => some (.mboxUnbind c a p)
    | 2 => some (.mboxCount c a p)
    | _ => none
  | 0x79 => some (.depsig fb)
  | 0x7A => some (.waypt fb)
  | 0x80 => some (.mldb a b (Fmt.ofCode (fld w 13 5)) fb)
  | 0x81 => (XForm.parse w).map .mma
  | 0x82 => some (.mzero b fb)
  | 0x83 => (Ty.ofCode (fld w 6 4)).map fun ty => .mrd c a b ty (Rnd.ofCode (fld w 4 2)) (bitAt w 3) fb
  | 0x84 => (Ty.ofCode (fld w 6 4)).map fun ty => .mwr a b (Spec.ofCode (fld w 10 8)) ty fb
  | 0x86 => some (.mwait b fb)
  | 0x90 => some (.sread c (BitVec.ofNat 8 (fld w 10 8)))
  | 0x91 => some (.swrite a (BitVec.ofNat 8 (fld w 10 8)))
  | 0x92 => some (.trap t)
  | 0x93 =>
    match fld w 25 8 with
    | 0xE0 => some .rftRetry
    | 0xE1 => some .rftNext
    | 0xE2 => some .rftAbort
    | _ => none
  | 0x94 => some (.mappg c a b fb)
  | 0x95 =>
    match fld w 25 8 with
    | 0xE0 => some (.tlbinvPage a fb)
    | 0xE1 => some (.tlbinvContext a fb)
    | _ => none
  | 0x96 => some (.ctxsv a fb)
  | _ => none

/-- The decoder: checks 4 and 6 of R121 on one instruction word. A word is an instruction when the fields read from it
are well formed and encode back to the word, so that no bit outside the listed fields is ignored. -/
def decode (w : Word) : Except DecodeError Instr :=
  let n := w.toNat
  if isHeaderWord w then .error .headerSignature
  else if !opcodeAssigned (fld n 56 8) then .error .unassignedOpcode
  else match parseRow n with
    | none => .error .illegalField
    | some i => if i.wf && encode i == some n then .ok i else .error .illegalField

/-- The decoder's reading of an instruction word. -/
def decode? (w : Word) : Option Instr :=
  match decode w with
  | .ok i => some i
  | .error _ => none

/-- The instruction read from bits numbered as spec/opcode_table.json numbers them; the bits above `nbits` are zero.
Instructions are one 64-bit word, stored little-endian (R118), so the table's numbering is the word's own. -/
def decodeTableWord (nbits w : Nat) : Option Instr :=
  decode? (BitVec.ofNat 64 (w % 2 ^ nbits))

/-! ## Classes and counting -/

/-- The engine class of each instruction (R141); control instructions and device steps have none. -/
def Instr.cls : Instr → Option Class
  | .ld _ | .st _ | .ldu _ | .stu _ | .atom _ | .atomu _ | .ldfe _ | .stfe _ | .bufstRecord _ | .bufstBuffer _ | .pref _
  | .vdec _ | .venc _ | .fence _ | .flushl _ | .invl _ | .subscr _ => some .mem
  | .bcopy _ | .stream _ _ _ | .sclose _ _ | .barw _ _ _ _ | .bara _ _ _ _ _ | .tbar _ | .coll _ _ | .launch _ _ _
  | .mboxBind _ _ _ | .mboxUnbind _ _ _ | .mboxCount _ _ _ | .depsig _ | .waypt _ => some .eng
  | .mldb _ _ _ _ | .mma _ | .mzero _ _ | .mrd _ _ _ _ _ _ _ | .mwr _ _ _ _ _ | .mst _ | .mwait _ _ => some .mat
  | .sread _ _ | .swrite _ _ | .trap _ | .rftRetry | .rftNext | .rftAbort | .mappg _ _ _ _ | .tlbinvPage _ _
  | .tlbinvContext _ _ | .ctxsv _ _ => some .sys
  | i => match encode i with
    | some n => if 0x10 ≤ fld n 56 8 then some .alu else none
    | none => none

/-- Control instructions: opcodes 0x00 to 0x0F (R120). -/
def Instr.isControl : Instr → Bool
  | .nop | .bra _ _ _ | .brd _ _ | .tokenIf | .tokenLoop _ | .joinIf _ | .joinLoop _ _ | .brk _ | .cont _ | .brx _
  | .call _ _ _ | .callx _ _ _ | .ret | .exit _ | .yield | .wsyncWait | .wsyncWb | .winfo _ _ | .pauseTime _
  | .pauseRecv _ => true
  | _ => false

/-- The flag-select bit of a counted instruction (R125); `none` for an instruction that is not counted. -/
def Instr.flagSelect : Instr → Option Bool
  | .ld f | .st f | .ldu f | .stu f | .ldfe f | .stfe f | .bufstRecord f | .bufstBuffer f | .pref f | .vdec f | .venc f
  | .fence f | .flushl f | .invl f | .subscr f | .mst f => some f.fb
  | .atom f | .atomu f => some f.fb
  | .bcopy f => some f.fb
  | .mma f => some f.fb
  | .stream _ _ fb | .sclose _ fb | .barw _ _ _ fb | .bara _ _ _ _ fb | .tbar fb | .coll _ fb | .launch _ _ fb
  | .depsig fb | .waypt fb | .mldb _ _ _ fb | .mzero _ fb | .mrd _ _ _ _ _ _ fb | .mwr _ _ _ _ fb | .mwait _ fb
  | .mappg _ _ _ fb | .tlbinvPage _ fb | .tlbinvContext _ fb | .ctxsv _ fb => some fb
  | _ => none

end Sys2Proof
end

