-- ==== Sys2Proof/Machine/Real.lean ====
section
/-! DEFINITION. Exact rational arithmetic for the number formats: fractions with a positive denominator, not reduced, and
the roundings of R52 to integers. -/
namespace Sys2Proof.Machine

/-- The fraction num / den, den positive. -/
structure Frac where
  num : Int
  den : Nat
  deriving DecidableEq, Repr

namespace Frac

def ofInt (n : Int) : Frac := ⟨n, 1⟩
def neg (x : Frac) : Frac := ⟨-x.num, x.den⟩
def abs (x : Frac) : Frac := ⟨x.num.natAbs, x.den⟩
def add (x y : Frac) : Frac :=
  if x.den = y.den then ⟨x.num + y.num, x.den⟩ else ⟨x.num * y.den + y.num * x.den, x.den * y.den⟩
def sub (x y : Frac) : Frac := x.add y.neg
def mul (x y : Frac) : Frac := ⟨x.num * y.num, x.den * y.den⟩
/-- x / y for y not 0. -/
def div (x y : Frac) : Frac :=
  if y.num < 0 then ⟨-(x.num * y.den), x.den * y.num.natAbs⟩ else ⟨x.num * y.den, x.den * y.num.natAbs⟩
/-- x × 2^e. -/
def shift (x : Frac) (e : Int) : Frac :=
  if 0 ≤ e then ⟨x.num * (2 ^ e.toNat : Nat), x.den⟩ else ⟨x.num, x.den * 2 ^ (-e).toNat⟩
def lt (x y : Frac) : Bool := decide (x.num * y.den < y.num * x.den)
def eq (x y : Frac) : Bool := decide (x.num * y.den = y.num * x.den)
def isNeg (x : Frac) : Bool := decide (x.num < 0)
def isZero (x : Frac) : Bool := decide (x.num = 0)

/-- `exp_of`: floor of log2 |x|, for x not 0 (R52). -/
def exp (x : Frac) : Int :=
  let n := x.num.natAbs
  let k : Int := (Nat.log2 n : Int) - Nat.log2 x.den
  -- 2^k ≤ n / den, or one less
  if 0 ≤ k then (if x.den * 2 ^ k.toNat ≤ n then k else k - 1)
  else (if x.den ≤ n * 2 ^ (-k).toNat then k else k - 1)

/-- `round_int` (R52). -/
def round (x : Frac) : Rnd → Int
  | .rne =>
    let q := x.num / x.den
    let r := x.num % x.den
    if 2 * r < x.den then q else if 2 * r > x.den then q + 1 else if q % 2 = 0 then q else q + 1
  | .rtz => if x.num % x.den ≠ 0 ∧ x.num < 0 then x.num / x.den + 1 else x.num / x.den
  | .rup => if x.num % x.den ≠ 0 then x.num / x.den + 1 else x.num / x.den
  | .rdn => x.num / x.den

end Frac

/-- The largest r with r² ≤ n, by bisection on the bits of r. -/
def isqrt (n : Nat) : Nat :=
  let rec go : Nat → Nat → Nat
    | 0, r => r
    | k + 1, r => go k (if (r + 2 ^ k) * (r + 2 ^ k) ≤ n then r + 2 ^ k else r)
  go (Nat.log2 n / 2 + 1) 0

/-- A value as `decode` gives it (R50, R51): a NaN with its sign and payload, an infinity, a zero, or a nonzero number. -/
inductive FVal where
  | nan (quiet neg : Bool) (payload : Nat)
  | inf (neg : Bool)
  | zero (neg : Bool)
  | fin (x : Frac)
  deriving DecidableEq, Repr

namespace FVal

def ofFrac (x : Frac) : FVal := if x.isZero then .zero false else .fin x
def ofInt (n : Int) : FVal := ofFrac (Frac.ofInt n)

def isNan : FVal → Bool
  | .nan .. => true
  | _ => false

def isSignalling : FVal → Bool
  | .nan q _ _ => !q
  | _ => false

def isInf : FVal → Bool
  | .inf _ => true
  | _ => false

def isFinite : FVal → Bool
  | .zero _ | .fin _ => true
  | _ => false

def isZero : FVal → Bool
  | .zero _ => true
  | _ => false

/-- The sign of a value. -/
def neg : FVal → Bool
  | .nan _ n _ => n
  | .inf n => n
  | .zero n => n
  | .fin x => x.isNeg

/-- The number of a finite value; 0 otherwise. -/
def frac : FVal → Frac
  | .fin x => x
  | _ => ⟨0, 1⟩

/-- x × 2^e; zeros, infinities and NaNs keep their kind (R59). -/
def shift (x : FVal) (e : Int) : FVal :=
  match x with
  | .fin q => .fin (q.shift e)
  | y => y

end FVal

end Sys2Proof.Machine
end

