-- ==== Sys2Proof/Machine/Formats.lean ====
section
/-! DEFINITION. Number formats, rounding, scales and the conversion stage (R46 to R67). -/
namespace Sys2Proof

/-! ## Formats (R46, R48, R51) -/

/-- The element encoding of a format code; the asymmetric codes hold unsigned elements. -/
def Fmt.elem : Fmt → Fmt
  | .e4m3s | .e4m3x => .e4m3
  | .e5m2s => .e5m2
  | .e3m2s => .e3m2
  | .e2m3s => .e2m3
  | .e2m1s | .e2m1s16 | .e2m1x => .e2m1
  | .i8s => .i8
  | .i4s => .i4
  | .a8g32 | .a8g64 | .a8g128 => .n8
  | .a4g32 | .a4g64 | .a4g128 => .n4
  | f => f

/-- Element bits (R46). -/
def Fmt.bits (f : Fmt) : Nat :=
  match f.elem with
  | .f64 => 64 | .f32 => 32 | .f16 => 16 | .bf16 => 16 | .e4m3 => 8 | .e5m2 => 8 | .e3m2 => 6 | .e2m3 => 6 | .e2m1 => 4
  | .i32 => 32 | .i16 => 16 | .i8 => 8 | .n8 => 8 | .i4 => 4 | .n4 => 4 | _ => 1

/-- Elements of a block; 32 where the code names no block (R38, R46). -/
def Fmt.block : Fmt → Nat
  | .e2m1s16 => 16
  | .a8g64 | .a4g64 => 64
  | .a8g128 | .a4g128 => 128
  | _ => 32

def Fmt.isAsym : Fmt → Bool
  | .a8g32 | .a8g64 | .a8g128 | .a4g32 | .a4g64 | .a4g128 => true
  | _ => false

def Fmt.isInterchange : Fmt → Bool
  | .e4m3x | .e2m1x => true
  | _ => false

/-- Bytes of a scale entry (R39). -/
def Fmt.scaleBytes (f : Fmt) : Nat := if f.isAsym then 4 else 1

/-- Integer element formats (R51); the asymmetric codes are not. -/
def Fmt.isInteger : Fmt → Bool
  | .i32 | .i16 | .i8 | .n8 | .i4 | .n4 | .b1 => true
  | _ => false

/-- Range of an integer element. -/
def Fmt.range (f : Fmt) : Int × Int :=
  match f with
  | .i32 | .i16 | .i8 | .i4 => (-(2 ^ (f.bits - 1) : Nat), (2 ^ (f.bits - 1) : Nat) - 1)
  | _ => (0, (2 ^ f.bits : Nat) - 1)

/-- Layout of a floating-point element: exponent width, mantissa width, bias (R48). -/
structure Layout where
  w : Nat
  m : Nat
  b : Int
  deriving DecidableEq, Repr

def Fmt.layout (f : Fmt) : Layout :=
  match f with
  | .f64 => ⟨11, 52, 1023⟩ | .f32 => ⟨8, 23, 127⟩ | .f16 => ⟨5, 10, 15⟩ | .bf16 => ⟨8, 7, 127⟩ | .e4m3 => ⟨4, 3, 7⟩
  | .e5m2 => ⟨5, 2, 15⟩ | .e3m2 => ⟨3, 2, 3⟩ | .e2m3 => ⟨2, 3, 1⟩ | _ => ⟨2, 1, 1⟩

/-- Formats with infinities and NaNs laid out as R49's first item. -/
def Fmt.ieee : Fmt → Bool
  | .f64 | .f32 | .f16 | .bf16 | .e5m2 => true
  | _ => false

/-- The largest finite magnitude's pattern (R48). -/
def Fmt.maxPat (f : Fmt) : Nat :=
  let y := f.layout
  if f.ieee then (2 ^ y.w - 1) * 2 ^ y.m - 1 else if f = .e4m3 then 0x7E else 2 ^ (y.w + y.m) - 1

def Fmt.signBit (f : Fmt) : Nat := 2 ^ (f.layout.w + f.layout.m)

/-- The canonical NaN, where the format has one (R48, R49). -/
def Fmt.nan? (f : Fmt) : Option Nat :=
  if f.ieee then some ((2 ^ f.layout.w - 1) * 2 ^ f.layout.m + 2 ^ (f.layout.m - 1)) else if f = .e4m3 then some 0x7F else none

/-- The signed infinity, where the format has one. -/
def Fmt.inf? (f : Fmt) (neg : Bool) : Option Nat :=
  if f.ieee then some ((2 ^ f.layout.w - 1) * 2 ^ f.layout.m + (if neg then f.signBit else 0)) else none

/-- `emax` of R60. -/
def Fmt.emax (f : Fmt) : Int :=
  match f.elem with
  | .e4m3 => 8 | .e5m2 => 15 | .e3m2 => 4 | .e2m3 => 2 | .e2m1 => 2 | .i8 => 6 | _ => 2

end Sys2Proof

namespace Sys2Proof.Machine

/-! ## Flags of FPSTAT (R68) -/

def Fp.invalid : BitVec 7 := 1
def Fp.divZero : BitVec 7 := 2
def Fp.overflow : BitVec 7 := 4
def Fp.underflow : BitVec 7 := 8
def Fp.inexact : BitVec 7 := 16
def Fp.substitute : BitVec 7 := 32
def Fp.saturate : BitVec 7 := 64

/-- A value with the flags its making raised. -/
structure Flagged (α : Type) where
  val : α
  fp : BitVec 7

def Flagged.pure {α : Type} (x : α) : Flagged α := ⟨x, 0⟩

def raiseIf (b : Bool) (f : BitVec 7) : BitVec 7 := if b then f else 0

/-- `decode` of a floating-point pattern (R49, R50). -/
def decodeFloat (f : Fmt) (p : Nat) : FVal :=
  let y := f.layout
  let s := bitAtN p (y.w + y.m)
  let e := p / 2 ^ y.m % 2 ^ y.w
  let t := p % 2 ^ y.m
  if f.ieee && e == 2 ^ y.w - 1 then
    if t = 0 then .inf s else .nan (decide (2 ^ (y.m - 1) ≤ t)) s t
  else if f = .e4m3 ∧ e = 15 ∧ t = 7 then .nan true s t
  else if e = 0 then
    if t = 0 then .zero s else .fin ((Frac.ofInt (if s then -(t : Int) else t)).shift (1 - y.b - y.m))
  else .fin ((Frac.ofInt (if s then -((2 ^ y.m + t : Nat) : Int) else (2 ^ y.m + t : Nat))).shift (e - y.b - y.m))
where
  bitAtN (p i : Nat) : Bool := p / 2 ^ i % 2 == 1

/-- The integer value of an integer element (R51). -/
def decodeInt (f : Fmt) (p : Nat) : Int :=
  match f with
  | .i32 | .i16 | .i8 | .i4 => if p % 2 ^ f.bits < 2 ^ (f.bits - 1) then (p % 2 ^ f.bits : Nat) else (p % 2 ^ f.bits : Nat) - (2 ^ f.bits : Nat)
  | _ => (p % 2 ^ f.bits : Nat)

/-- `decode` of an element pattern without its scale (R50, R51). -/
def decodeElem (f : Fmt) (p : Nat) : FVal :=
  if f.isInteger then .ofInt (decodeInt f p) else decodeFloat f p

/-! ## Rounding (R52 to R54) -/

/-- Rounding to an integer range: the integer where it fits, else invalid and the nearest end where saturating. -/
def roundRange (lo hi : Int) (x : Frac) (mode : Rnd) (sat : Bool) : Flagged (Option Int) :=
  let y := x.round mode
  let fp := raiseIf (!x.eq (Frac.ofInt y)) Fp.inexact
  if lo ≤ y ∧ y ≤ hi then ⟨some y, fp⟩
  else if sat then ⟨some (if y < lo then lo else hi), fp ||| Fp.invalid ||| Fp.saturate⟩
  else ⟨none, fp ||| Fp.invalid⟩

/-- `overflow` (R53): magnitude pattern and flags. -/
def overflowPat (f : Fmt) (neg : Bool) (mode : Rnd) (sat : Bool) : Flagged (Option Nat) :=
  let s := if neg then f.signBit else 0
  let fp := Fp.overflow ||| Fp.inexact
  if sat then ⟨some (f.maxPat + s), fp ||| Fp.saturate⟩
  else if mode = .rtz ∨ (mode = .rup ∧ neg) ∨ (mode = .rdn ∧ !neg) then ⟨some (f.maxPat + s), fp⟩
  else ⟨f.inf? neg, fp⟩

/-- The grid point a nonzero number rounds to, as a magnitude pattern on an unbounded exponent (R52): the pattern, and
whether the grid point differs from the number. -/
def roundGrid (f : Fmt) (x : Frac) (mode : Rnd) : Nat × Bool :=
  let y := f.layout
  let e := max x.exp (1 - y.b)
  let q := x.shift (y.m - e)
  let k := q.round mode
  let n := k.natAbs
  -- significand n at exponent e
  let pat := if n < 2 ^ y.m then n else (e + y.b).toNat * 2 ^ y.m + (n - 2 ^ y.m)
  (pat, !q.eq (Frac.ofInt k))

/-- `round_to` of a nonzero number to a floating-point format. -/
def roundFloat (f : Fmt) (x : Frac) (mode : Rnd) (sat : Bool) : Flagged (Option Nat) :=
  let (pat, inexact) := roundGrid f x mode
  let tiny := x.abs.lt ((Frac.ofInt 1).shift (1 - f.layout.b))
  let fp := raiseIf inexact Fp.inexact ||| raiseIf (inexact && tiny) Fp.underflow
  if pat ≤ f.maxPat then ⟨some (pat + if x.isNeg then f.signBit else 0), fp⟩
  else
    let o := overflowPat f x.isNeg mode sat
    ⟨o.val, o.fp ||| fp⟩

/-- `round_to` (R52): an element pattern, or `none` where the format has no pattern for the result. -/
def roundTo (f : Fmt) (x : FVal) (mode : Rnd) (sat : Bool) : Flagged (Option Nat) :=
  match x with
  | .nan q _ _ => ⟨if f.isInteger then none else f.nan?, raiseIf (!q) Fp.invalid⟩
  | .inf n =>
    if f.isInteger then
      if sat then ⟨some (wrapPat f (if n then f.range.1 else f.range.2)), Fp.invalid ||| Fp.saturate⟩ else ⟨none, Fp.invalid⟩
    else ⟨f.inf? n, 0⟩
  | .zero n => ⟨some (if n && !f.isInteger then f.signBit else 0), 0⟩
  | .fin q =>
    if f.isInteger then
      let r := roundRange f.range.1 f.range.2 q mode sat
      ⟨r.val.map (wrapPat f), r.fp⟩
    else roundFloat f q mode sat
where
  wrapPat (f : Fmt) (v : Int) : Nat := (v % (2 ^ f.bits : Nat)).toNat

/-! ## Buffer records (R36 to R38) -/

/-- A buffer record as an access uses it. -/
structure Rec where
  ix : Nat
  base : Word
  extent : Nat
  stored : Fmt
  reg : Fmt
  il : Nat
  stride : Nat
  scale : Word
  clip : Nat
  rnd : Rnd
  sat : Bool
  policy : Nat
  subst : Nat
  access : Nat
  update : Bool
  deriving DecidableEq, Repr

/-- The fields of a 320-bit record (R36). -/
def Rec.ofBits (ix : Nat) (b : BitVec 320) : Rec where
  ix := ix
  base := b.extractLsb' 0 64
  extent := (b.extractLsb' 64 40).toNat
  stored := Fmt.ofCode (b.extractLsb' 104 5).toNat
  reg := Fmt.ofCode (b.extractLsb' 109 5).toNat
  il := (b.extractLsb' 114 4).toNat
  stride := (b.extractLsb' 118 16).toNat
  scale := b.extractLsb' 134 64
  clip := (b.extractLsb' 198 5).toNat
  rnd := Rnd.ofCode (b.extractLsb' 203 2).toNat
  sat := b.getLsbD 205
  policy := (b.extractLsb' 206 2).toNat
  subst := (b.extractLsb' 208 32).toNat
  access := (b.extractLsb' 242 2).toNat
  update := b.getLsbD 244

/-- A record that R36 and R38 do not call invalid (check 1 of R40). -/
def recordOk (b : BitVec 320) : Bool :=
  let r := Rec.ofBits 1 b
  let esize := r.stored.bits
  let code := r.stored.code
  let group := (b.extractLsb' 240 2).toNat
  r.access != 0 && b.extractLsb' 246 74 == 0 && (b.extractLsb' 244 2).toNat ≤ 1 && r.policy != 3 && r.il ≤ 3
    && (b.extractLsb' 109 5).toNat ≤ 15
    && group == (if r.stored.isAsym then (match r.stored.block with | 32 => 0 | 64 => 1 | _ => 2) else 0)
    && (match r.il with
        | 0 => true
        | 1 => code ≤ 15 && (esize + 7) / 8 ≤ r.stride
        | 2 => code ≤ 12 && r.stride % 16 == 0 && (r.stride / 16 % 16 + 1) * esize ≤ 8 * (8 * (r.stride / 256))
        | _ => r.stored.block * esize ≤ 8 * r.stride)

/-- The implicit record of a formatted page (R37, R265). -/
def Rec.implicit (page reg : Fmt) : Rec where
  ix := 0
  base := 0
  extent := 2 ^ 56
  stored := page
  reg := reg
  il := 0
  stride := 0
  scale := 0
  clip := 0
  rnd := .rne
  sat := false
  policy := 0
  subst := 0
  access := 3
  update := false

/-- Bit offset of element n from the record's base (R38). -/
def Rec.elemBit (r : Rec) (n : Int) : Int :=
  let esize : Int := r.stored.bits
  let blk : Int := r.stored.block
  match r.il with
  | 0 => n * esize
  | 1 => 8 * (n * r.stride)
  | 2 => 8 * (n * (8 * (r.stride / 256 : Nat))) + ((r.stride / 16 % 16 * r.stored.bits : Nat) : Int)
  | _ => 8 * (n / blk * r.stride) + n % blk * esize

/-- Byte offset of element n's scale entry from the scale base (R39). -/
def Rec.scaleOff (r : Rec) (n : Int) : Int := n / (r.stored.block : Int) * (r.stored.scaleBytes : Int)

/-! ## Decoding with scales (R56 to R59) -/

/-- `decode_element` (R59) from the element's bits and its scale entry; the flags of an infinite asymmetric scale, or
`none` where the scale entry breaks R58. R58 gives no sign for a zero product: a zero scale gives a zero of its own
sign, turned round where q < z and so kept where q = z, and any other finite scale with q = z gives +0. DESIGN CHOICE (log
entry 75). -/
def decodeScaled (f : Fmt) (elem entry : Nat) : Option (Flagged FVal) :=
  if f.isShift then
    let s : Int := if entry < 128 then entry else (entry : Int) - 256
    if s = -128 then some (.pure (.zero false)) else some (.pure ((decodeElem f.elem elem).shift s))
  else if f.isInterchange then
    if entry = 0xFF then some (.pure (.nan true false 0)) else some (.pure ((decodeElem f.elem elem).shift ((entry : Int) - 127)))
  else if f.isAsym then
    let c := entry % 65536
    let z := entry / 65536 % 256
    if entry / 16777216 ≠ 0 ∨ (f.elem = .n4 ∧ 15 < z) then none
    else match decodeFloat .f16 c with
      | .nan .. => some (.pure (.nan true false 0))
      | .inf n => if elem = z then some ⟨.nan true false 0, Fp.invalid⟩ else some (.pure (.inf (n != decide (elem < z))))
      | .zero n => some (.pure (.zero (n != decide (elem < z))))
      | .fin q => some (.pure (.ofFrac (q.mul (Frac.ofInt ((elem : Int) - z)))))
  else some (.pure (decodeElem f elem))

/-! ## The conversion stage (R65, R66) -/

/-- A converted element: its pattern, the flags raised, and whether the substitute value was written. -/
structure Conv where
  pat : Nat
  fp : BitVec 7 := 0
  subst : Bool := false
  deriving DecidableEq, Repr

/-- `substitute_pattern` (R66), of the substitute value × 2^e. -/
def substPattern (r : Rec) (f : Fmt) (e : Int) : Nat :=
  match (decodeFloat .f32 r.subst).shift e with
  | .nan .. => if f.isInteger then 0 else f.nan?.getD 0
  | .inf n =>
    if f.isInteger then ((if n then f.range.1 else f.range.2) % (2 ^ f.bits : Nat)).toNat
    else (f.inf? n).getD (f.maxPat + if n then f.signBit else 0)
  | .zero n => if n && !f.isInteger then f.signBit else 0
  | .fin q => ((roundTo f (.fin q) r.rnd true).val).getD 0

/-- `convert` (R65), with the substitute value scaled by 2^e (R61); `none` is policy 1's trap. -/
def convertWith (r : Rec) (f : Fmt) (x : FVal) (e : Int) : Option Conv :=
  let p := roundTo f x r.rnd r.sat
  let special := x.isNan || x.isInf
  match special, p.val with
  | false, some v => some ⟨v, p.fp, false⟩
  | _, v =>
    if r.policy = 1 then none
    else
      let sub : Conv := ⟨substPattern r f e, p.fp ||| Fp.substitute, true⟩
      if r.policy = 2 then
        match v with
        | some v => some ⟨v, p.fp, false⟩
        | none => match (if f.isInteger then none else f.nan?) with
          | some v => some ⟨v, p.fp, false⟩
          | none => some sub
      else some sub

def convert (r : Rec) (f : Fmt) (x : FVal) : Option Conv := convertWith r f x 0

/-! ## Choosing scales (R60 to R64) -/

/-- Insert into a list sorted from largest down. -/
def insertDown (x : Int) : List Int → List Int
  | [] => [x]
  | y :: ys => if y ≤ x then x :: y :: ys else y :: insertDown x ys

/-- `choose_shift` (R60). -/
def chooseShift (f : Fmt) (xs : List FVal) (k : Nat) : Int :=
  let es := (xs.filterMap fun x => match x with | .fin q => some q.exp | _ => none).foldr insertDown []
  match es[min k (es.length - 1)]? with
  | none => 0
  | some e => min (max (e - f.emax) (-127)) 127

/-- An encoded block: its scale entry, its element patterns, the flags and whether a substitute was written. -/
structure Block where
  entry : Nat
  elems : List Nat
  fp : BitVec 7 := 0
  subst : Bool := false
  deriving DecidableEq, Repr

/-- Every element of a block converted in order; `error i` names the first element that meets policy 1. -/
def convertAll (g : FVal → Option Conv) : Nat → List FVal → Except Nat (List Nat × BitVec 7 × Bool)
  | _, [] => .ok ([], 0, false)
  | i, x :: xs =>
    match g x with
    | none => .error i
    | some c => match convertAll g (i + 1) xs with
      | .error e => .error e
      | .ok (ps, fp, sb) => .ok (c.pat :: ps, c.fp ||| fp, c.subst || sb)

/-- The index of the first NaN or infinity. -/
def firstSpecial (xs : List FVal) : Option Nat := xs.findIdx? fun x => x.isNan || x.isInf

/-- `encode_asym` (R64) with the policy of R65 for NaN and infinity: of the two only a signalling NaN raises invalid before
its substitute is encoded. DEDUCED (log entry 25). -/
def encodeAsym (r : Rec) (f : Fmt) (xs : List FVal) : Except Nat Block :=
  let qmax : Int := if f.elem = .n8 then 255 else 15
  let fin := xs.filterMap fun x => if x.isFinite then some x.frac else none
  let lo := fin.foldl (fun a x => if x.lt a then x else a) ⟨0, 1⟩
  let hi := fin.foldl (fun a x => if a.lt x then x else a) ⟨0, 1⟩
  let cr := roundTo .f16 (.ofFrac ((hi.sub lo).div (Frac.ofInt qmax))) .rne true
  let c := cr.val.getD 0
  let cv := (decodeFloat .f16 c).frac
  let c := if cv.isZero then 0 else c
  let z : Int := if cv.isZero then 0 else min (max ((lo.neg.div cv).round .rne) 0) qmax
  let one (x : Frac) : Nat × BitVec 7 :=
    let q0 := if cv.isZero then z else (x.div cv).round r.rnd + z
    let q := min (max q0 0) qmax
    let back := cv.mul (Frac.ofInt (q - z))
    (q.toNat, raiseIf (decide (q0 < 0 ∨ qmax < q0)) Fp.saturate ||| raiseIf (!back.eq x) Fp.inexact)
  -- the substitute by R66: no infinity and no NaN exist here, and converting it raises no flag
  let sub : Nat := match decodeFloat .f32 r.subst with
    | .inf n => if cv.isZero then z.toNat else if n then 0 else qmax.toNat
    | v => (one v.frac).1
  let step (x : FVal) : Option Conv :=
    if x.isFinite then some ⟨(one x.frac).1, (one x.frac).2, false⟩
    else if r.policy = 1 then none
    else some ⟨sub, raiseIf x.isSignalling Fp.invalid ||| Fp.substitute, true⟩
  match convertAll step 0 xs with
  | .error i => .error i
  | .ok (es, fp, sb) => .ok ⟨c + 65536 * z.toNat, es, fp ||| cr.fp, sb⟩

/-- A block of a scaled stored format encoded from its values (R60 to R64, R272). -/
def encodeBlock (r : Rec) (xs : List FVal) : Except Nat Block :=
  let f := r.stored
  if f.isAsym then encodeAsym r f xs
  else
    let s := chooseShift f xs r.clip
    if f.isInterchange && (firstSpecial xs).isSome then
      if r.policy = 1 then .error ((firstSpecial xs).getD 0) else .ok ⟨0xFF, xs.map fun _ => 0, 0, false⟩
    else match convertAll (fun x => convertWith r f.elem (x.shift (-s)) (-s)) 0 xs with
      | .error i => .error i
      | .ok (es, fp, sb) =>
        if f.isInterchange then .ok ⟨(s + 127).toNat, es, fp, sb⟩
        else if es.all fun p => (decodeElem f.elem p).isZero then
          .ok ⟨0x80, es.map fun _ => 0, fp, sb⟩
        else .ok ⟨(s % 256).toNat, es, fp, sb⟩

/-! ## Subscription keys (R252) -/

/-- `key(f, x)` of an element pattern stored in u, as a number; patterns and the two infinities a format lacks are told
apart, and every NaN has one key. -/
def subKey (u f : Fmt) (p : Nat) : Nat :=
  let x := decodeElem u p
  if x.isNan then 2 ^ 70
  else match (roundTo f x .rne true).val with
    | some v => v
    | none => 2 ^ 71 + if x.neg then 1 else 0

end Sys2Proof.Machine
end

