-- ==== Sys2Proof/Machine/Flags.lean ====
section
/-! DEFINITION. Flag computations of the integer instructions (R204) and the special cases of floating-point sources
and results (R202). -/
namespace Sys2Proof.Machine

/-- Element width of a type (R199). -/
def tyBits : Ty → Nat
  | .i32 | .n32 | .f32 => 32
  | .i64 | .n64 | .f64 => 64
  | .f16 | .bf16 | .f16x2 | .bf16x2 | .i16x2 | .n16x2 => 16
  | .i8x4 | .n8x4 => 8

/-- Elements of a lane or pair (R199). -/
def tyElems : Ty → Nat
  | .f16x2 | .bf16x2 | .i16x2 | .n16x2 => 2
  | .i8x4 | .n8x4 => 4
  | _ => 1

def tySigned : Ty → Bool
  | .i32 | .i64 | .i16x2 | .i8x4 => true
  | _ => false

/-- The floating format of a type's elements. -/
def tyFmt : Ty → Fmt
  | .f64 => .f64
  | .f16 | .f16x2 => .f16
  | .bf16 | .bf16x2 => .bf16
  | _ => .f32

/-- `ival` (R204). -/
def ival (t : Ty) (x : Nat) : Int :=
  let n := tyBits t
  if tySigned t && decide (2 ^ (n - 1) ≤ x % 2 ^ n) then (x % 2 ^ n : Nat) - (2 ^ n : Nat) else (x % 2 ^ n : Nat)

/-- range(t). -/
def tyRange (t : Ty) : Int × Int :=
  let n := tyBits t
  if tySigned t then (-(2 ^ (n - 1) : Nat), (2 ^ (n - 1) : Nat) - 1) else (0, (2 ^ n : Nat) - 1)

/-- The two's complement pattern at n bits. -/
def patOf (n : Nat) (v : Int) : Nat := (v % (2 ^ n : Nat)).toNat

/-- `fit` (R204). -/
def fit (t : Ty) (sat : Bool) (v : Int) : Flagged Nat :=
  let (lo, hi) := tyRange t
  let n := tyBits t
  if lo ≤ v ∧ v ≤ hi then ⟨patOf n v, 0⟩
  else if sat then ⟨patOf n (if v < lo then lo else hi), Fp.saturate⟩
  else ⟨patOf n v, 0⟩

/-- A number below the format's smallest normal (R202). -/
def tinyIn (f : Fmt) (x : FVal) : Bool :=
  match x with
  | .fin q => q.abs.lt ((Frac.ofInt 1).shift (1 - f.layout.b))
  | _ => false

/-- `fsrc` (R202). -/
def fsrc (f : Fmt) (ftz : Bool) (p : Nat) : FVal :=
  let x := decodeFloat f p
  if ftz && tinyIn f x then .zero x.neg else x

/-- `fres` (R202): the target has an infinity and a NaN. -/
def fres (f : Fmt) (mode : Rnd) (sat ftz : Bool) (x : FVal) : Flagged Nat :=
  if ftz && tinyIn f x then ⟨if x.neg then f.signBit else 0, Fp.underflow ||| Fp.inexact⟩
  else
    let r := roundTo f x mode sat
    ⟨r.val.getD 0, r.fp⟩

/-- The canonical NaN of a format that has one. -/
def nanOf (f : Fmt) : Nat := f.nan?.getD 0

/-- A NaN quieted in its own format (R55). -/
def quieted (f : Fmt) (neg : Bool) (payload : Nat) : Nat :=
  (if neg then f.signBit else 0) + (2 ^ f.layout.w - 1) * 2 ^ f.layout.m + (payload % 2 ^ (f.layout.m - 1)) + 2 ^ (f.layout.m - 1)

/-- `propagate` (R202), over the sources in operand order with the formats they were read in; `none` without a NaN. -/
def propagate (f : Fmt) (xs : List (Fmt × FVal)) : Option (Flagged Nat) :=
  match xs.find? fun x => x.2.isNan with
  | some (g, .nan _ n t) =>
    some ⟨if g = f then quieted f n t else nanOf f, raiseIf (xs.any fun x => x.2.isSignalling) Fp.invalid⟩
  | _ => none

/-- The sum of two values that are not NaN, exactly (R54): `none` for ∞ − ∞. -/
def addVal (mode : Rnd) (x y : FVal) : Option FVal :=
  match x, y with
  | .inf a, .inf b => if a = b then some (.inf a) else none
  | .inf a, _ => some (.inf a)
  | _, .inf b => some (.inf b)
  | .zero a, .zero b => some (.zero (if a = b then a else decide (mode = .rdn)))
  | .zero _, v => some v
  | v, .zero _ => some v
  | .fin a, .fin b =>
    let s := a.add b
    some (if s.isZero then .zero (decide (mode = .rdn)) else .fin s)
  | _, _ => none

def negVal : FVal → FVal
  | .nan q n t => .nan q (!n) t
  | .inf n => .inf (!n)
  | .zero n => .zero (!n)
  | .fin x => .fin x.neg

/-- The product of two values that are not NaN: `none` for 0 × ∞. -/
def mulVal (x y : FVal) : Option FVal :=
  let s := x.neg != y.neg
  match x, y with
  | .inf _, .zero _ | .zero _, .inf _ => none
  | .inf _, _ | _, .inf _ => some (.inf s)
  | .zero _, _ | _, .zero _ => some (.zero s)
  | .fin a, .fin b => some (.fin (a.mul b))
  | _, _ => none

end Sys2Proof.Machine
end

