-- ==== Sys2Proof/Config.lean ====
section
/-! DEFINITION. What the spec leaves open: free values and the things each device fixes for itself. Every constant here
is opaque: it has no body, so no statement can rest on a value of it. Each is named in the assumption log. -/
namespace Sys2Proof.Config

/-! ## Choices among enabled steps and free values -/

/-- Which of several enabled steps comes next (R24, R25, R155); applied to `State.tick`, read modulo their number.
DESIGN CHOICE, safe (log entry 2). -/
opaque pick : Nat → Nat

/-- A free bit, applied to `State.free`: whether a read at another site sees a write that has not taken effect there
(R319), which of two racing values a byte takes (R300), whether a bank holds a sector newer than HBM does (R369). The log
names each use: entries 3, 11, 21, 22, 23, 41, 54, 63 and 64. -/
opaque freeBit : Nat → Bool

/-- A free choice among things the spec leaves unordered, applied to `State.free` and read modulo their number.
The log names each use: entries 10, 29, 60, 64 and 82. -/
opaque freeChoice : Nat → Nat

/-- A free byte, applied to `State.free`: an unwritten stack byte (R228). DESIGN CHOICE, safe (log entry 60). -/
opaque freeByte : Nat → Byte

/-- The detail of a record whose cause gives it no meaning (R262, R391), applied to `State.free`. DESIGN CHOICE, safe
(log entry 76). -/
opaque reportDetail : Nat → Word

/-- An element that a team of another device brings to a collective (R348): applied to the identity of team 0's COLL, the
slice and the element. DESIGN CHOICE, safe (log entry 62). -/
opaque peerElement : Nat → Nat → Nat → Word

/-- How far each reticle's cycle counter advances in a step, minus one; applied to the tick and the reticle (R24).
DESIGN CHOICE, safe (log entry 16). -/
opaque cycles : Nat → Nat → Nat

/-! ## Functions whose values the spec does not give -/

/-- A correctly rounded transcendental result that rational bounds do not separate (R217): the function's code, the
operand's pattern and the rounding mode. DESIGN CHOICE, safe (log entry 61). -/
opaque transcend : Nat → Nat → Nat → Nat

/-- The 64-bit signature of an operation, over the values that R377 says it covers. PRESUMED (log entry 36). -/
opaque opSignature : List Nat → Word

/-- SM2 signatures by the device identity key (R394, R401). PRESUMED (log entry 36). -/
opaque sm2Sign : List Byte → BitVec 512

/-- SM3 measurement of a firmware image, by the model's number of it (R401, R402). PRESUMED (log entry 36). -/
opaque firmwareHash : Nat → BitVec 256

/-- The device identity certificate read at ATTCERT (R401). PRESUMED (log entry 36). -/
opaque certificate : Nat → Byte

/-- Whether stage 1 and 2 verify, and stages 3 to 6 succeed (R402); applied to the stage and the tick.
DESIGN CHOICE (log entry 17). -/
opaque stageFails : Nat → Nat → Bool

/-- SM3 measurement of a defect map (R401, R402). PRESUMED (log entry 36). -/
opaque defectHash : Nat → BitVec 256

/-- The change record that extends the configuration measurement (R401): a register's offset and its new value.
PRESUMED (log entry 36). -/
opaque changeRecord : Nat → Word → List Byte

/-- Whether the firmware image changed since the last bring-up (R402). DESIGN CHOICE (log entry 17). -/
opaque firmwareChanged : Nat → Bool

/-! ## The device at hand (R106) -/

/-- Places whose core a defect map disables; the first argument, here and below, is the number of the loaded map
(`Device.defects`), the second a place. DESIGN CHOICE, safe (log entry 10), as the three below. -/
opaque disabledCore : Nat → Nat → Bool

/-- Places whose LLC bank is dead. -/
opaque deadBank : Nat → Nat → Bool

/-- Dead pannier slots of a place. -/
opaque deadSlots : Nat → Nat → Nat

/-- Blocks of 32 register rows removed from a lane column of a place (R106). -/
opaque removedRows : Nat → Nat → Nat → Nat

/-! ## Choices of the dispatcher and the loader -/

/-- The rectangle the dispatcher chooses for a launch that is not warm (R82, R107): origin, rows − 1, columns − 1;
applied to the tick. DESIGN CHOICE, safe (log entry 28). -/
opaque regionChoice : Nat → Nat

/-- The core the dispatcher chooses among those a team fits (R104); applied to the tick, read modulo their number.
DESIGN CHOICE, safe (log entry 28); for a convoy's escort see log entry 27. -/
opaque coreChoice : Nat → Nat

/-- Whether the assayer's replay of a team differs from its run (R390); applied to the tick. DESIGN CHOICE, safe (log
entry 33). -/
opaque replayDiffers : Nat → Bool

end Sys2Proof.Config
end

