-- ==== Sys2Proof/Machine/Map.lean ====
section
/-! DEFINITION. Sparse maps from numbers to values: lists of pairs with strictly rising keys and no entry equal to the
default, so that equal maps are equal lists. Object tables are the same lists without a default. -/
namespace Sys2Proof.Machine

/-- A sparse map: key and value pairs. -/
abbrev SMap (α : Type) := List (Nat × α)

namespace SMap

variable {α : Type}

/-- The value at key k, or d where no entry is listed. -/
def get (d : α) : SMap α → Nat → α
  | [], _ => d
  | (a, v) :: m, k => if k = a then v else get d m k

/-- The entry at k, if any. -/
def entry? : SMap α → Nat → Option α
  | [], _ => none
  | (a, v) :: m, k => if k = a then some v else entry? m k

/-- The map with v at key k. -/
def put : SMap α → Nat → α → SMap α
  | [], k, v => [(k, v)]
  | (a, x) :: m, k, v => if k < a then (k, v) :: (a, x) :: m else if k = a then (k, v) :: m else (a, x) :: put m k v

/-- The map without key k. -/
def del : SMap α → Nat → SMap α
  | [], _ => []
  | (a, x) :: m, k => if k = a then del m k else (a, x) :: del m k

/-- Canonical update: writing the default removes the entry. -/
def set [DecidableEq α] (d : α) (m : SMap α) (k : Nat) (v : α) : SMap α := if v = d then del m k else put m k v

/-- Keys rise strictly and every key is at least lo. -/
def rising (lo : Nat) : SMap α → Bool
  | [] => true
  | (a, _) :: m => decide (lo ≤ a) && rising (a + 1) m

/-- The canonical form. -/
def wf [DecidableEq α] (d : α) (m : SMap α) : Bool := rising 0 m && m.all fun e => e.2 != d

/-- The values, in key order. -/
def vals (m : SMap α) : List α := m.map (·.2)

/-- Update the entry at k, if there is one. -/
def adjust (m : SMap α) (k : Nat) (f : α → α) : SMap α :=
  match entry? m k with
  | some v => put m k (f v)
  | none => m

end SMap

end Sys2Proof.Machine
end

