-- ==== Sys2Proof/Machine/State.lean ====
section
/-! DEFINITION. The state of the W48 as plain data: groups, teams and cores, the dispatcher's queues, launches and
regions, memory and the wafer cache, the message network, recovery, the event log and the device's edge. -/
namespace Sys2Proof.Machine

/-! ## Groups -/

/-- A trap as it is reported (R351, R352): cause, lanes, address and TRAPINFO. -/
structure Trap where
  cause : BitVec 8
  mask : Option Mask := none
  addr : Word := 0
  info : BitVec 23 := 0
  deriving DecidableEq, Repr

inductive TokKind where
  | cond | loop | call
  deriving DecidableEq, Repr

/-- A token (R113, R157); `cont` is the continue mask of LOOP and the arrived set of IF, `saved` the join saved while a
rotation is held. -/
structure Token where
  kind : TokKind
  pending : Mask := 0
  cont : Mask := 0
  exited : Mask := 0
  join : BitVec 32 := 0
  saved : BitVec 32 := 0
  held : Bool := false
  depth : BitVec 16 := 0
  slide : BitVec 4 := 0
  deriving DecidableEq, Repr

/-- What a core's porter has to do for a group (R161, R166, R186). -/
inductive PorterMove where
  | refill | tokenSpill | spill | writeBack | tokenReadback
  deriving DecidableEq, Repr

/-- Where a group stands (R123, R152, R159). -/
inductive Phase where
  /-- Before a clause, or before the instruction at which a clause resumes (R414). -/
  | boundary
  /-- In a clause, on its port. -/
  | issuing
  /-- In a clause, waiting at an instruction with the port released. -/
  | waiting
  /-- In PAUSE (R188). -/
  | paused
  /-- Stopped with its launch (R359, R375). -/
  | stopped
  | ended
  deriving DecidableEq, Repr

/-- A flit (R335): header, payload and the poison tag its payload carries. -/
structure Flit where
  hdr : Word
  payload : Word
  /-- The sending group and port, group × 4 + port (R24). -/
  src : Nat := 0
  tag : Option (BitVec 12) := none
  deriving DecidableEq, Repr

/-- A send port (R334 to R336): binding, flits sent since it was bound, credits held by destination queue (key group × 4 + queue). -/
structure TxPort where
  bind : Word := 0xC000000000000000
  sent : BitVec 12 := 0
  credits : SMap Nat := []
  request : Bool := false
  /-- When the port asked for credits. -/
  asked : Nat := 0
  deriving DecidableEq, Repr

/-- A fetched lane of a stream vector (R261), or the trap that it met and the place of that trap's check among a load's. -/
structure StreamLane where
  val : Lane
  trap : Option Trap := none
  rank : Nat := 0
  deriving DecidableEq, Repr

/-- A fetched stream vector with the flags and substitutions its conversion raised. -/
structure StreamVec where
  lanes : List StreamLane
  fp : BitVec 7 := 0
  subst : Bool := false
  deriving DecidableEq, Repr

/-- What a source popped: nothing, a flit's payload, or a stream vector. -/
inductive Popped where
  | nothing
  | flit (v : Word)
  | vector (ls : List Lane)
  deriving DecidableEq, Repr

/-- An open stream (R260, R291): descriptor, the record it reads through, the next vector to pop, the fetched vectors. -/
structure Stream where
  desc : BitVec 512
  record : BitVec 320
  pos : Nat := 0
  ready : Bool := false
  /-- Operations issued before the STREAM: their identities are below this one. -/
  since : Nat := 0
  fetched : List StreamVec := []
  deriving DecidableEq, Repr

/-- A value the lead sends its escort, with the signature it is compared under (R376, R377). -/
structure LoadValue where
  sig : Word
  vals : List (Nat × Word) := []
  /-- The trap that the lead's operation met (R381). -/
  trap : Option Trap := none
  /-- An engine's command that a return to the waypoint stopped: a re-execution performs it again (R380). -/
  undone : Bool := false
  deriving DecidableEq, Repr

/-- A group of a team: its context (R110 to R113, R355) and what the scheduler and the engines hold for it. -/
structure Group where
  team : Nat
  slot : Nat
  coreSlot : Nat := 0
  stackSlot : Nat := 0
  width : Nat
  hdr : BitVec 32 := 0
  idx : Nat := 0
  phase : Phase := .boundary
  readyAt : Nat := 0
  /-- The group has been ready for the clause or instruction it stands before: `readyAt` is its clause-ready time (R152). -/
  wasReady : Bool := false
  -- how the group came to `hdr`: the position that check 1 of R121 reports
  fromHdr : BitVec 32 := 0
  fromIdx : Nat := 0
  exec : Mask
  live : Mask
  sregs : SMap Word := []
  vfix : SMap Lane := []
  reserve : SMap Lane := []
  win : SMap Lane := []
  ring : Nat
  depth : Nat := 0
  base : Nat := 0
  resLo : Nat := 0
  wbp : Word := 0x00E0000000000000
  wlim : Word
  tokens : List Token := []
  spilledTok : Nat := 0
  -- porter work beyond the watermarks: ring room a CALL waits for, a token spill, WSYNC.WB's next offset
  wantRing : Nat := 0
  wantTok : Bool := false
  wb : Option Nat := none
  porterTrap : Option Trap := none
  /-- The move at which the porter stands in porter-fault: it retries the granule after RFT (R112, R169). -/
  porterFault : Option (PorterMove × Nat) := none
  /-- Granule moves that a save aborted: refill, first register, granules left (R112, R170). -/
  aborted : Option (Bool × Nat × Nat) := none
  /-- Faults that wait to be taken, each with the flag whose counter is decremented when it is (R290, R354). -/
  heldFaults : List (Trap × Option (Fin 12)) := []
  flags : SMap Nat := []
  fpstat : BitVec 7 := 0
  trapCause : BitVec 8 := 0
  trapPc : BitVec 37 := 0
  trapMask : Mask := 0
  trapAddr : Word := 0
  trapInfo : BitVec 23 := 0
  trapExec : Mask := 0
  sup : Bool := false
  handler : BitVec 32 := 0
  linkFenceLim : BitVec 32 := 4000000
  rxhdr : Word := 0
  su : SMap Word := []
  -- CONVOY counters (R355 no. 20)
  mismatches : BitVec 16 := 0
  waypoints : BitVec 16 := 0
  streams : SMap Stream := []
  rx : List (Nat × Flit) := []
  tx : SMap TxPort := []
  tbars : Nat := 0
  waypts : Nat := 0
  colls : Nat := 0
  /-- The waiting TBAR, WAYPT or COLL has made its arrival. -/
  arrived : Bool := false
  pauseUntil : Option (Word × Bool) := none
  fenceStart : Option Word := none
  /-- Since when the instruction has waited for a peer device's answer (R399). -/
  peerStart : Option Word := none
  /-- Scope of a release FENCE that the group's next strong store or atomic completes (R323). -/
  fenceRel : Option Scope := none
  /-- The launch record that a waiting LAUNCH has read (R93). -/
  launchRec : Option (BitVec 1024) := none
  -- pages the last walk for this group found absent or malformed (R234)
  absent : List Nat := []
  /-- Bytes of the private stack written since the group took its slot, by stack offset (R228). -/
  wrote : SMap Bool := []
  lvq : List LoadValue := []
  -- results a matched convoy operation has brought for the waiting instruction
  convResult : Option (List (Nat × Word)) := none
  convTrap : Option Trap := none
  -- the signature a waiting convoy operation offers, and whether the lead's has been matched (R377)
  offer : Option Word := none
  matched : Bool := false
  /-- Clauses started from their headers since the last waypoint (R378). -/
  clauses : Nat := 0
  /-- What the sources A, B and C of the waiting instruction have popped while its send waits. -/
  kept : List Popped := []
  /-- Flags and substitute bits of the stream vectors that instruction has popped; it raises them when it issues (R69). -/
  popFp : BitVec 7 := 0
  popSubst : Word := 0
  /-- Restored onto a smaller ring: older registers go to their backing addresses before the next clause (R117). -/
  copying : Bool := false
  deriving DecidableEq, Repr

/-! ## Teams -/

inductive BufState where
  | empty | filling | full | draining
  deriving DecidableEq, Repr

/-- A declared scratchpad buffer (R237, R239). -/
structure Buf where
  desc : BitVec 128
  state : BufState
  count : Nat := 0
  reads : Nat := 0
  deriving DecidableEq, Repr

inductive Side where
  | solo | lead | escort
  deriving DecidableEq, Repr

/-- A resident team (R99 to R101): its core, its shares and the state its groups have in common. -/
structure Team where
  launch : Nat
  index : Nat
  place : Nat
  logical : Nat
  side : Side := .solo
  peer : Nat := 0
  spadSize : Nat
  nslots : Nat
  ntiles : Nat
  /-- First lane column of each group slot (R104). -/
  segs : List Nat := []
  records : SMap (BitVec 320) := []
  spad : SMap Byte := []
  fe : SMap Bool := []
  spadPoison : SMap (BitVec 12) := []
  bufs : SMap Buf := []
  /-- Word (i, n) of tile t at key t·2048 + i·64 + n (R292). -/
  tiles : SMap Lane := []
  /-- Element byte b of slot q at key q·4096 + b; scale byte b of slot q in `sidecar` at q·1024 + b. -/
  slots : SMap Byte := []
  sidecar : SMap Byte := []
  /-- Special-present flag of chunk c and column n of slot q at q·1024 + c·64 + n (R295). -/
  special : SMap Bool := []
  slotTags : SMap (BitVec 32) := []
  depsigned : Bool := false
  sampled : Bool := false
  deriving DecidableEq, Repr

/-! ## Work in flight -/

inductive ReqKind where
  | load | store | atomic | line
  deriving DecidableEq, Repr

/-- One lane's access: its bytes as pairs of generic address and location. A location below 2^48 is a physical address;
2^48 + offset is a byte of the own team's scratchpad share. `data` gives the bytes stored, each with its bit mask. -/
structure LaneReq where
  lane : Nat
  kind : ReqKind
  bytes : List (Nat × Nat)
  data : List (Byte × Byte) := []
  /-- Scale entries, which a load reads before the elements that they leave to be fetched (R56, R57). -/
  scales : List (Nat × Nat) := []
  /-- An atomic's tag (R278). -/
  tag : Option (BitVec 16) := none
  /-- Refusals by each bank since the last one that served it (R254, R255). -/
  refusals : SMap Nat := []
  /-- Refused: it goes out again after the hinted time. -/
  refused : Bool := false
  /-- Served, with its response lost on the way (R333). -/
  lost : Bool := false
  /-- Sent again after its response was lost: the home answers it from its record (R278). -/
  again : Bool := false
  deriving DecidableEq, Repr

/-- A counted instruction or engine in flight (R125, R270, R289, R294). -/
structure Op where
  group : Nat
  flag : Option (Fin 12)
  instr : Instr
  exec : Mask
  /-- The frame's base and the handler bit at issue, by which completion names its registers (R126). -/
  base : Nat := 0
  sup : Bool := false
  /-- Scope at which the operation's write is a release, by its own order or by the FENCE before it (R323). -/
  rel : Option Scope := none
  record : BitVec 320 := 0
  reqs : List LaneReq := []
  /-- Global locations that the operation writes. -/
  locs : List Nat := []
  /-- Bytes read, by lane and generic address. -/
  got : SMap Byte := []
  /-- Poison met: lane, generic address of the sector, tag. -/
  poison : List (Nat × Nat × BitVec 12) := []
  /-- Operand values kept from issue, and results. -/
  vals : List (Nat × Word) := []
  res : List (Nat × Word) := []
  fp : BitVec 7 := 0
  /-- The counter was decremented; the operation still awaits an acknowledgement (R287, R398). -/
  posted : Bool := false
  /-- Operations issued after a posted one completed have identities from this one on (R322). -/
  doneAt : Nat := 0
  /-- Steps of an engine already taken. -/
  started : Bool := false
  prog : Nat := 0
  sentAt : Word := 0
  /-- The escort's group and flag that the operation also counts on (R376). -/
  twin : Option (Nat × Option (Fin 12)) := none
  fault : Option Trap := none
  deriving DecidableEq, Repr

/-! ## The dispatcher -/

/-- A submission queue's registers (R72). -/
structure Queue where
  base : Word := 0
  ctx : BitVec 16 := 0
  enable : Bool := false
  prio : BitVec 2 := 0
  inDevice : Bool := false
  n : BitVec 5 := 0
  tail : BitVec 32 := 0
  head : BitVec 32 := 0
  ack : BitVec 32 := 0xFFFFFFFF
  ret : BitVec 32 := 0xFFFFFFFF
  cack : BitVec 32 := 0xFFFFFFFF
  dups : BitVec 32 := 0
  cause : BitVec 2 := 0
  stopped : Bool := false
  /-- Accepted, unretired launches in acceptance order (R78). -/
  journal : List Nat := []
  /-- Completion records held until QCACK covers them: sequence, context, pointer, record. -/
  held : List (BitVec 32 × BitVec 16 × Word × BitVec 512) := []
  deriving DecidableEq, Repr

/-- A warm slot (R81): registers and the region it holds. -/
structure WarmSlot where
  ctx : BitVec 16 := 0
  cols : BitVec 6 := 0
  rows : BitVec 6 := 0
  origin : BitVec 12 := 0
  failed : Bool := false
  ready : Bool := false
  pointer : Word := 0
  staging : Bool := false
  region : Option Nat := none
  deriving DecidableEq, Repr

/-- A group image of the register image (R44, R110). -/
structure GImage where
  width : Nat
  sregs : List Word
  specials : List Word
  vfix : List Lane
  deriving DecidableEq, Repr

/-- A loaded placement region (R107, R109): the map from logical to physical places, the relocated code, the dispatch
table and the register image. -/
structure Region where
  ctx : BitVec 16
  image : Word
  origin : Nat
  rows : Nat
  cols : Nat
  map : List (Nat × Nat)
  code : List Word
  table : List Nat
  images : List GImage
  warm : Option Nat := none
  releasing : Bool := false
  deriving DecidableEq, Repr

/-- How a launch came: from its queue, from a parent under a child ordinal, or from a mailbox under a firing ordinal. -/
inductive Origin where
  | queue
  | child (parent ordinal : Nat)
  | mailbox (box ordinal : Nat) (line : Word)
  deriving DecidableEq, Repr

/-- An accepted launch (R76 to R92, R359, R382 to R386). -/
structure Launch where
  record : BitVec 1024
  origin : Origin
  queue : Nat
  seq : BitVec 32
  ctx : BitVec 16
  prio : Nat
  depth : Nat := 0
  prot : Bool := false
  convoy : Bool := false
  region : Option Nat := none
  tablesRead : Bool := false
  bounds : List (BitVec 128) := []
  records : SMap (BitVec 320) := []
  table : Option (List Nat) := none
  dispatched : List Nat := []
  retired : List Nat := []
  children : List Nat := []
  childCount : Nat := 0
  status : Option (BitVec 8) := none
  endCause : BitVec 8 := 0
  endPlace : BitVec 12 := 0
  endAddr : Word := 0
  /-- An end request on its way: status, cause, place, address (R359). -/
  requests : List (BitVec 8 × BitVec 8 × BitVec 12 × Word) := []
  fpstat : BitVec 7 := 0
  subst : Word := 0
  tag : Option (BitVec 12) := none
  replays : Nat := 0
  rollback : Bool := false
  mismatches : Nat := 0
  waypoints : Nat := 0
  sampled : Nat := 0
  auditMismatches : Nat := 0
  /-- Sampled teams whose replay by the assayer is not finished (R390). -/
  replaying : List Nat := []
  /-- The producer retired failed: teams not yet dispatched never run (R88). -/
  depFailed : Bool := false
  /-- A team was dispatched, in this run or an earlier one. -/
  ran : Bool := false
  /-- One of its groups started a clause, in this run or an earlier one (R385). -/
  issued : Bool := false
  /-- Collectives whose records differed: a team that issues one of them later takes its fault too (R349). -/
  differed : List Nat := []
  /-- The place of the mailbox that fired it (R95), and the region that held its image at BIND (R96). -/
  near : Option Nat := none
  bound : Option Nat := none
  deriving DecidableEq, Repr

/-- A bound mailbox (R94, R97). -/
structure Mailbox where
  ctx : BitVec 16
  number : Nat
  line : Word
  phys : Nat
  handler : BitVec 1024
  prio : Nat
  /-- The warm slot's region that held the image at BIND; none once that slot no longer holds it (R96). -/
  home : Option Nat
  place : Nat
  total : Nat := 0
  launched : Nat := 0
  bound : Bool := true
  deriving DecidableEq, Repr

/-! ## The memory hierarchy -/

/-- A line of an L1 (R241, R242): its 128 bytes, which of them it holds, which are dirty, and whether it is kept as a
subscription (the waybill holds the subscription itself). -/
structure L1Line where
  core : Nat
  line : Nat
  data : List Byte
  valid : BitVec 128
  dirty : BitVec 128 := 0
  owned : Bool := false
  /-- The latest operation that left a byte dirty here, and the context and page it named (R242, R248, R322). -/
  wid : Nat := 0
  ctx : BitVec 16 := 0
  page : Nat := 0
  /-- The placement hint of that operation (R249). -/
  hint : Hint := .page
  /-- Poison tags of the copy's sectors, by sector of the line (R369). -/
  tags : SMap (BitVec 12) := []
  deriving DecidableEq, Repr

/-- A precise or raw subscription (R245, R251). -/
structure Subscriber where
  core : Nat
  update : Bool
  /-- Stored and subscription format codes; `none` is raw. -/
  fmts : Option (Fmt × Fmt)
  deriving DecidableEq, Repr

/-- A waybill (R245). -/
structure Waybill where
  home : Nat
  counter : Nat := 0
  pin : Bool := false
  held : Bool := false
  inFlight : Bool := false
  coarse : BitVec 48 := 0
  subs : List Subscriber := []
  replicas : BitVec 48 := 0
  /-- The tick of its creation (R247). -/
  since : Nat := 0
  deriving DecidableEq, Repr

/-- A TLB entry: the page's 64 KiB number and the leaf that maps it, with the level it stands at. -/
structure TlbEntry where
  ctx : BitVec 16
  page : Nat
  leaf : Word
  level : Nat
  deriving DecidableEq, Repr

/-- A miss in a reticle's walk queue (R234). -/
structure Walk where
  reticle : Nat
  ctx : BitVec 16
  page : Nat
  waiters : List Nat
  deriving DecidableEq, Repr

/-- A write that has not taken effect at some sites (R319): the aligned 8-byte word, the sites where reads still see
the older bytes, and those bytes. Sites 0 to 47 are the reticles, 48 the host, 49 to 64 the peers. Where `wait` names
earlier loads of the writing group, the write takes effect at its own site once they have (R321); the group itself sees
its write (R269). -/
structure Lag where
  word : Nat
  sites : BitVec 65
  old : List Byte
  wait : List Nat := []
  own : Nat := 0
  group : Nat := 0
  deriving DecidableEq, Repr

/-- A line that a drover counts: reticle, line, count, and core, context and page of the last request (R248). -/
structure Counted where
  reticle : Nat
  line : Nat
  count : Nat
  core : Nat
  ctx : BitVec 16
  page : Nat
  deriving DecidableEq, Repr

/-- Weak stores that completed in an L1, not yet at their homes: operations from `done` on were issued after they
completed (R322). -/
structure WeakDone where
  core : Nat
  done : Nat
  locs : List Nat
  /-- False for bytes that another group has read from the L1: they go home first, and no more. -/
  wide : Bool := true
  deriving DecidableEq, Repr

/-- What a home keeps of an atomic that it has served: the line, the requesting core, the tag, and the result (R278). -/
structure Served where
  home : Nat
  line : Nat
  core : Nat
  tag : BitVec 16
  old : Option Word
  fp : BitVec 7
  poison : List (Nat × BitVec 12)
  deriving DecidableEq, Repr

/-- A peer device's request for this device's memory (R316, R399): the peer, its core, the atomic's tag, the physical
address, and what is done there. -/
structure PeerReq where
  peer : Fin 16
  core : BitVec 12 := 0
  tag : Option (BitVec 16) := none
  loc : Nat
  size : Nat
  /-- The bytes of a store. -/
  data : Option (List Byte) := none
  /-- An atomic: its operation and operands. -/
  atomic : Option (AtomOp × Nat × Nat) := none
  deriving DecidableEq, Repr

/-- A triggered porter move: its group, its kind, its window offset or token index, and the operations that the group
had issued before: their identities are below `since` (R166, R168). -/
structure Move where
  group : Nat
  kind : PorterMove
  off : Nat
  since : Nat
  deriving DecidableEq, Repr

/-- The wafer cache, the translation machinery and the page engines. -/
structure Fabric where
  poison : SMap (BitVec 12) := []
  /-- Lost stacks with the poison tag that their contents read with. -/
  gone : List (Fin 16 × BitVec 12) := []
  lags : List Lag := []
  l1 : List L1Line := []
  tlb : List (Nat × TlbEntry) := []
  tlbShared : List (Nat × TlbEntry) := []
  walks : List Walk := []
  waybills : SMap Waybill := []
  /-- Counted requests, the most recent first (R248). -/
  drover : List Counted := []
  /-- Invalidations, and lines sent for installation, on their way to a core's L1: core, line, the bytes sent
  (R250, R252). -/
  inval : List (Nat × Nat × Option (List Byte)) := []
  /-- Each reticle's location cache: the home of line n as reticle t knows it at key 48·n + t (R244). -/
  homes : SMap Nat := []
  /-- Results that homes keep, the newest first (R278). -/
  served : List Served := []
  weak : List WeakDone := []
  /-- Tickets in the order in which banks gave them: bank, operation, lane (R255). -/
  tickets : List (Nat × Nat × Nat) := []
  /-- Misses past a walk queue of 64 pages wait in their cores, in order of arrival (R234). -/
  missed : List Walk := []
  peerReqs : SMap PeerReq := []
  /-- Answers to peer requests: request, bytes. -/
  peerReplies : List (Nat × List Byte) := []
  atomTag : SMap (BitVec 16) := []
  retained : List Array_ := []
  /-- A bias flip under way: context, page, target host bias. -/
  flip : Option (BitVec 16 × Nat × Bool) := none
  /-- A page move under way: context, page, old leaf, new leaf bits, lines copied. -/
  move : Option (BitVec 16 × Nat × Word × Word × Nat) := none
  deriving DecidableEq, Repr

/-! ## Recovery -/

/-- A snapshot of a 64 KiB page of a replay-protected launch (R374). -/
structure Snapshot where
  launch : Nat
  ctx : BitVec 16
  page : Nat
  copied : Bool := false
  /-- A write waits for the copy. -/
  wanted : Bool := false
  bytes : List (Nat × Byte) := []
  tags : List (Nat × BitVec 12) := []
  deriving DecidableEq, Repr

/-- A saved team with its groups and unfinished engines (R366). -/
structure SavedTeam where
  id : Nat
  team : Team
  groups : List (Nat × Group)
  ops : List (Nat × Op)
  /-- Backing bytes of spilled frames and tokens: group, pointer, bytes (R379). -/
  frames : List (Nat × Word × List Byte) := []
  /-- The save area in reserved HBM has been damaged: its hash fails (R366, R367). -/
  damaged : Bool := false
  deriving DecidableEq, Repr

/-- A convoy of two teams (R376 to R380): the last waypoint and its number, and the commit log. -/
structure Convoy where
  lead : Nat
  escort : Nat
  way : List SavedTeam := []
  wayNo : Nat := 0
  /-- Operations since the waypoint: group slot, and signature with values or trap. -/
  commits : List (Nat × LoadValue) := []
  /-- Entries of each slot that a re-execution takes from the log, and those taken, by 2·slot + 1 for the escort. -/
  covered : SMap Nat := []
  taken : SMap Nat := []
  mismatched : Bool := false
  /-- A mismatch since the last waypoint (R380). -/
  warned : Bool := false
  deriving DecidableEq, Repr

/-- An assayer stream (R389): the team as dispatched and the values and signatures logged. -/
structure AssayStream where
  team : Nat
  launch : Nat
  index : Nat
  entries : List (Word × List (Nat × Word)) := []
  full : Bool := false
  ended : Bool := false
  deriving DecidableEq, Repr

/-! ## The device's edge -/

/-- A report on its way to the log engine (R391): class, unit, cause, place, detail, tag, cycle count. -/
structure Report where
  cls : BitVec 4
  unit : BitVec 8
  cause : BitVec 8
  place : BitVec 12 := 0
  detail : Word := 0
  /-- The poison tag that the record carries, where it is not its own number's. -/
  tag : BitVec 12 := 0
  cycle : Word := 0
  deriving DecidableEq, Repr

/-- A window of 2^20 cycles in which the corrected errors of one unit and cause are counted (R392): `part` tells the links of one
reticle apart, `since` is the reticle's cycle count at the first of them. -/
structure ErrWindow where
  unit : BitVec 8
  cause : BitVec 8
  place : BitVec 12
  part : Nat := 0
  count : Nat := 0
  since : Word := 0
  deriving DecidableEq, Repr

/-- The event log (R391 to R394). -/
structure Log where
  next : Nat := 0
  records : List (BitVec 512) := []
  reports : List Report := []
  /-- The windows in which corrected errors are counted (R392). -/
  windows : List ErrWindow := []
  ckpts : SMap (BitVec 1024) := []
  ckptCount : Nat := 0
  counter : Word := 0
  limit : Nat := 8192
  stored : Option (Nat × BitVec 256) := none
  /-- Hash the next record carries. -/
  chain : BitVec 256 := 0
  deriving DecidableEq, Repr

/-- Registers of the host edge and what Guivizin holds (R226, R257, R262, R364, R387 to R404). -/
structure Device where
  powered : Bool := false
  stage : BitVec 4 := 0
  failure : BitVec 8 := 0
  ctxtab : Word := 0
  biasPg : Word := 0
  biasCode : BitVec 4 := 0
  biasErr : Bool := false
  biasTarget : Bool := false
  retctl : BitVec 32 := 65536
  firmwareKnown : Bool := false
  migPg : Word := 0
  migDst : Word := 0
  migCode : BitVec 4 := 0
  migErr : Bool := false
  suspId : BitVec 16 := 0
  suspended : List (BitVec 16) := []
  assayEnable : Bool := false
  assayK : BitVec 5 := 0
  logSel : Word := 0
  logAck : Word := 0
  ckptSel : BitVec 8 := 0
  irqen : Word := 0
  irqcause : BitVec 4 := 0
  msix : List Nat := []
  hwin : BitVec 36 := 0
  /-- The defect map loaded at bring-up (R106, R402). -/
  defects : Nat := 0
  /-- Bytes of the last read completion returned through BAR2. -/
  bar2 : List Byte := []
  jibueg : Bool := false
  devrseq : Word := 0
  peers : SMap Word := []
  pwrcap : SMap (BitVec 16) := []
  throttled : List (Fin 48) := []
  attNonce : BitVec 256 := 0
  attBusy : Bool := false
  quote : BitVec 2048 := 0
  firmware : BitVec 256 := 0
  defectHash : BitVec 256 := 0
  config : BitVec 256 := 0
  links : SMap LinkState := []
  hostUp : Bool := false
  lost : List Part := []
  cycles : SMap Word := []
  drovthr : SMap (BitVec 4) := []
  /-- For each queue priority, the queue after the one last read (R75). -/
  rrobin : SMap Nat := []
  deriving DecidableEq, Repr

/-! ## The machine -/

/-- The state of the device. -/
structure State where
  /-- Steps taken; indexes the choices of `Config`. -/
  tick : Nat
  /-- Index of the next free value. -/
  free : Nat
  /-- The group whose instruction is issued. -/
  cur : Nat
  /-- The next identity of a launch, region, team, group or operation. -/
  nextId : Nat
  /-- Steps the outside world, or a cause the spec leaves open, has presented, oldest first. -/
  inputs : List Instr
  dev : Device
  queues : SMap Queue
  warm : SMap WarmSlot
  launches : SMap Launch
  regions : SMap Region
  boxes : SMap Mailbox
  teams : SMap Team
  groups : SMap Group
  ops : SMap Op
  saved : SMap SavedTeam
  mem : List Host.Cell
  fab : Fabric
  /-- Porter moves in the order in which they were triggered (R166). -/
  porter : List Move
  flits : SMap (Nat × Nat × Flit)
  snaps : List Snapshot
  firstTouch : List (Nat × BitVec 16 × Nat)
  convoys : List Convoy
  assay : List AssayStream
  log : Log
  deriving DecidableEq, Repr

/-- What a byte of memory that nothing has written reads as (DESIGN CHOICE, unsafe: log entry 1). -/
def Memory.blank : Byte := 0

/-- The canonical form of memory: addresses strictly rising, no entry equal to the blank byte. -/
def Memory.wf (m : List Host.Cell) : Bool := SMap.wf Memory.blank m

/-- Why a step stops with a fault. -/
inductive Fault where
  /-- A row of the instruction set run with no group in `State.cur`, or with a group that is not in a clause. Raised by
  every instruction's meaning; `step` never runs one so. Safe. -/
  | noIssuingGroup
  /-- A host BAR2 access to a physical address that R232 calls unbacked. Raised by HOST_BAR2_ACCESS. Safe. -/
  | unbackedAddress
  deriving DecidableEq, Repr

/-- Why a step is refused. -/
inductive Refusal where
  /-- The instruction has no meaning in the model yet. Raised by an arm of `exec` only. Safe. -/
  | notModelled (mnemonic : String)
  deriving DecidableEq, Repr

/-- Before POWER_ON (R402; log entry 12): every register at the Reset column of its table, and the
values the log names where the spec gives none. -/
def State.reset : State where
  tick := 0
  free := 0
  cur := 0
  nextId := 1
  inputs := []
  dev := {}
  queues := []
  warm := []
  launches := []
  regions := []
  boxes := []
  teams := []
  groups := []
  ops := []
  saved := []
  mem := []
  fab := {}
  porter := []
  flits := []
  snaps := []
  firstTouch := []
  convoys := []
  assay := []
  log := {}

end Sys2Proof.Machine
end

