-- ==== Sys2Proof/Machine/Ops.lean ====
section
/-! DEFINITION. The named operations over the state: tables, masks, registers, bytes of memory, reports, completion flags,
taking a trap, the return from one, ending a launch, and the frame in which every instruction runs. -/
namespace Sys2Proof.Machine

/-! ## Masks and bytes -/

/-- Bits [w−1:0] (R156). -/
def fullMask (w : Nat) : Mask := BitVec.ofNat 64 (2 ^ w - 1)

/-- The lanes of a mask, in increasing order (R10). -/
def lanes (m : Mask) : List Nat := (List.range 64).filter fun l => m.getLsbD l

/-- The mask of a list of lanes. -/
def maskOf (ls : List Nat) : Mask := ls.foldl (fun m l => m ||| BitVec.ofNat 64 (2 ^ l)) 0

/-- `popcount` (R11). -/
def popcount (m : Mask) : Nat := (lanes m).length

/-- Little-endian value of a list of bytes (R6). -/
def leNat : List Byte → Nat
  | [] => 0
  | b :: bs => b.toNat + 256 * leNat bs

/-- The n little-endian bytes of a value (R6). -/
def leBytes : Nat → Nat → List Byte
  | 0, _ => []
  | n + 1, v => BitVec.ofNat 8 v :: leBytes n (v / 256)

def sext (w : Nat) (v : Nat) : Int := if v % 2 ^ w < 2 ^ (w - 1) then (v % 2 ^ w : Nat) else (v % 2 ^ w : Nat) - (2 ^ w : Nat)

/-- The two's complement pattern of an integer at a width (`wrap` of R11). -/
def wrapInt (w : Nat) (x : Int) : Nat := (x % (2 ^ w : Nat)).toNat

/-! ## Memory -/

/-- The byte at a physical address. -/
def Memory.get (m : List Host.Cell) (a : Nat) : Byte := SMap.get Memory.blank m a

/-- The memory with one byte written. -/
def Memory.set (m : List Host.Cell) (a : Nat) (v : Byte) : List Host.Cell := SMap.set Memory.blank m a v

def Memory.bytes (m : List Host.Cell) (a n : Nat) : List Byte := (List.range n).map fun i => Memory.get m (a + i)

def Memory.setBytes (m : List Host.Cell) (a : Nat) : List Byte → List Host.Cell
  | [] => m
  | b :: bs => Memory.setBytes (Memory.set m a b) (a + 1) bs

/-- A little-endian value of n bytes (R6). -/
def Memory.nat (m : List Host.Cell) (a n : Nat) : Nat := leNat (Memory.bytes m a n)

/-! ## Tables of the state -/

def State.group? (s : State) (g : Nat) : Option Group := SMap.entry? s.groups g
def State.team? (s : State) (t : Nat) : Option Team := SMap.entry? s.teams t
def State.launch? (s : State) (l : Nat) : Option Launch := SMap.entry? s.launches l
def State.region? (s : State) (r : Nat) : Option Region := SMap.entry? s.regions r
def State.op? (s : State) (o : Nat) : Option Op := SMap.entry? s.ops o
def State.queue (s : State) (q : Nat) : Queue := SMap.get {} s.queues q

def State.setGroup (s : State) (k : Nat) (g : Group) : State := { s with groups := SMap.put s.groups k g }
def State.setTeam (s : State) (k : Nat) (t : Team) : State := { s with teams := SMap.put s.teams k t }
def State.setLaunch (s : State) (k : Nat) (l : Launch) : State := { s with launches := SMap.put s.launches k l }
def State.setOp (s : State) (k : Nat) (o : Op) : State := { s with ops := SMap.put s.ops k o }
def State.setQueue (s : State) (q : Nat) (v : Queue) : State := { s with queues := SMap.set {} s.queues q v }
def State.setMem (s : State) (m : List Host.Cell) : State := { s with mem := m }
def State.setFab (s : State) (f : Fabric) : State := { s with fab := f }
def State.setDev (s : State) (d : Device) : State := { s with dev := d }

def State.modGroup (s : State) (k : Nat) (f : Group → Group) : State := { s with groups := SMap.adjust s.groups k f }
def State.modTeam (s : State) (k : Nat) (f : Team → Team) : State := { s with teams := SMap.adjust s.teams k f }
def State.modLaunch (s : State) (k : Nat) (f : Launch → Launch) : State := { s with launches := SMap.adjust s.launches k f }
def State.modOp (s : State) (k : Nat) (f : Op → Op) : State := { s with ops := SMap.adjust s.ops k f }

/-- A free bit, and the state with the next index. -/
def State.freeBit (s : State) : Bool × State := (Config.freeBit s.free, { s with free := s.free + 1 })

/-- The groups of a team, in slot order of their table. -/
def State.teamGroups (s : State) (t : Nat) : List (Nat × Group) := s.groups.filter fun e => e.2.team = t

/-- The place of a group. -/
def placeOfGroup (s : State) (g : Group) : Option Nat := (s.team? g.team).map (·.place)

/-- The reticle of a place, 8·row + column (R15). -/
def reticleOf (place : Nat) : Nat := place / 64

def State.cycle (s : State) (reticle : Nat) : Word := SMap.get 0 s.dev.cycles reticle

/-! ## Launch record fields (R76) -/

namespace Launch

def image (l : Launch) : Word := l.record.extractLsb' 0 64
def gridX (l : Launch) : Nat := (l.record.extractLsb' 64 20).toNat + 1
def gridY (l : Launch) : Nat := (l.record.extractLsb' 84 20).toNat + 1
def gridZ (l : Launch) : Nat := (l.record.extractLsb' 104 20).toNat + 1
def teamLanes (l : Launch) : Nat := (l.record.extractLsb' 128 10).toNat + 1
def width (l : Launch) : Nat := 8 * 2 ^ (l.record.extractLsb' 138 2).toNat
def warmHint (l : Launch) : Option Nat :=
  if l.record.getLsbD 148 then some (l.record.extractLsb' 140 8).toNat else none
def priority (l : Launch) : Nat := (l.record.extractLsb' 149 2).toNat
def overlap (l : Launch) : Bool := l.record.getLsbD 151
def ring (l : Launch) : Nat := 32 * ((l.record.extractLsb' 152 5).toNat + 1)
def tiles (l : Launch) : Nat := (l.record.extractLsb' 157 5).toNat
def slots (l : Launch) : Nat := (l.record.extractLsb' 162 8).toNat
def spad (l : Launch) : Nat := 1024 * (l.record.extractLsb' 170 10).toNat
def backing (l : Launch) : Nat := 4096 * (l.record.extractLsb' 192 21).toNat
def sequence (l : Launch) : BitVec 32 := l.record.extractLsb' 224 32
def recordTable (l : Launch) : Word := l.record.extractLsb' 256 64
def tablePtr (l : Launch) : Word := l.record.extractLsb' 320 64
def boundsPtr (l : Launch) : Word := l.record.extractLsb' 384 64
def completionPtr (l : Launch) : Word := l.record.extractLsb' 448 64
def bitmapPtr (l : Launch) : Word := l.record.extractLsb' 512 64
def dependence (l : Launch) : BitVec 128 := l.record.extractLsb' 576 128
/-- Slack of R76: 0 means 64. -/
def slack (l : Launch) : Nat := let n := (l.record.extractLsb' 706 8).toNat; if n = 0 then 64 else n
def apart (l : Launch) : Bool := l.record.getLsbD 714
def argument (l : Launch) : Word := l.record.extractLsb' 768 64
/-- Teams of the grid (R99). -/
def teams (l : Launch) : Nat := l.gridX * l.gridY * l.gridZ
/-- Groups of a team (R99). -/
def groups (l : Launch) : Nat := l.teamLanes / l.width
/-- The launch's dispatch table: its own, or the image's (R76). -/
def dispatch (l : Launch) (r : Region) : List Nat := l.table.getD r.table

end Launch

/-! ## Reports, interrupts and device status -/

/-- Raise one of the cause bits 0 to 3; its vector is sent when the bit goes from 0 to 1 (R387). -/
def raiseCause (d : Device) (bit : Nat) : Device :=
  if d.irqcause.getLsbD bit then d
  else { d with irqcause := d.irqcause ||| BitVec.ofNat 4 (2 ^ bit), msix := d.msix ++ [64 + bit] }

/-- Send a report to the log engine (R391). -/
def State.report (s : State) (r : Report) : State := { s with log := { s.log with reports := s.log.reports ++ [r] } }

/-- Corrected errors of one unit and cause that a window logs one by one (R392). -/
def windowLimit : Nat := 256

/-- Cycles of a window (R392). -/
def windowCycles : Word := 0x100000

/-- A window's cycles are over. -/
def ErrWindow.over (w : ErrWindow) (s : State) : Bool := decide (w.since + windowCycles ≤ s.cycle (reticleOf w.place.toNat))

/-- A window ends: the errors that it did not log one by one are logged as one record (R392). -/
def State.closeWindow (s : State) (w : ErrWindow) : State :=
  let s := { s with log := { s.log with windows := s.log.windows.erase w } }
  if windowLimit < w.count then
    s.report { cls := 0, unit := w.unit, cause := 0x05, place := w.place, detail := BitVec.ofNat 64 (w.count - windowLimit),
               cycle := if w.unit.toNat ≤ 4 then s.cycle (reticleOf w.place.toNat) else 0 }
  else s

/-- A corrected error of one part of a unit is reported; past the limit of its window it is only counted (R392). -/
def State.reportCorrected (s : State) (part : Nat) (r : Report) : State :=
  let same (w : ErrWindow) : Bool := w.unit == r.unit && w.cause == r.cause && w.place == r.place && w.part == part
  let s := match s.log.windows.find? fun w => same w && w.over s with
    | some w => s.closeWindow w
    | none => s
  let w : ErrWindow := (s.log.windows.find? same).getD { unit := r.unit, cause := r.cause, place := r.place, part, since := s.cycle (reticleOf r.place.toNat) }
  let s := { s with log := { s.log with windows := { w with count := w.count + 1 } :: s.log.windows.filter fun w => !same w } }
  if w.count < windowLimit then s.report r else s

/-! ## Where the rim attachments stand (R21) -/

/-- The reticles of stacks H0 to H15, in the numbering 8 × row + column. -/
def stackReticles : List Nat := [1, 2, 5, 6, 15, 23, 31, 39, 46, 45, 42, 41, 32, 24, 16, 8]

/-- The reticles of links L0 to L11. -/
def linkReticles : List Nat := [0, 0, 7, 7, 47, 47, 40, 40, 4, 44, 43, 3]

/-- The reticle of the host port. -/
def hostReticle : Nat := 3

/-- The reticle that a part is, or stands at. -/
def partSeat : Part → Nat
  | .reticle n => n.val
  | .stack n => (stackReticles[n.val]?).getD 0
  | .link n => (linkReticles[n.val]?).getD 0
  | .hostPort => hostReticle

/-- The place of a record about a part: core bits zero (R391). -/
def partPlace (p : Part) : BitVec 12 := BitVec.ofNat 12 (64 * partSeat p)

/-! ## Ending and rolling back a launch -/

/-- An end request of a group's launch sets out for the dispatcher (R359). -/
def State.requestEnd (s : State) (l : Nat) (status cause : BitVec 8) (place : BitVec 12) (addr : Word) : State :=
  s.modLaunch l fun x => { x with requests := x.requests ++ [(status, cause, place, addr)] }

/-- A launch is to be rolled back (R375); ROLLBACK carries it out. -/
def State.requestRollback (s : State) (l : Nat) : State := s.modLaunch l fun x => { x with rollback := true }

/-- A convoy's two sides differ: CONVOY_MISMATCH recovers at the waypoint (R380). -/
def State.mismatchTeam (s : State) (team : Nat) : State :=
  { s with convoys := s.convoys.map fun v => if v.lead = team ∨ v.escort = team then { v with mismatched := true } else v }

/-! ## The frame of an instruction -/

/-- What an instruction runs in: its group, team, launch, region and clause header. -/
structure Ctx where
  gid : Nat
  g : Group
  t : Team
  lid : Nat
  l : Launch
  r : Region
  h : Header

/-- Why an instruction does not take its effect now: a trap, or a wait in mid-clause (R123) with the steps it has
asked others to take meanwhile. -/
inductive Stop where
  | trap (t : Trap)
  /-- A trap after which what the instruction popped stays consumed (R200). -/
  | trapIn (t : Trap) (s : State)
  | wait (s : State)
  /-- The instruction has said itself where its group stands: a path switch at a member-masked position, or a group that
  ends. -/
  | moved (s : State)

abbrev Res := Except Stop

/-- The word at a byte offset of the region's code copy; `none` at or past the code size (R118). -/
def codeAt (r : Region) (a : Nat) : Option Word := if a % 8 = 0 then r.code[a / 8]? else none

/-- Whether a code address holds a clause header (R132). -/
def isHeaderAt (r : Region) (a : Nat) : Bool :=
  match codeAt r a with
  | some w => isHeaderWord w
  | none => false

/-- The frame of a group. -/
def State.ctx? (s : State) (gid : Nat) : Option Ctx := do
  let g ← s.group? gid
  let t ← s.team? g.team
  let l ← s.launch? t.launch
  let r ← s.region? (← l.region)
  let w ← codeAt r g.hdr.toNat
  let h ← decodeHeader w
  pure ⟨gid, g, t, t.launch, l, r, h⟩

/-- Trap causes (R351). -/
def Cause.illegalEncoding : BitVec 8 := 0x01
def Cause.illegalOperand : BitVec 8 := 0x02
def Cause.illegalTarget : BitVec 8 := 0x03
def Cause.illegalConvergence : BitVec 8 := 0x04
def Cause.exitedLane : BitVec 8 := 0x05
def Cause.dispatchRange : BitVec 8 := 0x06
def Cause.windowOverflow : BitVec 8 := 0x07
def Cause.pageFault : BitVec 8 := 0x08
def Cause.porterFault : BitVec 8 := 0x09
def Cause.regionBounds : BitVec 8 := 0x0A
def Cause.protection : BitVec 8 := 0x0B
def Cause.scratchpadState : BitVec 8 := 0x0C
def Cause.formatMismatch : BitVec 8 := 0x0D
def Cause.alignment : BitVec 8 := 0x0E
def Cause.poisonConsumed : BitVec 8 := 0x0F
def Cause.fenceUnreachable : BitVec 8 := 0x10
def Cause.convoyMismatch : BitVec 8 := 0x11
def Cause.placementFault : BitVec 8 := 0x12
def Cause.queueMisuse : BitVec 8 := 0x13
def Cause.userTrap : BitVec 8 := 0x14
def Cause.doubleFault : BitVec 8 := 0x15
def Cause.scaleSourceAbsent : BitVec 8 := 0x16
def Cause.launchDepth : BitVec 8 := 0x17
def Cause.mailboxMisuse : BitVec 8 := 0x18

/-- Stop with a trap that names no address. -/
def trap {α : Type} (c : BitVec 8) (addr : Word := 0) : Res α := .error (.trap { cause := c, addr })

def illegal {α : Type} : Res α := trap Cause.illegalOperand

def guardOp (b : Bool) : Res Unit := if b then .ok () else illegal

/-- A code position as TRAPPC holds it (R122, R355). -/
def pcReg (hdr : BitVec 32) (idx : Nat) : BitVec 37 := BitVec.ofNat 37 (idx * 2 ^ 32 + hdr.toNat)

/-! ## Taking a trap and returning from it -/

/-- `double_fault` of R352: the trapped registers but TRAPCAUSE and TRAPADDR stay; the launch is rolled back or ends. -/
def doubleFault (gid : Nat) (g : Group) (t : Team) (l : Launch) (addr : Word) (s : State) : State :=
  let s := s.setGroup gid { g with trapCause := Cause.doubleFault, trapAddr := addr, phase := .stopped }
  if l.prot then s.requestRollback t.launch
  else s.requestEnd t.launch 0x02 Cause.doubleFault (BitVec.ofNat 12 t.place) addr

/-- A poison-consumed trap that carries a tag reports it to the dispatcher; the first report stays (R385). -/
def reportTag (lid : Nat) (info : BitVec 23) (s : State) : State :=
  if info.getLsbD 12 then s.modLaunch lid fun x => { x with tag := x.tag.or (some (info.extractLsb' 0 12)) } else s

/-- `take_trap` of R352 at the position given. TRAPMASK is EXEC where the cause names no lanes (R351). A HANDLER value
that names no clause header is a double fault at entry (R354). -/
def takeTrap (gid : Nat) (g : Group) (t : Team) (l : Launch) (r : Region) (pos : BitVec 37) (x : Trap) (s : State) : State :=
  let s := if x.cause = Cause.poisonConsumed then reportTag t.launch x.info s else s
  if x.cause = Cause.convoyMismatch then s.mismatchTeam g.team
  else if g.sup then doubleFault gid g t l x.addr s
  else if x.cause = Cause.poisonConsumed ∧ l.prot then
    (s.setGroup gid { g with phase := .stopped }).requestRollback t.launch
  else
    let g := { g with trapCause := x.cause, trapPc := pos, trapMask := x.mask.getD g.exec, trapAddr := x.addr,
                      trapInfo := x.info, trapExec := g.exec }
    if g.handler = 0 then
      (s.setGroup gid { g with phase := .stopped }).requestEnd t.launch 0x02 x.cause (BitVec.ofNat 12 t.place) x.addr
    else
      let g := { g with sup := true }
      if isHeaderAt r g.handler.toNat then
        s.setGroup gid { g with hdr := g.handler, idx := 0, fromHdr := g.hdr, fromIdx := g.idx, phase := .boundary,
                                readyAt := s.tick, wasReady := false }
      else doubleFault gid g t l (g.handler.zeroExtend 64) s

/-- A trap of the instruction at the group's position. -/
def Ctx.takeTrap (c : Ctx) (x : Trap) (s : State) : State :=
  match s.group? c.gid with
  | some g => Machine.takeTrap c.gid g c.t c.l c.r (pcReg g.hdr g.idx) x s
  | none => s

/-- The next clause's header offset (`next_clause` of R171). -/
def Ctx.nextClause (c : Ctx) : BitVec 32 := c.g.hdr + BitVec.ofNat 32 (8 * (c.h.count.val + 2))

/-- What an instruction asked of the porter is no longer asked. -/
def Group.wantNothing (g : Group) : Group := { g with wantRing := 0, wantTok := false, wb := none }

/-- The same when a group leaves an instruction, but for what it asked before it entered its handler: the porter goes on
with that after RFT (R169). -/
def Group.settleWants (g : Group) : Group := if g.sup then g else g.wantNothing

/-- The clause is over: the group stands before the clause at `a`. -/
def Group.goto (g : Group) (a : BitVec 32) (tick : Nat) : Group :=
  { g.settleWants with hdr := a, idx := 0, fromHdr := g.hdr, fromIdx := g.idx, phase := .boundary, readyAt := tick }

/-- The header of the clause that holds the word at code address a, and its index; headers are found by walking the
code from its start (R118). A word that stands in no clause resumes there as a header would (R121 then traps). -/
def locate (r : Region) (a : Nat) : Nat × Nat :=
  let rec walk : Nat → Nat → Nat × Nat
    | 0, _ => (a, 0)
    | fuel + 1, h =>
      match codeAt r h with
      | none => (a, 0)
      | some w =>
        if a ≤ h then (a, 0)
        else
          let n := fld w.toNat 51 4 + 1
          if a ≤ h + 8 * n then (h, (a - h) / 8) else walk fuel (h + 8 * (n + 1))
  walk r.code.length 0

/-- Resume at a code address that names a header or an instruction word (R157, R414). -/
def Group.resume (g : Group) (r : Region) (a : BitVec 32) (tick : Nat) : Group :=
  let (h, k) := if isHeaderAt r a.toNat then (a.toNat, 0) else locate r a.toNat
  { g.settleWants with hdr := BitVec.ofNat 32 h, idx := k, fromHdr := g.hdr, fromIdx := g.idx, phase := .boundary, readyAt := tick }

/-- After the instruction at `idx`: the next one of the clause, or the next clause (R123, R124). -/
def Ctx.advance (c : Ctx) (s : State) : State :=
  s.modGroup c.gid fun g =>
    if g.idx < c.h.count.val + 1 then { g with idx := g.idx + 1, phase := .issuing }
    else g.goto c.nextClause s.tick

/-- The instruction at `idx` waits and releases its port (R123). -/
def Ctx.waitHere (c : Ctx) (s : State) : State := s.modGroup c.gid fun g => { g with phase := .waiting, readyAt := s.tick }

/-- Forget what is held for the group's instruction alone, the results of walks (R234), values popped while a send waits,
the record of a waiting LAUNCH (R93) and the wait for a peer, once it has passed or trapped. -/
def Ctx.settled (c : Ctx) (s : State) : State :=
  s.modGroup c.gid fun g => { g with absent := [], kept := [], popFp := 0, popSubst := 0, launchRec := none, peerStart := none }

/-- An instruction that issues raises the flags and substitute bits of the stream vectors it popped (R69, R261). -/
def Ctx.raisePopped (c : Ctx) (s : State) : State :=
  match s.group? c.gid with
  | none => s
  | some g =>
    if g.popFp = 0 ∧ g.popSubst = 0 then s
    else (s.modLaunch c.lid fun x => { x with subst := x.subst ||| g.popSubst }).modGroup c.gid fun g =>
      { g with fpstat := g.fpstat ||| g.popFp }

/-- Run an instruction for the group `State.cur`: its traps are taken at its own position, its waits leave it to issue
again, and `done` is where the group goes after its effect. -/
def runWith (done : Ctx → State → State) (body : Ctx → State → Res State) (s : State) : Host.Outcome State Fault Refusal :=
  match s.ctx? s.cur with
  | none => .fault .noIssuingGroup
  | some c =>
    if c.g.phase ≠ .issuing then .fault .noIssuingGroup
    else match body c s with
      | .ok s' => .next (done c (c.settled (c.raisePopped s')))
      | .error (.trap x) => .next (c.takeTrap x (c.settled s))
      | .error (.trapIn x s') => .next (c.takeTrap x (c.settled s'))
      | .error (.wait s') => .next (c.waitHere s')
      | .error (.moved s') => .next (c.settled s')

/-- An instruction that is followed by the next one of its clause. -/
def runInstr (body : Ctx → State → Res State) : State → Host.Outcome State Fault Refusal := runWith Ctx.advance body

/-- An instruction that sets the program counter itself (R124). -/
def runControl (body : Ctx → State → Res State) : State → Host.Outcome State Fault Refusal := runWith (fun _ s => s) body

/-- Vectors fetched before the first one that met a fault; the outrider fetches the others again (R261, R358). -/
def Stream.soundPart (st : Stream) : Stream :=
  { st with fetched := st.fetched.takeWhile fun v => v.lanes.all fun x => x.trap.isNone }

/-- `rft` of R358, RETRY and NEXT: back to the trapped position or past it, then every held fault is taken. A position past
the clause's last instruction stays, and fails the check of its resumption (log entry 87). -/
def returnFromTrap (next : Bool) (c : Ctx) (s : State) : Res State :=
  if !c.g.sup then illegal
  else
    let h := c.g.trapPc.extractLsb' 0 32
    let k := (c.g.trapPc.extractLsb' 32 5).toNat
    let n := match codeAt c.r h.toNat with
      | some w => fld w.toNat 51 4 + 1
      | none => 0
    let at_ : BitVec 32 × Nat :=
      if next && k ≠ 0 && k < n then (h, k + 1)
      else if next && k ≠ 0 && k = n then (h + BitVec.ofNat 32 (8 * (n + 1)), 0)
      else (h, k)
    let g := if next then c.g.wantNothing else c.g
    .ok (s.setGroup c.gid { g with
      sup := false, exec := c.g.trapExec &&& c.g.live,
      streams := c.g.streams.map fun (e : Nat × Stream) => (e.1, e.2.soundPart),
      hdr := at_.1, idx := at_.2, fromHdr := c.g.hdr, fromIdx := c.g.idx, phase := .boundary, readyAt := s.tick })

/-! ## Completion flags (R125) -/

/-- The flag an instruction counts on. -/
def Ctx.flag (c : Ctx) (i : Instr) : Option (Fin 12) :=
  match i.flagSelect with
  | some false => c.h.setA
  | some true => c.h.setB
  | none => none

def Group.flagCount (g : Group) (f : Nat) : Nat := SMap.get 0 g.flags f

/-- Count an instruction on its flag; a counter at 63 makes it wait before it issues. -/
def countFlag (f : Option (Fin 12)) (gid : Nat) (s : State) : Res State :=
  match f, s.group? gid with
  | some k, some g =>
    if 63 ≤ g.flagCount k.val then .error (.wait s)
    else .ok (s.setGroup gid { g with flags := SMap.set 0 g.flags k.val (g.flagCount k.val + 1) })
  | _, _ => .ok s

/-- An instruction's completion decrements its counter. -/
def Group.uncount (g : Group) (f : Option (Fin 12)) : Group :=
  match f with
  | none => g
  | some k => { g with flags := SMap.set 0 g.flags k.val (g.flagCount k.val - 1) }

/-- Start a counted operation: count it and enter it among the operations in flight. -/
def issueOp (c : Ctx) (o : Op) (s : State) : Res State := do
  let s ← countFlag o.flag c.gid s
  let o := { o with sentAt := s.cycle (reticleOf c.t.place) }
  .ok { s with ops := SMap.put s.ops s.nextId o, nextId := s.nextId + 1 }

/-- A new operation of the issuing instruction. -/
def Ctx.op (c : Ctx) (i : Instr) : Op :=
  { group := c.gid, flag := c.flag i, instr := i, exec := c.g.exec, base := c.g.base, sup := c.g.sup }

/-- Registers written at completion are those that the instruction named at issue, in its frame (R126, R163); those above
the top of the window stack are gone (R165). -/
def Op.inFrame (o : Op) (g : Group) (f : Group → Group) : Group :=
  let g' := f { g with base := o.base, sup := o.sup }
  { g' with base := g.base, sup := g.sup, win := g'.win.filter fun (e : Nat × Lane) => decide (e.1 < (g.base + 112) * 64) }

/-- An operation leaves the table. -/
def State.dropOp (s : State) (k : Nat) : State := { s with ops := SMap.del s.ops k }

/-- An operation is over: its counter is decremented and it leaves the table. -/
def State.finishOp (s : State) (k : Nat) (o : Op) : State :=
  let s := s.dropOp k
  let s := if o.posted then s else s.modGroup o.group fun g => g.uncount o.flag
  match o.twin with
  | some (g, f) => s.modGroup g fun x => x.uncount f
  | none => s

/-- Operations of a group that have not completed; a posted store awaits only its acknowledgement (R287, R399). -/
def State.pendingOps (s : State) (gid : Nat) : List (Nat × Op) := s.ops.filter fun e => e.2.group = gid && !e.2.posted

/-- The operations of a group, oldest first. -/
def State.groupOps (s : State) (gid : Nat) : List (Nat × Op) := s.ops.filter fun e => e.2.group = gid

/-- Bytes of a size code. -/
def sizeBytes : Size → Nat
  | .b1 => 1 | .b2 => 2 | .b4 => 4 | .b8 => 8 | .b16 => 16

/-- A number for the register that a specifier's register n names in a frame: fixed, of the frame, of the reserve, or
scalar. -/
def regKey (base : Nat) (sup vec : Bool) (n : Nat) : Nat :=
  if vec then if n < 16 then n else if sup then 400 + n else 1000 + base + n
  else if sup && 56 ≤ n then 300 + n else 200 + n

/-- The registers that a counted instruction writes (R126, R127). -/
def destKeys (base : Nat) (sup : Bool) (i : Instr) : List Nat :=
  let d (x : Spec) (size : Nat) : List Nat := match x with
    | .v n => (List.range (max 1 (size / 4))).map fun k => regKey base sup true (n.val + k)
    | .s n => [regKey base sup false n.val]
    | _ => []
  match i with
  | .ld f | .ldu f | .ldfe f => d f.data (sizeBytes f.size)
  | .atom f | .atomu f => d f.data (sizeBytes f.size)
  | .vdec f => d f.data 4 ++ (if f.aux then d f.addr 8 else [])
  | .venc f => if f.aux then d f.addr 8 else []
  | .mrd x _ _ ty _ _ _ => d x (if ty == .f64 then 8 else 4)
  | .launch x _ _ | .mappg x _ _ _ => d x 8
  | _ => []

def Op.destKeys (o : Op) : List Nat := Machine.destKeys o.base o.sup o.instr

/-- An operation of the group from before k has yet to write one of these registers: of two counted instructions the
later one writes last (R127). -/
def State.destBusy (s : State) (gid k : Nat) (keys : List Nat) : Bool :=
  (s.pendingOps gid).any fun e => decide (e.1 < k) && e.2.destKeys.any keys.contains

/-- An instruction that completes at issue: it waits for earlier writers of its registers, and its counter is counted up
and down at once. -/
def completeAtOnce (c : Ctx) (i : Instr) (s : State) : Res State := do
  let s' ← countFlag (c.flag i) c.gid s
  if s.destBusy c.gid s.nextId (destKeys c.g.base c.g.sup i) then .error (.wait s)
  else .ok (s'.modGroup c.gid fun g => g.uncount (c.flag i))

/-- A fault found after issue, or while the handler runs, is taken before the group's next clause (R290, R354); a counter
of flag f is decremented when it is. -/
def State.holdFault (s : State) (gid : Nat) (x : Trap) (f : Option (Fin 12) := none) : State :=
  s.modGroup gid fun g => { g with heldFaults := g.heldFaults ++ [(x, f)] }

/-- A fault that an operation meets after issue ends it; a convoy's other side takes it too (R381). Its counter is
decremented when the fault is taken (R125). -/
def State.faultOp (s : State) (k : Nat) (o : Op) (x : Trap) : State :=
  let s := (s.dropOp k).holdFault o.group x (if o.posted then none else o.flag)
  match o.twin with
  | some (g, f) => s.holdFault g x f
  | none => s

/-- A fault after which the operation goes on, still counted (R290). -/
def State.stallOp (s : State) (k : Nat) (o : Op) (x : Trap) : State :=
  let s := (s.setOp k { o with fault := some x }).holdFault o.group x
  match o.twin with
  | some (g, _) => s.holdFault g x
  | none => s

/-- Raise flags in a group's FPSTAT (R69). -/
def State.raiseFp (s : State) (gid : Nat) (f : BitVec 7) : State := s.modGroup gid fun g => { g with fpstat := g.fpstat ||| f }

/-- Set a substitute bit of the launch (R70). -/
def State.raiseSubst (s : State) (lid : Nat) (i : Nat) : State :=
  s.modLaunch lid fun x => { x with subst := x.subst ||| BitVec.ofNat 64 (2 ^ i) }

/-! ## Device steps -/

/-- A device step that takes its effect, or none where what it names is not there or not ready. -/
def event (f : State → Option State) (s : State) : Host.Outcome State Fault Refusal := .next ((f s).getD s)

end Sys2Proof.Machine
end

