-- ==== Sys2Proof/Machine/Translate.lean ====
section
/-! DEFINITION. Generic pointers, the context table, the page tables, the translation look-aside buffers and the ordered
checks of an access (R225 to R234). -/
namespace Sys2Proof.Machine

/-! ## Pointers (R225) -/

def gib : Nat := 2 ^ 30

/-- Move the address part of a generic pointer, wrapping in 56 bits and keeping the region id (R208). -/
def ptrAdd (p : Word) (d : Int) : Word :=
  BitVec.ofNat 64 ((p.toNat / 2 ^ 56) * 2 ^ 56 + wrapInt 56 ((p.toNat % 2 ^ 56 : Nat) + d))

def ptrRegion (p : Word) : Nat := p.toNat / 2 ^ 56
def ptrAddr (p : Word) : Nat := p.toNat % 2 ^ 56

inductive Aperture where
  | scratchpad (off : Nat) | stack (off : Nat) | global
  deriving DecidableEq, Repr

def apertureOf (a : Nat) : Aperture :=
  if 0xF0000000000000 ≤ a ∧ a ≤ 0xF000000007FFFF then .scratchpad (a - 0xF0000000000000)
  else if 0xE0000000000000 ≤ a ∧ a ≤ 0xE00000FFFFFFFF then .stack (a - 0xE0000000000000)
  else .global

/-- Which aperture an address lies in, without the offset. -/
def Aperture.kind : Aperture → Nat
  | .scratchpad _ => 0 | .stack _ => 1 | .global => 2

/-! ## The context table (R226) -/

/-- The 64-byte entry of a context. -/
def ctxEntry (s : State) (c : BitVec 16) : BitVec 512 :=
  BitVec.ofNat 512 (Memory.nat s.mem (s.dev.ctxtab.toNat + 64 * c.toNat) 64)

def ctxRoot (e : BitVec 512) : Nat := (e.extractLsb' 13 35).toNat * 2 ^ 13
def ctxStackBase (e : BitVec 512) : Nat := (e.extractLsb' 64 64).toNat
def ctxStackSlots (e : BitVec 512) : Nat := (e.extractLsb' 160 16).toNat + 1
def ctxPool (e : BitVec 512) : Nat := (e.extractLsb' 192 64).toNat

/-- An entry a launch may run in: valid, and every reserved bit zero. -/
def ctxValid (s : State) (e : BitVec 512) : Bool :=
  s.dev.ctxtab != 0 && e.getLsbD 0 && e.extractLsb' 1 12 == 0 && e.extractLsb' 48 16 == 0 && e.extractLsb' 128 32 == 0
    && e.extractLsb' 176 16 == 0 && e.extractLsb' 256 256 == 0

/-! ## Page tables (R231, R232) -/

namespace Leaf

def user (w : Word) : Bool := w.getLsbD 3
def write (w : Word) : Bool := w.getLsbD 2
def read (w : Word) : Bool := w.getLsbD 1
def frame (w : Word) : Nat := (w.extractLsb' 8 32).toNat
def formatted (w : Word) : Bool := w.getLsbD 44
def format (w : Word) : Fmt := Fmt.ofCode (w.extractLsb' 45 5).toNat
def geometry (w : Word) : Nat := (w.extractLsb' 50 2).toNat
def single (w : Word) : Bool := w.getLsbD 52
def stack (w : Word) : Nat := (w.extractLsb' 53 4).toNat
def hostBias (w : Word) : Bool := w.getLsbD 57
def cow (w : Word) : Bool := w.getLsbD 58
def snapshot (w : Word) : Bool := w.getLsbD 59
def migration (w : Word) : Nat := (w.extractLsb' 60 2).toNat
def hint (w : Word) : Hint := Hint.ofCode (w.extractLsb' 62 2).toNat

/-- Base pages of a leaf at a level (R231). -/
def pages (level : Nat) : Nat := 1024 ^ level

/-- The limit of R232 that base page F meets. -/
def frameOk (w : Word) (f : Nat) : Bool :=
  if f < 2 ^ 30 then
    if single w then f * 65536 + 65536 ≤ 96 * gib else f * 4096 + 4096 ≤ 96 * gib
  else if f < 2 ^ 31 then f / 2 ^ 29 % 2 = 0 && f % 2 ^ 25 * 65536 + 65536 ≤ 1536 * gib
  else true

/-- A present leaf that no rule of R231 or R232 calls malformed. The first and the last base page meet their limit
exactly when every one does. -/
def wellFormed (w : Word) (level : Nat) : Bool :=
  w.extractLsb' 40 4 == 0 && w.extractLsb' 4 3 == 0 && geometry w != 3 && migration w != 3
    && frame w % pages level == 0 && frame w + pages level ≤ 2 ^ 32 && frameOk w (frame w)
    && frameOk w (frame w + pages level - 1)

/-- The physical address of byte `off` of base page F (R232). -/
def place (w : Word) (f off : Nat) : Nat :=
  if f < 2 ^ 30 then
    if single w then stack w * (96 * gib) + f * 65536 + off
    else off / 4096 * (96 * gib) + f * 4096 + off % 4096
  else if f < 2 ^ 31 then 2 ^ 46 + f / 2 ^ 25 % 16 * 2 ^ 41 + f % 2 ^ 25 * 65536 + off
  else 2 ^ 47 + (f - 2 ^ 31) * 65536 + off

/-- The physical address of virtual address va. -/
def phys (w : Word) (level va : Nat) : Nat := place w (frame w + va / 65536 % pages level) (va % 65536)

end Leaf

/-- A leaf whose frame reaches into the last 512 MiB of a stack (R233). -/
def Leaf.reserved (w : Word) (level : Nat) : Bool :=
  Leaf.frame w < 2 ^ 30 && decide (96 * gib - 2 ^ 29 < (Leaf.frame w + Leaf.pages level) * if Leaf.single w then 65536 else 4096)

/-- The last 512 MiB of every stack (R233). -/
def isReserved (p : Nat) : Bool := p < 1536 * gib && 96 * gib - 2 ^ 29 ≤ p % (96 * gib)

def isPeer (p : Nat) : Bool := 2 ^ 46 ≤ p && p < 2 ^ 47
def isHost (p : Nat) : Bool := 2 ^ 47 ≤ p && p < 2 ^ 48
def peerOf (p : Nat) : Nat := (p - 2 ^ 46) / 2 ^ 41

/-- A physical address that R232 backs. -/
def isBacked (p : Nat) : Bool :=
  p < 1536 * gib || (isPeer p && (p - 2 ^ 46) % 2 ^ 41 < 1536 * gib) || isHost p

inductive WalkResult where
  | found (leaf : Word) (level : Nat)
  | absent (level : Nat)
  | malformed
  deriving DecidableEq, Repr

/-- A walk from a level-`level` table down (R231). -/
def walkFrom (mem : List Host.Cell) (va : Nat) : Nat → Nat → WalkResult
  | level, table =>
    let w := BitVec.ofNat 64 (Memory.nat mem (table + 8 * (va / 2 ^ (16 + 10 * level) % 1024)) 8)
    if !w.getLsbD 0 then .absent level
    else match level with
      | 0 => if Leaf.wellFormed w 0 then .found w 0 else .malformed
      | level' + 1 =>
        if w.getLsbD 7 then
          if level' + 1 ≤ 2 ∧ Leaf.wellFormed w (level' + 1) then .found w (level' + 1) else .malformed
        else if w.extractLsb' 1 12 != 0 || w.extractLsb' 48 16 != 0 then .malformed
        else walkFrom mem va level' ((w.extractLsb' 13 35).toNat * 2 ^ 13)

/-- The translation of a 56-bit address in a context. -/
def walkTables (s : State) (c : BitVec 16) (va : Nat) : WalkResult :=
  walkFrom s.mem va 3 (ctxRoot (ctxEntry s c))

/-- The physical address of the level-0 entry of va's base page, where the non-leaf levels are present and sound. -/
def leafSlot (mem : List Host.Cell) (va : Nat) : Nat → Nat → Except WalkResult Nat
  | 0, table => .ok (table + 8 * (va / 2 ^ 16 % 1024))
  | level + 1, table =>
    let w := BitVec.ofNat 64 (Memory.nat mem (table + 8 * (va / 2 ^ (16 + 10 * (level + 1)) % 1024)) 8)
    if !w.getLsbD 0 then .error (.absent (level + 1))
    else if w.getLsbD 7 then
      .error (if level + 1 ≤ 2 ∧ Leaf.wellFormed w (level + 1) then .found w (level + 1) else .malformed)
    else if w.extractLsb' 1 12 != 0 || w.extractLsb' 48 16 != 0 then .error .malformed
    else leafSlot mem va level ((w.extractLsb' 13 35).toNat * 2 ^ 13)

/-! ## Moving pages (R234, R400) -/

/-- The line that holds a location. -/
def lineOf (loc : Nat) : Nat := loc / 128

/-- Where a byte of a line that a page move has already copied lies. -/
def forwarded (f : Fabric) (loc : Nat) : Nat :=
  match f.move with
  | none => loc
  | some (_, page, old, new, n) =>
    -- the page's physical bytes under the old leaf, line by line
    match (List.range n).find? fun i => lineOf (Leaf.phys old 0 (page * 65536 + 128 * i)) = lineOf loc with
    | some i => Leaf.phys new 0 (page * 65536 + 128 * i) + loc % 128
    | none => loc

/-- Bytes as pairs of generic address and location, where they lie now. -/
def forwardAll (f : Fabric) (bytes : List (Nat × Nat)) : List (Nat × Nat) :=
  if f.move.isNone then bytes else bytes.map fun b => (b.1, forwarded f b.2)

/-! ## Look-aside buffers (R234) -/

def TlbEntry.covers (e : TlbEntry) (c : BitVec 16) (page : Nat) : Bool :=
  e.ctx == c && e.page / Leaf.pages e.level == page / Leaf.pages e.level

def tlbFind (t : List (Nat × TlbEntry)) (k : Nat) (c : BitVec 16) (page : Nat) : Option TlbEntry :=
  (t.find? fun e => e.1 == k && e.2.covers c page).map (·.2)

/-- Install an entry at owner k, the newest first, keeping at most n of the owner. -/
def tlbAdd (t : List (Nat × TlbEntry)) (k n : Nat) (e : TlbEntry) : List (Nat × TlbEntry) :=
  let own := (t.filter fun x => x.1 == k).take (n - 1)
  (k, e) :: own ++ t.filter fun x => x.1 != k

/-- A core's translation of a page: its own entry, or the reticle's. -/
def tlbLookup (s : State) (place : Nat) (c : BitVec 16) (page : Nat) : Option TlbEntry :=
  (tlbFind s.fab.tlb place c page).or (tlbFind s.fab.tlbShared (reticleOf place) c page)

/-- Add a waiting group to the entry of a page in a list of misses. -/
def joinMiss (ws : List Walk) (r : Nat) (c : BitVec 16) (page gid : Nat) : List Walk :=
  ws.map fun w =>
    if w.reticle == r && w.ctx == c && w.page == page && !w.waiters.contains gid then { w with waiters := w.waiters ++ [gid] } else w

/-- A list of misses has an entry for a page. -/
def hasMiss (ws : List Walk) (r : Nat) (c : BitVec 16) (page : Nat) : Bool :=
  ws.any fun w => w.reticle == r && w.ctx == c && w.page == page

/-- Pages that a walk queue holds. -/
def walkLimit : Nat := 64

/-- A miss joins its reticle's walk queue: one entry a page, at most 64 pages. A further one waits in its core, and misses
are taken in order of arrival (R234). -/
def joinWalk (s : State) (gid place : Nat) (c : BitVec 16) (page : Nat) : State :=
  let r := reticleOf place
  let f := s.fab
  if hasMiss f.walks r c page then s.setFab { f with walks := joinMiss f.walks r c page gid }
  else if hasMiss f.missed r c page then s.setFab { f with missed := joinMiss f.missed r c page gid }
  else if (f.walks.filter fun w => w.reticle == r).length < walkLimit then s.setFab { f with walks := f.walks ++ [⟨r, c, page, [gid]⟩] }
  else s.setFab { f with missed := f.missed ++ [⟨r, c, page, [gid]⟩] }

/-- The oldest miss that waits in a core of a reticle takes a place that its walk queue has free. -/
def admitMiss (f : Fabric) (r : Nat) : Fabric :=
  match f.missed.find? fun w => w.reticle == r with
  | some w => { f with walks := f.walks ++ [w], missed := f.missed.erase w }
  | none => f

/-- An entry enters the shared buffer of a reticle and the buffers of some of its cores. -/
def tlbInstall (f : Fabric) (r : Nat) (cores : List Nat) (e : TlbEntry) : Fabric :=
  { f with tlbShared := tlbAdd f.tlbShared r 4096 e, tlb := cores.foldl (fun t k => tlbAdd t k 64 e) f.tlb }

/-- TLB_WALK: the oldest miss of a reticle is walked; a present, sound entry goes to the shared buffer and to every
waiting core, and any other result to the waiting groups, which take check 6 (R234). -/
def tlbWalk (r : Fin 48) (s : State) : Option State := do
  let w ← s.fab.walks.find? fun w => w.reticle == r.val
  let f := admitMiss { s.fab with walks := s.fab.walks.erase w } r.val
  match walkTables s w.ctx (w.page * 65536) with
  | .found leaf level =>
    let cores := (w.waiters.filterMap fun g => do (← s.team? (← s.group? g).team).place).dedup
    pure (s.setFab (tlbInstall f r.val cores ⟨w.ctx, w.page, leaf, level⟩))
  | _ =>
    pure (w.waiters.foldl (fun s g => s.modGroup g fun x => { x with absent := w.page :: x.absent }) (s.setFab f))

/-- What a core's translation of an address finds: its buffers, else a walk (R234). The engines, the porter, the outrider
and PREF translate so. -/
def translate (s : State) (place : Nat) (c : BitVec 16) (va : Nat) : WalkResult :=
  match tlbLookup s place c (va / 65536) with
  | some e => .found e.leaf e.level
  | none => walkTables s c va

/-- The walks of some addresses that miss: present entries enter the buffers. -/
def fillTlb (s : State) (place : Nat) (c : BitVec 16) (vas : List Nat) : State :=
  ((vas.map (· / 65536)).dedup).foldl (fun s page =>
    if (tlbLookup s place c page).isSome then s
    else match walkTables s c (page * 65536) with
      | .found leaf level => s.setFab (tlbInstall s.fab (reticleOf place) [place] ⟨c, page, leaf, level⟩)
      | _ => s) s

/-- Drop the entries that a predicate names from every buffer (R362). -/
def tlbDrop (f : Fabric) (p : TlbEntry → Bool) : Fabric :=
  { f with tlb := f.tlb.filter fun e => !p e.2, tlbShared := f.tlbShared.filter fun e => !p e.2 }

/-! ## The checks of an access (R230) -/

inductive Access where
  | load | store | atomic
  /-- FLUSHL and INVL (R282). -/
  | flush
  deriving DecidableEq, Repr

def Access.reads : Access → Bool
  | .load | .atomic => true
  | _ => false

def Access.writes : Access → Bool
  | .store | .atomic => true
  | _ => false

/-- What check 9 compares with a page's format attribute: nothing, the stored format and interleave of a record, or the
page's own implicit record (R37). -/
inductive FmtUse where
  | raw
  | record (f : Fmt) (il : Nat)
  | page
  /-- MLDB: the format code alone (R298). -/
  | code (f : Fmt)
  deriving DecidableEq, Repr

/-- Consecutive bytes of one lane; `apart` says that they are no part of the lane's own run, as a scale entry is not. -/
structure Piece where
  lane : Nat
  ptr : Word
  len : Nat
  fmt : FmtUse := .raw
  apart : Bool := false
  deriving DecidableEq, Repr

/-- A byte located by translation: its lane, its generic address, its location (`LaneReq.bytes`), and its leaf with the
level it stands at. -/
structure Located where
  lane : Nat
  ptr : Nat
  loc : Nat
  leaf : Option (Word × Nat)
  deriving DecidableEq, Repr

/-- Location code of a byte of the own scratchpad share. -/
def spadLoc (off : Nat) : Nat := 2 ^ 48 + off

/-- The address a trap reports: a private-stack address is rebased, wrapping in 56 bits (R208, R228, R407). -/
def reportAddr (stackBase slot : Nat) (p : Nat) : Word :=
  match apertureOf (p % 2 ^ 56) with
  | .stack off => BitVec.ofNat 64 ((stackBase + slot * 2 ^ 32 + off) % 2 ^ 56)
  | _ => BitVec.ofNat 64 p

/-- The bytes of a piece, as generic addresses. -/
def Piece.bytes (p : Piece) : List Nat := (List.range p.len).map fun (i : Nat) => (ptrAdd p.ptr i).toNat

/-- What the checks need of the group that makes the access. -/
structure Who where
  gid : Nat
  g : Group
  t : Team
  l : Launch
  stackBase : Nat

def Ctx.who (c : Ctx) (s : State) : Who := ⟨c.gid, c.g, c.t, c.l, ctxStackBase (ctxEntry s c.l.ctx)⟩

/-- The virtual global address of a generic address, after rebasing; `none` for the scratchpad. -/
def Who.global (w : Who) (p : Nat) : Option Nat :=
  match apertureOf (p % 2 ^ 56) with
  | .scratchpad _ => none
  | .stack off => some ((w.stackBase + w.g.stackSlot * 2 ^ 32 + off) % 2 ^ 56)
  | .global => some (p % 2 ^ 56)

/-- The buffer of the team that covers a scratchpad offset (R237). -/
def Team.bufferAt (t : Team) (off : Nat) : Option (Nat × Buf) :=
  t.bufs.find? fun b =>
    let d := b.2.desc
    let base := (d.extractLsb' 0 19).toNat
    base ≤ off && off < base + 4 * (d.extractLsb' 48 16).toNat * (d.extractLsb' 32 16).toNat

/-- R238 for accesses of threads: full and draining take loads, empty and filling take stores and atomics. -/
def bufferAllows (t : Team) (k : Access) (off : Nat) : Bool :=
  match t.bufferAt off with
  | none => true
  | some (_, b) =>
    match b.state with
    | .empty | .filling => !k.reads || k == .atomic
    | .full | .draining => !k.writes

/-- The bounds table's entry of a region id (R229). -/
def regionEntry (l : Launch) (id : Nat) : Option (BitVec 128) := do
  let e ← l.bounds[id]?
  if e.getLsbD 123 && e.extractLsb' 124 4 == 0 && !e.getLsbD 120 && e.extractLsb' 56 8 == 0 then some e else none

/-- Check 4 for one address. -/
def inRegion (l : Launch) (id a : Nat) : Bool :=
  match regionEntry l id with
  | some e => (e.extractLsb' 0 56).toNat ≤ a && a < (e.extractLsb' 64 56).toNat
  | none => false

/-- Check 5: the region's permissions. -/
def regionAllows (l : Launch) (id : Nat) (k : Access) : Bool :=
  match regionEntry l id with
  | some e => (!k.reads || e.getLsbD 121) && (!k.writes || e.getLsbD 122)
  | none => true

/-- One byte's outcome of checks 1 to 5: the number of the first check it fails. -/
def earlyCheck (w : Who) (k : Access) (span : Bool) (p : Nat) : Option Nat :=
  let id := p / 2 ^ 56
  match apertureOf (p % 2 ^ 56) with
  | .scratchpad off =>
    if id != 0 || span then some 1
    else if w.t.spadSize ≤ off then some 2
    else if k == .flush || bufferAllows w.t k off then none else some 3
  | .stack _ => if id != 0 || span then some 1 else none
  | .global =>
    if span then some 1
    else if id == 0 then none
    else if !inRegion w.l id (p % 2 ^ 56) then some 4
    else if !regionAllows w.l id k then some 5 else none

/-- Whether a physical address belongs to a bound mailbox's line (R94). -/
def mailboxAt (s : State) (p : Nat) : Option Nat :=
  let q := forwarded s.fab p / 128 * 128
  (s.boxes.find? fun b => b.2.bound && forwarded s.fab b.2.phys == q).map (·.1)

/-- A leaf of host bias; without Jibueg every page is of device bias (R256). -/
def Leaf.biased (d : Device) (leaf : Word) : Bool := Leaf.hostBias leaf && d.jibueg

/-- One byte's outcome of checks 7 to 9 under its leaf; `fires` says that the access would fire a mailbox. -/
def lateCheck (s : State) (w : Who) (k : Access) (fmt : FmtUse) (fires : Bool) (p : Nat) (leaf : Word) (level phys : Nat) :
    Option Nat :=
  let region0 := p / 2 ^ 56 == 0 && (apertureOf (p % 2 ^ 56)).kind == 2
  if (k.reads && !Leaf.read leaf) || (k.writes && !Leaf.write leaf) || (k != .flush && !Leaf.user leaf && !w.g.sup)
      || Leaf.reserved leaf level || (isPeer phys && !(SMap.get 0 s.dev.peers (peerOf phys)).getLsbD 15) then some 7
  else if k.writes && w.l.prot && ((Leaf.biased s.dev leaf || isPeer phys) || region0 || (fires && (mailboxAt s phys).isSome)) then some 8
  else if k != .flush && Leaf.formatted leaf then
    match fmt with
    | .record f il =>
      if f != Leaf.format leaf || (Leaf.geometry leaf == 1 && il != 0) || (Leaf.geometry leaf == 2 && il != 3) then some 9 else none
    | .page => if Leaf.geometry leaf == 2 then some 9 else none
    | .code f => if f != Leaf.format leaf then some 9 else none
    | .raw => none
  else none

/-- Cause of each check of R230. -/
def checkCause : Nat → BitVec 8
  | 1 | 2 | 4 => Cause.regionBounds
  | 3 => Cause.scratchpadState
  | 5 | 7 | 8 => Cause.protection
  | 6 => Cause.pageFault
  | _ => Cause.formatMismatch

/-- The trap of R230 over a list of (lane, address, failed check): the lowest-numbered check decides. -/
def checkTrap (w : Who) (fails : List (Nat × Nat × Nat)) : Option Trap :=
  match fails.map (·.2.2) |>.min? with
  | none => none
  | some k =>
    let bad := fails.filter fun f => f.2.2 == k
    let ls := bad.map (·.1)
    let lane := ls.min?.getD 0
    let addr := ((bad.filter fun f => f.1 == lane).head?.map (·.2.1)).getD 0
    some { cause := checkCause k, mask := some (maskOf ls), addr := reportAddr w.stackBase w.g.stackSlot addr }

/-- The poison-consumed trap of some lanes, each with its sectors in address order: lane, sector, tag (R351). -/
def poisonTrap (w : Who) (bad : List (Nat × Nat × BitVec 12)) : Option Trap :=
  match bad with
  | [] => none
  | _ =>
    let low := ((bad.map (·.1)).min?).getD 0
    let first := (bad.filter fun b => b.1 = low).head?
    some { cause := Cause.poisonConsumed, mask := some (maskOf (bad.map (·.1))),
           addr := reportAddr w.stackBase w.g.stackSlot ((first.map (·.2.1)).getD 0),
           info := BitVec.ofNat 23 (4096 + ((first.map (·.2.2.toNat)).getD 0)) }

/-- The apertures of a piece's first and last byte: between them there is room for one edge at most. -/
def Piece.kinds (p : Piece) : List Nat :=
  if p.len = 0 then [] else [(apertureOf (ptrAddr p.ptr)).kind, (apertureOf (ptrAddr (ptrAdd p.ptr (p.len - 1)))).kind]

/-- Some of these pieces lie in different apertures. -/
def mixed (ps : List Piece) : Bool :=
  match ps.flatMap Piece.kinds with
  | [] => false
  | k :: ks => ks.any (· != k)

/-- Lanes whose accesses span an aperture edge (check 1). -/
def splitLanes (ps : List Piece) : List Nat :=
  let own := ps.filter fun p => !p.apart
  if mixed own then ((own.map (·.lane)).dedup).filter fun l => mixed (own.filter fun p => p.lane == l) else []

/-- A piece is of an access that spans an aperture edge. -/
def Piece.spans (split : List Nat) (p : Piece) : Bool := if p.apart then mixed [p] else split.contains p.lane

/-- Translate one generic address that passed checks 1 to 5. -/
def Who.locate (w : Who) (s : State) (p : Nat) : Option (Nat × Option (Word × Nat)) :=
  match apertureOf (p % 2 ^ 56) with
  | .scratchpad off => some (spadLoc off, none)
  | _ => do
    let va ← w.global p
    let e ← tlbLookup s w.t.place w.l.ctx (va / 65536)
    pure (Leaf.phys e.leaf e.level va, some (e.leaf, e.level))

/-- R230 over the pieces of an access: the located bytes in order, or the trap, or a wait for translation. -/
def checkAccess (s : State) (w : Who) (k : Access) (fires : Bool) (ps : List Piece) : Res (List Located) :=
  let bytes := ps.flatMap fun p => p.bytes.map fun b => (p.lane, b, p)
  let split := splitLanes ps
  match checkTrap w (bytes.filterMap fun (l, b, p) => (earlyCheck w k (p.spans split) b).map fun n => (l, b, n)) with
  | some t => .error (.trap t)
  | none =>
    let seen (b : Nat) : Option TlbEntry := do tlbLookup s w.t.place w.l.ctx ((← w.global b) / 65536)
    let pages := bytes.filterMap fun (l, b, _) => do
      let va ← w.global b
      if (seen b).isNone then some (l, b, va / 65536) else none
    match (pages.filterMap fun (_, _, n) => if w.g.absent.contains n then none else some n).dedup with
    | n :: ns => .error (.wait ((n :: ns).foldl (fun s p => joinWalk s w.gid w.t.place w.l.ctx p) s))
    | [] =>
      match checkTrap w (pages.map fun (l, b, _) => (l, b, 6)) with
      | some t => .error (.trap t)
      | none =>
        let locs := bytes.filterMap fun (l, b, p) => (w.locate s b).map fun (loc, leaf) => ((⟨l, b, loc, leaf⟩ : Located), p.fmt)
        match checkTrap w (locs.filterMap fun (x, f) => do
            let leaf ← x.leaf
            let n ← lateCheck s w k f fires x.ptr leaf.1 leaf.2 x.loc
            pure (x.lane, x.ptr, n)) with
        | some t => .error (.trap t)
        | none => .ok (locs.map (·.1))

/-- The leaf of a byte's page, as a core's buffer or the tables hold it, where checks 1 to 5 let the access reach it. -/
def Who.leafOf (w : Who) (s : State) (k : Access) (p : Nat) : Option Word := do
  if (earlyCheck w k false p).isSome then none
  let va ← w.global p
  match translate s w.t.place w.l.ctx va with
  | .found leaf _ => some leaf
  | _ => none

end Sys2Proof.Machine
end

