-- ==== Sys2Proof/Machine/Cache.lean ====
section
/-! DEFINITION. The memory behind translation: reads and writes as the sites see them, L1 lines, waybills, subscriptions,
poison and page moves (R241 to R259, R318 to R333, R369). -/
namespace Sys2Proof.Machine

/-! ## Locations -/

def isSpad (loc : Nat) : Bool := 2 ^ 48 ≤ loc

/-! ## What a site sees (R319, R320) -/

def allSites : BitVec 65 := BitVec.ofNat 65 (2 ^ 65 - 1)
def siteBit (t : Nat) : BitVec 65 := BitVec.ofNat 65 (2 ^ t)

/-- A write that waits for earlier loads of its group before it takes effect at its own site (R321). -/
def Lag.waitsAt (l : Lag) (t : Nat) : Bool := l.own == t && !l.wait.isEmpty

/-- One of those loads has not been served. -/
def Lag.blocked (s : State) (l : Lag) : Bool :=
  l.wait.any fun k => match s.op? k with
    | some o => !o.reqs.isEmpty
    | none => false

/-- Site t may still see the older bytes. -/
def Lag.behind (s : State) (l : Lag) (t : Nat) : Bool := l.sites.getLsbD t && !(l.waitsAt t && !l.blocked s)

/-- The older bytes of an aligned word that site t may still see. -/
def staleAt (f : Fabric) (t word : Nat) : Option Lag := f.lags.find? fun l => l.word == word && l.sites.getLsbD t

/-- Some byte lies in a word whose write waits for its group's earlier loads. -/
def anyBlocked (s : State) (locs : List Nat) : Bool :=
  s.fab.lags.any fun l => l.blocked s && locs.any fun p => l.word == forwarded s.fab p / 8

/-- The same, for a write at site t of a group other than gid. -/
def blockedFor (s : State) (t gid : Nat) (locs : List Nat) : Bool :=
  s.fab.lags.any fun l => l.waitsAt t && l.group != gid && l.blocked s && locs.any fun p => l.word == forwarded s.fab p / 8

/-- The word of a location waits at site t for earlier loads of its writer's group. -/
def wordStuck (s : State) (t loc : Nat) : Bool :=
  s.fab.lags.any fun l => l.waitsAt t && l.word == forwarded s.fab loc / 8 && l.blocked s

/-- A line whose bytes at site t are not settled enough for an L1 to hold it. -/
def lineStuck (s : State) (t line : Nat) : Bool :=
  !s.fab.lags.isEmpty && (List.range 16).any fun i => wordStuck s t (128 * line + 8 * i)

/-- The newest write of a word takes effect at site t. -/
def settle (f : Fabric) (t word : Nat) : Fabric :=
  let seen := f.lags.map fun l => if l.word == word then { l with sites := l.sites &&& ~~~(siteBit t) } else l
  { f with lags := seen.filter fun l => l.sites != 0 }

/-- One aligned 8-byte word as group gid at site t reads it: the newest bytes, or the older bytes of a write that has not
taken effect there; once the newest bytes are seen they stay seen (R320, R329). Which of the two a free bit says, but for a
write that waits for earlier loads of its group: that group sees it and no other group of the site does (R269, R321). -/
def readWord (s : State) (t gid word : Nat) : List Byte × State :=
  let new := Memory.bytes s.mem (8 * word) 8
  match staleAt s.fab t word with
  | none => (new, s)
  | some l =>
    if l.waitsAt t then
      if !l.blocked s then (new, s.setFab (settle s.fab t word))
      else if l.group == gid then (new, s) else (l.old, s)
    else
      let (b, s) := s.freeBit
      if b then (l.old, s) else (new, s.setFab (settle s.fab t word))

/-- The bytes at some physical locations as group gid at site t reads them, each aligned word read once. -/
def readLocs (s : State) (t gid : Nat) (locs : List Nat) : List Byte × State :=
  let locs := locs.map (forwarded s.fab)
  let words := (locs.map (· / 8)).dedup
  let (m, s) := words.foldl (fun (m, s) w => let (bs, s) := readWord s t gid w; ((w, bs) :: m, s)) (([] : List (Nat × List Byte)), s)
  (locs.map fun p => ((((m.find? fun e => e.1 == p / 8).map (·.2)).getD [])[p % 8]?).getD 0, s)

/-- The newest bytes, in coherence order (atomics, R320). -/
def readNewest (s : State) (locs : List Nat) : List Byte := locs.map fun p => Memory.get s.mem (forwarded s.fab p)

/-- A line read for an owned copy: the newest bytes, which take effect at the site, so that what the home judges later
writes against is what the copy holds (R252, R330). -/
def readOwned (s : State) (t line : Nat) : List Byte × State :=
  let locs := (List.range 128).map fun i => 128 * line + i
  let words := (locs.map fun p => forwarded s.fab p / 8).dedup
  (readNewest s locs, s.setFab (words.foldl (fun f w => settle f t w) s.fab))

/-! ## Poison (R369) -/

/-- Sectors that a list of locations covers whole. -/
def wholeSectors (locs : List Nat) : List Nat :=
  ((locs.map (· / 32)).dedup).filter fun q => (List.range 32).all fun i => locs.contains (32 * q + i)

/-- The tag of a sector whose stack is lost. -/
def goneTag (f : Fabric) (q : Nat) : Option (BitVec 12) :=
  if f.gone.isEmpty then none else (f.gone.find? fun e => e.1.val == 32 * q / (96 * gib)).map (·.2)

/-- The tag that a sector's contents carry. -/
def sectorTag (f : Fabric) (q : Nat) : Option (BitVec 12) := (SMap.entry? f.poison q).or (goneTag f q)

/-- The poison a read of some locations meets: tags by sector. -/
def poisonAt (f : Fabric) (locs : List Nat) : List (Nat × BitVec 12) :=
  ((locs.map fun p => forwarded f p / 32).dedup).filterMap fun q => (sectorTag f q).map fun t => (q, t)

/-- Poison a physical sector; two tags combine to the lower. -/
def addPoison (f : Fabric) (sector : Nat) (tag : BitVec 12) : Fabric :=
  let tag := match SMap.entry? f.poison sector with
    | some old => if old.toNat < tag.toNat then old else tag
    | none => tag
  { f with poison := SMap.put f.poison sector tag }

/-! ## Waybills (R244 to R247) -/

/-- Places whose LLC bank is dead under the loaded defect map: at least 2,944 banks are live (R18, R26). -/
def deadBanks (gen : Nat) : List Nat := ((List.range 3072).filter (Config.deadBank gen)).take 128

/-- A live LLC bank (R19, R402). -/
def bankLive (d : Device) (place : Nat) : Bool :=
  !(deadBanks d.defects).contains place &&
    !(d.lost.any fun p => match p with | .reticle n => n.val == reticleOf place | _ => false)

/-- `anchor` over a list of live banks (R244). -/
def anchorIn (live : List Nat) (line : Nat) : Nat :=
  (live[line * 0x9E3779B97F4A7C15 % 2 ^ 64 / 2 ^ 32 * live.length / 2 ^ 32]?).getD 0

/-- The places of the live banks, in increasing order. -/
def liveBanks (d : Device) : List Nat :=
  let dead := deadBanks d.defects
  let lost := d.lost.filterMap fun p => match p with | .reticle n => some n.val | _ => none
  (List.range 3072).filter fun p => !dead.contains p && !lost.contains (reticleOf p)

def anchor (d : Device) (line : Nat) : Nat := anchorIn (liveBanks d) line

def waybill? (f : Fabric) (line : Nat) : Option Waybill := SMap.entry? f.waybills line

/-- The waybill of a line, or the one it would be given. -/
def waybill (s : State) (line : Nat) : Waybill := (waybill? s.fab line).getD { home := anchor s.dev line, since := s.tick }

/-- Nothing keeps the waybill (R245). -/
def Waybill.idle (w : Waybill) (anchor : Nat) : Bool :=
  w.home == anchor && !w.pin && !w.held && !w.inFlight && w.coarse == 0 && w.subs.isEmpty && w.replicas == 0

/-- Store a waybill, freeing it when nothing keeps it. -/
def setWaybill (s : State) (line : Nat) (w : Waybill) : State :=
  let m := if Waybill.idle w (anchor s.dev line) then SMap.del s.fab.waybills line else SMap.put s.fab.waybills line w
  s.setFab { s.fab with waybills := m }

/-- The most waybills a bank holds (R245). -/
def waybillLimit : Nat := 32768

/-- L1s that hold a line for a subscription that its waybill records for their reticle only. -/
def coarseCores (f : Fabric) (line : Nat) (w : Waybill) : List Nat :=
  f.l1.filterMap fun x => if x.line == line && x.owned && w.coarse.getLsbD (reticleOf x.core) then some x.core else none

/-- What a reclaim takes from a waybill. -/
inductive Reclaim where
  | migrated | replicas | subscribers
  deriving DecidableEq, Repr

def Reclaim.applies (r : Reclaim) (w : Waybill) (bank : Nat) : Bool :=
  !w.pin && !w.held && !w.inFlight && match r with
    | .migrated => w.home != bank
    | .replicas => w.replicas != 0
    | .subscribers => !w.subs.isEmpty || w.coarse != 0

/-- One reclaim at a line: it goes home, its replicas go, or its subscribers are invalidated. -/
def reclaimOne (s : State) (bank line : Nat) (r : Reclaim) : State :=
  let w := waybill s line
  match r with
  | .migrated => setWaybill s line { w with home := bank }
  | .replicas => setWaybill s line { w with replicas := 0 }
  | .subscribers =>
    let gone := (w.subs.map (·.core) ++ coarseCores s.fab line w).map fun c => (c, line, none)
    let s := setWaybill s line { w with subs := [], coarse := 0 }
    s.setFab { s.fab with inval := s.fab.inval ++ gone }

/-- The search of R247: it ends at the first waybill that a reclaim frees. -/
def reclaimFrom (bank : Nat) : List (Nat × Reclaim) → State → State × Bool
  | [], s => (s, false)
  | (line, r) :: rest, s =>
    let s' := reclaimOne s bank line r
    if (waybill? s'.fab line).isNone then (s', true) else reclaimFrom bank rest s'

/-- Room for one more waybill at the bank of a line, after the reclaim of R247: migrated lines first, then lines with
replicas, then subscribed lines, the oldest first. -/
def makeRoom (s : State) (line : Nat) : State × Bool :=
  let bank := anchor s.dev line
  let mine := s.fab.waybills.filter fun e => anchor s.dev e.1 == bank
  if (waybill? s.fab line).isSome || mine.length < waybillLimit then (s, true)
  else
    let old := mine.insertionSort fun a b => a.2.since ≤ b.2.since
    let of_ (r : Reclaim) : List (Nat × Reclaim) := (old.filter fun e => r.applies e.2 bank).map fun e => (e.1, r)
    reclaimFrom bank (of_ .migrated ++ of_ .replicas ++ of_ .subscribers) s

/-- Change a line's waybill where a bank has room for it; whether it had. -/
def changeWaybill (s : State) (line : Nat) (f : Waybill → Waybill) : State × Bool :=
  let (s, ok) := makeRoom s line
  if ok then (setWaybill s line (f (waybill s line)), true) else (s, false)

/-! ## Engine-held lines (R246, R331) -/

/-- An operation whose engine writes global lines. -/
def isHolder (i : Instr) : Bool :=
  match i with
  | .bcopy _ | .mst _ | .coll _ _ => true
  | _ => false

/-- Who accesses a line: a group's operation, by its identity; an engine; or anything else. -/
inductive Asker where
  | thread (group op : Nat) | engine (op : Nat) | other
  deriving DecidableEq, Repr

/-- An access waits for an engine that holds its line: accesses of the engine's own group from before it do not, and of
two engines the later one does. -/
def Asker.waitsFor (a : Asker) (e : Nat × Op) : Bool :=
  match a with
  | .thread g k => !(e.2.group == g && decide (k < e.1))
  | .engine k => decide (e.1 < k)
  | .other => true

/-- Whether a byte's page is being flipped between biases (R258, R259). -/
def inFlip (s : State) (loc : Nat) : Bool :=
  match s.fab.flip with
  | none => false
  | some (ctx, page, _) =>
    match walkTables s ctx (page * 65536) with
    | .found leaf level => (List.range 16).any fun i =>
        let a := Leaf.phys leaf level (page * 65536 + 4096 * i)
        a ≤ loc && loc < a + 4096
    | _ => false

/-- The arrays of a bank that are in retention (R262). -/
def bankRetained (f : Fabric) (place : Nat) : Bool :=
  f.retained.any fun a => match a with | .bank p _ => p.toNat == place | .scratchpad _ => false

/-- A core's scratchpad array is in retention. -/
def spadRetained (f : Fabric) (place : Nat) : Bool :=
  f.retained.any fun a => match a with | .scratchpad p => p.toNat == place | .bank _ _ => false

/-- A line whose bank refuses requests for now: in flight, its page flipping, or an array of the bank in retention (R254). -/
def lineRefuses (s : State) (line : Nat) : Bool :=
  let w := waybill s line
  w.inFlight || inFlip s (128 * line) || bankRetained s.fab w.home

/-- A peer's link is up (R398, R399). -/
def peerUp (d : Device) (p : Nat) : Bool :=
  let reg := SMap.get 0 d.peers p
  (List.range 12).any fun i => reg.getLsbD i && SMap.get .down d.links i == .up

/-- Whether a physical byte can be reached now. -/
def reachable (s : State) (loc : Nat) : Bool :=
  if isPeer loc then peerUp s.dev (peerOf loc) else if isHost loc then s.dev.hostUp else true

/-- The locations of a request. -/
def LaneReq.locs (r : LaneReq) : List Nat := (r.scales ++ r.bytes).map (·.2)

/-- Every link to the peer that holds a byte is down. -/
def linkDown (s : State) (loc : Nat) : Bool :=
  isPeer loc && (List.range 12).all fun i =>
    !(SMap.get 0 s.dev.peers (peerOf loc)).getLsbD i || SMap.get .down s.dev.links i == .down

/-- The group's FENCE has waited for LINKFENCELIM cycles (R287). -/
def fenceLate (s : State) (gid : Nat) : Bool :=
  (do let g ← s.group? gid
      let t ← g.fenceStart
      let place ← placeOfGroup s g
      pure (decide (t + g.linkFenceLim.zeroExtend 64 ≤ s.cycle (reticleOf place)))).getD false

/-- A posted write that is still to come at its peer or the host: it is not lost with its links, nor given up by a FENCE. -/
def postedOpen (s : State) (o : Op) : Bool := o.posted && (o.reqs.any fun r => r.locs.any fun p => !linkDown s p) && !fenceLate s o.group

/-- Earlier accesses of a group that a release waits for: those that have not completed, and posted writes (R269, R287, R323). -/
def unreleased (s : State) (gid : Nat) : Bool := !(s.pendingOps gid).isEmpty || (s.groupOps gid).any fun e => postedOpen s e.2

/-- A line that an engine has yet to write. -/
def lineHeld (s : State) (a : Asker) (line : Nat) : Bool :=
  let n := lineOf (forwarded s.fab (128 * line))
  s.ops.any fun e => isHolder e.2.instr && a.waitsFor e && e.2.locs.any fun p => lineOf (forwarded s.fab p) == n

/-- An access to a line waits: its bank refuses it, an engine holds it, or it cannot be reached. -/
def lineWaits (s : State) (a : Asker) (line : Nat) : Bool :=
  lineRefuses s line || lineHeld s a line || !reachable s (128 * line)

/-- An engine's access to a line waits too, but an engine that holds lines of a flipping page finishes them (R258). -/
def engineWaits (s : State) (k : Nat) (o : Op) (line : Nat) : Bool :=
  let w := waybill s line
  w.inFlight || bankRetained s.fab w.home || lineHeld s (.engine k) line || !reachable s (128 * line)
    || (inFlip s (128 * line) && !(o.locs.any fun p => inFlip s p))

/-! ## L1 lines (R241, R242) -/

def l1Find (f : Fabric) (core line : Nat) : Option L1Line := f.l1.find? fun x => x.core == core && x.line == line

def l1Drop (f : Fabric) (core line : Nat) : Fabric := { f with l1 := f.l1.filter fun x => !(x.core == core && x.line == line) }

def l1Put (f : Fabric) (x : L1Line) : Fabric := { l1Drop f x.core x.line with l1 := x :: (l1Drop f x.core x.line).l1 }

/-- The byte an L1 holds, where it holds it. -/
def l1Byte (f : Fabric) (core loc : Nat) : Option Byte :=
  match l1Find f core (lineOf loc) with
  | some x => if x.valid.getLsbD (loc % 128) then some ((x.data[loc % 128]?).getD 0) else none
  | none => none

/-- Update the bytes of an L1 line; `dirty` marks them, otherwise only bytes the line holds are changed. -/
def L1Line.write (x : L1Line) (i : Nat) (v mask : Byte) (dirty : Bool) : L1Line :=
  let old := (x.data[i]?).getD 0
  let bit := BitVec.ofNat 128 (2 ^ i)
  if dirty then { x with data := x.data.set i ((old &&& ~~~mask) ||| (v &&& mask)), valid := x.valid ||| bit, dirty := x.dirty ||| bit }
  else if x.valid.getLsbD i then { x with data := x.data.set i ((old &&& ~~~mask) ||| (v &&& mask)) } else x

/-- The dirty bytes of sector i of a copy. -/
def L1Line.dirtyIn (x : L1Line) (i : Nat) : BitVec 32 := x.dirty.extractLsb' (32 * i) 32

/-- The copy's own stores cover its sector i, so that no older byte of it is left (R369). -/
def L1Line.covers (x : L1Line) (i : Nat) : Bool := x.dirtyIn i == BitVec.allOnes 32

/-- The tag of a copy's byte i. -/
def L1Line.tagOf (x : L1Line) (i : Nat) : Option (BitVec 12) := if x.covers (i / 32) then none else SMap.entry? x.tags (i / 32)

/-- The lower of two tags (R369). -/
def lowerTag (a b : Option (BitVec 12)) : Option (BitVec 12) :=
  match a, b with
  | some x, some y => some (if y.toNat < x.toNat then y else x)
  | x, y => x.or y

/-- The poison that a read of one byte by a core meets: that of the L1's copy where the copy serves it, else the home's, and
with it that of a copy whose dirty byte is read (R369). -/
def byteTag (f : Fabric) (core : Nat) (hit : Bool) (loc : Nat) : Option (BitVec 12) :=
  let home := sectorTag f (forwarded f loc / 32)
  match l1Find f core (lineOf loc) with
  | none => home
  | some x =>
    let i := loc % 128
    if x.covers (i / 32) then none
    else if hit then x.tagOf i
    else if x.dirty.getLsbD i then lowerTag (x.tagOf i) home else home

/-- The generic sector address of each poisoned sector that a read by a core meets. -/
def metPoison (f : Fabric) (core : Nat) (hit : Bool) (bytes : List (Nat × Nat)) : List (Nat × BitVec 12) :=
  bytes.filterMap fun (p, loc) => (byteTag f core hit loc).map fun t => (p / 32 * 32, t)

/-- Bytes of a line on their way to a core take a write of the core. -/
def patchLine (line : Nat) (bytes : List Byte) (ws : List (Nat × Byte × Byte)) : List Byte :=
  ws.foldl (fun bs (loc, v, m) =>
    if lineOf loc == line then bs.set (loc % 128) (((bs[loc % 128]?).getD 0 &&& ~~~m) ||| (v &&& m)) else bs) bytes

/-- A write reaches the copy in the core's own L1, and the lines on their way to it. Sectors written whole lose their
poison (R369). -/
def l1Update (f : Fabric) (core : Nat) (ws : List (Nat × Byte × Byte)) : Fabric :=
  let f := ws.foldl (fun f (loc, v, m) =>
    match l1Find f core (lineOf loc) with
    | some x => l1Put f (x.write (loc % 128) v m false)
    | none => f) f
  let f := (wholeSectors ((ws.filter fun x => x.2.2 == 0xFF).map (·.1))).foldl (fun f q =>
    match l1Find f core (q / 4) with
    | some x => l1Put f { x with tags := SMap.del x.tags (q % 4) }
    | none => f) f
  if f.inval.isEmpty then f
  else { f with inval := f.inval.map fun e => if e.1 == core then (e.1, e.2.1, e.2.2.map fun bs => patchLine e.2.1 bs ws) else e }

/-- The bytes of a store kept dirty in the core's own L1. -/
def l1Store (f : Fabric) (core : Nat) (ws : List (Nat × Byte × Byte)) : Fabric :=
  ws.foldl (fun f (loc, v, m) =>
    let x := (l1Find f core (lineOf loc)).getD { core, line := lineOf loc, data := List.replicate 128 0, valid := 0 }
    let x := x.write (loc % 128) v m true
    let i := loc % 128 / 32
    l1Put f (if x.covers i then { x with tags := SMap.del x.tags i } else x)) f

/-- Tags of a line's four sectors as its home holds them. -/
def lineTags (f : Fabric) (line : Nat) : SMap (BitVec 12) :=
  (List.range 4).filterMap fun i => (sectorTag f (4 * line + i)).map fun t => (i, t)

/-- A fill: bytes the core does not hold dirty take the home's, with its poison (R242, R369). -/
def l1Install (f : Fabric) (core line : Nat) (bytes : List Byte) (owned : Bool) : Fabric :=
  let full : BitVec 128 := BitVec.ofNat 128 (2 ^ 128 - 1)
  let tags := lineTags f line
  match l1Find f core line with
  | none => l1Put f { core, line, data := bytes, valid := full, owned, tags }
  | some x =>
    let tag (i : Nat) : Option (BitVec 12) :=
      if x.covers i then none
      else if x.dirtyIn i = 0 then SMap.entry? tags i else lowerTag (SMap.entry? x.tags i) (SMap.entry? tags i)
    l1Put f { x with valid := full, owned := owned,
                     tags := (List.range 4).filterMap fun i => (tag i).map fun t => (i, t),
                     data := (List.range 128).map fun i => if x.dirty.getLsbD i then (x.data[i]?).getD 0 else (bytes[i]?).getD 0 }

/-! ## Writes at home -/

/-- Old and new contents of the naturally aligned element of `bits` bits that covers byte i of a line. -/
def elemOf (bits i : Nat) (bytes : List Byte) : Nat :=
  if bits < 8 then leNat [(bytes[i]?).getD 0] else
    let n := bits / 8
    leNat ((List.range n).map fun j => (bytes[i / n * n + j]?).getD 0)

/-- `changed` of R252 for one subscriber, over the bytes of a line that a write named and changed. -/
def subChanged (u : Subscriber) (old new : List Byte) : Bool :=
  let bytes := (List.range 128).filter fun i => (old[i]?).getD 0 != (new[i]?).getD 0
  match u.fmts with
  | none => !bytes.isEmpty
  | some (st, f) =>
    bytes.any fun i =>
      if st.bits = 4 then
        [0, 4].any fun sh =>
          let a := ((old[i]?).getD 0).toNat / 2 ^ sh % 16
          let b := ((new[i]?).getD 0).toNat / 2 ^ sh % 16
          a != b && subKey st f a != subKey st f b
      else subKey st f (elemOf st.bits i old) != subKey st f (elemOf st.bits i new)

/-- The home judges subscribers and replicas of a line that a write changed (R250, R252, R409). -/
def judge (s : State) (line : Nat) (old new : List Byte) : State :=
  if old == new then s
  else match waybill? s.fab line with
    | none => s
    | some w =>
      let hit := w.subs.filter fun u => subChanged u old new
      let keep := w.subs.filter fun u => !(subChanged u old new && !u.update)
      let coarse := (coarseCores s.fab line w).map fun c => (c, line, none)
      let s := setWaybill s line { w with subs := keep, replicas := 0 }
      s.setFab { s.fab with inval := s.fab.inval ++ hit.map (fun u => (u.core, line, if u.update then some new else none)) ++ coarse }

/-- The lags of a word after a write at site t of a group: it takes effect at t, unless it waits there for earlier loads of
the group; every other site that does not see older bytes yet may see those from before it. -/
def lagWrite (s : State) (t : Nat) (everywhere : Bool) (wait : List Nat) (group : Nat) (f : Fabric) (w : Nat) : Fabric :=
  let stuck (l : Lag) : Bool := l.word == w && l.sites.getLsbD l.own && !l.wait.isEmpty && l.blocked s
  if everywhere then { f with lags := f.lags.filter fun l => l.word != w || stuck l }
  else
    let here := f.lags.any fun l => stuck l && l.own == t
    let f := if here then { f with lags := f.lags.map fun l => if stuck l && l.own == t then { l with wait := l.wait ++ wait } else l }
      else settle f t w
    let behind := f.lags.foldl (fun m l => if l.word == w then m ||| l.sites else m) (0 : BitVec 65)
    let mine := if here || !wait.isEmpty then (0 : BitVec 65) else siteBit t
    let sites := allSites &&& ~~~mine &&& ~~~behind
    if sites = 0 then f
    else { f with lags := { word := w, sites, old := Memory.bytes s.mem (8 * w) 8, wait, own := t, group } :: f.lags }

/-- Bytes written at their homes by a group at site t: (location, value, bit mask). The older bytes of each aligned word
may be seen at every other site until the write completes, unless `everywhere` (R319), and at t while the loads in `wait`
have not been served (R321). Poison of sectors written whole is cleared (R369). -/
def writeHomeBy (s : State) (t : Nat) (everywhere : Bool) (wait : List Nat) (group : Nat) (ws : List (Nat × Byte × Byte)) : State :=
  let ws := ws.map fun (p, v, m) => (forwarded s.fab p, v, m)
  let words := (ws.map (·.1 / 8)).dedup
  let lags := words.foldl (lagWrite s t everywhere wait group) s.fab
  let lines := (ws.map fun x => lineOf x.1).dedup
  let before := lines.map fun n => (n, Memory.bytes s.mem (128 * n) 128)
  let mem := ws.foldl (fun m (p, v, k) => Memory.set m p ((Memory.get m p &&& ~~~k) ||| (v &&& k))) s.mem
  let clean := wholeSectors ((ws.filter fun x => x.2.2 == 0xFF).map (·.1))
  let s := (s.setMem mem).setFab { lags with poison := clean.foldl SMap.del lags.poison }
  before.foldl (fun s (n, old) => judge s n old (Memory.bytes s.mem (128 * n) 128)) s

def writeHome (s : State) (t : Nat) (everywhere : Bool) (ws : List (Nat × Byte × Byte)) : State :=
  writeHomeBy s t everywhere [] 0 ws

/-- Every write of these words takes effect at every site (R322). -/
def settleEverywhere (s : State) (locs : List Nat) : State :=
  let words := locs.map fun p => forwarded s.fab p / 8
  s.setFab { s.fab with lags := s.fab.lags.filter fun l => !words.contains l.word }

/-- A device-scope release at site t: every write seen there takes effect everywhere (R324). -/
def settleSeen (s : State) (t : Nat) : State :=
  s.setFab { s.fab with lags := s.fab.lags.filter fun l => l.behind s t }

/-- No write seen at site t waits for earlier loads of its group elsewhere, so that all of them can take effect. -/
def seenSettles (s : State) (t : Nat) : Bool := !(s.fab.lags.any fun l => !l.behind s t && l.blocked s)

/-! ## Write-backs (R242, R322) -/

/-- A reticle's drover counts a request to a line homed elsewhere, keeping the 1,024 most recent lines. -/
def countDrover (s : State) (core line : Nat) (ctx : BitVec 16) (page : Nat) (req : Req) (h : Hint) : State :=
  let t := reticleOf core
  if isPeer (128 * line) || isHost (128 * line) || req == .u || h == .stream || h == .pin || reticleOf (waybill s line).home == t then s
  else
    let mine := s.fab.drover.filter fun e => e.reticle == t
    let n := ((mine.find? fun e => e.line == line).map (·.count)).getD 0
    let rest := (mine.filter fun e => e.line != line).take 1023
    s.setFab { s.fab with drover := ⟨t, line, n + 1, core, ctx, page⟩ :: rest ++ s.fab.drover.filter fun e => e.reticle != t }

/-- The dirty bytes of a core, by location. -/
def dirtyBytes (f : Fabric) (core : Nat) : List (Nat × Byte × Byte) :=
  f.l1.flatMap fun x =>
    if x.core == core then
      (List.range 128).filterMap fun i => if x.dirty.getLsbD i then some (128 * x.line + i, (x.data[i]?).getD 0, 0xFF) else none
    else []

def isDirty (f : Fabric) (core loc : Nat) : Bool :=
  match l1Find f core (lineOf loc) with
  | some x => x.dirty.getLsbD (loc % 128)
  | none => false

/-- Some bytes of a core's lines are no longer dirty. -/
def l1Clean (f : Fabric) (core : Nat) (locs : List Nat) : Fabric :=
  { f with l1 := f.l1.map fun x =>
      if x.core == core then
        { x with dirty := x.dirty &&& ~~~((locs.filter fun p => lineOf p == x.line).foldl (fun m p => m ||| BitVec.ofNat 128 (2 ^ (p % 128))) 0) }
      else x }

/-- Poison that a copy's dirty bytes carry home: that of sectors which the core's stores do not cover (R369). -/
def carriedTags (f : Fabric) (core : Nat) (locs : List Nat) : List (Nat × BitVec 12) :=
  ((locs.map (· / 32)).dedup).filterMap fun q => do
    let x ← l1Find f core (q / 4)
    let t ← x.tagOf (q % 4 * 32)
    pure (q, t)

/-- Some of a core's dirty bytes go to their homes with their poison; each line is a request that the drover counts under
its store's hint (R242, R248, R249). -/
def sendHome (s : State) (core : Nat) (everywhere : Bool) (ws : List (Nat × Byte × Byte)) : State :=
  if ws.isEmpty then s
  else
    let locs := ws.map (·.1)
    let s := ((locs.map lineOf).dedup).foldl (fun s n => match l1Find s.fab core n with
      | some x => countDrover s core n x.ctx x.page .i x.hint
      | none => s) s
    let tags := carriedTags s.fab core locs
    let s := writeHome s (reticleOf core) everywhere ws
    s.setFab (l1Clean (tags.foldl (fun f e => addPoison f (forwarded f (32 * e.1) / 32) e.2) s.fab) core locs)

/-- What an operation with identity k must come after: weak stores that completed before it issued take effect at every
site (R322). -/
def settleWeak (s : State) (core k : Nat) : State :=
  let due := s.fab.weak.filter fun w => w.core == core && decide (w.done ≤ k)
  if due.isEmpty then s
  else
    let wide := (due.filter (·.wide)).flatMap (·.locs)
    let near := ((due.filter fun w => !w.wide).flatMap (·.locs)).filter fun p => !wide.contains p
    let dirty := dirtyBytes s.fab core
    let s := sendHome s core true (dirty.filter fun x => wide.contains x.1)
    let s := sendHome s core false (dirty.filter fun x => near.contains x.1)
    let s := settleEverywhere s wide
    s.setFab { s.fab with weak := s.fab.weak.filter fun w => !(w.core == core && decide (w.done ≤ k)) }

/-- Bytes that `settleWeak` would write lie in words whose writes wait: the operation waits too. -/
def weakBlocked (s : State) (core k : Nat) : Bool :=
  (s.fab.weak.any fun w => w.core == core && decide (w.done ≤ k)) &&
    anyBlocked s ((s.fab.weak.filter fun w => w.core == core && decide (w.done ≤ k)).flatMap (·.locs))

/-- A core's dirty bytes of some lines go home, after the completed stores that the lines' own stores came after. -/
def writeBackLines (s : State) (core : Nat) (lines : List Nat) : State :=
  let mine := s.fab.l1.filter fun x => x.core == core && lines.contains x.line && x.dirty != 0
  if mine.isEmpty then s
  else
    let s := settleWeak s core ((mine.map (·.wid)).foldl max 0)
    sendHome s core false ((dirtyBytes s.fab core).filter fun x => lines.contains (lineOf x.1))

/-- All of a core's dirty bytes are written to their homes (R242). -/
def writeBack (s : State) (core : Nat) : State :=
  let s := settleWeak s core s.nextId
  sendHome s core false (dirtyBytes s.fab core)

/-- The core's dirty bytes can go home now. -/
def writeBackReady (s : State) (core : Nat) : Bool :=
  !weakBlocked s core s.nextId && !anyBlocked s ((dirtyBytes s.fab core).map (·.1))

/-- An acquire at reticle scope or wider drops the core's self-invalidating lines (R241). Dirty bytes go home first; while
they cannot, they stay, without the clean bytes of their lines. -/
def dropLines (s : State) (core : Nat) : State :=
  if writeBackReady s core then
    let s := writeBack s core
    s.setFab { s.fab with l1 := s.fab.l1.filter fun x => x.core != core || x.owned }
  else
    s.setFab { s.fab with l1 := s.fab.l1.filterMap fun x =>
      if x.core != core || x.owned then some x else if x.dirty = 0 then none else some { x with valid := x.dirty } }

/-- A recall: every L1 writes back its dirty bytes of some lines (R331). -/
def recallDirty (s : State) (lines : List Nat) : State :=
  (((s.fab.l1.filter fun x => lines.contains x.line && x.dirty != 0).map (·.core)).dedup).foldl (fun s c => writeBackLines s c lines) s

/-- No write of a recall has to wait for an earlier access of its group. -/
def recallReady (s : State) (lines : List Nat) : Bool :=
  (s.fab.l1.filter fun x => lines.contains x.line && x.dirty != 0).all fun x =>
    !weakBlocked s x.core s.nextId && !anyBlocked s ((dirtyBytes s.fab x.core).map (·.1))

/-- Some lines leave every L1, with what was on its way to them. -/
def dropCopies (f : Fabric) (lines : List Nat) : Fabric :=
  { f with l1 := f.l1.filter fun x => !lines.contains x.line, inval := f.inval.filter fun e => !lines.contains e.2.1 }

/-- What is on its way to a core's copy of a line. -/
def onItsWay (f : Fabric) (core line : Nat) : List (Nat × Nat × Option (List Byte)) :=
  f.inval.filter fun e => e.1 == core && e.2.1 == line

/-- Nothing is on its way to a core's copy of a line any more: the core has the home's bytes. -/
def supersede (f : Fabric) (core line : Nat) : Fabric :=
  if f.inval.isEmpty then f else { f with inval := f.inval.filter fun e => !(e.1 == core && e.2.1 == line) }

/-- A core no longer subscribes a line. -/
def unsubscribe (s : State) (core line : Nat) : State :=
  match waybill? s.fab line with
  | none => s
  | some w => setWaybill s line { w with subs := w.subs.filter fun u => u.core != core }

/-! ## Scopes -/

/-- Reticle scope or wider. -/
def Scope.wide : Scope → Bool
  | .reticle | .device | .system => true
  | _ => false

/-- Device or system scope. -/
def Scope.global : Scope → Bool
  | .device | .system => true
  | _ => false

/-- No write that a release must bring home, or make take effect everywhere, waits for its group's earlier loads (R321). -/
def releaseReady (s : State) (core : Nat) (sc : Scope) : Bool :=
  (!Scope.wide sc || !anyBlocked s ((dirtyBytes s.fab core).map (·.1))) && (!Scope.global sc || seenSettles s (reticleOf core))

/-- What a release of a group on `core` does at once: the dirty bytes go home at reticle scope or wider, and every write
the site has seen takes effect everywhere at device scope or wider (R242, R269, R324). -/
def releaseAt (s : State) (core : Nat) (sc : Scope) : State :=
  let s := if Scope.wide sc then writeBack s core else s
  if Scope.global sc then settleSeen s (reticleOf core) else s

/-- What an acquire does: the core's self-invalidating lines go at reticle scope or wider, and the group's fetched
stream vectors with them (R241, R261, R269). -/
def acquireAt (s : State) (gid core : Nat) (sc : Scope) : State :=
  if Scope.wide sc then
    (dropLines s core).modGroup gid fun g => { g with streams := g.streams.map fun e => (e.1, { e.2 with fetched := [] }) }
  else s

/-! ## Accesses of a core to bytes at their homes (R94, R161, R168) -/

/-- Locations that an unfinished operation of a group from before k still reads or writes (R269). -/
def busyLocs (s : State) (gid k : Nat) : List Nat :=
  (s.groupOps gid).flatMap fun e => if e.1 < k then e.2.reqs.flatMap fun r => r.bytes.map (·.2) else []

/-- Bytes read by a core for one of its groups: its own dirty bytes, and the home's elsewhere. -/
def coreRead (s : State) (core gid : Nat) (locs : List Nat) : List Byte × State :=
  let locs := locs.map (forwarded s.fab)
  let (bs, s) := readLocs (settleWeak s core s.nextId) (reticleOf core) gid locs
  ((locs.zip bs).map fun (p, b) =>
    match l1Find s.fab core (lineOf p) with
    | some x => if x.dirty.getLsbD (p % 128) then (x.data[p % 128]?).getD 0 else b
    | none => b, s)

/-- Bytes written by a core for one of its groups. -/
def coreWrite (s : State) (core gid : Nat) (locs : List Nat) (bytes : List Byte) : State :=
  let locs := locs.map (forwarded s.fab)
  let ws := (locs.zip bytes).map fun (p, b) => (p, b, (0xFF : Byte))
  let s := writeBackLines (settleWeak s core s.nextId) core ((locs.map lineOf).dedup)
  let s := writeHomeBy s (reticleOf core) false [] gid ws
  s.setFab (l1Update s.fab core ws)

/-- Accesses by a core to some bytes wait: a bank refuses them, an engine holds a line, or a write to them is not settled. -/
def coreWaits (s : State) (core gid : Nat) (locs : List Nat) : Bool :=
  let locs := locs.map (forwarded s.fab)
  ((locs.map lineOf).dedup).any (lineWaits s (.thread gid s.nextId)) || blockedFor s (reticleOf core) gid locs
    || weakBlocked s core s.nextId

/-! ## Pages under copy-on-write (R374) -/

/-- The pages under copy-on-write that some bytes lie in, not yet copied (R374). -/
def cowPages (s : State) (locs : List Nat) : List Snapshot :=
  s.snaps.filter fun x => !x.copied &&
    match walkTables s x.ctx (x.page * 65536) with
    | .found leaf level => (List.range 16).any fun i =>
        let a := Leaf.phys leaf level (x.page * 65536 + 4096 * i)
        locs.any fun p => a ≤ p && p < a + 4096
    | _ => false

/-- Mark the copies that a waiting write needs. -/
def wantCopies (s : State) (xs : List Snapshot) : State :=
  { s with snaps := s.snaps.map fun x => if xs.contains x then { x with wanted := true } else x }

/-- Invalidations still on their way for writes the core's site has made (R250, R252). -/
def invalidationsPending (s : State) : Bool := !s.fab.inval.isEmpty

end Sys2Proof.Machine
end

