-- ==== Sys2Proof/Machine/Queues.lean ====
section
/-! DEFINITION. Convoy sharing of values taken from outside, message queues: send ports, credits, flits, delivery, receives,
and mailbox firing (R94, R334 to R341, R376, R377, R389). -/
namespace Sys2Proof.Machine

/-! ## Convoys and the assayer: values from outside (R376, R377, R389) -/

/-- The group of the other side of a convoy at the same slot. -/
def Ctx.peer? (c : Ctx) (s : State) : Option Nat :=
  if c.t.side = .solo then none
  else (s.groups.filter fun e => e.2.team = c.t.peer && e.2.slot = c.g.slot).head?.map (·.1)

/-- Operations of a lead's second and third rows that its escort has not matched: values on their way to the escort's
groups, and operations that other groups of the lead offer. -/
def unmatched (s : State) (c : Ctx) : Nat :=
  ((s.teamGroups c.t.peer).map fun e => e.2.lvq.length).sum
    + ((s.teamGroups c.g.team).filter fun e => e.1 != c.gid && e.2.offer.isSome).length

/-- The lead stalls before an operation of the second or third row while the launch's slack stands unmatched. -/
def stalls (s : State) (c : Ctx) : Bool := c.g.offer.isNone && !c.g.matched && decide (c.l.slack ≤ unmatched s c)

/-- Bytes of the assayer's stream area (R389), and the bytes a logged operation takes: its signature and its values. -/
def assayArea : Nat := 2 ^ 30
def entryBytes (e : Word × List (Nat × Word)) : Nat := 8 + 8 * e.2.length
def AssayStream.bytes (x : AssayStream) : Nat := (x.entries.map entryBytes).sum

/-- Enter something of a given size in a sampled team's assayer stream; a stream that the area cannot hold is no longer
sampled, and the skip is reported (R389, R392). -/
def assayPut (tid : Nat) (t : Team) (size : Nat) (put : List (Word × List (Nat × Word)) → List (Word × List (Nat × Word))) (s : State) : State :=
  if t.sampled && s.assay.any (fun x => x.team == tid && !x.full) then
    let change (f : AssayStream → AssayStream) : List AssayStream := s.assay.map fun x => if x.team = tid then f x else x
    if (s.assay.map AssayStream.bytes).sum + size ≤ assayArea then
      { s with assay := change fun x => { x with entries := put x.entries } }
    else
      State.report { s with assay := change fun x => { x with full := true } }
        { cls := 3, unit := 10, cause := 0x31, place := BitVec.ofNat 12 t.place, detail := BitVec.ofNat 64 t.index,
          cycle := s.cycle (reticleOf t.place) }
  else s

/-- Log a sampled team's operation. -/
def assayLog (c : Ctx) (sig : Word) (vals : List (Nat × Word)) (s : State) : State :=
  assayPut c.g.team c.t (entryBytes (sig, vals)) (fun es => es ++ [(sig, vals)]) s

/-- The convoy of the issuing group. -/
def Ctx.convoy? (c : Ctx) (s : State) : Option Convoy := s.convoys.find? fun v => v.lead = c.g.team || v.escort = c.g.team

def State.modConvoy (s : State) (team : Nat) (f : Convoy → Convoy) : State :=
  { s with convoys := s.convoys.map fun v => if v.lead = team || v.escort = team then f v else v }

/-- The log entry that covers the group's next operation in a re-execution (R380). -/
def Ctx.logged (c : Ctx) (s : State) : Option LoadValue := do
  let v ← c.convoy? s
  let n := SMap.get 0 v.taken (2 * c.g.slot + (if c.t.side = .escort then 1 else 0))
  if n < SMap.get 0 v.covered c.g.slot then
    ((v.commits.filter fun e => e.1 = c.g.slot)[n]?).map (·.2)
  else none

/-- The group has taken one more operation from the log. -/
def Ctx.tookLogged (c : Ctx) (s : State) : State :=
  s.modConvoy c.g.team fun v =>
    let k := 2 * c.g.slot + (if c.t.side = .escort then 1 else 0)
    { v with taken := SMap.set 0 v.taken k (SMap.get 0 v.taken k + 1) }

/-- Replace the n-th entry of a slot. -/
def setEntry (slot : Nat) (x : LoadValue) : Nat → List (Nat × LoadValue) → List (Nat × LoadValue)
  | _, [] => []
  | n, e :: es =>
    if e.1 = slot then (match n with | 0 => (slot, x) :: es | n + 1 => e :: setEntry slot x n es)
    else e :: setEntry slot x n es

/-- The convoy logs an operation with its values and results, or the trap it met (R378). A command performed again takes its
entry anew. -/
def Ctx.commitEntry (c : Ctx) (x : LoadValue) (s : State) : State :=
  s.modConvoy c.g.team fun v =>
    if (c.logged s).isSome then
      { v with commits := setEntry c.g.slot { x with undone := true } (SMap.get 0 v.taken (2 * c.g.slot)) v.commits }
    else { v with commits := v.commits ++ [(c.g.slot, x)] }

def Ctx.commit (c : Ctx) (sig : Word) (vals : List (Nat × Word)) (s : State) : State := c.commitEntry { sig, vals } s

/-- An operation that the log covers takes its logged values or trap, where its signature is the logged one; one that a return
stopped is performed again; `f` otherwise. -/
def fromLog (c : Ctx) (sig : Word) (s : State) (f : Unit → Res (List (Nat × Word) × State)) : Res (List (Nat × Word) × State) :=
  match c.logged s with
  | some e =>
    if e.sig ≠ sig then trap Cause.convoyMismatch
    else if e.undone then
      match f () with
      | .ok (v, s) => .ok (v, c.tookLogged s)
      | .error (.trapIn x s) => .error (.trapIn x (c.tookLogged s))
      | .error x => .error x
    else match e.trap with
      | some x => .error (.trapIn x (c.tookLogged s))
      | none => .ok (e.vals, c.tookLogged s)
  | none => f ()

/-- An operation of R376's second row: alone, or by the lead with its values sent to the escort, or by the escort from
its load-value queue under the same signature. A trap that the operation meets is taken by both (R381). -/
def takeOutside (c : Ctx) (sig : Word) (perform : State → Res (List (Nat × Word) × State)) (s : State) :
    Res (List (Nat × Word) × State) :=
  let send (v : LoadValue) (s : State) : State :=
    match c.peer? s with
    | some p => s.modGroup p fun g => { g with lvq := g.lvq ++ [v] }
    | none => s
  match c.t.side with
  | .solo => do
    let (v, s) ← perform s
    .ok (v, assayLog c sig v s)
  | .lead =>
    fromLog c sig s fun _ =>
      if stalls s c then .error (.wait s)
      else match perform s with
        | .ok (v, s) => .ok (v, c.commit sig v (send { sig, vals := v } (assayLog c sig v s)))
        | .error (.trap x) => .error (.trapIn x (c.commitEntry { sig, trap := some x } (send { sig, trap := some x } s)))
        | .error (.trapIn x s) => .error (.trapIn x (c.commitEntry { sig, trap := some x } (send { sig, trap := some x } s)))
        | .error e => .error e
  | .escort =>
    fromLog c sig s fun _ =>
      match c.g.lvq with
      | [] => .error (.wait s)
      | v :: rest =>
        if v.sig = sig then
          let s := s.modGroup c.gid fun g => { g with lvq := rest }
          match v.trap with
          | some x => .error (.trapIn x s)
          | none => .ok (v.vals, s)
        else trap Cause.convoyMismatch

/-- An uncounted operation of the third row: both sides wait with their signatures; once CONVOY_MATCH has paired them the
lead performs it and its results, or its trap, go to both. -/
def performOnce (c : Ctx) (sig : Word) (perform : State → Res (List (Nat × Word) × State)) (s : State) :
    Res (List (Nat × Word) × State) :=
  let ended (s : State) : State := s.modGroup c.gid fun g => { g with matched := false, offer := none }
  let tell (f : Group → Group) (s : State) : State :=
    match c.peer? s with
    | some p => s.modGroup p f
    | none => s
  let failed (x : Trap) (s : State) : State := tell (fun g => { g with convTrap := some x, offer := none }) (ended s)
  match c.t.side with
  | .solo => do
    let (v, s) ← perform s
    .ok (v, assayLog c sig v s)
  | .lead =>
    fromLog c sig s fun _ =>
      if stalls s c then .error (.wait s)
      else if c.g.matched then
        match perform s with
        | .ok (v, s) => .ok (v, c.commit sig v (tell (fun g => { g with convResult := some v, offer := none }) (ended (assayLog c sig v s))))
        | .error (.trap x) => .error (.trapIn x (c.commitEntry { sig, trap := some x } (failed x s)))
        | .error (.trapIn x s) => .error (.trapIn x (c.commitEntry { sig, trap := some x } (failed x s)))
        | .error e => .error e
      else .error (.wait (s.modGroup c.gid fun g => { g with offer := some sig }))
  | .escort =>
    fromLog c sig s fun _ =>
      match c.g.convTrap, c.g.convResult with
      | some x, _ => .error (.trapIn x (s.modGroup c.gid fun g => { g with convTrap := none }))
      | none, some v => .ok (v, s.modGroup c.gid fun g => { g with convResult := none })
      | none, none => .error (.wait (s.modGroup c.gid fun g => { g with offer := some sig }))

/-- The instruction word at the group's position. -/
def Ctx.word (c : Ctx) : Nat := ((codeAt c.r (c.g.hdr.toNat + 8 * c.g.idx)).getD 0).toNat

/-- The signature of a send or receive (R377): the instruction's word, EXEC, and what else it covers. -/
def Ctx.portSig (c : Ctx) (more : List Nat) : Word := Config.opSignature (c.word :: c.g.exec.toNat :: more)

/-- The signature of an operation (R377): its word, EXEC, and what else it covers. -/
def Ctx.sig (c : Ctx) (i : Instr) (more : List Nat) : Word :=
  Config.opSignature ((encode i).getD 0 :: c.g.exec.toNat :: more)

/-! ## Mailboxes (R94) -/

/-- One firing of a bound mailbox: its ordinal is the count before it. -/
def fireBox (s : State) (b : Nat) : State :=
  { s with boxes := SMap.adjust s.boxes b fun x => { x with total := x.total + 1 } }

/-- Whether a mailbox takes another firing: 65,535 may await launch. -/
def boxHasRoom (s : State) (b : Nat) : Bool :=
  match SMap.entry? s.boxes b with
  | some x => x.total - x.launched < 65535
  | none => true

/-- The mailboxes whose lines some physical locations touch. -/
def boxesAt (s : State) (locs : List Nat) : List Nat := (locs.filterMap fun p => mailboxAt s p).dedup

/-! ## Ports and credits (R334, R336) -/

namespace Port

def kind (b : Word) : Nat := (b.extractLsb' 62 2).toNat
def release (b : Word) : Bool := b.getLsbD 31
def rows (b : Word) : Nat := (b.extractLsb' 25 3).toNat + 1
def cols (b : Word) : Nat := (b.extractLsb' 22 3).toNat + 1
def slot (b : Word) : Nat := (b.extractLsb' 14 5).toNat
def place (b : Word) : Nat := (b.extractLsb' 2 12).toNat
def queue (b : Word) : Nat := (b.extractLsb' 0 2).toNat
def box (b : Word) : Nat := (b.extractLsb' 0 12).toNat

/-- The fields that R334 names; the reserved ones read as zero. -/
def named (b : Word) : Word := b &&& 0xC00000008FC7FFFF

/-- A value TXQBn may hold: no reserved bit, and no field its kind leaves zero (R334). -/
def legal (b : Word) : Bool :=
  b.extractLsb' 32 30 == 0 && b.extractLsb' 28 3 == 0 && b.extractLsb' 19 3 == 0 &&
  match kind b with
  | 0 => b.extractLsb' 22 6 == 0
  | 1 => true
  | 2 => b.extractLsb' 22 6 == 0 && b.extractLsb' 14 5 == 0 && b.extractLsb' 12 2 == 0
  | _ => b.extractLsb' 0 62 == 0

end Port

def Group.port (g : Group) (n : Nat) : TxPort := SMap.get {} g.tx n
def Group.setPort (g : Group) (n : Nat) (p : TxPort) : Group := { g with tx := SMap.set {} g.tx n p }

/-- Credits granted on one receive queue (key group × 4 + queue), and flits in flight to it: each holds a slot. -/
def granted (s : State) (key : Nat) : Nat :=
  let held (gs : List (Nat × Group)) : Nat := gs.foldl (fun n e => e.2.tx.foldl (fun n p => n + SMap.get 0 p.2.credits key) n) 0
  held s.groups + (s.saved.map fun x => held x.2.groups).sum
    + (s.flits.filter fun f => f.2.1 * 4 + f.2.2.1 = key).length

/-- Free slots of a receive queue of 16 beyond the credits it has granted. -/
def freeSlots (s : State) (gid q : Nat) : Nat :=
  match s.group? gid with
  | some g => 16 - (g.rx.filter fun e => e.1 = q).length - granted s (gid * 4 + q)
  | none => 0

/-- Places whose core the loaded defect map disables: at least 2,944 cores are enabled (R26, R106). -/
def disabledCores (gen : Nat) : List Nat := ((List.range 3072).filter (Config.disabledCore gen)).take 128

/-- A usable physical place (R16). -/
def usable (d : Device) (place : Nat) : Bool := place < 3072 && !(disabledCores d.defects).contains place

/-- A place whose reticle is lost (R80). -/
def placeLost (d : Device) (place : Nat) : Bool :=
  d.lost.any fun p => match p with | .reticle n => n.val == reticleOf place | _ => false

/-- The live group of the sender's launch that a bound slot names on a core (R335). On a convoy it is the sender's side. -/
def receiver (s : State) (c : Ctx) (place slot : Nat) : Option Nat := do
  let here (t : Team) : Bool := t.launch = c.lid && t.place = place && t.side == c.t.side
  let live (g : Group) : Bool := g.slot = slot && g.phase != .ended && g.phase != .stopped
  match s.teams.find? fun e => here e.2 with
  | some t => (s.groups.find? fun e => e.2.team = t.1 && live e.2).map (·.1)
  | none => do
    -- a saved team's queues stay with its core (R337)
    let x ← s.saved.find? fun e => here e.2.team
    (x.2.groups.find? fun e => live e.2).map (·.1)

/-- The physical places a port names (R334, R339): the bound place, or the logical rectangle through the region's map. The
bound place stands in TXQBn as the loader has relocated it, so that a rectangle starts at the core of the region which it
names physically; where the region has no such core, the start is outside the region (DEDUCED, log entry 89). -/
def portPlaces (c : Ctx) (b : Word) : List (Option Nat) :=
  if Port.kind b = 1 then
    match (c.r.map.find? fun e => e.2 == Port.place b).map (·.1) with
    | none => [none]
    | some logical =>
    let row := 8 * (logical / 512) + logical / 8 % 8
    let col := 8 * (logical / 64 % 8) + logical % 8
    (List.range (Port.rows b)).flatMap fun i => (List.range (Port.cols b)).map fun j =>
      let r := row + i
      let k := col + j
      let p := (r / 8) * 512 + (k / 8) * 64 + (r % 8) * 8 + k % 8
      if r < 48 ∧ k < 64 then (c.r.map.find? fun e => e.1 == p).map (·.2) else none
  else [some (Port.place b)]

/-- The flit header of R335. -/
def flitHeader (c : Ctx) (b : Word) (sent : BitVec 12) : Word :=
  BitVec.ofNat 64 (c.t.index % 2 ^ 32 * 2 ^ 32 + c.g.slot * 2 ^ 24 + (if Port.kind b = 1 then 2 ^ 17 else 0)
    + (if Port.release b then 2 ^ 16 else 0) + (if Port.kind b = 2 then 0 else Port.queue b * 2 ^ 14) + sent.toNat)

/-- Put a flit in flight to a receiver's queue. -/
def launchFlit (s : State) (dst q : Nat) (f : Flit) : State :=
  { s with flits := SMap.put s.flits s.nextId (dst, q, f), nextId := s.nextId + 1 }

/-- The bytes of a mailbox's line that its next flit goes to (R335). -/
def Mailbox.flitLocs (x : Mailbox) : List Nat := (List.range 16).map fun i => x.phys + 16 * (x.total % 8) + i

/-- The flit of a mailbox send is one 16-byte write into the line, and it fires (R335). -/
def mailboxWrite (s : State) (core gid b : Nat) (x : Mailbox) (f : Flit) : State :=
  fireBox (coreWrite s core gid x.flitLocs (leBytes 8 f.hdr.toNat ++ leBytes 8 f.payload.toNat)) b

/-- A mailbox send waits: for room among the firings, for its line, or for the group's earlier accesses to it. -/
def mailboxWaits (s : State) (core gid b : Nat) (x : Mailbox) : Bool :=
  !boxHasRoom s b || coreWaits s core gid x.flitLocs || x.flitLocs.any (busyLocs s gid s.nextId).contains

/-- A uniform write to send port n (R335, R336, R340): its checks, its credits, the flit. -/
def sendFlit (c : Ctx) (n : Nat) (v : Word) (s : State) : Res State := do
  let p := c.g.port n
  let b := p.bind
  if Port.kind b = 3 then trap Cause.queueMisuse
  let places := portPlaces c b
  let hdr := flitHeader c b p.sent
  let sent (s : State) : State := s.modGroup c.gid fun g => g.setPort n { g.port n with sent := p.sent + 1 }
  -- a release first waits for every earlier memory, engine and matrix instruction (R269, R340)
  if Port.release b && (unreleased s c.gid || !releaseReady s c.t.place .device) then .error (.wait s)
  let s := if Port.release b then releaseAt s c.t.place .device else s
  if Port.release b && invalidationsPending s then .error (.wait s)
  if Port.kind b = 2 then
    match s.boxes.find? fun e => e.2.ctx == c.l.ctx && e.2.number == Port.box b && e.2.bound with
    | none => trap Cause.mailboxMisuse
    | some (k, x) =>
      if mailboxWaits s c.t.place c.gid k x then .error (.wait s)
      else match cowPages s x.flitLocs with
        | [] => .ok (sent (mailboxWrite s c.t.place c.gid k x { hdr, payload := v }))
        | xs => .error (.wait (wantCopies s xs))
  else
    let bad := places.filter fun q => match q with | some q => !usable s.dev q | none => true
    match bad with
    | q :: _ => trap Cause.placementFault (BitVec.ofNat 64 (q.getD (Port.place b)))
    | [] =>
      let dsts := places.map fun q => receiver s c (q.getD 0) (Port.slot b)
      if dsts.any Option.isNone then trap Cause.queueMisuse
      else
        let keys := dsts.filterMap fun d => d.map fun g => g * 4 + Port.queue b
        if keys.all fun k => 0 < SMap.get 0 p.credits k then
          let credits := keys.foldl (fun m k => SMap.set 0 m k (SMap.get 0 m k - 1)) p.credits
          let f : Flit := { hdr, payload := v, src := c.gid * 4 + n }
          let s := keys.foldl (fun s k => launchFlit s (k / 4) (k % 4) f) s
          .ok ((sent s).modGroup c.gid fun g => g.setPort n { g.port n with credits, request := false })
        else
          let asked := if p.request then p.asked else s.tick
          .error (.wait (s.modGroup c.gid fun g => g.setPort n { g.port n with request := true, asked }))

/-- The receive queues that a port of a group names. -/
def portKeys (s : State) (gid : Nat) (p : TxPort) : List Nat :=
  match s.ctx? gid with
  | some c => ((portPlaces c p.bind).filterMap fun q => q.bind fun q => receiver s c q (Port.slot p.bind)).map fun g => g * 4 + Port.queue p.bind
  | none => []

/-- Ports that ask for credits of one queue, with the time they asked at. -/
def askers (s : State) (key : Nat) : List (Nat × Nat) :=
  s.groups.flatMap fun e => e.2.tx.filterMap fun x =>
    if x.2.request && SMap.get 0 x.2.credits key < 4 && (portKeys s e.1 x.2).contains key then some (x.2.asked, e.1 * 4 + x.1) else none

/-- A port's request for a queue's credit is the oldest that the queue has (R336). -/
def oldestAsk (s : State) (key asked port : Nat) : Bool :=
  (askers s key).all fun x => decide (asked < x.1) || (asked == x.1 && decide (port ≤ x.2))

/-- The credits that a queue grants in one batch: some of those that a port may still hold and the queue has slots for (log
entry 64). -/
def batch (s : State) (held free : Nat) : Nat := 1 + Config.freeChoice s.free % min (4 - held) free

/-- CREDIT_GRANT: the receivers of a port that asks grant it a batch of credits each, as far as free slots allow, no port
holds more than 4 per queue and no request that arrived earlier awaits the queue's credit (R336). -/
def creditGrant (gid : Nat) (n : Fin 4) (s : State) : Option State := do
  let c ← s.ctx? gid
  let p := c.g.port n.val
  if !p.request then none
  let credits := (portKeys s c.gid p).foldl (fun m k =>
    let have_ := SMap.get 0 m k
    if have_ < 4 && 0 < freeSlots s (k / 4) (k % 4) && oldestAsk s k p.asked (gid * 4 + n.val)
    then SMap.set 0 m k (have_ + batch s have_ (freeSlots s (k / 4) (k % 4))) else m) p.credits
  if credits == p.credits then none
  pure ({ s with free := s.free + 1 }.modGroup gid fun g => g.setPort n.val { p with credits, request := false })

/-- FLIT_DELIVERY: the oldest flit of its sender and queue enters the receive queue; a flit to a group that has ended is
discarded (R337, R338). -/
def flitDelivery (k : Nat) (s : State) : Option State := do
  let (dst, q, f) ← SMap.entry? s.flits k
  -- an earlier flit of the same port to the same queue goes first
  let same (e : Nat × Nat × Nat × Flit) : Bool :=
    e.1 < k && e.2.1 == dst && e.2.2.1 == q && e.2.2.2.src == f.src
  if s.flits.any same then none
  let s := { s with flits := SMap.del s.flits k }
  let take (g : Group) : Group := if g.phase = .ended then g else { g with rx := g.rx ++ [(q, f)] }
  match s.group? dst with
  | some g => pure (s.setGroup dst (take g))
  | none => pure { s with saved := s.saved.map fun x => (x.1, { x.2 with groups := x.2.groups.map fun e => if e.1 = dst then (dst, take e.2) else e }) }

/-- A receive (R337, R340): pop the oldest flit of rxq n; a poisoned payload is consumed by the pop (R370), and a flit
with the release bit is an acquire at device scope. -/
def popFlit (c : Ctx) (n : Nat) (s : State) : Res (Word × State) := do
  let sig := c.portSig [0x100 + n]
  let (v, s) ← takeOutside c sig (fun s =>
    match s.group? c.gid with
    | none => .error (.wait s)
    | some g =>
      match g.rx.find? fun e => e.1 = n with
      | none => .error (.wait s)
      | some e =>
        match e.2.tag with
        | some tag => .error (.trap { cause := Cause.poisonConsumed, info := BitVec.ofNat 23 (4096 + tag.toNat) })
        | none =>
          let s := s.setGroup c.gid { g with rx := g.rx.erase e }
          let s := if e.2.hdr.getLsbD 16 then acquireAt s c.gid c.t.place .device else s
          .ok ([(0, e.2.payload), (1, e.2.hdr)], s)) s
  let get (k : Nat) : Word := ((v.find? fun e => e.1 = k).map (·.2)).getD 0
  .ok (get 0, s.modGroup c.gid fun g => { g with rxhdr := get 1 })

end Sys2Proof.Machine
end

