-- ==== Sys2Proof/Machine/Operands.lean ====
section
/-! DEFINITION. Registers and operands: the register view of a group and of its handler, operand checks, inline constants,
permutations, pops and destinations (R135 to R140, R199, R200, R353). -/
namespace Sys2Proof.Machine

/-! ## Registers (R135, R163, R353) -/

/-- Uniform register k; s56 to s63 name SU0 to SU7 in the handler. -/
def Group.readS (g : Group) (k : Nat) : Word := if g.sup ∧ 56 ≤ k then SMap.get 0 g.su (k - 56) else SMap.get 0 g.sregs k

def Group.writeS (g : Group) (k : Nat) (v : Word) : Group :=
  if g.sup ∧ 56 ≤ k then { g with su := SMap.set 0 g.su (k - 56) v } else { g with sregs := SMap.set 0 g.sregs k v }

/-- Lane l of vector register r: fixed, of the supervisor reserve in the handler, or of the current frame. -/
def Group.readV (g : Group) (r l : Nat) : Lane :=
  if r < 16 then SMap.get 0 g.vfix (r * 64 + l)
  else if g.sup then SMap.get 0 g.reserve ((r - 16) * 64 + l)
  else SMap.get 0 g.win ((g.base + r - 16) * 64 + l)

def Group.writeV (g : Group) (r l : Nat) (v : Lane) : Group :=
  if r < 16 then { g with vfix := SMap.set 0 g.vfix (r * 64 + l) v }
  else if g.sup then { g with reserve := SMap.set 0 g.reserve ((r - 16) * 64 + l) v }
  else { g with win := SMap.set 0 g.win ((g.base + r - 16) * 64 + l) v }

/-- A pair vN+1:vN (R136). -/
def Group.readPair (g : Group) (r l : Nat) : Nat := (g.readV r l).toNat + 2 ^ 32 * (g.readV (r + 1) l).toNat

/-- A lane value of 32 bits, or a pair. -/
def Group.writeLane (g : Group) (wide : Bool) (r l v : Nat) : Group :=
  let g := g.writeV r l (BitVec.ofNat 32 v)
  if wide then g.writeV (r + 1) l (BitVec.ofNat 32 (v / 2 ^ 32)) else g

/-- Write a vector destination in some lanes. -/
def Group.writeLanes (g : Group) (wide : Bool) (r : Nat) (ls : List Nat) (f : Nat → Nat) : Group :=
  ls.foldl (fun g l => g.writeLane wide r l (f l)) g

/-! ## Checks of specifiers (R135, R136, R140) -/

def vOk (g : Group) (wide : Bool) (r : Nat) : Bool := (!wide || r % 2 == 0) && (!g.sup || r < 48)

/-- A pattern and parameter that R140 allows for width w. -/
def patOk (w : Nat) (p : Pat) (k : Nat) : Bool :=
  match p with
  | .none => k == 0
  | .rot | .rotd => true
  | .seg => k < min 16 w
  | .bfly => 2 ^ k < w
  | .mir => 1 ≤ k && 2 ^ k ≤ w
  | .undef6 | .undef7 => false

/-- A legal source of an operate-format instruction. -/
def srcOk (g : Group) (uni wide : Bool) (x : Src) : Bool :=
  let plain := x.pat == .none && x.par == 0
  match x.spec with
  | .v n => !uni && vOk g wide n.val && patOk g.width x.pat x.par.toNat
  | .sq _ => !uni && !g.sup && patOk g.width x.pat x.par.toNat
  | .rxq _ => uni && !g.sup && plain
  | .laneid => !uni && plain
  | .s _ | .grouplanes | .exec | .int _ | .neg _ | .fp _ => plain
  | .txq _ | .reserved _ => false

/-- A legal destination: a v register in the vector form; an s register or send port in the uniform form. -/
def dstOk (g : Group) (uni wide : Bool) (d : Spec) : Bool :=
  match d with
  | .v n => !uni && vOk g wide n.val
  | .s _ => uni
  | .txq _ => uni && !g.sup
  | _ => false

def isSReg : Spec → Bool
  | .s _ => true
  | _ => false

/-! ## Inline constants (R137) -/

/-- The F32 patterns of the FP constants (R135). -/
def fpConst (n : Nat) : Nat :=
  match n with
  | 0 => 0x3F000000 | 1 => 0x3F800000 | 2 => 0x40000000 | 3 => 0x40800000 | 4 => 0xBF000000 | 5 => 0xBF800000
  | 6 => 0xC0000000 | _ => 0x3F317218

def splat (t : Ty) (e : Nat) : Nat :=
  match tyElems t with
  | 2 => e + e * 2 ^ 16
  | 4 => e + e * 2 ^ 8 + e * 2 ^ 16 + e * 2 ^ 24
  | _ => e

/-- An integer constant in a type. -/
def intConst (t : Ty) (v : Int) : Nat :=
  if t.isF || t.isFX then splat t (((roundTo (tyFmt t) (.ofInt v) .rne false).val).getD 0)
  else splat t (patOf (tyBits t) v)

/-- An FP constant in a type. -/
def fpConstIn (t : Ty) (n : Nat) : Nat :=
  if t.isF || t.isFX then splat t (((roundTo (tyFmt t) (decodeFloat .f32 (fpConst n)) .rne false).val).getD 0)
  else fpConst n

/-! ## Reading sources -/

/-- `permuted`'s lane (R140). -/
def permLane (w : Nat) (p : Pat) (k l : Nat) : Nat :=
  match p with
  | .rot => (l + w - k % w) % w
  | .rotd => (l + k) % w
  | .seg => 16 * (l / 16) + k
  | .bfly => l ^^^ (2 ^ k)
  | .mir => l ^^^ (2 ^ k - 1)
  | _ => l

/-- The value of lane l of a source read in type t, before its permutation. -/
def srcLane (g : Group) (t : Ty) (x : Spec) (p : Popped) (l : Nat) : Nat :=
  let cut (v : Word) : Nat := if t.is64 then v.toNat else v.toNat % 2 ^ 32
  match x with
  | .v n => if t.is64 then g.readPair n.val l else (g.readV n.val l).toNat
  | .s n => cut (g.readS n.val)
  | .laneid => l
  | .grouplanes => g.width
  | .exec => cut g.exec
  | .int n => intConst t n.val
  | .neg n => intConst t (-1 - (n.val : Int))
  | .fp n => fpConstIn t n.val
  | .rxq _ => match p with | .flit v => cut v | _ => 0
  | .sq _ => match p with | .vector ls => ((ls[l]?).getD 0).toNat | _ => 0
  | _ => 0

/-- A source as each lane reads it (R139, R140). -/
def srcVal (g : Group) (t : Ty) (x : Src) (p : Popped) (l : Nat) : Nat :=
  srcLane g t x.spec p (permLane g.width x.pat x.par.toNat l)

/-! ## Pops (R200, R261, R291) -/

/-- Vectors of a stream: the product of its counts, 0 counting as 1 (R260). -/
def streamCount (d : BitVec 512) : Nat :=
  (List.range 4).foldl (fun n i => n * max 1 (d.extractLsb' (128 + 72 * i) 32).toNat) 1

/-- Checks of a load in their order, as the trap of a stream lane is ranked: the scale base, alignment, the record's extent,
checks 1 to 9 of R230, a conversion, poison. -/
def rankScale : Nat := 0
def rankAlign : Nat := 1
def rankExtent : Nat := 2
def rankCheck (n : Nat) : Nat := 2 + n
def rankConvert : Nat := 12
def rankPoison : Nat := 13

/-- The trap that a load of a vector's active lanes would take: the lowest-ranked check that one of them fails, with the lanes
that fail it where a load names them, at the lowest such lane (R230, R261, R351). -/
def vectorTrap (m : Mask) (v : StreamVec) : Option Trap :=
  let bad := (lanes m).filterMap fun l => do
    let x ← v.lanes[l]?
    let t ← x.trap
    pure (l, x.rank, t)
  do
    let k ← (bad.map (·.2.1)).min?
    let hit := bad.filter fun e => e.2.1 = k
    let (_, _, t) ← hit.head?
    pure { t with mask := if rankExtent < k && k ≠ rankConvert then some (maskOf (hit.map (·.1))) else none }

/-- A vector as values: its lanes, its flags, its substitute bit. -/
def StreamVec.vals (v : StreamVec) : List (Nat × Word) :=
  v.lanes.zipIdx.map (fun (x, l) => (l, x.val.zeroExtend 64)) ++ [(1000, v.fp.zeroExtend 64), (1001, if v.subst then 1 else 0)]

/-- The vector that some values stand for. -/
def vecOf (vs : List (Nat × Word)) : StreamVec :=
  let get (k : Nat) : Word := ((vs.find? fun e => e.1 = k).map (·.2)).getD 0
  { lanes := (vs.filter fun e => decide (e.1 < 64)).map fun e => { val := e.2.setWidth 32 }, fp := (get 1000).setWidth 7, subst := get 1001 ≠ 0 }

/-- Pop a vector of stream n. A lane's fault is taken only where it is active (R261). The flags and the substitute bit of the
vector's conversions, those of inactive lanes too, are raised with the instruction that pops it. DESIGN CHOICE (log entry
77). The pop enters the vector in a convoy's commit log, in the order of the program, and one that the log covers takes the
logged vector (R378, R380). -/
def popStream (c : Ctx) (n : Nat) (s : State) : Res (List Lane × State) :=
  match s.group? c.gid with
  | none => .error (.wait s)
  | some g =>
    match SMap.entry? g.streams n with
    | none => trap Cause.queueMisuse
    | some st =>
      if !st.ready then .error (.wait s)
      else if streamCount st.desc ≤ st.pos then illegal
      else
        let sig := c.portSig [0x300 + n, st.pos]
        let take (v : StreamVec) (s : State) : Res (List Lane × State) :=
          .ok (v.lanes.map (·.val), s.modGroup c.gid fun g =>
            { g with streams := SMap.put g.streams n { st with pos := st.pos + 1, fetched := st.fetched.tail }, popFp := g.popFp ||| v.fp,
                     popSubst := if v.subst then g.popSubst ||| BitVec.ofNat 64 (2 ^ (st.desc.extractLsb' 96 6).toNat) else g.popSubst })
        if (c.logged s).isSome then do
          let (vs, s) ← fromLog c sig s fun _ => .error (.wait s)
          take (vecOf vs) s
        else match st.fetched with
          | [] => .error (.wait s)
          | v :: _ =>
            match vectorTrap g.exec v with
            | some t => .error (if c.t.side == .lead then .trapIn t (c.commitEntry { sig, trap := some t } s) else .trap t)
            | none => take v (if c.t.side == .lead then c.commit sig v.vals s else s)

/-- Pop what a source names, if it is a port or a stream. -/
def popSrc (c : Ctx) (x : Spec) (s : State) : Res (Popped × State) :=
  match x with
  | .rxq n => do
    let (v, s) ← popFlit c n.val s
    .ok (.flit v, s)
  | .sq n => do
    let (ls, s) ← popStream c n.val s
    .ok (.vector ls, s)
  | _ => .ok (.nothing, s)

/-! ## Operate-format instructions -/

/-- What the three sources give, by lane; the state after the pops. -/
structure Sources where
  a : Nat → Nat
  b : Nat → Nat
  c : Nat → Nat
  s : State

/-- Widths of an instruction's operands, as its table row gives them: `none` for an unused field. -/
structure Shape where
  d : Bool
  a : Option Ty
  b : Option Ty := none
  c : Option Ty := none

def isPort : Spec → Bool
  | .rxq _ | .sq _ => true
  | _ => false

/-- Check destination, A, B and C in order, then pop A, B and C in order, then read them (R135, R200). The destination
check is the caller's. A pop that must wait leaves every pop undone; an instruction whose send waits keeps what it has
popped until it issues again. -/
def readSources (c : Ctx) (f : OForm) (sh : Shape) (s : State) : Res Sources := do
  let ok (t : Option Ty) (x : Src) : Bool := match t with | none => true | some t => srcOk c.g f.uni t.is64 x
  let fc : Src := ⟨f.c, .none, 0⟩
  guardOp (ok sh.a f.a && ok sh.b f.b && ok sh.c fc)
  let pop (t : Option Ty) (x : Src) (s : State) : Res (Popped × State) := match t with | none => .ok (.nothing, s) | some _ => popSrc c x.spec s
  let stay {α : Type} (r : Res α) : Res α := match r with | .error (.wait _) => .error (.wait s) | r => r
  let pops := (sh.a.isSome && isPort f.a.spec) || (sh.b.isSome && isPort f.b.spec) || (sh.c.isSome && isPort f.c)
  let (pa, pb, pc, s3) ← match pops, c.g.kept with
    | true, [x, y, z] => (.ok (x, y, z, s) : Res (Popped × Popped × Popped × State))
    | _, _ => do
      let (pa, s1) ← stay (pop sh.a f.a s)
      let (pb, s2) ← stay (pop sh.b f.b s1)
      let (pc, s3) ← stay (pop sh.c fc s2)
      .ok (pa, pb, pc, if pops then s3.modGroup c.gid (fun g => { g with kept := [pa, pb, pc] }) else s3)
  let val (t : Option Ty) (x : Src) (p : Popped) : Nat → Nat := match t with | none => fun _ => 0 | some t => srcVal c.g t x p
  .ok ⟨val sh.a f.a pa, val sh.b f.b pb, val sh.c fc pc, s3⟩

/-- A uniform result: an s register takes it zero-extended, a send port sends it (R199, R335). -/
def writeUniform (c : Ctx) (d : Spec) (v : Nat) (s : State) : Res State :=
  match d with
  | .s n => .ok (s.modGroup c.gid fun g => g.writeS n.val (BitVec.ofNat 64 v))
  | .txq n => do
    let sig := c.portSig [0x200 + n.val, v]
    let (_, s) ← performOnce c sig (fun s => do
      let s ← sendFlit c n.val (BitVec.ofNat 64 v) s
      .ok ([], s)) s
    .ok s
  | _ => illegal

/-- The flags that some lanes raise, ORed (R139, R199). -/
def orFp (fs : List (BitVec 7)) : BitVec 7 := fs.foldl (· ||| ·) 0

/-- An elementwise instruction: read, compute each active lane (or once in the uniform form), raise flags, write. -/
def elementwise (sh : Shape) (f : OForm) (op : Nat → Nat → Nat → Flagged Nat) (c : Ctx) (s : State) : Res State := do
  guardOp (dstOk c.g f.uni sh.d f.d)
  let x ← readSources c f sh s
  if f.uni then
    let r := op (x.a 0) (x.b 0) (x.c 0)
    let s ← writeUniform c f.d r.val x.s
    .ok (s.raiseFp c.gid r.fp)
  else
    match f.d with
    | .v n =>
      let ls := lanes c.g.exec
      let rs := ls.map fun l => (l, op (x.a l) (x.b l) (x.c l))
      .ok (x.s.modGroup c.gid fun g =>
        { rs.foldl (fun g e => g.writeLane sh.d n.val e.1 e.2.val) g with fpstat := g.fpstat ||| orFp (rs.map (·.2.fp)) })
    | _ => illegal

/-- A comparison: its mask goes to an s register (R207, R214). -/
def comparison (sh : Shape) (f : OForm) (op : Nat → Nat → Flagged Bool) (c : Ctx) (s : State) : Res State := do
  guardOp (isSReg f.d)
  let x ← readSources c f sh s
  if f.uni then
    let r := op (x.a 0) (x.b 0)
    let s ← writeUniform c f.d (if r.val then 2 ^ 64 - 1 else 0) x.s
    .ok (s.raiseFp c.gid r.fp)
  else
    let rs := (lanes c.g.exec).map fun l => (l, op (x.a l) (x.b l))
    let s ← writeUniform c f.d (maskOf ((rs.filter fun e => e.2.val).map (·.1))).toNat x.s
    .ok (s.raiseFp c.gid (orFp (rs.map (·.2.fp))))

end Sys2Proof.Machine
end

