-- ==== Sys2Proof/Machine/Windows.lean ====
section
/-! DEFINITION. Register windows, the token stack and the porter (R157 to R170). -/
namespace Sys2Proof.Machine

/-! ## The window stack (R163, R164) -/

/-- Top of the window stack. -/
def Group.top (g : Group) : Nat := g.base + 112

/-- Resident registers. -/
def Group.occ (g : Group) : Nat := g.top - g.resLo

/-- Backing pointer of window offset o (R163). -/
def Group.backing (g : Group) (o : Nat) : Word := g.wbp + BitVec.ofNat 64 (4 * g.width * o)

/-- Backing pointer of spilled token j (R161). -/
def Group.tokenPtr (g : Group) (j : Nat) : Word := g.wlim - BitVec.ofNat 64 (32 * (j + 1))

/-- Lanes of some window offsets, offset by offset, as bytes. -/
def Group.windowBytes (g : Group) (o n : Nat) : List Byte :=
  (List.range n).flatMap fun i => (List.range g.width).flatMap fun l => leBytes 4 (SMap.get 0 g.win ((o + i) * 64 + l)).toNat

/-- Forget the window registers from offset o to offset o + n − 1. -/
def Group.forget (g : Group) (o n : Nat) : Group :=
  { g with win := g.win.filter fun (e : Nat × Lane) => !(o * 64 ≤ e.1 && e.1 < (o + n) * 64) }

/-- Little-endian values of n bytes each. -/
def chunksNat (n : Nat) : Nat → List Byte → List Nat
  | 0, _ => []
  | k + 1, bs => leNat (bs.take n) :: chunksNat n k (bs.drop n)

def Group.setWindow (g : Group) (o n : Nat) (bytes : List Byte) : Group :=
  ((chunksNat 4 (n * g.width) bytes).zipIdx).foldl (fun g (v, i) =>
    { g with win := SMap.set 0 g.win ((o + i / g.width) * 64 + i % g.width) (BitVec.ofNat 32 v) }) g

/-! ## Token images (R113) -/

def TokKind.code : TokKind → Nat
  | .cond => 0 | .loop => 1 | .call => 2

/-- The 32 bytes of a token entry. -/
def Token.image (t : Token) : BitVec 256 :=
  let exited : BitVec 64 := if t.kind = .cond then (if t.held then t.saved.zeroExtend 64 else 0) else t.exited
  t.cont ++ exited ++ t.pending ++ t.join ++ (0 : BitVec 8) ++ t.depth ++ t.slide ++ (0 : BitVec 1) ++ BitVec.ofBool t.held
    ++ BitVec.ofNat 2 t.kind.code

/-- A token read back; `none` where R114 calls the entry malformed. -/
def Token.ofImage (w : BitVec 256) : Option Token := do
  let kind ← match (w.extractLsb' 0 2).toNat with | 0 => some TokKind.cond | 1 => some .loop | 2 => some .call | _ => none
  let held := w.getLsbD 2
  let t : Token :=
    { kind, pending := w.extractLsb' 64 64, cont := w.extractLsb' 192 64, held, join := w.extractLsb' 32 32,
      exited := if kind = .cond then 0 else w.extractLsb' 128 64,
      saved := if kind = .cond && held then w.extractLsb' 128 32 else 0,
      depth := w.extractLsb' 8 16, slide := w.extractLsb' 4 4 }
  if t.image == w && !(held && (kind != .cond || t.pending == 0)) then some t else none

/-! ## The porter's accesses (R166, R168, R169) -/

def porterTrap (write : Bool) (x : Trap) : Trap :=
  { cause := Cause.porterFault, addr := x.addr,
    info := BitVec.ofNat 23 (x.cause.toNat * 2 ^ 16 + 2 ^ 14 + (if write then 2 ^ 13 else 0)) }

/-- The locations of some backing bytes after the checks of R230 for the kinds of access named; raw, so that check 9
never applies (R228). A fault of bytes that are checked for writing has TRAPINFO bit 13, also where they are read first
(DEDUCED, log entry 13). -/
def porterLocs (s : State) (w : Who) (ks : List Access) (ptr : Word) (len : Nat) : Except Trap (List Nat) :=
  let p : Piece := { lane := 0, ptr, len }
  let write := ks.contains .store
  let fail (x : Option Trap) : Option Trap := x.map (porterTrap write)
  let walks := ((p.bytes.filterMap w.global).map (· / 65536)).dedup.map fun n => (n, translate s w.t.place w.l.ctx (n * 65536))
  let look (b : Nat) : Option (Nat × Nat × WalkResult) := do
    let va ← w.global b
    let r ← walks.find? fun e => e.1 == va / 65536
    pure (b, va, r.2)
  match fail (checkTrap w (p.bytes.filterMap fun b => (ks.findSome? fun k => earlyCheck w k (mixed [p]) b).map fun n => (0, b, n))) with
  | some x => .error x
  | none =>
    match fail (checkTrap w (p.bytes.filterMap fun b => do
        let x ← look b
        match x.2.2 with | .found _ _ => none | _ => some (0, b, 6))) with
    | some x => .error x
    | none =>
      let at_ := p.bytes.filterMap fun b => do
        let x ← look b
        match x.2.2 with | .found leaf level => some (b, leaf, level, Leaf.phys leaf level x.2.1) | _ => none
      match fail (checkTrap w (at_.filterMap fun (b, leaf, level, a) =>
          (ks.findSome? fun k => lateCheck s w k .raw false b leaf level a).map fun n => (0, b, n))) with
      | some x => .error x
      | none => .ok (at_.map (·.2.2.2))

/-- The pages of some bytes enter the core's buffers (R234). -/
def Who.fill (w : Who) (s : State) (ps : List Nat) : State := fillTlb s w.t.place w.l.ctx (ps.filterMap w.global)

/-- Mark bytes of the private stack as written by the group (R228). -/
def Group.markStack (g : Group) (ptr : Word) (len : Nat) : Group :=
  let mark (m : SMap Bool) (i : Nat) : SMap Bool :=
    match apertureOf (ptrAddr (ptrAdd ptr i)) with
    | .stack off => SMap.set false m off true
    | _ => m
  { g with wrote := (List.range len).foldl mark g.wrote }

/-- The window offsets of n granules from o up. -/
def granulesUp (k : PorterMove) (o n : Nat) : List (PorterMove × Nat) := (List.range n).map fun i => (k, o + 8 * i)

/-- The window offsets of the n granules below o, the highest first. -/
def granulesDown (o n : Nat) : List (PorterMove × Nat) := (List.range n).map fun i => (.refill, o - 8 * (i + 1))

/-- Granules that a refill up to the low watermark restores from occupancy occ down to offset lo (R166). -/
def Group.refillRoom (g : Group) (occ lo : Nat) : Nat :=
  min (lo / 8) (min ((min 128 (g.ring - 16) - occ + 7) / 8) ((g.ring - 16 - occ) / 8))

/-- What a save has aborted and the porter has not done yet (R170). -/
def Group.abortedLeft (g : Group) : List (PorterMove × Nat) :=
  match g.aborted with
  | none => []
  | some (true, o, n) => (granulesDown (o + 8) n).filter fun m => decide (m.2 < g.resLo)
  | some (false, o, n) => (granulesUp .spill o n).filter fun m => decide (g.resLo ≤ m.2)

/-- The refills of the current frame, which the group's next clause awaits. -/
def Group.frameMoves (g : Group) : List (PorterMove × Nat) :=
  if g.wantRing == 0 then granulesDown g.resLo ((g.resLo - g.base) / 8) else []

/-- What the porter has to do for a group (R161, R166, R170, R186): a restored frame, what a save aborted, a push's token
slot, spills for a CALL's room and down to the high watermark, WSYNC.WB's copies, tokens read back, and refills up to the
low watermark. -/
def Group.dueMoves (g : Group) : List (PorterMove × Nat) :=
  if g.phase == .stopped || g.phase == .ended then []
  else
    let excess := max (g.occ + g.wantRing - g.ring) (g.occ - (g.ring - 16))
    let spills := granulesUp .spill g.resLo ((excess + 7) / 8)
    let room := if g.wantRing != 0 then excess else g.occ - (g.ring - 16)
    let copies := match g.wb with
      | some o => granulesUp .writeBack (max o g.resLo) ((g.base - max o g.resLo + 7) / 8)
      | none => []
    let slot := if g.wantTok && g.tokens.length == 16 then [(.tokenSpill, g.spilledTok)] else []
    let back := if g.wantTok then [] else
      (List.range (min (16 - g.tokens.length) g.spilledTok)).map fun i => (.tokenReadback, g.spilledTok - 1 - i)
    let lo := min g.resLo g.base
    let fills := if room == 0 && g.wantRing == 0 then granulesDown lo (g.refillRoom (g.top - lo) lo) else []
    (g.frameMoves ++ g.abortedLeft ++ slot ++ (if room == 0 then [] else spills) ++ copies ++ back ++ fills).dedup

/-- A granule move of a group in a queue. -/
def queued (q : List Move) (gid : Nat) (d : PorterMove × Nat) : Bool := q.any fun m => m.group == gid && m.kind == d.1 && m.off == d.2

/-- The moves of a group join its core's queue where they are triggered, and leave it when they are no longer due. Refills
stay in the queue as far as they are still the highest spilled granules, so that the granules come back from the highest
down; those of an awaited frame come before the group's other moves (R164, R166). -/
def triggerGroup (since gid : Nat) (g : Group) (q : List Move) : List Move :=
  let due := g.dueMoves
  let fills := (due.filter fun d => d.1 == .refill).takeWhile (queued q gid)
  let keep := q.filter fun m => m.group != gid || (due.contains (m.kind, m.off) && (m.kind != .refill || fills.contains (m.kind, m.off)))
  let new := (due.filter fun d => !queued keep gid d).map fun d => (⟨gid, d.1, d.2, since⟩ : Move)
  let awaited (m : Move) : Bool := g.frameMoves.contains (m.kind, m.off)
  if g.frameMoves.isEmpty then keep ++ new
  else
    let ahead (m : Move) : Bool := m.group != gid || awaited m
    keep.filter ahead ++ new.filter awaited ++ keep.filter (fun m => !ahead m) ++ new.filter (fun m => !awaited m)

/-- A restore left the porter something that comes before the group's first clause (R117, R170). -/
def Group.restoring (g : Group) : Bool := (g.copying && decide (g.ring - 16 < g.occ)) || !g.abortedLeft.isEmpty

/-- What a restore left to the porter is done (R117, R170); a faulted move that is no longer due is not retried (R169). -/
def Group.restored (g : Group) : Group :=
  { g with aborted := if g.abortedLeft.isEmpty then none else g.aborted, copying := g.copying && decide (g.ring - 16 < g.occ),
           porterFault := g.porterFault.filter g.dueMoves.contains }

/-- The porters' queues after a step. -/
def retrigger (s : State) : State :=
  let here := s.porter.filter fun m => (s.group? m.group).isSome
  let s := { s with porter := s.groups.foldl (fun q (e : Nat × Group) => triggerGroup s.nextId e.1 e.2 q) here }
  { s with groups := s.groups.map fun (e : Nat × Group) => (e.1, e.2.restored) }

/-- Whether the porter works for a group: the handler stops it, but for what a restore into the handler leaves, until that
faults (R117, R169, R170). -/
def Group.portered (g : Group) : Bool :=
  (!g.sup || (g.restoring && g.porterFault.isNone)) && g.porterTrap.isNone && g.phase != .stopped && g.phase != .ended

/-- The move that a group's core serves next, where it is the group's own. -/
def nextMove (s : State) (gid : Nat) : Option Move := do
  let place ← (s.group? gid).bind (placeOfGroup s)
  let m ← s.porter.find? fun m => match s.group? m.group with
    | some g => g.portered && placeOfGroup s g == some place
    | none => false
  if m.group = gid then some m else none

/-- The frame of the porter: the checks of a group's backing accesses. -/
def State.who? (s : State) (gid : Nat) : Option Who := do
  let g ← s.group? gid
  let t ← s.team? g.team
  let l ← s.launch? t.launch
  pure ⟨gid, g, t, l, ctxStackBase (ctxEntry s l.ctx)⟩

/-- The move is done. -/
def State.served (s : State) (m : Move) : State :=
  ({ s with porter := s.porter.erase m }).modGroup m.group fun g => { g with porterFault := none }

/-- A porter move over some backing bytes: its fault, a wait for an access that the group made to the bytes before the move
was triggered (R168), or its effect on their locations. -/
def porterMoveAt (s : State) (w : Who) (m : Move) (write : Bool) (ptr : Word) (len : Nat) (act : State → List Nat → Option State) : Option State :=
  let s := w.fill s (Piece.bytes { lane := 0, ptr, len })
  match porterLocs s w [if write then .store else .load] ptr len with
  | .error x => some (s.setGroup w.gid { w.g with porterTrap := some x, porterFault := some (m.kind, m.off) })
  | .ok locs =>
    if locs.any (busyLocs s w.gid m.since).contains || coreWaits s w.t.place w.gid locs then none
    else match (if write then cowPages s locs else []) with
      | [] => act (s.served m) locs
      | xs => some (wantCopies s xs)

/-- The poison that the porter meets in some backing bytes, as poison-consumed: the lanes are those of a granule's
registers; a token belongs to none (R351, R370, R407). -/
def backingPoison (s : State) (w : Who) (window : Bool) (ptr : Word) (locs : List Nat) : Option Trap :=
  let bad := locs.zipIdx.filterMap fun (p, i) => (byteTag s.fab w.t.place false (forwarded s.fab p)).map fun t =>
    (if window then i / 4 % w.g.width else 0, (ptrAdd ptr i).toNat / 32 * 32, t)
  (poisonTrap w bad).map fun x => { x with mask := if window then x.mask else none, info := x.info ||| BitVec.ofNat 23 (2 ^ 14) }

/-- A backing read: poison is consumed as R370 says. -/
def porterRead (s : State) (w : Who) (m : Move) (ptr : Word) (len : Nat) (use : List Byte → State → State) : Option State :=
  porterMoveAt s w m false ptr len fun s' locs =>
    match backingPoison s w (m.kind == .refill) ptr locs with
    | some x => some (s.setGroup w.gid { w.g with porterTrap := some x, porterFault := some (m.kind, m.off) })
    | none =>
      let (bs, s) := coreRead s' w.t.place w.gid locs
      some (use bs s)

def porterWrite (s : State) (w : Who) (m : Move) (ptr : Word) (bytes : List Byte) (after : Group → Group) : Option State :=
  porterMoveAt s w m true ptr bytes.length fun s locs =>
    some ((coreWrite s w.t.place w.gid locs bytes).modGroup w.gid fun g => (after g).markStack ptr bytes.length)

/-- A counted instruction has yet to write a register of the granule at an offset: it stays resident until then (R126). -/
def granuleAwaited (s : State) (gid off : Nat) : Bool :=
  s.destBusy gid s.nextId ((List.range 8).map fun i => 1016 + off + i)

/-- PORTER_SPILL: the lowest resident granule goes to its backing address, or WSYNC.WB copies its next granule there. -/
def porterSpill (gid : Nat) (s : State) : Option State := do
  let m ← nextMove s gid
  let w ← s.who? gid
  let g := w.g
  match m.kind with
  | .spill => if granuleAwaited s gid m.off then none else porterWrite s w m (g.backing m.off) (g.windowBytes m.off 8) fun g => { g.forget m.off 8 with resLo := m.off + 8 }
  | .writeBack => porterWrite s w m (g.backing m.off) (g.windowBytes m.off 8) fun g => { g with wb := some (m.off + 8) }
  | _ => none

/-- PORTER_REFILL: the highest spilled granule comes back. -/
def porterRefill (gid : Nat) (s : State) : Option State := do
  let m ← nextMove s gid
  let w ← s.who? gid
  match m.kind with
  | .refill =>
    porterRead s w m (w.g.backing m.off) (32 * w.g.width) fun bs s =>
      s.modGroup gid fun g => { g.setWindow m.off 8 bs with resLo := m.off }
  | _ => none

/-- TOKEN_SPILL: the outermost resident token goes to the backing area. -/
def tokenSpill (gid : Nat) (s : State) : Option State := do
  let m ← nextMove s gid
  let w ← s.who? gid
  let t ← w.g.tokens.getLast?
  match m.kind with
  | .tokenSpill =>
    porterWrite s w m (w.g.tokenPtr m.off) (leBytes 32 t.image.toNat) fun g =>
      { g with tokens := g.tokens.dropLast, spilledTok := g.spilledTok + 1 }
  | _ => none

/-- TOKEN_READBACK: the newest spilled token comes back; a malformed entry ends the launch as a restore of it would
(R114; log entry 13). -/
def tokenReadback (gid : Nat) (s : State) : Option State := do
  let m ← nextMove s gid
  let w ← s.who? gid
  match m.kind with
  | .tokenReadback =>
    porterRead s w m (w.g.tokenPtr m.off) 32 fun bs s =>
      match Token.ofImage (BitVec.ofNat 256 (leNat bs)) with
      | some t => s.modGroup gid fun g => { g with tokens := g.tokens ++ [t], spilledTok := m.off }
      | none => doubleFault gid w.g w.t w.l 0 s
  | _ => none

/-- The backing bytes of a triggered move. -/
def Move.range (m : Move) (g : Group) : Word × Nat :=
  match m.kind with
  | .tokenSpill | .tokenReadback => (g.tokenPtr m.off, 32)
  | _ => (g.backing m.off, 32 * g.width)

def Move.writes (m : Move) : Bool :=
  match m.kind with
  | .refill | .tokenReadback => false
  | _ => true

/-- Porter moves that the group's accesses issued from now on come after (R168). The porter stands still under the handler
and in a fault: the accesses then go before its retry. -/
def movesMeet (s : State) (w : Who) (locs : List Nat) (write : Bool) : Bool :=
  w.g.portered && s.porter.any fun m => m.group == w.gid && (write || m.writes) &&
    match porterLocs s w [.load] (m.range w.g).1 (m.range w.g).2 with
    | .ok ls => ls.any locs.contains
    | .error _ => false

/-! ## Waiting on the porter (R161, R165, R169) -/

/-- An instruction waits on the porter, or takes the fault that the porter met; what it asked of the porter stays asked, so
that the granule is retried after RFT (R169). -/
def waitPorter {α : Type} (c : Ctx) (s : State) : Res α :=
  match c.g.porterTrap with
  | some x => .error (.trapIn x (s.modGroup c.gid fun g => { g with porterTrap := none }))
  | none => .error (.wait s)

/-- The innermost token, once it is resident. -/
def innermost (c : Ctx) (s : State) : Res (Option Token) :=
  match c.g.tokens with
  | t :: _ => .ok (some t)
  | [] => if c.g.spilledTok = 0 then .ok none else waitPorter c s

/-- Spilled token j, read by an instruction; `both` checks its page for writing too (R161). -/
def readSpilled (c : Ctx) (both : Bool) (j : Nat) (s : State) : Res (Token × State) :=
  let w := c.who s
  let ptr := c.g.tokenPtr j
  let s := w.fill s (Piece.bytes { lane := 0, ptr, len := 32 })
  match porterLocs s w (if both then [.load, .store] else [.load]) ptr 32 with
  | .error x => .error (.trap x)
  | .ok locs =>
    let copies := if both then cowPages s locs else []
    if locs.any (busyLocs s c.gid s.nextId).contains || coreWaits s c.t.place c.gid locs then .error (.wait s)
    else if !copies.isEmpty then .error (.wait (wantCopies s copies))
    else match backingPoison s w false ptr locs with
      | some x => .error (.trap x)
      | none =>
        let (bs, s) := coreRead s c.t.place c.gid locs
        match Token.ofImage (BitVec.ofNat 256 (leNat bs)) with
        | some t => .ok (t, s)
        | none => .error (.moved (doubleFault c.gid c.g c.t c.l 0 s))

/-- Write spilled token j back after its mask has changed (R161). -/
def writeSpilled (c : Ctx) (j : Nat) (t : Token) (s : State) : State :=
  match porterLocs s (c.who s) [.store] (c.g.tokenPtr j) 32 with
  | .ok locs => coreWrite s c.t.place c.gid locs (leBytes 32 t.image.toNat)
  | .error _ => s

/-- Tokens that are spilled once a push has settled, whatever the porter has done yet (R161, R167). -/
def Group.spilledAfterPush (g : Group) : Nat := g.tokens.length + g.spilledTok + 1 - 16

/-- Push a token that is no CALL's: the limit is checked where the push spills one (R167). -/
def pushToken (c : Ctx) (t : Token) (s : State) : Res State :=
  let g := c.g
  if 0 < g.spilledAfterPush ∧ g.wlim.toNat < g.wbp.toNat + 4 * g.width * g.top + 32 * g.spilledAfterPush then trap Cause.windowOverflow
  else if g.tokens.length < 16 then .ok (s.setGroup c.gid { g with tokens := t :: g.tokens, wantTok := false })
  else waitPorter c (s.setGroup c.gid { g with wantTok := true })

/-! ## Paths (R158) -/

/-- The group ends: LIVE is 0, or no path is left (R158, R159); its queued flits go, its credits return
and its streams close (R291, R336, R337). -/
def Group.finish (g : Group) : Group := { g with phase := .ended, exec := 0, rx := [], tx := [], streams := [] }

/-- A popped CALL token's effect on the window and the lanes (R165, R183). Resident registers end at the new top. -/
def Group.returnEffect (g : Group) (t : Token) (rest : List Token) : Group :=
  let k := 8 * t.slide.toNat
  let g := g.forget (g.top - k) k
  { g with tokens := rest, depth := g.depth - 1, base := g.base - k, resLo := min g.resLo (g.top - k),
           exec := (g.exec ||| t.pending) &&& g.live }

/-- `path_end` over some tokens, innermost first: whether a path was found, and where the group then stands. -/
def pathEnd (r : Region) (tick : Nat) : List Token → Group → Bool × Group
  | [], g => (false, { g with tokens := [] })
  | t :: rest, g =>
    match t.kind with
    | .cond =>
      if t.pending ≠ 0 then
        let t' := if t.held then { t with pending := 0, join := t.saved, saved := 0, held := false } else { t with pending := 0 }
        (true, { g with exec := t.pending, tokens := t' :: rest }.resume r t.join tick)
      else if t.cont ≠ 0 then (true, { g with tokens := t :: rest }.resume r t.join tick)
      else pathEnd r tick rest { g with tokens := rest }
    | .loop => (true, { g with tokens := t :: rest }.resume r t.join tick)
    | .call =>
      let g := g.returnEffect t rest
      if g.exec ≠ 0 then (true, g.resume r t.join tick) else pathEnd r tick rest g

/-- `path_end` past the resident tokens: spilled ones are read one by one, as far as the search goes (R161); `new` is one
whose mask the instruction changes. R161 gives such reads to BRK, CONT and EXIT; a JOIN or RET that ends a path makes them too,
with the checks of a read. DEDUCED (log entry 99). -/
def endPath (c : Ctx) (new : Option (Nat × Token)) : Nat → Group → State → Res State
  | n, g, s =>
    match pathEnd c.r s.tick g.tokens g with
    | (true, g) => .ok (s.setGroup c.gid { g with spilledTok := n })
    | (false, g) =>
      match n with
      | 0 => .ok (s.setGroup c.gid { g with spilledTok := 0 }.finish)
      | k + 1 => do
        let (t, s) ← match new.filter fun x => x.1 == k with
          | some x => .ok (x.2, s)
          | none => readSpilled c false k s
        endPath c new k { g with tokens := [t] } s

/-- Where a group goes with the lanes left to it: to `a`, or through `path_end`. -/
def settlePaths (c : Ctx) (new : Option (Nat × Token)) (g : Group) (a : BitVec 32) (s : State) : Res State :=
  if g.exec ≠ 0 then .ok (s.setGroup c.gid (g.goto a s.tick)) else endPath c new g.spilledTok g s

end Sys2Proof.Machine
end

