-- ==== Sys2Proof/Machine/Access.lean ====
section
/-! DEFINITION. Forming memory accesses: operands, addresses, elements of records, the checks of R40, R267 and R268, and
the conversion stage on loads and stores (R36 to R40, R265 to R268, R271, R272). -/
namespace Sys2Proof.Machine

/-! ## Operands (R130, R263) -/

/-- What the M-format instructions and atomics share. `once` is true for the uniform forms. -/
structure Form where
  addr : Spec
  off : Int
  recIx : Nat
  size : Nat
  req : Req
  hint : Hint
  ord : Order
  scope : Scope
  once : Bool
  deriving DecidableEq, Repr

def MForm.form (f : MForm) (once : Bool) : Form :=
  ⟨f.addr, f.off.toInt, f.recIx.toNat, sizeBytes f.size, f.req, f.hint, f.ord, f.scope, once⟩

def AForm.form (f : AForm) (once : Bool) : Form :=
  ⟨f.addr, f.off.toInt, f.recIx.toNat, sizeBytes f.size, f.req, f.hint, f.ord, f.scope, once⟩

/-- The form of a memory instruction. -/
def formOf : Instr → Option Form
  | .ld f | .st f | .ldfe f | .stfe f | .pref f | .flushl f | .invl f | .subscr f | .mst f => some (MForm.form f false)
  | .vdec f | .venc f => some (MForm.form f true)
  | .ldu f | .stu f | .bufstRecord f | .bufstBuffer f => some (MForm.form f true)
  | .atom f => some (AForm.form f false)
  | .atomu f => some (AForm.form f true)
  | .ctxsv a _ => some ⟨a, 0, 0, 8, .w, .page, .relaxed, .none, true⟩
  | _ => none

def Form.strong (f : Form) : Bool := f.scope != .none

/-- A strong access at reticle scope or wider: it is performed at the home (R318). -/
def Form.atHome (f : Form) : Bool := Scope.wide f.scope

def Form.acquires (f : Form) : Bool := f.ord == .acquire || f.ord == .acqRel
def Form.releases (f : Form) : Bool := f.ord == .release || f.ord == .acqRel

/-- The lanes that act: lane 0 once, or the active lanes. -/
def Form.acting (f : Form) (g : Group) : List Nat := if f.once then [0] else lanes g.exec

/-- The address register: an s register, or a v register (an even pair with record 0). -/
def Form.addrOk (f : Form) (g : Group) : Bool :=
  match f.addr with
  | .s _ => true
  | .v n => !f.once && vOk g (f.recIx == 0) n.val
  | _ => false

/-- A data register of `size` bytes: an s register in the uniform forms, else v registers aligned to their number. -/
def dataOk (g : Group) (once : Bool) (size : Nat) (d : Spec) : Bool :=
  match d with
  | .s _ => once
  | .v n => !once && n.val % max 1 (size / 4) == 0 && (!g.sup || n.val < 48)
  | _ => false

/-- The data of a lane, `size` bytes across its registers, the lowest first (R266). -/
def readData (g : Group) (d : Spec) (size l : Nat) : Nat :=
  match d with
  | .s n => (g.readS n.val).toNat % 2 ^ (8 * size)
  | .v n => ((List.range (max 1 (size / 4))).foldl (fun a i => a + (g.readV (n.val + i) l).toNat * 2 ^ (32 * i)) 0) % 2 ^ (8 * size)
  | _ => 0

/-- Write the data of a lane; `sx` copies its top bit upwards (R265, R266, R273). -/
def writeData (g : Group) (d : Spec) (size l : Nat) (sx : Bool) (v : Nat) : Group :=
  match d with
  | .s n => g.writeS n.val (BitVec.ofNat 64 (if sx then wrapInt 64 (sext (8 * size) v) else v % 2 ^ (8 * size)))
  | .v n =>
    if size < 4 then g.writeV n.val l (BitVec.ofNat 32 (if sx then wrapInt 32 (sext (8 * size) v) else v % 2 ^ (8 * size)))
    else (List.range (size / 4)).foldl (fun g i => g.writeV (n.val + i) l (BitVec.ofNat 32 (v / 2 ^ (32 * i)))) g
  | _ => g

/-! ## Lanes and elements (R38, R39, R265) -/

/-- One lane's access: where it starts (a generic pointer with record 0, else the first element number) and the format
of its page with record 0. -/
structure LanePlan where
  lane : Nat
  start : Int
  fmt : Option Fmt := none
  deriving DecidableEq, Repr

/-- An element or, in a raw access, the lane's bytes: its bits in the lane's data, its number, and the bytes that hold it. -/
structure Elem where
  lane : Nat
  pos : Nat
  n : Int
  ptr : Word
  bit : Nat
  len : Nat
  deriving DecidableEq, Repr

/-- Elements a lane holds: floor(8·size / register width). -/
def perLane (r : Rec) (size : Nat) : Nat := 8 * size / r.reg.bits

/-- The register format a formatted page gives an access of `size` bytes (R37, R265). -/
def pageReg (f : Fmt) (size : Nat) : Option Fmt :=
  if f.isInteger && !f.isShift && !f.isInterchange && !f.isAsym then (if size = 4 then some .i32 else none)
  else if size = 4 then some .f32 else if size = 8 then some .f64 else none

/-- The record a lane's access goes through; `none` is raw. -/
def LanePlan.through (p : LanePlan) (f : Form) (record : BitVec 320) : Option Rec :=
  if f.recIx ≠ 0 then some (Rec.ofBits f.recIx record)
  else do
    let fm ← p.fmt
    let reg ← pageReg fm f.size
    pure { Rec.implicit fm reg with base := BitVec.ofInt 64 p.start &&& 0xFF00000000000000 }

/-- Element n of a record. -/
def elemOfRec (r : Rec) (lane pos : Nat) (n : Int) : Elem :=
  let b := r.elemBit n
  let width := if r.il = 1 then 8 * ((r.stored.bits + 7) / 8) else r.stored.bits
  let bit := (b % 8).toNat
  ⟨lane, pos, n, ptrAdd r.base (b / 8), bit, (bit + width + 7) / 8⟩

/-- The elements of a lane's access. -/
def LanePlan.elems (p : LanePlan) (f : Form) (record : BitVec 320) : List Elem :=
  match p.through f record with
  | none => [⟨p.lane, 0, 0, BitVec.ofInt 64 p.start, 0, f.size⟩]
  | some r =>
    if f.recIx = 0 then
      [elemOfRec r p.lane 0 (8 * (ptrAddr (BitVec.ofInt 64 p.start) : Int) / (r.stored.bits : Int))]
    else (List.range (perLane r f.size)).map fun k => elemOfRec r p.lane (k * r.reg.bits) (p.start + k)

/-- The scale entry of element n: its pointer and length. -/
def scaleOf (r : Rec) (n : Int) : Option (Word × Nat) :=
  if r.stored.hasScale then some (ptrAdd r.scale (r.scaleOff n), r.stored.scaleBytes) else none

/-- Where each acting lane starts. -/
def Form.starts (f : Form) (g : Group) (reg : Nat) : List (Nat × Int) :=
  (f.acting g).map fun (l : Nat) =>
    let uni : Bool := match f.addr with | .s _ => true | _ => false
    let step : Int := if uni then (l : Int) else 0
    let v : Word := match f.addr with
      | .s n => g.readS n.val
      | .v n => if f.recIx = 0 then BitVec.ofNat 64 (g.readPair n.val l) else (g.readV n.val l).zeroExtend 64
      | _ => 0
    if f.recIx = 0 then (l, ((ptrAdd v (f.off + step * f.size)).toNat : Int))
    else (l, (v.toNat % 2 ^ 32 : Nat) + f.off + step * (8 * f.size / reg : Nat))

/-! ## The checks before translation (R40, R267, R268) -/

/-- Checks 1 to 3 of R40. -/
def recordChecks (k : Access) (b : BitVec 320) : Res Unit :=
  let r := Rec.ofBits 1 b
  if !recordOk b then illegal
  else if (k.reads && r.access == 2) || (k.writes && r.access == 1) then trap Cause.protection
  else if r.stored.hasScale && r.scale == 0 then trap Cause.scaleSourceAbsent
  else .ok ()

/-- A record a strong access of `size` bytes may go through (R268). -/
def strongRec (r : Rec) (size : Nat) : Bool :=
  r.stored == r.reg && !r.stored.hasScale && r.il ≤ 1 && r.stored.bits == 8 * size

/-- What issue makes of an access: its record and its lanes. -/
structure Plan where
  form : Form
  record : BitVec 320
  lanes : List LanePlan

def Plan.elems (p : Plan) : List Elem := p.lanes.flatMap fun l => l.elems p.form p.record

/-- A record file entry; slots that hold nothing are zero (R43). -/
def Team.fileRec (t : Team) (i : Nat) : BitVec 320 := SMap.get 0 t.records i

/-- The format of the page of each lane of a record-0 access (R37). -/
def pageFormats (w : Who) (s : State) (k : Access) (f : Form) (starts : List (Nat × Int)) : List (Option Fmt) :=
  if f.recIx ≠ 0 then []
  else starts.map fun x => ((w.leafOf s k (BitVec.ofInt 64 x.2).toNat).filter Leaf.formatted).map Leaf.format

/-- Check 3 of R40 through the implicit record, which has no scale base. -/
def scalesPresent (fmts : List (Option Fmt)) : Res Unit :=
  if fmts.any fun x => (x.map Fmt.hasScale).getD false then trap Cause.scaleSourceAbsent else .ok ()

/-- Checks 1 to 4 of R267 and check 4 of R40: the plan of an access. The page's format is known before its lanes can be
checked against it. -/
def planAccess (c : Ctx) (k : Access) (f : Form) (own : Plan → Res Unit) (s : State) : Res Plan := do
  guardOp (f.addrOk c.g)
  let record := c.t.fileRec f.recIx
  if f.recIx ≠ 0 then recordChecks k record
  let r := Rec.ofBits f.recIx record
  if f.recIx ≠ 0 && perLane r f.size == 0 then illegal
  let w := c.who s
  let starts := f.starts c.g (max 1 r.reg.bits)
  let pages := pageFormats w s k f starts
  -- records of formatted pages: scales in check 2, sizes and strong accesses in check 3
  scalesPresent pages
  let ls := starts.zipIdx.map fun (x, i) =>
    ({ lane := x.1, start := x.2, fmt := if k == .flush then none else (pages[i]?).join } : LanePlan)
  let p : Plan := ⟨f, record, ls⟩
  let fmts := ls.filterMap (·.fmt)
  guardOp (fmts.all fun fm => match pageReg fm f.size with
    | none => false
    | some reg => !f.strong || fm == reg)
  if f.strong && f.recIx ≠ 0 && !strongRec r f.size then illegal
  own p
  -- alignment
  let off := ls.filterMap fun x =>
    if f.recIx = 0 then
      let a := BitVec.ofInt 64 x.start
      let bad := a.toNat % f.size ≠ 0 || (match x.fmt with | some fm => 8 * ptrAddr a % fm.bits != 0 | none => false)
      if bad then some a else none
    else if f.strong then ((x.elems f record).find? fun e => e.ptr.toNat % f.size ≠ 0).map (·.ptr)
    else none
  match off with
  | a :: _ => trap Cause.alignment (reportAddr w.stackBase c.g.stackSlot a.toNat)
  | [] => .ok ()
  -- the record's extent
  if f.recIx ≠ 0 then
    let out := p.elems.filterMap fun e =>
      let b := r.elemBit e.n
      if b < 0 then some e.ptr
      else if 8 * (r.extent : Int) < b + r.stored.bits then some (ptrAdd r.base (max b (8 * (r.extent : Int)) / 8)) else none
    match out with
    | a :: _ => trap Cause.regionBounds (reportAddr w.stackBase c.g.stackSlot a.toNat)
    | [] => .ok ()
  .ok p

/-- The pieces that R230 checks: the elements' bytes, and each scale entry once, as any other global access of the record
(R39); a scale entry is no part of its lane's run of elements. -/
def Plan.pieces (p : Plan) : List Piece :=
  let use : FmtUse := if p.form.recIx = 0 then .page else let r := Rec.ofBits 1 p.record; .record r.stored r.il
  let data := p.elems.map fun e => ({ lane := e.lane, ptr := e.ptr, len := e.len, fmt := use } : Piece)
  let r := Rec.ofBits p.form.recIx p.record
  let scales := if p.form.recIx = 0 then [] else
    (p.elems.filterMap fun e => (scaleOf r e.n).map fun x => ({ lane := e.lane, ptr := x.1, len := x.2, fmt := use, apart := true } : Piece)).dedup
  data ++ scales

/-! ## The conversion stage on loads (R271) -/

/-- The bits of an element among some bytes. -/
def elemBits (e : Elem) (width : Nat) (get : Nat → Byte) : Nat :=
  leNat ((List.range e.len).map fun (i : Nat) => get ((ptrAdd e.ptr i).toNat)) / 2 ^ e.bit % 2 ^ width

/-- The value of a scale entry. -/
def scaleBits (r : Rec) (n : Int) (get : Nat → Byte) : Nat :=
  match scaleOf r n with
  | some (p, k) => leNat ((List.range k).map fun (i : Nat) => get ((ptrAdd p i).toNat))
  | none => 0

/-- A lane's data after conversion, or the trap that its elements meet. -/
structure Loaded where
  data : Nat
  fp : BitVec 7 := 0
  subst : Bool := false

/-- A record whose loads convert nothing (R67). -/
def Rec.plain (r : Rec) : Bool := r.stored == r.reg && !r.stored.hasScale

/-- `load_element` for each element of a lane. -/
def loadLane (w : Who) (p : Plan) (x : LanePlan) (get : Nat → Byte) : Except Trap Loaded :=
  let at_ (a : Word) : Trap := { cause := Cause.illegalOperand, addr := reportAddr w.stackBase w.g.stackSlot a.toNat }
  match x.through p.form p.record with
  | none => .ok ⟨leNat ((List.range p.form.size).map fun (i : Nat) => get ((ptrAdd (BitVec.ofInt 64 x.start) i).toNat)), 0, false⟩
  | some r =>
    (x.elems p.form p.record).foldl (fun acc e => do
      let a ← acc
      let bits := elemBits e r.stored.bits get
      if r.plain then .ok { a with data := a.data + bits * 2 ^ e.pos }
      else match decodeScaled r.stored bits (scaleBits r e.n get) with
        | none => .error (at_ (((scaleOf r e.n).map (·.1)).getD 0))
        | some v => match convert r r.reg v.val with
          | none => .error (at_ e.ptr)
          | some cv => .ok ⟨a.data + cv.pat * 2 ^ e.pos, a.fp ||| v.fp ||| cv.fp, a.subst || cv.subst⟩) (.ok ⟨0, 0, false⟩)

/-- Elements that are not fetched: their scale entry already gives their value (R56, R57). -/
def unfetched (r : Rec) (n : Int) (get : Nat → Byte) : Bool :=
  (r.stored.isShift && scaleBits r n get == 0x80) || (r.stored.isInterchange && scaleBits r n get == 0xFF)

/-- Whether a load's conversion may trap, so that it waits in mid-clause (R271). -/
def Plan.precise (p : Plan) : Bool :=
  let r := Rec.ofBits p.form.recIx p.record
  p.form.recIx ≠ 0 && (r.policy == 1 || r.stored.isAsym)

/-! ## Stores (R272) -/

/-- A byte a store writes: its generic address, its value, the bits written. -/
abbrev Put := Nat × Byte × Byte

/-- The bytes of a pattern at an element. -/
def putElem (r : Option Rec) (e : Elem) (v : Nat) : List Put :=
  let width : Nat := match r with
    | some r => if r.il = 1 then 8 * ((r.stored.bits + 7) / 8) else r.stored.bits
    | none => 8 * e.len
  (List.range e.len).map fun (i : Nat) =>
    ((ptrAdd e.ptr i).toNat, BitVec.ofNat 8 (v * 2 ^ e.bit / 2 ^ (8 * i)), BitVec.ofNat 8 ((2 ^ width - 1) * 2 ^ e.bit / 2 ^ (8 * i)))

/-- What a store writes, by lane, with the flags of its conversions. -/
structure Stored where
  puts : List (Nat × List Put)
  fp : BitVec 7 := 0
  subst : Bool := false

/-- The value an element's register pattern stands for. -/
def regValue (r : Rec) (data pos : Nat) : FVal := decodeElem r.reg (data / 2 ^ pos % 2 ^ r.reg.bits)

/-- A store that carries no scale. -/
def storePlain (w : Who) (p : Plan) (data : Nat → Nat) : Except Trap Stored :=
  p.lanes.foldl (fun acc x => do
    let a ← acc
    let r := x.through p.form p.record
    let one ← (x.elems p.form p.record).foldl (fun acc e => do
      let (ps, fp, sb) ← acc
      match r with
      | none => .ok (ps ++ putElem none e (data x.lane), fp, sb)
      | some r =>
        if r.plain then .ok (ps ++ putElem (some r) e (data x.lane / 2 ^ e.pos % 2 ^ r.reg.bits), fp, sb)
        else match convert r r.stored (regValue r (data x.lane) e.pos) with
          | none => .error { cause := Cause.illegalOperand, addr := reportAddr w.stackBase w.g.stackSlot e.ptr.toNat }
          | some cv => .ok (ps ++ putElem (some r) e cv.pat, fp ||| cv.fp, sb || cv.subst)) (.ok ([], 0, false))
    .ok ⟨a.puts ++ [(x.lane, one.1)], a.fp ||| one.2.1, a.subst || one.2.2⟩) (.ok ⟨[], 0, false⟩)

/-- A block-scaled store: whole blocks in increasing order. -/
def storeBlocks (w : Who) (p : Plan) (data : Nat → Nat) : Except Trap Stored :=
  let r := Rec.ofBits p.form.recIx p.record
  let blk : Int := r.stored.block
  let es := p.elems
  let blocks := ((es.map fun e => e.n / blk).dedup).insertionSort (· ≤ ·)
  let need (b : Int) : List (Option Elem) := (List.range r.stored.block).map fun (i : Nat) => es.reverse.find? fun e => e.n == b * blk + i
  if blocks.any fun b => (need b).any Option.isNone then .error { cause := Cause.illegalOperand }
  else
    blocks.foldl (fun acc b => do
      let a ← acc
      let els := (need b).filterMap id
      match encodeBlock r (els.map fun e => regValue r (data e.lane) e.pos) with
      | .error i =>
        .error { cause := Cause.illegalOperand,
                 addr := reportAddr w.stackBase w.g.stackSlot (((els[i]?).map fun e => e.ptr.toNat).getD 0) }
      | .ok k =>
        let entry := match scaleOf r (b * blk) with
          | some (q, n) => (leBytes n k.entry).zipIdx.map fun (v, i) => ((ptrAdd q i).toNat, v, (0xFF : Byte))
          | none => []
        let puts := entry ++ (els.zip k.elems).flatMap fun (e, v) => putElem (some r) e v
        .ok ⟨a.puts ++ [(((els.head?).map (·.lane)).getD 0, puts)], a.fp ||| k.fp, a.subst || k.subst⟩) (.ok ⟨[], 0, false⟩)

/-- `store_elements` (R272). -/
def storeData (w : Who) (p : Plan) (data : Nat → Nat) : Except Trap Stored :=
  if p.form.recIx ≠ 0 ∧ (Rec.ofBits p.form.recIx p.record).stored.hasScale then storeBlocks w p data else storePlain w p data

/-- A block-scaled store that names only part of a block is an illegal operand before any translation (R267). -/
def wholeBlocks (p : Plan) : Bool :=
  let r := Rec.ofBits p.form.recIx p.record
  if p.form.recIx ≠ 0 && r.stored.hasScale then
    let blk : Int := r.stored.block
    let ns := p.elems.map (·.n)
    ns.all fun n => (List.range r.stored.block).all fun (i : Nat) => ns.contains (n / blk * blk + i)
  else true

/-- Where two lanes write the same bits the higher lane's remain (R269): drop the bits that a later entry writes. Bytes are
compared by where they lie. A scratchpad byte that loses all its bits so is still written twice, and its buffer counts it
(R239). -/
def dropOverwritten (at_ : Nat → Nat) : List (Nat × List Put) → List (Nat × List Put)
  | [] => []
  | (l, ps) :: rest =>
    let later := rest.flatMap (·.2)
    let cut (x : Put) : Put := (x.1, x.2.1, later.foldl (fun m y => if at_ y.1 = at_ x.1 then m &&& ~~~y.2.2 else m) x.2.2)
    (l, (ps.map cut).filter fun x => x.2.2 != 0 || isSpad (at_ x.1)) :: dropOverwritten at_ rest

end Sys2Proof.Machine
end

