-- ==== Sys2Proof/Machine/Integer.lean ====
section
/-! DEFINITION. The integer instructions (R203 to R210). -/
namespace Sys2Proof.Machine

/-- An operation on each element of packed operands; flags are ORed (R199). -/
def perElem (t : Ty) (op : Nat → Nat → Nat → Flagged Nat) (a b c : Nat) : Flagged Nat :=
  let n := tyBits t
  let at_ (x i : Nat) : Nat := x / 2 ^ (i * n) % 2 ^ n
  (List.range (tyElems t)).foldl (fun r i =>
    let e := op (at_ a i) (at_ b i) (at_ c i)
    ⟨r.val + e.val * 2 ^ (i * n), r.fp ||| e.fp⟩) ⟨0, 0⟩

/-- The shape of d, a, b of the instruction's own type. -/
def shape2 (t : Ty) : Shape := ⟨t.is64, some t, some t, none⟩
def shape1 (t : Ty) : Shape := ⟨t.is64, some t, none, none⟩
def shape3 (t : Ty) : Shape := ⟨t.is64, some t, some t, some t⟩

/-- A binary operation over `ival`, fitted (R204). -/
def arith2 (op : Int → Int → Int) (f : OForm) : Ctx → State → Res State :=
  elementwise (shape2 f.ty) f (perElem f.ty fun a b _ => fit f.ty f.sat (op (ival f.ty a) (ival f.ty b)))

/-- A bitwise operation. -/
def logic2 (op : Nat → Nat → Nat) (f : OForm) : Ctx → State → Res State :=
  elementwise (shape2 f.ty) f fun a b _ => .pure (op a b % 2 ^ tyBits f.ty)

/-- Shifts: B is 32 bits whatever the type (R205). -/
def shift2 (op : Nat → Nat → Nat → Nat) (f : OForm) : Ctx → State → Res State :=
  elementwise ⟨f.ty.is64, some f.ty, some .n32, none⟩ f fun a b _ => .pure (op (tyBits f.ty) a b)

def execAdd (f : OForm) : State → Host.Outcome State Fault Refusal := runInstr (arith2 (· + ·) f)
def execSub (f : OForm) : State → Host.Outcome State Fault Refusal := runInstr (arith2 (· - ·) f)
def execMul (f : OForm) : State → Host.Outcome State Fault Refusal := runInstr (arith2 (· * ·) f)

/-- MULH: the high half of the exact product. -/
def execMulh (f : OForm) : State → Host.Outcome State Fault Refusal :=
  let n := tyBits f.ty
  runInstr (elementwise (shape2 f.ty) f fun a b _ => .pure (patOf (2 * n) (ival f.ty a * ival f.ty b) / 2 ^ n))

/-- MAD: fitted after the product and after the sum. -/
def execMad (f : OForm) : State → Host.Outcome State Fault Refusal :=
  runInstr (elementwise (shape3 f.ty) f fun a b c =>
    let p := fit f.ty f.sat (ival f.ty a * ival f.ty b)
    let r := fit f.ty f.sat (ival f.ty p.val + ival f.ty c)
    ⟨r.val, p.fp ||| r.fp⟩)

def execAnd (f : OForm) : State → Host.Outcome State Fault Refusal := runInstr (logic2 (· &&& ·) f)
def execOr (f : OForm) : State → Host.Outcome State Fault Refusal := runInstr (logic2 (· ||| ·) f)
def execXor (f : OForm) : State → Host.Outcome State Fault Refusal := runInstr (logic2 (· ^^^ ·) f)

/-- a and not b. -/
def execAndn (f : OForm) : State → Host.Outcome State Fault Refusal := runInstr (logic2 (fun a b => a ^^^ (a &&& b)) f)

def execShl (f : OForm) : State → Host.Outcome State Fault Refusal :=
  runInstr (shift2 (fun n a k => if k < n then a * 2 ^ k % 2 ^ n else 0) f)

def execShr (f : OForm) : State → Host.Outcome State Fault Refusal :=
  runInstr (shift2 (fun n a k => if k < n then a % 2 ^ n / 2 ^ k else 0) f)

def execSar (f : OForm) : State → Host.Outcome State Fault Refusal :=
  runInstr (shift2 (fun n a k => patOf n (sext n a / (2 ^ min k (n - 1) : Nat))) f)

def execRot (f : OForm) : State → Host.Outcome State Fault Refusal :=
  runInstr (shift2 (fun n a k => (a * 2 ^ (k % n) % 2 ^ n) ||| (a % 2 ^ n / 2 ^ (n - k % n))) f)

def execMin (f : OForm) : State → Host.Outcome State Fault Refusal :=
  runInstr (elementwise (shape2 f.ty) f (perElem f.ty fun a b _ => .pure (if ival f.ty b < ival f.ty a then b else a)))

def execMax (f : OForm) : State → Host.Outcome State Fault Refusal :=
  runInstr (elementwise (shape2 f.ty) f (perElem f.ty fun a b _ => .pure (if ival f.ty a < ival f.ty b then b else a)))

/-- SEL's mask operand: an s register, EXEC or a sign-extended integer constant in the vector form; in the uniform form
any source, read as 64 bits (R206). -/
def selMask (g : Group) (uni : Bool) (x : Spec) : Bool :=
  match x with
  | .s _ | .exec | .int _ | .neg _ => true
  | .grouplanes | .fp _ => uni
  | .rxq _ => uni && !g.sup
  | _ => false

def selBody (f : OForm) (c : Ctx) (s : State) : Res State := do
  guardOp (dstOk c.g f.uni f.ty.is64 f.d && srcOk c.g f.uni f.ty.is64 f.a && srcOk c.g f.uni f.ty.is64 f.b
    && selMask c.g f.uni f.c)
  let x ← readSources c f ⟨f.ty.is64, some f.ty, some f.ty, some .n64⟩ s
  if f.uni then writeUniform c f.d (if x.c 0 ≠ 0 then x.a 0 else x.b 0) x.s
  else match f.d with
    | .v n => .ok (x.s.modGroup c.gid fun g =>
        g.writeLanes f.ty.is64 n.val (lanes c.g.exec) fun l => if (x.c 0) / 2 ^ l % 2 = 1 then x.a l else x.b l)
    | _ => illegal

def execSel (f : OForm) : State → Host.Outcome State Fault Refusal := runInstr (selBody f)

/-- A unary operation over `ival`, fitted. -/
def arith1 (op : Int → Int) (f : OForm) : Ctx → State → Res State :=
  elementwise (shape1 f.ty) f (perElem f.ty fun a _ _ => fit f.ty f.sat (op (ival f.ty a)))

def execAbs (f : OForm) : State → Host.Outcome State Fault Refusal := runInstr (arith1 (fun x => (x.natAbs : Int)) f)
def execNeg (f : OForm) : State → Host.Outcome State Fault Refusal := runInstr (arith1 (fun x => -x) f)

/-- Count of leading zero bits of an n-bit pattern. -/
def clzOf (n a : Nat) : Nat := if a % 2 ^ n = 0 then n else n - 1 - Nat.log2 (a % 2 ^ n)

def popcOf (n a : Nat) : Nat := ((List.range n).filter fun i => a.testBit i).length

def brevOf (n a : Nat) : Nat := (List.range n).foldl (fun r i => if a.testBit i then r + 2 ^ (n - 1 - i) else r) 0

def execClz (f : OForm) : State → Host.Outcome State Fault Refusal :=
  runInstr (elementwise ⟨false, some f.ty, none, none⟩ f fun a _ _ => .pure (clzOf (tyBits f.ty) a))

def execPopc (f : OForm) : State → Host.Outcome State Fault Refusal :=
  runInstr (elementwise ⟨false, some f.ty, none, none⟩ f fun a _ _ => .pure (popcOf (tyBits f.ty) a))

def execBrev (f : OForm) : State → Host.Outcome State Fault Refusal :=
  runInstr (elementwise (shape1 f.ty) f fun a _ _ => .pure (brevOf (tyBits f.ty) a))

/-- BFE (R205): bits past the top repeat the sign for I types and are 0 for N types. -/
def bfeOf (t : Ty) (a b c : Nat) : Nat :=
  let n := tyBits t
  let p := b % 256
  let len := min (c % 256) n
  let x : Int := ival t a / (2 ^ p : Nat)
  if len = 0 then 0 else if tySigned t then patOf n (sext len (patOf len x)) else patOf len x

/-- BFI (R205). -/
def bfiOf (n a b c : Nat) : Nat :=
  let p := c % 256
  let len := min (c / 256 % 256) n
  (List.range n).foldl (fun r i =>
    let src := if p ≤ i ∧ i < p + len then b.testBit (i - p) else a.testBit i
    if src then r + 2 ^ i else r) 0

def execBfe (f : OForm) : State → Host.Outcome State Fault Refusal :=
  runInstr (elementwise ⟨f.ty.is64, some f.ty, some .n32, some .n32⟩ f fun a b c => .pure (bfeOf f.ty a b c))

def execBfi (f : OForm) : State → Host.Outcome State Fault Refusal :=
  runInstr (elementwise ⟨f.ty.is64, some f.ty, some f.ty, some .n32⟩ f fun a b c => .pure (bfiOf (tyBits f.ty) a b c))

/-- The conditions of CMP by their constant (R207). -/
def cmpCond (k : Nat) (a b : Int) : Bool :=
  match k with
  | 0 => a == b | 1 => a != b | 2 => decide (a < b) | 3 => decide (a ≤ b) | 4 => decide (b < a) | _ => decide (b ≤ a)

/-- The number an integer constant field holds. -/
def constNat : Spec → Nat
  | .int n => n.val
  | _ => 0

def execCmp (f : OForm) : State → Host.Outcome State Fault Refusal :=
  runInstr (comparison (shape2 f.ty) f fun a b => .pure (cmpCond (constNat f.c) (ival f.ty a) (ival f.ty b)))

/-- LEA (R208): A is a pair or an s register; the destination is 64 bits. -/
def leaBody (f : OForm) (c : Ctx) (s : State) : Res State := do
  let aOk := match f.a.spec with | .v _ => !f.uni | .s _ => true | _ => false
  guardOp (dstOk c.g f.uni true f.d && aOk)
  elementwise ⟨true, some .n64, some .n32, none⟩ f (fun a b _ =>
    .pure (ptrAdd (BitVec.ofNat 64 a) (ival f.ty b * (2 ^ constNat f.c : Nat))).toNat) c s

def execLea (f : OForm) : State → Host.Outcome State Fault Refusal := runInstr (leaBody f)

def execMov (f : OForm) : State → Host.Outcome State Fault Refusal :=
  runInstr (elementwise (shape1 f.ty) f fun a _ _ => .pure a)

/-- IDOT4 (R209): the exact sum of four byte products, fitted once with C. -/
def execIdot4 (f : OForm) : State → Host.Outcome State Fault Refusal :=
  let t32 : Ty := if tySigned f.ty then .i32 else .n32
  runInstr (elementwise ⟨false, some f.ty, some f.ty, some t32⟩ f fun a b c =>
    let e (x i : Nat) : Int := ival f.ty (x / 2 ^ (8 * i) % 256)
    fit t32 f.sat ((List.range 4).foldl (fun t i => t + e a i * e b i) 0 + ival t32 c))

/-! ## Immediate instructions (R129, R210) -/

/-- The immediate at 64 bits. -/
def immOf (f : IForm) : Nat := if f.fill then (f.imm.signExtend 64).toNat else f.imm.toNat

/-- The form an I-format instruction takes from its destination. -/
def immUni (f : IForm) : Bool := match f.d with | .v _ => false | _ => true

/-- The operate-format fields of an I-format instruction at its width. -/
def immForm (f : IForm) : OForm :=
  ⟨f.d, f.a, ⟨.v 0, .none, 0⟩, .v 0, if immUni f then .n64 else .n32, .rne, false, false, immUni f⟩

/-- An I-format operation on A and the immediate, 32 bits by lane or 64 bits uniform. -/
def immediate (f : IForm) (a : Bool) (op : Nat → Nat → Nat) : Ctx → State → Res State :=
  let o := immForm f
  let n := tyBits o.ty
  elementwise ⟨false, if a then some o.ty else none, none, none⟩ o fun x _ _ => .pure (op x (immOf f % 2 ^ n) % 2 ^ n)

def execMovi (f : IForm) : State → Host.Outcome State Fault Refusal := runInstr (immediate f false fun _ i => i)
def execAddi (f : IForm) : State → Host.Outcome State Fault Refusal := runInstr (immediate f true (· + ·))
def execAndi (f : IForm) : State → Host.Outcome State Fault Refusal := runInstr (immediate f true (· &&& ·))
def execOri (f : IForm) : State → Host.Outcome State Fault Refusal := runInstr (immediate f true (· ||| ·))

/-- The conditions of CMPI: codes 6 to 9 compare unsigned (R210). -/
def cmpiCond (n k a b : Nat) : Bool :=
  match k with
  | 6 => decide (a < b) | 7 => decide (a ≤ b) | 8 => decide (b < a) | 9 => decide (b ≤ a)
  | k => cmpCond k (sext n a) (sext n b)

/-- CMPI (R210): the condition stands in A's parameter, and A is read unpermuted. -/
def execCmpi (f : IForm) : State → Host.Outcome State Fault Refusal :=
  let n := if immUni f then 64 else 32
  runInstr (immediate { f with a := ⟨f.a.spec, .none, 0⟩ } true fun a i =>
    if cmpiCond n f.a.par.toNat a i then 2 ^ n - 1 else 0)

end Sys2Proof.Machine
end

