-- ==== Sys2Proof/Machine/Transcend.lean ====
section
/-! DEFINITION. Correctly rounded square roots and transcendental functions (R212, R217). A square root is bracketed by an
integer root; the transcendental functions are bracketed by fixed-point series and rounded where both ends of the
bracket round alike, which leaves the free value of `Config.transcend` for a bracket that does not decide. -/
namespace Sys2Proof.Machine

/-- A number that rounds, in every mode and to any format of at most 64 significant bits, as the square root of x > 0
does: the root itself where it is rational, else the middle of a bracket of 2^-k that holds no such format's grid
point or midpoint. -/
def sqrtFrac (x : Frac) : Frac :=
  let k := ((200 - x.exp) / 2).toNat
  let n := x.num.natAbs * 4 ^ k
  let s := isqrt (n / x.den)
  if n % x.den = 0 ∧ s * s = n / x.den then ⟨s, 2 ^ k⟩ else ⟨2 * s + 1, 2 ^ (k + 1)⟩

/-! ## Fixed point -/

/-- Fractional bits of the series. -/
def fixBits : Nat := 400

def fixOne : Int := (2 ^ fixBits : Nat)

/-- x in fixed point, rounded down. -/
def toFix (x : Frac) : Int := x.num * fixOne / x.den

def fixMul (x y : Int) : Int := x * y / fixOne

/-- ln 2 = Σ 1 / (k 2^k). -/
def fixLn2 : Int := (List.range 420).foldl (fun t k => t + fixOne / ((k + 1) * 2 ^ (k + 1) : Nat)) 0

/-- atan (1 / n) by its series. -/
def fixAtanInv (n : Nat) : Int :=
  (List.range 100).foldl (fun t k =>
    let u := fixOne / ((2 * k + 1) * n ^ (2 * k + 1) : Nat)
    if k % 2 = 0 then t + u else t - u) 0

/-- π = 16 atan (1/5) − 4 atan (1/239). -/
def fixPi : Int := 16 * fixAtanInv 5 - 4 * fixAtanInv 239

/-- Σ t^k / k! over the first 100 terms, taking every `step`-th from `first` with the given alternation. -/
def fixExp (t : Int) : Int :=
  ((List.range 100).foldl (fun (a : Int × Int) k => (a.1 + a.2, fixMul a.2 t / (k + 1 : Nat))) (0, fixOne)).1

/-- sin t for |t| at most 4. -/
def fixSin (t : Int) : Int :=
  let t2 := fixMul t t
  ((List.range 90).foldl (fun (a : Int × Int) k => (a.1 + a.2, -(fixMul a.2 t2) / ((2 * k + 2) * (2 * k + 3) : Nat))) (0, t)).1

/-- cos t for |t| at most 4. -/
def fixCos (t : Int) : Int :=
  let t2 := fixMul t t
  ((List.range 90).foldl (fun (a : Int × Int) k => (a.1 + a.2, -(fixMul a.2 t2) / ((2 * k + 1) * (2 * k + 2) : Nat))) (0, fixOne)).1

/-- ln m = 2 atanh ((m − 1) / (m + 1)) for m from 1 to 2. -/
def fixLn (m : Frac) : Int :=
  let z := toFix ((m.sub (Frac.ofInt 1)).div (m.add (Frac.ofInt 1)))
  let z2 := fixMul z z
  2 * ((List.range 135).foldl (fun (a : Int × Int) k => (a.1 + a.2 / (2 * k + 1 : Nat), fixMul a.2 z2)) (0, z)).1

/-- Round a value known to lie within 2^-360 of a fixed-point number and to be no grid point: both ends of the bracket
decide it, or the free value of code `fn` does. -/
def roundFix (fn pat : Nat) (mode : Rnd) (ftz : Bool) (v : Int) : Flagged Nat :=
  let err : Int := (2 ^ 40 : Nat)
  let lo := fres .f32 mode false ftz (.ofFrac ⟨v - err, 2 ^ fixBits⟩)
  let hi := fres .f32 mode false ftz (.ofFrac ⟨v + err, 2 ^ fixBits⟩)
  if lo.val = hi.val ∧ lo.fp = hi.fp then lo else ⟨Config.transcend fn pat mode.code, Fp.inexact⟩

def invalidNan (f : Fmt) : Flagged Nat := ⟨nanOf f, Fp.invalid⟩

/-- FEXP2F (R217). -/
def exp2Of (mode : Rnd) (ftz : Bool) (p : Nat) : Flagged Nat :=
  match fsrc .f32 ftz p with
  | .nan q n t => (propagate .f32 [(.f32, .nan q n t)]).getD (invalidNan .f32)
  | .inf _ => invalidNan .f32
  | .zero _ => .pure 0x3F800000
  | .fin x =>
    if (Frac.mk 1 2).lt x.abs then invalidNan .f32
    else roundFix 0 p mode ftz (fixExp (fixMul (toFix x) fixLn2))

/-- FLOG2M (R217). -/
def log2mOf (mode : Rnd) (ftz : Bool) (p : Nat) : Flagged Nat :=
  match fsrc .f32 ftz p with
  | .nan q n t => (propagate .f32 [(.f32, .nan q n t)]).getD (invalidNan .f32)
  | .inf _ => invalidNan .f32
  | .zero _ => ⟨0xFF800000, Fp.divZero⟩
  | .fin x =>
    if x.isNeg then invalidNan .f32
    else
      let m := x.shift (-x.exp)
      if m.eq (Frac.ofInt 1) then .pure 0 else roundFix 1 p mode ftz (fixLn m * fixOne / fixLn2)

/-- x modulo 2, from −1 (not included) to 1: sine and cosine of π x keep their value. -/
def mod2 (x : Frac) : Frac :=
  let y := x.sub (Frac.ofInt (2 * (x.div (Frac.ofInt 2)).round .rne))
  y

/-- FSINPI (R217). -/
def sinPiOf (mode : Rnd) (ftz : Bool) (p : Nat) : Flagged Nat :=
  match fsrc .f32 ftz p with
  | .nan q n t => (propagate .f32 [(.f32, .nan q n t)]).getD (invalidNan .f32)
  | .inf _ => invalidNan .f32
  | .zero n => .pure (if n then 0x80000000 else 0)
  | .fin x =>
    if x.num % x.den = 0 then .pure (if x.isNeg then 0x80000000 else 0)
    else
      let y := mod2 x
      if y.eq ⟨1, 2⟩ then .pure 0x3F800000
      else if y.eq ⟨-1, 2⟩ then .pure 0xBF800000
      else roundFix 2 p mode ftz (fixSin (fixMul (toFix y) fixPi))

/-- FCOSPI (R217). -/
def cosPiOf (mode : Rnd) (ftz : Bool) (p : Nat) : Flagged Nat :=
  match fsrc .f32 ftz p with
  | .nan q n t => (propagate .f32 [(.f32, .nan q n t)]).getD (invalidNan .f32)
  | .inf _ => invalidNan .f32
  | .zero _ => .pure 0x3F800000
  | .fin x =>
    let y := mod2 x
    if x.num % x.den = 0 then .pure (if y.isZero then 0x3F800000 else 0xBF800000)
    else if (2 * x.num) % x.den = 0 then .pure 0
    else roundFix 3 p mode ftz (fixCos (fixMul (toFix y) fixPi))

/-- FRCP (R217). -/
def rcpOf (f : Fmt) (mode : Rnd) (sat ftz : Bool) (p : Nat) : Flagged Nat :=
  match fsrc f ftz p with
  | .nan q n t => (propagate f [(f, .nan q n t)]).getD (invalidNan f)
  | .inf n => .pure (if n then f.signBit else 0)
  | .zero n => ⟨(f.inf? n).getD 0, Fp.divZero⟩
  | .fin x => fres f mode sat ftz (.fin ((Frac.ofInt 1).div x))

/-- FRSQ (R217). -/
def rsqOf (f : Fmt) (mode : Rnd) (ftz : Bool) (p : Nat) : Flagged Nat :=
  match fsrc f ftz p with
  | .nan q n t => (propagate f [(f, .nan q n t)]).getD (invalidNan f)
  | .inf n => if n then invalidNan f else .pure 0
  | .zero n => ⟨(f.inf? n).getD 0, Fp.divZero⟩
  | .fin x => if x.isNeg then invalidNan f else fres f mode false ftz (.fin (sqrtFrac ((Frac.ofInt 1).div x)))

end Sys2Proof.Machine
end

