-- ==== Sys2Proof/Machine/Float.lean ====
section
/-! DEFINITION. The floating-point instructions (R211 to R218). -/
namespace Sys2Proof.Machine

/-- A value that is not NaN, or an invalid operation, rounded once (`arith` of R212). -/
def finish (f : Fmt) (mode : Rnd) (sat ftz : Bool) : Option FVal → Flagged Nat
  | none => invalidNan f
  | some v => fres f mode sat ftz v

/-- An operation of two sources (R212). -/
def float2 (f : OForm) (op : Rnd → FVal → FVal → Option FVal) (a b : Nat) : Flagged Nat :=
  let t := tyFmt f.ty
  let x := fsrc t f.ftz a
  let y := fsrc t f.ftz b
  match propagate t [(t, x), (t, y)] with
  | some r => r
  | none => finish t f.rnd f.sat f.ftz (op f.rnd x y)

def execFadd (f : OForm) : State → Host.Outcome State Fault Refusal :=
  runInstr (elementwise (shape2 f.ty) f (perElem f.ty fun a b _ => float2 f addVal a b))

def execFsub (f : OForm) : State → Host.Outcome State Fault Refusal :=
  runInstr (elementwise (shape2 f.ty) f (perElem f.ty fun a b _ => float2 f (fun m x y => addVal m x (negVal y)) a b))

def execFmul (f : OForm) : State → Host.Outcome State Fault Refusal :=
  runInstr (elementwise (shape2 f.ty) f (perElem f.ty fun a b _ => float2 f (fun _ x y => mulVal x y) a b))

/-- FFMA (R212): product and sum exact; 0 × ∞ is invalid even beside a quiet NaN in C. -/
def fmaOf (f : OForm) (a b c : Nat) : Flagged Nat :=
  let t := tyFmt f.ty
  let x := fsrc t f.ftz a
  let y := fsrc t f.ftz b
  let z := fsrc t f.ftz c
  let bad := !x.isNan && !y.isNan && (mulVal x y).isNone
  match propagate t [(t, x), (t, y), (t, z)] with
  | some r => ⟨r.val, r.fp ||| raiseIf bad Fp.invalid⟩
  | none => finish t f.rnd f.sat f.ftz ((mulVal x y).bind fun p => addVal f.rnd p z)

def execFfma (f : OForm) : State → Host.Outcome State Fault Refusal :=
  runInstr (elementwise (shape3 f.ty) f (perElem f.ty (fmaOf f)))

/-! ## Minimum and maximum (R213) -/

/-- x below y among values that are not NaN, with −0 below +0. -/
def valLess : FVal → FVal → Bool
  | .inf a, .inf b => a && !b
  | .inf a, _ => a
  | _, .inf b => !b
  | .zero a, .zero b => a && !b
  | x, y => x.frac.lt y.frac

/-- The pattern a source gives once flushed. -/
def flushedPat (f : Fmt) (ftz : Bool) (p : Nat) : Nat :=
  if ftz && tinyIn f (decodeFloat f p) then (if (decodeFloat f p).neg then f.signBit else 0) else p % 2 ^ f.bits

/-- FMIN, or FMAX with `big`. -/
def minOf (f : Fmt) (ftz big : Bool) (a b : Nat) : Flagged Nat :=
  let x := fsrc f ftz a
  let y := fsrc f ftz b
  match propagate f [(f, x), (f, y)] with
  | some r => r
  | none =>
    let takeB := if big then valLess x y else valLess y x
    .pure (flushedPat f ftz (if takeB then b else a))

/-- FMINNM, or FMAXNM with `big`: a number wins over a NaN. -/
def minNumOf (f : Fmt) (ftz big : Bool) (a b : Nat) : Flagged Nat :=
  let x := fsrc f ftz a
  let y := fsrc f ftz b
  if x.isNan && !y.isNan then ⟨flushedPat f ftz b, raiseIf x.isSignalling Fp.invalid⟩
  else if y.isNan && !x.isNan then ⟨flushedPat f ftz a, raiseIf y.isSignalling Fp.invalid⟩
  else minOf f ftz big a b

/-- A minimum or maximum on each element. -/
def pick2 (f : OForm) (op : Fmt → Bool → Nat → Nat → Flagged Nat) : Ctx → State → Res State :=
  elementwise (shape2 f.ty) f (perElem f.ty fun a b _ => op (tyFmt f.ty) f.ftz a b)

def execFmin (f : OForm) : State → Host.Outcome State Fault Refusal := runInstr (pick2 f fun t z => minOf t z false)
def execFmax (f : OForm) : State → Host.Outcome State Fault Refusal := runInstr (pick2 f fun t z => minOf t z true)
def execFminnm (f : OForm) : State → Host.Outcome State Fault Refusal := runInstr (pick2 f fun t z => minNumOf t z false)
def execFmaxnm (f : OForm) : State → Host.Outcome State Fault Refusal := runInstr (pick2 f fun t z => minNumOf t z true)

/-! ## Comparison and classification (R214, R215) -/

/-- FCMP's condition and its flags. -/
def fcmpOf (f : Fmt) (ftz : Bool) (k a b : Nat) : Flagged Bool :=
  let x := fsrc f ftz a
  let y := fsrc f ftz b
  let nan := x.isNan || y.isNan
  let sig := x.isSignalling || y.isSignalling
  let eq := !nan && !(valLess x y && !(x.frac.isZero && y.frac.isZero && x.isFinite && y.isFinite))
    && !(valLess y x && !(x.frac.isZero && y.frac.isZero && x.isFinite && y.isFinite))
  let lt := !nan && !eq && valLess x y
  match k with
  | 0 => ⟨eq, raiseIf sig Fp.invalid⟩
  | 1 => ⟨!eq, raiseIf sig Fp.invalid⟩
  | 2 => ⟨lt, raiseIf nan Fp.invalid⟩
  | 3 => ⟨lt || eq, raiseIf nan Fp.invalid⟩
  | 4 => ⟨!nan && !lt && !eq, raiseIf nan Fp.invalid⟩
  | 5 => ⟨!nan && !lt, raiseIf nan Fp.invalid⟩
  | 6 => ⟨nan, raiseIf sig Fp.invalid⟩
  | _ => ⟨!nan, raiseIf sig Fp.invalid⟩

def execFcmp (f : OForm) : State → Host.Outcome State Fault Refusal :=
  runInstr (comparison (shape2 f.ty) f fun a b => fcmpOf (tyFmt f.ty) f.ftz (constNat f.c) a b)

def classOf (f : Fmt) (ftz : Bool) (p : Nat) : Nat :=
  let x := fsrc f ftz p
  match x with
  | .nan q _ _ => if q then 1 else 0
  | .inf n => if n then 2 else 9
  | .zero n => if n then 5 else 6
  | .fin q =>
    if tinyIn f x then (if q.isNeg then 4 else 7) else (if q.isNeg then 3 else 8)

def execFclass (f : OForm) : State → Host.Outcome State Fault Refusal :=
  runInstr (elementwise ⟨false, some f.ty, none, none⟩ f fun a _ _ => .pure (2 ^ classOf (tyFmt f.ty) f.ftz a))

/-! ## Exact operations (R216) -/

/-- A source that only propagates as NaN and passes infinities and zeros unchanged. -/
def float1 (f : Fmt) (ftz : Bool) (op : Frac → Flagged Nat) (p : Nat) : Flagged Nat :=
  let x := fsrc f ftz p
  match propagate f [(f, x)] with
  | some r => r
  | none => match x with
    | .fin q => op q
    | _ => .pure (flushedPat f ftz p)

/-- FRND: the integer, with the sign of x where it is zero. -/
def frndOf (f : Fmt) (mode : Rnd) (ftz : Bool) : Nat → Flagged Nat :=
  float1 f ftz fun q =>
    let k := q.round mode
    .pure (if k = 0 then (if q.isNeg then f.signBit else 0) else ((roundTo f (.ofInt k) .rtz false).val).getD 0)

def execFrnd (f : OForm) : State → Host.Outcome State Fault Refusal :=
  runInstr (elementwise (shape1 f.ty) f (perElem f.ty fun a _ _ => frndOf (tyFmt f.ty) f.rnd f.ftz a))

def execFabs (f : OForm) : State → Host.Outcome State Fault Refusal :=
  runInstr (elementwise (shape1 f.ty) f (perElem f.ty fun a _ _ => .pure (a % (tyFmt f.ty).signBit)))

def execFneg (f : OForm) : State → Host.Outcome State Fault Refusal :=
  runInstr (elementwise (shape1 f.ty) f (perElem f.ty fun a _ _ => .pure (a ^^^ (tyFmt f.ty).signBit)))

/-! ## Division, square root and the dot product (R212) -/

def divOf (f : OForm) (a b : Nat) : Flagged Nat :=
  let t := tyFmt f.ty
  let x := fsrc t f.ftz a
  let y := fsrc t f.ftz b
  let n := x.neg != y.neg
  match propagate t [(t, x), (t, y)] with
  | some r => r
  | none => match x, y with
    | .inf _, .inf _ | .zero _, .zero _ => invalidNan t
    | .inf _, _ => .pure ((t.inf? n).getD 0)
    | _, .inf _ | .zero _, _ => .pure (if n then t.signBit else 0)
    | _, .zero _ => ⟨(t.inf? n).getD 0, Fp.divZero⟩
    | x, y => fres t f.rnd f.sat f.ftz (.fin (x.frac.div y.frac))

def execFdiv (f : OForm) : State → Host.Outcome State Fault Refusal :=
  runInstr (elementwise (shape2 f.ty) f (perElem f.ty fun a b _ => divOf f a b))

def sqrtOf (f : OForm) (a : Nat) : Flagged Nat :=
  let t := tyFmt f.ty
  match fsrc t f.ftz a with
  | .nan q n p => (propagate t [(t, .nan q n p)]).getD (invalidNan t)
  | .inf n => if n then invalidNan t else .pure ((t.inf? false).getD 0)
  | .zero n => .pure (if n then t.signBit else 0)
  | .fin x => if x.isNeg then invalidNan t else fres t f.rnd false f.ftz (.fin (sqrtFrac x))

def execFsqrt (f : OForm) : State → Host.Outcome State Fault Refusal :=
  runInstr (elementwise (shape1 f.ty) f (perElem f.ty fun a _ _ => sqrtOf f a))

/-- FDOT2: the exact sum of two products and C, rounded once to F32. -/
def dot2Of (f : OForm) (a b c : Nat) : Flagged Nat :=
  let t := tyFmt f.ty
  let src (x i : Nat) : FVal := fsrc t f.ftz (x / 2 ^ (16 * i) % 2 ^ 16)
  let z := fsrc .f32 f.ftz c
  let p0 := mulVal (src a 0) (src b 0)
  let p1 := mulVal (src a 1) (src b 1)
  match propagate .f32 [(t, src a 0), (t, src a 1), (t, src b 0), (t, src b 1), (.f32, z)] with
  | some r => r
  | none => finish .f32 f.rnd f.sat f.ftz (do addVal f.rnd (← addVal f.rnd (← p0) (← p1)) z)

def execFdot2 (f : OForm) : State → Host.Outcome State Fault Refusal :=
  runInstr (elementwise ⟨false, some f.ty, some f.ty, some .f32⟩ f (dot2Of f))

/-! ## Transcendental functions (R217) -/

def execFexp2f (f : OForm) : State → Host.Outcome State Fault Refusal :=
  runInstr (elementwise (shape1 f.ty) f fun a _ _ => exp2Of f.rnd f.ftz a)

def execFlog2m (f : OForm) : State → Host.Outcome State Fault Refusal :=
  runInstr (elementwise (shape1 f.ty) f fun a _ _ => log2mOf f.rnd f.ftz a)

def execFrcp (f : OForm) : State → Host.Outcome State Fault Refusal :=
  runInstr (elementwise (shape1 f.ty) f fun a _ _ => rcpOf (tyFmt f.ty) f.rnd f.sat f.ftz a)

def execFrsq (f : OForm) : State → Host.Outcome State Fault Refusal :=
  runInstr (elementwise (shape1 f.ty) f fun a _ _ => rsqOf (tyFmt f.ty) f.rnd f.ftz a)

def execFsinpi (f : OForm) : State → Host.Outcome State Fault Refusal :=
  runInstr (elementwise (shape1 f.ty) f fun a _ _ => sinPiOf f.rnd f.ftz a)

def execFcospi (f : OForm) : State → Host.Outcome State Fault Refusal :=
  runInstr (elementwise (shape1 f.ty) f fun a _ _ => cosPiOf f.rnd f.ftz a)

/-! ## Exponents (R218) -/

/-- FLDEXP; an exponent past ±5000 gives what ±5000 gives, since every format's range lies within it. -/
def ldexpOf (f : OForm) (a b : Nat) : Flagged Nat :=
  let t := tyFmt f.ty
  let n := min (max (sext 32 b) (-5000)) 5000
  float1 t f.ftz (fun q => fres t f.rnd f.sat f.ftz (.fin (q.shift n))) a

def execFldexp (f : OForm) : State → Host.Outcome State Fault Refusal :=
  runInstr (elementwise ⟨f.ty.is64, some f.ty, some .n32, none⟩ f (fun a b _ => ldexpOf f (a % 2 ^ tyBits f.ty) b))

def getexpOf (f : Fmt) (ftz : Bool) (p : Nat) : Flagged Nat :=
  match fsrc f ftz p with
  | .inf _ => ⟨0x7FFFFFFF, Fp.invalid⟩
  | .fin q => .pure (patOf 32 q.exp)
  | _ => ⟨0x80000000, Fp.invalid⟩

def execFgetexp (f : OForm) : State → Host.Outcome State Fault Refusal :=
  runInstr (elementwise ⟨false, some f.ty, none, none⟩ f fun a _ _ => getexpOf (tyFmt f.ty) f.ftz a)

def execFgetman (f : OForm) : State → Host.Outcome State Fault Refusal :=
  runInstr (elementwise (shape1 f.ty) f (perElem f.ty fun a _ _ =>
    float1 (tyFmt f.ty) f.ftz (fun q => fres (tyFmt f.ty) .rne false f.ftz (.fin (q.shift (-q.exp)))) a))

end Sys2Proof.Machine
end

