-- ==== Sys2Proof/Machine/Service.lean ====
section
/-! DEFINITION. Serving memory requests: scratchpad, L1 and home, subscriptions and hints, atomics and their tags, refusals
(R238 to R255, R275 to R279, R318, R333, R399). -/
namespace Sys2Proof.Machine

/-! ## Request types and hints -/

/-- A physical byte that no L1 keeps: peers, and host memory without Jibueg (R243, R399). -/
def isBypass (s : State) (loc : Nat) : Bool := isPeer loc || (isHost loc && !s.dev.jibueg)

/-- The request type that serves an access: host memory without Jibueg and peers are U; host lines and lines of host-bias
pages are held only as W or U (R243, R256, R397, R399). A strong access at group or team scope is performed in the L1 whatever
type it names (R318). -/
def effectiveReq (s : State) (w : Who) (f : Form) (ptr loc : Nat) : Req :=
  let narrow := f.strong && !f.atHome
  if isBypass s loc then .u
  else if isHost loc || ((w.leafOf s .flush ptr).map (Leaf.biased s.dev)).getD false then (if f.req == .u && !narrow then .u else .w)
  else if narrow && (f.req == .u || f.req == .w) then .i
  else f.req

/-- The hint that acts: the instruction's, or the page's default (R249). -/
def effectiveHint (s : State) (w : Who) (h : Hint) (ptr : Nat) : Hint :=
  if h == .page then ((w.leafOf s .flush ptr).map Leaf.hint).getD .page else h

/-! ## Subscriptions (R246, R251) -/

/-- How an O-type access through a record subscribes: not at all, or raw, or precise with the stored and register
formats; and its mode. -/
def subscription (p : Option Rec) : Option (Option (Fmt × Fmt) × Bool) :=
  match p with
  | none => some (none, false)
  | some r =>
    if r.stored.hasScale then none
    else
      let code := r.stored.code
      if (code ≤ 5 || (8 ≤ code && code ≤ 14)) && r.il == 0 && 8 * ptrAddr r.base % r.stored.bits == 0
      then some (some (r.stored, r.reg), r.update) else some (none, r.update)

/-- A waybill with a core's subscription entered or replaced; the ninth subscriber makes its reticle coarse. -/
def Waybill.subscribed (w : Waybill) (core : Nat) (sub : Option (Fmt × Fmt) × Bool) : Waybill :=
  let others := w.subs.filter fun u => u.core != core
  if others.length < 8 then { w with subs := others ++ [⟨core, sub.2, sub.1⟩] }
  else { w with coarse := w.coarse ||| BitVec.ofNat 48 (2 ^ reticleOf core) }

/-- Enter or replace a core's subscription. `none`: no waybill is free. -/
def subscribe (s : State) (core line : Nat) (sub : Option (Fmt × Fmt) × Bool) : Option State :=
  let (s, ok) := changeWaybill s line fun w => w.subscribed core sub
  if ok then some s else none

/-! ## Hints (R246, R249) -/

/-- A bank's lines, 2 MiB of 128 bytes; hints pin at most a quarter of them. -/
def pinLimit : Nat := 16384 / 4

def pinAllowed (s : State) (line : Nat) : Bool :=
  let home := (waybill s line).home
  decide ((s.fab.waybills.filter fun e => e.2.pin && e.2.home == home).length < pinLimit)

/-- What a hint of a core does at a line; `none`: it needs a waybill and none is free. Lines of a host-bias page are not
replicated (R256). -/
def applyHint (s : State) (core line : Nat) (h : Hint) (load biased : Bool) : Option State :=
  let change (f : Waybill → Waybill) : Option State :=
    let (s, ok) := changeWaybill s line f
    if ok then some s else none
  match h with
  | .replicate =>
    if load && !biased && reticleOf (waybill s line).home != reticleOf core then
      change fun w => { w with replicas := w.replicas ||| BitVec.ofNat 48 (2 ^ reticleOf core) }
    else some s
  | .pin => if pinAllowed s line then change fun w => { w with pin := true } else some s
  | _ => some s

/-- The hint of an access acts on a line it touches. -/
def hintAt (s : State) (w : Who) (f : Form) (ptr line : Nat) (load : Bool) : Option State :=
  applyHint s w.t.place line (effectiveHint s w f.hint ptr) load (((w.leafOf s .flush ptr).map (Leaf.biased s.dev)).getD false)

/-- The bank that a reticle sends a line's requests to: the home that its location cache records, else the anchor (R244). -/
def sentTo (s : State) (t line : Nat) : Nat := (SMap.entry? s.fab.homes (48 * line + t)).getD (anchor s.dev line)

/-- A reticle's location cache learns the home that served a request; a line at its anchor needs no entry (R244). -/
def noteHome (s : State) (t line : Nat) : State :=
  let home := (waybill s line).home
  let key := 48 * line + t
  if home == anchor s.dev line then
    if (SMap.entry? s.fab.homes key).isSome then s.setFab { s.fab with homes := SMap.del s.fab.homes key } else s
  else s.setFab { s.fab with homes := SMap.put s.fab.homes key home }

/-- A request of an access reaches the home of a line: its reticle learns where that is, and counts it (R244, R248). -/
def countAt (s : State) (w : Who) (f : Form) (ptr line : Nat) (r : Req) : State :=
  countDrover (noteHome s (reticleOf w.t.place) line) w.t.place line w.l.ctx (((w.global ptr).getD 0) / 65536) r (effectiveHint s w f.hint ptr)

/-! ## Scratchpad bytes (R235, R238 to R240) -/

def Team.spadByte (t : Team) (off : Nat) : Byte := SMap.get 0 t.spad off

/-- Poison of scratchpad bytes, by sector. -/
def Team.spadTags (t : Team) (offs : List Nat) : List (Nat × BitVec 12) :=
  ((offs.map (· / 32)).dedup).filterMap fun q => (SMap.entry? t.spadPoison q).map fun x => (q, x)

/-- Bytes written into a buffer are counted while it is empty or filling; the expected fill makes it full (R239). The
offsets are those of one write, each byte once. -/
def Team.countFill (t : Team) (offs : List Nat) (engine : Bool) : Team :=
  let step (t : Team) (off : Nat) : Team :=
    match t.bufferAt off with
    | none => t
    | some (k, b) =>
      match b.state with
      | .empty | .filling =>
        let fill := (b.desc.extractLsb' 64 32).toNat
        let st : BufState := if engine then .filling else b.state
        if fill ≠ 0 ∧ fill ≤ b.count + 1 then { t with bufs := SMap.put t.bufs k { b with state := .full, count := 0 } }
        else { t with bufs := SMap.put t.bufs k { b with state := st, count := b.count + 1 } }
      | _ => t
  offs.foldl step t

/-- Write bytes of a share: masked bits, cleared poison of whole sectors, buffer counts. -/
def Team.spadWrite (t : Team) (ws : List (Nat × Byte × Byte)) (engine : Bool) : Team :=
  let spad := ws.foldl (fun m (o, v, k) => SMap.set 0 m o ((SMap.get 0 m o &&& ~~~k) ||| (v &&& k))) t.spad
  let whole := ws.filter fun (x : Nat × Byte × Byte) => x.2.2 == 0xFF
  let clean := wholeSectors (whole.map fun x => x.1)
  let t' := { t with spad := spad, spadPoison := clean.foldl SMap.del t.spadPoison }
  t'.countFill (if engine then ws.map fun x => x.1 else (ws.map fun x => x.1).dedup) engine

/-- Set or clear the full/empty bits of the granules that hold some offsets (R240). -/
def Team.setGranules (t : Team) (offs : List Nat) (v : Bool) : Team :=
  { t with fe := ((offs.map (· / 16)).dedup).foldl (fun m g => SMap.set false m g v) t.fe }

/-! ## Loads -/

/-- What a read brings: bytes by generic address, poison by generic sector address, and the state. -/
structure Read where
  bytes : List (Nat × Byte)
  poison : List (Nat × BitVec 12)
  s : State

/-- A byte of the private stack that the group has not written holds a value of the spec's leaving (R228). -/
def stackUnwritten (g : Group) (p : Nat) : Bool :=
  match apertureOf (p % 2 ^ 56) with
  | .stack off => !SMap.get false g.wrote off
  | _ => false

/-- Replace bytes of unwritten stack by free ones. -/
def freeStack (w : Who) (bytes : List (Nat × Byte)) (s : State) : List (Nat × Byte) × State :=
  bytes.foldl (fun (acc, s) (p, b) =>
    if stackUnwritten w.g p then (acc ++ [(p, Config.freeByte s.free)], { s with free := s.free + 1 }) else (acc ++ [(p, b)], s))
    ([], s)

/-- Loads that another group's stores in the L1 have reached before they went home: those bytes go home before anything
that the reading group does there later (R322). -/
def noteForwarded (s : State) (core : Nat) (locs : List Nat) : State :=
  let ds := locs.filter (isDirty s.fab core)
  if ds.isEmpty || s.fab.weak.any (fun w => w.core == core && ds.all w.locs.contains) then s
  else s.setFab { s.fab with weak := ⟨core, s.nextId, ds, false⟩ :: s.fab.weak }

/-- The bytes of a line as a core's L1 holds them over what was read. -/
def overL1 (f : Fabric) (core line : Nat) (all : List Byte) (dirtyOnly : Bool) : List Byte :=
  match l1Find f core line with
  | none => all
  | some x => (List.range 128).map fun i =>
      if (if dirtyOnly then x.dirty else x.valid).getLsbD i then (x.data[i]?).getD 0 else (all[i]?).getD 0

/-- Poison of the home enters a core's copy with bytes of these sectors (R369). -/
def l1Taint (f : Fabric) (core : Nat) (sectors : List Nat) : Fabric :=
  sectors.foldl (fun f q => match sectorTag f q, l1Find f core (q / 4) with
    | some t, some x =>
      let low := (lowerTag (SMap.entry? x.tags (q % 4)) (some t)).getD t
      l1Put f { x with tags := SMap.put x.tags (q % 4) low }
    | _, _ => f) f

/-- Whole aligned words that a core has read at a home enter the copy its L1 holds, so that later reads of the copy see
nothing older (R320); words of which the site sees no one write yet do not. -/
def l1Refresh (s : State) (core line : Nat) (ws : List (Nat × Byte)) : State :=
  match l1Find s.fab core line with
  | none => s
  | some _ =>
    let fresh := ws.filter fun e => !isDirty s.fab core e.1 && !wordStuck s (reticleOf core) e.1
    let f := l1Update s.fab core (fresh.map fun e => (e.1, e.2, 0xFF))
    s.setFab (l1Taint f core ((fresh.map fun e => e.1 / 32).dedup))

/-- A line read at its home enters a core's L1; where a write to it is not settled at the site, the copy that is there takes
the other words alone. -/
def l1Fill (s : State) (core line : Nat) (all : List Byte) : State :=
  if lineStuck s (reticleOf core) line then l1Refresh s core line (all.zipIdx.map fun (b, i) => (128 * line + i, b))
  else s.setFab (l1Install s.fab core line all false)

/-- Read the bytes of one line of global memory for a core: operation k of the group, under form f, subscribing as `sub`
says. An O-type load is served by an L1 line that the core holds as a subscription, while nothing is on its way to it, any
other by one that it does not, or by the core's own dirty bytes (R241, R251, R326, R330); what the L1 serves asks nothing of
the anchor (R409). -/
def readLine (s : State) (w : Who) (k : Nat) (f : Form) (sub : Option (Option (Fmt × Fmt) × Bool)) (bytes : List (Nat × Nat)) :
    Option Read :=
  match bytes with
  | [] => some ⟨[], [], s⟩
  | (ptr, loc) :: _ =>
    let line := lineOf loc
    let core := w.t.place
    let t := reticleOf core
    let req0 := effectiveReq s w f ptr loc
    let req := if req0 == .o && sub.isNone then .i else req0
    let locs := bytes.map (·.2)
    let inL1 := !f.atHome && req != .u
    let x := l1Find s.fab core line
    let owned := (x.map (·.owned)).getD false
    let coming := onItsWay s.fab core line
    let mine := if req == .o then owned && coming.isEmpty else !owned || locs.all (isDirty s.fab core)
    let hit := inL1 && (locs.mapM fun p => l1Byte s.fab core p).isSome && mine
    let tags := metPoison s.fab core hit bytes
    let result (all : List Byte) (s : State) : Read := ⟨bytes.map fun (p, q) => (p, (all[q % 128]?).getD 0), tags, s⟩
    if inFlip s loc || lineHeld s (.thread w.gid k) line then none
    else if hit then some (result (overL1 s.fab core line [] false) (noteForwarded s core locs))
    else if lineWaits s (.thread w.gid k) line || weakBlocked s core k || anyBlocked s ((dirtyBytes s.fab core).map (·.1)) then none
    else do
      let s ← hintAt s w f ptr line true
      let s := countAt (settleWeak s core k) w f ptr line req
      let s := if inL1 then noteForwarded s core locs else writeBackLines s core [line]
      if req == .o || (inL1 && owned) then
        if lineStuck s t line then none
        else do
          let (all, s) := readOwned s t line
          let s ← if req == .o then subscribe s core line (sub.getD (none, false)) else some s
          let all := overL1 s.fab core line all true
          -- the home's bytes replace what was on its way; a line whose subscription has ended is kept as a copy only
          let keep := req == .o || coming.all (·.2.2.isSome)
          pure (result all (s.setFab (supersede (l1Install s.fab core line all keep) core line)))
      else if inL1 then
        let (all, s) := readLocs s t w.gid ((List.range 128).map fun i => 128 * line + i)
        let all := overL1 s.fab core line all true
        pure (result all (l1Fill s core line all))
      else
        let words := ((locs.map fun p => p / 8 * 8).dedup).flatMap fun p => (List.range 8).map (p + ·)
        let (bs, s) := readLocs s t w.gid words
        let got := words.zip bs
        let s := l1Refresh s core line got
        pure ⟨bytes.map fun (p, q) => (p, ((got.find? fun e => e.1 == q).map (·.2)).getD 0), tags, s⟩

/-- Bytes grouped by the line that holds them, in order of first appearance. -/
def byLine (bytes : List (Nat × Nat)) : List (List (Nat × Nat)) :=
  ((bytes.map fun b => lineOf b.2).dedup).map fun n => bytes.filter fun b => lineOf b.2 == n

/-- Serve one lane's load. -/
def serveLoad (s : State) (w : Who) (k : Nat) (f : Form) (sub : Option (Option (Fmt × Fmt) × Bool)) (bytes : List (Nat × Nat)) :
    Option Read := do
  let bytes := forwardAll s.fab bytes
  let spad := bytes.filter fun b => isSpad b.2
  let rest := bytes.filter fun b => !isSpad b.2
  let own := spad.map fun (p, q) => (p, w.t.spadByte (q - 2 ^ 48))
  let tags := (w.t.spadTags (spad.map fun b => b.2 - 2 ^ 48)).filterMap fun (q, t) =>
    (spad.find? fun b => (b.2 - 2 ^ 48) / 32 == q).map fun b => (b.1 / 32 * 32, t)
  let r ← (byLine rest).foldlM (fun (r : Read) line => do
    let x ← readLine r.s w k f sub line
    pure (⟨r.bytes ++ x.bytes, r.poison ++ x.poison, x.s⟩ : Read)) ⟨own, tags, s⟩
  let (bs, s) := freeStack w r.bytes r.s
  pure ⟨bs, r.poison, s⟩

/-! ## Stores -/

/-- A strong store or atomic that releases at device or system scope fires the mailboxes it writes (R94). -/
def Form.fires (f : Form) : Bool := f.releases && Scope.global f.scope

/-- How a write stands in its group's order: the operation's identity, the earlier loads it must not take effect before at
its own site (R321), and the scope of the release it makes (R323). -/
structure WriteOrder where
  op : Nat
  wait : List Nat := []
  rel : Option Scope := none

/-- A write that is a release at device scope or wider waits until what its site has seen can take effect everywhere, the
invalidations it caused are over, and it takes effect at its own site as it is made: nothing can come in between there
(R250, R324). -/
def releaseWaits (s : State) (core : Nat) (o : WriteOrder) : Bool :=
  (o.rel.map Scope.global).getD false && (invalidationsPending s || !seenSettles s (reticleOf core) || !o.wait.isEmpty)

/-- What has to come before a group's write at some homes: it waits, or the state in which it may be made. -/
def beforeWrite (s : State) (w : Who) (o : WriteOrder) (locs : List Nat) : Option State :=
  let core := w.t.place
  let lines := (locs.map lineOf).dedup
  if lines.any (lineWaits s (.thread w.gid o.op)) || !(locs.all (reachable s)) || blockedFor s (reticleOf core) w.gid locs
      || weakBlocked s core o.op || releaseWaits s core o
      || anyBlocked s (((dirtyBytes s.fab core).map (·.1)).filter fun p => lines.contains (lineOf p)) then none
  else
    let s := writeBackLines (settleWeak s core o.op) core lines
    some (if (o.rel.map Scope.global).getD false then settleSeen s (reticleOf core) else s)

/-- The core's own copy after its write at home: updated, or dropped where the site does not see the write yet. -/
def afterWrite (s : State) (core : Nat) (wait : List Nat) (ws : List (Nat × Byte × Byte)) : State :=
  if wait.isEmpty then s.setFab (l1Update s.fab core ws)
  else ((ws.map fun x => lineOf x.1).dedup).foldl (fun s n => let s := unsubscribe s core n; s.setFab (l1Drop s.fab core n)) s

/-- The line of a store's dirty bytes keeps the latest operation that wrote it, its page and its hint (R242, R248, R249). -/
def l1Stamp (f : Fabric) (core line k : Nat) (ctx : BitVec 16) (page : Nat) (hint : Hint) : Fabric :=
  match l1Find f core line with
  | some x => l1Put f { x with wid := max x.wid k, ctx, page, hint }
  | none => f

/-- A store's bytes stay dirty in the core's L1. A byte of a store that has completed goes home before it is overwritten. -/
def storeL1 (s : State) (w : Who) (o : WriteOrder) (fm : Form) (ws : List (Nat × Nat × Byte × Byte)) : Option State :=
  let core := w.t.place
  let locs := ws.map (·.2.1)
  let older := s.fab.weak.any fun x => x.core == core && decide (x.done ≤ o.op) && x.locs.any locs.contains
  if ws.any (fun x => inFlip s x.2.1 || lineHeld s (.thread w.gid o.op) (lineOf x.2.1)) || (older && weakBlocked s core o.op) then none
  else
    let s := if older then settleWeak s core o.op else s
    let f := l1Store s.fab core (ws.map (·.2))
    some (s.setFab (ws.foldl (fun f x => l1Stamp f core (lineOf x.2.1) o.op w.l.ctx (((w.global x.1).getD 0) / 65536) (effectiveHint s w fm.hint x.1)) f))

/-- Serve one lane's store: the scratchpad, the L1 for weak I and O stores and narrow scopes, else the home. The L1's mask
counts whole bytes (R242), so that bits of a byte go home at once. -/
def serveStore (s : State) (w : Who) (o : WriteOrder) (f : Form) (ws : List (Nat × Nat × Byte × Byte)) : Option State := do
  let ws := if s.fab.move.isNone then ws else ws.map fun x => (x.1, forwarded s.fab x.2.1, x.2.2)
  let spad := (ws.filter fun x => isSpad x.2.1).map fun x => (x.2.1 - 2 ^ 48, x.2.2)
  let glob := ws.filter fun x => !isSpad x.2.1
  let boxes := if f.fires then boxesAt s (glob.map (·.2.1)) else []
  let inL1 (x : Nat × Nat × Byte × Byte) : Bool :=
    let r := effectiveReq s w f x.1 x.2.1
    !f.atHome && (r == .i || r == .o) && x.2.2.2 == 0xFF
  let home := glob.filter fun x => !inL1 x
  let core := w.t.place
  if !(boxes.all (boxHasRoom s)) then none
  let pages := ((glob.map fun x => (x.1, lineOf x.2.1)).foldr (fun x acc => if acc.any fun y => y.2 == x.2 then acc else x :: acc) [])
  let s ← pages.foldlM (fun s x => hintAt s w f x.1 x.2 false) s
  let s ←
    if home.isEmpty then some s
    else do
      let s ← beforeWrite s w o (home.map (·.2.1))
      let s := (pages.filter fun x => home.any fun h => lineOf h.2.1 == x.2).foldl (fun s x =>
        countAt s w f x.1 x.2 (effectiveReq s w f x.1 (128 * x.2))) s
      let s := writeHomeBy s (reticleOf core) false o.wait w.gid (home.map (·.2))
      pure (afterWrite s core o.wait (home.map (·.2)))
  let s ← storeL1 s w o f (glob.filter inL1)
  let s := s.modTeam w.g.team fun t => t.spadWrite spad false
  let s := boxes.foldl fireBox s
  pure (s.modGroup w.gid fun g => ws.foldl (fun g x => g.markStack (BitVec.ofNat 64 x.1) 1) g)

/-! ## Atomics (R275 to R278) -/

/-- The new value in memory and the flags. -/
def atomNew (op : AtomOp) (n a b old : Nat) : Nat × BitVec 7 :=
  let m := 2 ^ n
  let fp : Fmt := if n = 64 then .f64 else .f32
  let form (t : Ty) : OForm := ⟨.v 0, Src.zero, Src.zero, .v 0, t, .rne, false, false, false⟩
  match op with
  | .swap => (b, 0)
  | .cas => (if old = a then b else old, 0)
  | .add => ((old + b) % m, 0)
  | .and => (old &&& b, 0)
  | .or => (old ||| b, 0)
  | .xor => (old ^^^ b, 0)
  | .min => (if sext n old ≤ sext n b then old else b, 0)
  | .max => (if sext n b ≤ sext n old then old else b, 0)
  | .umin => (min old b, 0)
  | .umax => (max old b, 0)
  | .inc => (if b ≤ old then 0 else (old + 1) % m, 0)
  | .dec => (if old = 0 ∨ b < old then b else old - 1, 0)
  | .fadd => let r := float2 (form (if n = 64 then .f64 else .f32)) addVal old b; (r.val, r.fp)
  | .fmin => let r := minOf fp false false old b; (r.val, r.fp)
  | .fmax => let r := minOf fp false true old b; (r.val, r.fp)

/-- What an atomic did: the old value and the flags, or the poison it met. -/
structure Atomic where
  old : Option Nat
  fp : BitVec 7
  poison : List (Nat × BitVec 12)
  s : State

/-- The poison that an atomic's lane meets. -/
def atomPoison (s : State) (w : Who) (bytes : List (Nat × Nat)) : List (Nat × BitVec 12) :=
  if bytes.all fun b => isSpad b.2 then
    (w.t.spadTags (bytes.map fun b => b.2 - 2 ^ 48)).filterMap fun (q, t) =>
      (bytes.find? fun x => (x.2 - 2 ^ 48) / 32 == q).map fun x => (x.1 / 32 * 32, t)
  else metPoison s.fab w.t.place false (forwardAll s.fab bytes)

/-- One lane's read-modify-write at the home, over the newest bytes, or in the scratchpad; where the instruction meets poison
in any lane it performs nothing (R370). -/
def serveAtomic (s : State) (w : Who) (o : WriteOrder) (f : Form) (op : AtomOp) (spoiled : Bool) (a b : Nat) (bytes : List (Nat × Nat)) :
    Option Atomic :=
  let n := 8 * f.size
  let core := w.t.place
  let bytes := forwardAll s.fab bytes
  let locs := bytes.map (·.2)
  if locs.all isSpad then
    let offs := locs.map fun p => p - 2 ^ 48
    match atomPoison s w bytes, spoiled with
    | [], false =>
      let old := leNat (offs.map w.t.spadByte)
      let (v, fp) := atomNew op n a b old
      let ws := offs.zip ((leBytes f.size v).map fun x => (x, (0xFF : Byte)))
      some ⟨some old, fp, [], s.modTeam w.g.team fun t => t.spadWrite ws false⟩
    | ts, _ => some ⟨none, 0, ts, s⟩
  else
    let boxes := if f.fires then boxesAt s locs else []
    if !(boxes.all (boxHasRoom s)) then none
    else do
      let s ← beforeWrite s w o locs
      match atomPoison s w bytes, spoiled with
      | [], false =>
        let s ← ((bytes.map fun x => (x.1, lineOf x.2)).head?).elim (some s) fun x => do
          let s ← hintAt s w f x.1 x.2 false
          pure (countAt s w f x.1 x.2 (effectiveReq s w f x.1 (128 * x.2)))
        let old := leNat (readNewest s locs)
        let (v, fp) := atomNew op n a b old
        let ws := locs.zip ((leBytes f.size v).map fun x => (x, (0xFF : Byte)))
        let s := writeHomeBy s (reticleOf core) false o.wait w.gid ws
        let s := boxes.foldl fireBox (afterWrite s core o.wait ws)
        some ⟨some old, fp, [], s.modGroup w.gid fun g => bytes.foldl (fun g x => g.markStack (BitVec.ofNat 64 x.1) 1) g⟩
      | ts, _ => some ⟨none, 0, ts, s⟩

/-- Record a served tag; a home keeps the last 64 of each requesting core (R278). -/
def recordTag (f : Fabric) (x : Served) : Fabric :=
  let mine (e : Served) : Bool := e.home == x.home && e.core == x.core
  { f with served := x :: (f.served.filter mine).take 63 ++ f.served.filter fun e => !mine e }

/-- What a home holds for a tag that a requester repeats at a line. -/
def heldTag (f : Fabric) (core line : Nat) (tag : BitVec 16) : Option Served :=
  f.served.find? fun e => e.core == core && e.tag == tag && e.line == line

/-! ## Requests of an operation -/

/-- Values kept from issue: where each lane starts, and the format code of its page. -/
def keepPlan (p : Plan) : List (Nat × Word) :=
  p.lanes.flatMap fun x => (x.lane, BitVec.ofInt 64 x.start) ::
    (match x.fmt with | some f => [(1000 + x.lane, BitVec.ofNat 64 f.code)] | none => [])

/-- The plan of an operation. -/
def Op.plan (o : Op) (f : Form) : Plan :=
  ⟨f, o.record, (o.vals.filter fun e => e.1 < 64).map fun e =>
    { lane := e.1, start := if f.recIx = 0 then (e.2.toNat : Int) else e.2.toInt,
      fmt := (o.vals.find? fun x => x.1 == 1000 + e.1).map fun x => Fmt.ofCode x.2.toNat }⟩

/-- The record of each lane's access, for subscriptions. -/
def Op.through (o : Op) (f : Form) (lane : Nat) : Option Rec :=
  if f.recIx ≠ 0 then some (Rec.ofBits f.recIx o.record)
  else do
    let code ← (o.vals.find? fun e => e.1 == 1000 + lane).map (·.2)
    let fm := Fmt.ofCode code.toNat
    let reg ← pageReg fm f.size
    pure (Rec.implicit fm reg)

/-- Key of a byte read for a lane. -/
def gotKey (lane ptr : Nat) : Nat := lane * 2 ^ 64 + ptr

/-- An operand of an atomic, kept from issue. -/
def Op.val (o : Op) (k : Nat) : Word := ((o.vals.find? fun e => e.1 == k).map (·.2)).getD 0

/-- Bytes of a lane that a load still fetches once its scale entries are read: those of elements whose scale does not
already give their value (R56, R57). -/
def Op.wanted (o : Op) (f : Form) (r : LaneReq) : List (Nat × Nat) :=
  let get (a : Nat) : Byte := SMap.get 0 o.got (gotKey r.lane a)
  let need := ((o.plan f).lanes.filter fun x => x.lane == r.lane).flatMap fun x =>
    (x.elems f o.record).flatMap fun e =>
      match x.through f o.record with
      | some rc =>
        let scale := match scaleOf rc e.n with | some (q, n) => (List.range n).map fun (i : Nat) => (ptrAdd q i).toNat | none => []
        if unfetched rc e.n get then scale else scale ++ (List.range e.len).map fun (i : Nat) => (ptrAdd e.ptr i).toNat
      | none => (List.range e.len).map fun (i : Nat) => (ptrAdd e.ptr i).toNat
  r.bytes.filter fun b => need.contains b.1

/-- An operation with what a read of lane bytes brought. -/
def Op.gain (o : Op) (lane : Nat) (x : Read) : Op :=
  { o with got := x.bytes.foldl (fun m (p, b) => SMap.put m (gotKey lane p) b) o.got,
           poison := o.poison ++ x.poison.map fun (a, t) => (lane, a, t) }

/-- Accesses that R321 orders: strong at reticle scope or wider, and weak W and U stores, by the type that serves them. -/
def ordered (s : State) (w : Who) (o : Op) : Bool :=
  match formOf o.instr with
  | some f => f.atHome || (!f.strong && (match o.instr with | .st _ | .stu _ | .venc _ => true | _ => false)
      && o.reqs.any fun r => r.bytes.any fun b => !isSpad b.2 && (let q := effectiveReq s w f b.1 b.2; q == .w || q == .u))
  | none => false

def isLoadOp : Instr → Bool
  | .ld _ | .ldu _ | .atom _ | .atomu _ => true
  | _ => false

def isStoreOp : Instr → Bool
  | .st _ | .stu _ | .venc _ | .atom _ | .atomu _ => true
  | _ => false

def isAtomic : Instr → Bool
  | .atom _ | .atomu _ => true
  | _ => false

/-- Whether an earlier access must take its effect at the group's site first (R321): any pair but a store before a load,
unless either is an atomic. -/
def mustPrecede (s : State) (w : Who) (a b : Op) : Bool :=
  ordered s w a && ordered s w b && ((isLoadOp a.instr || (isStoreOp a.instr && isStoreOp b.instr)) || isAtomic a.instr || isAtomic b.instr)

/-- A load that only has to take its effect at the group's site before a store's: the store may reach its home first. -/
def loadThenStore (a b : Instr) : Bool := isLoadOp a && !isAtomic a && !isAtomic b && !isLoadOp b

/-- Earlier loads of the group that a write of operation k waits for at its own site. -/
def earlierLoads (s : State) (w : Who) (k : Nat) (o : Op) : List Nat :=
  ((s.groupOps o.group).filter fun e => decide (e.1 < k) && !e.2.reqs.isEmpty && loadThenStore e.2.instr o.instr && mustPrecede s w e.2 o).map (·.1)

/-- How operation k's writes stand in its group's order. -/
def Op.order (o : Op) (s : State) (w : Who) (k : Nat) : WriteOrder := ⟨k, earlierLoads s w k o, o.rel⟩

/-- Serve one lane request of operation k: the operation with what it brought, or none where it waits. -/
def serve (s : State) (w : Who) (k : Nat) (o : Op) (r : LaneReq) : Option (Op × State) := do
  let f ← formOf o.instr
  let o' := { o with reqs := o.reqs.erase r }
  match r.kind with
  | .load => do
    let sub := subscription (o.through f r.lane)
    if r.scales.isEmpty then do
      let x ← serveLoad s w k f sub r.bytes
      pure (o'.gain r.lane x, x.s)
    else do
      let x ← serveLoad s w k f sub r.scales
      let o1 := o.gain r.lane x
      let rest := o1.wanted f r
      pure ({ o1 with reqs := if rest.isEmpty then o1.reqs.erase r else o1.reqs.map fun y => if y = r then { r with scales := [], bytes := rest } else y }, x.s)
  | .store => do
    let s ← serveStore s w (o.order s w k) f (r.bytes.zip r.data |>.map fun ((p, l), v, m) => (p, l, v, m))
    pure (o', s)
  | .atomic =>
    let op ← match o.instr with | .atom a | .atomu a => some a.op | _ => none
    let done (x : Served) (s : State) : Op × State :=
      ({ o' with res := match x.old with | some v => o.res ++ [(r.lane, v)] | none => o.res, fp := o.fp ||| x.fp,
                 poison := o.poison ++ x.poison.map fun (a, t) => (r.lane, a, t) }, s)
    -- the line under the number that the request carries, whether or not its page has moved since
    let line := lineOf (((r.bytes.head?).map (·.2)).getD 0)
    match (if r.again then r.tag.bind (heldTag s.fab w.t.place line) else none) with
    | some x => pure (done x s)
    | none => do
      let home := (waybill s (lineOf (forwarded s.fab (128 * line)))).home
      let spoiled := !o.poison.isEmpty || (o.res.isEmpty && o.reqs.any fun x => !(atomPoison s w x.bytes).isEmpty)
      let x ← serveAtomic s w (o.order s w k) f op spoiled (o.val (64 + r.lane)).toNat (o.val (128 + r.lane)).toNat r.bytes
      let y : Served := ⟨home, line, w.t.place, r.tag.getD 0, x.old.map (BitVec.ofNat 64), x.fp, x.poison⟩
      pure (done y (if r.tag.isSome && r.bytes.any (fun b => !isSpad b.2) then x.s.setFab (recordTag x.s.fab y) else x.s))
  | .line => pure (o', s)

/-! ## Which requests may be served (R269, R277, R278, R321, R322) -/

/-- Atomic requests that a core may have without a response (R278). -/
def atomicLimit : Nat := 64

/-- The first tag of a core that is unanswered: tags are drawn in the order of issue. -/
def oldestTag (s : State) (place : Nat) : Option (BitVec 16) :=
  s.ops.findSome? fun e =>
    if isAtomic e.2.instr && ((s.group? e.2.group).bind (placeOfGroup s)) == some place then e.2.reqs.findSome? (·.tag) else none

/-- The atomic request may be sent: it is within 64 tags of the first unanswered one of its core, so that the homes still hold
the result of every tag that may be repeated (R278, R333). -/
def atomicSent (s : State) (w : Who) (r : LaneReq) : Bool :=
  match r.tag, oldestTag s w.t.place with
  | some t, some t0 => decide ((t - t0).toNat < atomicLimit)
  | _, _ => true

/-- Lane requests of operation k that may go to the home now: nothing that the group did before has to take effect first.
Atomics go in lane order. A posted write, which completes before it arrives, takes effect at its own site as it arrives (R322). -/
def mayServe (s : State) (w : Who) (k : Nat) (o : Op) (r : LaneReq) : Bool :=
  !r.refused && !r.lost
    && ((s.groupOps o.group).all fun e => !(decide (e.1 < k) && !e.2.reqs.isEmpty &&
        ((mustPrecede s w e.2 o && !loadThenStore e.2.instr o.instr) || e.2.reqs.any fun x => x.locs.any r.locs.contains)))
    && ((s.groupOps o.group).all fun e => !(postedOpen s e.2 && e.1 != k && decide (e.2.doneAt ≤ k)))
    && (!o.posted || (earlierLoads s w k o).isEmpty)
    && (!isAtomic o.instr || (atomicSent s w r && (o.reqs.takeWhile fun x => x != r).all (·.lost)))

/-- Serve every request of an operation, in order, as one issued now; `none` where one has to wait. -/
def serveAll : Nat → Op → State → Option (Op × State)
  | 0, o, s => some (o, s)
  | n + 1, o, s =>
    match o.reqs with
    | [] => some (o, s)
    | r :: _ => do
      let w ← s.who? o.group
      if mayServe s w s.nextId o r && (earlierLoads s w s.nextId o).isEmpty then
        let (o, s) ← serve s w s.nextId o r
        serveAll n o s
      else none

/-! ## Refusals and tickets (R254, R255) -/

/-- The bank at which a request that is not served waits: that of its first line which refuses, else of its first line. -/
def LaneReq.bankLine (s : State) (r : LaneReq) : Option Nat :=
  let lines := ((r.locs.filter fun p => !isSpad p).map fun p => lineOf (forwarded s.fab p)).dedup
  (lines.find? (lineRefuses s)).or ((lines.find? fun n => !(makeRoom s n).2).or lines.head?)

/-- An unserved request is refused rather than held up: its line refuses, or a reclaim finds no waybill. -/
def LaneReq.isRefused (s : State) (r : LaneReq) : Bool :=
  match r.bankLine s with
  | some n => lineRefuses s n || !(makeRoom s n).2
  | none => false

/-- A ticket of the bank that comes first and whose request could be served. -/
def ticketAhead (s : State) (bank k lane : Nat) : Bool :=
  (s.fab.tickets.takeWhile fun t => t != (bank, k, lane)).any fun t => t.1 == bank &&
    match s.op? t.2.1 with
    | none => false
    | some o => match s.who? o.group with
      | none => false
      | some w => o.reqs.any fun r => r.lane == t.2.2 && mayServe s w t.2.1 o r && !(r.isRefused s)

/-- Refusals after which a request holds a ticket. -/
def ticketAt : Nat := 16

/-- The bank that refuses requests for a line: the anchor, which holds the waybill, where the line is in flight or a reclaim
finds nothing, else the home (R244, R246, R254). -/
def refuser (s : State) (line : Nat) : Nat :=
  let w := waybill s line
  if w.inFlight || !(makeRoom s line).2 then anchor s.dev line else w.home

/-- Refusals that count at a bank for a request of reticle t: the bank's own, and those of the anchor that forwards the
request to it (R255). -/
def refusalsAt (s : State) (r : LaneReq) (t bank line : Nat) : Nat :=
  let via := anchor s.dev line
  SMap.get 0 r.refusals bank + if via != bank && sentTo s t line != bank then SMap.get 0 r.refusals via else 0

/-- A bank refuses a request, after its reclaim has moved what it could; at the 16th refusal it gives a ticket. -/
def refuse (s : State) (k : Nat) (o : Op) (r : LaneReq) (bank line : Nat) : State :=
  let t := (((s.group? o.group).bind (placeOfGroup s)).map reticleOf).getD 0
  let n := refusalsAt s r t bank line + 1
  let r' := { r with refused := true, refusals := SMap.set 0 r.refusals bank (SMap.get 0 r.refusals bank + 1) }
  let s := (makeRoom s line).1
  let s := s.setOp k { o with reqs := o.reqs.map fun x => if x = r then r' else x }
  if ticketAt ≤ n && !s.fab.tickets.contains (bank, k, r.lane) then s.setFab { s.fab with tickets := s.fab.tickets ++ [(bank, k, r.lane)] } else s

/-- A served request gives its tickets back. -/
def dropTickets (s : State) (k lane : Nat) : State :=
  s.setFab { s.fab with tickets := s.fab.tickets.filter fun t => !(t.2.1 == k && t.2.2 == lane) }

/-- The operation after a request of it was served; a posted write has completed already, so that it takes effect at every
site as it arrives (R322), and one whose posted writes have all arrived is over. -/
def afterServe (s : State) (k : Nat) (o : Op) (r : LaneReq) : State :=
  let s := dropTickets s k r.lane
  let s := if o.posted then settleEverywhere s (r.locs.filter fun p => !isSpad p) else s
  if o.posted && o.reqs.isEmpty then s.finishOp k o else s.setOp k o

/-! ## Peer devices (R316, R399) -/

/-- The number under which homes keep the tags of a core of a peer. -/
def PeerReq.requester (r : PeerReq) : Nat := 4096 * (r.peer.val + 1) + r.core.toNat

/-- A peer's request is performed at its line's home, at the peer's own site, as an access to a device-bias page. -/
def servePeer (k : Nat) (r : PeerReq) (s : State) : Option State :=
  let t := 49 + r.peer.val
  let locs := (List.range r.size).map fun i => forwarded s.fab (r.loc + i)
  let s' := s.setFab { s.fab with peerReqs := SMap.del s.fab.peerReqs k }
  let reply (bs : List Byte) (s : State) : State := s.setFab { s.fab with peerReplies := s.fab.peerReplies ++ [(k, bs)] }
  let copies := if r.data.isSome || r.atomic.isSome then cowPages s locs else []
  if (locs.map lineOf).any (lineWaits s .other) || !(locs.all fun p => p < 1536 * gib) || blockedFor s t 0 locs then none
  else if !copies.isEmpty then some (wantCopies s copies)
  else match r.data, r.atomic with
    | some bs, _ => some (writeHome s' t false ((locs.zip bs).map fun x => (x.1, x.2, 0xFF)))
    | none, none =>
      let (bs, s) := readLocs s' t 0 locs
      some (reply bs s)
    | none, some (op, a, b) =>
      let answer (x : Served) (s : State) : State := reply ((x.old.map fun v => leBytes r.size v.toNat).getD []) s
      match r.tag.bind (heldTag s.fab r.requester (lineOf r.loc)) with
      | some x => some (answer x s')
      | none =>
        let old := leNat (readNewest s locs)
        let x : Served := ⟨(waybill s ((locs.map lineOf).headD 0)).home, lineOf r.loc, r.requester, r.tag.getD 0, some (BitVec.ofNat 64 old), 0, []⟩
        let s := writeHome s' t false ((locs.zip (leBytes r.size (atomNew op (8 * r.size) a b old).1)).map fun y => (y.1, y.2, 0xFF))
        some (answer x (if r.tag.isSome then s.setFab (recordTag s.fab x) else s))

/-! ## REQUEST_AT_HOME, REFUSAL_RETRY -/

/-- One lane request of operation k at the home: served, refused, or left to wait. A refusal may also come from a bank
without a free fill slot, and ticketed requests go first. An atomic's response may be lost on the way (R333). -/
def requestOf (k : Nat) (o : Op) (s : State) : Option State := do
  let w ← s.who? o.group
  let ready := o.reqs.filter (mayServe s w k o)
  let r ← ready[Config.freeChoice s.free % ready.length]?
  let s := { s with free := s.free + 1 }
  let (full, s) := s.freeBit
  let line := r.bankLine s
  let bank := (line.map (refuser s)).getD 0
  let ticket := s.fab.tickets.contains (bank, k, r.lane)
  let ahead := line.isSome && ticketAhead s bank k r.lane
  if ticket && ahead then none
  if line.isSome && !ticket && (full || ahead) then pure (refuse s k o r bank (line.getD 0))
  else match serve s w k o r with
    | some (o', s') =>
      let (lost, s') := s'.freeBit
      if lost && isAtomic o.instr && line.isSome then
        pure (s'.setOp k { o with reqs := o.reqs.map fun x => if x = r then { r with lost := true } else x })
      else pure (afterServe s' k o' r)
    | none => if ticket || !(r.isRefused s) then none else pure (refuse s k o r bank (line.getD 0))

/-- REQUEST_AT_HOME: a request of an operation, or of a peer device. -/
def requestAtHome (k : Nat) (s : State) : Option State :=
  match s.op? k with
  | some o => if isHolder o.instr then none else requestOf k o s
  | none => do servePeer k (← SMap.entry? s.fab.peerReqs k) s

/-- REFUSAL_RETRY: the hinted time has passed and a refused request goes out again. -/
def refusalRetry (k : Nat) (s : State) : Option State := do
  let o ← s.op? k
  let r ← o.reqs.find? (·.refused)
  pure (s.setOp k { o with reqs := o.reqs.map fun x => if x = r then { r with refused := false } else x })

def execRequestAtHome (op : Nat) : State → Host.Outcome State Fault Refusal := event (requestAtHome op)
def execRefusalRetry (op : Nat) : State → Host.Outcome State Fault Refusal := event (refusalRetry op)

end Sys2Proof.Machine
end

