-- ==== Sys2Proof/Machine/Snapshots.lean ====
section
/-! DEFINITION. The snapshots of replay-protected launches: the leaves that a launch's tables hold, their copy-on-write and
snapshot bits, and the copy of a page before a write reaches it (R374). -/
namespace Sys2Proof.Machine

/-- A device write of n bytes at a physical address, visible everywhere. -/
def writePhys (s : State) (a n v : Nat) : State :=
  writeHome s 48 true ((leBytes n v).zipIdx.map fun (b, i) => (a + i, b, (0xFF : Byte)))

/-- A launch that never ran a team gets its final status. -/
def fixStatus (s : State) (lid : Nat) (v : BitVec 8) : State := s.modLaunch lid fun x => { x with status := x.status.or (some v) }

/-! ## Leaves -/

/-- A present leaf: its slot's physical address, its value, its level and the first page it maps. -/
structure LeafAt where
  slot : Nat
  leaf : Word
  level : Nat
  page : Nat
  deriving DecidableEq, Repr

/-- What entry i of a table gives of the present leaves that map some page from lo up to hi: none, a leaf, or the leaves of the
table under it. -/
def entryLeaves (mem : List Host.Cell) (lo hi level table page : Nat) (below : Nat → Nat → List LeafAt) (i : Nat) : List LeafAt :=
  let first := page + i * Leaf.pages level
  if hi < first ∨ first + Leaf.pages level ≤ lo then []
  else
    let slot := table + 8 * i
    let w := BitVec.ofNat 64 (Memory.nat mem slot 8)
    if !w.getLsbD 0 then []
    else if level = 0 ∨ w.getLsbD 7 then if level ≤ 2 ∧ Leaf.wellFormed w level then [⟨slot, w, level, first⟩] else []
    else if w.extractLsb' 1 12 != 0 || w.extractLsb' 48 16 != 0 then []
    else below ((w.extractLsb' 13 35).toNat * 2 ^ 13) first

/-- The present leaves of a context that map some page from lo up to hi. -/
def leavesIn (mem : List Host.Cell) (lo hi : Nat) : Nat → Nat → Nat → List LeafAt
  | 0, table, page => (List.range 1024).flatMap (entryLeaves mem lo hi 0 table page fun _ _ => [])
  | level + 1, table, page => (List.range 1024).flatMap (entryLeaves mem lo hi (level + 1) table page (leavesIn mem lo hi level))

/-- Write a leaf's copy-on-write and snapshot bits. -/
def markLeaf (s : State) (slot : Nat) (leaf : Word) (cow snap : Bool) : State :=
  let bits : Word := (if cow then BitVec.ofNat 64 (2 ^ 58) else 0) ||| if snap then BitVec.ofNat 64 (2 ^ 59) else 0
  let mask : Word := BitVec.ofNat 64 (2 ^ 58 + 2 ^ 59)
  writePhys s slot 8 ((leaf &&& ~~~mask) ||| bits).toNat

/-! ## Copies -/

/-- The page of a snapshot in its context's tables: the leaf's slot, value and level. -/
def snapshotLeaf (s : State) (x : Snapshot) : Option LeafAt :=
  (leavesIn s.mem x.page x.page 3 (ctxRoot (ctxEntry s x.ctx)) 0).head?

/-- A leaf shows copy-on-write while some page of it awaits its copy, and snapshot while some copy of its pages is held (R374). -/
def remarkLeaf (s : State) (ctx : BitVec 16) (a : LeafAt) : State :=
  let under := s.snaps.filter fun y => y.ctx == ctx && decide (a.page ≤ y.page) && decide (y.page < a.page + Leaf.pages a.level)
  markLeaf s a.slot a.leaf (under.any fun y => !y.copied) (under.any fun y => y.copied)

/-- Frames of the snapshot store: 4 GiB of 64 KiB pages. -/
def snapshotFrames : Nat := 65536

/-- The physical ranges of a page under a leaf of any level, in order of the page's bytes. -/
def pageParts (leaf : Word) (level page : Nat) : List (Nat × Nat) :=
  (List.range 16).map fun i => (Leaf.phys leaf level (page * 65536 + 4096 * i), 4096)

/-- The offset in the page of a physical address within its parts. -/
def offsetIn (parts : List (Nat × Nat)) (a : Nat) : Option Nat :=
  (parts.zipIdx.find? fun e => decide (e.1.1 ≤ a) && decide (a < e.1.1 + 4096)).map fun e => 4096 * e.2 + (a - e.1.1)

/-- A copy of a page: its listed bytes and its poison, by offset. -/
def copyPage (s : State) (parts : List (Nat × Nat)) (x : Snapshot) : Snapshot :=
  { x with copied := true, wanted := false,
           bytes := s.mem.filterMap fun (e : Nat × Byte) => (offsetIn parts e.1).map fun o => (o, e.2),
           tags := s.fab.poison.filterMap fun (e : Nat × BitVec 12) => (offsetIn parts (32 * e.1)).map fun o => (o / 32, e.2) }

/-- Copy the page of a snapshot; with no frame left its launch is rolled back without replay. -/
def copySnapshot (x : Snapshot) (s : State) : State :=
  if snapshotFrames ≤ (s.snaps.filter (·.copied)).length then (fixStatus s x.launch 0x0B).requestRollback x.launch
  else match snapshotLeaf s x with
    | none => { s with snaps := s.snaps.map fun y => if y = x then { y with copied := true, wanted := false } else y }
    | some a =>
      let parts := pageParts a.leaf a.level x.page
      remarkLeaf { s with snaps := s.snaps.map fun y => if y = x then copyPage s parts y else y } x.ctx a

/-- Copy the pages that a write of the device's own to some locations comes upon (R374). -/
def copyFor (s : State) (locs : List Nat) : State := (cowPages s locs).foldl (fun s x => copySnapshot x s) s

end Sys2Proof.Machine
end

