-- ==== Sys2Proof/Machine/DeviceMem.lean ====
section
/-! DEFINITION. Structures in memory that the dispatcher and the loader read and write through a context's tables: launch
records, images, tables, bitmaps and completion records (R43, R85, R98, R382). -/
namespace Sys2Proof.Machine

/-- Where a byte of a generic pointer with region id 0 lies for the device's own access; `none` where the page or a
permission is missing. -/
def devLoc (s : State) (ctx : BitVec 16) (write : Bool) (p : Nat) : Option Nat :=
  if p / 2 ^ 56 ≠ 0 ∨ (apertureOf p).kind ≠ 2 ∨ !ctxValid s (ctxEntry s ctx) then none
  else match walkTables s ctx p with
    | .found leaf level =>
      let a := Leaf.phys leaf level p
      if (if write then Leaf.write leaf else Leaf.read leaf) && !Leaf.reserved leaf level
          && (!isPeer a || (SMap.get 0 s.dev.peers (peerOf a)).getLsbD 15) && reachable s a then some a else none
    | _ => none

def devLocs (s : State) (ctx : BitVec 16) (write : Bool) (p : Word) (n : Nat) : Option (List Nat) :=
  (List.range n).mapM fun (i : Nat) => devLoc s ctx write (ptrAdd p i).toNat

/-- Bytes that the device reads as an acquire; `none` where a byte cannot be read or is poisoned. -/
def devRead (s : State) (ctx : BitVec 16) (p : Word) (n : Nat) : Option (List Byte) := do
  let locs ← devLocs s ctx false p n
  if (poisonAt s.fab locs).isEmpty then pure (readNewest s locs) else none

def devNat (s : State) (ctx : BitVec 16) (p : Word) (n : Nat) : Option Nat := (devRead s ctx p n).map leNat

/-- Bytes that the device writes with a release, after the copies of snapshot pages; `none` where a byte cannot be written. -/
def devWrite (s : State) (ctx : BitVec 16) (p : Word) (bytes : List Byte) : Option State := do
  let locs ← devLocs s ctx true p bytes.length
  pure (writeHome (copyFor s locs) 48 true ((locs.zip bytes).map fun (a, b) => (a, b, (0xFF : Byte))))

/-! ## Completion bitmaps (R85, R98) -/

/-- Header of the launch's own bitmap: its grid, and a status. -/
def writeBitmapGrid (l : Launch) (s : State) : State :=
  if l.bitmapPtr = 0 then s
  else
    let v := (l.gridX - 1) + (l.gridY - 1) * 2 ^ 20 + (l.gridZ - 1) * 2 ^ 40
    (devWrite s l.ctx (ptrAdd l.bitmapPtr 8) (leBytes 8 v)).getD s

def writeBitmapStatus (l : Launch) (v : Nat) (s : State) : State :=
  if l.bitmapPtr = 0 then s else (devWrite s l.ctx l.bitmapPtr (leBytes 8 v)).getD s

/-- The atomic or of a team's bit. -/
def setBitmapBit (l : Launch) (team : Nat) (s : State) : State :=
  if l.bitmapPtr = 0 then s
  else
    let p := ptrAdd l.bitmapPtr (16 + team / 8 : Nat)
    match devLoc s l.ctx true p.toNat with
    | some a => writeHome (copyFor s [a]) 48 true [(a, 0xFF, BitVec.ofNat 8 (2 ^ (team % 8)))]
    | none => s

end Sys2Proof.Machine
end

