-- ==== Sys2Proof/Machine/Control.lean ====
section
/-! DEFINITION. The control instructions (R171 to R188) and the porter's steps. -/
namespace Sys2Proof.Machine

/-! ## Helpers of R171 -/

/-- `cond_mask`; a specifier that is neither an s register nor 0xE0 is an illegal operand (R132). -/
def condMask (c : Ctx) (cr : Spec) : Res Mask :=
  match cr with
  | .int ⟨0, _⟩ => .ok c.g.exec
  | .s n => .ok (c.g.readS n.val &&& c.g.exec)
  | _ => illegal

/-- The address of a target field: header offset + 8 × sext(target, 32). -/
def Ctx.target (c : Ctx) (t : BitVec 32) : Int := c.g.hdr.toNat + 8 * t.toInt

/-- `check_target`. -/
def checkTarget (c : Ctx) (a : Int) : Res (BitVec 32) :=
  if 0 ≤ a ∧ a.toNat < 2 ^ 32 ∧ isHeaderAt c.r a.toNat then .ok (BitVec.ofInt 32 a)
  else trap Cause.illegalTarget (BitVec.ofInt 64 a)

/-- `dispatch_entry` of the index register. -/
def dispatchEntry (c : Ctx) (x : Spec) : Res Int :=
  match x with
  | .s n =>
    let j := (c.g.readS n.val).toNat
    match (c.l.dispatch c.r)[j]? with
    | some a => .ok (a : Int)
    | none => trap Cause.dispatchRange (BitVec.ofNat 64 j)
  | _ => illegal

/-- `here`: the byte address of the instruction's word. -/
def Ctx.here (c : Ctx) : BitVec 32 := c.g.hdr + BitVec.ofNat 32 (8 * c.g.idx)

/-- Instructions that the handler may not run (R354). -/
def notInHandler (c : Ctx) : Res Unit := guardOp (!c.g.sup)

/-- The group goes to the clause at `a`. -/
def Ctx.jump (c : Ctx) (g : Group) (a : BitVec 32) (s : State) : State := s.setGroup c.gid (g.goto a s.tick)

/-- The innermost token where it is of kind k and of the current depth, with the tokens outside it. -/
def topOf (c : Ctx) (k : TokKind) (s : State) : Res (Token × List Token) := do
  let t ← innermost c s
  match t with
  | some t => if t.kind = k ∧ t.depth.toNat = c.g.depth then .ok (t, c.g.tokens.drop 1) else trap Cause.illegalConvergence
  | none => trap Cause.illegalConvergence

/-! ## NOP, branches -/

def execNop : State → Host.Outcome State Fault Refusal := runInstr fun _ s => .ok s

/-- BRA (R175). -/
def braTo (sub : BraSub) (cond : Spec) (target : BitVec 32) (c : Ctx) (s : State) : Res State := do
  let m ← condMask c cond
  let taken : Bool := match sub with | .all => m == c.g.exec | .any => m != 0 | .none => m == 0
  if taken then
    let a ← checkTarget c (c.target target)
    .ok (c.jump c.g a s)
  else .ok (c.jump c.g c.nextClause s)

def execBra (sub : BraSub) (cond : Spec) (target : BitVec 32) : State → Host.Outcome State Fault Refusal :=
  runControl (braTo sub cond target)

/-- BRD (R177); a mixed mask in the handler is illegal-convergence (R354). -/
def brdTo (cond : Spec) (target : BitVec 32) (c : Ctx) (s : State) : Res State := do
  let m ← condMask c cond
  if m = 0 then .ok (c.jump c.g c.nextClause s)
  else
    let a ← checkTarget c (c.target target)
    if m = c.g.exec then .ok (c.jump c.g a s)
    else if c.g.sup then trap Cause.illegalConvergence
    else
      let (t, rest) ← topOf c .cond s
      if t.pending ≠ 0 ∨ t.cont ≠ 0 then trap Cause.illegalConvergence
      else .ok (c.jump { c.g with tokens := { t with pending := m, join := a } :: rest, exec := c.g.exec &&& ~~~m } c.nextClause s)

def execBrd (cond : Spec) (target : BitVec 32) : State → Host.Outcome State Fault Refusal := runControl (brdTo cond target)

/-! ## Tokens and joins -/

/-- Push a token and go on to the next clause. -/
def tokenThen (t : Token) (c : Ctx) (s : State) : Res State := do
  let s ← pushToken c t s
  .ok (s.modGroup c.gid fun g => g.goto c.nextClause s.tick)

/-- TOKEN.IF (R176). -/
def execTokenIf : State → Host.Outcome State Fault Refusal :=
  runControl fun c s => do
    notInHandler c
    tokenThen { kind := .cond, depth := BitVec.ofNat 16 c.g.depth } c s

/-- TOKEN.LOOP: the join is the address of the back-edge JOIN, the last word of the clause at the target (R176). -/
def tokenLoop (target : BitVec 32) (c : Ctx) (s : State) : Res State := do
  notInHandler c
  let a := c.target target
  let h ← checkTarget c a
  let n := match codeAt c.r h.toNat with | some w => fld w.toNat 51 4 + 1 | none => 0
  let last := h.toNat + 8 * n
  match (codeAt c.r last).bind decode? with
  | some (.joinLoop _ _) => tokenThen { kind := .loop, join := BitVec.ofNat 32 last, depth := BitVec.ofNat 16 c.g.depth } c s
  | _ => trap Cause.illegalTarget (BitVec.ofInt 64 a)

def execTokenLoop (target : BitVec 32) : State → Host.Outcome State Fault Refusal := runControl (tokenLoop target)

/-- JOIN.IF (R178), with `join_switch` (R158). -/
def joinIf (target : BitVec 32) (c : Ctx) (s : State) : Res State := do
  notInHandler c
  let (t, rest) ← topOf c .cond s
  if t.pending ≠ 0 then
    let t' := { t with cont := t.cont ||| c.g.exec, pending := 0, join := c.here, saved := 0, held := false }
    .ok (s.setGroup c.gid ({ c.g with exec := t.pending, tokens := t' :: rest }.resume c.r t.join s.tick))
  else
    let a ← checkTarget c (c.target target)
    .ok (c.jump { c.g with exec := (c.g.exec ||| t.cont) &&& c.g.live, tokens := rest } a s)

def execJoinIf (target : BitVec 32) : State → Host.Outcome State Fault Refusal := runControl (joinIf target)

/-- JOIN.LOOP (R179). -/
def joinLoop (cond : Spec) (target : BitVec 32) (c : Ctx) (s : State) : Res State := do
  notInHandler c
  let (t, rest) ← topOf c .loop s
  let m ← condMask c cond
  let exited := t.exited ||| (c.g.exec &&& ~~~m)
  let nxt := (m ||| t.cont) &&& c.g.live
  if nxt ≠ 0 then
    let a ← checkTarget c (c.target target)
    .ok (c.jump { c.g with exec := nxt, tokens := { t with exited, cont := 0 } :: rest } a s)
  else settlePaths c none { c.g with exec := exited &&& c.g.live, tokens := rest } c.nextClause s

def execJoinLoop (cond : Spec) (target : BitVec 32) : State → Host.Outcome State Fault Refusal := runControl (joinLoop cond target)

/-! ## BRK, CONT and EXIT (R161, R180, R184) -/

/-- What a search of the token stack finds at one token. -/
inductive Seek where
  | found | pass | stop
  deriving DecidableEq, Repr

/-- `find_loop` at one token. -/
def seekLoop (depth : Nat) (t : Token) : Seek :=
  if t.depth.toNat ≠ depth ∨ t.kind = .call then .stop else if t.kind = .loop then .found else .pass

/-- The nearest LOOP token among resident ones: its index; `none` with true where the search stops. -/
def seekResident (depth : Nat) : List Token → Nat → Option Nat × Bool
  | [], _ => (none, false)
  | t :: ts, i =>
    match seekLoop depth t with
    | .found => (some i, true)
    | .stop => (none, true)
    | .pass => seekResident depth ts (i + 1)

/-- The search among spilled tokens, newest first. -/
def seekSpilled (c : Ctx) : Nat → State → Res (Option (Nat × Token) × State)
  | 0, s => .ok (none, s)
  | n + 1, s => do
    let (t, s) ← readSpilled c true n s
    match seekLoop c.g.depth t with
    | .found => .ok (some (n, t), s)
    | .stop => .ok (none, s)
    | .pass => seekSpilled c n s

/-- Change the nearest LOOP token of the current depth: the group with it, and the token's number where it is a spilled
one; `none` where there is none. -/
def onLoop (c : Ctx) (f : Token → Token) (s : State) : Res (Option (Group × Option (Nat × Token)) × State) :=
  match seekResident c.g.depth c.g.tokens 0 with
  | (some i, _) => .ok (some ({ c.g with tokens := c.g.tokens.modify i f }, none), s)
  | (none, true) => .ok (none, s)
  | (none, false) => do
    let (x, s) ← seekSpilled c c.g.spilledTok s
    .ok (x.map fun (j, t) => (c.g, some (j, f t)), s)

/-- The changed spilled token is written once nothing is left to wait for (R161, R171). -/
def writeChanged (c : Ctx) (x : Option (Nat × Token)) (s : State) : State :=
  match x with
  | some (j, t) => writeSpilled c j t s
  | none => s

/-- BRK and CONT differ in the mask that takes the lanes. -/
def leaveLoop (cond : Spec) (f : Mask → Token → Token) (c : Ctx) (s : State) : Res State := do
  notInHandler c
  let m ← condMask c cond
  let (r, s) ← onLoop c (f m) s
  match r with
  | none => trap Cause.illegalConvergence
  | some (g, x) => do
    let s ← settlePaths c x { g with exec := g.exec &&& ~~~m } c.nextClause s
    .ok (writeChanged c x s)

def execBrk (cond : Spec) : State → Host.Outcome State Fault Refusal :=
  runControl (leaveLoop cond fun m t => { t with exited := t.exited ||| m })

def execCont (cond : Spec) : State → Host.Outcome State Fault Refusal :=
  runControl (leaveLoop cond fun m t => { t with cont := t.cont ||| m })

/-- EXIT (R184). -/
def exitLanes (cond : Spec) (c : Ctx) (s : State) : Res State := do
  notInHandler c
  let m ← condMask c cond
  let (r, s) ← onLoop c (fun t => { t with exited := t.exited ||| m }) s
  let (g, x) := r.getD (c.g, none)
  let g := { g with live := g.live &&& ~~~m, exec := g.exec &&& ~~~m }
  let s ← if g.live = 0 then .ok (s.setGroup c.gid g.finish) else settlePaths c x g c.nextClause s
  .ok (writeChanged c x s)

def execExit (cond : Spec) : State → Host.Outcome State Fault Refusal := runControl (exitLanes cond)

/-! ## Indexed branches and calls -/

/-- BRX (R181). -/
def execBrx (index : Spec) : State → Host.Outcome State Fault Refusal :=
  runControl fun c s => do
    let j ← dispatchEntry c index
    let a ← checkTarget c j
    .ok (c.jump c.g a s)

/-- The limit of R167 for a CALL of k registers: it fails. -/
def callOverflows (g : Group) (k : Nat) : Bool :=
  g.depth == 65535 || decide (g.wlim.toNat < g.wbp.toNat + 4 * g.width * (g.top + k) + 32 * g.spilledAfterPush)

/-- `call` of R182; the target is found after the condition mask is known to be nonzero. -/
def callTo (cond : Spec) (slide : BitVec 4) (target : Ctx → Res Int) (c : Ctx) (s : State) : Res State := do
  notInHandler c
  let m ← condMask c cond
  if m = 0 then .ok (c.jump c.g c.nextClause s)
  else
    let a ← checkTarget c (← target c)
    let k := 8 * slide.toNat
    let g := c.g
    if callOverflows g k then trap Cause.windowOverflow
    else if g.tokens.length = 16 ∨ g.ring < g.occ + k then
      waitPorter c (s.setGroup c.gid { g with wantRing := k, wantTok := decide (g.tokens.length = 16) || g.wantTok })
    else
      let t : Token := { kind := .call, slide, pending := g.exec &&& ~~~m, join := c.nextClause, depth := BitVec.ofNat 16 g.depth }
      .ok (c.jump { g with tokens := t :: g.tokens, depth := g.depth + 1, base := g.base + k, exec := m, wantRing := 0,
                           wantTok := false } a s)

def execCall (cond : Spec) (slide : BitVec 4) (target : BitVec 32) : State → Host.Outcome State Fault Refusal :=
  runControl (callTo cond slide fun c => .ok (c.target target))

/-- CALLX: an index that is not an s register is an illegal operand whatever the mask. -/
def execCallx (cond : Spec) (slide : BitVec 4) (index : Spec) : State → Host.Outcome State Fault Refusal :=
  runControl fun c s => do
    guardOp (isSReg index)
    callTo cond slide (fun c => dispatchEntry c index) c s

/-- RET (R183). -/
def execRet : State → Host.Outcome State Fault Refusal :=
  runControl fun c s => do
    notInHandler c
    let t ← innermost c s
    match t with
    | some t =>
      if t.kind = .call ∧ t.depth.toNat + 1 = c.g.depth then
        settlePaths c none (c.g.returnEffect t (c.g.tokens.drop 1)) t.join s
      else trap Cause.illegalConvergence
    | none => trap Cause.illegalConvergence

/-! ## YIELD, WSYNC, WINFO and PAUSE -/

/-- The innermost token where it is an IF token of the current depth (R160, R162). -/
def innerIf (c : Ctx) (s : State) : Res (Option Token) := do
  let t ← innermost c s
  .ok (t.filter fun t => t.kind = .cond && t.depth.toNat = c.g.depth)

/-- `rotate` (R158). -/
def rotateTo (g : Group) (r : Region) (t : Token) (resume : BitVec 32) (tick : Nat) : Group :=
  { g with exec := t.pending, tokens := { t with pending := g.exec, join := resume } :: g.tokens.drop 1 }.resume r t.join tick

/-- YIELD (R160, R185). -/
def execYield : State → Host.Outcome State Fault Refusal :=
  runControl fun c s => do
    notInHandler c
    let t ← innerIf c s
    match t with
    | some t =>
      if t.pending ≠ 0 ∧ !t.held then .ok (s.setGroup c.gid (rotateTo c.g c.r t c.nextClause s.tick))
      else .ok (c.jump c.g c.nextClause s)
    | none => .ok (c.jump c.g c.nextClause s)

/-- Porter moves of a group have been triggered and are not done. -/
def porterAwaited (s : State) (gid : Nat) : Bool := s.porter.any fun m => m.group == gid

/-- WSYNC.WAIT: no porter move of the group is left (R186). -/
def execWsyncWait : State → Host.Outcome State Fault Refusal :=
  runInstr fun c s => do
    notInHandler c
    if c.g.porterTrap.isSome ∨ porterAwaited s c.gid then waitPorter c s else .ok s

/-- WSYNC.WB: the porter first copies every resident register below the frame (R186). -/
def execWsyncWb : State → Host.Outcome State Fault Refusal :=
  runInstr fun c s => do
    notInHandler c
    match c.g.wb with
    | none => waitPorter c (s.setGroup c.gid { c.g with wb := some c.g.resLo })
    | some _ =>
      if c.g.porterTrap.isSome ∨ porterAwaited s c.gid then waitPorter c s
      else .ok (s.setGroup c.gid { c.g with wb := none })

/-- The quantities of WINFO (R187). ROOM counts the tokens that are spilled once the porter has settled, so that it does not
depend on the porter's progress. -/
def winfo (g : Group) : WItem → Word
  | .depth => BitVec.ofNat 64 g.depth
  | .tokens => BitVec.ofNat 64 (g.tokens.length + g.spilledTok)
  | .base => BitVec.ofNat 64 g.base
  | .room => BitVec.ofInt 64 (((g.wlim.toNat : Int) - 32 * (g.tokens.length + g.spilledTok - 16 : Nat) - g.wbp.toNat) / (4 * g.width : Nat) - (g.top : Nat))
  | .occ => BitVec.ofNat 64 g.occ
  | .ring => BitVec.ofNat 64 g.ring

def execWinfo (item : WItem) (dst : Spec) : State → Host.Outcome State Fault Refusal :=
  runInstr fun c s =>
    match dst with
    | .s n => .ok (s.setGroup c.gid (c.g.writeS n.val (winfo c.g item)))
    | _ => illegal

/-- PAUSE: wait until the reticle's counter has advanced n cycles, 0 counting as 1 (R188). -/
def pauseFor (n : BitVec 16) (recv : Bool) (c : Ctx) (s : State) : Res State :=
  let until_ := s.cycle (reticleOf c.t.place) + BitVec.ofNat 64 (max 1 n.toNat)
  .ok (s.setGroup c.gid { c.g with phase := .paused, pauseUntil := some (until_, recv) })

def execPauseTime (n : BitVec 16) : State → Host.Outcome State Fault Refusal := runControl (pauseFor n false)
def execPauseRecv (n : BitVec 16) : State → Host.Outcome State Fault Refusal := runControl (pauseFor n true)

/-- PAUSE_EXPIRY. -/
def pauseExpiry (gid : Nat) (s : State) : Option State := do
  let c ← s.ctx? gid
  let (t, recv) ← c.g.pauseUntil
  if c.g.phase = .paused ∧ (t ≤ s.cycle (reticleOf c.t.place) ∨ (recv ∧ !c.g.rx.isEmpty)) then
    pure (c.jump { c.g with pauseUntil := none } c.nextClause s)
  else none

def execPauseExpiry (group : Nat) : State → Host.Outcome State Fault Refusal := event (pauseExpiry group)

/-! ## Porter steps -/

def execPorterSpill (group : Nat) : State → Host.Outcome State Fault Refusal := event (porterSpill group)
def execPorterRefill (group : Nat) : State → Host.Outcome State Fault Refusal := event (porterRefill group)
def execTokenSpill (group : Nat) : State → Host.Outcome State Fault Refusal := event (tokenSpill group)
def execTokenReadback (group : Nat) : State → Host.Outcome State Fault Refusal := event (tokenReadback group)

end Sys2Proof.Machine
end

