-- ==== Sys2Proof/Machine/Memory.lean ====
section
/-! DEFINITION. The memory instructions (R263 to R287): issue, and completion of the counted ones. -/
namespace Sys2Proof.Machine

/-! ## Waits at issue (R269) -/

/-- An acquire that has not completed holds back every memory, engine and matrix instruction. -/
def acquirePending (s : State) (gid : Nat) : Bool :=
  (s.pendingOps gid).any fun e => ((formOf e.2.instr).map Form.acquires).getD false

def afterAcquire (c : Ctx) (s : State) : Res Unit := if acquirePending s c.gid then .error (.wait s) else .ok ()

/-- A release waits for every earlier memory, engine and matrix instruction, posted writes with them, writes dirty bytes back,
and waits for the invalidations they caused: a fence at reticle scope or wider, an access at device scope or wider (R250, R269,
R287, R323). -/
def release (c : Ctx) (fence : Bool) (sc : Scope) (s : State) : Res State :=
  if unreleased s c.gid || !releaseReady s c.t.place sc then .error (.wait s)
  else
    let s := releaseAt s c.t.place sc
    if (Scope.global sc || (fence && Scope.wide sc)) && invalidationsPending s then .error (.wait s) else .ok s

/-- An earlier access of the group to some bytes has not been served. -/
def overlapping (s : State) (gid : Nat) (locs : List Nat) : Bool :=
  (s.groupOps gid).any fun e => e.2.reqs.any fun r => r.locs.any locs.contains

/-- Porter moves triggered before an access come before it (R168). -/
def awaitMoves (c : Ctx) (locs : List Located) (write : Bool) (s : State) : Res Unit :=
  if movesMeet s (c.who s) (locs.map (·.loc)) write then .error (.wait s) else .ok ()

/-- What an access performed at its instruction waits for: earlier accesses of the group to its bytes, and porter moves
(R168, R269). -/
def noOverlap (c : Ctx) (locs : List Located) (write : Bool) (s : State) : Res Unit := do
  awaitMoves c locs write s
  if overlapping s c.gid (locs.map (·.loc)) then .error (.wait s) else .ok ()

/-- The waits of an access of form f before it issues. -/
def orderWaits (c : Ctx) (f : Form) (locs : List Located) (write : Bool) (s : State) : Res State := do
  afterAcquire c s
  let s ← if f.strong && f.releases then release c false f.scope s else .ok s
  awaitMoves c locs write s
  .ok s

/-- The scope of the release that a strong store or atomic makes: its own, or that of the FENCE before it (R323). -/
def Form.relScope (f : Form) (g : Group) : Option Scope :=
  let own := if f.strong && f.releases then some f.scope else none
  if (own.map Scope.global).getD false then own else if f.strong then g.fenceRel.or own else own

/-- A strong store or atomic completes the release of the FENCE before it. -/
def endFenceRel (c : Ctx) (f : Form) (s : State) : State :=
  if f.strong && c.g.fenceRel.isSome then s.modGroup c.gid fun g => { g with fenceRel := none } else s

/-- A byte whose access a convoy shares: global, and not of the private stack (R376). -/
def sharedByte (p : Nat) : Bool := (apertureOf (p % 2 ^ 56)).kind == 2

/-- The pieces of an access that a group makes and checks itself, and those that its convoy makes once: the lead checks these
as it makes them, so that both sides take the trap it meets (R376, R381). -/
def Ctx.split (c : Ctx) (ps : List Piece) : List Piece × List Piece :=
  if c.t.side == .solo then (ps, []) else ps.partition fun p => !sharedByte p.ptr.toNat

/-- Global locations among some located bytes. -/
def globalLocs (locs : List Located) : List Nat := (locs.map (·.loc)).filter fun q => !isSpad q

/-! ## Operations in flight -/

/-- Scale entries that tell which elements are fetched (R56, R57). -/
def Plan.scaleBytes (p : Plan) (x : LanePlan) : List Nat :=
  let r := Rec.ofBits p.form.recIx p.record
  if p.form.recIx ≠ 0 && (r.stored.isShift || r.stored.isInterchange) then
    ((x.elems p.form p.record).filterMap fun e => scaleOf r e.n).flatMap fun y => (List.range y.2).map fun (i : Nat) => (ptrAdd y.1 i).toNat
  else []

/-- The load requests of a plan, one a lane. -/
def loadReqs (p : Plan) (locs : List Located) : List LaneReq :=
  p.lanes.map fun x =>
    let sc := p.scaleBytes x
    let (scales, bytes) := (((locs.filter fun b => b.lane = x.lane).map fun b => (b.ptr, b.loc)).dedup).partition fun b => sc.contains b.1
    { lane := x.lane, kind := .load, bytes, scales }

/-- Where a generic address among some located bytes lies. -/
def locIn (locs : List Located) (p : Nat) : Nat := ((locs.find? fun b => b.ptr == p).map (·.loc)).getD 0

/-- The writes of a lane as a request. -/
def storeReq (locs : List Located) (lane : Nat) (ps : List Put) : LaneReq :=
  { lane, kind := .store, bytes := ps.map fun x => (x.1, locIn locs x.1), data := ps.map fun x => (x.2.1, x.2.2) }

/-! ## The result of a load -/

/-- Poisoned sectors that a lane's fetched bytes meet, lowest first. -/
def lanePoison (p : Plan) (o : Op) (x : LanePlan) : List (Nat × BitVec 12) :=
  let get (a : Nat) : Byte := SMap.get 0 o.got (gotKey x.lane a)
  let fetched := (x.elems p.form p.record).flatMap fun e =>
    let data := (List.range e.len).map fun (i : Nat) => (ptrAdd e.ptr i).toNat
    match x.through p.form p.record with
    | some r =>
      let scale := match scaleOf r e.n with | some (q, n) => (List.range n).map fun (i : Nat) => (ptrAdd q i).toNat | none => []
      if unfetched r e.n get then scale else data ++ scale
    | none => data
  let hit := o.poison.filter fun y => y.1 == x.lane && fetched.any fun a => a / 32 * 32 == y.2.1
  (hit.map (·.2)).insertionSort fun a b => a.1 ≤ b.1

/-- What a finished load writes: lane data, flags, a substitute, and its poison trap. -/
structure LoadDone where
  lanes : List (Nat × Nat)
  fp : BitVec 7
  subst : Bool
  trap : Option Trap

def loadDone (w : Who) (f : Form) (o : Op) : Except Trap LoadDone :=
  let p := o.plan f
  let bad := p.lanes.filterMap fun x => (lanePoison p o x).head?.map fun y => (x.lane, y)
  let good := p.lanes.filter fun x => !bad.any fun b => b.1 == x.lane
  match good.mapM fun x => (loadLane w p x fun a => SMap.get 0 o.got (gotKey x.lane a)).map fun r => (x.lane, r) with
  | .error t => .error t
  | .ok rs => .ok ⟨rs.map fun r => (r.1, r.2.data), orFp (rs.map fun r => r.2.fp), rs.any fun r => r.2.subst, poisonTrap w bad⟩

/-- Write a load's lanes in the frame it was issued in, and raise its flags (R69, R70, R126): all of them in one step, so that
a racing access of the destination finds every lane old or every lane new. DESIGN CHOICE (log entry 98). -/
def writeLoad (s : State) (o : Op) (lid : Nat) (f : Form) (d : Spec) (sx : Bool) (r : LoadDone) : State :=
  let s := s.modGroup o.group fun g => o.inFrame g fun g =>
    { r.lanes.foldl (fun g (l, v) => writeData g d f.size l sx v) g with fpstat := g.fpstat ||| r.fp }
  if r.subst then s.raiseSubst lid f.recIx else s

/-! ## Values from outside (R376) -/

/-- What a read brought, as values: its bytes, and its poison after them. -/
def outsideVals (o : Op) : List (Nat × Word) :=
  o.got.map (fun (e : Nat × Byte) => (e.1, e.2.zeroExtend 64)) ++
    o.poison.map fun (l, a, t) => (2 ^ 100 + gotKey l a, t.zeroExtend 64)

/-- The read that some values stand for. -/
def withVals (o : Op) (v : List (Nat × Word)) : Op :=
  let (tags, bytes) := v.partition fun (e : Nat × Word) => decide (2 ^ 100 ≤ e.1)
  { o with reqs := [], got := bytes.foldl (fun m e => SMap.put m e.1 (e.2.setWidth 8)) o.got,
           poison := o.poison ++ tags.map fun e => ((e.1 - 2 ^ 100) / 2 ^ 64, (e.1 - 2 ^ 100) % 2 ^ 64, e.2.setWidth 12) }

/-- An instruction that has to wait for its requests: one that reads a peer device whose links are all down, or that has not
answered within LINKFENCELIM cycles, traps as fence-unreachable (R399). -/
def unanswered (o : Op) (s : State) : Stop :=
  let asked := (o.reqs.filter fun r => r.kind == .load || r.kind == .atomic).flatMap fun r =>
    (if r.scales.isEmpty then r.bytes else r.scales).map (·.2)
  match (if asked.any isPeer then s.who? o.group else none) with
  | none => .wait s
  | some w =>
    let now := s.cycle (reticleOf w.t.place)
    let start := w.g.peerStart.getD now
    if asked.any (linkDown s) || (w.g.peerStart.isSome && decide (start + w.g.linkFenceLim.zeroExtend 64 ≤ now)) then
      .trap { cause := Cause.fenceUnreachable }
    else .wait (s.modGroup o.group fun g => { g with peerStart := some start })

/-- Serve an operation's requests at once; a refusal leaves the instruction waiting. -/
def serveNow (o : Op) (s : State) : Res (Op × State) :=
  match serveAll (2 * o.reqs.length) o s with
  | some x => .ok x
  | none => .error (unanswered o s)

/-- Serve a load at once: its own bytes by each group, and those that a convoy shares once, by the lead, after their checks.
A lane whose scales are its own leaves out the shared elements that they say are not fetched. -/
def readOutside (c : Ctx) (i : Instr) (f : Form) (p : Plan) (near : List Located) (o : Op) (s : State) : Res (Op × State) := do
  let (o', s) ← serveNow { o with reqs := loadReqs p near } s
  let far := p.pieces.filter fun x => sharedByte x.ptr.toNat
  if c.t.side == .solo then .ok (o', if far.isEmpty then s else assayLog c (c.sig i (far.flatMap Piece.bytes)) (outsideVals o') s)
  else if far.isEmpty then .ok (o', s)
  else
    let (v, s) ← takeOutside c (c.sig i (far.flatMap Piece.bytes)) (fun s => do
      let locs ← checkAccess s (c.who s) .load false far
      let reqs := (loadReqs p locs).map fun r => if r.scales.isEmpty then { r with bytes := o'.wanted f r } else r
      let (x, s) ← serveNow { o' with reqs, got := [], poison := [] } s
      .ok (outsideVals x, s)) s
    .ok (withVals o' v, s)

/-- A raw record-0 read at the instruction: the checks of a load, R269, poison consumed (R280, R291, R370). A block of VDEC is
read so too, whatever the format of its page. DEDUCED (log entry 95). -/
def readRaw (c : Ctx) (i : Instr) (req : Req) (hint : Hint) (ptr : Word) (len : Nat) (s : State) : Res (List Byte × State) := do
  let w := c.who s
  let locs ← checkAccess s w .load false [{ lane := 0, ptr, len }]
  noOverlap c locs false s
  let f : Form := ⟨.s 0, 0, 0, len, req, hint, .relaxed, .none, true⟩
  let r : LaneReq := { lane := 0, kind := .load, bytes := locs.map fun b => (b.ptr, b.loc) }
  let o : Op := { c.op i with flag := none, reqs := [r] }
  match (if mayServe s w s.nextId o r then serveLoad s w s.nextId f (some (none, false)) r.bytes else none) with
  | none => .error (unanswered o s)
  | some y =>
    match poisonTrap w (y.poison.map fun x => (0, x.1, x.2)) with
    | some t => .error (.trap { t with mask := none })
    | none =>
      let got : SMap Byte := y.bytes.foldl (fun m (p, b) => SMap.put m p b) []
      .ok ((List.range len).map fun (k : Nat) => SMap.get 0 got (ptrAdd ptr k).toNat, y.s)

/-- A read at the instruction that the two sides of a convoy make once where its bytes are shared (R376): the lead makes it,
with its checks, and both sides take its bytes or its trap (R381). -/
def readShared (c : Ctx) (i : Instr) (ptr : Word) (len : Nat) (read : State → Res (List Byte × State)) (s : State) :
    Res (List Byte × State) :=
  if sharedByte ptr.toNat then do
    let (v, s) ← takeOutside c (c.sig i [ptr.toNat, len]) (fun s => do
      let (bs, s) ← read s
      .ok (bs.zipIdx.map fun (b, k) => (k, b.zeroExtend 64), s)) s
    .ok (v.map fun e => e.2.setWidth 8, s)
  else read s

/-- A raw read of one structure. `share` lets the two sides of a convoy make it once; a structure that an operation performed
once reads is read by its performer alone. -/
def readBytes (share : Bool) (c : Ctx) (i : Instr) (req : Req) (hint : Hint) (ptr : Word) (len : Nat) (s : State) :
    Res (List Byte × State) :=
  if share then readShared c i ptr len (readRaw c i req hint ptr len) s else readRaw c i req hint ptr len s

def readStructIf (share : Bool) (c : Ctx) (i : Instr) (req : Req) (ptr : Word) (len : Nat) (s : State) : Res (List Byte × State) :=
  readBytes share c i req .page ptr len s

def readStruct (c : Ctx) (i : Instr) (req : Req) (ptr : Word) (len : Nat) (s : State) : Res (List Byte × State) :=
  readStructIf true c i req ptr len s

/-! ## LD, LDU -/

def loadBody (i : Instr) (f : Form) (d : Spec) (sx : Bool) (c : Ctx) (s : State) : Res State := do
  guardOp (dataOk c.g f.once f.size d && f.addrOk c.g)
  if (f.acting c.g).isEmpty then completeAtOnce c i s
  else
    let p ← planAccess c .load f (fun _ => .ok ()) s
    let w := c.who s
    let locs ← checkAccess s w .load false (c.split p.pieces).1
    let s ← orderWaits c f locs false s
    let o : Op := { c.op i with record := p.record, vals := keepPlan p, reqs := loadReqs p locs }
    if p.precise || c.t.side != .solo then
      let s' ← completeAtOnce c i s
      let (o, s) ← readOutside c i f p locs o s'
      match loadDone w f o with
      | .error t => .error (.trap t)
      | .ok r =>
        match r.trap with
        | some t => .error (.trap t)
        | none =>
          let s := writeLoad s o c.lid f d sx r
          .ok (if f.strong && f.acquires then acquireAt s c.gid c.t.place f.scope else s)
    else issueOp c o s

def execLd (f : MForm) : State → Host.Outcome State Fault Refusal := runInstr (loadBody (.ld f) (MForm.form f false) f.data f.aux)
def execLdu (f : MForm) : State → Host.Outcome State Fault Refusal := runInstr (loadBody (.ldu f) (MForm.form f true) f.data f.aux)

/-! ## ST, STU -/

/-- A write waits while a copy-on-write page it names is copied (R374). -/
def awaitCopies (locs : List Located) (s : State) : Res Unit :=
  match cowPages s ((locs.map (·.loc)).filter fun p => !isSpad p) with
  | [] => .ok ()
  | xs => .error (.wait (wantCopies s xs))

/-- What a store writes at some located bytes, as requests. -/
def putReqs (locs : List Located) (ps : List (Nat × List Put)) : List LaneReq :=
  (dropOverwritten (locIn locs) ps).map fun (l, x) => storeReq locs l x

/-- The bytes of a store that some located bytes hold. -/
def putsAt (locs : List Located) (ps : List (Nat × List Put)) : List (Nat × List Put) :=
  ps.map fun (l, x) => (l, x.filter fun y => locs.any fun b => b.ptr == y.1)

/-- The remaining requests of a store all go to peers or the host, and it is no release: it completes before they are
acknowledged (R399). -/
def postable (f : Form) (o : Op) : Bool :=
  !(f.strong && f.releases) && !o.reqs.isEmpty && o.reqs.all fun r => r.bytes.all fun b => isPeer b.2 || isHost b.2

/-- A store's signature covers its addresses and its data (R377, R389). -/
def Ctx.storeSig (c : Ctx) (i : Instr) (ps : List (Nat × List Put)) : Word :=
  c.sig i (ps.flatMap fun x => x.2.flatMap fun y => [y.1, y.2.1.toNat])

/-- A convoy's store: each group writes its own bytes, and the bytes that both share are written once, after their checks,
when both sides have come to the store (R376, R381). What goes to peers or the host alone is posted (R399). -/
def storeOnce (c : Ctx) (i : Instr) (f : Form) (far : List Piece) (st : Res Stored) (near : List Located) (o : Op) (s : State) :
    Res State := do
  let s ← completeAtOnce c i s
  let s ←
    if far.isEmpty then .ok s
    else do
      let ps := match st with | .ok x => x.puts | .error _ => []
      let (_, s) ← performOnce c (c.storeSig i (ps.map fun (l, x) => (l, x.filter fun y => sharedByte y.1))) (fun s => do
        let locs ← checkAccess s (c.who s) .store f.fires far
        let st ← st
        awaitCopies locs s
        let x : Op := { o with reqs := putReqs locs (putsAt locs st.puts), locs := globalLocs locs }
        if anyBlocked s x.locs then .error (.wait s)
        if postable f x then
          let x := { x with flag := none, posted := true, doneAt := s.nextId + 1 }
          .ok ([], { s with ops := SMap.put s.ops s.nextId x, nextId := s.nextId + 1 })
        else do
          let (_, s) ← serveNow x s
          .ok ([], settleEverywhere s x.locs)) s
      .ok s
  let st ← st
  let (_, s) ← serveNow { o with reqs := putReqs near (putsAt near st.puts) } s
  .ok s

/-- Make a store: alone, as a counted operation which the assayer logs, or in a convoy. -/
def issueStore (c : Ctx) (i : Instr) (f : Form) (far : List Piece) (st : Res Stored) (near : List Located) (o : Op) (s : State) :
    Res State := do
  if c.t.side == .solo then
    let x ← st
    let s ← issueOp c { o with reqs := putReqs near x.puts, locs := globalLocs near } s
    .ok (if (globalLocs near).isEmpty then s else assayLog c (c.storeSig i x.puts) [] s)
  else storeOnce c i f far st near o s

/-- A result of the operand stage as a result of the instruction. -/
def orTrap {α : Type} (x : Except Trap α) : Res α := match x with
  | .ok v => .ok v
  | .error t => .error (.trap t)

def storeBody (i : Instr) (f : Form) (d : Spec) (c : Ctx) (s : State) : Res State := do
  guardOp (dataOk c.g f.once f.size d && f.addrOk c.g)
  if (f.acting c.g).isEmpty then completeAtOnce c i s
  else
    let p ← planAccess c .store f (fun p => guardOp (wholeBlocks p)) s
    let w := c.who s
    let (near, far) := c.split p.pieces
    let locs ← checkAccess s w .store f.fires near
    let st := orTrap (storeData w p (readData c.g d f.size))
    if far.isEmpty then let _ ← st
    awaitCopies locs s
    let s ← orderWaits c f locs true s
    let s ← issueStore c i f far st locs { c.op i with rel := f.relScope c.g } s
    let st ← st
    let s := (endFenceRel c f s).raiseFp c.gid st.fp
    .ok (if st.subst then s.raiseSubst c.lid f.recIx else s)

def execSt (f : MForm) : State → Host.Outcome State Fault Refusal := runInstr (storeBody (.st f) (MForm.form f false) f.data)
def execStu (f : MForm) : State → Host.Outcome State Fault Refusal := runInstr (storeBody (.stu f) (MForm.form f true) f.data)

/-! ## ATOM, ATOMU (R275) -/

/-- The operands of a lane. -/
def atomOperands (g : Group) (f : AForm) (once : Bool) (l : Nat) : Nat × Nat :=
  let size := sizeBytes f.size
  match f.data with
  | .s n => ((g.readS n.val).toNat % 2 ^ (8 * size), (g.readS (n.val + 1)).toNat % 2 ^ (8 * size))
  | .v n => if once then (0, 0) else
    if size = 8 then (g.readPair n.val l, g.readPair (n.val + 2) l) else ((g.readV n.val l).toNat, (g.readV (n.val + 1) l).toNat)
  | _ => (0, 0)

/-- The data field and its pair (R136, R275). Any v register may stand there with size 4; v127 has no second register
(log entry 65). -/
def atomDataOk (g : Group) (f : AForm) (once : Bool) : Bool :=
  match f.data with
  | .s n => once && n.val % 2 == 0
  | .v n => !once && (f.size != .b8 || n.val % 4 == 0) && decide (n.val < 127) && vOk g false (n.val + 1)
  | _ => false

def atomBody (i : Instr) (f : AForm) (once : Bool) (c : Ctx) (s : State) : Res State := do
  let fm := AForm.form f once
  guardOp (atomDataOk c.g f once && fm.addrOk c.g)
  if (fm.acting c.g).isEmpty then completeAtOnce c i s
  else
    let p ← planAccess c .atomic fm (fun _ => .ok ()) s
    let w := c.who s
    let (near, far) := c.split p.pieces
    let locs ← checkAccess s w .atomic fm.fires near
    awaitCopies locs s
    let s ← orderWaits c fm locs true s
    let ls := p.lanes.map (·.lane)
    let vals := ls.flatMap fun l =>
      let (a, b) := atomOperands c.g f once l
      [(64 + l, BitVec.ofNat 64 a), (128 + l, BitVec.ofNat 64 b)]
    let tag := SMap.get 0 s.fab.atomTag c.t.place
    -- tags are drawn, and the FENCE before it ends, once the atomic issues
    let drawn (s : State) : State :=
      endFenceRel c fm (s.setFab { s.fab with atomTag := SMap.set 0 s.fab.atomTag c.t.place (tag + BitVec.ofNat 16 p.lanes.length) })
    let reqs (locs : List Located) : List LaneReq := (loadReqs p locs).zipIdx.map fun (r, n) =>
      { r with kind := .atomic, tag := some (tag + BitVec.ofNat 16 n) }
    let o : Op := { c.op i with record := p.record, vals, rel := fm.relScope c.g }
    if c.t.side == .solo then
      let s ← issueOp c { o with reqs := reqs locs, locs := globalLocs locs } s
      .ok (drawn s)
    else
      let s ← completeAtOnce c i s
      let own := (reqs locs).filter fun r => !r.bytes.isEmpty
      match poisonTrap w (own.flatMap fun r => (atomPoison s w r.bytes).map fun x => (r.lane, x)) with
      | some t => .error (.trap t)
      | none => .ok ()
      let addrs := far.flatMap Piece.bytes
      let (v, s) ←
        if far.isEmpty then .ok (([] : List (Nat × Word)), s)
        else performOnce c (c.sig i (addrs ++ vals.map fun e => e.2.toNat)) (fun s => do
          let locs ← checkAccess s (c.who s) .atomic fm.fires far
          awaitCopies locs s
          if anyBlocked s (globalLocs locs) then .error (.wait s)
          let (x, s) ← serveNow { o with reqs := (reqs locs).filter fun r => !r.bytes.isEmpty } s
          match poisonTrap w x.poison with
          | some t => .error (.trap t)
          | none => .ok (x.res ++ [(1000, x.fp.zeroExtend 64)], settleEverywhere s (globalLocs locs))) s
      let (x, s) ← serveNow { o with reqs := own } s
      let flags := ((v.find? fun e => e.1 == 1000).map fun e => e.2.setWidth 7).getD 0
      let s := (s.modGroup c.gid fun g => (v.filter (fun e => e.1 < 64) ++ x.res).foldl (fun g e => writeData g f.data fm.size e.1 false e.2.toNat) g)
      let s := drawn (s.raiseFp c.gid (flags ||| x.fp))
      .ok (if fm.acquires then acquireAt s c.gid c.t.place fm.scope else s)

def execAtom (f : AForm) : State → Host.Outcome State Fault Refusal := runInstr (atomBody (.atom f) f false)
def execAtomu (f : AForm) : State → Host.Outcome State Fault Refusal := runInstr (atomBody (.atomu f) f true)

/-! ## LDFE, STFE (R279) -/

/-- Every lane lies in the scratchpad aperture. -/
def spadOnly (p : Plan) : Res Unit :=
  guardOp (p.elems.all fun e => (List.range e.len).all fun (i : Nat) => (apertureOf (ptrAddr (ptrAdd e.ptr i))).kind == 0)

def execLdfe (f : MForm) : State → Host.Outcome State Fault Refusal :=
  runInstr fun c s => do
    let fm := MForm.form f false
    guardOp (dataOk c.g false fm.size f.data && fm.addrOk c.g)
    if (fm.acting c.g).isEmpty then completeAtOnce c (.ldfe f) s
    else
      let p ← planAccess c .load fm spadOnly s
      let w := c.who s
      let locs ← checkAccess s w .load false p.pieces
      let s ← orderWaits c fm locs false s
      noOverlap c locs false s
      let offs := locs.map fun b => b.loc - 2 ^ 48
      if !(offs.all fun o => SMap.get false c.t.fe (o / 16)) then .error (.wait s)
      else
        let s ← completeAtOnce c (.ldfe f) s
        let o : Op := { c.op (.ldfe f) with record := p.record, vals := keepPlan p, reqs := loadReqs p locs }
        let (o, s) ← serveNow o s
        match loadDone w fm o with
        | .error t => .error (.trap t)
        | .ok r => match r.trap with
          | some t => .error (.trap t)
          | none =>
            let s := writeLoad s o c.lid fm f.data false r
            .ok (if f.aux then s.modTeam c.g.team fun t => t.setGranules offs false else s)

def execStfe (f : MForm) : State → Host.Outcome State Fault Refusal :=
  runInstr fun c s => do
    let fm := MForm.form f false
    guardOp (dataOk c.g false fm.size f.data && fm.addrOk c.g)
    if (fm.acting c.g).isEmpty then completeAtOnce c (.stfe f) s
    else
      let p ← planAccess c .store fm spadOnly s
      let w := c.who s
      let locs ← checkAccess s w .store false p.pieces
      let s ← orderWaits c fm locs true s
      noOverlap c locs true s
      match storeData w p (readData c.g f.data fm.size) with
      | .error t => .error (.trap t)
      | .ok st =>
        let s ← completeAtOnce c (.stfe f) s
        let (_, s) ← serveNow { c.op (.stfe f) with reqs := putReqs locs st.puts } s
        .ok (s.modTeam c.g.team fun t => t.setGranules (locs.map fun b => b.loc - 2 ^ 48) true)

/-! ## BUFST (R237, R280) -/

/-- The pointer in an s address register. -/
def addrS (c : Ctx) (x : Spec) : Res Word :=
  match x with
  | .s n => .ok (c.g.readS n.val)
  | _ => illegal

def execBufstRecord (f : MForm) : State → Host.Outcome State Fault Refusal :=
  runInstr fun c s => do
    let p ← addrS c f.addr
    guardOp (f.recIx != 0)
    if p.toNat % 8 ≠ 0 then trap Cause.alignment (reportAddr (c.who s).stackBase c.g.stackSlot p.toNat)
    afterAcquire c s
    let s ← completeAtOnce c (.bufstRecord f) s
    let (bs, s) ← readStruct c (.bufstRecord f) .i p 40 s
    .ok (s.modTeam c.g.team fun t => { t with records := SMap.set 0 t.records f.recIx.toNat (BitVec.ofNat 320 (leNat bs)) })

/-- The bytes a buffer descriptor covers. -/
def bufRange (d : BitVec 128) : Nat × Nat :=
  ((d.extractLsb' 0 19).toNat, 4 * (d.extractLsb' 48 16).toNat * (d.extractLsb' 32 16).toNat)

/-- A descriptor that keeps the rules of R237 beside the team's other buffers; removing one needs no range. -/
def bufOk (t : Team) (n : Nat) (d : BitVec 128) : Bool :=
  let (b, len) := bufRange d
  d.extractLsb' 100 28 == 0 && d.extractLsb' 19 13 == 0 &&
    (!d.getLsbD 96 || (b % 4 == 0 && len != 0 && decide (b + len ≤ t.spadSize) &&
      t.bufs.all fun (e : Nat × Buf) => e.1 == n || (let (x, k) := bufRange e.2.desc; decide (b + len ≤ x) || decide (x + k ≤ b))))

/-! ## PREF (R281) -/

/-- Bytes of a lane that pass every check of a load; none of them poisoned or on a host-bias page. -/
def prefBytes (s : State) (w : Who) (ps : List Piece) : Option (List (Nat × Nat)) :=
  let split := splitLanes ps
  (ps.flatMap fun p => p.bytes.map fun b => (p, b)).mapM fun (p, b) => do
    if (earlyCheck w .load (p.spans split) b).isSome then none
    match w.global b with
    | none => pure (b, ((w.locate s b).map (·.1)).getD 0)
    | some va => match translate s w.t.place w.l.ctx va with
      | .found leaf level =>
        let a := Leaf.phys leaf level va
        if (lateCheck s w .load p.fmt false b leaf level a).isSome || Leaf.biased s.dev leaf || (sectorTag s.fab (forwarded s.fab a / 32)).isSome
        then none else pure (b, a)
      | _ => none

/-- Bring a lane's lines into the L1, or only act on the hint; `none` where one of them has to wait. Lines that no L1
keeps are left alone. -/
def prefLane (s : State) (w : Who) (f : Form) (sub : Option (Option (Fmt × Fmt) × Bool)) (bankOnly : Bool) (bytes : List (Nat × Nat)) : Option State :=
  (byLine (forwardAll s.fab (bytes.filter fun b => !isSpad b.2 && !isBypass s b.2))).foldlM (fun s line =>
    match line with
    | [] => some s
    | (p, loc) :: _ =>
      if bankOnly then
        if lineWaits s (.thread w.gid s.nextId) (lineOf loc) then none
        else (hintAt s w f p (lineOf loc) true).map fun s => countAt s w f p (lineOf loc) (effectiveReq s w f p loc)
      else (readLine s w s.nextId f sub line).map (·.s)) s

/-- A lane's plan and pieces, or none where a check after the record's own fails; `fmt` is the format of its page. -/
def prefPlan (f : Form) (record : BitVec 320) (l : Nat) (a : Int) (fmt : Option Fmt) : Option (LanePlan × List Piece) :=
  let r := Rec.ofBits f.recIx record
  let x : LanePlan := { lane := l, start := a, fmt }
  let p : Plan := ⟨f, record, [x]⟩
  let bad := (f.recIx = 0 && (BitVec.ofInt 64 a).toNat % f.size ≠ 0)
    || (match fmt with
        | some fm => (x.through f record).isNone || 8 * ptrAddr (BitVec.ofInt 64 a) % fm.bits != 0
        | none => false)
    || (f.recIx ≠ 0 && p.elems.any fun e => decide (r.elemBit e.n < 0) || decide (8 * (r.extent : Int) < r.elemBit e.n + r.stored.bits))
  if bad then none else some (x, p.pieces)

/-- What PREF does once its register and record are found good: record 0 of a page whose format has scales traps in check 2,
and lanes that fail a later check are dropped (R40, R281). -/
def prefLanes (c : Ctx) (f : Form) (bankOnly : Bool) (s : State) : Res State := do
  let record := c.t.fileRec f.recIx
  let r := Rec.ofBits f.recIx record
  let w := c.who s
  if f.recIx ≠ 0 && perLane r f.size == 0 then .ok s
  else
    let starts := f.starts c.g (max 1 r.reg.bits)
    let fmts := pageFormats w s .load f starts
    scalesPresent fmts
    let plans := starts.zipIdx.filterMap fun (x, i) => prefPlan f record x.1 x.2 (fmts[i]?).join
    let s := w.fill s (plans.flatMap fun x => x.2.flatMap Piece.bytes)
    match plans.foldlM (fun s x => match prefBytes s w x.2 with
      | some bytes => prefLane s w f (subscription (x.1.through f record)) bankOnly bytes
      | none => some s) s with
    | some s => .ok s
    | none => .error (.wait s)

def execPref (f : MForm) : State → Host.Outcome State Fault Refusal :=
  runInstr fun c s => do
    let fm := MForm.form f false
    guardOp (fm.addrOk c.g)
    if (fm.acting c.g).isEmpty then completeAtOnce c (.pref f) s
    else
      if fm.recIx ≠ 0 then recordChecks .load (c.t.fileRec fm.recIx)
      afterAcquire c s
      let s ← completeAtOnce c (.pref f) s
      prefLanes c fm f.aux s

/-! ## VDEC, VENC (R284 to R286) -/

/-- The header's fields, or none where R284 calls it invalid: count, mode, width, reference. -/
def vHeader (h : Nat) : Option (Nat × Nat × Nat × Nat) :=
  let c := fld h 40 7
  let mode := fld h 38 2
  let b := fld h 32 6
  if h / 2 ^ 47 ≠ 0 ∨ 63 < c ∨ 1 < mode ∨ 32 < b then none else some (c + 1, mode, b, h % 2 ^ 32)

def vSize (c b : Nat) : Nat := 8 + 8 * ((c * b + 63) / 64)

/-- The values of a block. -/
def vValues (c mode b r payload : Nat) : List Nat :=
  let u (j : Nat) : Nat := payload / 2 ^ (j * b) % 2 ^ b
  if mode = 0 then (List.range c).map fun j => (r + u j) % 2 ^ 32
  else ((List.range c).foldl (fun (acc : Nat × List Nat) j => let x := (acc.1 + u j) % 2 ^ 32; (x, acc.2 ++ [x])) (r, [])).2

def vAddr (c : Ctx) (f : MForm) : Res Word := do
  let p ← addrS c f.addr
  .ok (ptrAdd p f.off.toInt)

def advanceAddr (c : Ctx) (f : MForm) (a : Word) (n : Nat) (s : State) : State :=
  match f.addr with
  | .s k => if f.aux then s.modGroup c.gid fun g => g.writeS k.val (ptrAdd a n) else s
  | _ => s

def vAligned (c : Ctx) (a : Word) (s : State) : Res Unit :=
  if a.toNat % 8 ≠ 0 then trap Cause.alignment (reportAddr (c.who s).stackBase c.g.stackSlot a.toNat) else .ok ()

/-- The bytes of the block at an address: its header, which says how many there are, then the others. -/
def vRead (c : Ctx) (f : MForm) (a : Word) (s : State) : Res (List Byte × State) := do
  let (h, s) ← readRaw c (.vdec f) f.req f.hint a 8 s
  match vHeader (leNat h) with
  | none => trap Cause.illegalOperand (reportAddr (c.who s).stackBase c.g.stackSlot a.toNat)
  | some (n, _, b, _) => do
    let (bs, s) ← readRaw c (.vdec f) f.req f.hint a (vSize n b) s
    .ok (h ++ bs.drop 8, s)

def execVdec (f : MForm) : State → Host.Outcome State Fault Refusal :=
  runInstr fun c s => do
    guardOp (dataOk c.g false 4 f.data)
    let a ← vAddr c f
    if c.g.exec = 0 then completeAtOnce c (.vdec f) s
    else
      vAligned c a s
      afterAcquire c s
      let s ← completeAtOnce c (.vdec f) s
      let (bs, s') ← readShared c (.vdec f) a 0 (vRead c f a) s
      match vHeader (leNat (bs.take 8)) with
      | none => trap Cause.illegalOperand (reportAddr (c.who s).stackBase c.g.stackSlot a.toNat)
      | some (n, mode, b, r) =>
        let xs := vValues n mode b r (leNat (bs.drop 8))
        let s' := s'.modGroup c.gid fun g => (lanes g.exec).foldl (fun g l => writeData g f.data 4 l false ((xs[l]?).getD 0)) g
        .ok (advanceAddr c f a (vSize n b) s')

/-- The block that encodes some I32 values (R286). -/
def vEncode (xs : List Nat) : List Byte :=
  let r := (xs.map (sext 32)).min?.getD 0
  let us := xs.map fun x => (sext 32 x - r).toNat
  let top := us.max?.getD 0
  let b := if top = 0 then 0 else Nat.log2 top + 1
  let payload := us.zipIdx.foldl (fun p (u, j) => p + u * 2 ^ (j * b)) 0
  leBytes 8 ((xs.length - 1) * 2 ^ 40 + b * 2 ^ 32 + wrapInt 32 r) ++ leBytes (vSize xs.length b - 8) payload

/-- VENC: its bytes are written raw, whatever the format of the page. DEDUCED (log entry 95). -/
def execVenc (f : MForm) : State → Host.Outcome State Fault Refusal :=
  runInstr fun c s => do
    guardOp (dataOk c.g false 4 f.data)
    let a ← vAddr c f
    if c.g.exec = 0 then completeAtOnce c (.venc f) s
    else
      vAligned c a s
      let bs := vEncode ((lanes c.g.exec).map fun l => readData c.g f.data 4 l)
      let w := c.who s
      let (near, far) := c.split [{ lane := 0, ptr := a, len := bs.length }]
      let locs ← checkAccess s w .store false near
      awaitCopies locs s
      let fm := MForm.form f true
      let s ← orderWaits c fm locs true s
      let st : Stored := { puts := [(0, bs.zipIdx.map fun (b, i) => ((ptrAdd a i).toNat, b, 0xFF))] }
      let s ← issueStore c (.venc f) fm far (.ok st) locs { c.op (.venc f) with vals := [(200, ptrAdd a bs.length)] } s
      .ok (if c.t.side == .solo then s else advanceAddr c f a bs.length s)

/-! ## FENCE (R287) -/

/-- Writes that await an acknowledgement from a peer or the host. -/
def unacknowledged (s : State) (gid : Nat) : Nat :=
  ((s.groupOps gid).filter fun e => e.2.posted).foldl (fun n e => n + e.2.reqs.length) 0

/-- A posted write whose links are all down. -/
def unreachableWrite (s : State) (gid : Nat) : Bool :=
  (s.groupOps gid).any fun e => e.2.posted && e.2.reqs.any fun r => r.bytes.any fun b => linkDown s b.2

/-- A system-scope fence begins to count the cycles that it waits for posted writes (R287). -/
def startFence (c : Ctx) (s : State) : State :=
  if 0 < unacknowledged s c.gid then
    s.modGroup c.gid fun g => { g with fenceStart := some (g.fenceStart.getD (s.cycle (reticleOf c.t.place))) }
  else s

/-- FENCE: its obligations, and then, at system scope, the trap where writes stay unacknowledged. FENCE.SC adds at any scope
that the core's dirty bytes go home, posted writes that may still arrive have arrived, and every write seen takes effect
everywhere (R287, R325). -/
def fenceBody (f : MForm) (c : Ctx) (s : State) : Res State := do
  let rel := f.ord == .release || f.ord == .acqRel
  let acq := f.ord == .acquire || f.ord == .acqRel
  let s := if f.scope == .system then startFence c s else s
  afterAcquire c s
  let s ← if rel then release c true f.scope s
    else if (s.pendingOps c.gid).any (fun e => isLoadOp e.2.instr) then .error (.wait s) else .ok s
  let s ← if f.aux then release c true .system s else .ok s
  let s := if acq then acquireAt s c.gid c.t.place f.scope else s
  let ended (s : State) : State := s.modGroup c.gid fun g =>
    { g with fenceStart := none, fenceRel := if rel then some f.scope else g.fenceRel }
  if f.scope == .system then
    if 0 < unacknowledged s c.gid then
      if unreachableWrite s c.gid || fenceLate s c.gid then
        .error (.trapIn { cause := Cause.fenceUnreachable, addr := BitVec.ofNat 64 (unacknowledged s c.gid) } (ended s))
      else .error (.wait s)
    else
      let (_, s) ← performOnce c (c.sig (.fence f) []) (fun s => .ok ([], s)) s
      completeAtOnce c (.fence f) (ended s)
  else completeAtOnce c (.fence f) (ended s)

def execFence (f : MForm) : State → Host.Outcome State Fault Refusal := runInstr (fenceBody f)

/-- FENCE_LINK_TIMEOUT: the waiting fence's LINKFENCELIM count has passed; it traps once its other obligations are met. -/
def fenceLinkTimeout (gid : Nat) (s : State) : Option State := do
  let c ← s.ctx? gid
  if c.g.phase != .waiting || !fenceLate s gid then none
  match (codeAt c.r (c.g.hdr.toNat + 8 * c.g.idx)).bind decode? with
  | some (.fence f) => match fenceBody f c s with
    | .error (.trapIn x s') => pure (c.takeTrap x (c.settled s'))
    | _ => none
  | _ => none

def execFenceLinkTimeout (group : Nat) : State → Host.Outcome State Fault Refusal := event (fenceLinkTimeout group)

/-! ## FLUSHL, INVL, SUBSCR (R282, R283) -/

/-- The global lines named by the active lanes. -/
def namedLines (f : Fabric) (locs : List Located) : List Nat :=
  ((locs.filter fun b => !isSpad b.loc).map fun b => lineOf (forwarded f b.loc)).dedup

/-- Lines of a core's L1 that FLUSHL, INVL or SUBSCR writes back or drops, and that have to wait. -/
def flushWaits (s : State) (core gid : Nat) (lines : List Nat) : Bool :=
  let held := lines.filter fun n => (l1Find s.fab core n).isSome
  held.any (lineWaits s (.thread gid s.nextId)) || weakBlocked s core s.nextId
    || anyBlocked s (((dirtyBytes s.fab core).map (·.1)).filter fun p => held.contains (lineOf p))

/-- A core gives up its copy of a line and its subscription to it. -/
def dropLine (core : Nat) (s : State) (n : Nat) : State :=
  let s := unsubscribe s core n
  s.setFab (l1Drop s.fab core n)

/-- The low 12 bits of the number that the next report's record will take: reports are logged in order. -/
def nextTag (s : State) : BitVec 12 := BitVec.ofNat 12 (s.log.next + s.log.reports.length)

/-- Banks write lines of the device's own memory to HBM (R282, R258). Whether a bank holds a poisoned sector newer than HBM
does is open: where it does, the write is logged and HBM keeps the bit alone, so that once the bank has dropped the sector its
tag is the record's (R369). -/
def hbmWritten (s : State) (drop : Bool) (lines : List Nat) : State :=
  let sectors := ((lines.flatMap fun n => (List.range 4).map fun i => forwarded s.fab (128 * n + 32 * i) / 32).dedup).filter fun q =>
    32 * q < 1536 * gib && (SMap.entry? s.fab.poison q).isSome
  sectors.foldl (fun s q =>
    let (newer, s) := s.freeBit
    let (gone, s) := s.freeBit
    let old := (SMap.entry? s.fab.poison q).getD 0
    if newer then
      let home := (waybill s (q / 4)).home
      let f := if drop || gone then { s.fab with poison := SMap.put s.fab.poison q (nextTag s) } else s.fab
      (s.setFab f).report { cls := 1, unit := 1, cause := 0x11, tag := old, place := BitVec.ofNat 12 home, cycle := s.cycle (reticleOf home),
                            detail := BitVec.ofNat 64 (32 * q) }
    else s) s

def flushBody (i : Instr) (fm : Form) (drop toHbm : Bool) (c : Ctx) (s : State) : Res State := do
  guardOp (fm.addrOk c.g)
  if (fm.acting c.g).isEmpty then completeAtOnce c i s
  else
    let p ← planAccess c .flush fm (fun _ => .ok ()) s
    let locs ← checkAccess s (c.who s) .flush false p.pieces
    afterAcquire c s
    noOverlap c locs true s
    let lines := namedLines s.fab locs
    if flushWaits s c.t.place c.gid lines then .error (.wait s)
    else
      let s ← completeAtOnce c i s
      let s := writeBackLines s c.t.place lines
      let s := if toHbm then hbmWritten s false lines else s
      .ok (if drop then lines.foldl (dropLine c.t.place) s else s)

def execFlushl (f : MForm) : State → Host.Outcome State Fault Refusal := runInstr (flushBody (.flushl f) (MForm.form f false) false f.aux)
def execInvl (f : MForm) : State → Host.Outcome State Fault Refusal := runInstr (flushBody (.invl f) (MForm.form f false) true false)

/-- Whether every element of a core's line has the same key under a format as the home's bytes. -/
def keysAgree (s : State) (core line : Nat) (u f : Fmt) : Bool :=
  match l1Find s.fab core line with
  | some x => !(subChanged ⟨core, false, some (u, f)⟩ x.data (Memory.bytes s.mem (128 * line) 128))
  | none => true

/-- SUBSCR on one line through a record that subscribes precisely: subscribe it, or change the subscription as one event
(R253, R283). -/
def subscribeLine (s : State) (w : Who) (f : Form) (sub : (Fmt × Fmt) × Bool) (bytes : List (Nat × Nat)) : Option State :=
  match bytes with
  | [] => some s
  | (_, loc) :: _ =>
    let line := lineOf loc
    let core := w.t.place
    match (waybill s line).subs.find? fun u => u.core == core with
    | none => (readLine s w s.nextId { f with req := .o } (some (some sub.1, sub.2)) bytes).map (·.s)
    | some old =>
      if lineWaits s (.thread w.gid s.nextId) line || lineStuck s (reticleOf core) line then none
      else do
        let s' ← subscribe s core line (some sub.1, sub.2)
        let coarser := (match old.fmts with | some (_, g) => decide (sub.1.2.bits < g.bits) | none => true)
          && keysAgree s core line sub.1.1 sub.1.2
        if coarser then pure s'
        else
          let (all, s') := readOwned s' (reticleOf core) line
          pure (s'.setFab (supersede (l1Install s'.fab core line all true) core line))

def execSubscr (f : MForm) : State → Host.Outcome State Fault Refusal :=
  runInstr fun c s => do
    let fm := MForm.form f false
    guardOp (fm.addrOk c.g)
    if (fm.acting c.g).isEmpty then completeAtOnce c (.subscr f) s
    else
      let record := c.t.fileRec fm.recIx
      recordChecks .load record
      match subscription (some (Rec.ofBits fm.recIx record)), f.aux with
      | some (some u, m), false =>
        let p ← planAccess c .load fm (fun _ => .ok ()) s
        let w := c.who s
        let locs ← checkAccess s w .load false p.pieces
        afterAcquire c s
        noOverlap c locs false s
        let s ← completeAtOnce c (.subscr f) s
        match (byLine (forwardAll s.fab ((locs.filter fun b => !isSpad b.loc && !isBypass s b.loc).map fun b => (b.ptr, b.loc)))).foldlM
            (fun s b => subscribeLine s w fm (u, m) b) s with
        | some s => .ok s
        | none => .error (.wait s)
      | _, false =>
        afterAcquire c s
        let s ← completeAtOnce c (.subscr f) s
        prefLanes c { fm with req := .i } false s
      | _, true =>
        let p ← planAccess c .load fm (fun _ => .ok ()) s
        let locs ← checkAccess s (c.who s) .load false p.pieces
        afterAcquire c s
        noOverlap c locs true s
        let lines := namedLines s.fab locs
        if flushWaits s c.t.place c.gid lines then .error (.wait s)
        else
          let s ← completeAtOnce c (.subscr f) s
          .ok (lines.foldl (dropLine c.t.place) (writeBackLines s c.t.place lines))

/-! ## Repeated atomics and unanswered peers (R333, R399) -/

/-- The core sends again, with their tags, the requests of an atomic whose responses are lost: the home answers a repeated tag
from its record, and performs it once (R278, R333). Requests that no home has served yet wait as before. -/
def repeatAtomic (k : Nat) (o : Op) (s : State) : State :=
  s.setOp k { o with reqs := o.reqs.map fun r => { r with lost := false, again := r.again || r.lost } }

/-- ATOMIC_REPEAT_TIMEOUT: no response within 2^20 cycles. -/
def atomicRepeatTimeout (k : Nat) (s : State) : Option State := do
  let o ← s.op? k
  let core ← (s.group? o.group).bind (placeOfGroup s)
  if isAtomic o.instr && !o.reqs.isEmpty && o.sentAt + 0x100000 ≤ s.cycle (reticleOf core) then pure (repeatAtomic k o s) else none

/-- ATOMIC_REPEAT_PATH_LOST. -/
def atomicRepeatPathLost (k : Nat) (s : State) : Option State := do
  let o ← s.op? k
  if isAtomic o.instr then pure (repeatAtomic k o s) else none

/-- PEER_ACCESS_TIMEOUT: a peer load or atomic whose links are all down, or that stays unanswered for LINKFENCELIM cycles,
is fence-unreachable. -/
def peerAccessTimeout (k : Nat) (s : State) : Option State := do
  let o ← s.op? k
  -- bytes of a lane whose scales have not come are not asked for yet
  let waiting := o.reqs.flatMap fun r => (if r.scales.isEmpty then r.bytes else r.scales).map (·.2)
  if !isLoadOp o.instr || o.posted || !(waiting.any isPeer) then none
  let w ← s.who? o.group
  let late := o.sentAt + w.g.linkFenceLim.zeroExtend 64 ≤ s.cycle (reticleOf w.t.place)
  if late || waiting.any (linkDown s) then pure (s.faultOp k o { cause := Cause.fenceUnreachable }) else none

def execAtomicRepeatTimeout (op : Nat) : State → Host.Outcome State Fault Refusal := event (atomicRepeatTimeout op)
def execAtomicRepeatPathLost (op : Nat) : State → Host.Outcome State Fault Refusal := event (atomicRepeatPathLost op)
def execPeerAccessTimeout (op : Nat) : State → Host.Outcome State Fault Refusal := event (peerAccessTimeout op)

/-! ## Completion of loads, stores and atomics (R270, R322) -/

/-- Two counted instructions that write one register complete in issue order (R127). -/
def destFree (s : State) (k : Nat) (o : Op) : Bool := !s.destBusy o.group k o.destKeys

/-- What the completion of a weak store leaves in the L1 comes before everything issued from now on (R322). -/
def completeStore (s : State) (core : Nat) (locs : List Nat) : State :=
  let (dirty, sent) := locs.partition (isDirty s.fab core)
  let s := settleEverywhere s sent
  if dirty.isEmpty then s else s.setFab { s.fab with weak := ⟨core, s.nextId, dirty, true⟩ :: s.fab.weak }

/-- A store whose remaining requests all go to peers or the host is posted. -/
def isPosted (o : Op) : Bool :=
  (match o.instr with | .st _ | .stu _ | .venc _ => true | _ => false) && ((formOf o.instr).map fun f => postable f o).getD false

/-- The address register of VENC with aux 1, once it completes (R286). -/
def vencAdvance (o : Op) (s : State) : State :=
  match o.instr with
  | .venc m => match m.addr with
    | .s n => if m.aux then s.modGroup o.group fun g => o.inFrame g fun g => g.writeS n.val (o.val 200) else s
    | _ => s
  | _ => s

/-- The signature of an operation in flight. -/
def Op.sig (o : Op) (more : List Nat) : Word := Config.opSignature ((encode o.instr).getD 0 :: o.exec.toNat :: more)

/-- Completion of a memory instruction; none where it is not one or has requests to serve. -/
def completeMemory (k : Nat) (o : Op) (s : State) : Option State := do
  let w ← s.who? o.group
  let c ← s.ctx? o.group
  let f ← formOf o.instr
  if isPosted o then
    if o.posted then none
    else
      let s := vencAdvance o (s.setOp k { o with posted := true, flag := none, doneAt := s.nextId })
      pure (s.modGroup o.group fun g => g.uncount o.flag)
  else if !o.reqs.isEmpty || o.posted || !destFree s k o || anyBlocked s o.locs then none
  else
    let core := w.t.place
    let acquire (s : State) : State := if f.strong && f.acquires then acquireAt s o.group core f.scope else s
    match o.instr with
    | .ld m | .ldu m =>
      match loadDone w f o with
      | .error t => pure (s.faultOp k o t)
      | .ok r =>
        let s := writeLoad s o w.t.launch f m.data m.aux r
        let s := if o.got.any fun (e : Nat × Byte) => sharedByte e.1 then assayLog c (o.sig []) (outsideVals o) s else s
        match r.trap with
        | some t => pure (s.faultOp k o t)
        | none => pure (acquire (s.finishOp k o))
    | .st _ | .stu _ | .venc _ | .ctxsv _ _ => pure (vencAdvance o ((completeStore s core o.locs).finishOp k o))
    | .atom a | .atomu a =>
      let s := s.modGroup o.group fun g => o.inFrame g fun g => o.res.foldl (fun g e => writeData g a.data f.size e.1 false e.2.toNat) g
      let s := settleEverywhere (s.raiseFp o.group o.fp) o.locs
      let s := if o.locs.isEmpty then s else assayLog c (o.sig (o.locs ++ o.vals.map fun e => e.2.toNat)) o.res s
      match poisonTrap w o.poison with
      | some t => pure (s.faultOp k o t)
      | none => pure (acquire (s.finishOp k o))
    | _ => none

end Sys2Proof.Machine
end

