-- ==== Sys2Proof/Machine/Engines.lean ====
section
/-! DEFINITION. Bulk copies and streams (R238 to R240, R260, R261, R288 to R291). -/
namespace Sys2Proof.Machine

/-- MAT and ENG instructions are illegal operands in the handler (R354); an acquire in flight holds them back (R269). -/
def engineReady (c : Ctx) (s : State) : Res Unit := do
  notInHandler c
  afterAcquire c s

/-! ## What an engine reads and writes (R331, R369) -/

/-- Where an engine's byte lies. -/
inductive Site where
  | spad (team off : Nat)
  | mem (loc : Nat)
  deriving DecidableEq, Repr

/-- A byte as an engine carries it: its value, its poison and the bits to write. -/
structure Carried where
  val : Byte
  tag : Option (BitVec 12) := none
  mask : Byte := 0xFF
  deriving DecidableEq, Repr

/-- Checks 1 to 5 of an engine's byte, and 6 to 9 where `late`: the check it fails, or where it lies. -/
def engineByte (s : State) (w : Who) (k : Access) (use : FmtUse) (late : Bool) (p : Nat) : Except Nat (Option Site) :=
  match earlyCheck w .flush false p with
  | some n => .error n
  | none => match w.global p with
    | none => .ok (some (.spad w.g.team ((p % 2 ^ 56) - 0xF0000000000000)))
    | some va =>
      if p / 2 ^ 56 ≠ 0 ∧ !regionAllows w.l (p / 2 ^ 56) k then .error 5
      else if !late then .ok none
      else match translate s w.t.place w.l.ctx va with
        | .found leaf level =>
          let a := Leaf.phys leaf level va
          match lateCheck s w k use true p leaf level a with
          | some n => .error n
          | none => .ok (some (.mem a))
        | _ => .error 6

/-- The trap of an engine's byte that fails a check (R290, R298). -/
def engineTrap (w : Who) (n p : Nat) : Trap := { cause := checkCause n, addr := reportAddr w.stackBase w.g.stackSlot p }

/-- A run of bytes crosses an edge of an aperture. -/
def crossesEdge (p : Word) (len : Nat) : Bool :=
  [0xE0000000000000, 0xE0000100000000, 0xF0000000000000, 0xF0000000080000].any fun (b : Nat) =>
    let d := (b + 2 ^ 56 - ptrAddr p) % 2 ^ 56
    0 < d && decide (d < len)

/-- The first byte of a run that fails check n of R230, one of 1, 2, 4 and 5. -/
def runFails (w : Who) (k : Access) (n : Nat) (p : Word) (len : Nat) : Option Nat :=
  let a := ptrAddr p
  let id := ptrRegion p
  if len = 0 then none
  else match n, apertureOf a with
    | 1, ap => if (ap.kind ≠ 2 && id != 0) || crossesEdge p len then some p.toNat else none
    | 2, .scratchpad off => if w.t.spadSize < off + len then some (0xF0000000000000 + max off w.t.spadSize) else none
    | 4, .global =>
      if id = 0 then none
      else match regionEntry w.l id with
        | none => some p.toNat
        | some e =>
          let lo := (e.extractLsb' 0 56).toNat
          let hi := (e.extractLsb' 64 56).toNat
          if a < lo ∨ hi ≤ a then some p.toNat else if hi < a + len then some (id * 2 ^ 56 + hi) else none
    | 5, .global => if id = 0 || regionAllows w.l id k then none else some p.toNat
    | _, _ => none

/-- Checks 1, 2, 4 and 5 of R230 over some runs of bytes: the lowest-numbered check that a byte fails decides, at the first
byte that fails it (R289, R298). -/
def rangeCheck (w : Who) (runs : List (Access × Word × Nat)) : Res Unit :=
  match [1, 2, 4, 5].findSome? fun n => (runs.findSome? fun (k, p, len) => runFails w k n p len).map fun a => (n, a) with
  | some (n, a) => .error (.trap (engineTrap w n a))
  | none => .ok ()

/-- Read bytes as an engine that a group of a core started. -/
def engineRead (s : State) (core gid : Nat) (xs : List Site) : List Carried × State :=
  let locs := xs.filterMap fun x => match x with | .mem p => some p | _ => none
  let (bs, s) := readLocs s (reticleOf core) gid locs
  let look := (locs.zip bs).dedup
  (xs.map fun x => match x with
    | .spad t o => match s.team? t with
      | some tm => { val := tm.spadByte o, tag := SMap.entry? tm.spadPoison (o / 32) }
      | none => { val := 0 }
    | .mem p => { val := ((look.find? fun e => e.1 == p).map (·.2)).getD 0, tag := sectorTag s.fab (forwarded s.fab p / 32) }, s)

/-- Poison a sector of a share; two tags combine to the lower. -/
def Team.addSpadPoison (t : Team) (q : Nat) (tag : BitVec 12) : Team :=
  let tag := match SMap.entry? t.spadPoison q with | some old => if old.toNat < tag.toNat then old else tag | none => tag
  { t with spadPoison := SMap.put t.spadPoison q tag }

/-- Write bytes as an engine of a core: granules are set full, buffers counted, poison carried (R239, R240, R369). The
core's own copies take the new bytes, so that accesses issued after the engine is done see them (R322); other sites may see
the older ones until its completion settles them (R319). -/
def engineWrite (s : State) (core : Nat) (ws : List (Site × Carried)) : State :=
  let teams := (ws.filterMap fun x => match x.1 with | .spad t _ => some t | _ => none).dedup
  let s := teams.foldl (fun s t =>
    let mine := ws.filterMap fun x => match x.1 with | .spad u o => if u = t then some (o, x.2) else none | _ => none
    s.modTeam t fun tm =>
      let tm := (tm.spadWrite (mine.map fun x => (x.1, x.2.val, x.2.mask)) true).setGranules (mine.map (·.1)) true
      mine.foldl (fun tm x => match x.2.tag with | some g => tm.addSpadPoison (x.1 / 32) g | none => tm) tm) s
  let glob := ws.filterMap fun x => match x.1 with | .mem p => some (p, x.2) | _ => none
  if glob.isEmpty then s
  else
    let puts := glob.map fun x => (forwarded s.fab x.1, x.2.val, x.2.mask)
    let s := writeHome s (reticleOf core) false puts
    let s := s.setFab (l1Update s.fab core puts)
    s.setFab (glob.foldl (fun f x => match x.2.tag with | some g => addPoison f (forwarded f x.1 / 32) g | none => f) s.fab)

/-- Lines that an engine will write are engine-held until it is done: dirty bytes that L1s hold of them go home first
(R246, R331). `none`: a bank has no waybill left, or a write of those bytes has to wait. -/
def holdLines (s : State) (locs : List Nat) : Option State :=
  let lines := (locs.map fun p => lineOf (forwarded s.fab p)).dedup
  if !recallReady s lines then none
  else lines.foldlM (fun s n =>
    let (s, ok) := changeWaybill s n fun w => { w with held := true }
    if ok then some s else none) (recallDirty s lines)

/-- Release an ended engine's lines, except those another engine still writes. -/
def freeLines (s : State) (k : Nat) (locs : List Nat) : State :=
  let at_ (p : Nat) : Nat := lineOf (forwarded s.fab p)
  let others := (s.ops.filter fun e => e.1 != k && isHolder e.2.instr).flatMap fun e => e.2.locs.map at_
  (((locs.map at_).dedup).filter fun n => !others.contains n).foldl (fun s n =>
    match waybill? s.fab n with
    | some w => setWaybill s n { w with held := false }
    | none => s) s

/-- A line leaves the engine's hands with its last write to it (R246, R331): of what an engine holds, free the lines among
`done` that no byte of `rest` lies in. -/
def freeWritten (s : State) (k : Nat) (o : Op) (done rest : List Nat) : State × Op :=
  let still := rest.map lineOf
  let ended := (done.map lineOf).filter fun n => !still.contains n
  let (gone, left) := o.locs.partition fun p => ended.contains (lineOf p)
  (freeLines s k gone, { o with locs := left })

/-- Lines of generic addresses that an engine had written when it was stopped (R359, R365). -/
def Op.wrote (o : Op) : List Nat := (o.vals.filter fun e => e.1 == 800).map fun e => e.2.toNat

/-- What an engine has still to write, by generic address. -/
def Op.unwritten {α : Type} (o : Op) (ws : List (Nat × α)) : List (Nat × α) := ws.filter fun e => !o.wrote.contains (e.1 / 128)

/-- Some of the lines that an engine has still to write, as free bits say: it stops at a line boundary (R359, R365). -/
def linesDone {α : Type} (s : State) (ws : List (Nat × α)) : List Nat × State :=
  let ls := (ws.map fun e => e.1 / 128).dedup
  ((ls.zipIdx.filter fun e => Config.freeBit (s.free + e.2)).map (·.1), { s with free := s.free + ls.length })

/-- Locations of a list of sites. -/
def siteLocs (xs : List Site) : List Nat := xs.filterMap fun x => match x with | .mem p => some p | _ => none

/-- Offsets of a list of sites in shares. -/
def spadOffs (xs : List Site) : List Nat := xs.filterMap fun x => match x with | .spad _ o => some o | _ => none

/-- An engine's reads and writes wait: for a bank, an older engine's lines, a link, or a write to them that is not settled. -/
def sitesWait (s : State) (k : Nat) (o : Op) (core : Nat) (xs : List Site) : Bool :=
  let locs := siteLocs xs
  ((locs.map fun p => lineOf (forwarded s.fab p)).dedup).any (engineWaits s k o) || blockedFor s (reticleOf core) o.group locs

/-- Earlier memory instructions of the group have reached memory, so that an engine sees them; after a resumption those from
before the RFT too (R289, R297, R314). -/
def earlierServed (s : State) (k : Nat) (o : Op) : Bool :=
  (s.groupOps o.group).all fun e => !(e.1 < max k o.doneAt && e.1 != k && !e.2.reqs.isEmpty)

/-- An engine may read what its group wrote before it. -/
def engineReady? (s : State) (k : Nat) (o : Op) (core : Nat) : Bool := earlierServed s k o && writeBackReady s core

/-- Buffers move to draining when an engine reads them, and back when the last read is over (R238, R239). -/
def Team.engineReads (t : Team) (offs : List Nat) (start : Bool) : Team :=
  let hit := ((offs.filterMap fun o => (t.bufferAt o).map (·.1))).dedup
  { t with bufs := hit.foldl (fun m k => SMap.adjust m k fun b =>
      if start then { b with state := if b.state == .full then .draining else b.state, reads := b.reads + 1 }
      else
        let b := { b with reads := b.reads - 1 }
        if b.reads == 0 && b.state == .draining then { b with state := if b.desc.getLsbD 99 then .empty else .full } else b) t.bufs }

/-- An engine may read, or write, a byte of a share in its buffer's state (R238). -/
def engineBufOk (t : Team) (write : Bool) (off : Nat) : Bool :=
  match t.bufferAt off with
  | none => true
  | some (_, b) => match b.state with | .empty | .filling => write | .full | .draining => !write

/-! ## Barrier objects (R342, R344) -/

/-- The object at an offset of a share. -/
def Team.object (t : Team) (off : Nat) : BitVec 128 := BitVec.ofNat 128 (leNat ((List.range 16).map fun i => t.spadByte (off + i)))

def Team.setObject (t : Team) (off : Nat) (v : BitVec 128) : Team :=
  { t with spad := (leBytes 16 v.toNat).zipIdx.foldl (fun m (b, i) => SMap.set 0 m (off + i) b) t.spad }

/-- An object that no arrival may act on: no expected count, or a reserved bit. -/
def objectBad (v : BitVec 128) : Bool := v.extractLsb' 32 32 == 0 || v.extractLsb' 67 29 != 0

/-- n arrivals: the count is exact, and each time it reaches the expected count the phase flips and no group waits. -/
def arriveObject (v : BitVec 128) (n : Nat) : BitVec 128 :=
  let e := (v.extractLsb' 32 32).toNat
  let total := (v.extractLsb' 0 32).toNat + n
  let flips := total / e
  let phase : BitVec 1 := v.extractLsb' 64 1 ^^^ BitVec.ofNat 1 flips
  let mask : BitVec 32 := if flips = 0 then v.extractLsb' 96 32 else 0
  mask ++ (v.extractLsb' 65 31 : BitVec 31) ++ phase ++ (v.extractLsb' 32 32 : BitVec 32) ++ BitVec.ofNat 32 (total % e)

/-! ## BCOPY: its shape -/

/-- What a BCOPY copies: rows, bytes of a row, strides. -/
structure Copy where
  src : Word
  dst : Word
  rows : Nat
  len : Nat
  sstride : Nat
  dstride : Nat

/-- The operands as read at issue (R288); `none` where the length register is not legal. -/
def copyOf (twoD : Bool) (src dst len : Word) : Option Copy :=
  if twoD then
    let rows := (len.extractLsb' 16 16).toNat
    let n := (len.extractLsb' 0 16).toNat
    if rows = 0 ∨ n = 0 then none
    else some ⟨src, dst, rows, n, (len.extractLsb' 32 16).toNat, (len.extractLsb' 48 16).toNat⟩
  else if len.extractLsb' 40 24 ≠ 0 then none
  else some ⟨src, dst, if len = 0 then 0 else 1, len.toNat, 0, 0⟩

/-- Every byte, as pairs of source and destination pointers. -/
def Copy.pairs (x : Copy) : List (Nat × Nat) :=
  (List.range x.rows).flatMap fun j => (List.range x.len).map fun k =>
    ((ptrAdd x.src (j * x.sstride + k : Nat)).toNat, (ptrAdd x.dst (j * x.dstride + k : Nat)).toNat)

def isSpadPtr (p : Nat) : Bool := (apertureOf (p % 2 ^ 56)).kind == 0

def sVal (c : Ctx) (x : Spec) : Res Word := addrS c x

/-- The copy of an operation. -/
def Op.copy (o : Op) (f : EForm) : Option Copy := copyOf f.twoD (o.val 0) (o.val 1) (o.val 2)

/-- The team of a launch on a place: the side of the issuing team where a convoy has both there. -/
def teamAt (s : State) (lid place : Nat) (side : Side) : Option (Nat × Team) :=
  (s.teams.find? fun e => e.2.launch == lid && e.2.place == place && e.2.side == side).or
    (s.teams.find? fun e => e.2.launch == lid && e.2.place == place)

/-- The lines of a global destination that translate when BCOPY issues. -/
def heldByCopy (s : State) (w : Who) (x : Copy) : List Nat :=
  if isSpadPtr x.dst.toNat then []
  else x.pairs.filterMap fun (_, d) =>
    match engineByte s w .store .raw true d with
    | .ok (some (.mem p)) => some (p / 128 * 128)
    | _ => none

/-! ## BCOPY at issue (R289) -/

/-- Source bytes of a copy in its own team's share. -/
def Copy.ownReads (x : Copy) : List Nat :=
  x.pairs.filterMap fun p => if isSpadPtr p.1 then some (p.1 % 2 ^ 56 - 0xF0000000000000) else none

/-- Values that name an engine's operation to both sides of a convoy, by its identity. -/
def namedOp (k : Nat) : Nat × Word := (2 ^ 40, BitVec.ofNat 64 k)

/-- A carried byte as a logged value. -/
def Carried.word (x : Carried) : Word :=
  BitVec.ofNat 64 (x.val.toNat + 2 ^ 8 * x.mask.toNat + match x.tag with | some t => 2 ^ 16 * (t.toNat + 1) | none => 0)

def Carried.ofWord (w : Word) : Carried :=
  { val := w.setWidth 8, mask := w.extractLsb' 8 8, tag := if w.toNat < 2 ^ 16 then none else some (BitVec.ofNat 12 (w.toNat / 2 ^ 16 - 1)) }

/-- A log entry is that of an engine's operation. -/
def names (x : LoadValue) (k : Nat) : Bool := x.vals.head? == some (namedOp k)

/-- The log entry of an engine's operation, a convoy's or a sampled team's, also takes what the engine did to its side, for a
re-execution or a replay (R378, R380, R389): bytes of the share from 2^32, bytes read for slots from 2^33, arrivals from 2^34,
flags at 2^35, faults from 2^36. -/
def noteResult (s : State) (team k : Nat) (vals : List (Nat × Word)) : State :=
  let add (e : Nat × LoadValue) : Nat × LoadValue := if names e.2 k then (e.1, { e.2 with vals := e.2.vals ++ vals }) else e
  let s := s.modConvoy team fun v => { v with commits := v.commits.map add }
  match s.team? team with
  | some t => assayPut team t (8 * vals.length) (fun es => es.map fun e => if e.2.head? == some (namedOp k) then (e.1, e.2 ++ vals) else e) s
  | none => s

/-- The bytes of the issuing team's share that its engine has written. -/
def noteShare (s : State) (team k : Nat) (offs : List Nat) : State :=
  match s.team? team with
  | some t => noteResult s team k (offs.map fun o => (2 ^ 32 + o, Carried.word { val := t.spadByte o, tag := SMap.entry? t.spadPoison (o / 32) }))
  | none => s

/-- A trap as logged values, and logged values as traps. -/
def trapVals (n : Nat) (x : Trap) : List (Nat × Word) :=
  [(2 ^ 36 + 4 * n, x.cause.zeroExtend 64), (2 ^ 36 + 4 * n + 1, x.addr), (2 ^ 36 + 4 * n + 2, x.info.zeroExtend 64)]
    ++ match x.mask with | some m => [(2 ^ 36 + 4 * n + 3, m)] | none => []

/-- The logged values of one kind, from its first key on. -/
def resultsAt (b : Nat) (v : List (Nat × Word)) : List (Nat × Word) :=
  v.filterMap fun e => if b ≤ e.1 ∧ e.1 < 2 * b then some (e.1 - b, e.2) else none

def trapsOf (v : List (Nat × Word)) : List Trap :=
  let v := resultsAt (2 ^ 36) v
  let get (k : Nat) : Option Word := (v.find? fun e => e.1 == k).map (·.2)
  (v.filter fun e => e.1 % 4 == 0).map fun e =>
    { cause := e.2.setWidth 8, addr := (get (e.1 + 1)).getD 0, info := ((get (e.1 + 2)).getD 0).setWidth 23, mask := get (e.1 + 3) }

/-- A fault of a convoy's engine enters its log entry. -/
def noteFault (s : State) (team k : Nat) (x : Trap) : State :=
  let n := ((s.convoys.find? fun v => v.lead == team || v.escort == team).bind fun v =>
    (v.commits.find? fun e => names e.2 k).map fun e => (trapsOf e.2.vals).length).getD 0
  noteResult s team k (trapVals n x)

/-- In a re-execution an engine that the log covers is not started again: its side takes the logged bytes, arrivals and flags, and
its group the faults, before its next clause. DEDUCED (log entry 92). -/
def replayEngine (c : Ctx) (o : Op) (v : List (Nat × Word)) (s : State) : State :=
  let ws := (resultsAt (2 ^ 32) v).map fun e => (Site.spad c.g.team e.1, Carried.ofWord e.2)
  let s := match o.instr with
    | .bcopy f => match o.copy f with
      | some x => (s.modTeam c.g.team fun t => t.engineReads x.ownReads true).modTeam c.g.team fun t => t.engineReads x.ownReads false
      | none => s
    | _ => s
  let s := if ws.isEmpty then s else engineWrite s c.t.place ws
  let s := (resultsAt (2 ^ 34) v).foldl (fun s e => s.modTeam c.g.team fun t => t.setObject e.1 (arriveObject (t.object e.1) 1)) s
  let s := (resultsAt (2 ^ 35) v).foldl (fun s e => s.raiseFp c.gid (e.2.setWidth 7)) s
  (trapsOf v).foldl (fun s x => s.modGroup c.gid fun g => { g with heldFaults := g.heldFaults ++ [(x, none)] }) s

/-- Count an engine on the flag of each side: `share` has named the operation, by its identity, to both. The lead starts
it; a side that finds it in flight counts on it too, and one that finds it over completes at once. -/
def joinEngine (c : Ctx) (i : Instr) (o : Op) (v : List (Nat × Word)) (s : State) : Res State := do
  let k := ((v.head?).map fun e => e.2.toNat).getD 0
  if c.t.side != .escort ∧ k = s.nextId then issueOp c o s
  else match s.op? k with
    | none => do
      let s ← completeAtOnce c i s
      .ok (if (v.drop 1).isEmpty then s else replayEngine c o v s)
    | some x =>
      let s ← countFlag (c.flag i) c.gid s
      if c.t.side == .escort then .ok (s.setOp k { x with twin := some (c.gid, c.flag i) })
      else .ok (s.setOp k { x with flag := c.flag i })

/-- An engine that a convoy starts once (R376): its identity is the value that both sides share. -/
def startEngine (c : Ctx) (i : Instr) (o : Op) (sig : Word) (s : State) : Res State := do
  let _ ← countFlag (c.flag i) c.gid s
  let (v, s) ← performOnce c sig (fun s => .ok ([namedOp s.nextId], s)) s
  joinEngine c i o v s

/-- Issue an engine with the lines that it will write: a convoy's lead marks them for both. -/
def issueHolder (c : Ctx) (i : Instr) (o : Op) (sig : Word) (s : State) : Res State :=
  if c.t.side == .escort then startEngine c i o sig s
  else match holdLines s o.locs with
    | none => .error (.wait s)
    | some s' => match startEngine c i o sig s with
      | .error e => .error e
      | .ok _ => startEngine c i o sig s'

/-- Writes to some lines, and the others. -/
def splitLines (ls : List Nat) (ws : List (Nat × Site × Carried)) : List (Nat × Site × Carried) × List (Nat × Site × Carried) :=
  ws.partition fun e => ls.contains (e.1 / 128)

/-- The global locations of some writes. -/
def linesOf (ws : List (Nat × Site × Carried)) : List Nat := siteLocs (ws.map fun e => e.2.1)

/-- A stopped engine has written some lines: the marks of those end, and it writes the others when it goes on. -/
def noteWritten (s : State) (k : Nat) (o : Op) (ls : List Nat) (done rest : List Nat) : State :=
  let (s, o) := freeWritten s k o done rest
  s.setOp k { o with vals := ls.map (fun n => (800, BitVec.ofNat 64 n)) ++ o.vals }

/-- The rows of a copy as runs of bytes. -/
def Copy.rowsOf (x : Copy) (k : Access) (p : Word) (stride : Nat) : List (Access × Word × Nat) :=
  (List.range x.rows).map fun j => (k, ptrAdd p (j * stride : Nat), x.len)

def bcopyBody (f : EForm) (c : Ctx) (s : State) : Res State := do
  engineReady c s
  let src ← sVal c f.src
  let dst ← sVal c f.dst
  let len ← sVal c f.len
  match copyOf f.twoD src dst len with
  | none => illegal
  | some x =>
    if !usable s.dev f.place.toNat then trap Cause.placementFault (f.place.zeroExtend 64)
    let w := c.who s
    rangeCheck w (x.rowsOf .load src x.sstride ++ if isSpadPtr dst.toNat then [] else x.rowsOf .store dst x.dstride)
    let s := w.fill s (if isSpadPtr dst.toNat then [] else x.pairs.map (·.2))
    let held := heldByCopy s w x
    let o : Op := { c.op (.bcopy f) with vals := [(0, src), (1, dst), (2, len)], locs := held }
    issueHolder c (.bcopy f) o (c.sig (.bcopy f) [src.toNat, dst.toNat, len.toNat]) s

def execBcopy (f : EForm) : State → Host.Outcome State Fault Refusal := runInstr (bcopyBody f)

/-! ## BCOPY in flight (R239, R289, R290) -/

/-- Where each byte of a copy lies, up to the first byte that a late check forbids. -/
def copySites (s : State) (w : Who) (tid : Nat) (x : Copy) : List (Site × Site) × Option (Nat × Nat) :=
  let one (p : Nat × Nat) : Except (Nat × Nat) (Site × Site) :=
    match engineByte s w .load .raw true p.1 with
    | .error n => .error (n, p.1)
    | .ok none => .error (6, p.1)
    | .ok (some a) =>
      (match a with
        | .spad _ off => if engineBufOk w.t false off then .ok () else .error (3, p.1)
        | _ => .ok ()) >>= fun _ =>
      if isSpadPtr p.2 then .ok (a, .spad tid (p.2 % 2 ^ 56 - 0xF0000000000000))
      else match engineByte s w .store .raw true p.2 with
        | .error n => .error (n, p.2)
        | .ok (some b) => .ok (a, b)
        | .ok none => .error (6, p.2)
  let rec go : List (Nat × Nat) → List (Site × Site) → List (Site × Site) × Option (Nat × Nat)
    | [], acc => (acc.reverse, none)
    | p :: ps, acc => match one p with
      | .ok z => go ps (z :: acc)
      | .error e => (acc.reverse, some e)
  go x.pairs []

/-- What is written into a convoy team's share is written into both sides' shares alike (R376). -/
def mirrorShare (s : State) (tid : Nat) (ws : List (Site × Carried)) : List (Site × Carried) :=
  let twin := match s.team? tid with | some t => if t.side == Side.solo then none else some t.peer | none => none
  match twin with
  | some p => ws ++ ws.filterMap fun (w : Site × Carried) => match w.1 with
      | .spad u o => if u = tid then some (Site.spad p o, w.2) else none
      | _ => none
  | none => ws

/-- Write a run of a copy's bytes. Destination bytes that the source range also holds take some byte of it (R289). -/
def copyBytes (s : State) (core gid tid : Nat) (zs : List (Site × Site)) : State :=
  let (src, s) := engineRead s core gid (zs.map (·.1))
  let sources := zs.map (·.1)
  let (ws, s) := (zs.zip src).foldl (fun (acc : List (Site × Carried) × State) (z : (Site × Site) × Carried) =>
    if sources.contains z.1.2 then
      let i := Config.freeChoice acc.2.free % src.length
      (acc.1 ++ [(z.1.2, (src[i]?).getD z.2)], { acc.2 with free := acc.2.free + 1 })
    else (acc.1 ++ [(z.1.2, z.2)], acc.2)) ([], s)
  engineWrite s core (mirrorShare s tid ws)

/-- At most n bytes of a copy, ending where a destination line ends: an engine stops at a line boundary (R359, R365), and a
sector that the copy covers is written whole and loses its poison (R369). -/
def Copy.lineCut (x : Copy) : Nat → Nat
  | 0 => 0
  | n + 1 =>
    match x.pairs[n]?, x.pairs[n + 1]? with
    | some a, some b => if a.2 / 128 == b.2 / 128 then x.lineCut n else n + 1
    | _, _ => n + 1

/-- Write the bytes of a copy up to byte n, as far as they are not written. -/
def copyUpTo (s : State) (k : Nat) (o : Op) (w : Who) (tid : Nat) (zs : List (Site × Site)) (n : Nat) : State × Op :=
  let s := copyBytes s w.t.place o.group tid ((zs.take n).drop o.prog)
  freeWritten s k { o with prog := max o.prog n } (siteLocs ((zs.take n).map (·.2))) (siteLocs ((zs.drop n).map (·.2)))

/-- Destination bytes of a copy in the issuing group's private stack count as written by it (R228). -/
def markCopied (gid : Nat) (x : Copy) (s : State) : State :=
  if (apertureOf (ptrAddr x.dst)).kind == 1 then
    s.modGroup gid fun g => (List.range x.rows).foldl (fun g j => g.markStack (ptrAdd x.dst (j * x.dstride : Nat)) x.len) g
  else s

/-- A started copy reads no more (R239). -/
def endReads (s : State) (o : Op) (w : Who) (x : Copy) : State :=
  if o.started then s.modTeam w.g.team fun t => t.engineReads x.ownReads false else s

/-- The team of an operation's group. -/
def Op.teamIn (s : State) (o : Op) : Nat := ((s.group? o.group).map fun g => g.team).getD 0

/-- An engine fault ends the operation (second row of R290). -/
def endEngine (s : State) (k : Nat) (o : Op) (x : Trap) : State := (freeLines (noteFault s (o.teamIn s) k x) k o.locs).faultOp k o x

/-- An engine fault that leaves the operation to go on (first row of R290). -/
def stallEngine (s : State) (k : Nat) (o : Op) (x : Trap) : State := (noteFault s (o.teamIn s) k x).stallOp k o x

/-- The object's pointer in the scratchpad aperture. -/
def objectAddr (f : EForm) : Word := BitVec.ofNat 64 (0xF0000000000000 + 16 * f.bar.toNat)

/-- Every copy-on-write page that a copy would write has been copied. -/
def copiesDone (s : State) (locs : List Nat) : Bool := (cowPages s locs).isEmpty

/-- Pages of a copy's bytes enter the core's buffers. -/
def Copy.fill (x : Copy) (w : Who) (s : State) : State := w.fill s (x.pairs.flatMap fun p => [p.1, p.2])

/-- Some more whole lines of a copy may be written now, in any number. -/
def copySome (s : State) (k : Nat) (o : Op) (w : Who) (x : Copy) (tid : Nat) : State :=
  let zs := (copySites s w tid x).1
  let n := x.lineCut (Config.freeChoice s.free % (zs.length + 1))
  let s := { s with free := s.free + 1 }
  let now := (zs.take n).drop o.prog
  if sitesWait s k o w.t.place (now.flatMap fun z => [z.1, z.2]) || !copiesDone s (siteLocs (now.map (·.2))) then s
  else
    let (s, o) := copyUpTo s k o w tid zs n
    s.setOp k o

/-- The first beat: some of the bytes may be copied before the copy completes. -/
def startCopy (s : State) (k : Nat) (o : Op) (w : Who) (x : Copy) (tid : Nat) : State :=
  let s := markCopied o.group x (s.modTeam w.g.team fun t => t.engineReads x.ownReads true)
  let o := { o with started := true, vals := (9, BitVec.ofNat 64 tid) :: o.vals }
  copySome (s.setOp k o) k o w x tid

/-- BCOPY_FIRST_BEAT: earlier writes of the group have gone home; the receiving team, the barrier object, the share and
the buffer states are checked. -/
def bcopyFirstBeat (k : Nat) (s : State) : Option State := do
  let o ← s.op? k
  let f ← match o.instr with | .bcopy f => some f | _ => none
  let w ← s.who? o.group
  if o.started || !engineReady? s k o w.t.place || spadRetained s.fab f.place.toNat then none
  let x ← o.copy f
  let s := x.fill w (writeBack s w.t.place)
  let toSpad := isSpadPtr x.dst.toNat && x.rows * x.len ≠ 0
  if !toSpad && !f.sig then pure (startCopy s k o w x w.g.team)
  else match teamAt s w.t.launch f.place.toNat w.t.side with
    | none => pure (endEngine s k o { cause := Cause.placementFault, addr := f.place.zeroExtend 64 })
    | some (tid, t) =>
      let offs := if toSpad then x.pairs.map fun p => p.2 % 2 ^ 56 - 0xF0000000000000 else []
      let ap (off : Nat) : Word := BitVec.ofNat 64 (0xF0000000000000 + off)
      if f.sig && t.spadSize < 16 * f.bar.toNat + 16 then pure (endEngine s k o { cause := Cause.regionBounds, addr := objectAddr f })
      else if toSpad && ptrRegion x.dst ≠ 0 then pure (endEngine s k o { cause := Cause.regionBounds, addr := x.dst })
      else match offs.find? fun p => decide (t.spadSize ≤ p) with
        | some p => pure (endEngine s k o { cause := Cause.regionBounds, addr := ap p })
        | none => match offs.find? fun p => !engineBufOk t true p with
          | some p => pure (endEngine s k o { cause := Cause.scratchpadState, addr := ap p })
          | none => pure (startCopy s k o w x tid)

/-- The receiving team of a started copy, or the issuing one where nothing is received; none while it is saved. -/
def receivingTeam (s : State) (o : Op) : Option Nat := if (s.team? (o.val 9).toNat).isSome then some (o.val 9).toNat else none

/-- A started copy whose receiving team has gone for good. -/
def receiverGone (s : State) (o : Op) : Bool := (s.team? (o.val 9).toNat).isNone && (SMap.entry? s.saved (o.val 9).toNat).isNone

/-- The release and the arrival that end a signalled copy, on both sides' objects in a convoy (R289, R376); `none` where
the object is not one. -/
def signalObject (s : State) (core tid off : Nat) : Option State := do
  let t ← s.team? tid
  let v := t.object off
  if objectBad v then none
  let sc := (v.extractLsb' 65 2).toNat
  let s := if 2 ≤ sc then settleSeen s (reticleOf core) else s
  let s := s.modTeam tid fun t => t.setObject off (arriveObject (t.object off) 1)
  pure (if t.side == .solo then s else s.modTeam t.peer fun t => if objectBad (t.object off) then t else t.setObject off (arriveObject (t.object off) 1))

/-- The arrival is a release: at device scope it waits until what its site has seen can take effect everywhere (R324). -/
def signalWaits (s : State) (core tid off : Nat) : Bool :=
  match s.team? tid with
  | some t => decide (2 ≤ ((t.object off).extractLsb' 65 2).toNat) && !seenSettles s (reticleOf core)
  | none => false

/-- A started copy stops at a line boundary, for a save or with its launch: lines written until then stay written (R359,
R365). -/
def stopCopy (s : State) (k : Nat) : State :=
  (do let o ← s.op? k
      let f ← match o.instr with | .bcopy f => some f | _ => none
      let w ← s.who? o.group
      let x ← o.copy f
      let tid ← receivingTeam s o
      if !o.started || o.fault.isSome || (o.doneAt != 0 && !engineReady? s k o w.t.place) then none
      else pure (copySome s k o w x tid)).getD s

/-- BCOPY_COMPLETE: the bytes not yet written are written; then the release, the arrival and the firing. -/
def bcopyComplete (k : Nat) (s : State) : Option State := do
  let o ← s.op? k
  let f ← match o.instr with | .bcopy f => some f | _ => none
  let w ← s.who? o.group
  if !o.started || o.fault.isSome then none
  let x ← o.copy f
  let tid ← receivingTeam s o
  let s ← if o.doneAt = 0 then some s else if engineReady? s k o w.t.place then some (writeBack s w.t.place) else none
  let s := x.fill w s
  let (zs, bad) := copySites s w tid x
  let locs := siteLocs (zs.map (·.2))
  let boxes := boxesAt s locs
  if bad.isSome || !(boxes.all (boxHasRoom s)) || invalidationsPending s || spadRetained s.fab f.place.toNat
      || sitesWait s k o w.t.place ((zs.drop o.prog).flatMap fun z => [z.1, z.2])
      || (f.sig && signalWaits s w.t.place tid (16 * f.bar.toNat)) then none
  else if !copiesDone s locs then some (wantCopies s (cowPages s locs))
  else
    let s := copyBytes s w.t.place o.group tid (zs.drop o.prog)
    let s := boxes.foldl fireBox (freeLines (settleEverywhere s locs) k o.locs)
    let s := endReads s o w x
    let s := if tid = w.g.team then noteShare s tid k (spadOffs (zs.map (·.2))) else s
    if f.sig then
      match signalObject s w.t.place tid (16 * f.bar.toNat) with
      | some s => pure ((if tid = w.g.team then noteResult s tid k [(2 ^ 34 + 16 * f.bar.toNat, 0)] else s).finishOp k o)
      | none => pure (endEngine s k o { cause := Cause.illegalOperand, addr := objectAddr f })
    else pure (s.finishOp k o)

/-- Check 6 failed because the page is not present: the engine goes on after RFT (R290, R298). -/
def isPageAbsent (s : State) (w : Who) (n p : Nat) : Bool :=
  n == 6 && match w.global p with
    | some va => match translate s w.t.place w.l.ctx va with | .malformed => false | _ => true
    | none => true

/-- BCOPY_FAULT: a late check fails, or the receiving team has gone. The bytes before it are written; a page that is not present leaves the copy to go on
after RFT, and any other fault ends it. -/
def bcopyFault (k : Nat) (s : State) : Option State := do
  let o ← s.op? k
  let f ← match o.instr with | .bcopy f => some f | _ => none
  let w ← s.who? o.group
  if !o.started || o.fault.isSome then none
  let x ← o.copy f
  if receiverGone s o then pure (endEngine (endReads s o w x) k o { cause := Cause.placementFault, addr := f.place.zeroExtend 64 })
  else do
    let tid ← receivingTeam s o
    let s ← if o.doneAt = 0 then some s else if engineReady? s k o w.t.place then some (writeBack s w.t.place) else none
    let (zs, bad) := copySites s w tid x
    let (n, p) ← bad
    let absent := isPageAbsent s w n p
    let zs := if absent then zs.take (x.lineCut zs.length) else zs
    let locs := siteLocs (zs.map (·.2))
    if sitesWait s k o w.t.place ((zs.drop o.prog).flatMap fun z => [z.1, z.2]) then none
    else if !copiesDone s locs then pure (wantCopies s (cowPages s locs))
    else
      let (s, o) := copyUpTo s k o w tid zs zs.length
      let t := engineTrap w n p
      if absent then pure (stallEngine s k o t)
      else pure (endEngine (endReads s o w x) k o t)

/-- After RFT the engines of a group go on whose fault has been taken; what they read from then on comes after every write
made before it (R289, R290). -/
def resumeEngines (gid : Nat) (s : State) : State :=
  match s.group? gid with
  | none => s
  | some g => { s with ops := s.ops.map fun (e : Nat × Op) =>
      if e.2.group = gid && !(match e.2.fault with | some t => g.heldFaults.any fun h => h.1 == t | none => true)
      then (e.1, { e.2 with fault := none, doneAt := s.nextId }) else e }

def execBcopyFirstBeat (op : Nat) : State → Host.Outcome State Fault Refusal := event (bcopyFirstBeat op)
def execBcopyComplete (op : Nat) : State → Host.Outcome State Fault Refusal := event (bcopyComplete op)
def execBcopyFault (op : Nat) : State → Host.Outcome State Fault Refusal := event (bcopyFault op)

/-! ## Streams (R260, R261, R291) -/

/-- A descriptor that R260 allows with its record. -/
def streamOk (d : BitVec 512) (record : BitVec 320) : Res Unit := do
  let depth := (d.extractLsb' 104 7).toNat
  let ix := (d.extractLsb' 96 6).toNat
  guardOp (d.extractLsb' 416 96 == 0 && d.extractLsb' 111 17 == 0 && d.extractLsb' 102 2 == 0 && decide (8 ≤ depth) && decide (depth ≤ 64))
  if ix ≠ 0 then
    recordChecks .load record
    let r := Rec.ofBits ix record
    guardOp (r.reg.bits ≤ 32 && r.il == 0)
  .ok ()

def execStream (a : Spec) (n : Fin 8) (fb : Bool) : State → Host.Outcome State Fault Refusal :=
  runInstr fun c s => do
    engineReady c s
    let p ← sVal c a
    if (SMap.entry? c.g.streams n.val).isSome then trap Cause.queueMisuse
    if p.toNat % 64 ≠ 0 then trap Cause.alignment (reportAddr (c.who s).stackBase c.g.stackSlot p.toNat)
    let i : Instr := .stream a n fb
    let s ← completeAtOnce c i s
    let (bs, s) ← readStruct c i .i p 64 s
    let d := BitVec.ofNat 512 (leNat bs)
    let record := c.t.fileRec (d.extractLsb' 96 6).toNat
    streamOk d record
    let st : Stream := { desc := d, record, ready := true, since := s.nextId }
    .ok (s.modGroup c.gid fun g => { g with streams := SMap.put g.streams n.val st })

def execSclose (n : Fin 8) (fb : Bool) : State → Host.Outcome State Fault Refusal :=
  runInstr fun c s => do
    engineReady c s
    if (SMap.entry? c.g.streams n.val).isNone then trap Cause.queueMisuse
    let s ← completeAtOnce c (.sclose n fb) s
    .ok (s.modGroup c.gid fun g => { g with streams := SMap.del g.streams n.val })

/-- The pointer of lane l of vector i. -/
def streamPtr (d : BitVec 512) (i l : Nat) : Word :=
  let field (k : Nat) : Nat × Int := (max 1 (d.extractLsb' (128 + 72 * k) 32).toNat, (d.extractLsb' (160 + 72 * k) 40).toInt)
  let (_, off) := (List.range 4).foldl (fun (acc : Nat × Int) k =>
    let (n, st) := field k
    (acc.1 / n, acc.2 + (acc.1 % n : Nat) * st)) (i, (0 : Int))
  ptrAdd (d.extractLsb' 0 64) (off + l * (d.extractLsb' 64 32).toInt)

/-- The form and plan of one lane of a vector: a contiguous element of the record at the lane's address; a raw word with
record 0. -/
def streamForm (d : BitVec 512) : Form := ⟨.s 0, 0, (d.extractLsb' 96 6).toNat, 4, .i, .page, .relaxed, .none, true⟩

def streamElem (r : Rec) (lane : Nat) (p : Word) : Elem :=
  let bit : Int := 8 * ((ptrAddr p : Int) - ptrAddr r.base)
  ⟨lane, 0, bit / (r.stored.bits : Int), p, 0, (r.stored.bits + 7) / 8⟩

/-- What a fetched lane gives: its pattern and flags, or its trap; and the state after the reads. -/
structure LaneFetch where
  lane : StreamLane
  fp : BitVec 7 := 0
  subst : Bool := false
  s : State

/-- Where a stream's byte lies, or the check of a load that it fails. -/
def streamByte (s : State) (w : Who) (span : Bool) (use : FmtUse) (b : Nat) : Except Nat Nat :=
  match earlyCheck w .load span b with
  | some n => .error n
  | none => match w.global b with
    | none => .ok (spadLoc (b % 2 ^ 56 - 0xF0000000000000))
    | some va => match translate s w.t.place w.l.ctx va with
      | .found leaf level =>
        let a := Leaf.phys leaf level va
        match lateCheck s w .load use false b leaf level a with | some n => .error n | none => .ok a
      | _ => .error 6

/-- Where a lane's bytes lie, or the lowest-numbered check that one of them fails and the first byte that does (R230). -/
def streamBytes (s : State) (w : Who) (ps : List Piece) : Except (Nat × Nat) (List (Nat × Nat)) :=
  let split := splitLanes ps
  let all := ps.flatMap fun pc => pc.bytes.map fun b => (b, streamByte s w (pc.spans split) pc.fmt b)
  let bad := all.filterMap fun x => match x.2 with | .error n => some (n, x.1) | .ok _ => none
  match (bad.map (·.1)).min? with
  | some n => .error (n, ((bad.find? fun e => e.1 = n).map (·.2)).getD 0)
  | none => .ok (all.filterMap fun x => match x.2 with | .ok a => some (x.1, a) | .error _ => none)

/-- What a lane fetches: its scale entry, then its element unless the entry already gives its value, or the trap its checks
give (R56, R57, R261). -/
def streamLane (s : State) (w : Who) (st : Stream) (i l : Nat) : Option LaneFetch :=
  let f := streamForm st.desc
  let p := streamPtr st.desc i l
  let fmt := if f.recIx ≠ 0 then none else ((w.leafOf s .load p.toNat).filter Leaf.formatted).map Leaf.format
  let x : LanePlan := { lane := l, start := (p.toNat : Int), fmt }
  let r? : Option Rec := if f.recIx ≠ 0 then some (Rec.ofBits f.recIx st.record) else x.through f st.record
  let bad (c : BitVec 8) (a : Nat) : Trap := { cause := c, addr := reportAddr w.stackBase w.g.stackSlot a }
  let e : Elem := match r? with | some r => streamElem r l p | none => ⟨l, 0, 0, p, 0, 4⟩
  let out : Bool := f.recIx ≠ 0 && (match r? with
    | some r => decide (ptrAddr p < ptrAddr r.base) || decide (8 * r.extent < 8 * (ptrAddr p - ptrAddr r.base) + r.stored.bits)
    | none => false)
  let odd : Bool := f.recIx == 0 && (p.toNat % 4 != 0 || (match fmt with | some fm => 8 * ptrAddr p % fm.bits != 0 | none => false))
  let use : FmtUse := match r? with | some r => if f.recIx ≠ 0 then .record r.stored 0 else .page | none => .page
  let data : Piece := { lane := l, ptr := e.ptr, len := e.len, fmt := use }
  let scale : List Piece := match r?.bind fun r => scaleOf r e.n with
    | some (q, n) => [{ lane := l, ptr := q, len := n, fmt := use, apart := true }]
    | none => []
  let early (k : Nat) (t : Trap) : Option LaneFetch := some { lane := ⟨0, some t, k⟩, s }
  if (fmt.map Fmt.hasScale).getD false then early rankScale { cause := Cause.scaleSourceAbsent }
  else if odd then early rankAlign (bad Cause.alignment p.toNat)
  else if out then early rankExtent (bad Cause.regionBounds p.toNat)
  else match streamBytes s w (data :: scale) with
    | .error (n, b) => early (rankCheck n) (engineTrap w n b)
    | .ok bytes => do
      let s := w.fill s (bytes.map (·.1))
      let first := bytes.drop data.len
      let rd ← serveLoad s w st.since f (some (none, false)) first
      let get1 (a : Nat) : Byte := ((rd.bytes.find? fun (y : Nat × Byte) => y.1 == a).map (·.2)).getD 0
      let rd2 ← if (r?.map fun r => unfetched r e.n get1).getD false then some ⟨[], [], rd.s⟩
        else serveLoad rd.s w st.since f (some (none, false)) (bytes.take data.len)
      let get (a : Nat) : Byte := (((rd.bytes ++ rd2.bytes).find? fun (y : Nat × Byte) => y.1 == a).map (·.2)).getD 0
      let late (k : Nat) (t : Trap) : Option LaneFetch := some { lane := ⟨0, some t, k⟩, s := rd2.s }
      match ((rd.poison ++ rd2.poison).insertionSort fun a b => a.1 ≤ b.1) with
      | (a, t) :: _ => late rankPoison { cause := Cause.poisonConsumed, addr := reportAddr w.stackBase w.g.stackSlot a, info := BitVec.ofNat 23 (4096 + t.toNat) }
      | [] =>
        match r? with
        | none => some { lane := { val := BitVec.ofNat 32 (elemBits e 32 get) }, s := rd2.s }
        | some r =>
          let bits := elemBits e r.stored.bits get
          if r.plain then some { lane := { val := BitVec.ofNat 32 bits }, s := rd2.s }
          else match decodeScaled r.stored bits (scaleBits r e.n get) with
            | none => late rankConvert (bad Cause.illegalOperand (((scaleOf r e.n).map fun (z : Word × Nat) => z.1.toNat).getD 0))
            | some v => match convert r r.reg v.val with
              | none => late rankConvert (bad Cause.illegalOperand e.ptr.toNat)
              | some cv => some { lane := { val := BitVec.ofNat 32 cv.pat }, fp := v.fp ||| cv.fp, subst := cv.subst, s := rd2.s }

/-- Fetch the lanes of a vector in order. -/
def streamVec (s : State) (w : Who) (st : Stream) (i : Nat) : Option (StreamVec × State) :=
  (List.range w.g.width).foldlM (fun (v, s) l => do
    let x ← streamLane s w st i l
    pure ((⟨v.lanes ++ [x.lane], v.fp ||| x.fp, v.subst || x.subst⟩ : StreamVec), x.s)) ((⟨[], 0, false⟩ : StreamVec), s)

/-- OUTRIDER_FETCH: the next vector of an open stream of a live group, after every access of the group before its STREAM. A
convoy's lead fetches for both sides while both stand at the same vector. -/
def outriderFetch (gid : Nat) (n : Fin 8) (s : State) : Option State := do
  let c ← s.ctx? gid
  let st ← SMap.entry? c.g.streams n.val
  let i := st.pos + st.fetched.length
  let depth := (st.desc.extractLsb' 104 7).toNat
  if c.g.phase == .ended || c.g.phase == .stopped || !st.ready || depth ≤ st.fetched.length || streamCount st.desc ≤ i then none
  if (s.groupOps gid).any fun e => e.1 < st.since && !e.2.reqs.isEmpty then none
  let (v, s') ← streamVec s (c.who s) st i
  let push (x : Stream) : Stream := { x with fetched := x.fetched ++ [v] }
  let add (g : Nat) (s : State) : State := s.modGroup g fun x => { x with streams := SMap.adjust x.streams n.val push }
  let logged (s : State) : State := assayLog c (c.sig (.stream (.s 0) n false) [i]) v.vals s
  match c.t.side with
  | .solo => pure (logged (add gid s'))
  | .lead => do
    let p ← c.peer? s
    let other ← (s.group? p).bind fun g => SMap.entry? g.streams n.val
    if other.pos + other.fetched.length == i then pure (logged (add p (add gid s')))
    else if i < other.pos + other.fetched.length then pure (add gid s')
    else none
  | .escort => do
    let p ← c.peer? s
    let other ← (s.group? p).bind fun g => SMap.entry? g.streams n.val
    if i < other.pos + other.fetched.length then pure (add gid s') else none

def execOutriderFetch (group : Nat) (n : Fin 8) : State → Host.Outcome State Fault Refusal := event (outriderFetch group n)

end Sys2Proof.Machine
end

