-- ==== Sys2Proof/Machine/Saves.lean ====
section
/-! DEFINITION. What a save of a team holds, the comparison of a convoy's two sides, and putting a team back (R364 to R367,
R378 to R380). -/
namespace Sys2Proof.Machine

/-! ## Capturing a team -/

/-- Backing bytes of a group: its spilled frames and its spilled tokens (R379). -/
def backingOf (s : State) (w : Who) : List (Word × List Byte) :=
  let read (p : Word) (n : Nat) : List (Word × List Byte) :=
    match porterLocs s w [.load] p n with
    | .ok locs => [(p, readNewest s locs)]
    | .error _ => []
  read w.g.wbp (4 * w.g.width * w.g.resLo) ++ (List.range w.g.spilledTok).flatMap fun j => read (w.g.tokenPtr j) 32

/-- Spills or refills that a group's porter has not made: the first one's offset, and how many of its kind (R112). The
offset is that of the highest granule, which moves first, and of two kinds of move the first one's alone is kept. DEDUCED (log
entry 97). -/
def pendingGranules (s : State) (gid : Nat) (g : Group) : Option (Bool × Nat × Nat) :=
  let mine := s.porter.filter fun m => m.group == gid && (m.kind == .spill || m.kind == .refill)
  match mine with
  | [] => g.aborted
  | m :: _ => some (m.kind == .refill, m.off, (mine.filter fun x => x.kind == m.kind).length)

/-- A group as saved: a clause in progress stands at its instruction, which issues again; a PAUSE is complete (R188); the
porter's granules that have not started are aborted (R170). -/
def State.asSaved (s : State) (gid : Nat) (g : Group) : Group :=
  let g := { g with aborted := pendingGranules s gid g, fenceStart := none }
  match g.phase with
  | .issuing => { g with phase := .waiting }
  | .paused => match s.ctx? gid with
    | some c => { g with pauseUntil := none }.goto c.nextClause s.tick
    | none => g
  | _ => g

/-- A team with its groups; `deep` also holds the frames in the backing area. -/
def captureTeam (s : State) (tid : Nat) (deep : Bool) : Option SavedTeam := do
  let t ← s.team? tid
  let gs := s.teamGroups tid
  let frames := if deep then gs.flatMap fun e =>
      match s.who? e.1 with
      | some w => (backingOf s w).map fun x => (e.1, x.1, x.2)
      | none => []
    else []
  pure { id := tid, team := t, groups := gs.map fun e => (e.1, s.asSaved e.1 e.2),
         ops := s.ops.filter fun o => gs.any fun e => e.1 == o.2.group, frames }

/-! ## The signature of saved state (R378) -/

/-- What a waypoint compares of a group: registers by value, tokens, flags and trap registers, without what the two sides
may differ in. -/
def Group.compared (g : Group) (frames : List (Word × List Byte)) : Group × List Byte × List (BitVec 256) :=
  let low := (frames.head?.map (·.2)).getD []
  let toks := (frames.drop 1).map fun x => BitVec.ofNat 256 (leNat x.2)
  ({ team := 0, slot := g.slot, width := g.width, exec := g.exec, live := g.live, sregs := g.sregs, vfix := g.vfix,
     reserve := g.reserve, ring := 0, depth := g.depth, base := g.base, wlim := g.wlim, wbp := g.wbp, flags := g.flags,
     fpstat := g.fpstat, trapCause := g.trapCause, trapPc := g.trapPc, trapMask := g.trapMask, trapAddr := g.trapAddr,
     trapInfo := g.trapInfo, trapExec := g.trapExec, handler := g.handler, linkFenceLim := g.linkFenceLim,
     rxhdr := g.rxhdr, su := g.su, tx := g.tx.map fun (e : Nat × TxPort) => (e.1, { bind := e.2.bind }),
     streams := g.streams.map fun (e : Nat × Stream) => (e.1, { e.2 with fetched := [], since := 0 }) },
   low ++ g.windowBytes g.resLo (g.top - g.resLo),
   g.tokens.map Token.image ++ toks.reverse)

def SavedTeam.compared (x : SavedTeam) : List (Group × List Byte × List (BitVec 256)) :=
  x.groups.map fun e => e.2.compared ((x.frames.filter fun f => f.1 == e.1).map (·.2))

/-- What a waypoint compares of a team. -/
def Team.compared (t : Team) : Team :=
  { launch := 0, index := t.index, place := 0, logical := 0, spadSize := t.spadSize, nslots := t.nslots, ntiles := t.ntiles,
    records := t.records, spad := t.spad, fe := t.fe, bufs := t.bufs, tiles := t.tiles, slots := t.slots,
    sidecar := t.sidecar, special := t.special, slotTags := t.slotTags }

/-- The two sides' saved states agree. -/
def sidesAgree (a b : SavedTeam) : Bool := a.team.compared == b.team.compared && a.compared == b.compared

/-- Take waypoint n of a convoy, or none where its sides differ: the saved states replace the last waypoint's, the commit
log starts anew. -/
def takeWaypoint (s : State) (v : Convoy) (n : Nat) : Option State := do
  let a ← captureTeam s v.lead true
  let b ← captureTeam s v.escort true
  if !sidesAgree a b then none
  let count (g : Group) : Group := { g with waypoints := g.waypoints + 1, clauses := 0 }
  let bump (x : SavedTeam) : SavedTeam := { x with groups := x.groups.map fun e => (e.1, count e.2) }
  let new : Convoy := { v with way := [bump a, bump b], wayNo := n, commits := [], covered := [], taken := [], warned := false }
  let groups := s.groups.map fun (e : Nat × Group) => if e.2.team = v.lead || e.2.team = v.escort then (e.1, count e.2) else e
  let s' := { s with groups := groups, convoys := s.convoys.map fun (x : Convoy) => if x.lead = v.lead then new else x }
  let lid := a.team.launch
  pure (s'.modLaunch lid fun l => { l with waypoints := min 65535 (l.waypoints + 1) })

/-! ## Putting a team back -/

/-- Write backing bytes where they stood. -/
def restoreFrames (s : State) (x : SavedTeam) : State :=
  x.frames.foldl (fun s f =>
    match s.who? f.1 with
    | some w => match porterLocs s w [.store] f.2.1 f.2.2.length with
      | .ok locs => coreWrite s w.t.place f.1 locs f.2.2
      | .error _ => s
    | none => s) s

/-- The saved groups, team and operations replace what the team has now. -/
def putTeam (s : State) (x : SavedTeam) : State :=
  let ids := x.groups.map (·.1)
  let s := s.setTeam x.id x.team
  let s := { s with groups := x.groups.foldl (fun m e => SMap.put m e.1 e.2) s.groups,
                    ops := x.ops.foldl (fun m e => SMap.put m e.1 e.2) (s.ops.filter fun o => !ids.contains o.2.group) }
  restoreFrames s x

end Sys2Proof.Machine
end

