-- ==== Sys2Proof/Machine/Barriers.lean ====
section
/-! DEFINITION. Barrier objects, team barriers, waypoints and early tile signals (R98, R342 to R346, R378). -/
namespace Sys2Proof.Machine

/-- The scope of a release or acquire by a barrier. -/
def BScope.scope : BScope → Scope
  | .team => .team | .reticle => .reticle | .device => .device | .system => .system

/-- The object pointer of a BARA or BARW: the checks of R344, and the offset in the team's share. -/
def objectAt (c : Ctx) (p : Word) (s : State) : Res Nat := do
  let w := c.who s
  match apertureOf (ptrAddr p) with
  | .scratchpad off =>
    let _ ← checkAccess s w .atomic false [{ lane := 0, ptr := p, len := 16 }]
    if p.toNat % 16 ≠ 0 then trap Cause.alignment p
    .ok off
  | _ => illegal

def phaseBit (c : Ctx) (x : Spec) : Res Bool :=
  match x with
  | .s n => .ok ((c.g.readS n.val).getLsbD 0)
  | .int n => if n.val < 2 then .ok (n.val == 1) else illegal
  | _ => illegal

def arrivalCount (c : Ctx) (x : Spec) : Res Nat :=
  match x with
  | .s n => .ok ((c.g.readS n.val).toNat % 2 ^ 32)
  | .int n => .ok n.val
  | _ => illegal

/-- BARA (R344). -/
def execBara (d a count : Spec) (scope : BScope) (fb : Bool) : State → Host.Outcome State Fault Refusal :=
  runInstr fun c s => do
    engineReady c s
    guardOp (isSReg d)
    let p ← sVal c a
    let n ← arrivalCount c count
    let off ← objectAt c p s
    if n = 0 then illegal
    let s ← completeAtOnce c (.bara d a count scope fb) s
    let s ← release c false (BScope.scope scope) s
    let v := c.t.object off
    if objectBad v then illegal
    let s := s.modTeam c.g.team fun t => t.setObject off (arriveObject v n)
    match d with
    | .s k => .ok (s.modGroup c.gid fun g => g.writeS k.val ((v.extractLsb' 64 1).zeroExtend 64))
    | _ => illegal

/-- BARW (R345): the group's bit stands in the waiter mask while it waits. -/
def execBarw (a phase : Spec) (scope : BScope) (fb : Bool) : State → Host.Outcome State Fault Refusal :=
  runInstr fun c s => do
    engineReady c s
    let p ← sVal c a
    let ph ← phaseBit c phase
    let off ← objectAt c p s
    let v := c.t.object off
    if objectBad v then illegal
    let s ← completeAtOnce c (.barw a phase scope fb) s
    if v.getLsbD 64 == ph then
      .error (.wait (s.modTeam c.g.team fun t => t.setObject off (v ||| BitVec.ofNat 128 (2 ^ (96 + c.g.slot)))))
    else .ok (acquireAt s c.gid c.t.place (BScope.scope scope))

/-- TBAR (R346). Its arrival is made once; it waits until every group of the team has made as many or has ended. -/
def execTbar (fb : Bool) : State → Host.Outcome State Fault Refusal :=
  runInstr fun c s => do
    engineReady c s
    let s ← completeAtOnce c (.tbar fb) s
    let s ← if c.g.arrived then .ok s else do
      let s ← release c false .team s
      .ok (s.modGroup c.gid fun g => { g with tbars := g.tbars + 1, arrived := true })
    let n := if c.g.arrived then c.g.tbars else c.g.tbars + 1
    if (s.teamGroups c.g.team).all fun e => e.2.phase == .ended || decide (n ≤ e.2.tbars) then
      .ok ((acquireAt s c.gid c.t.place .team).modGroup c.gid fun g => { g with arrived := false })
    else .error (.wait s)

/-- WAYPT (R378). The first group that finds both sides there writes the waypoint; sides that differ are a mismatch. -/
def execWaypt (fb : Bool) : State → Host.Outcome State Fault Refusal :=
  runInstr fun c s => do
    engineReady c s
    let s ← completeAtOnce c (.waypt fb) s
    match c.convoy? s with
    | none => .ok s
    | some _ =>
      let n := if c.g.arrived then c.g.waypts else c.g.waypts + 1
      let s := if c.g.arrived then s else s.modGroup c.gid fun g => { g with waypts := n, arrived := true }
      let passed (s : State) : State := s.modGroup c.gid fun g => { g with arrived := false }
      match c.convoy? s with
      | none => .ok s
      | some v =>
        if n ≤ v.wayNo then .ok (passed s)
        else
          let both := s.teamGroups v.lead ++ s.teamGroups v.escort
          let there := both.all fun e => e.2.phase == .ended || decide (n ≤ e.2.waypts)
          let done := both.all fun e => (s.pendingOps e.1).isEmpty
          if there && done then
            match takeWaypoint s v n with
            | some s => .ok (passed s)
            | none => trap Cause.convoyMismatch
          else .error (.wait s)

/-- DEPSIG (R98). -/
def execDepsig (fb : Bool) : State → Host.Outcome State Fault Refusal :=
  runInstr fun c s => do
    engineReady c s
    let s ← completeAtOnce c (.depsig fb) s
    let s ← release c false .device s
    let (_, s) ← performOnce c (c.sig (.depsig fb) []) (fun s =>
      .ok ([], if c.l.prot || c.t.depsigned then s else setBitmapBit c.l c.t.index s)) s
    .ok (s.modTeam c.g.team fun t => { t with depsigned := true })

end Sys2Proof.Machine
end

