-- ==== Sys2Proof/Machine/Collective.lean ====
section
/-! DEFINITION. Collectives (R347 to R349). -/
namespace Sys2Proof.Machine

/-! ## Command records (R347) -/

/-- The fields of a command record. -/
structure Command where
  devices : Nat
  rank : Nat
  links : BitVec 12
  root : Nat
  rnd : Rnd
  fmt : Nat
  red : Nat
  opc : Nat
  count : Nat
  dst : Word
  src : Word
  deriving DecidableEq, Repr

def Command.ofBits (r : BitVec 320) : Command where
  devices := (r.extractLsb' 240 4).toNat + 1
  rank := (r.extractLsb' 236 4).toNat
  links := r.extractLsb' 224 12
  root := (r.extractLsb' 192 32).toNat
  rnd := Rnd.ofCode (r.extractLsb' 181 2).toNat
  fmt := (r.extractLsb' 176 5).toNat
  red := (r.extractLsb' 172 4).toNat
  opc := (r.extractLsb' 168 4).toNat
  count := (r.extractLsb' 128 40).toNat
  dst := r.extractLsb' 64 64
  src := r.extractLsb' 0 64

/-- Check 4 of R349, over the whole record. -/
def commandOk (r : BitVec 512) (teams : Nat) : Bool :=
  let x := Command.ofBits (r.setWidth 320)
  r.extractLsb' 244 268 == 0 && r.extractLsb' 183 9 == 0 && [0, 1, 2, 3, 9].contains x.fmt && decide (x.red ≤ 2)
    && decide (x.opc ≤ 4) && !(3 ≤ x.opc && x.red != 0) && decide (x.rank < x.devices)
    && !(1 < x.devices && (x.opc == 1 || x.opc == 4 || x.links == 0)) && (1 < x.devices || x.links == 0)
    && decide (x.root < teams)

def Command.format (x : Command) : Fmt := Fmt.ofCode x.fmt
/-- Element bytes. -/
def Command.size (x : Command) : Nat := x.format.bits / 8
/-- Elements of a team's source and destination (R348). -/
def Command.srcCount (x : Command) (teams : Nat) : Nat := if x.opc = 2 then x.count * teams * x.devices else x.count
def Command.dstCount (x : Command) (teams : Nat) : Nat := if x.opc = 3 then x.count * teams * x.devices else x.count

/-! ## What a COLL reads and writes -/

/-- The sites of a range of bytes, or the first byte that a late check forbids. -/
def rangeSites (s : State) (w : Who) (k : Access) (p : Word) (n : Nat) : Except (Nat × Nat) (List Site) :=
  (List.range n).mapM fun (i : Nat) =>
    let b := (ptrAdd p i).toNat
    match engineByte s w k .raw true b with
    | .ok (some a) => .ok a
    | .ok none => .error (6, b)
    | .error m => .error (m, b)

/-- What an operation of a collective reads and writes, or the check it fails. -/
def collSites (s : State) (w : Who) (teams : Nat) (x : Command) (index : Nat) : Except (Nat × Nat) (List Site × List Site) := do
  let reads := x.opc != 4 || index == x.root
  let writes := x.opc != 1 || index == x.root
  let a ← if reads then rangeSites s w .load x.src (x.srcCount teams * x.size) else .ok []
  let b ← if writes then rangeSites s w .store x.dst (x.dstCount teams * x.size) else .ok []
  .ok (a, b)

/-- The lines of a team's destination that translate when its COLL issues (R331). -/
def collHeld (s : State) (w : Who) (teams : Nat) (x : Command) (index : Nat) : List Nat :=
  if x.opc == 1 && index != x.root then []
  else ((List.range (x.dstCount teams * x.size)).filterMap fun (i : Nat) =>
    match engineByte s w .store .raw true (ptrAdd x.dst i).toNat with
    | .ok (some (.mem p)) => some (p / 128 * 128)
    | _ => none).dedup

/-! ## COLL at issue (R349) -/

def execColl (a : Spec) (fb : Bool) : State → Host.Outcome State Fault Refusal :=
  runInstr fun c s => do
    engineReady c s
    let i : Instr := .coll a fb
    guardOp (isSReg a && c.g.slot == 0)
    let p ← sVal c a
    let w := c.who s
    if p.toNat % 64 ≠ 0 then trap Cause.alignment (reportAddr w.stackBase c.g.stackSlot p.toNat)
    let _ ← countFlag (c.flag i) c.gid s
    let kind (q : Word) : Nat := (apertureOf (ptrAddr q)).kind
    let (v, s) ← performOnce c (c.sig i [p.toNat]) (fun s => do
      let (bs, s) ← readStructIf false c i .i p 64 s
      let r := BitVec.ofNat 512 (leNat bs)
      let x := Command.ofBits (r.setWidth 320)
      guardOp (commandOk r c.l.teams && kind x.src != 1 && kind x.dst != 1)
      if 1 < x.devices ∧ c.l.prot then trap Cause.protection
      if x.src.toNat % x.size ≠ 0 then trap Cause.alignment (reportAddr w.stackBase c.g.stackSlot x.src.toNat)
      if x.dst.toNat % x.size ≠ 0 then trap Cause.alignment (reportAddr w.stackBase c.g.stackSlot x.dst.toNat)
      rangeCheck w [(.load, x.src, x.srcCount c.l.teams * x.size), (.store, x.dst, x.dstCount c.l.teams * x.size)]
      if (holdLines s (collHeld s w c.l.teams x c.t.index)).isNone then .error (.wait s)
      .ok (namedOp s.nextId :: (List.range 8).map (fun (k : Nat) => (k + 1, r.extractLsb' (64 * k) 64)), s)) s
    let r := BitVec.ofNat 512 (((v.drop 1).take 8).foldr (fun e n => e.2.toNat + 2 ^ 64 * n) 0)
    let held := collHeld s w c.l.teams (Command.ofBits (r.setWidth 320)) c.t.index
    let o : Op := { c.op i with record := r.setWidth 320, prog := c.g.colls + 1, locs := held }
    let s := if c.t.side == .escort then s else (holdLines s held).getD s
    let s ← joinEngine c i o v s
    .ok (s.modGroup c.gid fun g => { g with colls := g.colls + 1 })

/-! ## Combination (R348) -/

/-- The pattern of an element of the format, and the flags. -/
def Command.combine (x : Command) (vals : List Nat) : Flagged Nat :=
  let f := x.format
  if f = .i32 then
    let v (n : Nat) : Int := decodeInt .i32 n
    match x.red with
    | 0 => .pure (wrapInt 32 ((vals.map v).foldl (· + ·) 0))
    | 1 => .pure (vals.foldl (fun a b => if v a ≤ v b then a else b) ((vals.head?).getD 0))
    | _ => .pure (vals.foldl (fun a b => if v b ≤ v a then a else b) ((vals.head?).getD 0))
  else
    let xs := vals.map (decodeFloat f)
    if xs.any FVal.isNan then ⟨nanOf f, raiseIf (xs.any FVal.isSignalling) Fp.invalid⟩
    else match x.red with
      | 0 =>
        match xs with
        | [] => .pure 0
        | y :: ys => match ys.foldlM (addVal x.rnd) y with
          | some v => fres f x.rnd false false v
          | none => ⟨nanOf f, Fp.invalid⟩
      | k => match vals with
        | [] => .pure 0
        | y :: ys => .pure (ys.foldl (fun a b => (minOf f false (k == 2) a b).val) y)

/-- An element with the poison it carries. -/
structure CElem where
  pat : Nat
  tag : Option (BitVec 12) := none
  deriving DecidableEq, Repr

/-- The lowest of some tags. -/
def lowestTag (ts : List (Option (BitVec 12))) : Option (BitVec 12) :=
  ts.foldl (fun a b => match a, b with
    | some x, some y => if y.toNat < x.toNat then some y else some x
    | none, y => y
    | x, none => x) none

def Command.combineElems (x : Command) (es : List CElem) : CElem × BitVec 7 :=
  let r := x.combine (es.map (·.pat))
  (⟨r.val, lowestTag (es.map (·.tag))⟩, r.fp)

/-! ## Carrying a collective out -/

/-- The participants of collective k of a launch: operations by team index. -/
def participants (s : State) (lid k : Nat) : List (Nat × Nat × Op) :=
  s.ops.filterMap fun (e : Nat × Op) =>
    match e.2.instr with
    | .coll _ _ => do
      let g ← s.group? e.2.group
      let t ← s.team? g.team
      if t.launch = lid ∧ e.2.prog = k then some (t.index, e.1, e.2) else none
    | _ => none

/-- Group bytes into elements. -/
def toElems (n : Nat) : Nat → List Carried → List CElem
  | 0, _ => []
  | k + 1, bs => ⟨leNat ((bs.take n).map (·.val)), lowestTag ((bs.take n).map (·.tag))⟩ :: toElems n k (bs.drop n)

def ofElem (n : Nat) (e : CElem) : List Carried := (leBytes n e.pat).map fun b => { val := b, tag := e.tag }

/-- The destination elements of slice u, from every slice's source. -/
def Command.results (x : Command) (teams : Nat) (source : Nat → Nat → CElem) (u : Nat) : List (CElem × BitVec 7) :=
  let slices := List.range (teams * x.devices)
  match x.opc with
  | 0 | 1 => (List.range x.count).map fun j => x.combineElems (slices.map fun v => source v j)
  | 2 => (List.range x.count).map fun j => x.combineElems (slices.map fun v => source v (u * x.count + j))
  | 3 => slices.flatMap fun v => (List.range x.count).map fun j => (source v j, 0)
  | _ => (List.range x.count).map fun j => (source (x.rank * teams + x.root) j, 0)

/-- The flags of the final roundings: a reduce-scatter's are those of every slice on every device, and all other operations
round alike on each. -/
def Command.flags (x : Command) (teams : Nat) (source : Nat → Nat → CElem) (outs : List (List (CElem × BitVec 7))) : BitVec 7 :=
  let all := if x.opc = 2 then (List.range (teams * x.devices)).map fun u => x.results teams source u else outs
  orFp (all.flatMap fun es => es.map (·.2))

/-- What a team brings to a collective: who issued it, its identity and operation, what it reads, and what it writes by
generic address. -/
structure CollPlan where
  w : Who
  k : Nat
  o : Op
  reads : List Site
  writes : List (Nat × Site)

/-- The plans of the teams, once every team has issued collective k, its earlier accesses are in memory and every byte can be
reached. -/
def collPlans (s : State) (lid k : Nat) : Option (Command × List CollPlan) := do
  let l ← s.launch? lid
  let ps := participants s lid k
  let first ← ps.find? fun p => p.1 == 0
  let x := Command.ofBits first.2.2.record
  let plans ← (List.range l.teams).mapM fun t => do
    let p ← ps.find? fun p => p.1 == t
    let o := p.2.2
    let y := Command.ofBits o.record
    let w ← s.who? o.group
    if o.started || o.fault.isSome || !engineReady? s p.2.1 o w.t.place then none
    if y.opc ≠ x.opc ∨ y.red ≠ x.red ∨ y.fmt ≠ x.fmt ∨ y.count ≠ x.count ∨ y.root ≠ x.root ∨ y.devices ≠ x.devices then none
    match collSites s w l.teams y t with
    | .ok z => pure { w, k := p.2.1, o, reads := z.1, writes := z.2.zipIdx.map fun e => ((ptrAdd y.dst e.2).toNat, e.1) }
    | .error _ => none
  if 1 < x.devices && (List.range 12).all (fun i => !(x.links.getLsbD i && SMap.get .down s.dev.links i == .up)) then none
  let todo (p : CollPlan) : List Site := (p.o.unwritten p.writes).map (·.2)
  if !(cowPages s (plans.flatMap fun p => siteLocs (todo p))).isEmpty then none
  let oldest := ((plans.map (·.k)).min?).getD 0
  if plans.any fun p => sitesWait s oldest p.o p.w.t.place (p.reads ++ todo p) then none
  pure (x, plans)

/-- What each team writes, byte by byte, and the flags: the sources are read first. Elements of other devices are free
values. -/
def collValues (s : State) (x : Command) (plans : List CollPlan) : List (CollPlan × List (Nat × Site × Carried)) × BitVec 7 × State :=
  let s := plans.foldl (fun s p => writeBack s p.w.t.place) s
  let (srcs, s) := plans.foldl (fun (acc : List (List CElem) × State) p =>
    let (bs, s) := engineRead acc.2 p.w.t.place p.w.gid p.reads
    (acc.1 ++ [toElems x.size (p.reads.length / x.size) bs], s)) ([], s)
  let teams := plans.length
  let here := x.rank * teams
  let call := ((plans.head?).map (·.k)).getD 0
  let source (v j : Nat) : CElem :=
    if here ≤ v ∧ v < here + teams then (((srcs[v - here]?).getD [])[j]?).getD ⟨0, none⟩
    else ⟨(Config.peerElement call v j).toNat % 2 ^ x.format.bits, none⟩
  let outs := (List.range teams).map fun t => x.results teams source (here + t)
  let writes := (plans.zip outs).map fun (p, es) =>
    (p, (p.writes.zip (es.flatMap fun e => ofElem x.size e.1)).map fun e => (e.1.1, e.1.2, e.2))
  (writes, x.flags teams source outs, s)

/-- Write some of a team's destination, for both sides of a convoy. -/
def collWrite (s : State) (p : CollPlan) (ws : List (Nat × Site × Carried)) : State :=
  let s := engineWrite s p.w.t.place (mirrorShare s p.w.g.team (ws.map (·.2)))
  settleEverywhere s (siteLocs (ws.map fun e => e.2.1))

/-- The whole of collective k: sources are read, then each destination is written. -/
def runCollective (s : State) (lid k : Nat) : Option State := do
  let (x, plans) ← collPlans s lid k
  let (outs, fp, s) := collValues s x plans
  let s := outs.foldl (fun s e => collWrite s e.1 (e.1.o.unwritten e.2)) s
  let s := plans.foldl (fun s p =>
    let s := noteShare s p.w.g.team p.k (spadOffs (p.writes.map (·.2)))
    let s := noteResult s p.w.g.team p.k [(2 ^ 35, fp.zeroExtend 64)]
    let s := s.raiseFp p.w.gid fp
    match p.o.twin with
    | some (g, _) => s.raiseFp g fp
    | none => s) s
  let s := { s with ops := s.ops.map fun e => if plans.any fun p => p.k == e.1 then (e.1, { e.2 with started := true, locs := [] }) else e }
  pure (plans.foldl (fun s p => freeLines s p.k p.o.locs) s)

/-- A collective stops at a line boundary, for a save or with its launch: where it could be carried out, some lines of its
team's destination have been written (R359, R365). -/
def stopColl (s : State) (k : Nat) : State :=
  (do let o ← s.op? k
      let t ← (s.group? o.group).bind fun g => s.team? g.team
      let (x, plans) ← collPlans s t.launch o.prog
      let (outs, _, s) := collValues s x plans
      let (p, all) ← outs.find? fun (e : CollPlan × List (Nat × Site × Carried)) => e.1.k == k
      let ws : List (Nat × Site × Carried) := o.unwritten all
      let (ls, s) := linesDone s ws
      let (now, rest) := splitLines ls ws
      pure (noteWritten (collWrite s p now) k o ls (linesOf now) (linesOf rest))).getD s

/-- COLL_COMPLETE: a collective's sources are read and its destinations written; then each team's COLL completes. -/
def collComplete (k : Nat) (s : State) : Option State := do
  let o ← s.op? k
  match o.instr with
  | .coll _ _ =>
    let t ← (s.group? o.group).bind fun g => s.team? g.team
    if o.started then pure (s.finishOp k o)
    else do
      let s ← runCollective s t.launch o.prog
      pure (s.finishOp k (← s.op? k))
  | _ => none

/-- COLL_FAULT (R349): records that differ, also for a team that comes to the collective after they were found to; a team that
has retired without the collective; or a late check. -/
def collFault (k : Nat) (s : State) : Option State := do
  let o ← s.op? k
  let w ← s.who? o.group
  match o.instr with
  | .coll _ _ =>
    if o.started || o.fault.isSome then none
    let ps := participants s w.t.launch o.prog
    let x := Command.ofBits o.record
    let all (t : Trap) (s : State) : State := ps.foldl (fun s p => endEngine s p.2.1 p.2.2 t) s
    let noted : State := s.modLaunch w.t.launch fun l => { l with differed := (o.prog :: l.differed).dedup }
    let differs := match ps.find? fun p => p.1 == 0 with
      | some p =>
        let y := Command.ofBits p.2.2.record
        y.opc != x.opc || y.red != x.red || y.fmt != x.fmt || y.count != x.count || y.root != x.root || y.devices != x.devices
      | none => false
    if differs || w.l.differed.contains o.prog then pure (all { cause := Cause.illegalOperand } noted)
    else if (w.l.retired.filter fun t => !(ps.any fun p => p.1 == t)) != [] then pure (all { cause := Cause.queueMisuse } s)
    else match collSites s w w.l.teams x w.t.index with
      | .ok z => match cowPages s (siteLocs ((o.unwritten (z.2.zipIdx.map fun e => ((ptrAdd x.dst e.2).toNat, e.1))).map (·.2))) with
        | [] => none
        | xs => pure (wantCopies s xs)
      | .error (n, p) =>
        let t := engineTrap w n p
        pure (if isPageAbsent s w n p then stallEngine s k o t else endEngine s k o t)
  | _ => none

def execCollComplete (op : Nat) : State → Host.Outcome State Fault Refusal := event (collComplete op)
def execCollFault (op : Nat) : State → Host.Outcome State Fault Refusal := event (collFault op)

end Sys2Proof.Machine
end

