-- ==== Sys2Proof/Machine/Convert.lean ====
section
/-! DEFINITION. Conversions and quantising in registers (R219 to R224). -/
namespace Sys2Proof.Machine

/-- The source type that field B's constant names (R219). -/
def srcTy (f : OForm) : Ty := (Ty.ofCode (constNat f.b.spec)).getD .f32

/-- A conversion: destination and source are paired each by its own type. -/
def conversion (f : OForm) (op : Nat → Flagged Nat) : Ctx → State → Res State :=
  elementwise ⟨f.ty.is64, some (srcTy f), none, none⟩ f fun a _ _ => op (a % 2 ^ tyBits (srcTy f))

/-- FCVT (R220). -/
def fcvtOf (f : OForm) (a : Nat) : Flagged Nat :=
  let t := tyFmt f.ty
  let u := tyFmt (srcTy f)
  let x := fsrc u f.ftz a
  match propagate t [(u, x)] with
  | some r => r
  | none => fres t f.rnd f.sat f.ftz x

def execFcvt (f : OForm) : State → Host.Outcome State Fault Refusal := runInstr (conversion f (fcvtOf f))

/-- ITOF (R220). -/
def execItof (f : OForm) : State → Host.Outcome State Fault Refusal :=
  runInstr (conversion f fun a => fres (tyFmt f.ty) f.rnd f.sat false (.ofInt (ival (srcTy f) a)))

/-- FTOI (R220). -/
def ftoiOf (f : OForm) (a : Nat) : Flagged Nat :=
  let (lo, hi) := tyRange f.ty
  let n := tyBits f.ty
  match fsrc (tyFmt (srcTy f)) f.ftz a with
  | .nan .. => ⟨0, Fp.invalid⟩
  | .inf s => ⟨patOf n (if s then lo else hi), Fp.invalid ||| raiseIf f.sat Fp.saturate⟩
  | .zero _ => .pure 0
  | .fin q =>
    let r := roundRange lo hi q f.rnd f.sat
    ⟨patOf n (r.val.getD (if q.isNeg then lo else hi)), r.fp⟩

def execFtoi (f : OForm) : State → Host.Outcome State Fault Refusal := runInstr (conversion f (ftoiOf f))

/-! ## Quantising in registers (R221 to R224) -/

/-- The operate-format fields of QCVT, DQCVT and QSCALE. -/
def quantForm (f : QForm) : OForm := ⟨f.d, f.a, f.b, .v 0, .f32, f.rnd, f.sat, f.ftz, f.uni⟩

/-- The record a conversion without memory stands for: policy and substitute +0. -/
def quantRec (f : Fmt) (mode : Rnd) (sat : Bool) (policy : Nat) : Rec :=
  { Rec.implicit f .f32 with rnd := mode, sat, policy }

/-- QCVT's check of its scale operand (R223). -/
def scaleOperandOk (f : Fmt) (r : Nat) : Bool :=
  if f.isAsym then r / 2 ^ 24 == 0 && (f.elem != .n4 || r / 2 ^ 16 % 256 ≤ 15)
  else if f.isInterchange then r / 256 == 0
  else decide (-128 ≤ sext 32 r) && decide (sext 32 r ≤ 127)

/-- The shift a scale operand gives; `none` for an all-zero or a NaN block. -/
def operandShift (f : Fmt) (r : Nat) : Option Int :=
  if f.isInterchange then (if r = 0xFF then none else some ((r : Int) - 127))
  else if sext 32 r = -128 then none else some (sext 32 r)

/-- `qcvt` (R223) of a source under a sound scale operand. -/
def qcvtOf (f : QForm) (a r : Nat) : Flagged Nat :=
  let x := fsrc .f32 f.ftz (a % 2 ^ 32)
  if f.fmt.isAsym then
    let qmax : Int := if f.fmt.elem = .n8 then 255 else 15
    let c := decodeFloat .f16 (r % 65536)
    let z := r / 65536 % 256
    if x.isNan || x.isInf then ⟨z, Fp.substitute⟩
    else match c with
      | .nan .. | .inf _ => ⟨z, Fp.invalid⟩
      | .zero _ => .pure z
      | .fin c =>
        let q0 := (x.frac.div c).round f.rnd + z
        let q := min (max q0 0) qmax
        let back := c.mul (Frac.ofInt (q - z))
        ⟨q.toNat, raiseIf (decide (q0 < 0 ∨ qmax < q0)) Fp.saturate ||| raiseIf (!back.eq x.frac) Fp.inexact⟩
  else match operandShift f.fmt r with
    | none => .pure 0
    | some s => match convert (quantRec f.fmt f.rnd f.sat 2) f.fmt.elem (x.shift (-s)) with
      | some c => ⟨c.pat, c.fp⟩
      | none => .pure 0

/-- `dqcvt` (R224) of an element pattern under a sound scale operand. -/
def dqcvtOf (f : QForm) (a r : Nat) : Flagged Nat :=
  let p := a % 2 ^ f.fmt.bits
  let v : Flagged FVal :=
    if f.fmt.isAsym then (decodeScaled f.fmt p r).getD (.pure (.nan true false 0))
    else if f.fmt.isInterchange then (decodeScaled f.fmt p (r % 256)).getD (.pure (.nan true false 0))
    else match operandShift f.fmt r with
      | none => .pure (.zero false)
      | some s => .pure ((decodeElem f.fmt.elem p).shift s)
  match v.val with
  | .nan q _ _ => ⟨nanOf .f32, v.fp ||| raiseIf (!q) Fp.invalid⟩
  | x => let r := fres .f32 f.rnd f.sat f.ftz x; ⟨r.val, r.fp ||| v.fp⟩

/-- QCVT and DQCVT: a scale operand that fails its check in an active lane traps after the pops (R200, R223). -/
def quantise (f : QForm) (op : Nat → Nat → Flagged Nat) (c : Ctx) (s : State) : Res State := do
  let o := quantForm f
  guardOp (dstOk c.g o.uni false o.d)
  let x ← readSources c o ⟨false, some .f32, some .n32, none⟩ s
  let ls := if f.uni then [0] else lanes c.g.exec
  if !ls.all fun l => scaleOperandOk f.fmt (x.b l % 2 ^ 32) then .error (.trapIn { cause := Cause.illegalOperand } x.s)
  let rs := ls.map fun l => (l, op (x.a l) (x.b l % 2 ^ 32))
  let s ← match f.d with
    | .v n => .ok (x.s.modGroup c.gid fun g => rs.foldl (fun g e => g.writeLane false n.val e.1 e.2.val) g)
    | d => writeUniform c d ((rs.head?.map (·.2.val)).getD 0) x.s
  .ok (s.raiseFp c.gid (orFp (rs.map (·.2.fp))))

def execQcvt (f : QForm) : State → Host.Outcome State Fault Refusal := runInstr (quantise f (qcvtOf f))
def execDqcvt (f : QForm) : State → Host.Outcome State Fault Refusal := runInstr (quantise f (dqcvtOf f))

/-- `qscale` of one block's values (R222). -/
def qscaleOf (f : QForm) (xs : List FVal) (k : Nat) : Nat :=
  let r := { quantRec f.fmt f.rnd false 0 with clip := k }
  if f.fmt.isAsym then match encodeAsym r f.fmt xs with
    | .ok b => b.entry
    | .error _ => 0
  else if f.fmt.isInterchange then
    if (firstSpecial xs).isSome then 0xFF else (chooseShift f.fmt xs k + 127).toNat
  else match encodeBlock r xs with
    | .ok b => patOf 32 (if b.entry < 128 then b.entry else (b.entry : Int) - 256)
    | .error _ => 0

def qscaleBody (f : QForm) (c : Ctx) (s : State) : Res State := do
  let o := quantForm f
  let bOk := match f.b.spec with | .s _ | .int _ | .neg _ => true | _ => false
  guardOp (dstOk c.g o.uni false o.d && srcOk c.g o.uni false f.a && bOk && srcOk c.g o.uni false f.b)
  let k := srcVal c.g .n32 f.b .nothing 0
  guardOp (k ≤ 31)
  let x ← readSources c o ⟨false, some .f32, some .n32, none⟩ s
  let val (l : Nat) : FVal := fsrc .f32 f.ftz (x.a l % 2 ^ 32)
  match f.d with
  | .v n =>
    let ls := lanes c.g.exec
    let blk (l : Nat) : List Nat := ls.filter fun m => m / f.fmt.block = l / f.fmt.block
    .ok (x.s.modGroup c.gid fun g => g.writeLanes false n.val ls fun l => qscaleOf f ((blk l).map val) k)
  | d => writeUniform c d (qscaleOf f [val 0] k) x.s

def execQscale (f : QForm) : State → Host.Outcome State Fault Refusal := runInstr (qscaleBody f)

end Sys2Proof.Machine
end

