-- ==== Sys2Proof/Machine/CrossLane.lean ====
section
/-! DEFINITION. Member-masked arrival (R162) and the cross-lane instructions (R189 to R197). -/
namespace Sys2Proof.Machine

/-! ## Arrival -/

/-- The member mask of field C: an s register, EXEC, or −1 for LIVE (R189). -/
def memberMask (c : Ctx) (x : Spec) : Res Mask :=
  match x with
  | .s n => .ok (c.g.readS n.val &&& fullMask c.g.width)
  | .exec => .ok c.g.exec
  | .neg ⟨0, _⟩ => .ok c.g.live
  | _ => illegal

/-- `arrive` of R162: the frame in which the operation is performed for the named lanes; a first arrival moves the group
to its pending lanes. -/
def arrive (c : Ctx) (mma : Bool) (m : Mask) (s : State) : Res (Ctx × State) := do
  let t ← innerIf c s
  let pending : Mask := match t with | some t => t.pending | none => 0
  if m &&& ~~~c.g.live ≠ 0 then trap Cause.exitedLane
  else if mma ∧ m ≠ m &&& c.g.exec then trap Cause.illegalConvergence
  else if m &&& ~~~(c.g.exec ||| pending) ≠ 0 then trap Cause.illegalConvergence
  else match t with
    | some t =>
      if t.held then
        if t.join ≠ c.here then trap Cause.illegalConvergence
        else
          let t' := { t with pending := 0, join := t.saved, saved := 0, held := false }
          let g := { c.g with exec := c.g.exec ||| t.pending, tokens := t' :: c.g.tokens.drop 1 }
          .ok ({ c with g }, s.setGroup c.gid g)
      else if m = m &&& c.g.exec then .ok (c, s)
      else
        let t' := { t with saved := t.join, held := true }
        .error (.moved (s.setGroup c.gid (rotateTo c.g c.r t' c.here s.tick)))
    | none => .ok (c, s)

/-- A cross-lane instruction: operand checks, arrival, then the operation for the lanes of m. An operation that stops
after a completed arrival leaves the lanes as they were before it, since a trap has no effect (R123). -/
def crossLane (f : OForm) (ok : Bool) (op : Ctx → Mask → State → Res State) (c : Ctx) (s : State) : Res State := do
  let m ← memberMask c f.c
  guardOp ok
  let (c', s') ← arrive c false m s
  match op c' m s' with
  | .ok s' => .ok s'
  | .error (.trap x) => .error (.trapIn x s)
  | .error e => .error e

/-! ## Operands -/

def crossSrc (c : Ctx) (f : OForm) (x : Src) (wide : Bool) : Bool :=
  match x.spec with | .v _ => srcOk c.g f.uni wide x | _ => false

def vDst (c : Ctx) (d : Spec) (wide : Bool) : Bool := match d with | .v n => vOk c.g wide n.val | _ => false

/-- The lane that BCAST and SETLANE name: an s register's low six bits or a constant (R196). -/
def laneSpec (x : Src) : Bool :=
  x.pat == .none && x.par == 0 && (match x.spec with | .s _ | .int _ | .neg _ => true | _ => false)

def laneValue (g : Group) (x : Src) : Int :=
  match x.spec with
  | .s n => (g.readS n.val).toNat % 64
  | .int n => n.val
  | .neg n => -1 - (n.val : Int)
  | _ => 0

/-- A vector register's lanes as a type reads them. -/
def laneOf (g : Group) (t : Ty) (x : Src) (l : Nat) : Nat := srcVal g t x .nothing l

/-- Write lanes of a vector destination. -/
def putLanes (c : Ctx) (d : Spec) (wide : Bool) (vals : List (Nat × Nat)) (s : State) : State :=
  match d with
  | .v n => s.modGroup c.gid fun g => vals.foldl (fun g e => g.writeLane wide n.val e.1 e.2) g
  | .s n => match vals with
    | e :: _ => s.modGroup c.gid fun g => g.writeS n.val (BitVec.ofNat 64 e.2)
    | [] => s
  | _ => s

/-! ## SHFL, VOTE and ELECT -/

/-- SHFL (R193). -/
def execShfl (f : OForm) : State → Host.Outcome State Fault Refusal :=
  runInstr fun c s =>
    crossLane f (vDst c f.d f.ty.is64 && crossSrc c f f.a f.ty.is64 && crossSrc c f f.b false) (fun c m s =>
      let get (l : Nat) : Nat :=
        let k := laneOf c.g .n32 f.b l
        if k < c.g.width ∧ m.getLsbD k then laneOf c.g f.ty f.a k else laneOf c.g f.ty f.a l
      .ok (putLanes c f.d f.ty.is64 ((lanes m).map fun l => (l, get l)) s)) c s

/-- The result of a vote (R194). -/
def voteResult (op : Nat) (m b : Mask) : Mask :=
  match op with
  | 0 => b
  | 1 => if b ≠ 0 then m else 0
  | 2 => if b = m then m else 0
  | _ => if b = 0 ∨ b = m then m else 0

def constOf (x : Src) : Nat := match x.spec with | .int n => n.val | _ => 0

def execVote (f : OForm) : State → Host.Outcome State Fault Refusal :=
  runInstr fun c s =>
    crossLane f (isSReg f.d && crossSrc c f f.a false) (fun c m s =>
      let b := maskOf ((lanes m).filter fun l => laneOf c.g .n32 f.a l ≠ 0)
      .ok (putLanes c f.d true [(0, (if m = 0 then 0 else voteResult (constOf f.b) m b).toNat)] s)) c s

/-- ELECT (R195). -/
def execElect (f : OForm) : State → Host.Outcome State Fault Refusal :=
  runInstr fun c s =>
    crossLane f (isSReg f.d) (fun c m s =>
      let b : Mask := match lanes m with | l :: _ => BitVec.ofNat 64 (2 ^ l) | [] => 0
      .ok (putLanes c f.d true [(0, b.toNat)] s)) c s

/-! ## REDUX and SCAN (R191, R192) -/

/-- One step of the fold. -/
def foldStep (f : OForm) (code : Nat) (x y : Nat) : Flagged Nat :=
  let t := f.ty
  match code with
  | 0 => fit t f.sat (ival t x + ival t y)
  | 1 => .pure (if ival t x ≤ ival t y then x else y)
  | 2 => .pure (if ival t y ≤ ival t x then x else y)
  | 3 => .pure (x &&& y)
  | 4 => .pure (x ||| y)
  | 5 => .pure (x ^^^ y)
  | 6 => float2 { f with sat := false } addVal x y
  | 7 => minOf (tyFmt t) f.ftz false x y
  | _ => minOf (tyFmt t) f.ftz true x y

/-- The identity of an exclusive scan (R191). -/
def foldIdentity (t : Ty) (code : Nat) : Nat :=
  let (lo, hi) := tyRange t
  match code with
  | 1 => patOf (tyBits t) hi
  | 2 => patOf (tyBits t) lo
  | 3 => 2 ^ tyBits t - 1
  | _ => 0

/-- The first lane's value: a subnormal is flushed under FTZ and a NaN quieted, as a source of every step is (R191,
R192). -/
def foldStart (f : OForm) (code : Nat) (x : Nat) : Flagged Nat :=
  if code < 6 then .pure x
  else
    let t := tyFmt f.ty
    match fsrc t f.ftz x with
    | .nan q n p => ⟨quieted t n p, raiseIf (!q) Fp.invalid⟩
    | .zero n => .pure (if n then t.signBit else 0)
    | _ => .pure x

/-- Inclusive partial results in lane order. -/
def foldRun (f : OForm) (code : Nat) : Flagged Nat → List Nat → List (Flagged Nat)
  | acc, [] => [acc]
  | acc, x :: xs => acc :: foldRun f code (foldStep f code acc.val x) xs

def execRedux (f : OForm) : State → Host.Outcome State Fault Refusal :=
  runInstr fun c s =>
    let k := constOf f.b
    crossLane f ((isSReg f.d || vDst c f.d f.ty.is64) && crossSrc c f f.a f.ty.is64) (fun c m s =>
      match lanes m with
      | [] => .ok s
      | l :: ls =>
        let run := foldRun f k (foldStart f k (laneOf c.g f.ty f.a l)) (ls.map (laneOf c.g f.ty f.a))
        let r := (run.getLast?.map (·.val)).getD 0
        .ok ((putLanes c f.d f.ty.is64 ((l :: ls).map fun i => (i, r)) s).raiseFp c.gid (orFp (run.map (·.fp))))) c s

def execScan (f : OForm) : State → Host.Outcome State Fault Refusal :=
  runInstr fun c s =>
    let code := constOf f.b
    crossLane f (vDst c f.d f.ty.is64 && crossSrc c f f.a f.ty.is64) (fun c m s =>
      match lanes m with
      | [] => .ok s
      | l :: ls =>
        let x := laneOf c.g f.ty f.a
        let run := if code < 9 then foldRun f code (foldStart f code (x l)) (ls.map x)
          else foldRun f (code - 9) (.pure (foldIdentity f.ty (code - 9))) ((l :: ls).map x)
        .ok ((putLanes c f.d f.ty.is64 ((l :: ls).zip (run.map (·.val))) s).raiseFp c.gid (orFp (run.map (·.fp))))) c s

/-! ## BCAST and SETLANE (R196, R197) -/

/-- The lane k, which must be one of m. -/
def namedLane (c : Ctx) (x : Src) (m : Mask) : Res Nat :=
  let k := laneValue c.g x
  if 0 ≤ k ∧ k < c.g.width ∧ m.getLsbD k.toNat then .ok k.toNat else illegal

def execBcast (f : OForm) : State → Host.Outcome State Fault Refusal :=
  runInstr fun c s =>
    crossLane f ((isSReg f.d || vDst c f.d f.ty.is64) && crossSrc c f f.a f.ty.is64 && laneSpec f.b) (fun c m s =>
      if m = 0 then .ok s
      else do
        let k ← namedLane c f.b m
        let v := laneOf c.g f.ty f.a k
        .ok (putLanes c f.d f.ty.is64 ((lanes m).map fun l => (l, v)) s)) c s

/-- SETLANE: the A value is an s register or a constant. -/
def execSetlane (f : OForm) : State → Host.Outcome State Fault Refusal :=
  runInstr fun c s =>
    let aOk := f.a.pat == .none && f.a.par == 0 && (match f.a.spec with | .s _ | .int _ | .neg _ | .fp _ => true | _ => false)
    crossLane f (vDst c f.d f.ty.is64 && aOk && laneSpec f.b) (fun c m s =>
      if m = 0 then .ok s
      else do
        let k ← namedLane c f.b m
        .ok (putLanes c f.d f.ty.is64 [(k, laneOf c.g f.ty f.a 0)] s)) c s

end Sys2Proof.Machine
end

