-- ==== Sys2Proof/Machine/Fetch.lean ====
section
/-! DEFINITION. Fetching and checking clauses, issue and resumption on the three ports (R118 to R124, R151 to R153, R414). -/
namespace Sys2Proof.Machine

/-! ## The checks of R121 -/

/-- The class of an opcode (R141); control instructions stand in a clause of any class. -/
def opClass (op : Nat) : Option Class :=
  if op < 0x10 then none
  else if op < 0x60 then some .alu
  else if op < 0x70 then some .mem
  else if op < 0x80 then some .eng
  else if op < 0x90 then some .mat
  else some .sys

def isControlOp (op : Nat) : Bool := op < 0x10
def isRftOp (op : Nat) : Bool := op == 0x93

/-- Check 5 of the word at position k of n. -/
def misplaced (h : Header) (n k : Nat) (op : Nat) : Bool :=
  if isControlOp op then k != n else (isRftOp op && k != n) || opClass op != some h.cls

/-- The index of the first word for which p holds, counted from 1. -/
def firstBad (p : Nat → Word → Bool) (ws : List Word) : Option Nat :=
  (ws.zipIdx.find? fun e => p (e.2 + 1) e.1).map fun e => e.2 + 1

def opOf (w : Word) : Nat := fld w.toNat 56 8

/-- The instruction words of the clause at a header. -/
def clauseWords (r : Region) (hdr n : Nat) : List (Option Word) := (List.range n).map fun i => codeAt r (hdr + 8 * (i + 1))

/-- The whole-clause check: the clause's header, or the trap with its position. A header past the code size names the
instruction that led there. A position past the clause's last instruction, which a handler may have written to TRAPPC, fails
at its own index. DEDUCED (log entry 87). -/
def checkClause (r : Region) (g : Group) : Except (BitVec 37 × Trap) Header :=
  let bad (k : Nat) : Except (BitVec 37 × Trap) Header := .error (pcReg g.hdr k, { cause := Cause.illegalEncoding })
  match codeAt r g.hdr.toNat with
  | none => .error (pcReg g.fromHdr g.fromIdx, { cause := Cause.illegalTarget, addr := g.hdr.zeroExtend 64 })
  | some w =>
    match decodeHeader w with
    | none => bad 0
    | some h =>
      let n := h.count.val + 1
      let ws := (clauseWords r g.hdr.toNat n).filterMap id
      if ws.length < n then bad 0
      else match firstBad (fun _ x => isHeaderWord x || !opcodeAssigned (opOf x)) ws with
        | some k => bad k
        | none => match firstBad (fun k x => misplaced h n k (opOf x)) ws with
          | some k => bad k
          | none => match firstBad (fun _ x => (decode? x).isNone) ws with
            | some k => bad k
            | none => if n < g.idx then bad g.idx else .ok h

/-! ## Ports (R151) -/

/-- The port of a class: ALU, MEM, or the combined one. -/
def portOf : Class → Nat
  | .alu => 0 | .mem => 1 | _ => 2

/-- The port that a group's clause uses; an unreadable header goes to the ALU port, where its check fails. -/
def groupPort (s : State) (g : Group) : Nat :=
  match (do
    let t ← s.team? g.team
    let l ← s.launch? t.launch
    let r ← s.region? (← l.region)
    decodeHeader (← codeAt r g.hdr.toNat)) with
  | some h => portOf h.cls
  | none => 0

/-- Whether a clause of another group is issuing on a core's port. -/
def portBusy (s : State) (gid place port : Nat) : Bool :=
  s.groups.any fun e => e.1 != gid && e.2.phase == .issuing && placeOfGroup s e.2 == some place && groupPort s e.2 == port

/-! ## Readiness of a clause (R152) -/

/-- Every flag of the wait mask reads zero. -/
def flagsClear (g : Group) (wait : BitVec 12) : Bool :=
  (List.range 12).all fun i => !wait.getLsbD i || g.flagCount i == 0

/-- The flags of a group without the counts that only its held faults keep: a clause that waits in its middle resumes past
them, since they end when the faults are taken, before the next clause (DEDUCED, log entry 84). -/
def Group.unheld (g : Group) : Group := g.heldFaults.foldl (fun g e => g.uncount e.2) g

/-- The wait mask of the clause at the group's header; nothing to wait for where no header can be read. -/
def waitMask (r : Region) (g : Group) : BitVec 12 :=
  match (codeAt r g.hdr.toNat).bind decodeHeader with
  | some h => h.wait
  | none => 0

/-- What a restore left to copy or to move has been copied and moved, or has met a fault, which the handler is for: it goes
on after RFT (R117, R169, R170). -/
def frameCopied (g : Group) : Bool := !g.restoring || (g.sup && g.porterFault.isSome)

/-- A fault that is taken before the group's next clause (R169, R290): the porter's first, then held faults in order, each
with the decrement of its counter (R125). Those that arise under the handler are held until RFT (R354). -/
def nextHeld (g : Group) : Option (Trap × Group) :=
  if g.sup then none
  else match g.porterTrap, g.heldFaults with
    | some x, _ => some (x, { g with porterTrap := none })
    | none, (x, f) :: xs => some (x, { g with heldFaults := xs }.uncount f)
    | none, [] => none

/-- A clause may start at the group's position: nothing is held, its flags are clear and its frame is resident. A CALL that
issues again after a porter-fault in its room still has frame registers spilled for it (R166, R169). -/
def clauseReady (r : Region) (g : Group) : Bool :=
  flagsClear g (waitMask r g) && frameCopied g && (g.sup || g.wantRing != 0 || decide (g.resLo ≤ g.base))

/-- Instructions that ask the porter for room or for copies, and issue again for them. -/
def asksPorter (i : Instr) : Bool :=
  match i with
  | .call .. | .callx .. | .tokenIf | .tokenLoop _ | .wsyncWb => true
  | _ => false

/-- What the group asked of the porter stays asked only by an instruction that issues again for it, and while the handler
runs (R169). -/
def Group.keepWants (g : Group) (r : Region) : Group :=
  if g.sup then g
  else
  let i := if g.idx = 0 then none else (codeAt r (g.hdr.toNat + 8 * g.idx)).bind decode?
  if (i.map asksPorter).getD false then g else g.wantNothing

/-- Entries that a commit log holds before its convoy stops for a waypoint (R378). -/
def commitLimit : Nat := 4096

/-- A group of a convoy whose log is full stops at a clause boundary once its counterpart has started no more clauses. -/
def stoppedForWaypoint (s : State) (g : Group) (t : Team) : Bool :=
  t.side != .solo && (match s.convoys.find? fun (v : Convoy) => v.lead == g.team || v.escort == g.team with
    | some v => decide (commitLimit ≤ v.commits.length) &&
        (s.groups.all fun (e : Nat × Group) => !(e.2.team == t.peer && e.2.slot == g.slot) || decide (e.2.clauses ≤ g.clauses))
    | none => false)

/-- Start the clause at the group's header, at index k. A fault taken before a resumption inside the clause names the resume
index, since the words before it do not issue again (R414). DEDUCED (log entry 40). -/
def startClause (gid k : Nat) (s : State) : Option State := do
  let g ← s.group? gid
  let t ← s.team? g.team
  let l ← s.launch? t.launch
  let r ← s.region? (← l.region)
  if g.phase ≠ .boundary ∨ l.status.isSome then none
  let g := g.keepWants r
  match nextHeld g with
  | some (x, g') => pure (takeTrap gid g' t l r (pcReg g.hdr g.idx) x (s.setGroup gid g'))
  | none =>
    if !clauseReady r g || portBusy s gid t.place (groupPort s g) || stoppedForWaypoint s g t then none
    match checkClause r g with
    | .error (pos, x) => pure (takeTrap gid g t l r pos x s)
    | .ok _ => pure (s.setGroup gid { g with phase := .issuing, idx := k, clauses := if k = 1 then g.clauses + 1 else g.clauses })

/-- CLAUSE_ISSUE: a clause starts from its header. -/
def clauseIssue (gid : Nat) (s : State) : Option State := do
  let g ← s.group? gid
  if g.idx = 0 then startClause gid 1 s else none

/-- CLAUSE_RESUME: a resumption inside a clause starts it again at that instruction; a clause that waits goes on at the
waiting instruction, once the flags of its wait mask are clear (R152). -/
def clauseResume (gid : Nat) (s : State) : Option State := do
  let g ← s.group? gid
  match g.phase with
  | .boundary => if g.idx = 0 then none else startClause gid g.idx s
  | .waiting =>
    let c ← s.ctx? gid
    if frameCopied g then
      if !flagsClear g.unheld (waitMask c.r g) || portBusy s gid c.t.place (groupPort s g) then none else pure (s.setGroup gid { g with phase := .issuing })
    else match g.porterTrap with
      | some x => pure (c.takeTrap x (s.setGroup gid { g with porterTrap := none }))
      | none => none
  | _ => none

def execClauseIssue (group : Nat) : State → Host.Outcome State Fault Refusal := event (clauseIssue group)
def execClauseResume (group : Nat) : State → Host.Outcome State Fault Refusal := event (clauseResume group)

end Sys2Proof.Machine
end

