-- ==== Sys2Proof/Machine/Placing.lean ====
section
/-! DEFINITION. What a core holds, the placement check, stack slots and core-wide slots, the loading of a group, and the
retirement of teams (R99 to R105, R115, R153, R159, R227). -/
namespace Sys2Proof.Machine

/-! ## The placement check (R100, R102, R104) -/

/-- What a team takes of a core. -/
structure Need where
  width : Nat
  rings : List Nat
  spad : Nat
  slots : Nat
  tiles : Nat
  deriving DecidableEq, Repr

def Launch.need (l : Launch) : Need := ⟨l.width, List.replicate l.groups l.ring, l.spad, l.slots, l.tiles⟩

/-- Live rows of a lane column; at least 4 × 176 stay live (R106). -/
def liveRows (d : Device) (place col : Nat) : Nat := 2048 - 32 * min (Config.removedRows d.defects place col) 42

def liveSlots (d : Device) (place : Nat) : Nat := 128 - min (Config.deadSlots d.defects place) 128

/-- Rows a group takes (R102). -/
def rowsOf (ring : Nat) : Nat := 48 + ring

/-- Take `rows` in `n` columns from column c. -/
def takeRows (trial : List Nat) (c n rows : Nat) : List Nat :=
  trial.zipIdx.map fun (v, i) => if c ≤ i && i < c + n then v - rows else v

/-- The lowest aligned segment of n columns with enough free rows. -/
def findSeg (trial : List Nat) (n rows : Nat) : Option Nat :=
  ((List.range (8 / n)).map (· * n)).find? fun c => (List.range n).all fun i => rows ≤ (trial[c + i]?).getD 0

/-- The segments of a team's groups, placed in slot order. -/
def findSegs (n : Nat) : List Nat → List Nat → Option (List Nat)
  | _, [] => some []
  | trial, r :: rings => do
    let c ← findSeg trial n (rowsOf r)
    let rest ← findSegs n (takeRows trial c n (rowsOf r)) rings
    pure (c :: rest)

/-- Free rows of each column of a core, under the teams resident there. -/
def freeRows (s : State) (place : Nat) (teams : List (Nat × Team)) : List Nat :=
  teams.foldl (fun trial e =>
    ((s.teamGroups e.1).zip e.2.segs).foldl (fun trial (g, c) => takeRows trial c (g.2.width / 8) (rowsOf g.2.ring)) trial)
    ((List.range 8).map (liveRows s.dev place))

/-- `fits` of R104 on a core with some teams resident: the lane segments of the team's groups. -/
def fitsWith (s : State) (place : Nat) (teams : List (Nat × Team)) (n : Need) : Option (List Nat) :=
  let sum (f : Team → Nat) : Nat := (teams.map fun e => f e.2).sum
  if 8 < teams.length + 1 ∨ 32 < sum (fun t => t.segs.length) + n.rings.length ∨ 512 * 1024 < sum (·.spadSize) + n.spad
      ∨ liveSlots s.dev place < sum (·.nslots) + n.slots ∨ 16 < sum (·.ntiles) + n.tiles then none
  else findSegs (n.width / 8) (freeRows s place teams) n.rings

def teamsOn (s : State) (place : Nat) : List (Nat × Team) := s.teams.filter fun e => e.2.place == place

/-- A team's placement waits while the core's scratchpad array is in retention (R262). -/
def fits (s : State) (place : Nat) (n : Need) : Option (List Nat) :=
  if spadRetained s.fab place then none else fitsWith s place (teamsOn s place) n

/-- A core that could hold the team were it empty. -/
def couldHold (s : State) (place : Nat) (n : Need) : Bool := (fitsWith s place [] n).isSome

/-- The physical cores of a region. -/
def Region.cores (r : Region) : List Nat := r.map.map (·.2)

/-! ## Slots (R153, R227) -/

/-- The n lowest numbers from 0 below the limit that a list does not hold. -/
def lowestFree (used : List Nat) (limit n : Nat) : List Nat := ((List.range limit).filter fun k => !used.contains k).take n

/-- Stack slots of a context in use: by groups that have not ended, saved ones included. -/
def stackUsed (s : State) (ctx : BitVec 16) : List Nat :=
  let ours (l : Nat) : Bool := ((s.launch? l).map fun x => x.ctx == ctx).getD false
  (s.groups.filterMap fun e => do
    let t ← s.team? e.2.team
    if ours t.launch && e.2.phase != .ended then some e.2.stackSlot else none)
  ++ s.saved.flatMap fun x => if ours x.2.team.launch then (x.2.groups.filter fun g => g.2.phase != .ended).map fun g => g.2.stackSlot else []

/-- Core-wide slots in use on a core. -/
def coreSlotsUsed (s : State) (place : Nat) : List Nat :=
  s.groups.filterMap fun e => if e.2.phase != .ended && placeOfGroup s e.2 == some place then some e.2.coreSlot else none

/-! ## Loading a group (R44, R115) -/

/-- Entries of the image that a group takes; without a register image, the Reset column of R355. -/
def defaultImage : GImage :=
  { width := 8, sregs := [], vfix := [],
    specials := (List.range 32).map fun k => if k = 14 then 4000000 else if 16 ≤ k ∧ k ≤ 19 then 0xC000000000000000 else 0 }

/-- The group of slot j as loaded, with stack slot and core-wide slot. The reserved fields of HANDLER, LINKFENCELIM and
TXQBn in an image entry do not reach the register, where they read as zero (R9). DEDUCED (log entry 66). -/
def loadGroup (l : Launch) (r : Region) (team j stack core tick : Nat) : Group :=
  let im := (r.images[min j (r.images.length - 1)]?).getD defaultImage
  let w := l.width
  let sp (k : Nat) : Word := (im.specials[k]?).getD 0
  let sregs := im.sregs.zipIdx.foldl (fun m (v, k) => SMap.set 0 m k v) []
  let lane (k i : Nat) : Lane := (im.vfix[k * im.width + i % im.width]?).getD 0
  { team := team, slot := j, coreSlot := core, stackSlot := stack, width := w, readyAt := tick,
    exec := fullMask w, live := fullMask w, ring := l.ring,
    sregs := (match l.origin with
      | .mailbox _ n line => SMap.set 0 (SMap.set 0 (SMap.set 0 sregs 0 l.argument) 1 line) 2 (BitVec.ofNat 64 n)
      | _ => SMap.set 0 sregs 0 l.argument),
    vfix := (List.range 16).foldl (fun m k => (List.range w).foldl (fun m i => SMap.set 0 m (k * 64 + i) (lane k i)) m) [],
    wlim := 0x00E0000000000000 + BitVec.ofNat 64 l.backing,
    handler := (sp 11).extractLsb' 0 32, linkFenceLim := (sp 14).extractLsb' 0 32,
    tx := (List.range 4).foldl (fun m i => SMap.set {} m i { bind := Port.named (sp (16 + i)) }) [],
    su := (List.range 8).foldl (fun m i => SMap.set 0 m i (sp (24 + i))) [] }

/-- A team on its core with its groups loaded; the team takes the next identity and its groups those after it. R115 lets
the groups become ready in any order: here all are ready at once. DESIGN CHOICE (log entry 67). -/
def loadTeam (s : State) (lid : Nat) (l : Launch) (r : Region) (t : Team) (stk : List Nat) : State :=
  let cores := lowestFree (coreSlotsUsed s t.place) 32 l.groups
  let gs := (List.range l.groups).map fun j =>
    (s.nextId + 1 + j, loadGroup l r s.nextId j ((stk[j]?).getD 0) ((cores[j]?).getD 0) s.tick)
  let s' := { s with teams := SMap.put s.teams s.nextId { t with launch := lid }, nextId := s.nextId + 1 + l.groups,
                     groups := gs.foldl (fun m e => SMap.put m e.1 e.2) s.groups }
  dropLines s' t.place

/-! ## The retirement of teams (R85, R159) -/

/-- Nothing of a launch runs on: its status is fixed. -/
def stopping (l : Launch) : Bool := l.status.isSome

/-- A team whose groups have all ended, or stand still with their launch, and whose operations are done. -/
def teamOver (s : State) (tid : Nat) (l : Launch) : Bool :=
  let gs := s.teamGroups tid
  gs.all fun e => (e.2.phase == .ended || (stopping l && e.2.phase != .issuing)) && (s.groupOps e.1).isEmpty

/-- The two teams of a convoy, or the team alone. -/
def Team.both (t : Team) (tid : Nat) : List Nat := if t.side == .solo then [tid] else [tid, t.peer]

/-- Some of these groups started a clause. -/
def anyIssued (gs : List (Nat × Group)) : Bool := gs.any fun e => e.2.clauses != 0 || e.2.waypoints != 0 || e.2.mismatches != 0

/-- The flags that some groups have raised. -/
def orFpstat (gs : List (Nat × Group)) : BitVec 7 := gs.foldl (fun m e => m ||| e.2.fpstat) 0

/-- A team that is over releases its writes at device scope; `none` while one of them has still to take effect, or an
invalidation for it is on its way (R85, R324, R382). -/
def settledTeam (s : State) (place : Nat) : Option State :=
  if !releaseReady s place .device then none
  else
    let s := releaseAt s place .device
    if invalidationsPending s then none else some s

/-- A team retires once its writes are released: its flags fold into the launch, its bit is set in the launch's bitmap, and
it leaves its core. A stopped team sets no bit. -/
def retireTeam (s : State) (tid : Nat) (t : Team) (l : Launch) : State :=
  let gs := s.teamGroups tid
  let ended := gs.all fun e => e.2.phase == .ended
  let s := if ended && t.side != .escort && (l.prot || !t.depsigned) then setBitmapBit l t.index s else s
  let fp := orFpstat gs
  let sampled := s.assay.any fun (x : AssayStream) => x.team == tid && !x.full
  let s := s.modLaunch t.launch fun x =>
    { x with fpstat := x.fpstat ||| fp, issued := x.issued || anyIssued gs,
             retired := if t.side == .escort then x.retired else t.index :: x.retired,
             replaying := if sampled && ended && !stopping l then tid :: x.replaying else x.replaying }
  let keep (e : AssayStream) : Option AssayStream :=
    if e.team ≠ tid then some e else if ended && !stopping l then some { e with ended := true } else none
  { s with teams := SMap.del s.teams tid, groups := s.groups.filter (fun e => e.2.team != tid),
           convoys := s.convoys.filter (fun (v : Convoy) => v.lead != tid && v.escort != tid),
           assay := s.assay.filterMap keep }

/-- Every team that is over releases its writes and retires, the two sides of a convoy together. -/
def settleTeams (s : State) : State :=
  s.teams.foldl (fun s e =>
    match s.team? e.1, s.launch? e.2.launch with
    | some t, some l =>
      -- one side of a convoy may have gone with its reticle
      let ids := (t.both e.1).filter fun k => (s.team? k).isSome
      if l.rollback || !(ids.all fun k => teamOver s k l) then s
      else
        let s := ids.foldl (fun s k => match s.team? k with
          | some t => if releaseReady s t.place .device then releaseAt s t.place .device else s
          | none => s) s
        if ids.all fun k => ((s.team? k).bind fun t => settledTeam s t.place).isSome then
          ids.foldl (fun s k => match s.team? k, s.launch? t.launch with
            | some t, some l => retireTeam s k t l
            | _, _ => s) s
        else s
    | _, _ => s) s

end Sys2Proof.Machine
end

