-- ==== Sys2Proof/Machine/Loading.lean ====
section
/-! DEFINITION. The kernel image and its checks, relocation, placement regions and warm slots (R29 to R35, R41 to R44, R81,
R82, R96, R106 to R111). -/
namespace Sys2Proof.Machine

/-! ## The image header (R29, R30) -/

/-- A section of the image: offset and size in bytes. -/
structure Section_ where
  off : Nat
  size : Nat
  deriving DecidableEq, Repr

/-- The header's fields. -/
structure ImageHeader where
  code : Section_
  relocs : Section_
  dispatch : Section_
  records : Section_
  images : Section_
  consts : Section_
  mask : Nat
  deriving DecidableEq, Repr

def ImageHeader.ofNat (h : Nat) : ImageHeader where
  code := ⟨fld h 64 32, fld h 96 32⟩
  relocs := ⟨fld h 128 32, 8 * fld h 160 32⟩
  dispatch := ⟨fld h 192 32, fld h 224 32⟩
  records := ⟨fld h 256 32, fld h 288 32⟩
  images := ⟨fld h 320 32, fld h 352 32⟩
  consts := ⟨fld h 384 32, fld h 416 32⟩
  mask := fld h 448 64

def ImageHeader.sections (h : ImageHeader) : List Section_ :=
  [h.code, h.relocs, h.dispatch, h.records, h.images, h.consts].filter fun x => x.size != 0

/-- The header checks of R30: constants, reserved fields, placed and separate sections, a code section. -/
def headerOk (h : Nat) : Bool :=
  let x := ImageHeader.ofNat h
  let ss := x.sections
  fld h 0 32 == 0x38345742 && fld h 32 16 == 1 && fld h 48 16 == 0 && !bitAt h 448
    && x.code.size != 0 && x.code.size % 8 == 0
    && ss.all (fun a => a.off % 64 == 0 && decide (64 ≤ a.off))
    && ss.zipIdx.all fun (a, i) => ss.zipIdx.all fun (b, j) => i == j || decide (a.off + a.size ≤ b.off) || decide (b.off + b.size ≤ a.off)

/-! ## Relocations (R31 to R33) -/

/-- A relocation entry. -/
structure Reloc where
  off : Nat
  pos : Nat
  kind : Nat
  deriving DecidableEq, Repr

def Reloc.ofNat (e : Nat) : Reloc := ⟨fld e 0 32, fld e 32 6, fld e 38 4⟩

def relocWidth (kind : Nat) : Nat := match kind with | 0 => 12 | 1 => 6 | 2 => 14 | _ => 12

/-- R31's checks of one entry against the code. -/
def relocOk (code : List Word) (e : Nat) : Bool :=
  let r := Reloc.ofNat e
  fld e 42 22 == 0 && r.kind ≤ 3 && r.off % 8 == 0 && decide (r.off < 8 * code.length)
    && !isHeaderWord ((code[r.off / 8]?).getD 0) && decide (r.pos + relocWidth r.kind ≤ 64)

/-- Entries in strictly increasing order of offset and position, without a common bit. -/
def relocsOrdered : List Reloc → Bool
  | a :: b :: rest => (decide (a.off < b.off) || (a.off == b.off && decide (a.pos + relocWidth a.kind ≤ b.pos))) && relocsOrdered (b :: rest)
  | _ => true

/-- The map of R107 for one logical place. -/
def mapPlace (m : List (Nat × Nat)) (p : Nat) : Option Nat := (m.find? fun e => e.1 == p).map (·.2)

/-- Wafer row and column of a place (R14, R15). -/
def waferRow (p : Nat) : Nat := 8 * (p / 512) + p / 8 % 8
def waferCol (p : Nat) : Nat := 8 * (p / 64 % 8) + p % 8

/-- The place at wafer row r and column c. -/
def placeAt (r c : Nat) : Nat := r / 8 * 512 + c / 8 * 64 + r % 8 * 8 + c % 8

/-- Mesh hops between two places. -/
def hops (a b : Nat) : Nat :=
  (waferRow a - waferRow b) + (waferRow b - waferRow a) + (waferCol a - waferCol b) + (waferCol b - waferCol a)

/-- The nearest of some places, ties to the lowest. -/
def nearest (p : Nat) (ps : List Nat) : Option Nat :=
  ps.foldl (fun best q => match best with
    | none => some q
    | some b => if hops p q < hops p b ∨ (hops p q = hops p b ∧ q < b) then some q else some b) none

/-- Cores that the loaded defect map leaves enabled (R106). -/
def enabledCores (d : Device) : List Nat :=
  let dead := disabledCores d.defects
  (List.range 3072).filter fun p => !dead.contains p

/-- The device-wide map of R108. A field value of 3,072 and above names no logical core; it goes to the nearest enabled core
of the wafer. DESIGN CHOICE (log entry 68). -/
def deviceMap (d : Device) (p : Nat) : Nat :=
  if usable d p then p
  else match nearest p ((enabledCores d).filter fun q => reticleOf q == reticleOf p) with
    | some q => q
    | none => (nearest p (enabledCores d)).getD p

/-- The rewritten field of one entry (R32), where the region allows it. -/
def rewrite (d : Device) (m : List (Nat × Nat)) (kind v : Nat) : Option Nat :=
  match kind with
  | 0 => mapPlace m v
  | 1 =>
    -- the region's lowest logical place in that reticle decides
    match (m.filter fun e => reticleOf e.1 == v).foldl (fun (best : Option (Nat × Nat)) e =>
        match best with | none => some e | some b => if e.1 < b.1 then some e else some b) none with
    | some e => some (reticleOf e.2)
    | none => none
  | 2 => (mapPlace m (v / 4)).map fun q => 4 * q + v % 4
  | _ => some (deviceMap d v)

/-- The code with one entry's field rewritten; every other bit stays. -/
def relocateOne (d : Device) (m : List (Nat × Nat)) (code : List Word) (r : Reloc) : Option (List Word) := do
  let w := ((code[r.off / 8]?).getD 0).toNat
  let n := relocWidth r.kind
  let old := fld w r.pos n
  let v ← rewrite d m r.kind old
  pure (code.set (r.off / 8) (BitVec.ofNat 64 (w - old * 2 ^ r.pos + v % 2 ^ n * 2 ^ r.pos)))

def relocateAll (d : Device) (m : List (Nat × Nat)) (code : List Word) (rs : List Reloc) : Option (List Word) := rs.foldlM (relocateOne d m) code

/-! ## Sections (R34, R35, R41, R42, R44) -/

/-- The little-endian words of n bytes of a list. -/
def wordsOf (n : Nat) (bs : List Byte) : List Nat := (List.range (bs.length / n)).map fun i => leNat ((bs.drop (n * i)).take n)

/-- Entries of a dispatch table, checked against the code size. -/
def entriesOk (codeSize : Nat) (t : List Nat) : Bool := t.all fun x => x % 8 == 0 && decide (x < codeSize)

/-- The image's dispatch table; none where a check fails. -/
def dispatchOf (codeSize : Nat) (bs : List Byte) : Option (List Nat) :=
  if bs.isEmpty then some []
  else
    let n := leNat (bs.take 4)
    if bs.length < 4 ∨ 65536 < n ∨ bs.length < 4 + 4 * n then none
    else
      let t := wordsOf 4 ((bs.drop 4).take (4 * n))
      if entriesOk codeSize t then some t else none

/-- The record image's count and the constant-relative mask. -/
def recordImageOk (mask : Nat) (bs : List Byte) : Bool :=
  if bs.isEmpty then mask == 0
  else
    let k := leNat (bs.take 4)
    decide (4 ≤ bs.length) && decide (k ≤ 63) && decide (8 + 40 * k ≤ bs.length) && mask / 2 ^ (k + 1) == 0

/-- One group context image, as a register image may hold it (R44, R110, R111). -/
def parseGImage (bs : List Byte) : Option (GImage × Nat) :=
  let h := leNat (bs.take 64)
  let w := 8 * 2 ^ fld h 40 2
  let size := imageSize w 0 false
  let part (o n : Nat) : List Byte := (bs.drop o).take n
  if bs.length < size ∨ fld h 0 32 ≠ 0x58434742 ∨ fld h 32 8 ≠ 1 ∨ fld h 96 32 ≠ size ∨ fld h 42 6 ≠ 0 ∨ fld h 53 43 ≠ 0
      ∨ fld h 128 384 ≠ 0 then none
  else if (part 0x340 (64 + 512 + 16 + 48)).any (· != 0) then none
  else some ({ width := w, sregs := (wordsOf 8 (part 0x40 512)).map (BitVec.ofNat 64),
               specials := (wordsOf 8 (part 0x240 256)).map (BitVec.ofNat 64),
               vfix := (wordsOf 4 (part 0x5C0 (64 * w))).map (BitVec.ofNat 32) }, size)
where
  imageSize (w n : Nat) (sup : Bool) : Nat := 0x5C0 + 4 * w * (16 + (if sup then 32 else 0) + n)

/-- The images of a register image, one after the other. -/
def parseGImages : Nat → List Byte → Option (List GImage)
  | 0, _ => some []
  | n + 1, bs => do
    let (x, k) ← parseGImage bs
    let rest ← parseGImages n (bs.drop k)
    pure (x :: rest)

/-- The register image; absent, it gives no image and groups load the defaults. -/
def registerImages (bs : List Byte) : Option (List GImage) :=
  if bs.isEmpty then some []
  else
    let g := leNat (bs.take 4)
    if bs.length < 64 ∨ g < 1 ∨ 32 < g ∨ ((bs.drop 4).take 60).any (· != 0) then none else parseGImages g (bs.drop 64)

/-- An image that has passed every check. -/
structure Image where
  code : List Word
  relocs : List Reloc
  table : List Nat
  images : List GImage
  deriving DecidableEq, Repr

/-- Read and check an image through a context's tables (R30, R43). The header gives no image length: the image is taken to end
where its last section ends, and a section that cannot be read in full is past the end. DESIGN CHOICE (log entry 69). -/
def readImage (s : State) (ctx : BitVec 16) (p : Word) : Option Image := do
  let h ← devNat s ctx p 64
  if !headerOk h then none
  let x := ImageHeader.ofNat h
  let part (a : Section_) : Option (List Byte) := if a.size = 0 then some [] else devRead s ctx (ptrAdd p (a.off : Nat)) a.size
  let code := (wordsOf 8 (← part x.code)).map (BitVec.ofNat 64)
  let es := wordsOf 8 (← part x.relocs)
  let rs := es.map Reloc.ofNat
  if !(es.all (relocOk code) && relocsOrdered rs) then none
  let table ← dispatchOf x.code.size (← part x.dispatch)
  if !recordImageOk x.mask (← part x.records) then none
  let images ← registerImages (← part x.images)
  let _ ← if x.consts.size = 0 then some [] else devLocs s ctx false (ptrAdd p (x.consts.off : Nat)) x.consts.size
  pure { code, relocs := rs, table, images }

/-! ## Regions (R107, R109) -/

/-- Physical cores that loaded regions hold. -/
def heldCores (s : State) : List Nat := s.regions.flatMap fun e => e.2.cores

/-- Enabled cores that no region holds and that are not lost. -/
def freeCores (s : State) : List Nat :=
  let held := heldCores s
  (enabledCores s.dev).filter fun p => !placeLost s.dev p && !held.contains p

/-- The logical places of a rectangle in increasing place order; none where it leaves the wafer. -/
def rectangle (origin rows cols : Nat) : Option (List Nat) :=
  let r := waferRow origin
  let c := waferCol origin
  if 3072 ≤ origin ∨ 48 < r + rows ∨ 64 < c + cols then none
  else
    let ps := (List.range rows).flatMap fun i => (List.range cols).map fun j => placeAt (r + i) (c + j)
    some ((List.range 3072).filter fun p => ps.contains p)

/-- Map logical places in order onto free cores: the same place, else the nearest, ties to the lowest. -/
def mapCores : List Nat → List Nat → Option (List (Nat × Nat))
  | [], _ => some []
  | p :: ps, free => do
    let q ← if free.contains p then some p else nearest p free
    let rest ← mapCores ps (free.erase q)
    pure ((p, q) :: rest)

/-- What loading an image on a rectangle comes to. -/
inductive LoadResult where
  | loaded (r : Region)
  | rejected
  | noCores
  deriving DecidableEq, Repr

/-- Load an image for a map that is already made. -/
def loadOn (s : State) (ctx : BitVec 16) (image : Word) (origin rows cols : Nat) (warm : Option Nat) (m : List (Nat × Nat)) : LoadResult :=
  match readImage s ctx image with
  | none => .rejected
  | some x =>
    match relocateAll s.dev m x.code x.relocs with
    | none => .rejected
    | some code => .loaded { ctx, image, origin, rows, cols, map := m, code, table := x.table, images := x.images, warm }

def loadRegion (s : State) (ctx : BitVec 16) (image : Word) (origin rows cols : Nat) (warm : Option Nat) : LoadResult :=
  match (rectangle origin rows cols).bind fun ps => mapCores ps (freeCores s) with
  | none => .noCores
  | some m => loadOn s ctx image origin rows cols warm m

/-! ## Warm launches (R82) -/

/-- A handler launch is warm only on the region that held its image at BIND (R96). -/
def boundTo (l : Launch) (k : Nat) : Bool :=
  match l.origin with
  | .mailbox _ _ _ => l.bound == some k
  | _ => true

/-- The region of the warm slot that a record's hint names, where a launch of the context is warm. -/
def warmRegion (s : State) (ctx : BitVec 16) (l : Launch) : Option Nat := do
  let n ← l.warmHint
  let w ← SMap.entry? s.warm n
  let k ← w.region
  let r ← s.region? k
  if w.ready && w.ctx == ctx && w.pointer == l.image && boundTo l k && r.cores.any (fun p => !placeLost s.dev p && couldHold s p l.need) then pure k
  else none

/-! ## Order in a queue (R83, R84) -/

/-- The launch accepted before this one in its queue, while it is unretired. -/
def predecessor (s : State) (lid : Nat) (l : Launch) : Option (Nat × Launch) := do
  if l.origin ≠ .queue then none
  let k ← ((s.queue l.queue).journal.takeWhile (· != lid)).getLast?
  let p ← s.launch? k
  pure (k, p)

/-- A launch whose predecessor lets its first team be dispatched. -/
def orderAllows (s : State) (lid : Nat) (l : Launch) : Bool :=
  match predecessor s lid l with
  | none => true
  | some (_, p) => l.overlap && p.dispatched.length == p.teams

/-- The device dispatches teams of the launch: it is ready, the launch has no status and is not rolled back, its context
is not suspended. -/
def mayDispatch (s : State) (lid : Nat) (l : Launch) : Bool :=
  s.dev.stage == 9 && l.status.isNone && !l.rollback && !l.depFailed && !s.dev.suspended.contains l.ctx
    && (l.dispatched != [] || orderAllows s lid l)

/-- REGION_LOAD: a launch that is not warm has its image loaded on a region the dispatcher chooses; a rejected image fixes
its status, and too few free cores make it wait. -/
def regionLoad (lid : Nat) (s : State) : Option State := do
  let l ← s.launch? lid
  if !mayDispatch s lid l || l.region.isSome || (warmRegion s l.ctx l).isSome || !ctxValid s (ctxEntry s l.ctx) then none
  let v := Config.regionChoice s.tick
  let origin := v % 3072
  let rows := v / 3072 % (48 - waferRow origin) + 1
  let cols := v / (3072 * 48) % (64 - waferCol origin) + 1
  match loadRegion s l.ctx l.image origin rows cols none with
  | .noCores => none
  | .rejected => pure (fixStatus s lid 0x03)
  | .loaded r =>
    pure { (s.modLaunch lid fun x => { x with region := some s.nextId }) with
             regions := SMap.put s.regions s.nextId r, nextId := s.nextId + 1 }

def execRegionLoad (launch : Nat) : State → Host.Outcome State Fault Refusal := event (regionLoad launch)

/-- REGION_RELEASE (R109). -/
def regionRelease (k : Nat) (s : State) : Option State := do
  let r ← s.region? k
  if s.launches.any (fun e => e.2.region == some k) || (r.warm.isSome && !r.releasing) then none
  pure { s with regions := SMap.del s.regions k }

def execRegionRelease (region : Nat) : State → Host.Outcome State Fault Refusal := event (regionRelease region)

/-! ## Warm slots (R81, R96) -/

def State.warmSlot (s : State) (n : Nat) : WarmSlot := SMap.get {} s.warm n
def State.setWarm (s : State) (n : Nat) (w : WarmSlot) : State := { s with warm := SMap.set {} s.warm n w }

/-- A region no longer holds the images of the handlers bound to it: their later firings are not warm (R96). -/
def coldBoxes (s : State) (k : Option Nat) : State :=
  { s with boxes := s.boxes.map fun (e : Nat × Mailbox) => if k.isSome && e.2.home == k then (e.1, { e.2 with home := none }) else e }

/-- WARM_SLOT_IMAGE_WRITE: the slot's region is released once the launches that use it have retired, and a nonzero pointer
is staged after that. -/
def execWarmSlotImageWrite (slot : BitVec 8) (ptr : Word) : State → Host.Outcome State Fault Refusal :=
  event fun s =>
    let w := s.warmSlot slot.toNat
    let regions := match w.region with
      | some k => SMap.adjust s.regions k fun r => { r with releasing := true }
      | none => s.regions
    some ((coldBoxes { s with regions := regions } w.region).setWarm slot.toNat
      { w with pointer := ptr, ready := false, failed := false, region := none, staging := ptr != 0 })

/-- The map of a region that a slot kept over a device reset; where the new defect map disables a core of it, the rectangle is
mapped anew. -/
def keptMap (s : State) (k : Nat) (r : Region) : Option (List (Nat × Nat)) :=
  if r.cores.all (usable s.dev) then some r.map
  else (rectangle r.origin r.rows r.cols).bind fun ps => mapCores ps (freeCores { s with regions := SMap.del s.regions k })

/-- WARM_SLOT_STAGED: the image is loaded on the slot's rectangle, or again on the region it kept over a device reset. An
image pointer that is not aligned to 64 bytes is staged as any other. DESIGN CHOICE (log entry 72). -/
def warmSlotStaged (n : Nat) (s : State) : Option State := do
  let w ← SMap.entry? s.warm n
  if !w.staging then none
  let done (ok : Bool) (k : Option Nat) : WarmSlot := { w with staging := false, ready := ok, failed := !ok, region := k }
  match w.region with
  | some k =>
    let r ← s.region? k
    match (keptMap s k r).map (loadOn s w.ctx w.pointer r.origin r.rows r.cols (some n)) with
    | some (.loaded r') => pure ({ s with regions := SMap.put s.regions k r' }.setWarm n (done true (some k)))
    | _ => pure ((coldBoxes s (some k)).setWarm n (done false (some k)))
  | none =>
    if s.regions.any fun e => e.2.warm == some n then none
    match loadRegion s w.ctx w.pointer w.origin.toNat (w.rows.toNat + 1) (w.cols.toNat + 1) (some n) with
    | .loaded r => pure ({ s with regions := SMap.put s.regions s.nextId r, nextId := s.nextId + 1 }.setWarm n (done true (some s.nextId)))
    | _ => pure (s.setWarm n (done false none))

def execWarmSlotStaged (slot : BitVec 8) : State → Host.Outcome State Fault Refusal := event (warmSlotStaged slot.toNat)

end Sys2Proof.Machine
end

