-- ==== Sys2Proof/Machine/Matrix.lean ====
section
/-! DEFINITION. The matrix engine: slots and tiles, MLDB, MMA, MZERO, MRD, MWR, MWAIT and MST (R292 to R315). -/
namespace Sys2Proof.Machine

/-! ## Order on tiles and slots (R293, R294) -/

def isMatrix : Instr → Bool
  | .mldb _ _ _ _ | .mma _ | .mzero _ _ | .mrd _ _ _ _ _ _ _ | .mwr _ _ _ _ _ | .mst _ => true
  | _ => false

def isMldb : Instr → Bool
  | .mldb _ _ _ _ => true
  | _ => false

/-- Tiles an operation names, as a mask; the slots it names follow from its first slot and their number. -/
def Op.tileMask (o : Op) : Nat := (o.val 300).toNat
def Op.slotsNamed (o : Op) : List Nat := (List.range (o.val 302).toNat).map fun i => ((o.val 301).toNat + i) % 128

/-- The values that hold what an operation names. -/
def naming (mask first count : Nat) : List (Nat × Word) :=
  [(300, BitVec.ofNat 64 mask), (301, BitVec.ofNat 64 first), (302, BitVec.ofNat 64 count)]

/-- When an operation issued as a team's groups saw it: a convoy's escort joins its lead's operation later. -/
def Op.issuedFor (s : State) (k : Nat) (o : Op) (team : Nat) : Option Nat :=
  if ((s.group? o.group).map (·.team)) == some team then some k
  else match o.twin with
    | some (g, _) => if ((s.group? g).map (·.team)) == some team then some (o.val 303).toNat else none
    | none => none

/-- Earlier matrix operations of a team, before time n, that name a tile or slot of the operation. -/
def earlierNaming (s : State) (team n : Nat) (o : Op) : Bool :=
  s.ops.any fun (e : Nat × Op) => isMatrix e.2.instr &&
    (match e.2.issuedFor s e.1 team with | some m => decide (m < n) | none => false) &&
    (e.2.tileMask &&& o.tileMask != 0 || e.2.slotsNamed.any o.slotsNamed.contains)

/-- An operation may take its effect: nothing earlier names what it names. -/
def matrixReady (s : State) (k : Nat) (o : Op) : Bool :=
  [s.group? o.group, (o.twin.map (·.1)).bind s.group?].all fun g =>
    match g with
    | some g => (match o.issuedFor s k g.team with | some n => !earlierNaming s g.team n o | none => true)
    | none => true

/-- A tile or an F64 pair that R293 allows, as a mask. -/
def tilePair (t : Team) (n : Nat) (pair : Bool) : Option Nat :=
  if pair then (if n % 2 = 0 ∧ n + 1 < t.ntiles then some (3 * 2 ^ n) else none)
  else if n < t.ntiles then some (2 ^ n) else none

/-- Tiles of an MZERO or MWAIT operand: a mask in an s register, or one tile (R310); `top` allows bit 16. -/
def tileOperand (c : Ctx) (b : Spec) (top : Bool) : Res Nat :=
  let ok (m : Nat) : Res Nat :=
    if (List.range 16).all fun i => !(m.testBit i && decide (c.t.ntiles ≤ i)) then .ok m else illegal
  match b with
  | .s n => let m := (c.g.readS n.val).toNat; if m < (if top then 2 ^ 17 else 2 ^ 16) then ok m else illegal
  | .int n => ok (2 ^ n.val)
  | _ => illegal

def tileSpec (x : Spec) : Res Nat := match x with | .int n => .ok n.val | _ => illegal

/-! ## Tiles (R292) -/

def Team.tileWord (t : Team) (a i n : Nat) : Lane := SMap.get 0 t.tiles (a * 2048 + i * 64 + n)
def Team.setTileWord (t : Team) (a i n : Nat) (v : Lane) : Team := { t with tiles := SMap.set 0 t.tiles (a * 2048 + i * 64 + n) v }

/-- A word, or the pair of an F64 accumulator. -/
def Team.tileVal (t : Team) (a : Nat) (pair : Bool) (i n : Nat) : Nat :=
  (t.tileWord a i n).toNat + if pair then (t.tileWord (a + 1) i n).toNat * 2 ^ 32 else 0

def Team.setTileVal (t : Team) (a : Nat) (pair : Bool) (i n v : Nat) : Team :=
  let t := t.setTileWord a i n (BitVec.ofNat 32 v)
  if pair then t.setTileWord (a + 1) i n (BitVec.ofNat 32 (v / 2 ^ 32)) else t

/-! ## Pannier slots (R295) -/

/-- Bits that an element takes in a slot. -/
def heldBits (f : Fmt) : Nat := if f.bits = 6 then 8 else f.bits
/-- Rows a slot holds. -/
def slotRows (f : Fmt) : Nat := 512 / heldBits f

namespace Slot
def valid (t : BitVec 32) : Bool := t.getLsbD 23
def poisoned (t : BitVec 32) : Bool := t.getLsbD 22
def format (t : BitVec 32) : Fmt := Fmt.ofCode (t.extractLsb' 12 5).toNat
def rows (t : BitVec 32) : Nat := (t.extractLsb' 0 10).toNat
def tag (poisoned : Bool) (f : Fmt) (rows : Nat) : BitVec 32 :=
  BitVec.ofNat 32 (2 ^ 23 + (if poisoned then 2 ^ 22 else 0) + f.code * 2 ^ 12 + rows)
end Slot

def Team.slotTag (t : Team) (q : Nat) : BitVec 32 := SMap.get 0 t.slotTags q
def Team.setSlotTag (t : Team) (q : Nat) (v : BitVec 32) : Team := { t with slotTags := SMap.set 0 t.slotTags q v }

/-- n bits at a bit offset of some bytes. -/
def bitsAt (get : Nat → Byte) (bit n : Nat) : Nat :=
  leNat ((List.range ((bit % 8 + n + 7) / 8)).map fun i => get (bit / 8 + i)) / 2 ^ (bit % 8) % 2 ^ n

/-- Element k of column n of a slot: column n holds 64 bytes. -/
def Team.slotElem (t : Team) (q : Nat) (f : Fmt) (k n : Nat) : Nat :=
  bitsAt (fun b => SMap.get 0 t.slots (q * 4096 + n * 64 + b)) (k * heldBits f) f.bits

def Team.setSlotElem (t : Team) (q : Nat) (f : Fmt) (k n v : Nat) : Team :=
  let w := heldBits f
  if w < 8 then
    let b := q * 4096 + n * 64 + k * w / 8
    let sh := k * w % 8
    let old := (SMap.get 0 t.slots b).toNat
    let new := old - old / 2 ^ sh % 2 ^ w * 2 ^ sh + v % 2 ^ w * 2 ^ sh
    { t with slots := SMap.set 0 t.slots b (BitVec.ofNat 8 new) }
  else { t with slots := (leBytes (w / 8) v).zipIdx.foldl (fun m (x, i) => SMap.set 0 m (q * 4096 + n * 64 + k * (w / 8) + i) x) t.slots }

/-- Scale entry j of column n of a slot, counted from the slot's first block. -/
def Team.slotScale (t : Team) (q : Nat) (f : Fmt) (j n : Nat) : Nat :=
  leNat ((List.range f.scaleBytes).map fun i => SMap.get 0 t.sidecar (q * 1024 + n * 16 + j * f.scaleBytes + i))

def Team.setSlotScale (t : Team) (q : Nat) (f : Fmt) (j n v : Nat) : Team :=
  { t with sidecar := (leBytes f.scaleBytes v).zipIdx.foldl (fun m (x, i) => SMap.set 0 m (q * 1024 + n * 16 + j * f.scaleBytes + i) x) t.sidecar }

/-! ## MLDB (R296 to R298) -/

/-- What an MLDB loads. -/
structure Mldb where
  fmt : Fmt
  src : Word
  scale : Word
  rows : Nat
  stride : Nat
  first : Nat

def mldbOf (f : Fmt) (src scale ctl : Word) : Mldb :=
  ⟨f, src, scale, 32 * ((ctl.extractLsb' 32 6).toNat + 1), (ctl.extractLsb' 16 16).toNat, (ctl.extractLsb' 0 7).toNat⟩

def Mldb.lineLen (x : Mldb) : Nat := (x.rows * x.fmt.bits + 7) / 8
def Mldb.count (x : Mldb) : Nat := (x.rows + slotRows x.fmt - 1) / slotRows x.fmt
/-- Blocks of a column. -/
def Mldb.blocks (x : Mldb) : Nat := x.rows / x.fmt.block
def Mldb.scaleLen (x : Mldb) : Nat := if x.fmt.hasScale then 64 * x.blocks * x.fmt.scaleBytes else 0

def Op.mldb (o : Op) (f : Fmt) : Mldb := mldbOf f (o.val 0) (o.val 1) (o.val 2)

/-- Slots first, first + 1, … modulo 128, all the team's own. -/
def slotsOwn (t : Team) (first n : Nat) : Bool := decide (n ≤ t.nslots) && (List.range n).all fun i => decide ((first + i) % 128 < t.nslots)

def mldbChecks (c : Ctx) (f : Fmt) (x : Mldb) (ctl : Word) (s : State) : Res Unit := do
  let w := c.who s
  guardOp (ctl.extractLsb' 38 26 == 0 && ctl.extractLsb' 7 9 == 0 && decide (x.lineLen ≤ x.stride) && !(f.isAsym && x.rows % f.block != 0))
  guardOp (slotsOwn c.t x.first x.count)
  if f.hasScale && x.scale == 0 then trap Cause.scaleSourceAbsent
  guardOp ((apertureOf (ptrAddr x.src)).kind != 1 && !(f.hasScale && (apertureOf (ptrAddr x.scale)).kind == 1))
  rangeCheck w (((List.range 64).map fun n => (.load, ptrAdd x.src (n * x.stride : Nat), x.lineLen)) ++ [(.load, x.scale, x.scaleLen)])

/-- Offsets of the own share that an MLDB reads. -/
def Mldb.ownReads (x : Mldb) : List Nat :=
  let offs (p : Word) (n : Nat) : List Nat :=
    (List.range n).filterMap fun (i : Nat) => match apertureOf (ptrAddr (ptrAdd p i)) with | .scratchpad o => some o | _ => none
  ((List.range 64).flatMap fun n => offs (ptrAdd x.src (n * x.stride : Nat)) x.lineLen) ++ offs x.scale x.scaleLen

/-- The reads of an MLDB begin when it issues, where the buffers' states allow them, else when it fills its slots (R238,
R239). -/
def Mldb.begins (x : Mldb) (t : Team) : Bool := x.ownReads.all (engineBufOk t false)

/-- The team that the reads of an MLDB have begun in: a note of its operation. -/
def begun (team : Nat) : Nat × Word := (304, BitVec.ofNat 64 team)

/-- Every byte an MLDB reads: lines, then scales. -/
def Mldb.bytes (x : Mldb) : List Nat :=
  ((List.range 64).flatMap fun n => (List.range x.lineLen).map fun k => (ptrAdd x.src (n * x.stride + k : Nat)).toNat)
    ++ (List.range x.scaleLen).map fun (k : Nat) => (ptrAdd x.scale k).toNat

/-- Where an MLDB's bytes lie, or the first one that a late check forbids. -/
def mldbSites (s : State) (w : Who) (x : Mldb) : Except (Nat × Nat) (List Site) :=
  x.bytes.mapM fun p =>
    match engineByte s w .load (.code x.fmt) true p with
    | .error n => .error (n, p)
    | .ok none => .error (6, p)
    | .ok (some a) => match a with
      | .spad _ off => if engineBufOk w.t false off then .ok a else .error (3, p)
      | _ => .ok a

/-- Column data of an MLDB: the line's and the scales' bytes as read. -/
def Mldb.lineByte (x : Mldb) (bs : List Carried) (n i : Nat) : Carried := (bs[n * x.lineLen + i]?).getD { val := 0 }
def Mldb.scaleByte (x : Mldb) (bs : List Carried) (i : Nat) : Carried := (bs[64 * x.lineLen + i]?).getD { val := 0 }

def Mldb.elem (x : Mldb) (bs : List Carried) (k n : Nat) : Nat := bitsAt (fun b => (x.lineByte bs n b).val) (k * x.fmt.bits) x.fmt.bits

def Mldb.scaleEntry (x : Mldb) (bs : List Carried) (j n : Nat) : Nat :=
  leNat ((List.range x.fmt.scaleBytes).map fun i => (x.scaleByte bs ((n * x.blocks + j) * x.fmt.scaleBytes + i)).val)

/-- The first asymmetric scale entry that breaks R58, as a byte offset from the scale pointer. -/
def Mldb.badScale (x : Mldb) (bs : List Carried) : Option Nat :=
  if x.fmt.isAsym then
    ((List.range (64 * x.blocks)).find? fun e => (decodeScaled x.fmt 0 (x.scaleEntry bs (e % x.blocks) (e / x.blocks))).isNone).map (4 * ·)
  else none

/-- One slot filled with rows lo to hi − 1. -/
def Mldb.fill (x : Mldb) (bs : List Carried) (q lo hi : Nat) (t : Team) : Team :=
  let cols := List.range 64
  let rows := List.range (hi - lo)
  let t := cols.foldl (fun t n => rows.foldl (fun t k => t.setSlotElem q x.fmt k n (x.elem bs (lo + k) n)) t) t
  let b := x.fmt.block
  let js := if x.fmt.hasScale then (List.range x.blocks).filter fun j => j * b < hi && lo < (j + 1) * b else []
  let t := cols.foldl (fun t n => js.foldl (fun t j => t.setSlotScale q x.fmt (j - lo / b) n (x.scaleEntry bs j n)) t) t
  let special (k n : Nat) : Bool :=
    match decodeScaled x.fmt (x.elem bs k n) (if x.fmt.hasScale then x.scaleEntry bs (k / b) n else 0) with
    | some v => v.val.isNan || v.val.isInf
    | none => false
  let t := cols.foldl (fun t n => (List.range 16).foldl (fun t c =>
    { t with special := SMap.set false t.special (q * 1024 + c * 64 + n)
               (rows.any fun k => k / 32 == c && special (lo + k) n) }) t) t
  let poisoned := cols.any fun n =>
    (rows.any fun k => (List.range ((x.fmt.bits + 14) / 8)).any fun i =>
        decide (8 * ((lo + k) * x.fmt.bits / 8 + i) < (lo + k + 1) * x.fmt.bits) && (x.lineByte bs n ((lo + k) * x.fmt.bits / 8 + i)).tag.isSome)
      || js.any fun j => (List.range x.fmt.scaleBytes).any fun i => (x.scaleByte bs ((n * x.blocks + j) * x.fmt.scaleBytes + i)).tag.isSome
  t.setSlotTag q (Slot.tag poisoned x.fmt (hi - lo))

/-- Every slot that an MLDB names, filled. -/
def Mldb.fillAll (x : Mldb) (bs : List Carried) (t : Team) : Team :=
  let r := slotRows x.fmt
  (List.range x.count).foldl (fun t i => x.fill bs ((x.first + i) % 128) (i * r) (min ((i + 1) * r) x.rows) t) t

/-- Slots that an MLDB names are left not valid. -/
def Mldb.invalidate (x : Mldb) (t : Team) : Team := (List.range x.count).foldl (fun t i => t.setSlotTag ((x.first + i) % 128) 0) t

/-- Teams an MLDB fills: the issuing one, and the escort where it counts on it. -/
def mldbTeams (s : State) (o : Op) : List Nat :=
  ([s.group? o.group, (o.twin.map (·.1)).bind s.group?].filterMap fun g => g.map (·.team))

/-- An MLDB may act: in its turn, after the group's earlier writes, with the escort of a shared load counting on it. -/
def mldbReady (s : State) (k : Nat) (o : Op) (w : Who) (x : Mldb) : Bool :=
  o.fault.isNone && matrixReady s k o && engineReady? s k o w.t.place &&
    !(w.t.side == .lead && !(isSpadPtr x.src.toNat && !(x.fmt.hasScale && !isSpadPtr x.scale.toNat)) && o.twin.isNone)

/-- The teams that the reads of an MLDB have begun in. -/
def Op.begunIn (o : Op) : List Nat := (o.vals.filter fun e => e.1 == 304).map fun e => e.2.toNat

/-- The reads of an MLDB begin in some teams, or are over there (R238, R239). -/
def mldbReads (s : State) (x : Mldb) (start : Bool) (teams : List Nat) : State :=
  teams.foldl (fun s t => s.modTeam t fun t => t.engineReads x.ownReads start) s

/-- An MLDB that faults reads no more. -/
def mldbEnds (s : State) (o : Op) (x : Mldb) : State := mldbReads s x false o.begunIn

/-- A re-executed MLDB takes the bytes that the log holds; one that ended in a fault left its slots not valid (R380). -/
def replayMldb (c : Ctx) (x : Mldb) (v : List (Nat × Word)) (s : State) : State :=
  let bs := (resultsAt (2 ^ 33) v).map fun e => Carried.ofWord e.2
  let s := mldbReads (mldbReads s x true [c.g.team]) x false [c.g.team]
  s.modTeam c.g.team (if bs.isEmpty then x.invalidate else x.fillAll bs)

def execMldb (a b : Spec) (fmt : Fmt) (fb : Bool) : State → Host.Outcome State Fault Refusal :=
  runInstr fun c s => do
    engineReady c s
    let i : Instr := .mldb a b fmt fb
    match a with
    | .s n =>
      guardOp (n.val % 2 == 0)
      let src := c.g.readS n.val
      let scale := c.g.readS (n.val + 1)
      let ctl ← sVal c b
      let x := mldbOf fmt src scale ctl
      mldbChecks c fmt x ctl s
      let _ ← countFlag (c.flag i) c.gid s
      let begins := x.begins c.t
      let mark := if begins then [begun c.g.team] else []
      let o : Op := { c.op i with vals := [(0, src), (1, scale), (2, ctl)] ++ naming 0 x.first x.count ++ mark }
      let begin_ (s : State) : State := if begins then s.modTeam c.g.team fun t => t.engineReads x.ownReads true else s
      if isSpadPtr src.toNat && !(fmt.hasScale && !isSpadPtr scale.toNat) then do
        let s ← issueOp c o s
        .ok (begin_ s)
      else do
        let (v, s) ← takeOutside c (c.sig i [src.toNat, scale.toNat, ctl.toNat]) (fun s => .ok ([namedOp s.nextId], s)) s
        let now := s.nextId
        let k := ((v.head?).map fun e => e.2.toNat).getD 0
        -- one that a re-execution takes from the log fills the slots in its turn
        let done := (v.drop 1) != []
        if done && earlierNaming s c.g.team now o then .error (.wait s)
        let s ← joinEngine c i o v s
        let s := if done then replayMldb c x v s else s
        let s := if done then s else begin_ s
        .ok (if c.t.side == .escort then
          { s.modOp k fun o => { o with vals := o.vals ++ (303, BitVec.ofNat 64 now) :: mark } with nextId := s.nextId + 1 } else s)
    | _ => illegal

/-- MLDB_COMPLETE. -/
def mldbComplete (k : Nat) (s : State) : Option State := do
  let o ← s.op? k
  let f ← match o.instr with | .mldb _ _ f _ => some f | _ => none
  let w ← s.who? o.group
  let x := o.mldb f
  if !mldbReady s k o w x then none
  let s := w.fill s x.bytes
  match mldbSites s w x with
  | .error _ => none
  | .ok sites =>
    if sitesWait s k o w.t.place sites then none
    let (bs, s) := engineRead (writeBack s w.t.place) w.t.place o.group sites
    if (x.badScale bs).isSome then none
    -- reads of a buffer that was not yet full when it issued begin now
    let s := mldbReads s x true ((mldbTeams s o).filter fun t => !o.begunIn.contains t)
    let s := mldbReads s x false (mldbTeams s o)
    let s := (mldbTeams s o).foldl (fun s t => s.modTeam t (x.fillAll bs)) s
    let s := noteResult s w.g.team k (bs.zipIdx.map fun e => (2 ^ 33 + e.2, e.1.word))
    pure (s.finishOp k o)

/-- MLDB_FAULT: a page that is not present leaves it to resume after RFT; any other fault ends it. -/
def mldbFault (k : Nat) (s : State) : Option State := do
  let o ← s.op? k
  let f ← match o.instr with | .mldb _ _ f _ => some f | _ => none
  let w ← s.who? o.group
  let x := o.mldb f
  if !mldbReady s k o w x then none
  let fail (t : Trap) : State := endEngine ((mldbTeams s o).foldl (fun s t => s.modTeam t x.invalidate) (mldbEnds s o x)) k o t
  match mldbSites s w x with
  | .error (n, p) =>
    let t := engineTrap w n p
    pure (if isPageAbsent s w n p then stallEngine s k o t else fail t)
  | .ok sites =>
    if sitesWait s k o w.t.place sites then none
    let (bs, _) := engineRead (writeBack s w.t.place) w.t.place o.group sites
    let off ← x.badScale bs
    pure (fail { cause := Cause.illegalOperand, addr := reportAddr w.stackBase w.g.stackSlot (ptrAdd x.scale off).toNat })

def execMldbComplete (op : Nat) : State → Host.Outcome State Fault Refusal := event (mldbComplete op)
def execMldbFault (op : Nat) : State → Host.Outcome State Fault Refusal := event (mldbFault op)

/-! ## MMA: operands (R299 to R301) -/

/-- A legal combination of semiring, accumulator and formats. -/
def combination (sem : Semiring) (acc : AccFmt) (a b : Fmt) : Bool :=
  let ca := a.code
  let cb := b.code
  let low (k : Nat) : Bool := (2 ≤ k && k ≤ 8) || (11 ≤ k && k ≤ 14) || 16 ≤ k
  match sem, acc with
  | .plusTimes, .f32 => (ca == 1 && cb == 1) || (low ca && low cb)
  | .plusTimes, .i32 => 10 ≤ ca && ca ≤ 15 && 10 ≤ cb && cb ≤ 15
  | .plusTimes, .f64 => ca == 0 && cb == 0
  | .orAnd, .i32 => ca == 15 && cb == 15
  | .orAnd, _ => false
  | _, .f32 => 1 ≤ ca && ca ≤ 3 && 1 ≤ cb && cb ≤ 3
  | _, .i32 => (ca == 9 || ca == 10) && (cb == 9 || cb == 10)
  | _, .f64 => false

/-- An A descriptor with the fields of its MMA: where each line, element and scale lies. -/
structure AOperand where
  fmt : Fmt
  col : Bool
  rows : Nat
  start : Nat
  stride : Nat
  scale : Nat

def aOperand (f : XForm) (d : Word) : AOperand :=
  ⟨f.afmt, f.col, 32 * (f.chunks.toNat + 1), (d.extractLsb' 0 19).toNat + 16 * f.aoff.toNat, (d.extractLsb' 32 16).toNat,
   16 * (d.extractLsb' 48 16).toNat⟩

def descriptorOk (d : Word) : Bool :=
  d.extractLsb' 19 13 == 0 && d.extractLsb' 0 4 == 0 && d.extractLsb' 32 4 == 0 && d.extractLsb' 32 16 != 0

/-- Bit offset in the share of element (i, k). -/
def AOperand.bit (a : AOperand) (i k : Nat) : Nat :=
  if a.col then 8 * (a.start + k * a.stride) + i * a.fmt.bits else 8 * (a.start + i * a.stride) + k * a.fmt.bits

/-- Offset of the scale entry of element (i, k). -/
def AOperand.scaleAt (a : AOperand) (i k : Nat) : Nat := a.scale + (k / a.fmt.block * 32 + i) * a.fmt.scaleBytes

/-- Bytes of the lines, and of the scales. -/
def AOperand.offsets (a : AOperand) : List Nat :=
  let lines := if a.col then a.rows else 32
  let len := ((if a.col then 32 else a.rows) * a.fmt.bits + 7) / 8
  ((List.range lines).flatMap fun q => (List.range len).map fun b => a.start + q * a.stride + b)
    ++ (if a.fmt.hasScale then (List.range (a.rows / a.fmt.block * 32 * a.fmt.scaleBytes)).map fun b => a.scale + b else [])

/-- The accumulator is a pair of tiles. -/
def isPair (f : XForm) : Bool := f.accf == .f64

/-- Slots that K rows of a format take. -/
def slotsFor (rows : Nat) (f : Fmt) : Nat := (rows + slotRows f - 1) / slotRows f

/-- An MLDB in flight names a slot. -/
def slotLoading (s : State) (team q : Nat) : Bool :=
  s.ops.any fun (e : Nat × Op) => isMldb e.2.instr && (e.2.issuedFor s e.1 team).isSome && e.2.slotsNamed.contains q

def mmaBody (f : XForm) (c0 : Ctx) (s0 : State) : Res State := do
  engineReady c0 s0
  let (c, s) ← arrive c0 true (fullMask c0.g.width) s0
  let t := c.t
  let w := c.who s
  let first := f.slot.toNat
  let rows := 32 * (f.chunks.toNat + 1)
  if slotLoading s c.g.team first then .error (.wait s0)
  let tag := t.slotTag first
  let b := Slot.format tag
  let n := if Slot.valid tag then slotsFor rows b else 1
  let slots := (List.range n).map fun i => (first + i) % 128
  if slots.any (slotLoading s c.g.team) then .error (.wait s0)
  let d ← sVal c f.abase
  match tilePair t f.acc.toNat (isPair f) with
  | none => illegal
  | some mask =>
    guardOp (slotsOwn t first n && slots.zipIdx.all fun (q, i) =>
      let g := t.slotTag q
      Slot.valid g && Slot.format g == b && decide (min (slotRows b) (rows - i * slotRows b) ≤ Slot.rows g))
    match (slots.filter fun q => Slot.poisoned (t.slotTag q)).min? with
    | some q => trap Cause.poisonConsumed (BitVec.ofNat 64 q)
    | none => .ok ()
    guardOp (combination f.sem f.accf f.afmt b && !(f.afmt.isAsym && rows % f.afmt.block != 0) && !(b.isAsym && rows % b.block != 0))
    guardOp (descriptorOk d)
    let a := aOperand f d
    let offs := a.offsets
    let at_ (off : Nat) : Word := BitVec.ofNat 64 (0xF0000000000000 + off)
    match offs.find? fun o => decide (t.spadSize ≤ o) with
    | some o => trap Cause.regionBounds (at_ o)
    | none => .ok ()
    match offs.find? fun o => !bufferAllows t .load o with
    | some o => trap Cause.scratchpadState (at_ o)
    | none => .ok ()
    if overlapping s w.gid (offs.map spadLoc) then .error (.wait s0)
    let got := offs.foldl (fun (m : SMap Byte) o => SMap.put m o (t.spadByte o)) []
    let o : Op := { c.op (.mma f) with vals := (0, d) :: naming mask first n, got }
    issueOp c o s

def execMma (f : XForm) : State → Host.Outcome State Fault Refusal := runInstr (mmaBody f)

/-! ## MMA: values (R302 to R304) -/

/-- A partial result of a cell: `none` is empty. -/
abbrev Cell := Option FVal

def accFmt : AccFmt → Fmt
  | .f32 => .f32
  | .i32 => .i32
  | .f64 => .f64

/-- round_to(acc, v, RNE, 0), back as a value; a NaN is quiet. -/
def roundAcc (f : Fmt) (x : FVal) : Flagged FVal :=
  match x with
  | .nan _ _ _ => .pure (.nan true false 0)
  | _ => let r := roundTo f x .rne false; ⟨decodeFloat f (r.val.getD 0), r.fp⟩

def quietNan : FVal := .nan true false 0

/-- Flag of a signalling NaN. -/
def sigFlag (x : FVal) : BitVec 7 := raiseIf x.isSignalling Fp.invalid

/-- One product, NaN where an operand is NaN or 0 × ∞. -/
def prodOf (x y : FVal) : Flagged FVal :=
  if x.isNan || y.isNan then ⟨quietNan, sigFlag x ||| sigFlag y⟩
  else match mulVal x y with
    | some v => .pure v
    | none => ⟨quietNan, Fp.invalid⟩

def sumOf (x y : FVal) : Flagged FVal :=
  if x.isNan || y.isNan then ⟨quietNan, sigFlag x ||| sigFlag y⟩
  else match addVal .rne x y with
    | some v => .pure v
    | none => ⟨quietNan, Fp.invalid⟩

/-- The per-k path: one rounding at each k. -/
def perKCell (acc : Fmt) (c : Cell) (terms : List (FVal × FVal)) : Flagged Cell :=
  terms.foldl (fun (a : Flagged Cell) t =>
    let p := prodOf t.1 t.2
    let v := sumOf p.val (a.val.getD (.zero true))
    let r := roundAcc acc v.val
    ⟨some r.val, a.fp ||| p.fp ||| v.fp ||| r.fp⟩) (.pure c)

/-- The exact sum of a chunk's products: zeros have no sign. -/
def chunkSum (ps : List FVal) : Flagged FVal :=
  let pos := ps.any fun p => match p with | .inf n => !n | _ => false
  let neg := ps.any fun p => match p with | .inf n => n | _ => false
  if pos && neg then ⟨quietNan, Fp.invalid⟩
  else if ps.any FVal.isNan then .pure quietNan
  else if pos || neg then .pure (.inf neg)
  else .pure (.ofFrac (ps.foldl (fun a p => a.add p.frac) ⟨0, 1⟩))

/-- The least, or the greatest, of some values; NaN where one is NaN. -/
def extreme (big : Bool) (xs : List FVal) : FVal :=
  if xs.any FVal.isNan then quietNan
  else match xs with
    | [] => .zero false
    | y :: ys => ys.foldl (fun a b => if (if big then valLess a b else valLess b a) then b else a) y

/-- A chunk of the F32 semirings. -/
def chunkVal (sem : Semiring) (terms : List (FVal × FVal)) : Flagged FVal :=
  let each := terms.map fun t => match sem with
    | .minPlus | .maxPlus => sumOf t.1 t.2
    | _ => prodOf t.1 t.2
  let fp := orFp (each.map (·.fp))
  let xs := each.map (·.val)
  match sem with
  | .plusTimes => let r := chunkSum xs; ⟨r.val, fp ||| r.fp⟩
  | .minPlus => ⟨extreme false xs, fp⟩
  | _ => ⟨extreme true xs, fp⟩

/-- `combine` of R302 with a floating accumulator. -/
def combineF (sem : Semiring) (acc : Fmt) (c : Cell) (x : FVal) : Flagged Cell :=
  let out (v : Flagged FVal) : Flagged Cell := let r := roundAcc acc v.val; ⟨some r.val, v.fp ||| r.fp⟩
  match c with
  | none => out (.pure x)
  | some c =>
    match sem with
    | .plusTimes =>
      match x with
      | .zero _ => if c.isNan then ⟨some quietNan, sigFlag c⟩ else .pure (some c)
      | _ => out (sumOf c x)
    | .minPlus => out ⟨extreme false [c, x], sigFlag c⟩
    | _ => out ⟨extreme true [c, x], sigFlag c⟩

/-- Break a list into runs of 32. -/
def chunksOf32 {α : Type} : Nat → List α → List (List α)
  | 0, _ => []
  | n + 1, xs => xs.take 32 :: chunksOf32 n (xs.drop 32)

/-- A cell under a floating accumulator. -/
def cellF (f : XForm) (perK : Bool) (c : Cell) (terms : List (FVal × FVal)) : Flagged Cell :=
  let acc := accFmt f.accf
  if perK then perKCell acc c terms
  else (chunksOf32 (terms.length / 32) terms).foldl (fun (a : Flagged Cell) t =>
    let x := chunkVal f.sem t
    let r := combineF f.sem acc a.val x.val
    ⟨r.val, a.fp ||| x.fp ||| r.fp⟩) (.pure c)

/-- A cell under an integer accumulator, exact. -/
def cellI (sem : Semiring) (c : Option Int) (terms : List (Int × Int)) : Option Int :=
  let chunk (t : List (Int × Int)) : Int :=
    match sem with
    | .plusTimes => (t.map fun p => p.1 * p.2).foldl (· + ·) 0
    | .minPlus => (((t.map fun p => p.1 + p.2)).min?).getD 0
    | .maxPlus => (((t.map fun p => p.1 + p.2)).max?).getD 0
    | .maxTimes => (((t.map fun p => p.1 * p.2)).max?).getD 0
    | .orAnd => if t.any fun p => p.1 == 1 && p.2 == 1 then 1 else 0
  (chunksOf32 (terms.length / 32) terms).foldl (fun c t =>
    let x := chunk t
    match c with
    | none => some x
    | some c => some (match sem with
      | .plusTimes => c + x
      | .minPlus => min c x
      | .maxPlus | .maxTimes => max c x
      | .orAnd => if x = 1 then 2 * (c / 2) + 1 else c)) c

/-- The word that write-back stores (R304). -/
def storeI (sat : Bool) (c : Int) : Flagged Nat :=
  if sat ∧ c < -(2 ^ 31 : Int) then ⟨0x80000000, Fp.saturate⟩
  else if sat ∧ (2 ^ 31 : Int) ≤ c then ⟨0x7FFFFFFF, Fp.saturate⟩
  else .pure (wrapInt 32 c)

def storeF (f : Fmt) (c : FVal) : Nat :=
  match c with
  | .nan _ _ _ => nanOf f
  | _ => ((roundTo f c .rne false).val).getD 0

/-! ## MMA: write-back and faults (R308) -/

/-- The bytes an MMA takes for its A operand: those at issue, or those there now, as a free bit says for each element that
changed meanwhile (R300). -/
def aPattern (s : State) (t : Team) (o : Op) (a : AOperand) (i k : Nat) : Nat :=
  let old := bitsAt (fun b => SMap.get 0 o.got b) (a.bit i k) a.fmt.bits
  let new := bitsAt t.spadByte (a.bit i k) a.fmt.bits
  if old ≠ new ∧ Config.freeBit (s.free + 2 * (i * a.rows + k)) then old else new

def aScale (s : State) (t : Team) (o : Op) (a : AOperand) (i k : Nat) : Nat :=
  if a.fmt.hasScale then
    let at_ := 8 * a.scaleAt i k
    let n := 8 * a.fmt.scaleBytes
    let old := bitsAt (fun b => SMap.get 0 o.got b) at_ n
    let new := bitsAt t.spadByte at_ n
    if old ≠ new ∧ Config.freeBit (s.free + 2 * (i * a.rows + k / a.fmt.block * a.fmt.block) + 1) then old else new
  else 0

/-- The fault of one A element: the first poisoned sector, in address order, of its scale and of the element where its scale has
it fetched; or an entry that breaks R58. -/
def aFault (t : Team) (a : AOperand) (pat scale i k : Nat) : Option Trap :=
  let sp (off : Nat) : Word := BitVec.ofNat 64 (0xF0000000000000 + off)
  let poison (offs : List Nat) : Option Trap :=
    match (t.spadTags offs).insertionSort fun x y => x.1 ≤ y.1 with
    | (q, g) :: _ => some { cause := Cause.poisonConsumed, addr := sp (32 * q), info := BitVec.ofNat 23 (4096 + g.toNat) }
    | [] => none
  let sc := a.scaleAt i k
  let scaleOffs := if a.fmt.hasScale then (List.range a.fmt.scaleBytes).map fun b => sc + b else []
  let bit := a.bit i k
  let elemOffs := (List.range ((bit % 8 + a.fmt.bits + 7) / 8)).map fun b => bit / 8 + b
  let unfetched := (a.fmt.isShift && scale == 0x80) || (a.fmt.isInterchange && scale == 0xFF)
  match poison (scaleOffs ++ if unfetched then [] else elemOffs) with
  | some x => some x
  | none => if (decodeScaled a.fmt pat scale).isNone then some { cause := Cause.illegalOperand, addr := sp sc } else none

/-- What an MMA computes with: its A values and B values by row and column, and where its A operand first faults. -/
structure MmaData where
  a : Nat → Nat → Flagged FVal
  b : Nat → Nat → Flagged FVal
  fault : Option (Nat × Trap)

def mmaData (s : State) (t : Team) (o : Op) (f : XForm) : MmaData :=
  let a := aOperand f (o.val 0)
  let first := (o.val 301).toNat
  let bf := Slot.format (t.slotTag first)
  let r := slotRows bf
  let pat := aPattern s t o a
  let scale := aScale s t o a
  let bval (k n : Nat) : Flagged FVal :=
    let q := (first + k / r) % 128
    let j := k / bf.block - k / r * r / bf.block
    (decodeScaled bf (t.slotElem q bf (k % r) n) (if bf.hasScale then t.slotScale q bf j n else 0)).getD (.pure quietNan)
  -- the chunk in which the first fault arises, and there the first poisoned sector in address order (R351)
  let faults (q : Nat) : List Trap := (List.range 32).flatMap fun k => (List.range 32).filterMap fun i =>
    aFault t a (pat i (32 * q + k)) (scale i (32 * q + k)) i (32 * q + k)
  let first_ (xs : List Trap) : Option Trap := (xs.insertionSort fun x y => x.addr.toNat ≤ y.addr.toNat).head?
  let bad := (List.range (a.rows / 32)).findSome? fun q =>
    let xs := faults q
    ((first_ (xs.filter fun x => x.cause == Cause.poisonConsumed)).or (first_ xs)).map fun x => (32 * q, x)
  ⟨fun i k => (decodeScaled a.fmt (pat i k) (scale i k)).getD (.pure quietNan), bval, bad⟩

def intOf (x : FVal) : Int := x.frac.num / x.frac.den

/-- The tile after rows 0 to n − 1 of K, with the flags raised. -/
def mmaTile (t : Team) (f : XForm) (d : MmaData) (bf : Fmt) (n : Nat) : Team × BitVec 7 :=
  let acc := f.acc.toNat
  let perK := f.sem == .plusTimes && ((f.afmt == .f32 && bf == .f32) || f.accf == .f64)
  let ks := List.range n
  let cell (i j : Nat) : Flagged Nat :=
    let old := t.tileVal acc (isPair f) i j
    let xs := ks.map fun k => (d.a i k, d.b k j)
    let fp0 := orFp (xs.flatMap fun x => [x.1.fp, x.2.fp])
    match f.accf with
    | .i32 =>
      let c := if f.accum then some (sext 32 old) else none
      let r := storeI f.sat ((cellI f.sem c (xs.map fun x => (intOf x.1.val, intOf x.2.val))).getD 0)
      ⟨r.val, r.fp⟩
    | _ =>
      let c : Cell := if f.accum then some (decodeFloat (accFmt f.accf) old) else none
      let r := cellF f perK c (xs.map fun x => (x.1.val, x.2.val))
      ⟨storeF (accFmt f.accf) (r.val.getD (.zero false)), fp0 ||| r.fp ||| (match c with | some x => sigFlag x | none => 0)⟩
  let cells := (List.range 32).flatMap fun i => (List.range 64).map fun j => (i, j, cell i j)
  (cells.foldl (fun t (i, j, r) => t.setTileVal acc (isPair f) i j r.val) t, orFp (cells.map fun x => x.2.2.fp))

/-- An MMA may run: nothing earlier names its tile or slots, and no earlier MMA of the core is unfinished. -/
def mmaReady (s : State) (k : Nat) (o : Op) (place : Nat) : Bool :=
  matrixReady s k o && !(s.ops.any fun (e : Nat × Op) => decide (e.1 < k) &&
    (match e.2.instr with | .mma _ => (s.group? e.2.group).bind (placeOfGroup s) == some place | _ => false))

/-- MMA_WRITEBACK: every cell is computed and stored, and the flags are raised. -/
def mmaWriteback (k : Nat) (s : State) : Option State := do
  let o ← s.op? k
  let f ← match o.instr with | .mma f => some f | _ => none
  let w ← s.who? o.group
  if !mmaReady s k o w.t.place then none
  let d := mmaData s w.t o f
  if d.fault.isSome then none
  let rows := 32 * (f.chunks.toNat + 1)
  let (t, fp) := mmaTile w.t f d (Slot.format (w.t.slotTag (o.val 301).toNat)) rows
  let s := ({ s with free := s.free + 64 * rows }.setTeam w.g.team t).raiseFp o.group fp
  pure (s.finishOp k o)

/-- MMA_FAULT: it ends with the chunks before the one at fault; in the first chunk the tile is unchanged. -/
def mmaFault (k : Nat) (s : State) : Option State := do
  let o ← s.op? k
  let f ← match o.instr with | .mma f => some f | _ => none
  let w ← s.who? o.group
  if !mmaReady s k o w.t.place then none
  let d := mmaData s w.t o f
  let (row, x) ← d.fault
  let n := row / 32 * 32
  let (t, fp) := if n = 0 then (w.t, 0) else mmaTile w.t f d (Slot.format (w.t.slotTag (o.val 301).toNat)) n
  let s := ({ s with free := s.free + 64 * (32 * (f.chunks.toNat + 1)) }.setTeam w.g.team t).raiseFp o.group fp
  pure (s.faultOp k o x)

def execMmaWriteback (op : Nat) : State → Host.Outcome State Fault Refusal := event (mmaWriteback op)
def execMmaFault (op : Nat) : State → Host.Outcome State Fault Refusal := event (mmaFault op)

/-! ## MZERO, MRD, MWR, MWAIT (R310 to R313) -/

def execMzero (b : Spec) (fb : Bool) : State → Host.Outcome State Fault Refusal :=
  runInstr fun c s => do
    engineReady c s
    let m ← tileOperand c b false
    let i : Instr := .mzero b fb
    if m = 0 then completeAtOnce c i s else issueOp c { c.op i with vals := naming m 0 0 } s

/-- The position word: row and first column. -/
def position (c : Ctx) (b : Spec) : Res (Nat × Nat) := do
  let v : Nat ← match b with
    | .s n => .ok (c.g.readS n.val).toNat
    | .int n => .ok n.val
    | _ => illegal
  let col := v / 32 % 64
  guardOp (decide (v < 2 ^ 11) && col % c.g.width == 0 && decide (col + c.g.width ≤ 64))
  .ok (v % 32, col)

def execMrd (d a b : Spec) (ty : Ty) (rnd : Rnd) (sat fb : Bool) : State → Host.Outcome State Fault Refusal :=
  runInstr fun c s => do
    engineReady c s
    guardOp (vDst c d ty.is64)
    let n ← tileSpec a
    let (row, col) ← position c b
    match tilePair c.t n (ty == .f64) with
    | none => illegal
    | some m =>
      issueOp c { c.op (.mrd d a b ty rnd sat fb) with
        vals := naming m 0 0 ++ [(0, BitVec.ofNat 64 n), (1, BitVec.ofNat 64 row), (2, BitVec.ofNat 64 col)] } s

def execMwr (a b x : Spec) (ty : Ty) (fb : Bool) : State → Host.Outcome State Fault Refusal :=
  runInstr fun c s => do
    engineReady c s
    guardOp (vDst c x ty.is64)
    let n ← tileSpec a
    let (row, col) ← position c b
    match tilePair c.t n (ty == .f64) with
    | none => illegal
    | some m =>
      let data := (lanes c.g.exec).map fun l => (400 + l, BitVec.ofNat 64 (readData c.g x (if ty == .f64 then 8 else 4) l))
      issueOp c { c.op (.mwr a b x ty fb) with
        vals := naming m 0 0 ++ [(0, BitVec.ofNat 64 n), (1, BitVec.ofNat 64 row), (2, BitVec.ofNat 64 col)] ++ data } s

def execMwait (b : Spec) (fb : Bool) : State → Host.Outcome State Fault Refusal :=
  runInstr fun c s => do
    engineReady c s
    let m ← tileOperand c b true
    let busy := s.ops.any fun (e : Nat × Op) =>
      (e.2.group == c.gid || (match e.2.twin with | some (g, _) => g == c.gid | none => false)) && isMatrix e.2.instr &&
        (e.2.tileMask &&& m != 0 || (m.testBit 16 && isMldb e.2.instr))
    if busy then .error (.wait s) else completeAtOnce c (.mwait b fb) s

/-! ## MST (R314, R315) -/

/-- The access of an MST: one element for each word of the tile, in increasing i, then n. -/
def mstPlan (f : MForm) (record : BitVec 320) (addr : Word) : Plan :=
  let n0 : Int := (addr.toNat % 2 ^ 32 : Nat)
  let p : Int := (addr.toNat / 2 ^ 32 : Nat)
  let start (i n : Nat) : Int := n0 + f.off.toInt + (if f.aux then n * p + i else i * p + n)
  ⟨MForm.form f true, record,
   (List.range 32).flatMap fun i => (List.range 64).map fun n => { lane := i * 64 + n, start := start i n }⟩

/-- MST at issue. -/
def mstBody (f : MForm) (c : Ctx) (s : State) : Res State := do
  engineReady c s
  let i : Instr := .mst f
  let tile ← tileSpec f.data
  let addr ← sVal c f.addr
  let pair := f.size == .b8
  match tilePair c.t tile pair with
  | none => illegal
  | some mask =>
    let record := c.t.fileRec f.recIx.toNat
    recordChecks .store record
    let r := Rec.ofBits f.recIx.toNat record
    guardOp ((if pair then r.reg == .f64 else r.reg == .f32 || r.reg == .i32) && decide ((if f.aux then 32 else 64) ≤ addr.toNat / 2 ^ 32))
    let p := mstPlan f record addr
    guardOp (wholeBlocks p)
    let w := c.who s
    let out := p.elems.findSome? fun e =>
      let b := r.elemBit e.n
      if b < 0 then some e.ptr
      else if 8 * (r.extent : Int) < b + r.stored.bits then some (ptrAdd r.base (max b (8 * (r.extent : Int)) / 8)) else none
    match out with
    | some a => trap Cause.regionBounds (reportAddr w.stackBase c.g.stackSlot a.toNat)
    | none => .ok ()
    let locs ← match checkAccess s w .store false p.pieces with
      | .error (.trap t) => .error (.trap { t with mask := none })
      | x => x
    awaitCopies locs s
    let s ← orderWaits c (MForm.form f true) locs true s
    noOverlap c locs true s
    let named : Op := { c.op i with vals := naming mask 0 0 }
    let glob := (locs.map (·.loc)).filter fun q => !isSpad q
    -- what is compared or logged is the tile after its earlier instructions (R377, R389)
    if (c.t.side != .solo || c.t.sampled) && !glob.isEmpty && earlierNaming s c.g.team s.nextId named then .error (.wait s)
    -- conversions that may trap are made at issue, over the tile's values (R272)
    if r.policy == 1 then
      if earlierNaming s c.g.team s.nextId named then .error (.wait s)
      match storeData w p fun l => c.t.tileVal tile pair (l / 64) (l % 64) with
      | .error t => .error (.trap t)
      | .ok _ => .ok ()
    let bytes := (locs.map fun b => (b.ptr, b.loc)).dedup
    let o : Op := { c.op i with record, locs := glob, vals := naming mask 0 0 ++ [(0, addr), (1, BitVec.ofNat 64 tile)],
                                reqs := [{ lane := 0, kind := .store, bytes }] }
    if glob.isEmpty then issueOp c o s
    else
      let data := (List.range 32).flatMap fun i => (List.range 64).map fun n => c.t.tileVal tile pair i n
      issueHolder c i o (c.sig i (addr.toNat :: data)) s

def execMst (f : MForm) : State → Host.Outcome State Fault Refusal := runInstr (mstBody f)

/-- The bytes an MST has still to write, by generic address, through the located bytes of its issue. -/
def mstWrites (w : Who) (o : Op) (f : MForm) : Except Trap (List (Nat × Site × Carried) × Stored) :=
  let p := mstPlan f o.record (o.val 0)
  let tile := (o.val 1).toNat
  let pair := f.size == .b8
  let look := (o.reqs.head?.map (·.bytes)).getD []
  match storeData w p fun l => w.t.tileVal tile pair (l / 64) (l % 64) with
  | .error t => .error t
  | .ok st =>
    .ok (o.unwritten ((st.puts.flatMap (·.2)).filterMap fun (a, v, m) =>
      (look.find? fun e => e.1 == a).map fun e =>
        (a, (if isSpad e.2 then .spad w.g.team (e.2 - 2 ^ 48) else .mem e.2), ({ val := v, mask := m } : Carried))), st)

/-- MST writes some bytes, for both sides of a convoy where they are of its share; `none` where it has to wait. -/
def mstWrite (s : State) (k : Nat) (o : Op) (w : Who) (ws : List (Nat × Site × Carried)) : Option State :=
  let locs := siteLocs (ws.map fun e => e.2.1)
  if sitesWait s k o w.t.place (ws.map fun e => e.2.1) || !writeBackReady s w.t.place || !copiesDone s locs then none
  else
    let s := engineWrite (writeBack s w.t.place) w.t.place (mirrorShare s w.g.team (ws.map (·.2)))
    some (settleEverywhere s locs)

/-- An MST stops at a line boundary, for a save or with its launch: some of its lines have been written (R359, R365). -/
def stopMst (s : State) (k : Nat) : State :=
  (do let o ← s.op? k
      let f ← match o.instr with | .mst f => some f | _ => none
      let w ← s.who? o.group
      if !matrixReady s k o || o.fault.isSome then none
      let (ws, _) ← (mstWrites w o f).toOption
      let (ls, s) := linesDone s ws
      let (now, rest) := splitLines ls ws
      let s ← mstWrite s k o w now
      pure (noteWritten s k o ls (linesOf now) (linesOf rest))).getD s

/-- What the engines of an operation do when they are stopped: a copy, a tile store and a collective may have written some of
their lines; an MLDB has loaded nothing yet. DESIGN CHOICE, safe (log entry 91). -/
def stopEngine (s : State) (k : Nat) : State :=
  match (s.op? k).map fun (o : Op) => o.instr with
  | some (.bcopy _) => stopCopy s k
  | some (.mst _) => stopMst s k
  | some (.coll _ _) => stopColl s k
  | _ => s

/-! ## BUFST, buffer form (R280) -/

/-- An engine may still read or write bytes of a team's share: a copy into or out of it, an MLDB, an MST or an MMA. -/
def engineOn (s : State) (team place : Nat) (here : Nat → Bool) : Bool :=
  s.ops.any fun (e : Nat × Op) =>
    let own := ((s.group? e.2.group).map (·.team)) == some team
    let spad (p : Nat) : Bool := isSpadPtr p && here (p % 2 ^ 56 - 0xF0000000000000)
    match e.2.instr with
    | .bcopy f => match e.2.copy f with
      | some x => (own && x.pairs.any fun p => spad p.1) || (f.place.toNat == place && x.pairs.any fun p => spad p.2)
      | none => false
    | .mldb _ _ f _ => own && (e.2.mldb f).ownReads.any here
    | .mst _ => own && e.2.reqs.any fun r => r.bytes.any fun b => isSpad b.2 && here (b.2 - 2 ^ 48)
    | .mma f => own && (aOperand f (e.2.val 0)).offsets.any here
    | _ => false

def execBufstBuffer (f : MForm) : State → Host.Outcome State Fault Refusal :=
  runInstr fun c s => do
    let p ← addrS c f.addr
    let n := f.recIx.toNat
    guardOp (n < 16)
    if p.toNat % 16 ≠ 0 then trap Cause.alignment (reportAddr (c.who s).stackBase c.g.stackSlot p.toNat)
    afterAcquire c s
    let old : Nat → Bool := match SMap.entry? c.t.bufs n with
      | some x => let (lo, len) := bufRange x.desc; fun o => decide (lo ≤ o) && decide (o < lo + len)
      | none => fun _ => false
    if engineOn s c.g.team c.t.place old then .error (.wait s)
    else
      let s ← completeAtOnce c (.bufstBuffer f) s
      let (bs, s) ← readStruct c (.bufstBuffer f) .i p 16 s
      let d := BitVec.ofNat 128 (leNat bs)
      guardOp (bufOk c.t n d)
      let st : BufState := match (d.extractLsb' 97 2).toNat with | 0 => .empty | 1 => .filling | 2 => .full | _ => .draining
      .ok (s.modTeam c.g.team fun t =>
        { t with bufs := if d.getLsbD 96 then SMap.put t.bufs n { desc := d, state := st } else SMap.del t.bufs n })

/-! ## Completion (R270, R294) -/

/-- Completion of a counted matrix instruction other than MLDB and MMA. -/
def completeMatrix (k : Nat) (o : Op) (s : State) : Option State := do
  let w ← s.who? o.group
  if !matrixReady s k o then none
  let tile := (o.val 0).toNat
  let row := (o.val 1).toNat
  let col := (o.val 2).toNat
  match o.instr with
  | .mzero _ _ =>
    let s := s.modTeam w.g.team fun t => { t with tiles := t.tiles.filter fun e => !o.tileMask.testBit (e.1 / 2048) }
    pure (s.finishOp k o)
  | .mrd d _ _ ty rnd sat _ =>
    if !destFree s k o then none
    let vals := (lanes o.exec).map fun l =>
      let x := w.t.tileVal tile (ty == .f64) row (col + l)
      match ty with
      | .f16 | .bf16 => (l, let r := roundTo (tyFmt ty) (decodeFloat .f32 x) rnd sat; (⟨r.val.getD 0, r.fp⟩ : Flagged Nat))
      | _ => (l, .pure x)
    let s := s.modGroup o.group fun g => o.inFrame g fun g => vals.foldl (fun g e => writeData g d (if ty == .f64 then 8 else 4) e.1 false e.2.val) g
    pure ((s.raiseFp o.group (orFp (vals.map fun e => e.2.fp))).finishOp k o)
  | .mwr _ _ _ ty _ =>
    let vals := (lanes o.exec).map fun l =>
      let v := (o.val (400 + l)).toNat
      match ty with
      | .f16 | .bf16 => (l, let r := roundTo .f32 (decodeFloat (tyFmt ty) (v % 2 ^ 16)) .rne false; (⟨r.val.getD 0, r.fp⟩ : Flagged Nat))
      | _ => (l, .pure v)
    let s := s.modTeam w.g.team fun t => vals.foldl (fun t e => t.setTileVal tile (ty == .f64) row (col + e.1) e.2.val) t
    pure ((s.raiseFp o.group (orFp (vals.map fun e => e.2.fp))).finishOp k o)
  | .mst f =>
    match mstWrites w o f with
    | .error t => pure (endEngine s k o t)
    | .ok (ws, st) =>
      let s ← mstWrite s k o w ws
      let s := noteShare s w.g.team k (((o.reqs.head?.map fun r => r.bytes.filterMap fun b => if isSpad b.2 then some (b.2 - 2 ^ 48) else none)).getD [])
      let s := noteResult s w.g.team k [(2 ^ 35, st.fp.zeroExtend 64)]
      let s := (settleEverywhere s o.locs).raiseFp o.group st.fp
      let s := match o.twin with
        | some (g, _) => s.raiseFp g st.fp
        | none => s
      let s := if st.subst then s.raiseSubst w.t.launch f.recIx.toNat else s
      pure ((freeLines s k o.locs).finishOp k o)
  | _ => none

end Sys2Proof.Machine
end

