-- ==== Sys2Proof/Machine/System.lean ====
section
/-! DEFINITION. The system instructions: special registers, user traps, returns from the handler, first-touch mapping,
invalidation of translations, and saving a context (R355 to R362, R368). -/
namespace Sys2Proof.Machine

/-! ## Special registers (R355, R356) -/

/-- PLACE: the logical and the physical place. -/
def placeReg (t : Team) : Word := BitVec.ofNat 64 (t.logical % 4096 * 4096 + t.place % 4096)

/-- CONVOY: the counts and the side. -/
def convoyReg (t : Team) (g : Group) : Word :=
  BitVec.ofNat 64 (g.waypoints.toNat + g.mismatches.toNat * 2 ^ 16 + (if t.side == .solo then 0 else 2 ^ 32)
    + if t.side == .escort then 2 ^ 33 else 0)

def sstatReg (t : Team) (l : Launch) (sup : Bool) : Word :=
  BitVec.ofNat 64 ((if sup then 1 else 0) + (if t.side == .solo then 0 else 2) + (if t.side == .escort then 4 else 0) + l.replays % 4 * 16)

/-- The value of a register of the group's own, 0 to 31. -/
def groupSpecial (t : Team) (l : Launch) (g : Group) (n : Nat) : Option Word :=
  match n with
  | 0 => some ((pcReg g.hdr g.idx).zeroExtend 64)
  | 1 => some g.exec
  | 2 => some g.live
  | 3 => some (g.fpstat.zeroExtend 64)
  | 4 => some (g.trapCause.zeroExtend 64)
  | 5 => some (g.trapPc.zeroExtend 64)
  | 6 => some g.trapMask
  | 7 => some g.trapAddr
  | 8 => some (g.trapInfo.zeroExtend 64)
  | 9 => some g.trapExec
  | 10 => some (sstatReg t l g.sup)
  | 11 => some (g.handler.zeroExtend 64)
  | 12 => some (placeReg t)
  | 13 => some (BitVec.ofNat 64 (t.index % 2 ^ 32 + g.slot % 32 * 2 ^ 32 + l.depth % 16 * 2 ^ 40))
  | 14 => some (g.linkFenceLim.zeroExtend 64)
  | 15 => some g.rxhdr
  | 16 => some (g.port 0).bind
  | 17 => some (g.port 1).bind
  | 18 => some (g.port 2).bind
  | 19 => some (g.port 3).bind
  | 20 => some (convoyReg t g)
  | n => if 24 ≤ n ∧ n ≤ 31 then some (SMap.get 0 g.su (n - 24)) else none

/-- A register that a program, or the handler, may read. -/
def specialReadable (sup : Bool) (n : Nat) : Bool := decide (n ≤ 20) || n == 32 || n == 33 || (sup && decide (24 ≤ n) && decide (n ≤ 31))

/-- SREAD (R356). In a convoy CYCLE, PLACE and CONVOY are the lead's (R376). -/
def sreadBody (d : Spec) (n : BitVec 8) (c : Ctx) (s : State) : Res State := do
  let k := n.toNat
  guardOp (isSReg d && specialReadable c.g.sup k)
  let value (s : State) : Word :=
    if k = 32 then s.cycle (reticleOf c.t.place)
    else if k = 33 then (SMap.get 8 s.dev.drovthr (reticleOf c.t.place)).zeroExtend 64
    else (groupSpecial c.t c.l c.g k).getD 0
  let (v, s) ←
    if k = 32 ∨ k = 12 ∨ k = 20 then do
      let (r, s) ← takeOutside c (c.sig (.sread d n) []) (fun s => .ok ([(0, value s)], s)) s
      .ok (((r.head?).map (·.2)).getD 0, s)
    else .ok (value s, s)
  match d with
  | .s r => .ok (s.modGroup c.gid fun g => g.writeS r.val v)
  | _ => illegal

def execSread (d : Spec) (n : BitVec 8) : State → Host.Outcome State Fault Refusal := runInstr (sreadBody d n)

/-- What a write of a register meets: read-only, protected, absent, or the mask of its named bits. -/
inductive SpecialWrite where
  | ignored | protected_ | absent | bits (mask : Word)
  deriving DecidableEq, Repr

def specialWrite (sup : Bool) (n : Nat) : SpecialWrite :=
  let low (k : Nat) : SpecialWrite := .bits (BitVec.ofNat 64 (2 ^ k - 1))
  let own (k : Nat) : SpecialWrite := if sup then low k else .ignored
  match n with
  | 3 => low 7
  | 4 => own 8
  | 5 => own 37
  | 6 | 7 | 9 => own 64
  | 8 => if sup then .bits 0x7F7FFF else .ignored
  | 11 => if sup then low 32 else .protected_
  | 14 => low 32
  | 16 | 17 | 18 | 19 => low 64
  | 33 => if sup then low 4 else .protected_
  | 32 => .ignored
  | n => if n ≤ 20 then .ignored else if sup && decide (24 ≤ n) && decide (n ≤ 31) then low 64 else .absent

/-- Replace a register of the group's own. -/
def setSpecial (g : Group) (n : Nat) (v : Word) : Group :=
  match n with
  | 3 => { g with fpstat := v.setWidth 7 }
  | 4 => { g with trapCause := v.setWidth 8 }
  | 5 => { g with trapPc := v.setWidth 37 }
  | 6 => { g with trapMask := v }
  | 7 => { g with trapAddr := v }
  | 8 => { g with trapInfo := v.setWidth 23 }
  | 9 => { g with trapExec := v }
  | 11 => { g with handler := v.setWidth 32 }
  | 14 => { g with linkFenceLim := v.setWidth 32 }
  | 16 => g.setPort 0 { bind := v }
  | 17 => g.setPort 1 { bind := v }
  | 18 => g.setPort 2 { bind := v }
  | 19 => g.setPort 3 { bind := v }
  | n => if 24 ≤ n then { g with su := SMap.set 0 g.su (n - 24) v } else g

/-- The source of an SWRITE. -/
def swriteValue (c : Ctx) (a : Spec) : Res Word :=
  match a with
  | .s n => .ok (c.g.readS n.val)
  | .int n => .ok (BitVec.ofNat 64 n.val)
  | .neg n => .ok (BitVec.ofInt 64 (-1 - (n.val : Int)))
  | _ => illegal

/-- SWRITE (R356); a binding that R334 does not allow is an illegal operand. -/
def swriteBody (a : Spec) (n : BitVec 8) (c : Ctx) (s : State) : Res State := do
  let v ← swriteValue c a
  let k := n.toNat
  match specialWrite c.g.sup k with
  | .absent => illegal
  | .protected_ => trap Cause.protection
  | .ignored => .ok s
  | .bits m =>
    guardOp (v &&& ~~~m == 0 && !(decide (16 ≤ k) && decide (k ≤ 19) && !Port.legal v))
    .ok (if k = 33 then s.setDev { s.dev with drovthr := SMap.set 8 s.dev.drovthr (reticleOf c.t.place) (v.setWidth 4) }
      else s.modGroup c.gid fun g => setSpecial g k v)

def execSwrite (a : Spec) (n : BitVec 8) : State → Host.Outcome State Fault Refusal := runInstr (swriteBody a n)

/-! ## TRAP and RFT (R357, R358) -/

/-- TRAP: the user trap, with the immediate as its address. -/
def execTrap (imm : BitVec 32) : State → Host.Outcome State Fault Refusal :=
  runInstr fun _ _ => trap Cause.userTrap (imm.zeroExtend 64)

/-- RFT is matched in a convoy (R381). -/
def matchRft (i : Instr) (c : Ctx) (s : State) : Res State :=
  if !c.g.sup then illegal
  else do
    let (_, s) ← performOnce c (c.sig i []) (fun s => .ok ([], s)) s
    .ok s

/-- RETRY and NEXT: the return, after which the group's stopped engines go on. -/
def rftBody (i : Instr) (next : Bool) (c : Ctx) (s : State) : Res State := do
  let s ← matchRft i c s
  let c' : Ctx := match s.group? c.gid with | some g => { c with g } | none => c
  let s ← returnFromTrap next c' s
  .ok (resumeEngines c.gid s)

def execRftRetry : State → Host.Outcome State Fault Refusal := runControl (rftBody .rftRetry false)
def execRftNext : State → Host.Outcome State Fault Refusal := runControl (rftBody .rftNext true)

/-- ABORT ends the launch with the trap registers as they stand. -/
def execRftAbort : State → Host.Outcome State Fault Refusal :=
  runControl fun c s => do
    let s ← matchRft .rftAbort c s
    let s := s.modGroup c.gid fun g => { g with phase := .stopped }
    .ok (s.requestEnd c.lid 0x02 c.g.trapCause (BitVec.ofNat 12 c.t.place) c.g.trapAddr)

/-! ## First-touch mapping (R360, R361) -/

/-- Physical ranges of a 64 KiB page: (start, length). -/
def pageRanges (leaf : Word) : List (Nat × Nat) :=
  (List.range 16).map fun i => (Leaf.phys leaf 0 (4096 * i), 4096)

def inRanges (rs : List (Nat × Nat)) (a : Nat) : Bool := rs.any fun r => decide (r.1 ≤ a) && decide (a < r.1 + r.2)

/-- Write zeros to a whole page, visible at device scope: an unlisted byte of memory is zero. -/
def zeroPage (s : State) (leaf : Word) : State :=
  let rs := pageRanges leaf
  let touched := ((s.mem.filter fun e => inRanges rs e.1).map fun e => lineOf e.1).dedup
  let before := touched.map fun n => (n, Memory.bytes s.mem (128 * n) 128)
  let f := { s.fab with lags := s.fab.lags.filter fun l => !inRanges rs (8 * l.word),
                        poison := s.fab.poison.filter fun (e : Nat × BitVec 12) => !inRanges rs (32 * e.1) }
  let s := (s.setMem (s.mem.filter fun e => !inRanges rs e.1)).setFab f
  before.foldl (fun s (n, old) => judge s n old (Memory.bytes s.mem (128 * n) 128)) s

/-- The pool's header (R360). -/
structure Pool where
  at_ : Nat
  low : Nat
  cap : Nat
  take : Nat
  put : Nat

/-- The pool of a context, where it is valid. -/
def poolOf (s : State) (ctx : BitVec 16) : Option Pool :=
  let a := ctxPool (ctxEntry s ctx)
  let h := BitVec.ofNat 512 (Memory.nat s.mem a 64)
  let cap := (h.extractLsb' 64 32).toNat
  if a = 0 ∨ h.extractLsb' 128 384 ≠ 0 ∨ cap < 1 ∨ 2 ^ 20 < cap then none
  else some ⟨a, (h.extractLsb' 96 32).toNat, cap, (h.extractLsb' 32 32).toNat, (h.extractLsb' 0 32).toNat⟩

/-- `mappg` (R361): the status and the state. Its writes are the device's own: a snapshot's page is copied before them (R374). -/
def mappg (lid : Nat) (ctx : BitVec 16) (va : Nat) (tmpl : Word) (s : State) : Nat × State :=
  let interrupt (s : State) : State := s.setDev (raiseCause s.dev 0)
  match leafSlot s.mem va 3 (ctxRoot (ctxEntry s ctx)) with
  | .error .malformed => (5, s)
  | .error _ => (3, s)
  | .ok slot =>
    let old := BitVec.ofNat 64 (Memory.nat s.mem slot 8)
    if old.getLsbD 0 then (if Leaf.wellFormed old 0 then (1, s) else (5, s))
    else match poolOf s ctx with
      | none => (6, interrupt s)
      | some p =>
        let free := (p.put + 2 ^ 32 - p.take) % 2 ^ 32
        if free = 0 then (2, interrupt s)
        else
          let e := BitVec.ofNat 64 (Memory.nat s.mem (p.at_ + 64 + 8 * (p.take % p.cap)) 8)
          let s := writePhys (copyFor s [p.at_ + 4]) (p.at_ + 4) 4 ((p.take + 1) % 2 ^ 32)
          let s := if free - 1 = p.low then interrupt s else s
          let leaf := tmpl ||| BitVec.ofNat 64 (1 + (e.extractLsb' 0 32).toNat * 2 ^ 8 + (e.extractLsb' 36 1).toNat * 2 ^ 52
            + (e.extractLsb' 32 4).toNat * 2 ^ 53)
          let frame := (e.extractLsb' 0 32).toNat
          if e.extractLsb' 37 27 ≠ 0 ∨ !Leaf.frameOk leaf frame ∨ (pageRanges leaf).any (fun r => isReserved r.1 || isReserved (r.1 + r.2 - 1)) then (4, s)
          else
            let s := zeroPage (copyFor s ((pageRanges leaf).map (·.1))) leaf
            let s := writePhys (copyFor s [slot]) slot 8 leaf.toNat
            (0, { s with firstTouch := (lid, ctx, va / 65536) :: s.firstTouch })

def mappgBody (d a b : Spec) (fb : Bool) (c : Ctx) (s : State) : Res State := do
  if !c.g.sup then trap Cause.protection
  guardOp (isSReg d)
  let va ← addrS c a
  let tmpl ← addrS c b
  guardOp (tmpl &&& ~~~(0xC00FF0000000000E : Word) == 0 && ptrRegion va == 0 && (apertureOf (ptrAddr va)).kind == 2)
  let i : Instr := .mappg d a b fb
  let s ← completeAtOnce c i s
  let (v, s) ← performOnce c (c.sig i [va.toNat, tmpl.toNat]) (fun s =>
    let (r, s) := mappg c.lid c.l.ctx va.toNat tmpl s
    .ok ([(0, BitVec.ofNat 64 r)], s)) s
  match d with
  | .s n => .ok (s.modGroup c.gid fun g => g.writeS n.val (((v.head?).map (·.2)).getD 0))
  | _ => illegal

def execMappg (d a b : Spec) (fb : Bool) : State → Host.Outcome State Fault Refusal := runInstr (mappgBody d a b fb)

/-! ## TLBINV (R362) -/

/-- Invalidate what a predicate names on every reticle; walks read the tables only when they are made. -/
def tlbinvBody (i : Instr) (a : Spec) (p : BitVec 16 → Nat → TlbEntry → Bool) (c : Ctx) (s : State) : Res State := do
  if !c.g.sup then trap Cause.protection
  let va ← addrS c a
  let s ← completeAtOnce c i s
  let (_, s) ← performOnce c (c.sig i [va.toNat]) (fun s =>
    .ok ([], s.setFab (tlbDrop s.fab (p c.l.ctx (ptrAddr va / 65536))))) s
  .ok s

def execTlbinvPage (a : Spec) (fb : Bool) : State → Host.Outcome State Fault Refusal :=
  runInstr (tlbinvBody (.tlbinvPage a fb) a fun ctx page e => e.covers ctx page)

def execTlbinvContext (a : Spec) (fb : Bool) : State → Host.Outcome State Fault Refusal :=
  runInstr (tlbinvBody (.tlbinvContext a fb) a fun ctx _ e => e.ctx == ctx)

/-! ## The group context image (R110 to R113) and CTXSV (R368) -/

/-- Width code of R111. -/
def widthCode (w : Nat) : Nat := match w with | 8 => 0 | 16 => 1 | 32 => 2 | _ => 3

/-- Bytes of an image that holds n ring registers, with the reserve or without (R110). -/
def imageSize (w n : Nat) (sup : Bool) : Nat := 0x5C0 + 4 * w * (16 + (if sup then 32 else 0) + n)

/-- The header of R111. -/
def imageHeader (g : Group) (sup saved : Bool) : BitVec 512 :=
  BitVec.ofNat 512 (0x58434742 + 2 ^ 32 + widthCode g.width * 2 ^ 40 + g.slot * 2 ^ 48 + (if saved then 2 ^ 55 else 0)
    + (if sup then 2 ^ 56 else 0) + g.occ * 2 ^ 64 + imageSize g.width g.occ sup * 2 ^ 96)

/-- The window descriptor of R112: what the porter has not moved is recorded as a save would abort it (R170). -/
def windowDescriptor (s : State) (gid : Nat) (g : Group) : BitVec 512 :=
  let left : Nat := match pendingGranules s gid g with
    | some (refill, off, n) => (if refill then 2 else 1) * 2 ^ 192 + 2 ^ 194 + n % 256 * 2 ^ 200 + off % 2 ^ 32 * 2 ^ 224
    | none => 0
  BitVec.ofNat 512 (g.depth + g.base % g.ring * 2 ^ 16 + (g.ring / 32 - 1) * 2 ^ 26 + g.wbp.toNat * 2 ^ 64 + g.wlim.toNat * 2 ^ 128
    + (if g.porterFault.isSome then 2 ^ 195 else 0) + left + g.tokens.length * 2 ^ 256 + (g.tokens.length + g.spilledTok) * 2 ^ 272)

/-- The image of a group as at its trap: PC is TRAPPC, EXEC is TRAPEXEC, supervisor clear. -/
def contextImage (s : State) (gid : Nat) (t : Team) (l : Launch) (g : Group) : List Byte :=
  let special (k : Nat) : Word := match k with
    | 0 => g.trapPc.zeroExtend 64
    | 1 => g.trapExec
    | 10 => sstatReg t l false
    | k => (groupSpecial t l g k).getD 0
  leBytes 64 (imageHeader g false true).toNat
    ++ (List.range 64).flatMap (fun k => leBytes 8 (SMap.get 0 g.sregs k).toNat)
    ++ (List.range 32).flatMap (fun k => leBytes 8 (special k).toNat)
    ++ leBytes 64 (windowDescriptor s gid g).toNat
    ++ (List.range 16).flatMap (fun k => leBytes 32 (((g.tokens[k]?).map fun x => x.image.toNat).getD 0))
    ++ leBytes 16 ((List.range 12).foldl (fun n i => n + g.flagCount i * 2 ^ (6 * i)) 0)
    ++ List.replicate 48 0
    ++ (List.range 16).flatMap (fun k => (List.range g.width).flatMap fun l => leBytes 4 (SMap.get 0 g.vfix (k * 64 + l)).toNat)
    ++ g.windowBytes g.resLo g.occ

/-- What CTXSV's signature covers of the image: by value, what the two sides of a convoy must agree in (R377, R378); the
place, the side, and how far the porter is are theirs. -/
def imageData (t : Team) (l : Launch) (g : Group) : List Nat :=
  (List.range 64).map (fun k => (SMap.get 0 g.sregs k).toNat)
    ++ ((List.range 32).filter fun k => k != 0 && k != 10 && k != 12 && k != 20).map (fun k => ((groupSpecial t l g k).getD 0).toNat)
    ++ (List.range (16 * 64)).map (fun k => (SMap.get 0 g.vfix k).toNat) ++ [g.depth, g.wbp.toNat, g.wlim.toNat]

def ctxsvBody (a : Spec) (fb : Bool) (c : Ctx) (s : State) : Res State := do
  if !c.g.sup then trap Cause.protection
  let p ← addrS c a
  guardOp (ptrRegion p == 0 && (apertureOf (ptrAddr p)).kind == 2)
  if p.toNat % 64 ≠ 0 then trap Cause.alignment p
  let i : Instr := .ctxsv a fb
  let bs := contextImage s c.gid c.t c.l c.g
  let locs ← checkAccess s (c.who s) .store false [{ lane := 0, ptr := p, len := bs.length }]
  awaitCopies locs s
  awaitMoves c locs true s
  let puts : List Put := bs.zipIdx.map fun (b, k) => ((ptrAdd p (k : Nat)).toNat, b, 0xFF)
  let o : Op := { c.op i with reqs := [storeReq locs 0 puts], locs := locs.map (·.loc) }
  let sig := c.sig i (p.toNat :: imageData c.t c.l c.g)
  if c.t.side == .solo then
    let s ← issueOp c o s
    .ok (assayLog c sig [] s)
  else
    let s ← completeAtOnce c i s
    if anyBlocked s o.locs then .error (.wait s)
    let (_, s) ← performOnce c sig (fun s => do
      let (_, s) ← serveNow o s
      .ok ([], settleEverywhere s o.locs)) s
    .ok s

def execCtxsv (a : Spec) (fb : Bool) : State → Host.Outcome State Fault Refusal := runInstr (ctxsvBody a fb)

/-! ## Completion of counted instructions (R125) -/

/-- INSTRUCTION_COMPLETE: a counted instruction without a completion step of its own writes its results and its counter
is decremented. -/
def instructionComplete (k : Nat) (s : State) : Option State := do
  let o ← s.op? k
  match o.instr with
  | .mzero _ _ | .mrd _ _ _ _ _ _ _ | .mwr _ _ _ _ _ | .mst _ => completeMatrix k o s
  | _ => completeMemory k o s

def execInstructionComplete (op : Nat) : State → Host.Outcome State Fault Refusal := event (instructionComplete op)

end Sys2Proof.Machine
end

