-- ==== Sys2Proof/Machine/Launching.lean ====
section
/-! DEFINITION. Submission queues, launch records, acceptance, child grids and mailboxes (R72 to R79, R85 to R98, R374). -/
namespace Sys2Proof.Machine

/-! ## Launch records (R76, R77, R86) -/

/-- A launch record's bytes as the record. -/
def recordOf (bs : List Byte) : BitVec 1024 := BitVec.ofNat 1024 (leNat bs)

/-- Whether the dependence map keeps to R86. -/
def dependenceOk (d : Nat) : Bool :=
  if fld d 0 58 = 0 then fld d 58 70 == 0
  else fld d 61 3 == 0 && match fld d 58 3 with
    | 0 => fld d 64 64 == 0
    | 1 => fld d 80 48 == 0
    | 2 => fld d 72 8 == 0
    | 3 => fld d 64 64 == 0
    | _ => false

/-- A present pointer with region id 0 and its alignment. -/
def pointerOk (p align : Nat) : Bool := p == 0 || (p / 2 ^ 56 == 0 && p % align == 0)

/-- A record that R77 does not call invalid; `handler` lets the completion record pointer be absent (R94). -/
def launchRecordOk (handler : Bool) (r : BitVec 1024) : Bool :=
  let n := r.toNat
  let w := 8 * 2 ^ fld n 138 2
  let teamLanes := fld n 128 10 + 1
  let dep := fld n 576 128
  fld n 832 192 == 0 && fld n 715 53 == 0 && fld n 213 11 == 0 && fld n 180 12 == 0 && fld n 124 4 == 0
    && decide (3 ≤ fld n 152 5) && decide (fld n 170 10 ≤ 512) && decide (fld n 162 8 ≤ 128) && decide (fld n 157 5 ≤ 16)
    && teamLanes % w == 0 && decide (teamLanes / w ≤ 32)
    && pointerOk (fld n 0 64) 64 && pointerOk (fld n 256 64) 64 && pointerOk (fld n 320 64) 4 && pointerOk (fld n 384 64) 64
    && pointerOk (fld n 448 64) 64 && pointerOk (fld n 512 64) 64 && pointerOk (64 * fld dep 0 58) 64 && pointerOk (fld n 768 64) 1
    && fld n 0 64 != 0 && (handler || fld n 448 64 != 0) && dependenceOk dep && !(bitAt n 704 && bitAt n 705)

/-! ## Acceptance (R78, R85, R374) -/

/-- The region bounds table of a record (R229). -/
def readBounds (s : State) (ctx : BitVec 16) (p : Word) : Option (List (BitVec 128)) :=
  if p = 0 then some [] else (devRead s ctx p 4096).map fun bs => (wordsOf 16 bs).map (BitVec.ofNat 128)

/-- Page ranges that valid, writable entries of a bounds table cover. -/
def writableRanges (l : Launch) (bounds : List (BitVec 128)) : List (Nat × Nat) :=
  (List.range 255).filterMap fun i => do
    let e ← regionEntry { l with bounds } (i + 1)
    let base := (e.extractLsb' 0 56).toNat
    let limit := (e.extractLsb' 64 56).toNat
    if e.getLsbD 122 && base < limit then some (base / 65536, (limit - 1) / 65536) else none

/-- Take a replay-protected launch's snapshot at its acceptance: copy-on-write in the leaf of every present page that a
valid, writable region entry covers. -/
def takeSnapshots (s : State) (lid : Nat) (l : Launch) : State :=
  if !l.prot || l.depth != 0 || l.status.isSome then s
  else match readBounds s l.ctx l.boundsPtr with
    | none => s
    | some b =>
      (writableRanges l b).foldl (fun s (lo, hi) =>
        (leavesIn s.mem lo hi 3 (ctxRoot (ctxEntry s l.ctx)) 0).foldl (fun s x =>
          let pages := (List.range (Leaf.pages x.level)).filterMap fun i =>
            let p := x.page + i
            if lo ≤ p ∧ p ≤ hi ∧ !(s.snaps.any fun y => y.launch == lid && y.page == p) then some p else none
          let s := markLeaf s x.slot x.leaf true (Leaf.snapshot x.leaf && x.level != 0)
          { s with snaps := s.snaps ++ pages.map fun p => { launch := lid, ctx := l.ctx, page := p } }) s) s

/-- Accept a launch: it takes the next identity, its bitmap's header is written, and its snapshot is taken. An invalid
record is accepted and runs nothing. -/
def acceptLaunch (s : State) (l : Launch) : State :=
  let handler := match l.origin with | .mailbox _ _ _ => true | _ => false
  let l := if launchRecordOk handler l.record then l else { l with status := some 0x04 }
  let s' := { s with launches := SMap.put s.launches s.nextId l, nextId := s.nextId + 1 }
  takeSnapshots (writeBitmapStatus l 1 (writeBitmapGrid l s')) s.nextId l

/-! ## Queues (R72 to R75) -/

namespace Queue

/-- log2 of the slot count. -/
def log (q : Queue) : Nat := min 16 (max 4 q.n.toNat)

/-- QBASE keeps the rule of its row. -/
def baseOk (q : Queue) : Bool :=
  let b := q.base.toNat
  let top := b + 128 * 2 ^ q.log - 1
  b % 4096 == 0 && decide (b < 2 ^ 48) && (!q.inDevice || (decide (top < 1536 * gib) && !isReserved b && !isReserved top))

/-- Whether sequence a is s or later (R78). -/
def covers (a s : BitVec 32) : Bool := decide ((a - s).toNat < 2 ^ 31)

/-- Physical address of the slot at QHEAD. -/
def headSlot (q : Queue) : Nat := (if q.inDevice then 0 else 2 ^ 47) + q.base.toNat + 128 * (q.head.toNat % 2 ^ q.log)

/-- The queue may read its next slot (R73, R75, R78). -/
def reads (q : Queue) (d : Device) : Bool :=
  d.stage == 9 && q.enable && !q.stopped && q.head != q.tail && decide ((q.ack - q.cack).toNat < 2 ^ q.log)
    && (q.inDevice || d.hostUp)

end Queue

/-- The queue whose slot is read next: the highest priority, round robin within it. -/
def nextQueue (s : State) : Option Nat :=
  let qs := s.queues.filter fun e => e.2.reads s.dev
  match (qs.map fun e => e.2.prio.toNat).max? with
  | none => none
  | some p =>
    let mine := (qs.filter fun e => e.2.prio.toNat == p).map (·.1)
    let from_ := SMap.get 0 s.dev.rrobin p
    (mine.find? fun q => from_ ≤ q).or mine.head?

/-- The 128 bytes of the slot at QHEAD; none where the ring cannot be read. -/
def readSlot (s : State) (q : Queue) : Option (BitVec 1024) :=
  let locs := (List.range 128).map fun i => q.headSlot + i
  if q.headSlot + 128 ≤ 2 ^ 48 && (locs.all isBacked) && (poisonAt s.fab locs).isEmpty then
    some (recordOf (readNewest s locs)) else none

/-- The launch of a queue's record. -/
def queueLaunch (k : Nat) (q : Queue) (r : BitVec 1024) : Launch :=
  { record := r, origin := .queue, queue := k, seq := r.extractLsb' 224 32, ctx := q.ctx,
    prio := min (r.extractLsb' 149 2).toNat q.prio.toNat, prot := r.getLsbD 704, convoy := r.getLsbD 705 }

/-- QUEUE_SLOT_ACCEPT: the next record is accepted, skipped as a duplicate, or stops its queue. -/
def queueSlotAccept (k : Nat) (s : State) : Option State :=
  if nextQueue s ≠ some k then none
  else
    let q := s.queue k
    let s := s.setDev { s.dev with rrobin := SMap.set 0 s.dev.rrobin q.prio.toNat (k + 1) }
    match readSlot s q with
    | none => some (s.setQueue k { q with stopped := true, cause := 2 })
    | some r =>
      let n : BitVec 32 := r.extractLsb' 224 32
      if n = q.ack + 1 then
        some (acceptLaunch (s.setQueue k { q with ack := n, head := q.head + 1, journal := q.journal ++ [s.nextId] }) (queueLaunch k q r))
      else if Queue.covers q.ack n then some (s.setQueue k { q with head := q.head + 1, dups := q.dups + 1 })
      else some (s.setQueue k { q with stopped := true, cause := 1 })

def execQueueSlotAccept (q : Fin 64) : State → Host.Outcome State Fault Refusal := event (queueSlotAccept q.val)

/-- QTAIL_WRITE: a starting value restarts the sequences of a disabled queue that holds nothing (R74). -/
def qtailWrite (k : Nat) (v : BitVec 32) (s : State) : State :=
  let q := s.queue k
  let q := if !q.enable && q.journal.isEmpty && q.held.isEmpty then { q with ack := v - 1, ret := v - 1, cack := v - 1, head := v } else q
  s.setQueue k { q with tail := v }

def execQtailWrite (q : Fin 64) (v : BitVec 32) : State → Host.Outcome State Fault Refusal := event fun s => some (qtailWrite q.val v s)

/-- Abort head: the oldest accepted launch that has dispatched no team retires aborted. A launch whose status is already fixed,
and one that ran before a rollback, is passed over. DESIGN CHOICE (log entry 70). -/
def abortHead (k : Nat) (s : State) : State :=
  let old := (s.queue k).journal.find? fun i => match s.launch? i with
    | some l => !l.ran && l.status.isNone
    | none => false
  match old with
  | some i => fixStatus s i 0x06
  | none => s

def execAbortHead (q : Fin 64) : State → Host.Outcome State Fault Refusal := event fun s => some (abortHead q.val s)

/-- Write a completion record: bytes 1 to 63, then the status; none where it cannot be written (R382). -/
def writeRecord (s : State) (ctx : BitVec 16) (p : Word) (r : BitVec 512) : Option State := do
  let locs ← devLocs s ctx true p 64
  if (poisonAt s.fab locs).isEmpty then devWrite s ctx p (leBytes 64 r.toNat) else none

/-- Rewrite: every held record is written again, in the order of retirement. -/
def rewriteHeld (k : Nat) (s : State) : State :=
  (s.queue k).held.foldl (fun s e => if e.2.2.1 = 0 then s else (writeRecord s e.2.1 e.2.2.1 e.2.2.2).getD s) s

def execRewrite (q : Fin 64) : State → Host.Outcome State Fault Refusal := event fun s => some (rewriteHeld q.val s)

/-- A write of QCTL: n and the context stay while the queue is enabled; enabling over an invalid base stops it; the two
write-only controls act. -/
def qctlWrite (k : Nat) (v : Word) (s : State) : State :=
  let q := s.queue k
  let q' := if q.enable then q else { q with ctx := v.extractLsb' 48 16, n := v.extractLsb' 23 5 }
  let q' := { q' with enable := v.getLsbD 31, prio := v.extractLsb' 29 2, inDevice := v.getLsbD 28 }
  let q' := if q'.enable && !q.enable && !q'.baseOk then { q' with stopped := true, cause := 3 } else q'
  let s := s.setQueue k q'
  let s := if v.getLsbD 33 then abortHead k s else s
  if v.getLsbD 32 then rewriteHeld k s else s

def execQctlEnable (q : Fin 64) (v : Word) : State → Host.Outcome State Fault Refusal := event fun s => some (qctlWrite q.val v s)

/-- A write of QCACK releases the held records it covers. -/
def qcackWrite (k : Nat) (v : BitVec 32) (s : State) : State :=
  let q := s.queue k
  s.setQueue k { q with cack := v, held := q.held.filter fun e => !Queue.covers v e.1 }

def execQcackWrite (q : Fin 64) (v : BitVec 32) : State → Host.Outcome State Fault Refusal := event fun s => some (qcackWrite q.val v s)

/-- Clearing the stopped bit resumes reading at QHEAD, and the stop cause returns to none. DESIGN CHOICE (log entry 71). -/
def qstatClear (k : Nat) (s : State) : State := s.setQueue k { s.queue k with stopped := false, cause := 0 }

def execQstatClearStopped (q : Fin 64) : State → Host.Outcome State Fault Refusal := event fun s => some (qstatClear q.val s)

/-! ## Child grids (R91 to R93) -/

/-- The root of a launch's tree. -/
def rootOf (s : State) : Nat → Nat → Nat
  | 0, lid => lid
  | n + 1, lid => match (s.launch? lid).map Launch.origin with
    | some (.child p _) => rootOf s n p
    | _ => lid

/-- The root of a launch: at most ten launches up (R93). -/
def State.root (s : State) (lid : Nat) : Nat := rootOf s 10 lid

/-- Unretired children on the device. -/
def childrenAlive (s : State) : Nat := (s.launches.filter fun e => match e.2.origin with | .child _ _ => true | _ => false).length

/-- The most unretired children (R91). -/
def childLimit : Nat := 4096

/-- Enter a child: it takes its root's queue entry and sequence and its parent's attributes. -/
def addChild (c : Ctx) (r : BitVec 1024) (s : State) : Nat × State :=
  let root := s.root c.lid
  let n := ((s.launch? root).map (·.childCount)).getD 0
  let child : Launch := { record := r, origin := .child c.lid n, queue := c.l.queue, seq := c.l.seq, ctx := c.l.ctx, prio := c.l.prio,
                          depth := c.l.depth + 1, prot := c.l.prot, convoy := c.l.convoy }
  let s := s.modLaunch root fun x => { x with childCount := n + 1 }
  let s := s.modLaunch c.lid fun x => { x with children := s.nextId :: x.children }
  (n, acceptLaunch s child)

/-- The record of LAUNCH, read and checked; while it waits for the child limit the group keeps it, so that it is read once. -/
def launchRead (c : Ctx) (i : Instr) (p : Word) (s : State) : Res (BitVec 1024 × State) :=
  match c.g.launchRec with
  | some r => .ok (r, s)
  | none => do
    let (bs, s) ← readStructIf false c i .i p 128 s
    let r := recordOf bs
    guardOp (launchRecordOk false r)
    if c.l.prot ∧ r.extractLsb' 384 64 ≠ (((s.launch? (s.root c.lid)).map (·.boundsPtr)).getD 0) then trap Cause.protection
    .ok (r, s)

/-- The read, the checks and the entry of LAUNCH, once for a convoy. -/
def launchAt (c : Ctx) (i : Instr) (p : Word) (s : State) : Res (List (Nat × Word) × State) := do
  let (r, s) ← launchRead c i p s
  if childLimit ≤ childrenAlive s then .error (.wait (s.modGroup c.gid fun g => { g with launchRec := some r }))
  else
    let (n, s) := addChild c r (s.modGroup c.gid fun g => { g with launchRec := none })
    .ok ([(0, BitVec.ofNat 64 (n % 2 ^ 32 + (c.l.depth + 1) * 2 ^ 32))], s)

def firstVal (v : List (Nat × Word)) : Word := ((v.head?).map (·.2)).getD 0

/-- LAUNCH (R93). -/
def launchBody (d a : Spec) (fb : Bool) (c : Ctx) (s : State) : Res State := do
  engineReady c s
  let i : Instr := .launch d a fb
  guardOp (isSReg d && isSReg a && c.g.slot == 0)
  if c.l.depth = 10 then trap Cause.launchDepth
  let s ← completeAtOnce c i s
  let s ← release c false .device s
  let p ← sVal c a
  if p.toNat % 64 ≠ 0 then trap Cause.alignment (reportAddr (c.who s).stackBase c.g.stackSlot p.toNat)
  let (v, s) ← performOnce c (c.sig i [p.toNat]) (launchAt c i p) s
  match d with
  | .s k => .ok (s.modGroup c.gid fun g => g.writeS k.val (firstVal v))
  | _ => illegal

def execLaunch (d a : Spec) (fb : Bool) : State → Host.Outcome State Fault Refusal := runInstr (launchBody d a fb)

/-! ## Mailboxes (R94 to R97) -/

/-- The bound mailbox of a context at a physical line. -/
def boundBox (s : State) (ctx : BitVec 16) (phys : Nat) : Option (Nat × Mailbox) :=
  s.boxes.find? fun e => e.2.bound && e.2.phys == phys && e.2.ctx == ctx

/-- The mailbox numbers of a context that are free. -/
def freeNumbers (s : State) (ctx : BitVec 16) : List Nat :=
  let used := (s.boxes.filter fun e => e.2.bound && e.2.ctx == ctx).map fun e => e.2.number
  (List.range 4096).filter fun n => !used.contains n

/-- The launch that a handler record gives, at an ordinal. -/
def handlerLaunchOf (k : Nat) (x : Mailbox) : Launch :=
  { record := x.handler, origin := .mailbox k x.launched x.line, near := some x.place, bound := x.home, queue := 0, seq := x.handler.extractLsb' 224 32, ctx := x.ctx, prio := x.prio,
    prot := x.handler.getLsbD 704, convoy := x.handler.getLsbD 705 }

/-- The line of an MBOX: its physical place, after the checks of a load; an aperture or a host-bias page is misuse (with
Jibueg down every device page is of device bias, R256). -/
def boxLine (c : Ctx) (p : Word) (s : State) : Res Nat := do
  let w := c.who s
  let locs ← checkAccess s w .load false [{ lane := 0, ptr := p, len := 128 }]
  if (apertureOf (ptrAddr p)).kind ≠ 2 ∨ (((w.leafOf s .load p.toNat).map (Leaf.biased s.dev)).getD false) then trap Cause.mailboxMisuse
  .ok (((locs.head?).map (·.loc)).getD 0)

def boxAligned (c : Ctx) (p : Word) (n : Nat) (s : State) : Res Unit :=
  if p.toNat % n ≠ 0 then trap Cause.alignment (reportAddr (c.who s).stackBase c.g.stackSlot p.toNat) else .ok ()

/-- The mailbox that BIND enters, its number apart. -/
def newBox (c : Ctx) (line : Word) (place phys : Nat) (r : BitVec 1024) (s : State) : Mailbox :=
  { ctx := c.l.ctx, number := 0, line, phys, handler := r, prio := (r.extractLsb' 149 2).toNat,
    home := (SMap.entry? s.warm (r.extractLsb' 140 8).toNat).bind (·.region), place }

/-- A mailbox may be bound: its line is not, a number is free, and its record is a handler's whose image is warm in a region
that holds the place. -/
def boxFits (x : Mailbox) (s : State) : Bool :=
  let inside := match (warmRegion s x.ctx (handlerLaunchOf 0 x)).bind s.region? with | some r => r.cores.contains x.place | none => false
  !(s.boxes.any fun e => e.2.bound && e.2.phys == x.phys) && !(freeNumbers s x.ctx).isEmpty && launchRecordOk true x.handler && inside

/-- Enter a mailbox under one of the free numbers. -/
def enterBox (c : Ctx) (x : Mailbox) (s : State) : Res (List (Nat × Word) × State) := do
  if !boxFits x s then trap Cause.mailboxMisuse
  if c.l.prot then trap Cause.protection
  let free := freeNumbers s x.ctx
  let n := (free[Config.freeChoice s.free % free.length]?).getD 0
  .ok ([(0, BitVec.ofNat 64 n)],
    { s with free := s.free + 1, boxes := SMap.put s.boxes s.nextId { x with number := n }, nextId := s.nextId + 1 })

/-- What BIND does, once for a convoy. -/
def bindAt (c : Ctx) (i : Instr) (line rec : Word) (place : Nat) (s : State) : Res (List (Nat × Word) × State) := do
  let _ ← checkAccess s (c.who s) .load false [{ lane := 0, ptr := line, len := 128 }]
  let (bs, s) ← readStructIf false c i .i rec 128 s
  let phys ← boxLine c line s
  enterBox c (newBox c line place phys (recordOf bs) s) s

/-- The bound mailbox that UNBIND and COUNT name. -/
def namedBox (c : Ctx) (line : Word) (s : State) : Res (Nat × Mailbox) := do
  let phys ← boxLine c line s
  match boundBox s c.l.ctx phys with
  | none => trap Cause.mailboxMisuse
  | some b => if c.l.prot then trap Cause.protection else .ok b

/-- MBOX takes its line pointer from s2k and writes its result to sd; its effect is made once for a convoy. -/
def mboxBody (i : Instr) (d a : Spec) (perform : Ctx → Word → Word → State → Res (List (Nat × Word) × State)) (c : Ctx) (s : State) :
    Res State := do
  engineReady c s
  match d, a with
  | .s k, .s n =>
    guardOp (n.val % 2 == 0)
    let line := c.g.readS n.val
    let rec_ := c.g.readS (n.val + 1)
    boxAligned c line 128 s
    let (v, s) ← performOnce c (c.sig i [line.toNat, rec_.toNat]) (perform c line rec_) s
    .ok (s.modGroup c.gid fun g => g.writeS k.val (firstVal v))
  | _, _ => illegal

def execMboxBind (d a : Spec) (place : BitVec 12) : State → Host.Outcome State Fault Refusal :=
  runInstr (mboxBody (.mboxBind d a place) d a fun c line rec_ s => do
    boxAligned c rec_ 64 s
    bindAt c (.mboxBind d a place) line rec_ place.toNat s)

def execMboxUnbind (d a : Spec) (place : BitVec 12) : State → Host.Outcome State Fault Refusal :=
  runInstr (mboxBody (.mboxUnbind d a place) d a fun c line _ s => do
    let (k, x) ← namedBox c line s
    let s := if x.launched = x.total then { s with boxes := SMap.del s.boxes k } else { s with boxes := SMap.put s.boxes k { x with bound := false } }
    .ok ([(0, BitVec.ofNat 64 x.total)], s))

def execMboxCount (d a : Spec) (place : BitVec 12) : State → Host.Outcome State Fault Refusal :=
  runInstr (mboxBody (.mboxCount d a place) d a fun c line _ s => do
    let (_, x) ← namedBox c line s
    .ok ([(0, BitVec.ofNat 64 (x.total % 2 ^ 32 + (x.total - x.launched) * 2 ^ 32))], s))

/-- MAILBOX_FIRING: an event at a bound line takes the next ordinal. -/
def mailboxFiring (k : Nat) (s : State) : Option State := do
  let x ← SMap.entry? s.boxes k
  if x.bound && boxHasRoom s k then pure (fireBox s k) else none

def execMailboxFiring (box : Nat) : State → Host.Outcome State Fault Refusal := event (mailboxFiring box)

/-- HANDLER_LAUNCH: the oldest firing that awaits launch launches the handler; an unbound mailbox goes with its last. -/
def handlerLaunch (k : Nat) (s : State) : Option State := do
  let x ← SMap.entry? s.boxes k
  if s.dev.stage != 9 || x.launched == x.total then none
  let x' := { x with launched := x.launched + 1 }
  let boxes := if !x'.bound && x'.launched == x'.total then SMap.del s.boxes k else SMap.put s.boxes k x'
  pure (acceptLaunch { s with boxes } (handlerLaunchOf k x))

def execHandlerLaunch (box : Nat) : State → Host.Outcome State Fault Refusal := event (handlerLaunch box)

end Sys2Proof.Machine
end

