-- ==== Sys2Proof/Machine/Dispatching.lean ====
section
/-! DEFINITION. The dispatch of teams: tables, dependences, cores, convoys and sampling (R43, R83 to R88, R99, R104, R115,
R226, R374, R376, R388). -/
namespace Sys2Proof.Machine

/-! ## What the dispatcher reads for a launch (R35, R43, R229) -/

/-- The record file of each team: slots 1 to 63 of 40 bytes, zero slots left out; slot 0 is ignored and is not read. -/
def readRecords (s : State) (ctx : BitVec 16) (p : Word) : Option (SMap (BitVec 320)) :=
  if p = 0 then some []
  else (devRead s ctx (ptrAdd p 40) 2520).map fun bs =>
    (wordsOf 40 bs).zipIdx.foldl (fun m (v, i) => SMap.set 0 m (i + 1) (BitVec.ofNat 320 v)) []

/-- The dispatch table that a launch record names: `some none` where it names none. -/
def readTable (s : State) (ctx : BitVec 16) (p : Word) (codeSize : Nat) : Option (Option (List Nat)) :=
  if p = 0 then some none
  else do
    let n ← devNat s ctx p 4
    if 65536 < n then none
    let t := wordsOf 4 (← devRead s ctx (ptrAdd p 4) (4 * n))
    if entriesOk codeSize t then some (some t) else none

/-- The launch with its tables read. -/
def readTables (s : State) (l : Launch) (r : Region) : Option Launch := do
  let records ← readRecords s l.ctx l.recordTable
  let bounds ← readBounds s l.ctx l.boundsPtr
  let table ← readTable s l.ctx l.tablePtr (8 * r.code.length)
  pure { l with records, bounds, table, tablesRead := true }

/-! ## Tile dependences (R85 to R88) -/

/-- The coordinates of a team (R99). -/
def coords (x y team : Nat) : Nat × Nat × Nat := (team % x, team / x % y, team / (x * y))

/-- Integers from a to b that lie from 0 below n. -/
def within (n : Nat) (a b : Int) : List Nat := (List.range n).filter fun k => decide (a ≤ (k : Int)) && decide ((k : Int) ≤ b)

/-- The producer teams that a consumer team needs, in a producer grid of X × Y × Z. -/
def producers (l : Launch) (X Y Z team : Nat) : List Nat :=
  let d := l.dependence.toNat
  let (tx, ty, tz) := coords l.gridX l.gridY team
  let at_ (xs ys : List Nat) : List Nat := if tz < Z then ys.flatMap fun y => xs.map fun x => x + X * (y + Y * tz) else []
  match fld d 58 3 with
  | 0 => at_ (within X tx tx) (within Y ty ty)
  | 1 =>
    let kx := fld d 64 8 + 1
    let ky := fld d 72 8 + 1
    at_ (within X (tx * kx : Nat) (tx * kx + kx - 1 : Nat)) (within Y (ty * ky : Nat) (ty * ky + ky - 1 : Nat))
  | 2 =>
    let w : Int := (fld d 64 8 : Nat)
    let cx := sext 8 (fld d 80 8) * tx + sext 16 (fld d 96 16)
    let cy := sext 8 (fld d 88 8) * ty + sext 16 (fld d 112 16)
    at_ (within X (cx - w) (cx + w)) (within Y (cy - w) (cy + w))
  | _ => List.range (X * Y * Z)

/-- What the header of the producer's bitmap says: its status and grid. The read is a device-scope acquire. -/
def producerHeader (s : State) (l : Launch) : Option (Nat × Nat × Nat × Nat) := do
  let h ← devNat s l.ctx (BitVec.ofNat 64 (64 * fld l.dependence.toNat 0 58)) 16
  pure (fld h 0 2, fld h 64 20 + 1, fld h 84 20 + 1, fld h 104 20 + 1)

/-- Whether the bits that a team needs are set. -/
def bitsSet (s : State) (l : Launch) (X Y Z team : Nat) : Bool :=
  (producers l X Y Z team).all fun b =>
    match devNat s l.ctx (BitVec.ofNat 64 (64 * fld l.dependence.toNat 0 58 + 16 + b / 8)) 1 with
    | some v => bitAt v (b % 8)
    | none => false

/-- The lowest team not yet dispatched that may be. -/
def firstTeam (p : Nat → Bool) : Nat → Nat → Option Nat
  | 0, _ => none
  | n + 1, i => if p i then some i else firstTeam p n (i + 1)

/-- What the launch's dependence says: some teams may go, none ever will, or a team. -/
inductive Ready where
  | failed
  | none
  | team (n : Nat)
  deriving DecidableEq, Repr

def readyTeam (s : State) (l : Launch) : Ready :=
  let fresh (k : Nat) : Bool := !l.dispatched.contains k
  let pick (p : Nat → Bool) : Ready := match firstTeam (fun k => fresh k && p k) l.teams 0 with
    | some k => .team k
    | Option.none => .none
  if fld l.dependence.toNat 0 58 = 0 then pick fun _ => true
  else match producerHeader s l with
    | some (3, _, _, _) => .failed
    | some (0, _, _, _) => .none
    | some (_, X, Y, Z) => pick (bitsSet s l X Y Z)
    | Option.none => .none

/-! ## Sampling (R388) -/

/-- Whether the assayer samples a team: a function of the launch's numbers and the team index. -/
def samples (d : Device) (l : Launch) (team : Nat) : Bool :=
  let o := match l.origin with
    | .queue => 0
    | .child _ n => n + 1
    | .mailbox _ n _ => n + 1
  let x := ((2 ^ 32 * l.seq.toNat + team) * 0x9E3779B97F4A7C15 + o * 0xC2B2AE3D27D4EB4F) % 2 ^ 64
  d.assayEnable && x / 2 ^ (64 - d.assayK.toNat) == 0

/-! ## Placing a team (R76, R104, R227, R376) -/

def choose (ps : List Nat) (k : Nat) : Option Nat := if ps.isEmpty then none else ps[k % ps.length]?

/-- A core that teams may be placed on: enabled, and on no lost reticle. -/
def coreUp (d : Device) (p : Nat) : Bool := usable d p && !placeLost d p

/-- Cores of a region on which a team fits now. -/
def fitting (s : State) (ps : List Nat) (n : Need) : List Nat := ps.filter fun p => coreUp s.dev p && (fits s p n).isSome

/-- The cores without a team among some cores; where every one has teams, all of them. R104 places a team on a free core of
its region; that it joins other teams, as R100 allows, only where none is free is DEDUCED (log entry 90). -/
def freeFirst (s : State) (ps : List Nat) : List Nat :=
  let free := ps.filter fun p => (teamsOn s p).isEmpty
  if free.isEmpty then ps else free

/-- The core of a team: a warm handler's team 0 takes the mailbox place when that core is free (R95). -/
def coreFor (s : State) (l : Launch) (r : Region) (team : Nat) : Option Nat :=
  let ps := freeFirst s (fitting s r.cores l.need)
  match if team = 0 ∧ r.warm.isSome then l.near else none with
  | some p => if ps.contains p && (teamsOn s p).isEmpty then some p else choose ps (Config.coreChoice s.tick)
  | none => choose ps (Config.coreChoice s.tick)

/-- Cores that an escort may take: of the region, or free; on another reticle where the record requires it, and there
where one fits. -/
def escortCores (s : State) (l : Launch) (r : Region) (lead : Nat) (ok : Nat → Bool) : List Nat :=
  let ps := ((r.cores ++ freeCores s).dedup).filter fun p => p != lead && coreUp s.dev p && ok p
  let away := ps.filter fun p => reticleOf p != reticleOf lead
  if l.apart || !away.isEmpty then away else ps

/-- A team could be placed on the region were every core empty and free of other regions (R77, R104). -/
def placeable (s : State) (l : Launch) (r : Region) : Bool :=
  r.cores.any fun p => couldHold s p l.need && (!l.convoy || !(escortCores { s with regions := [] } l r p fun q => couldHold s q l.need).isEmpty)

/-- A team on a core with its segments. -/
def newTeam (l : Launch) (r : Region) (team place : Nat) (segs : List Nat) : Team :=
  { launch := 0, index := team, place, logical := ((r.map.find? fun e => e.2 == place).map (·.1)).getD place,
    spadSize := l.spad, nslots := l.slots, ntiles := l.tiles, segs, records := l.records }

/-- Place and load one team, or both sides of a convoy; none where no core or no stack slot is free. -/
def placeTeam (s : State) (lid : Nat) (l : Launch) (r : Region) (team : Nat) : Option State := do
  let p ← coreFor s l r team
  let segs ← fits s p l.need
  let stk := lowestFree (stackUsed s l.ctx) (ctxStackSlots (ctxEntry s l.ctx)) (l.groups * if l.convoy then 2 else 1)
  if stk.length < l.groups * (if l.convoy then 2 else 1) then none
  let t := newTeam l r team p segs
  let sampled := samples s.dev l team
  let id := s.nextId
  let s := if sampled then { s with assay := s.assay ++ [{ team := id, launch := lid, index := team }] } else s
  let s := s.modLaunch lid fun x => { x with dispatched := team :: x.dispatched, ran := true }
  if !l.convoy then pure (loadTeam s lid l r { t with sampled } stk)
  else
    let q ← choose (freeFirst s (escortCores s l r p fun q => (fits s q l.need).isSome)) (Config.coreChoice (s.tick + 1))
    let esegs ← fits s q l.need
    let eid := id + 1 + l.groups
    let s := loadTeam s lid l r { t with sampled, side := .lead, peer := eid } stk
    let s := loadTeam s lid l r { newTeam l r team q esegs with side := .escort, peer := id, logical := t.logical } (stk.drop l.groups)
    let a ← captureTeam s id true
    let b ← captureTeam s eid true
    pure { s with convoys := s.convoys ++ [{ lead := id, escort := eid, way := [a, b] }] }

/-! ## TEAM_DISPATCH -/

/-- Some page that the launch may write is under the snapshot of a launch accepted before it (R374). -/
def snapshotHeld (s : State) (lid : Nat) (l : Launch) : Bool :=
  l.prot && l.depth == 0 && l.dispatched.isEmpty
    && (writableRanges l l.bounds).any fun (lo, hi) => s.snaps.any fun x => decide (x.launch < lid) && x.ctx == l.ctx && decide (lo ≤ x.page) && decide (x.page ≤ hi)

/-- A launch whose tables are read dispatches a ready team. -/
def dispatchReady (s : State) (lid : Nat) (l : Launch) (r : Region) : Option State :=
  if l.dispatched.isEmpty && !placeable s l r then some (fixStatus s lid 0x05)
  else if snapshotHeld s lid l then none
  else match readyTeam s l with
    | .failed => some (s.modLaunch lid fun x => { x with depFailed := true })
    | .none => none
    | .team k => placeTeam s lid l r k

/-- TEAM_DISPATCH: until the first team is dispatched the context's entry is checked; the tables are read before that team, and
a ready team then goes to a core where it fits. -/
def teamDispatch (lid : Nat) (s : State) : Option State := do
  let l ← s.launch? lid
  if !mayDispatch s lid l || (l.tablesRead && l.dispatched.length == l.teams) then none
  if l.dispatched.isEmpty && !ctxValid s (ctxEntry s l.ctx) then pure (fixStatus s lid 0x04)
  else
    let k ← l.region.or (warmRegion s l.ctx l)
    let r ← s.region? k
    if l.tablesRead then
      let l := { l with region := some k }
      dispatchReady (s.setLaunch lid l) lid l r
    else match readTables s l r with
      | none => pure (fixStatus s lid 0x03)
      | some l' =>
        let l' := { l' with region := some k }
        let s := s.setLaunch lid l'
        pure ((dispatchReady s lid l' r).getD s)

def execTeamDispatch (launch : Nat) : State → Host.Outcome State Fault Refusal := event (teamDispatch launch)

end Sys2Proof.Machine
end

