-- ==== Sys2Proof/Machine/Hierarchy.lean ====
section
/-! DEFINITION. Steps of the memory hierarchy and of the links: walks, write-backs, invalidations, installs, migrations,
retention, flits, credits and link states (R234, R242, R246 to R252, R262, R332, R336 to R341, R398). -/
namespace Sys2Proof.Machine

def execTlbWalk (reticle : Fin 48) : State → Host.Outcome State Fault Refusal := event (tlbWalk reticle)

/-! ## L1 lines (R242, R250, R252, R332) -/

/-- A write-back of a line waits: its bank is in retention, or a write that it would come after is not settled. -/
def lineBackWaits (s : State) (core line : Nat) : Bool :=
  bankRetained s.fab (waybill s line).home || weakBlocked s core s.nextId || anyBlocked s ((dirtyBytes s.fab core).map (·.1))

/-- L1_WRITE_BACK: the line's dirty bytes go home; a free bit says whether the line leaves the L1 as well, which ends a
subscription. -/
def l1WriteBack (core line : Nat) (s : State) : Option State := do
  let _ ← l1Find s.fab core line
  if lineBackWaits s core line then none
  let s := writeBackLines s core [line]
  let (evict, s) := s.freeBit
  if evict then
    let s := unsubscribe s core line
    pure (s.setFab (l1Drop s.fab core line))
  else pure s

def execL1WriteBack (core : BitVec 12) (line : Nat) : State → Host.Outcome State Fault Refusal := event (l1WriteBack core.toNat line)

/-- L1_INVALIDATION: an invalidation on its way arrives; the bytes that the core holds dirty stay. -/
def l1Invalidation (core line : Nat) (s : State) : Option State :=
  if s.fab.inval.contains (core, line, none) then
    let f := { s.fab with inval := s.fab.inval.erase (core, line, none) }
    match l1Find f core line with
    | none => some (s.setFab f)
    | some x => some (s.setFab (if x.dirty = 0 then l1Drop f core line else l1Put f { x with valid := x.dirty, owned := false }))
  else none

def execL1Invalidation (core : BitVec 12) (line : Nat) : State → Host.Outcome State Fault Refusal :=
  event (l1Invalidation core.toNat line)

/-- The first line on its way to a subscriber. -/
def sentLine (f : Fabric) (core line : Nat) : Option (List Byte) :=
  (f.inval.find? fun e => e.1 == core && e.2.1 == line && e.2.2.isSome).bind (·.2.2)

/-- SUBSCRIBER_LINE_INSTALL: a line that the home sent arrives, the first sent first, and a core that still subscribes
installs it (R252, R409). The core's site then sees the writes to it. -/
def subscriberLineInstall (core line : Nat) (s : State) : Option State := do
  let bytes ← sentLine s.fab core line
  if lineStuck s (reticleOf core) line then none
  let s := s.setFab { s.fab with inval := s.fab.inval.erase (core, line, some bytes) }
  match l1Find s.fab core line with
  | some x =>
    if x.owned then
      let (_, s) := readOwned s (reticleOf core) line
      pure (s.setFab (l1Install s.fab core line bytes true))
    else pure s
  | none => pure s

def execSubscriberLineInstall (core : BitVec 12) (line : Nat) : State → Host.Outcome State Fault Refusal :=
  event (subscriberLineInstall core.toNat line)

/-! ## Migration of a line (R248) -/

/-- The live banks of a reticle. -/
def reticleBanks (d : Device) (t : Nat) : List Nat := (List.range 64).filterMap fun i => if bankLive d (t * 64 + i) then some (t * 64 + i) else none

/-- The page of the last counted request is of host bias, or being moved. -/
def pageStays (s : State) (e : Counted) : Bool :=
  match walkTables s e.ctx (e.page * 65536) with
  | .found leaf _ => Leaf.biased s.dev leaf || Leaf.migration leaf == 1 || Leaf.migration leaf == 2
  | _ => false

/-- DROVER_MIGRATION: a count has reached the threshold; the anchor moves the line's home, or refuses. While an engine
holds the line, or it is in flight, the drover tries again later; where the anchor has no waybill for it, the request is
refused (R247, R254). -/
def droverMigration (t line : Nat) (s : State) : Option State := do
  let e ← s.fab.drover.find? fun e => e.reticle == t && e.line == line
  let threshold := (SMap.get 8 s.dev.drovthr t).toNat
  if threshold = 0 ∨ e.count < threshold then none
  let w := waybill s line
  if w.held || w.inFlight then none
  let s' := s.setFab { s.fab with drover := s.fab.drover.erase e }
  if w.pin || w.counter == 15 || inFlip s (128 * line) || pageStays s e then pure s'
  else
    let home := if bankLive s.dev e.core then e.core else anchorIn (reticleBanks s.dev t) line
    let (s', ok) := changeWaybill s' line fun w =>
      { w with home, counter := min 15 (w.counter + 1), replicas := w.replicas &&& ~~~(BitVec.ofNat 48 (2 ^ t)) }
    if ok then pure s' else none

def execDroverMigration (reticle : Fin 48) (line : Nat) : State → Host.Outcome State Fault Refusal :=
  event (droverMigration reticle.val line)

/-! ## Retention (R262) -/

def arrayPlace : Array_ → Nat
  | .scratchpad p => p.toNat
  | .bank p _ => p.toNat

/-- RETENTION_ENTRY: an array that nothing uses, while retention is enabled. -/
def retentionEntry (a : Array_) (s : State) : Option State :=
  let idle := match a with
    | .scratchpad p => !(s.teams.any fun e => e.2.place == p.toNat)
    | .bank _ _ => true
  if s.dev.retctl != 0 && idle && !s.fab.retained.contains a then some (s.setFab { s.fab with retained := a :: s.fab.retained }) else none

/-- RETENTION_EXIT: an error that retention corrected, which a free bit tells, is logged. -/
def retentionExit (a : Array_) (s : State) : Option State :=
  if s.fab.retained.contains a then
    let (hit, s) := (s.setFab { s.fab with retained := s.fab.retained.erase a }).freeBit
    let unit : BitVec 8 := match a with | .scratchpad _ => 3 | .bank _ _ => 1
    let record : Report := { cls := 0, unit, cause := 0x02, place := BitVec.ofNat 12 (arrayPlace a), detail := Config.reportDetail s.free,
                             cycle := s.cycle (reticleOf (arrayPlace a)) }
    some (if hit then s.reportCorrected 0 record else s)
  else none

def execRetentionEntry (a : Array_) : State → Host.Outcome State Fault Refusal := event (retentionEntry a)
def execRetentionExit (a : Array_) : State → Host.Outcome State Fault Refusal := event (retentionExit a)

/-! ## Flits, credits and links (R336 to R341, R398) -/

def execFlitDelivery (flit : Nat) : State → Host.Outcome State Fault Refusal := event (flitDelivery flit)
def execCreditGrant (group : Nat) (port : Fin 4) : State → Host.Outcome State Fault Refusal := event (creditGrant group port)

/-- LINK_RETRY: the flits are resent in order and duplicates dropped, so that nothing but the log shows it. -/
def execLinkRetry (link : Fin 12) : State → Host.Outcome State Fault Refusal :=
  event fun s => some (s.reportCorrected link.val { cls := 0, unit := 6, cause := 0x04, place := partPlace (.link link), detail := BitVec.ofNat 64 link.val })

/-- LINK_STATE_CHANGE. -/
def execLinkStateChange (link : Fin 12) (st : LinkState) : State → Host.Outcome State Fault Refusal :=
  event fun s =>
    if s.dev.lost.contains (.link link) then none else some (s.setDev { s.dev with links := SMap.set .down s.dev.links link.val st })

end Sys2Proof.Machine
end

