-- ==== Sys2Proof/Machine/Digest.lean ====
section
/-! DEFINITION. The SM3 digest of a byte string (R391, R394, R401). The manual names SM3 and gives no definition of it: it is
the published one (GB/T 32905): PRESUMED, unsafe (log entry 35). -/
namespace Sys2Proof.Machine

namespace Sm3

abbrev W32 := BitVec 32

/-- The eight words of the chaining value. -/
structure Chain where
  a : W32
  b : W32
  c : W32
  d : W32
  e : W32
  f : W32
  g : W32
  h : W32
  deriving DecidableEq, Repr

def init : Chain :=
  ⟨0x7380166F, 0x4914B2B9, 0x172442D7, 0xDA8A0600, 0xA96F30BC, 0x163138AA, 0xE38DEE4D, 0xB0FB0E4E⟩

def p0 (x : W32) : W32 := x ^^^ x.rotateLeft 9 ^^^ x.rotateLeft 17
def p1 (x : W32) : W32 := x ^^^ x.rotateLeft 15 ^^^ x.rotateLeft 23

def ff (j : Nat) (x y z : W32) : W32 := if j < 16 then x ^^^ y ^^^ z else (x &&& y) ||| (x &&& z) ||| (y &&& z)
def gg (j : Nat) (x y z : W32) : W32 := if j < 16 then x ^^^ y ^^^ z else (x &&& y) ||| (~~~x &&& z)

def constant (j : Nat) : W32 := if j < 16 then 0x79CC4519 else 0x7A879D8A

/-- The message schedule, newest word first: n more words. -/
def expand : Nat → List W32 → List W32
  | 0, ws => ws
  | n + 1, ws =>
    let w (k : Nat) : W32 := (ws[k - 1]?).getD 0
    expand n ((p1 (w 16 ^^^ w 9 ^^^ (w 3).rotateLeft 15) ^^^ (w 13).rotateLeft 7 ^^^ w 6) :: ws)

/-- Round j with words W j and W (j + 4). -/
def round (j : Nat) (w w4 : W32) (s : Chain) : Chain :=
  let a12 := s.a.rotateLeft 12
  let ss1 := (a12 + s.e + (constant j).rotateLeft (j % 32)).rotateLeft 7
  let ss2 := ss1 ^^^ a12
  let tt1 := ff j s.a s.b s.c + s.d + ss2 + (w ^^^ w4)
  let tt2 := gg j s.e s.f s.g + s.h + ss1 + w
  ⟨tt1, s.a, s.b.rotateLeft 9, s.c, p0 tt2, s.e, s.f.rotateLeft 19, s.g⟩

/-- A big-endian word of four bytes. -/
def word (bs : List Byte) : W32 := bs.foldl (fun n b => n * 256 + b.zeroExtend 32) 0

/-- n words of four bytes each. -/
def words : Nat → List Byte → List W32
  | 0, _ => []
  | n + 1, bs => word (bs.take 4) :: words n (bs.drop 4)

def compress (s : Chain) (block : List Byte) : Chain :=
  let ws := (expand 52 (words 16 block).reverse).reverse
  let t := (List.range 64).foldl (fun t j => round j ((ws[j]?).getD 0) ((ws[j + 4]?).getD 0) t) s
  ⟨t.a ^^^ s.a, t.b ^^^ s.b, t.c ^^^ s.c, t.d ^^^ s.d, t.e ^^^ s.e, t.f ^^^ s.f, t.g ^^^ s.g, t.h ^^^ s.h⟩

/-- n big-endian bytes of a number. -/
def beBytes (n v : Nat) : List Byte := (leBytes n v).reverse

/-- The message with its padding. -/
def padded (m : List Byte) : List Byte :=
  m ++ [0x80] ++ List.replicate ((119 - m.length % 64) % 64) 0 ++ beBytes 8 (8 * m.length)

def blocks : Nat → List Byte → Chain → Chain
  | 0, _, s => s
  | n + 1, bs, s => blocks n (bs.drop 64) (compress s (bs.take 64))

end Sm3

/-- The 32 digest bytes of a byte string. -/
def sm3 (m : List Byte) : List Byte :=
  let p := Sm3.padded m
  let s := Sm3.blocks (p.length / 64) p Sm3.init
  [s.a, s.b, s.c, s.d, s.e, s.f, s.g, s.h].flatMap fun w => Sm3.beBytes 4 w.toNat

/-- A digest as it stands in a record: byte i at bits 8i and up (R391). -/
def digest (m : List Byte) : BitVec 256 := BitVec.ofNat 256 (leNat (sm3 m))

end Sys2Proof.Machine
end

