-- ==== Sys2Proof/Machine/Retire.lean ====
section
/-! DEFINITION. Ends and retirement: end requests, the stop of a launch, the completion record, interrupts of queues, and the
release of snapshots (R78, R85, R359, R374, R382 to R387). -/
namespace Sys2Proof.Machine

/-! ## End requests (R359) -/

/-- END_REQUEST_ARRIVAL: a request under way reaches the dispatcher; the first fixes the status and the trap fields. -/
def endRequestArrival (lid : Nat) (s : State) : Option State := do
  let l ← s.launch? lid
  let n := l.requests.length
  let k := if n ≤ 1 then 0 else Config.freeChoice s.free % n
  let (st, cause, place, addr) ← l.requests[k]?
  let l := { l with requests := l.requests.eraseIdx k }
  let l := if l.status.isSome then l else { l with status := some st, endCause := cause, endPlace := place, endAddr := addr }
  pure ({ s with free := if n ≤ 1 then s.free else s.free + 1 }.setLaunch lid l)

def execEndRequestArrival (launch : Nat) : State → Host.Outcome State Fault Refusal := event (endRequestArrival launch)

/-! ## END_LAUNCH (R359) -/

/-- An instruction that an engine or the matrix engine carries out. -/
def isEngineOp : Instr → Bool
  | .bcopy _ | .coll _ _ | .mldb _ _ _ _ | .mma _ | .mzero _ _ | .mrd _ _ _ _ _ _ _ | .mwr _ _ _ _ _ | .mst _ => true
  | _ => false

/-- The groups of a launch. -/
def launchGroups (s : State) (lid : Nat) : List Nat :=
  (s.groups.filter fun e => ((s.team? e.2.team).map fun t => t.launch == lid).getD false).map (·.1)

/-- The engines of some groups stop at a line boundary; what they have written stays (R359, R365). -/
def haltEngines (s : State) (gids : List Nat) : State :=
  (s.ops.filter fun e => gids.contains e.2.group).foldl (fun s e => stopEngine s e.1) s

/-- Operations of some groups go, their engines' at least; the engine-held marks are cleared. -/
def dropEngines (s : State) (gids : List Nat) (all : Bool) : State :=
  s.ops.foldl (fun s e =>
    if gids.contains e.2.group && (all || isEngineOp e.2.instr) then freeLines { s with ops := SMap.del s.ops e.1 } e.1 e.2.locs else s) s

/-- Engines that groups started stop; their engine-held marks are cleared. -/
def stopEngines (s : State) (gids : List Nat) (all : Bool) : State := dropEngines (haltEngines s gids) gids all

/-- A group that stands at a boundary or waits stops there. -/
def Group.halt (g : Group) : Group :=
  match g.phase with
  | .boundary | .waiting | .paused => { g with phase := .stopped }
  | _ => g

/-- Something of an ended launch is still to be stopped. -/
def stillRuns (s : State) (lid : Nat) (l : Launch) : Bool :=
  let gids := launchGroups s lid
  (gids.any fun k => match s.group? k with
    | some g => g.phase == .boundary || g.phase == .waiting || g.phase == .paused
    | none => false)
  || s.ops.any (fun e => gids.contains e.2.group && isEngineOp e.2.instr)
  || s.saved.any (fun e => e.2.team.launch == lid)
  || l.children.any fun k => match s.launch? k with
    | some x => x.status.isNone
    | none => false

/-- The launch keeps whether one of these groups, which go, ran an instruction (R385). -/
def noteIssued (s : State) (lid : Nat) (gs : List (Nat × Group)) : State :=
  s.modLaunch lid fun x => { x with issued := x.issued || anyIssued gs }

/-- The flags of groups that go without their team's retirement fold into the launch (R70). -/
def foldFpstat (s : State) (lid : Nat) (gs : List (Nat × Group)) : State :=
  (noteIssued s lid gs).modLaunch lid fun x => { x with fpstat := x.fpstat ||| orFpstat gs }

/-- Stop a launch whose status is fixed: its groups, its engines and its saved teams; its children end trapped. -/
def haltLaunch (s : State) (lid : Nat) (l : Launch) : State :=
  let gids := launchGroups s lid
  let s := stopEngines s gids false
  let s := gids.foldl (fun s k => s.modGroup k Group.halt) s
  let s := foldFpstat s lid ((s.saved.filter fun e => e.2.team.launch == lid).flatMap fun e => e.2.groups)
  let s := { s with saved := s.saved.filter fun e => e.2.team.launch != lid }
  l.children.foldl (fun s k => fixStatus s k 0x02) s

/-- END_LAUNCH. -/
def endLaunch (lid : Nat) (s : State) : Option State := do
  let l ← s.launch? lid
  if l.status.isNone || !stillRuns s lid l then none
  pure (haltLaunch s lid l)

def execEndLaunch (launch : Nat) : State → Host.Outcome State Fault Refusal := event (endLaunch launch)

/-! ## LAUNCH_RETIRE (R382 to R387) -/

/-- Every team of the launch is gone, and none will come. -/
def teamsGone (s : State) (lid : Nat) (l : Launch) : Bool :=
  !(s.teams.any fun e => e.2.launch == lid) && !(s.saved.any fun e => e.2.team.launch == lid)
    && (l.status.isSome || l.depFailed || l.dispatched.length == l.teams)

/-- The launches that must retire before this one have (R383). -/
def orderRetires (s : State) (lid : Nat) (l : Launch) : Bool :=
  match l.origin with
  | .queue => (s.queue l.queue).journal.head? == some lid
  | .child _ _ => true
  | .mailbox b n _ => !(s.launches.any fun e => match e.2.origin with
      | .mailbox b' n' _ => b' == b && decide (n' < n)
      | _ => false)

/-- The status of R386. -/
def finalStatus (l : Launch) : BitVec 8 := l.status.getD (if l.depFailed then 0x09 else 0x01)

def saturate16 (n : Nat) : Nat := min n 65535

/-- The completion record (R384, R385). A launch of which a group started a clause has run an instruction. DEDUCED (log entry
85). -/
def completionRecord (l : Launch) (rseq : Word) : BitVec 512 :=
  let (origin, child, firing) := match l.origin with
    | .queue => (0, 0, 0)
    | .child _ n => (1, n, 0)
    | .mailbox _ n _ => (2, 0, n)
  let ran :=
    l.fpstat.toNat * 2 ^ 132 + (if l.prot then 2 ^ 139 else 0) + (if l.convoy then 2 ^ 140 else 0) + min l.replays 2 * 2 ^ 141
      + (match l.tag with | some t => 2 ^ 143 + t.toNat * 2 ^ 144 | none => 0)
      + l.endCause.toNat * 2 ^ 156 + l.endPlace.toNat * 2 ^ 164
      + saturate16 l.waypoints * 2 ^ 192 + saturate16 l.mismatches * 2 ^ 208 + saturate16 l.auditMismatches * 2 ^ 224
      + saturate16 l.sampled * 2 ^ 240 + l.endAddr.toNat * 2 ^ 448
  BitVec.ofNat 512 ((finalStatus l).toNat + child % 2 ^ 32 * 2 ^ 64 + l.queue % 64 * 2 ^ 96 + origin * 2 ^ 102 + l.depth % 16 * 2 ^ 128
    + (if l.issued then ran else 0) + firing % 2 ^ 32 * 2 ^ 256 + l.seq.toNat * 2 ^ 288 + rseq.toNat * 2 ^ 320 + l.subst.toNat * 2 ^ 384)

/-- Where the record goes; a handler's records go round 64 places (R94). -/
def recordPlace (l : Launch) : Word :=
  match l.origin with
  | .mailbox _ n _ => if l.completionPtr = 0 then 0 else ptrAdd l.completionPtr (64 * (n % 64) : Nat)
  | _ => l.completionPtr

/-- A completion write to host memory waits for the host port (R415). -/
def awaitsHost (s : State) (ctx : BitVec 16) (p : Word) : Bool :=
  !s.dev.hostUp && p != 0 && ctxValid s (ctxEntry s ctx) && match walkTables s ctx p.toNat with
    | .found leaf level => isHost (Leaf.phys leaf level p.toNat)
    | _ => false

/-- A launch's snapshots end: the bits of their leaves are those of the snapshots that are left, and the frames are freed. -/
def freeSnapshots (s : State) (lid : Nat) : State :=
  let mine := s.snaps.filter fun x => x.launch == lid
  mine.foldl (fun s x => match snapshotLeaf s x with
    | some a => remarkLeaf s x.ctx a
    | none => s) { s with snaps := s.snaps.filter fun x => x.launch != lid }

/-- A queue's side of retirement: the journal, the held record, QRET and the vector. -/
def retireInQueue (s : State) (l : Launch) (r : BitVec 512) : State :=
  let q := s.queue l.queue
  let held := if Queue.covers q.cack l.seq then q.held else q.held ++ [(l.seq, l.ctx, l.completionPtr, r)]
  let s := s.setQueue l.queue { q with journal := q.journal.drop 1, ret := l.seq, held }
  if s.dev.irqen.getLsbD l.queue then s.setDev { s.dev with msix := s.dev.msix ++ [l.queue] } else s

/-- All conditions of R382 and R383 hold. -/
def mayRetire (s : State) (lid : Nat) (l : Launch) : Bool :=
  s.dev.stage == 9 && !l.rollback && teamsGone s lid l && l.children.isEmpty && (l.status.isSome || l.replaying.isEmpty) && l.requests.isEmpty && orderRetires s lid l
    && !awaitsHost s l.ctx (recordPlace l)

/-- LAUNCH_RETIRE. -/
def launchRetire (lid : Nat) (s : State) : Option State := do
  let l ← s.launch? lid
  if !mayRetire s lid l then none
  let rseq := s.dev.devrseq + 1
  let s := s.setDev { s.dev with devrseq := rseq }
  let s := writeBitmapStatus l (if finalStatus l = 0x01 then 2 else 3) s
  let r := completionRecord l rseq
  let p := recordPlace l
  let s := if p = 0 then s
    else match writeRecord s l.ctx p r with
      | some s => s
      | none => s.report { cls := 2, unit := 8, cause := 0x24, detail := BitVec.ofNat 64 (l.seq.toNat * 2 ^ 32 + l.queue % 64) }
  let s := match l.origin with
    | .queue => retireInQueue s l r
    | .child parent _ => s.modLaunch parent fun x => { x with children := x.children.erase lid }
    | .mailbox _ _ _ => s
  let s := freeSnapshots s lid
  -- pages that a child mapped are its root's to take back (R89, R375)
  let mapped := match l.origin with
    | .child _ _ => s.firstTouch.map fun e => if e.1 = lid then (s.root lid, e.2) else e
    | _ => s.firstTouch.filter fun e => e.1 != lid
  pure { s with launches := SMap.del s.launches lid, assay := s.assay.filter (fun (x : AssayStream) => x.launch != lid), firstTouch := mapped }

def execLaunchRetire (launch : Nat) : State → Host.Outcome State Fault Refusal := event (launchRetire launch)

end Sys2Proof.Machine
end

