-- ==== Sys2Proof/Machine/Log.lean ====
section
/-! DEFINITION. The event log, its checkpoints and attestation (R387, R391 to R394, R401). -/
namespace Sys2Proof.Machine

/-! ## Records (R391, R392) -/

/-- Records the ring holds. -/
def logRing : Nat := 2 ^ 20

/-- The record of a report under a sequence number, carrying the hash of the record before it. The tag of an error that
set poison is the low 12 bits of the number; another record carries the tag that its report names. -/
def recordBits (x : Report) (n : Nat) (prev : BitVec 256) : BitVec 512 :=
  let tag : BitVec 12 := if x.cls = 1 ∧ x.cause = 0x10 then BitVec.ofNat 12 n else x.tag
  prev ++ BitVec.ofNat 64 n ++ x.cycle ++ x.detail ++ x.place ++ x.cls ++ x.unit ++ x.cause ++ tag ++ (0 : BitVec 20)

def recordSeq (r : BitVec 512) : Nat := (r.extractLsb' 192 64).toNat

/-- The oldest sequence the log holds. -/
def logOldest (g : Log) : Nat := (g.records.getLast?.map recordSeq).getD g.next

/-- Records that the log holds past the highest one that the host has kept (R387). -/
def heldPast (g : Log) (ack : Nat) : Nat := g.next - max (logOldest g) (ack + 1)

/-- More than 3 × 2^18 of them: vector 65 (R387). -/
def logCrowded (g : Log) (ack : Nat) : Bool := decide (3 * 2 ^ 18 < heldPast g ack)

/-- Write one record: the next number, the chained hash, the oldest record overwritten when the ring is full; vector 65
where R387 says so. -/
def writeLog (s : State) (x : Report) : State :=
  let g := s.log
  let r := recordBits x g.next g.chain
  let log := { g with next := g.next + 1, records := (r :: g.records).take logRing, chain := digest (leBytes 64 r.toNat) }
  let s := { s with log := log }
  if x.cls = 1 || logCrowded log s.dev.logAck.toNat then s.setDev (raiseCause s.dev 1) else s

/-- The log is open (R402), and below the stored reserve limit (R394). -/
def logOpen (s : State) : Bool := decide (7 ≤ s.dev.stage.toNat) && s.dev.failure == 0 && decide (s.log.next < s.log.limit)

/-- EVENT_LOG_RECORD: the oldest report is written. -/
def eventLogRecord (s : State) : Option State :=
  match s.log.reports with
  | [] => none
  | x :: rest => if logOpen s then some (writeLog { s with log := { s.log with reports := rest } } x) else none

def execEventLogRecord : State → Host.Outcome State Fault Refusal := event eventLogRecord

/-- COALESCED_WINDOW_END: windows of a unit and cause whose cycles are over end. -/
def coalescedWindowEnd (unit cause : BitVec 8) (s : State) : Option State :=
  match s.log.windows.filter fun w => w.unit == unit && w.cause == cause && w.over s with
  | [] => none
  | ws => some (ws.foldl State.closeWindow s)

def execCoalescedWindowEnd (unit cause : BitVec 8) : State → Host.Outcome State Fault Refusal := event (coalescedWindowEnd unit cause)

/-! ## Checkpoints (R394) -/

/-- Entries of the checkpoint ring. -/
def ckptRing : Nat := 256

/-- Bytes 0 to 63 of a checkpoint's entry: zero, the counter, the sequence, the record hash. -/
def ckptHead (counter : Word) (n : Nat) (hash : BitVec 256) : BitVec 512 := hash ++ BitVec.ofNat 64 n ++ counter ++ (0 : BitVec 128)

/-- Take a checkpoint of the newest record, where the log has it: it is stored with its reserve limit before its own record is
reported. -/
def takeCheckpoint (s : State) : Option State :=
  let g := s.log
  let n := g.next - 1
  if g.records.head?.map recordSeq ≠ some n ∨ s.dev.stage.toNat < 7 ∨ s.dev.failure ≠ 0 then none
  else
    let counter := g.counter + 1
    let head := ckptHead counter n g.chain
    let e : BitVec 1024 := Config.sm2Sign (leBytes 64 head.toNat) ++ head
    let k := g.ckptCount % ckptRing
    let log := { g with ckpts := SMap.put g.ckpts k e, ckptCount := g.ckptCount + 1, counter, stored := some (n, g.chain), limit := n + 8192 }
    some (State.report { s with log := log } { cls := 5, unit := 12, cause := 0x50, detail := BitVec.ofNat 64 k })

/-- 4,096 records stand past the latest checkpoint's, or 4,096 in all before the first. -/
def ckptDue (s : State) : Bool :=
  decide (((s.log.stored.map fun (x : Nat × BitVec 256) => x.1 + 1).getD 0) + 4096 ≤ s.log.next) && decide (7 ≤ s.dev.stage.toNat) && s.dev.failure == 0

/-- CHECKPOINT. -/
def checkpoint (s : State) : Option State := if ckptDue s then takeCheckpoint s else none

def execCheckpoint : State → Host.Outcome State Fault Refusal := event checkpoint
def execCkptcmdCheckpoint : State → Host.Outcome State Fault Refusal := event takeCheckpoint

/-! ## Attestation (R401) -/

/-- The quote without its signature: the nonce, the three measurements, LOGSEQ, the latest checkpoint's hash, the counter. -/
def quoteHead (s : State) : List Byte :=
  leBytes 32 s.dev.attNonce.toNat ++ leBytes 32 s.dev.firmware.toNat ++ leBytes 32 s.dev.defectHash.toNat ++ leBytes 32 s.dev.config.toNat
    ++ leBytes 8 s.log.next ++ leBytes 32 (((s.log.stored.map fun (x : Nat × BitVec 256) => x.2).getD 0).toNat) ++ leBytes 8 s.log.counter.toNat

/-- The quote is formed and signed. -/
def formQuote (s : State) : State :=
  let h := quoteHead s
  s.setDev { s.dev with quote := BitVec.ofNat 2048 (leNat (h ++ leBytes 64 (Config.sm2Sign h).toNat)), attBusy := false }

/-- ATTCMD_QUOTE: the host's write starts it, and reads of ATTCMD say so until the quote is formed. -/
def attQuote (s : State) : State := if s.dev.attBusy then formQuote s else s.setDev { s.dev with attBusy := true }

def execAttcmdQuote : State → Host.Outcome State Fault Refusal := event fun s => some (attQuote s)

/-- The configuration measurement is extended by a change of a register. -/
def extendConfig (d : Device) (off : Nat) (v : Word) : Device :=
  { d with config := digest (leBytes 32 d.config.toNat ++ Config.changeRecord off v) }

end Sys2Proof.Machine
end

