-- ==== Sys2Proof/Machine/Recovery.lean ====
section
/-! DEFINITION. Pre-emption, restore, poison, snapshots, roll-back, convoys and the assayer's replays (R116, R117, R364 to
R381, R390). -/
namespace Sys2Proof.Machine

/-! ## Suspension (R364) -/

def ctxSuspend (c : BitVec 16) (s : State) : State :=
  s.setDev { s.dev with suspId := c, suspended := if s.dev.suspended.contains c then s.dev.suspended else c :: s.dev.suspended }

def ctxResume (c : BitVec 16) (s : State) : State := s.setDev { s.dev with suspId := c, suspended := s.dev.suspended.erase c }

def execCtxsuspSuspend (ctx : BitVec 16) : State → Host.Outcome State Fault Refusal := event fun s => some (ctxSuspend ctx s)
def execCtxsuspResume (ctx : BitVec 16) : State → Host.Outcome State Fault Refusal := event fun s => some (ctxResume ctx s)

/-- Saves of the last suspend are under way: teams of its context still run. -/
def suspendBusy (s : State) : Bool :=
  s.dev.suspended.contains s.dev.suspId
    && s.teams.any fun e => ((s.launch? e.2.launch).map fun l => l.ctx == s.dev.suspId).getD false

/-! ## Saving a team (R365, R366) -/

/-- What a saved team takes of a core at least: rings of 128 (R116). -/
def SavedTeam.need (x : SavedTeam) : Need :=
  ⟨((x.groups.head?).map fun e => e.2.width).getD 64, x.groups.map fun _ => 128, x.team.spadSize, x.team.nslots, x.team.ntiles⟩

/-- Receive queues that hold flits, or have granted credits, keep a team at its core. -/
def keepsCore (s : State) (x : SavedTeam) : Bool :=
  x.groups.any fun e => !e.2.rx.isEmpty || (List.range 4).any fun q => granted s (e.1 * 4 + q) != 0

/-- Cores that a saved team may go to: its own, or one of its region (R116, R337). -/
def savedCores (s : State) (x : SavedTeam) : List Nat :=
  let region := ((s.launch? x.team.launch).bind fun l => l.region.bind s.region?)
  if keepsCore s x then [x.team.place] else ((region.map Region.cores).getD [] ++ [x.team.place]).dedup

/-- A team that fits none of some cores now would fit one of them, were its teams of lower effective priority saved (R364). -/
def freesFor (s : State) (place : Nat) (prio : BitVec 2) (ps : List Nat) (n : Need) : Bool :=
  let prioOf (x : Nat × Team) : BitVec 2 := ((s.launch? x.2.launch).map Launch.prio).getD 0
  ps.contains place && coreUp s.dev place && !(ps.any fun p => coreUp s.dev p && (fitsWith s p (teamsOn s p) n).isSome)
    && (fitsWith s place ((teamsOn s place).filter fun x => decide (prio ≤ prioOf x)) n).isSome

/-- A launch of higher effective priority needs a core for a team that is ready, for the escort's side of one, or for a saved
team (R364). -/
def wantedByHigher (s : State) (t : Team) (prio : BitVec 2) : Bool :=
  let ready := s.launches.any fun e =>
    let l := e.2
    decide (prio < l.prio) && mayDispatch s e.1 l && l.tablesRead && (match readyTeam s l with | .team _ => true | _ => false)
      && match l.region.bind s.region? with
        | none => false
        | some r =>
          let leads := r.cores.filter fun p => coreUp s.dev p && (fitsWith s p (teamsOn s p) l.need).isSome
          let escorts (p : Nat) : List Nat := escortCores s l r p fun _ => true
          freesFor s t.place l.prio r.cores l.need
            || (l.convoy && !leads.isEmpty && leads.all fun p => freesFor s t.place l.prio (escorts p) l.need)
  let saved := s.saved.any fun e =>
    match s.launch? e.2.team.launch with
    | none => false
    | some l => decide (prio < l.prio) && l.status.isNone && !l.rollback && !s.dev.suspended.contains l.ctx
        && freesFor s t.place l.prio (savedCores s e.2) e.2.need
  ready || saved

/-- The groups of a team stand where a save finds them, its memory instructions have completed, and its core's dirty bytes
can go home. -/
def mayStand (s : State) (tid : Nat) : Bool :=
  (((s.team? tid).map fun t => writeBackReady s t.place).getD false) && (s.teamGroups tid).all fun e => e.2.phase != .issuing && e.2.phase != .stopped
    && (s.groupOps e.1).all fun o => o.2.posted || isEngineOp o.2.instr

/-- Save one team: unpopped vectors are discarded, engines stop at a line boundary and their marks are cleared, the core is freed. -/
def saveTeam (s : State) (tid : Nat) : State :=
  let s := haltEngines s ((s.teamGroups tid).map (·.1))
  match captureTeam s tid false with
  | none => s
  | some x =>
    let quiet (g : Group) : Group := { g with streams := g.streams.map fun (e : Nat × Stream) => (e.1, { e.2 with fetched := [] }), absent := [] }
    let ops := x.ops.filter fun o => isEngineOp o.2.instr
    let x := { x with ops := ops, groups := x.groups.map fun (e : Nat × Group) => (e.1, quiet e.2) }
    let s := ops.foldl (fun s o => freeLines { s with ops := SMap.del s.ops o.1 } o.1 o.2.locs) (writeBack s x.team.place)
    { s with teams := SMap.del s.teams tid, groups := s.groups.filter (fun e => e.2.team != tid), saved := SMap.put s.saved tid x }

/-- PREEMPT_SAVE: a team of a suspended context, or one that a launch of higher priority needs the core of, is saved; the
two sides of a convoy together. -/
def preemptSave (tid : Nat) (s : State) : Option State := do
  let t ← s.team? tid
  let l ← s.launch? t.launch
  let ids := t.both tid
  if l.status.isSome || l.rollback || !(ids.all (mayStand s)) then none
  if (s.convoys.any fun v => (v.lead == tid || v.escort == tid) && v.mismatched) then none
  if !s.dev.suspended.contains l.ctx && !(ids.any fun k => ((s.team? k).map fun t => wantedByHigher s t l.prio).getD false) then none
  pure (ids.foldl saveTeam s)

def execPreemptSave (team : Nat) : State → Host.Outcome State Fault Refusal := event (preemptSave team)

/-! ## Restoring a team (R116, R117, R337, R367) -/

/-- Rings of a restored team: for each group the largest that leaves the groups after it room for a ring of 128.
R116 speaks of one group. DESIGN CHOICE (log entry 96). -/
def ringsFor (n : Nat) : List Nat → List Nat → Option (List (Nat × Nat))
  | _, [] => some []
  | trial, w :: ws => do
    let sizes := ((List.range (w / 32 + 1)).map fun k => w / 32 * 32 - 32 * k).filter (128 ≤ ·)
    let ok (x : Nat) : Bool := match findSeg trial n (rowsOf x) with
      | some c => (findSegs n (takeRows trial c n (rowsOf x)) (ws.map fun _ => 128)).isSome
      | none => false
    let x ← sizes.find? ok
    let c ← findSeg trial n (rowsOf x)
    let rest ← ringsFor n (takeRows trial c n (rowsOf x)) ws
    pure ((c, x) :: rest)

/-- The rings and segments that a saved team takes on a core. -/
def restoreFit (s : State) (x : SavedTeam) (place : Nat) : Option (List (Nat × Nat)) := do
  let _ ← fits s place x.need
  ringsFor (x.need.width / 8) (freeRows s place (teamsOn s place)) (x.groups.map fun e => e.2.ring)

/-- What a restore checks of a group's image (R114): its width and counts, and every token it holds. A group whose older registers
are still to be copied to their backing addresses holds more than its ring (R117). -/
def Group.imageOk (g : Group) (width : Nat) : Bool :=
  g.width == width && (g.copying || decide (g.occ ≤ g.ring)) && decide (128 ≤ g.ring) && decide (g.ring ≤ 1024) && g.ring % 32 == 0
    && decide (g.depth < 2 ^ 16) && decide (g.tokens.length ≤ 16) && decide (g.tokens.length + g.spilledTok < 2 ^ 32)
    && g.flags.all (fun (e : Nat × Nat) => decide (e.1 < 12) && decide (e.2 < 64)) && g.tokens.all fun t => (Token.ofImage t.image).isSome

/-- What a restore checks before it changes any state: the save area's hash and every image (R114, R367). -/
def SavedTeam.sound (x : SavedTeam) (width : Nat) : Bool := !x.damaged && x.groups.all fun e => e.2.imageOk width

/-- A restore that fails its check ends the launch as a double fault, or has it replayed (R114, R363). -/
def failRestore (s : State) (x : SavedTeam) (l : Launch) : State :=
  if l.prot then s.requestRollback x.team.launch
  else s.requestEnd x.team.launch 0x02 Cause.doubleFault (BitVec.ofNat 12 x.team.place) 0

/-- Put a saved team on a core; its engines mark the lines they have yet to write again, for which `none` waits (R365). -/
def putBack (s : State) (x : SavedTeam) (place : Nat) (fit : List (Nat × Nat)) : Option State :=
  -- live groups take the free core-wide slots (R153)
  let live := (x.groups.filter fun e => e.2.phase != .ended).map (·.1)
  let slots := live.zip (lowestFree (coreSlotsUsed s place) 32 live.length)
  let gs := x.groups.zipIdx.map fun (p : (Nat × Group) × Nat) =>
    let e := p.1
    let j := p.2
    let ring := ((fit[j]?).map (·.2)).getD e.2.ring
    let g := { e.2 with coreSlot := ((slots.find? fun y => y.1 == e.1).map (·.2)).getD 0, ring := ring, copying := decide (ring < e.2.ring), wasReady := false, readyAt := s.tick }
    (e.1, g)
  let t := { x.team with place := place, segs := fit.map (·.1) }
  let s := { s with saved := SMap.del s.saved x.id, teams := SMap.put s.teams x.id t,
                    groups := gs.foldl (fun m e => SMap.put m e.1 e.2) s.groups,
                    ops := x.ops.foldl (fun m o => SMap.put m o.1 o.2) s.ops }
  if !writeBackReady s place then none
  else (x.ops.filter fun o => isHolder o.2.instr).foldlM (fun s o => holdLines s o.2.locs) (dropLines s place)

/-- Cores of a saved team that hold its smallest footprint now. -/
def restoreCores (s : State) (x : SavedTeam) (avoid : List Nat) : List Nat :=
  (savedCores s x).filter fun p => !avoid.contains p && coreUp s.dev p && (restoreFit s x p).isSome

/-- TEAM_RESTORE: the save area and every image are checked before any state changes. -/
def teamRestore (tid : Nat) (s : State) : Option State := do
  let x ← SMap.entry? s.saved tid
  let l ← s.launch? x.team.launch
  if s.dev.stage != 9 || l.status.isSome || l.rollback || s.dev.suspended.contains l.ctx || l.requests.any (·.2.1 == Cause.doubleFault) then none
  let both := if x.team.side == .solo then [x] else x :: (SMap.entry? s.saved x.team.peer).toList
  if !(both.all fun y => y.sound l.width) then return failRestore s x l
  let p ← choose (freeFirst s (restoreCores s x [])) (Config.coreChoice s.tick)
  let fit ← restoreFit s x p
  if x.team.side == .solo then putBack s x p fit
  else
    let y ← SMap.entry? s.saved x.team.peer
    let s' ← putBack s x p fit
    let far := (restoreCores s' y [p]).filter fun q => !l.apart || reticleOf q != reticleOf p
    let q ← choose (freeFirst s' far) (Config.coreChoice (s.tick + 1))
    let fit' ← restoreFit s' y q
    putBack s' y q fit'

def execTeamRestore (team : Nat) : State → Host.Outcome State Fault Refusal := event (teamRestore team)

/-! ## Uncorrectable errors (R369, R371) -/

/-- An error in reserved HBM may lie in a team's save area, whose hash then fails at its restore (R366, R367). -/
def damageSave (s : State) : State :=
  let n := Config.freeChoice s.free % (s.saved.length + 1)
  { s with free := s.free + 1, saved := s.saved.zipIdx.map fun e => if e.2 = n then (e.1.1, { e.1.2 with damaged := true }) else e.1 }

/-- UNCORRECTABLE_ERROR: a sector, a scratchpad sector or a slot is poisoned; state without poison bits is a state error;
what is fetched again is only logged, as a single-bit error of an SRAM or a corrected one of a stack (R371, R392); a wrong value
that no code catches is logged nowhere. The class and the cause of that record are the model's. DESIGN CHOICE (log
entry 86). -/
def uncorrectableError (x : ErrSite) (s : State) : Option State :=
  let tag := nextTag s
  match x with
  | .sector a =>
    if isBacked a then
      let s := if isReserved a then damageSave s else s
      some ((s.setFab (addPoison s.fab (a / 32) tag)).report
        { cls := 1, unit := 5, cause := 0x10, place := partPlace (.stack (Fin.ofNat 16 (a / (96 * gib)))), detail := BitVec.ofNat 64 (a / 32 * 32) })
    else none
  | .scratchpad tid off => do
    let t ← s.team? tid
    if t.spadSize ≤ off then none
    pure ((s.modTeam tid fun t => t.addSpadPoison (off / 32) tag).report
      { cls := 1, unit := 3, cause := 0x10, place := BitVec.ofNat 12 t.place, cycle := s.cycle (reticleOf t.place), detail := BitVec.ofNat 64 (off / 32 * 32) })
  | .slot tid n => do
    let t ← s.team? tid
    if t.nslots ≤ n then none
    pure ((s.modTeam tid fun t => t.setSlotTag n (t.slotTag n ||| BitVec.ofNat 32 (2 ^ 22))).report
      { cls := 1, unit := 2, cause := 0x10, place := BitVec.ofNat 12 t.place, cycle := s.cycle (reticleOf t.place), detail := BitVec.ofNat 64 n })
  | .state lid => do
    let l ← s.launch? lid
    if l.status.isSome then none
    let at_ := ((s.teams.find? fun e => e.2.launch == lid).map fun e => e.2.place).getD 0
    let s := s.report { cls := 1, unit := 0, cause := 0x12, place := BitVec.ofNat 12 at_, cycle := s.cycle (reticleOf at_), detail := BitVec.ofNat 64 (l.seq.toNat * 2 ^ 32 + l.queue) }
    pure (if l.prot then s.requestRollback lid else fixStatus s lid 0x0A)
  | .refetched unit place =>
    if 5 < unit.toNat ∨ (unit = 5 ∧ !((List.range 16).any fun n => place == partPlace (.stack (Fin.ofNat 16 n)))) then none
    else
      let s := { s with free := s.free + 1 }
      some (s.reportCorrected 0 { cls := 0, unit, cause := if unit = 5 then 0x03 else 0x01, place, detail := Config.reportDetail (s.free - 1),
                                  cycle := s.cycle (reticleOf place.toNat) })
  | .silent gid reg lane mask => do
    let g ← s.group? gid
    if !vOk g false reg.val ∨ g.width ≤ lane.val then none
    pure (s.setGroup gid (g.writeV reg.val lane.val (g.readV reg.val lane.val ^^^ mask)))

def execUncorrectableError (site : ErrSite) : State → Host.Outcome State Fault Refusal := event (uncorrectableError site)

/-! ## Snapshots (R374) -/

/-- SNAPSHOT_COPY: a page that a write waits for is copied; with no frame left its launch is rolled back without replay. -/
def snapshotCopy (page : Nat) (s : State) : Option State := do
  let x ← s.snaps.find? fun x => x.page == page && x.wanted && !x.copied
  pure (copySnapshot x s)

def execSnapshotCopy (page : Nat) : State → Host.Outcome State Fault Refusal := event (snapshotCopy page)

/-! ## Roll-back (R375) -/

/-- A launch and its unretired descendants. -/
def treeOf (s : State) : Nat → Nat → List Nat
  | 0, lid => [lid]
  | n + 1, lid => lid :: (((s.launch? lid).map fun l => l.children).getD []).flatMap (treeOf s n)

def State.tree (s : State) (lid : Nat) : List Nat := treeOf s 10 lid

/-- Replace a page's bytes and poison, drop every line and look-aside entry of it. -/
def putPage (s : State) (ctx : BitVec 16) (page : Nat) (parts : List (Nat × Nat)) (bytes : List (Nat × Byte)) (tags : List (Nat × BitVec 12)) : State :=
  let inside (a : Nat) : Bool := inRanges parts a
  let at_ (o : Nat) : Nat := ((parts[o / 4096]?).map (·.1)).getD 0 + o % 4096
  let mem := bytes.foldl (fun m (o, v) => Memory.set m (at_ o) v) (s.mem.filter fun e => !inside e.1)
  let poison := tags.foldl (fun m (o, t) => SMap.put m (at_ (32 * o) / 32) t) (s.fab.poison.filter fun (e : Nat × BitVec 12) => !inside (32 * e.1))
  let f := { s.fab with lags := s.fab.lags.filter fun (l : Lag) => !inside (8 * l.word), poison := poison,
                        l1 := s.fab.l1.filter fun (x : L1Line) => !inside (128 * x.line),
                        inval := s.fab.inval.filter fun e => !inside (128 * e.2.1) }
  (s.setMem mem).setFab (tlbDrop f fun e => e.covers ctx page)

/-- Remove every trace of a launch's run: teams, groups, operations, saved teams, flits and assayer streams. -/
def discardRun (s : State) (lid : Nat) : State :=
  let gids := launchGroups s lid
  let s := noteIssued s lid ((s.groups.filter fun e => gids.contains e.1) ++ (s.saved.filter fun e => e.2.team.launch == lid).flatMap fun e => e.2.groups)
  let s := stopEngines s gids true
  let ids := (s.teams.filter fun e => e.2.launch == lid).map (·.1)
  { s with teams := s.teams.filter (fun e => e.2.launch != lid), groups := s.groups.filter (fun e => !gids.contains e.1),
           saved := s.saved.filter (fun e => e.2.team.launch != lid), flits := s.flits.filter (fun e => !gids.contains e.2.1),
           assay := s.assay.filter (fun (x : AssayStream) => x.launch != lid),
           convoys := s.convoys.filter (fun (v : Convoy) => !ids.contains v.lead) }

/-- ROLLBACK: the root of a flagged launch and its descendants stop, their pages are restored, and the root runs again
from its journal entry, twice at most. -/
def rollback (lid : Nat) (s : State) : Option State := do
  let root := s.root lid
  let l ← s.launch? root
  let tree := s.tree root
  if !(tree.any fun k => ((s.launch? k).map (·.rollback)).getD false) then none
  if l.status.isSome ∧ l.status ≠ some 0x0B then
    pure (tree.foldl (fun s k => s.modLaunch k fun x => { x with rollback := false }) s)
  else
    let s := tree.foldl discardRun s
    let s := (s.snaps.filter fun x => x.launch == root && x.copied).foldl (fun s x =>
      match snapshotLeaf s x with
      | some a => putPage s x.ctx x.page (pageParts a.leaf a.level x.page) x.bytes x.tags
      | none => s) s
    let mapped := s.firstTouch.filter fun e => tree.contains e.1
    let s := mapped.foldl (fun s e =>
      match walkTables s e.2.1 (e.2.2 * 65536) with
      | .found leaf level => putPage s e.2.1 e.2.2 (pageParts leaf level e.2.2) [] []
      | _ => s) s
    let s := { s with launches := s.launches.filter fun e => e.1 == root || !tree.contains e.1 }
    let s := s.report { cls := 2, unit := 8, cause := 0x20, detail := BitVec.ofNat 64 (l.seq.toNat * 2 ^ 32 + l.queue) }
    let again := l.status.isNone && decide (l.replays < 2)
    let fresh : Launch :=
      { l with tablesRead := false, dispatched := [], retired := [], children := [], childCount := 0, requests := [], fpstat := 0, subst := 0,
               sampled := 0, auditMismatches := 0, replaying := [], differed := [], rollback := false,
               replays := if again then l.replays + 1 else l.replays,
               status := if again then none else l.status.or (some 0x0C) }
    pure (s.setLaunch root fresh)

def execRollback (launch : Nat) : State → Host.Outcome State Fault Refusal := event (rollback launch)

/-! ## Convoys (R376 to R380) -/

/-- CONVOY_MATCH: the two sides' offers at one slot are compared; a side that has ended offers nothing any more. -/
def convoyMatch (gid : Nat) (s : State) : Option State := do
  let g ← s.group? gid
  let t ← s.team? g.team
  if t.side != .lead || g.matched then none
  let e ← s.groups.find? fun e => e.2.team == t.peer && e.2.slot == g.slot
  match g.offer, e.2.offer with
  | some a, some b => pure (if a = b then s.setGroup gid { g with matched := true } else s.mismatchTeam g.team)
  | some _, none => if e.2.phase == .ended then pure (s.mismatchTeam g.team) else none
  | none, some _ => if g.phase == .ended then pure (s.mismatchTeam g.team) else none
  | none, none => none

def execConvoyMatch (group : Nat) : State → Host.Outcome State Fault Refusal := event (convoyMatch group)

/-- The groups of both sides return to the waypoint; the queues of the message network stay as they are. Engines in flight stop,
and a re-execution performs their commands again; writes that are posted go on. DEDUCED (log entry 92). -/
def returnToWaypoint (s : State) (v : Convoy) : State :=
  let now := s.groups
  let mine := (s.teamGroups v.lead ++ s.teamGroups v.escort).map (·.1)
  let engines := (s.ops.filter fun o => mine.contains o.2.group && isEngineOp o.2.instr).map (·.1)
  let s := dropEngines s mine false
  let undo (e : Nat × LoadValue) : Nat × LoadValue := if engines.any (names e.2) then (e.1, { e.2 with undone := true }) else e
  let s := s.modConvoy v.lead fun x => { x with commits := x.commits.map undo }
  let posted := s.ops.filter fun o => mine.contains o.2.group && o.2.posted
  let s := v.way.foldl putTeam s
  let back (k : Nat) (g : Group) : Group :=
    match SMap.entry? now k with
    | some old => { g with rx := old.rx, tx := old.tx, lvq := [], popFp := 0, popSubst := 0, launchRec := none, wasReady := false, offer := none, matched := false, convResult := none, convTrap := none, kept := [],
                           mismatches := old.mismatches + 1, waypoints := old.waypoints, readyAt := s.tick }
    | none => g
  { s with groups := s.groups.map fun (e : Nat × Group) => if e.2.team == v.lead || e.2.team == v.escort then (e.1, back e.1 e.2) else e,
           ops := posted.foldl (fun m o => SMap.put m o.1 o.2) s.ops }

/-- Logged operations of each group slot. -/
def loggedCounts (v : Convoy) : SMap Nat := v.commits.foldl (fun m e => SMap.set 0 m e.1 (SMap.get 0 m e.1 + 1)) []

/-- CONVOY_MISMATCH: both sides return to their last waypoint; a second mismatch before the next one ends the launch. -/
def convoyMismatch (tid : Nat) (s : State) : Option State := do
  let v ← s.convoys.find? fun v => (v.lead == tid || v.escort == tid) && v.mismatched
  let a ← s.team? v.lead
  let b ← s.team? v.escort
  let l ← s.launch? a.launch
  let s := s.report { cls := 2, unit := 11, cause := 0x21, place := BitVec.ofNat 12 b.place, cycle := s.cycle (reticleOf b.place),
                      detail := BitVec.ofNat 64 (a.index % 2 ^ 32 * 2 ^ 32 + b.place * 2 ^ 12 + a.place) }
  let s := s.modLaunch a.launch fun x => { x with mismatches := min 65535 (x.mismatches + 1) }
  let set (x : Convoy) (s : State) : State := s.modConvoy v.lead fun _ => x
  if v.warned || l.status.isSome then
    let s := s.modLaunch a.launch fun x =>
      if x.status.isSome then x
      else { x with status := some 0x0D, endCause := Cause.convoyMismatch, endPlace := BitVec.ofNat 12 b.place, endAddr := 0 }
    let stop (g : Group) : Group :=
      { g with mismatches := g.mismatches + 1, phase := if g.phase == .ended then .ended else .stopped }
    let groups := s.groups.map fun (e : Nat × Group) => if e.2.team == v.lead || e.2.team == v.escort then (e.1, stop e.2) else e
    pure (set { v with mismatched := false } { s with groups := groups })
  else
    pure ((returnToWaypoint s v).modConvoy v.lead fun x => { x with mismatched := false, warned := true, covered := loggedCounts v, taken := [] })

def execConvoyMismatch (team : Nat) : State → Host.Outcome State Fault Refusal := event (convoyMismatch team)

/-- COMMIT_LOG_FULL: both sides stand still under a full log and take a waypoint. -/
def commitLogFull (tid : Nat) (s : State) : Option State := do
  let v ← s.convoys.find? fun v => v.lead == tid || v.escort == tid
  if v.mismatched || v.commits.length < commitLimit then none
  let both := s.teamGroups v.lead ++ s.teamGroups v.escort
  let still (e : Nat × Group) : Bool := e.2.phase != .issuing && (s.pendingOps e.1).isEmpty
    && (e.2.phase != .boundary || match s.team? e.2.team with | some t => stoppedForWaypoint s e.2 t | none => false)
  if !both.all still then none
  match takeWaypoint s v v.wayNo with
  | some s => pure s
  | none => pure (s.mismatchTeam v.lead)

def execCommitLogFull (team : Nat) : State → Host.Outcome State Fault Refusal := event (commitLogFull team)

/-! ## The assayer (R390) -/

/-- ASSAYER_REPLAY: the replay of a sampled team that has ended is over; whether it differed is the device's. A team of a
launch that ends under R359 is not replayed (R389). -/
def assayerReplay (tid : Nat) (s : State) : Option State := do
  let x ← s.assay.find? fun x => x.team == tid && x.ended
  let l ← s.launch? x.launch
  if l.status.isSome || !l.replaying.contains tid then none
  let differs := Config.replayDiffers s.tick
  let s := { s with assay := s.assay.filter fun (y : AssayStream) => y.team != tid }
  let s := s.modLaunch x.launch fun l =>
    { l with replaying := l.replaying.erase tid, sampled := min 65535 (l.sampled + 1),
             auditMismatches := if differs then min 65535 (l.auditMismatches + 1) else l.auditMismatches }
  pure (if differs then s.report { cls := 3, unit := 10, cause := 0x30, detail := BitVec.ofNat 64 x.index } else s)

def execAssayerReplay (team : Nat) : State → Host.Outcome State Fault Refusal := event (assayerReplay team)

end Sys2Proof.Machine
end

