-- ==== Sys2Proof/Machine/Edge.lean ====
section
/-! DEFINITION. Bias flips, page moves, bring-up, reset, loss of power and of parts, the host's accesses and the device's
registers (R8, R23, R80, R226, R257 to R259, R387, R393 to R404, R415). -/
namespace Sys2Proof.Machine

/-! ## A page named by a register -/

def pageCtx (v : Word) : BitVec 16 := v.extractLsb' 48 16
def pageNo (v : Word) : Nat := (v.extractLsb' 0 40).toNat

/-- The lines of a level-0 page, in order. -/
def pageLines (leaf : Word) : List Nat := (List.range 512).map fun i => Leaf.phys leaf 0 (128 * i) / 128

/-- The address of a page's level-0 entry. -/
def pageSlot (s : State) (ctx : BitVec 16) (page : Nat) : Option Nat :=
  match leafSlot s.mem (page * 65536) 3 (ctxRoot (ctxEntry s ctx)) with
  | .ok a => some a
  | .error _ => none

/-- Lines that an engine has yet to write, or whose dirty bytes cannot go home yet: a recall of them waits (R331). -/
def recallWaits (s : State) (lines : List Nat) : Bool := lines.any (lineHeld s .other) || !recallReady s lines

/-- Every core writes back its dirty bytes of some lines and drops them. -/
def recallLines (s : State) (lines : List Nat) : State :=
  let s := recallDirty s lines
  s.setFab (dropCopies s.fab lines)

/-- A line's subscribers and replicas go with the copies that a recall takes; its home, its pin and its counter stay (R246). -/
def forgetCopies (s : State) (line : Nat) : State :=
  match waybill? s.fab line with
  | some w => setWaybill s line { w with subs := [], coarse := 0, replicas := 0 }
  | none => s

/-- The lines' replicas and subscribers go, and migrated lines return to their anchors. -/
def dropWaybills (s : State) (lines : List Nat) : State :=
  s.setFab { s.fab with waybills := s.fab.waybills.filter fun (e : Nat × Waybill) => !lines.contains e.1 }

/-- The page's leaf takes a new value, and every look-aside buffer drops the page. -/
def changeLeaf (s : State) (slot : Nat) (leaf : Word) (ctx : BitVec 16) (page : Nat) : State :=
  let s := writePhys s slot 8 leaf.toNat
  s.setFab (tlbDrop s.fab fun e => e.covers ctx page)

/-! ## Bias flips (R257 to R259) -/

/-- The error code of a flip. -/
def flipError (s : State) (ctx : BitVec 16) (page : Nat) : Nat :=
  match walkTables s ctx (page * 65536) with
  | .found leaf level =>
    if isHost (Leaf.phys leaf level (page * 65536)) then 2
    else if level ≠ 0 then 4
    else if Leaf.migration leaf != 0 || (match s.fab.move with | some (c, p, _) => c == ctx && p == page | none => false) then 3
    else 0
  | _ => 1

def flipDone (s : State) (err : Bool) (code : Nat) : State :=
  let d := { s.dev with biasErr := err, biasCode := BitVec.ofNat 4 code }
  (s.setFab { s.fab with flip := none }).setDev (raiseCause d 3)

/-- A write of BIASCMD. -/
def biasFlipStart (v : Word) (s : State) : State :=
  let s := s.setDev { s.dev with biasTarget := v.getLsbD 1 }
  if !v.getLsbD 0 || s.fab.flip.isSome then s
  else
    let ctx := pageCtx s.dev.biasPg
    let page := pageNo s.dev.biasPg
    match flipError s ctx page with
    | 0 => s.setFab { s.fab with flip := some (ctx, page, v.getLsbD 1) }
    | n => flipDone s true n

def execBiasFlipStart (v : Word) : State → Host.Outcome State Fault Refusal := event fun s => some (biasFlipStart v s)

/-- BIAS_FLIP_COMPLETE: towards the host, once engines have finished the page's lines, they are written home and dropped;
towards the device, once the host has flushed them. The leaf takes the bias, or the flip errs for want of Jibueg. -/
def biasFlipComplete (s : State) : Option State := do
  let (ctx, page, host) ← s.fab.flip
  match walkTables s ctx (page * 65536), pageSlot s ctx page with
  | .found leaf 0, some slot =>
    let lines := pageLines leaf
    let bit : Word := BitVec.ofNat 64 (2 ^ 57)
    if Leaf.hostBias leaf == host then pure (flipDone s false 0)
    else if host then
      if recallWaits s lines then none
      else
        let s := hbmWritten (dropWaybills (recallLines s lines) lines) true lines
        pure (flipDone (changeLeaf s slot (leaf ||| bit) ctx page) false 0)
    else if s.dev.lost.contains .hostPort then none
    else if !s.dev.jibueg || !s.dev.hostUp then pure (flipDone s true 0)
    else pure (flipDone (changeLeaf s slot (leaf &&& ~~~bit) ctx page) false 0)
  | _, _ => pure (flipDone s true 1)

def execBiasFlipComplete : State → Host.Outcome State Fault Refusal := event biasFlipComplete

/-! ## Page moves (R400) -/

/-- A leaf's bits that say where its page lies: frame, interleave and stack. -/
def whereBits : Word := BitVec.ofNat 64 ((2 ^ 32 - 1) * 2 ^ 8 + 31 * 2 ^ 52)

/-- A leaf with the place of another. -/
def withFrame (leaf new : Word) : Word := (leaf &&& ~~~whereBits) ||| (new &&& whereBits)

/-- The leaf in an entry. -/
def leafAt (s : State) (slot : Nat) : Word := BitVec.ofNat 64 (Memory.nat s.mem slot 8)

/-- The leaf with the frame, the interleave and the stack of MIGDST. -/
def movedLeaf (leaf dst : Word) : Word :=
  (leaf &&& ~~~whereBits) ||| BitVec.ofNat 64 ((dst.extractLsb' 0 32).toNat * 2 ^ 8 + (dst.extractLsb' 36 1).toNat * 2 ^ 52 + (dst.extractLsb' 32 4).toNat * 2 ^ 53)

/-- The leaf with a migration state. -/
def withMigration (leaf : Word) (n : Nat) : Word := (leaf &&& ~~~(BitVec.ofNat 64 (3 * 2 ^ 60))) ||| BitVec.ofNat 64 (n * 2 ^ 60)

def moveError (s : State) (ctx : BitVec 16) (page : Nat) : Nat :=
  match walkTables s ctx (page * 65536) with
  | .found leaf level =>
    let new := movedLeaf leaf s.dev.migDst
    if Leaf.hostBias leaf || isHost (Leaf.phys leaf level (page * 65536)) then 2
    else if level ≠ 0 then 3
    else if Leaf.snapshot leaf || Leaf.cow leaf then 4
    else if !Leaf.frameOk new (Leaf.frame new) || (pageRanges new).any (fun r => isReserved r.1 || isReserved (r.1 + r.2 - 1)) then 5
    else 0
  | _ => 1

/-- A write of MIGCMD. -/
def migrationStart (v : Word) (s : State) : State :=
  if !v.getLsbD 0 || s.fab.move.isSome then s
  else
    let ctx := pageCtx s.dev.migPg
    let page := pageNo s.dev.migPg
    match moveError s ctx page, walkTables s ctx (page * 65536), pageSlot s ctx page with
    | 0, .found leaf _, some slot =>
      let s := writePhys s slot 8 (withMigration leaf 1).toNat
      (s.setFab { s.fab with move := some (ctx, page, leaf, movedLeaf leaf s.dev.migDst, 0) }).setDev { s.dev with migErr := false, migCode := 0 }
    | n, _, _ => s.setDev (raiseCause { s.dev with migErr := true, migCode := BitVec.ofNat 4 n } 3)

def execMigrationStart (v : Word) : State → Host.Outcome State Fault Refusal := event fun s => some (migrationStart v s)

/-- MIGRATION_LINE_COPY: the next line, recalled from engines and cores, is written at the new frame with its poison; with the
last one the leaf's migration state becomes 2. -/
def migrationLineCopy (s : State) : Option State := do
  let (ctx, page, old, new, n) ← s.fab.move
  if 512 ≤ n then none
  let a := Leaf.phys old 0 (page * 65536 + 128 * n)
  let b := Leaf.phys new 0 (page * 65536 + 128 * n)
  if recallWaits s [a / 128, b / 128] then none
  let s := dropWaybills (recallLines s [a / 128, b / 128]) [a / 128, b / 128]
  let bytes := Memory.bytes s.mem a 128
  let tags := (List.range 4).filterMap fun i => (sectorTag s.fab (a / 32 + i)).map fun t => (b / 32 + i, t)
  let s := writeHome s 48 true (bytes.zipIdx.map fun (v, i) => (b + i, v, (0xFF : Byte)))
  let s := match pageSlot s ctx page with
    | some slot => if n + 1 = 512 then writePhys s slot 8 (withMigration (leafAt s slot) 2).toNat else s
    | none => s
  let f := { s.fab with poison := tags.foldl (fun m e => SMap.put m e.1 e.2) s.fab.poison, lags := s.fab.lags.filter fun (l : Lag) => l.word / 16 != a / 128,
                        move := some (ctx, page, old, new, n + 1) }
  pure (s.setFab f)

def execMigrationLineCopy : State → Host.Outcome State Fault Refusal := event migrationLineCopy

/-- MIGRATION_COMPLETE: with every line copied and no access of the old frame in flight, the leaf takes the new frame, the
look-aside buffers drop the page and vector 67 is raised. -/
def migrationComplete (s : State) : Option State := do
  let (ctx, page, old, new, n) ← s.fab.move
  let parts := pageRanges old
  let inFlight := s.ops.any fun e => e.2.reqs.any fun r => r.bytes.any fun b => inRanges parts b.2
  if n < 512 ∨ inFlight ∨ recallWaits s (pageLines old) then none
  let s := recallLines s (pageLines old)
  let boxes := s.boxes.map fun (e : Nat × Mailbox) => (e.1, { e.2 with phys := forwarded s.fab e.2.phys })
  let s := { s with boxes := boxes }
  let s := match pageSlot s ctx page with
    | some slot => changeLeaf s slot (withMigration (withFrame (leafAt s slot) new) 0) ctx page
    | none => s
  pure ((s.setFab { s.fab with move := none }).setDev (raiseCause s.dev 3))

def execMigrationComplete : State → Host.Outcome State Fault Refusal := event migrationComplete

/-! ## Bring-up (R402) -/

/-- Repeat an optional step at most n times. -/
def runSome (f : State → Option State) : Nat → State → State
  | 0, s => s
  | n + 1, s => match f s with
    | some s' => runSome f n s'
    | none => s

/-- A bias flip or page move under way at a reset is completed before stage 9 (R415); a flip towards the device ends in error
where the link to the host is gone (R259). -/
def finishPageWork (s : State) : State :=
  let s := runSome biasFlipComplete 1 (runSome migrationComplete 1 (runSome migrationLineCopy 512 s))
  if s.fab.flip.isSome then flipDone s true 0 else s

/-- The host port trains, unless it is lost, and a free bit says whether Jibueg is negotiated with it (R397). -/
def trainHost (s : State) : State :=
  let (b, s) := s.freeBit
  let up := !s.dev.lost.contains .hostPort
  s.setDev { s.dev with hostUp := up, jibueg := up && b }

/-- Links that are not lost train up or stay down as a free bit says, and the host port trains. -/
def trainLinks (s : State) : State :=
  trainHost <| (List.range 12).foldl (fun s k =>
    if s.dev.lost.any (fun p => match p with | .link n => n.val == k | _ => false) then s
    else
      let (b, s) := s.freeBit
      s.setDev { s.dev with links := SMap.set .down s.dev.links k (if b then .up else .down) }) s

/-- Slots whose image pointer is nonzero are staged again before the device is ready (R81). -/
def restageAll (s : State) : State :=
  s.warm.foldl (fun s e => if e.2.pointer = 0 then s else (warmSlotStaged e.1 (s.setWarm e.1 { s.warmSlot e.1 with staging := true, ready := false })).getD s) s

/-- The number of cores that the loaded defect map disables. -/
def disabledCount (d : Device) : Nat := (disabledCores d.defects).length

/-- The guaranteed counts of R26 hold under a defect map: 2,944 enabled cores and live banks. Parts lost while running are no
part of the map, and stay lost over a device reset. DESIGN CHOICE (log entry 93). -/
def countsHold (gen : Nat) : Bool :=
  let few (p : Nat → Bool) : Bool := decide (((List.range 3072).filter p).length ≤ 128)
  few (Config.disabledCore gen) && few (Config.deadBank gen)

/-- A stage fails: as the device's state has it, and stage 5 where the counts of R26 do not hold. -/
def stageFailed (k : Nat) (s : State) : Bool := Config.stageFails k s.tick || (k == 5 && !countsHold s.dev.defects)

/-- The number of a signed image at hand, which the model leaves open: a firmware image or a defect map. -/
def freshImage (s : State) : Nat × State := (Config.freeChoice s.free, { s with free := s.free + 1 })

/-- The first record after a loss of power takes the stored reserve limit as its number, and Guivizin stores the next limit with
it, so that a second loss before a newer checkpoint uses no number twice. DEDUCED (log entry 94). A device that has stored
nothing starts at 0. -/
def reopenLog (s : State) (first : Report) : State :=
  let limit := if s.log.next = 0 then s.log.limit else s.log.next + 8192
  writeLog { s with log := { s.log with limit := limit } } first

/-- Stage 7: the bring-up or device-reset record, then those of the stages, before whatever was reported earlier (R394). -/
def openLog (first : Report) (measure : Bool) (s : State) : State :=
  let defects : Report := { cls := 4, unit := 12, cause := 0x40, detail := BitVec.ofNat 64 (disabledCount s.dev) }
  let records : List Report := (if measure then [{ cls := 4, unit := 12, cause := 0x41 }] else []) ++ [defects]
  if first.cause = 0x23 then
    let s := reopenLog s first
    { s with log := { s.log with reports := records ++ s.log.reports } }
  else { s with log := { s.log with reports := first :: records ++ s.log.reports } }

/-- The roots among the launches. -/
def roots (s : State) : List (Nat × Launch) := s.launches.filter fun e => match e.2.origin with | .child _ _ => false | _ => true

/-- Some launch of a tree has dispatched a team. -/
def treeRan (s : State) (tree : List Nat) : Bool := tree.any fun k => ((s.launch? k).map (·.ran)).getD false

/-- The groups of a launch, saved ones included. -/
def groupsOf (s : State) (lid : Nat) : List (Nat × Group) :=
  (s.groups.filter fun e => (launchGroups s lid).contains e.1) ++ (s.saved.filter fun e => e.2.team.launch == lid).flatMap fun e => e.2.groups

/-- R80 for one root at a device reset. -/
def settleAtReset (s : State) (root : Nat) : State :=
  match s.launch? root with
  | none => s
  | some l =>
    let tree := s.tree root
    if l.prot && l.status.isNone && treeRan s tree then (rollback root (s.requestRollback root)).getD s
    else
      let ran := treeRan s tree
      tree.foldl (fun s k =>
        let s := discardRun (foldFpstat s k (groupsOf s k)) k
        let s := s.modLaunch k fun x => { x with rollback := false, requests := [], replaying := [] }
        if ran then fixStatus s k 0x07 else s) s

/-- What one stage does; `first` is the record that stage 7 opens the log with, `measure` says that stage 1 is run. -/
def stageEffect (first : Report) (measure : Bool) (k : Nat) (s : State) : State :=
  match k with
  | 1 =>
    if measure then
      let (image, s) := freshImage s
      s.setDev { s.dev with firmware := Config.firmwareHash image }
    else s
  | 2 =>
    let (map, s) := freshImage s
    s.setDev { s.dev with defects := map, defectHash := Config.defectHash map }
  | 6 => trainLinks s
  | 7 => openLog first measure s
  | 8 => restageAll (finishPageWork ((roots s).foldl (fun s e => settleAtReset s e.1) s))
  | _ => s

/-- Stages k to 9, each reported in DEVSTAT; a failure stops bring-up. -/
def stages (first : Report) (measure : Bool) : Nat → Nat → State → State
  | 0, _, s => s
  | n + 1, k, s =>
    if (k ≠ 1 || measure) && stageFailed k s then s.setDev { s.dev with stage := BitVec.ofNat 4 k, failure := BitVec.ofNat 8 k }
    else stages first measure n (k + 1) (stageEffect first measure k (s.setDev { s.dev with stage := BitVec.ofNat 4 k }))

/-- Bring-up: the cycle counters start at zero, the stages run, and vector 66 reports the new DEVSTAT. -/
def bringUp (first : Report) (measure : Bool) (s : State) : State :=
  let s := s.setDev { s.dev with stage := 0, failure := 0, cycles := [] }
  let s := stages first measure 9 1 s
  s.setDev (raiseCause s.dev 2)

/-- POWER_ON. -/
def powerOn (s : State) : Option State :=
  if s.dev.powered then none
  else
    let detail : Nat := (s.log.stored.map (·.1)).getD 0
    some (bringUp { cls := 2, unit := 12, cause := 0x23, detail := BitVec.ofNat 64 detail } true
      (s.setDev { s.dev with powered := true, firmwareKnown := true }))

def execPowerOn : State → Host.Outcome State Fault Refusal := event powerOn

/-! ## Loss of power (R394, R404) -/

/-- What stays over a loss of power: Guivizin's store, the sequences, and the model's own indices. The log resumes at the
stored reserve limit. -/
def unpowered (s : State) : State :=
  let log : Log := { next := if s.log.next = 0 then 0 else s.log.limit, ckpts := [], ckptCount := s.log.ckptCount, counter := s.log.counter,
                     limit := s.log.limit, stored := s.log.stored, chain := (s.log.stored.map (·.2)).getD 0 }
  { State.reset with tick := s.tick, free := s.free, nextId := s.nextId, inputs := s.inputs, log := log,
                     dev := { devrseq := s.dev.devrseq, firmwareKnown := s.dev.firmwareKnown } }

def execPowerLoss : State → Host.Outcome State Fault Refusal := event fun s => if s.dev.powered then some (unpowered s) else none
def execThermalShutdown : State → Host.Outcome State Fault Refusal := event fun s => if s.dev.powered then some (unpowered s) else none

/-- THERMAL_THROTTLE: the reticle runs at its lowest cap, which changes no result. -/
def execThermalThrottle (reticle : Fin 48) : State → Host.Outcome State Fault Refusal :=
  event fun s => if s.dev.throttled.contains reticle then none else some (s.setDev { s.dev with throttled := reticle :: s.dev.throttled })

/-! ## Device reset and lost parts (R80, R415) -/

/-- Launches as a reset leaves them: their images and tables are read again, for every team that is yet to run. -/
def Launch.afterReset (l : Launch) : Launch := { l with region := none, tablesRead := false }

/-- DEVRST_RESET: engines stop, caches and look-aside buffers empty, and bring-up runs, whose stage 8 settles the launches in
flight. BIASCMD's target and CTXSUSP's context id are kept, which R415 does not list; mailboxes and what is on its way go.
DESIGN CHOICE (log entry 21). A reticle that was lost stays lost. DESIGN CHOICE (log entry 93). -/
def deviceReset (s : State) : State :=
  let s := haltEngines s (s.groups.map (·.1))
  let s := { s with launches := s.launches.map fun (e : Nat × Launch) => (e.1, e.2.afterReset), ops := [],
                    regions := s.regions.filter (fun e => e.2.warm.isSome && !e.2.releasing), boxes := [], flits := [], porter := [] }
  let fab : Fabric := { poison := s.fab.poison, gone := s.fab.gone, flip := s.fab.flip, move := s.fab.move, atomTag := s.fab.atomTag }
  let dev := { s.dev with jibueg := false, attBusy := false, throttled := [], links := [], hostUp := false,
                          msix := s.dev.msix, biasCode := 0, biasErr := false, migCode := 0, migErr := false }
  let measure := Config.firmwareChanged s.tick || !s.dev.firmwareKnown
  bringUp { cls := 2, unit := 12, cause := 0x22 } measure ((s.setFab fab).setDev dev)

def execDevrstReset : State → Host.Outcome State Fault Refusal := event fun s => if s.dev.powered then some (deviceReset s) else none

/-- Teams of a launch that count as on a lost part: by core, or by their save area, which a free bit places on a lost
stack; a saved team whose receive queues stay with its core (R337) counts by that core. DEDUCED (log entry 22). -/
def onReticle (p : Part) (t : Team) : Bool := match p with | .reticle n => reticleOf t.place == n.val | _ => false

def savedOnPart (p : Part) (x : SavedTeam) (s : State) : Bool × State :=
  match p with
  | .stack _ => s.freeBit
  | _ => (onReticle p x.team && keepsCore s x, s)

/-- R80 for one root at the loss of a part. -/
def settleAtLoss (p : Part) (s : State) (root : Nat) : State :=
  match s.launch? root with
  | none => s
  | some l =>
    let tree := s.tree root
    if l.status.isSome then s
    else if l.prot then (if treeRan s tree then (rollback root (s.requestRollback root)).getD s else s)
    else
      let (hit, s) := (s.saved.filter fun e => tree.contains e.2.team.launch).foldl
        (fun (acc : Bool × State) e => let (b, s) := savedOnPart p e.2 acc.2; (acc.1 || b, s)) (false, s)
      if hit || s.teams.any (fun e => tree.contains e.2.launch && onReticle p e.2) then tree.foldl (fun s k => fixStatus s k 0x08) s else s

/-- The teams on a lost reticle are gone. -/
def dropTeams (p : Part) (s : State) : State :=
  let ids := (s.teams.filter fun e => onReticle p e.2).map (·.1)
  let gids := (s.groups.filter fun e => ids.contains e.2.team).map (·.1)
  let s := (s.groups.filter fun e => ids.contains e.2.team).foldl (fun s e =>
    match s.team? e.2.team with
    | some t => foldFpstat s t.launch [e]
    | none => s) s
  let s := stopEngines s gids true
  { s with teams := s.teams.filter (fun e => !ids.contains e.1), groups := s.groups.filter (fun e => !gids.contains e.1),
           convoys := s.convoys.filter (fun (v : Convoy) => !ids.contains v.lead && !ids.contains v.escort) }

/-- A launch whose region can hold none of its teams on the cores that are left has an image loaded on another one: its
teams not yet dispatched run after recovery (R79, R80). -/
def leaveRegions (s : State) : State :=
  { s with launches := s.launches.map fun (e : Nat × Launch) =>
      match e.2.region.bind s.region? with
      | some r => if r.cores.any (fun p => coreUp s.dev p && couldHold s p e.2.need) then e else (e.1, { e.2 with region := none })
      | none => e }

/-- Every line's anchor is computed over the banks that are left; lines that lay at their anchor under the old map, or in the
lost reticle, go there, and the reticle's cores hold none (R402). -/
def dropReticle (old : Device) (t : Fin 48) (s : State) : State :=
  let s := (s.fab.l1.filter fun x => reticleOf x.core == t.val).foldl (fun s x => s.setFab (l1Drop (unsubscribe s x.core x.line).fab x.core x.line)) s
  s.setFab { s.fab with waybills := s.fab.waybills.map fun (e : Nat × Waybill) =>
    (e.1, if reticleOf e.2.home == t.val || e.2.home == anchor old e.1 then { e.2 with home := anchor s.dev e.1 } else e.2) }

/-- PART_LOST. -/
def partLost (p : Part) (s : State) : Option State :=
  if s.dev.lost.contains p || !s.dev.powered then none
  else
    let tag := nextTag s
    let old := s.dev
    let s := s.report { cls := 1, unit := (match p with | .reticle _ => 0 | .stack _ => 5 | .link _ => 6 | .hostPort => 7), cause := 0x13, tag := (match p with | .stack _ => tag | _ => 0),
                        place := partPlace p, cycle := (match p with | .reticle n => s.cycle n.val | _ => 0) }
    let s := s.setDev (raiseCause { s.dev with lost := p :: s.dev.lost } 2)
    let s := (roots s).foldl (fun s e => settleAtLoss p s e.1) s
    match p with
    | .reticle n => some (leaveRegions (dropReticle old n (dropTeams p s)))
    | .stack n => some (s.setFab { s.fab with gone := (n, tag) :: s.fab.gone })
    | .link n => some (s.setDev { s.dev with links := SMap.set .down s.dev.links n.val .down })
    | .hostPort => some (s.setDev { s.dev with hostUp := false, jibueg := false })

def execPartLost (part : Part) : State → Host.Outcome State Fault Refusal := event (partLost part)

/-- HOST_PORT_RETURN: the port trains anew. -/
def execHostPortReturn : State → Host.Outcome State Fault Refusal :=
  event fun s => if s.dev.lost.contains .hostPort then some (trainHost (s.setDev { s.dev with lost := s.dev.lost.erase .hostPort })) else none

/-! ## The host's memory accesses (R395, R397) -/

/-- The bytes of a BAR2 access. -/
def bar2Locs (s : State) (off size : Nat) : List Nat := (List.range size).map fun i => s.dev.hwin.toNat * 65536 + off + i

/-- The bytes of BAR2 (R395). -/
def bar2Size : Nat := 2 ^ 36

/-- A host access waits for engines that hold its lines, banks that refuse it and writes that have to settle first (R331), and
with Jibueg, which makes it coherent, for a recall; a snoop waits for a recall. -/
def hostWaits (s : State) (i : Instr) : Bool :=
  match i with
  | .hostBar2Access off size _ =>
    let locs := bar2Locs s off size
    let lines := (locs.map lineOf).dedup
    lines.any (lineWaits s .other) || blockedFor s 48 0 locs || (s.dev.jibueg && recallWaits s lines)
  | .jibuegHostSnoop line => recallWaits s [line]
  | _ => false

/-- The lines of a host access are recalled where Jibueg makes it coherent. -/
def hostRecall (s : State) (locs : List Nat) : State := if s.dev.jibueg then recallLines s (locs.map lineOf).dedup else s

/-- A snoop that the loss of the host port holds back until the port returns (R397). -/
def snoopHeld (s : State) (i : Instr) : Bool :=
  match i with
  | .jibuegHostSnoop _ => s.dev.lost.contains .hostPort
  | _ => false

/-- HOST_BAR2_ACCESS: a read or write of device physical memory at HWIN + off, of the home copy; the range that R233 reserves is
not reached, and past the window's end nothing is accessed. While it waits nothing changes, and the host's access stays. -/
def execHostBar2Access (off size : Nat) (data : Option Word) (s : State) : Host.Outcome State Fault Refusal :=
  let locs := bar2Locs s off size
  if bar2Size < off + size then .next s
  else if locs.any (fun p => !isBacked p || isReserved p) then .fault .unbackedAddress
  else if hostWaits s (.hostBar2Access off size data) then .next s
  else match data with
    | none =>
      let (bs, s) := readLocs (hostRecall s locs) 48 0 locs
      .next (s.setDev { s.dev with bar2 := bs })
    | some v =>
      let s := hostRecall (copyFor s locs) locs
      .next (writeHome s 48 false ((locs.zip (leBytes size v.toNat)).map fun (a, b) => (a, b, (0xFF : Byte))))

/-- JIBUEG_HOST_SNOOP: the line is recalled from the wafer cache; its home keeps it. -/
def execJibuegHostSnoop (line : Nat) : State → Host.Outcome State Fault Refusal :=
  event fun s => if s.dev.jibueg && s.dev.hostUp && !recallWaits s [line] then some (forgetCopies (recallLines s [line]) line) else none

def execJibuegNegotiation (up : Bool) : State → Host.Outcome State Fault Refusal :=
  event fun s => if s.dev.hostUp then some (s.setDev { s.dev with jibueg := up }) else none

/-! ## Registers (R8, R387, R388, R393, R396, R403) -/

/-- A power cap: the record of the change, and the configuration measurement. -/
def pwrcapWrite (n : Nat) (v : Word) (s : State) : State :=
  let cap : BitVec 16 := v.extractLsb' 0 16
  let d := extendConfig { s.dev with pwrcap := SMap.set 500 s.dev.pwrcap n cap } (0x30900 + 8 * n) (cap.zeroExtend 64)
  (s.setDev d).report { cls := 4, unit := 13, cause := 0x42, place := BitVec.ofNat 12 (64 * n), detail := cap.zeroExtend 64 }

def execPwrcapWrite (reticle : Fin 48) (v : Word) : State → Host.Outcome State Fault Refusal := event fun s => some (pwrcapWrite reticle.val v s)

/-- A write of ASSAYCTL; k above 16 ignores it whole. -/
def assayctlWrite (v : Word) (s : State) : State :=
  if 16 < (v.extractLsb' 0 5).toNat then s
  else s.setDev (extendConfig { s.dev with assayEnable := v.getLsbD 7, assayK := v.extractLsb' 0 5 } 0x30300 (v &&& 0x9F))

def execAssayctlWrite (v : Word) : State → Host.Outcome State Fault Refusal := event fun s => some (assayctlWrite v s)

/-- Writing ones clears cause bits. -/
def irqcauseClear (v : Word) (s : State) : State := s.setDev { s.dev with irqcause := s.dev.irqcause &&& ~~~(v.extractLsb' 0 4) }

def execIrqcauseClear (v : Word) : State → Host.Outcome State Fault Refusal := event fun s => some (irqcauseClear v s)

/-- A write of a queue's register. -/
def queueWrite (k off : Nat) (v : Word) (s : State) : State :=
  match off with
  | 0x00 => if (s.queue k).enable then s else s.setQueue k { s.queue k with base := v }
  | 0x08 => qctlWrite k v s
  | 0x10 => qtailWrite k (v.extractLsb' 0 32) s
  | 0x30 => qcackWrite k (v.extractLsb' 0 32) s
  | 0x38 => if v.getLsbD 0 then qstatClear k s else s
  | _ => s

/-- A write of a warm slot's image pointer (R81). -/
def warmPointer (n : Nat) (v : Word) (s : State) : State :=
  match execWarmSlotImageWrite (BitVec.ofNat 8 n) v s with
  | .next s' => s'
  | _ => s

/-- The 64-bit word at a number's byte offset k replaced. -/
def putWord (x k : Nat) (v : Word) : Nat := x - fld x (8 * k) 64 * 2 ^ (8 * k) + v.toNat * 2 ^ (8 * k)

/-- The host says which records it has kept; vector 65 is raised where the log still holds too many past them (R387). -/
def logAckWrite (v : Word) (s : State) : State :=
  let d := { s.dev with logAck := v }
  s.setDev (if logCrowded s.log v.toNat then raiseCause d 1 else d)

/-- A write of a register of the edge, or of the memory system. -/
def edgeWrite (off : Nat) (v : Word) (s : State) : State :=
  let d := s.dev
  match off with
  | 0x30000 => s.setDev { d with ctxtab := v }
  | 0x30100 => s.setDev { d with biasPg := v &&& ~~~0x0000FF0000000000 }
  | 0x30108 => biasFlipStart v s
  | 0x30110 => s.setDev { d with retctl := v.extractLsb' 0 32 }
  | 0x30120 => s.setDev { d with migPg := v &&& ~~~0x0000FF0000000000 }
  | 0x30128 => s.setDev { d with migDst := v &&& 0x1FFFFFFFFF }
  | 0x30130 => migrationStart v s
  | 0x30200 =>
    let c : BitVec 16 := v.extractLsb' 48 16
    let s := s.setDev { d with suspId := c }
    let s := if v.getLsbD 0 then ctxSuspend c s else s
    if v.getLsbD 1 then ctxResume c s else s
  | 0x30300 => assayctlWrite v s
  | 0x30410 => s.setDev { d with logSel := v }
  | 0x30418 => logAckWrite v s
  | 0x30428 => if v.getLsbD 0 then (takeCheckpoint s).getD s else s
  | 0x30430 => s.setDev { d with ckptSel := v.extractLsb' 0 8 }
  | 0x30500 => s.setDev { d with irqen := v }
  | 0x30508 => irqcauseClear v s
  | 0x30720 => if v.getLsbD 0 then s.setDev { d with attBusy := true } else s
  | 0x30810 => if v.getLsbD 0 && d.powered then deviceReset s else s
  | 0x30818 => s.setDev { d with hwin := v.extractLsb' 0 36 }
  | _ =>
    if 0x30600 ≤ off ∧ off < 0x30680 then
      s.setDev (extendConfig { d with peers := SMap.set 0 d.peers ((off - 0x30600) / 8) (v &&& 0x8FFF) } off (v &&& 0x8FFF))
    else if 0x30700 ≤ off ∧ off < 0x30720 then
      s.setDev { d with attNonce := BitVec.ofNat 256 (putWord d.attNonce.toNat (off - 0x30700) v) }
    else if 0x30900 ≤ off ∧ off < 0x30900 + 8 * 48 then pwrcapWrite ((off - 0x30900) / 8) v s
    else s

/-- REGISTER_WRITE: an aligned 64-bit write of the register space stores the register's RW fields; writes of read-only and
reserved fields are ignored. An offset that no rule names, or that is no multiple of 8, is written without effect. DESIGN
CHOICE (log entry 73). -/
def registerWrite (off : Nat) (v : Word) (s : State) : State :=
  if off % 8 ≠ 0 then s
  else if 0x10000 ≤ off ∧ off < 0x11000 then queueWrite ((off - 0x10000) / 64) (off % 64) v s
  else if 0x20000 ≤ off ∧ off < 0x21000 then
    let n := (off - 0x20000) / 16
    if off % 16 = 0 then warmPointer n v s
    else
      let w := s.warmSlot n
      let s := if w.ctx == v.extractLsb' 48 16 then s else coldBoxes s w.region
      s.setWarm n { w with ctx := v.extractLsb' 48 16, cols := v.extractLsb' 42 6, rows := v.extractLsb' 36 6, origin := v.extractLsb' 24 12 }
  else edgeWrite off v s

def execRegisterWrite (off : Nat) (v : Word) : State → Host.Outcome State Fault Refusal := event fun s => some (registerWrite off v s)

/-! ## What the host reads of the registers -/

def bit (b : Bool) (n : Nat) : Nat := if b then 2 ^ n else 0

/-- A queue's register (R72). -/
def queueRead (q : Queue) (off : Nat) : Nat :=
  match off with
  | 0x00 => q.base.toNat
  | 0x08 => q.ctx.toNat * 2 ^ 48 + bit q.enable 31 + q.prio.toNat * 2 ^ 29 + bit q.inDevice 28 + q.n.toNat * 2 ^ 23
  | 0x10 => q.tail.toNat
  | 0x18 => q.head.toNat
  | 0x20 => q.ack.toNat
  | 0x28 => q.ret.toNat
  | 0x30 => q.cack.toNat
  | 0x38 => q.dups.toNat * 2 ^ 32 + q.cause.toNat * 2 + bit q.stopped 0
  | _ => 0

/-- The record that LOGSEL names. -/
def logSelected (s : State) : Option (BitVec 512) := s.log.records.find? fun r => recordSeq r == s.dev.logSel.toNat

/-- The 64-bit word that a host's read of the register space returns. An offset that no rule names, or that is no multiple of
8, reads as 0. DESIGN CHOICE (log entry 73). LOGSTAT reads 1 while the log holds no record under LOGSEL, with an empty log
too, as the Meaning column of R393 says, though its Reset column gives 0. DEDUCED (log entry 74). -/
def registerRead (s : State) (off : Nat) : Word :=
  let d := s.dev
  BitVec.ofNat 64 <|
  if off % 8 ≠ 0 then 0
  else if 0x10000 ≤ off ∧ off < 0x11000 then queueRead (s.queue ((off - 0x10000) / 64)) (off % 64)
  else if 0x20000 ≤ off ∧ off < 0x21000 then
    let w := s.warmSlot ((off - 0x20000) / 16)
    if off % 16 = 0 then w.pointer.toNat
    else w.ctx.toNat * 2 ^ 48 + w.cols.toNat * 2 ^ 42 + w.rows.toNat * 2 ^ 36 + w.origin.toNat * 2 ^ 24 + bit w.failed 1 + bit w.ready 0
  else if 0x30440 ≤ off ∧ off < 0x30480 then fld ((logSelected s).getD 0).toNat (8 * (off - 0x30440)) 64
  else if 0x30480 ≤ off ∧ off < 0x30500 then fld ((SMap.entry? s.log.ckpts d.ckptSel.toNat).getD 0).toNat (8 * (off - 0x30480)) 64
  else if 0x30600 ≤ off ∧ off < 0x30680 then (SMap.get 0 d.peers ((off - 0x30600) / 8)).toNat
  else if 0x30700 ≤ off ∧ off < 0x30720 then fld d.attNonce.toNat (8 * (off - 0x30700)) 64
  else if 0x30900 ≤ off ∧ off < 0x30900 + 8 * 48 then (SMap.get 500 d.pwrcap ((off - 0x30900) / 8)).toNat
  else if 0x30B00 ≤ off ∧ off < 0x30C00 then fld d.quote.toNat (8 * (off - 0x30B00)) 64
  else if 0x30C00 ≤ off ∧ off < 0x31000 then leNat ((List.range 8).map fun i => Config.certificate (off - 0x30C00 + i))
  else match off with
    | 0x30000 => d.ctxtab.toNat
    | 0x30100 => d.biasPg.toNat
    | 0x30108 => d.biasCode.toNat * 16 + bit d.biasErr 3 + bit s.fab.flip.isSome 2 + bit d.biasTarget 1
    | 0x30110 => d.retctl.toNat
    | 0x30120 => d.migPg.toNat
    | 0x30128 => d.migDst.toNat
    | 0x30130 => d.migCode.toNat * 16 + bit d.migErr 3 + bit s.fab.move.isSome 2
    | 0x30200 => d.suspId.toNat * 2 ^ 48 + bit (suspendBusy s) 2
    | 0x30300 => bit d.assayEnable 7 + d.assayK.toNat
    | 0x30400 => s.log.next
    | 0x30408 => logOldest s.log
    | 0x30410 => d.logSel.toNat
    | 0x30418 => d.logAck.toNat
    | 0x30420 => bit (decide (d.logSel.toNat < logOldest s.log) || decide (s.log.next ≤ d.logSel.toNat)) 0
    | 0x30430 => d.ckptSel.toNat
    | 0x30500 => d.irqen.toNat
    | 0x30508 => d.irqcause.toNat
    | 0x30720 => bit d.attBusy 1
    | 0x30800 => d.failure.toNat * 256 + d.stage.toNat
    | 0x30808 => d.devrseq.toNat
    | 0x30818 => d.hwin.toNat
    | 0x30820 => bit d.jibueg 1 + 1
    | _ => 0

end Sys2Proof.Machine
end

