-- ==== Sys2Proof/Machine/Dispatch.lean ====
section
/-! DEFINITION. What each step does: one direct call of its meaning. -/
namespace Sys2Proof.Machine

/-- The meaning of each step; a row of the instruction set runs for the group `State.cur`. -/
def exec (i : Instr) (s : State) : Host.Outcome State Fault Refusal :=
  match i with
  | .qtailWrite q v => Sys2Proof.Machine.execQtailWrite q v s
  | .qctlEnable q v => Sys2Proof.Machine.execQctlEnable q v s
  | .abortHead q => Sys2Proof.Machine.execAbortHead q s
  | .rewrite q => Sys2Proof.Machine.execRewrite q s
  | .qcackWrite q v => Sys2Proof.Machine.execQcackWrite q v s
  | .qstatClearStopped q => Sys2Proof.Machine.execQstatClearStopped q s
  | .queueSlotAccept q => Sys2Proof.Machine.execQueueSlotAccept q s
  | .regionLoad launch => Sys2Proof.Machine.execRegionLoad launch s
  | .regionRelease region => Sys2Proof.Machine.execRegionRelease region s
  | .warmSlotImageWrite slot ptr => Sys2Proof.Machine.execWarmSlotImageWrite slot ptr s
  | .warmSlotStaged slot => Sys2Proof.Machine.execWarmSlotStaged slot s
  | .teamDispatch launch => Sys2Proof.Machine.execTeamDispatch launch s
  | .clauseIssue group => Sys2Proof.Machine.execClauseIssue group s
  | .clauseResume group => Sys2Proof.Machine.execClauseResume group s
  | .endLaunch launch => Sys2Proof.Machine.execEndLaunch launch s
  | .instructionComplete op => Sys2Proof.Machine.execInstructionComplete op s
  | .launchRetire launch => Sys2Proof.Machine.execLaunchRetire launch s
  | .mailboxFiring box => Sys2Proof.Machine.execMailboxFiring box s
  | .handlerLaunch box => Sys2Proof.Machine.execHandlerLaunch box s
  | .nop => Sys2Proof.Machine.execNop s
  | .bra sub cond target => Sys2Proof.Machine.execBra sub cond target s
  | .brd cond target => Sys2Proof.Machine.execBrd cond target s
  | .tokenIf => Sys2Proof.Machine.execTokenIf s
  | .tokenLoop target => Sys2Proof.Machine.execTokenLoop target s
  | .joinIf target => Sys2Proof.Machine.execJoinIf target s
  | .joinLoop cond target => Sys2Proof.Machine.execJoinLoop cond target s
  | .brk cond => Sys2Proof.Machine.execBrk cond s
  | .cont cond => Sys2Proof.Machine.execCont cond s
  | .brx index => Sys2Proof.Machine.execBrx index s
  | .call cond slide target => Sys2Proof.Machine.execCall cond slide target s
  | .callx cond slide index => Sys2Proof.Machine.execCallx cond slide index s
  | .ret => Sys2Proof.Machine.execRet s
  | .exit cond => Sys2Proof.Machine.execExit cond s
  | .yield => Sys2Proof.Machine.execYield s
  | .wsyncWait => Sys2Proof.Machine.execWsyncWait s
  | .wsyncWb => Sys2Proof.Machine.execWsyncWb s
  | .winfo item dst => Sys2Proof.Machine.execWinfo item dst s
  | .pauseTime n => Sys2Proof.Machine.execPauseTime n s
  | .pauseRecv n => Sys2Proof.Machine.execPauseRecv n s
  | .pauseExpiry group => Sys2Proof.Machine.execPauseExpiry group s
  | .add f => Sys2Proof.Machine.execAdd f s
  | .sub f => Sys2Proof.Machine.execSub f s
  | .mul f => Sys2Proof.Machine.execMul f s
  | .mulh f => Sys2Proof.Machine.execMulh f s
  | .mad f => Sys2Proof.Machine.execMad f s
  | .and f => Sys2Proof.Machine.execAnd f s
  | .or f => Sys2Proof.Machine.execOr f s
  | .xor f => Sys2Proof.Machine.execXor f s
  | .andn f => Sys2Proof.Machine.execAndn f s
  | .shl f => Sys2Proof.Machine.execShl f s
  | .shr f => Sys2Proof.Machine.execShr f s
  | .sar f => Sys2Proof.Machine.execSar f s
  | .rot f => Sys2Proof.Machine.execRot f s
  | .min f => Sys2Proof.Machine.execMin f s
  | .max f => Sys2Proof.Machine.execMax f s
  | .sel f => Sys2Proof.Machine.execSel f s
  | .abs f => Sys2Proof.Machine.execAbs f s
  | .neg f => Sys2Proof.Machine.execNeg f s
  | .clz f => Sys2Proof.Machine.execClz f s
  | .popc f => Sys2Proof.Machine.execPopc f s
  | .brev f => Sys2Proof.Machine.execBrev f s
  | .bfe f => Sys2Proof.Machine.execBfe f s
  | .bfi f => Sys2Proof.Machine.execBfi f s
  | .cmp f => Sys2Proof.Machine.execCmp f s
  | .lea f => Sys2Proof.Machine.execLea f s
  | .mov f => Sys2Proof.Machine.execMov f s
  | .movi f => Sys2Proof.Machine.execMovi f s
  | .addi f => Sys2Proof.Machine.execAddi f s
  | .andi f => Sys2Proof.Machine.execAndi f s
  | .ori f => Sys2Proof.Machine.execOri f s
  | .cmpi f => Sys2Proof.Machine.execCmpi f s
  | .idot4 f => Sys2Proof.Machine.execIdot4 f s
  | .fadd f => Sys2Proof.Machine.execFadd f s
  | .fsub f => Sys2Proof.Machine.execFsub f s
  | .fmul f => Sys2Proof.Machine.execFmul f s
  | .ffma f => Sys2Proof.Machine.execFfma f s
  | .fmin f => Sys2Proof.Machine.execFmin f s
  | .fmax f => Sys2Proof.Machine.execFmax f s
  | .fminnm f => Sys2Proof.Machine.execFminnm f s
  | .fmaxnm f => Sys2Proof.Machine.execFmaxnm f s
  | .fcmp f => Sys2Proof.Machine.execFcmp f s
  | .fclass f => Sys2Proof.Machine.execFclass f s
  | .frnd f => Sys2Proof.Machine.execFrnd f s
  | .fdiv f => Sys2Proof.Machine.execFdiv f s
  | .fsqrt f => Sys2Proof.Machine.execFsqrt f s
  | .fdot2 f => Sys2Proof.Machine.execFdot2 f s
  | .fabs f => Sys2Proof.Machine.execFabs f s
  | .fneg f => Sys2Proof.Machine.execFneg f s
  | .fexp2f f => Sys2Proof.Machine.execFexp2f f s
  | .flog2m f => Sys2Proof.Machine.execFlog2m f s
  | .frcp f => Sys2Proof.Machine.execFrcp f s
  | .frsq f => Sys2Proof.Machine.execFrsq f s
  | .fsinpi f => Sys2Proof.Machine.execFsinpi f s
  | .fcospi f => Sys2Proof.Machine.execFcospi f s
  | .fldexp f => Sys2Proof.Machine.execFldexp f s
  | .fgetexp f => Sys2Proof.Machine.execFgetexp f s
  | .fgetman f => Sys2Proof.Machine.execFgetman f s
  | .fcvt f => Sys2Proof.Machine.execFcvt f s
  | .itof f => Sys2Proof.Machine.execItof f s
  | .ftoi f => Sys2Proof.Machine.execFtoi f s
  | .qcvt f => Sys2Proof.Machine.execQcvt f s
  | .dqcvt f => Sys2Proof.Machine.execDqcvt f s
  | .qscale f => Sys2Proof.Machine.execQscale f s
  | .shfl f => Sys2Proof.Machine.execShfl f s
  | .vote f => Sys2Proof.Machine.execVote f s
  | .redux f => Sys2Proof.Machine.execRedux f s
  | .scan f => Sys2Proof.Machine.execScan f s
  | .elect f => Sys2Proof.Machine.execElect f s
  | .bcast f => Sys2Proof.Machine.execBcast f s
  | .setlane f => Sys2Proof.Machine.execSetlane f s
  | .ld f => Sys2Proof.Machine.execLd f s
  | .st f => Sys2Proof.Machine.execSt f s
  | .ldu f => Sys2Proof.Machine.execLdu f s
  | .stu f => Sys2Proof.Machine.execStu f s
  | .atom f => Sys2Proof.Machine.execAtom f s
  | .atomu f => Sys2Proof.Machine.execAtomu f s
  | .ldfe f => Sys2Proof.Machine.execLdfe f s
  | .stfe f => Sys2Proof.Machine.execStfe f s
  | .bufstRecord f => Sys2Proof.Machine.execBufstRecord f s
  | .bufstBuffer f => Sys2Proof.Machine.execBufstBuffer f s
  | .pref f => Sys2Proof.Machine.execPref f s
  | .vdec f => Sys2Proof.Machine.execVdec f s
  | .venc f => Sys2Proof.Machine.execVenc f s
  | .fence f => Sys2Proof.Machine.execFence f s
  | .fenceLinkTimeout group => Sys2Proof.Machine.execFenceLinkTimeout group s
  | .flushl f => Sys2Proof.Machine.execFlushl f s
  | .invl f => Sys2Proof.Machine.execInvl f s
  | .subscr f => Sys2Proof.Machine.execSubscr f s
  | .bcopy f => Sys2Proof.Machine.execBcopy f s
  | .bcopyFirstBeat op => Sys2Proof.Machine.execBcopyFirstBeat op s
  | .bcopyComplete op => Sys2Proof.Machine.execBcopyComplete op s
  | .bcopyFault op => Sys2Proof.Machine.execBcopyFault op s
  | .stream a n fb => Sys2Proof.Machine.execStream a n fb s
  | .sclose n fb => Sys2Proof.Machine.execSclose n fb s
  | .outriderFetch group n => Sys2Proof.Machine.execOutriderFetch group n s
  | .barw a phase scope fb => Sys2Proof.Machine.execBarw a phase scope fb s
  | .bara d a count scope fb => Sys2Proof.Machine.execBara d a count scope fb s
  | .tbar fb => Sys2Proof.Machine.execTbar fb s
  | .coll a fb => Sys2Proof.Machine.execColl a fb s
  | .collComplete op => Sys2Proof.Machine.execCollComplete op s
  | .collFault op => Sys2Proof.Machine.execCollFault op s
  | .launch d a fb => Sys2Proof.Machine.execLaunch d a fb s
  | .mboxBind d a place => Sys2Proof.Machine.execMboxBind d a place s
  | .mboxUnbind d a place => Sys2Proof.Machine.execMboxUnbind d a place s
  | .mboxCount d a place => Sys2Proof.Machine.execMboxCount d a place s
  | .depsig fb => Sys2Proof.Machine.execDepsig fb s
  | .waypt fb => Sys2Proof.Machine.execWaypt fb s
  | .mldb a b fmt fb => Sys2Proof.Machine.execMldb a b fmt fb s
  | .mldbComplete op => Sys2Proof.Machine.execMldbComplete op s
  | .mldbFault op => Sys2Proof.Machine.execMldbFault op s
  | .mma f => Sys2Proof.Machine.execMma f s
  | .mmaWriteback op => Sys2Proof.Machine.execMmaWriteback op s
  | .mmaFault op => Sys2Proof.Machine.execMmaFault op s
  | .mzero b fb => Sys2Proof.Machine.execMzero b fb s
  | .mrd d a b ty rnd sat fb => Sys2Proof.Machine.execMrd d a b ty rnd sat fb s
  | .mwr a b c ty fb => Sys2Proof.Machine.execMwr a b c ty fb s
  | .mst f => Sys2Proof.Machine.execMst f s
  | .mwait b fb => Sys2Proof.Machine.execMwait b fb s
  | .sread d n => Sys2Proof.Machine.execSread d n s
  | .swrite a n => Sys2Proof.Machine.execSwrite a n s
  | .trap imm => Sys2Proof.Machine.execTrap imm s
  | .rftRetry => Sys2Proof.Machine.execRftRetry s
  | .rftNext => Sys2Proof.Machine.execRftNext s
  | .rftAbort => Sys2Proof.Machine.execRftAbort s
  | .mappg d a b fb => Sys2Proof.Machine.execMappg d a b fb s
  | .tlbinvPage a fb => Sys2Proof.Machine.execTlbinvPage a fb s
  | .tlbinvContext a fb => Sys2Proof.Machine.execTlbinvContext a fb s
  | .ctxsv a fb => Sys2Proof.Machine.execCtxsv a fb s
  | .porterSpill group => Sys2Proof.Machine.execPorterSpill group s
  | .porterRefill group => Sys2Proof.Machine.execPorterRefill group s
  | .tokenSpill group => Sys2Proof.Machine.execTokenSpill group s
  | .tokenReadback group => Sys2Proof.Machine.execTokenReadback group s
  | .tlbWalk reticle => Sys2Proof.Machine.execTlbWalk reticle s
  | .requestAtHome op => Sys2Proof.Machine.execRequestAtHome op s
  | .refusalRetry op => Sys2Proof.Machine.execRefusalRetry op s
  | .atomicRepeatTimeout op => Sys2Proof.Machine.execAtomicRepeatTimeout op s
  | .atomicRepeatPathLost op => Sys2Proof.Machine.execAtomicRepeatPathLost op s
  | .l1WriteBack core line => Sys2Proof.Machine.execL1WriteBack core line s
  | .l1Invalidation core line => Sys2Proof.Machine.execL1Invalidation core line s
  | .subscriberLineInstall core line => Sys2Proof.Machine.execSubscriberLineInstall core line s
  | .droverMigration reticle line => Sys2Proof.Machine.execDroverMigration reticle line s
  | .retentionEntry a => Sys2Proof.Machine.execRetentionEntry a s
  | .retentionExit a => Sys2Proof.Machine.execRetentionExit a s
  | .flitDelivery flit => Sys2Proof.Machine.execFlitDelivery flit s
  | .creditGrant group port => Sys2Proof.Machine.execCreditGrant group port s
  | .linkRetry link => Sys2Proof.Machine.execLinkRetry link s
  | .linkStateChange link st => Sys2Proof.Machine.execLinkStateChange link st s
  | .peerAccessTimeout op => Sys2Proof.Machine.execPeerAccessTimeout op s
  | .endRequestArrival launch => Sys2Proof.Machine.execEndRequestArrival launch s
  | .ctxsuspSuspend ctx => Sys2Proof.Machine.execCtxsuspSuspend ctx s
  | .ctxsuspResume ctx => Sys2Proof.Machine.execCtxsuspResume ctx s
  | .preemptSave team => Sys2Proof.Machine.execPreemptSave team s
  | .teamRestore team => Sys2Proof.Machine.execTeamRestore team s
  | .uncorrectableError site => Sys2Proof.Machine.execUncorrectableError site s
  | .snapshotCopy page => Sys2Proof.Machine.execSnapshotCopy page s
  | .rollback launch => Sys2Proof.Machine.execRollback launch s
  | .convoyMatch group => Sys2Proof.Machine.execConvoyMatch group s
  | .convoyMismatch team => Sys2Proof.Machine.execConvoyMismatch team s
  | .commitLogFull team => Sys2Proof.Machine.execCommitLogFull team s
  | .assayerReplay team => Sys2Proof.Machine.execAssayerReplay team s
  | .eventLogRecord => Sys2Proof.Machine.execEventLogRecord s
  | .checkpoint => Sys2Proof.Machine.execCheckpoint s
  | .ckptcmdCheckpoint => Sys2Proof.Machine.execCkptcmdCheckpoint s
  | .attcmdQuote => Sys2Proof.Machine.execAttcmdQuote s
  | .biasFlipStart v => Sys2Proof.Machine.execBiasFlipStart v s
  | .biasFlipComplete => Sys2Proof.Machine.execBiasFlipComplete s
  | .migrationStart v => Sys2Proof.Machine.execMigrationStart v s
  | .migrationLineCopy => Sys2Proof.Machine.execMigrationLineCopy s
  | .migrationComplete => Sys2Proof.Machine.execMigrationComplete s
  | .devrstReset => Sys2Proof.Machine.execDevrstReset s
  | .powerOn => Sys2Proof.Machine.execPowerOn s
  | .powerLoss => Sys2Proof.Machine.execPowerLoss s
  | .partLost part => Sys2Proof.Machine.execPartLost part s
  | .hostPortReturn => Sys2Proof.Machine.execHostPortReturn s
  | .thermalThrottle reticle => Sys2Proof.Machine.execThermalThrottle reticle s
  | .thermalShutdown => Sys2Proof.Machine.execThermalShutdown s
  | .hostBar2Access off size data => Sys2Proof.Machine.execHostBar2Access off size data s
  | .jibuegHostSnoop line => Sys2Proof.Machine.execJibuegHostSnoop line s
  | .jibuegNegotiation up => Sys2Proof.Machine.execJibuegNegotiation up s
  | .pwrcapWrite reticle v => Sys2Proof.Machine.execPwrcapWrite reticle v s
  | .assayctlWrite v => Sys2Proof.Machine.execAssayctlWrite v s
  | .irqcauseClear v => Sys2Proof.Machine.execIrqcauseClear v s
  | .registerWrite off v => Sys2Proof.Machine.execRegisterWrite off v s
  | .coalescedWindowEnd unit cause => Sys2Proof.Machine.execCoalescedWindowEnd unit cause s

end Sys2Proof.Machine
end

