-- ==== Sys2Proof/Machine/Schedule.lean ====
section
/-! DEFINITION. Which step comes next: the ready groups of each port, the enabled steps of the dispatcher, the engines,
the memory hierarchy and the device's edge, and what the outside world presents (R24, R25, R151 to R155). -/
namespace Sys2Proof.Machine

/-! ## Groups that may issue -/

/-- A group whose launch is to be rolled back, or whose convoy has differed, issues nothing until that is carried out
(R375, R380). -/
def frozen (s : State) (g : Group) : Bool :=
  match s.team? g.team with
  | none => true
  | some t =>
    ((s.tree (s.root t.launch)).any fun k => ((s.launch? k).map (·.rollback)).getD false)
      || s.convoys.any fun (v : Convoy) => (v.lead == g.team || v.escort == g.team) && v.mismatched

/-- The launch of a group has its status (R359): its clauses in progress end and no other starts. -/
def fixed (s : State) (g : Group) : Bool :=
  (((s.team? g.team).bind fun t => s.launch? t.launch).map fun l => l.status.isSome).getD true

/-- The instruction at the position of a group that is issuing. -/
def fetched (s : State) (gid : Nat) : Option Instr := do
  let c ← s.ctx? gid
  if c.g.phase ≠ .issuing then none
  decode? (← codeAt c.r (c.g.hdr.toNat + 8 * c.g.idx))

/-- The state in which a group's instruction runs. -/
def State.select (s : State) (gid : Nat) : State := { s with cur := gid }

/-- A row leaves the state as it is. -/
def idleRow (i : Instr) (s : State) : Bool :=
  match exec i s with
  | .next t => decide (t = s)
  | _ => false

/-- The row that starts or resumes a group's clause. -/
def clauseRow (gid : Nat) (g : Group) : Option Instr :=
  match g.phase with
  | .boundary => some (if g.idx = 0 then .clauseIssue gid else .clauseResume gid)
  | .waiting => some (.clauseResume gid)
  | _ => none

/-- The index at which a group's clause goes on. -/
def Group.startIdx (g : Group) : Nat := if g.idx = 0 then 1 else g.idx

/-- The instruction of a group at which its clause starts or resumes would do more than wait as before. -/
def progresses (s : State) (gid : Nat) (g : Group) : Bool :=
  match (clauseRow gid g).map fun i => exec i s with
  | some (.next t) =>
    match fetched t gid with
    | none => g.phase == .boundary
    | some i =>
      match exec i (t.select gid) with
      | .next u =>
        let back (x : Group) : Group :=
          { x with phase := g.phase, readyAt := g.readyAt, clauses := g.clauses, idx := if x.idx = g.startIdx then g.idx else x.idx }
        decide (u.modGroup gid back ≠ s.select gid)
      | _ => true
  | _ => false

/-- An instruction word that reads a receive port, a full-empty load or a barrier wait (R152). -/
def blocking (w : Word) : Bool :=
  match decode? w with
  | some (.ldfe _) | some (.barw ..) => true
  | some i => i.cls == some .alu && [40, 25, 10].any fun k => 0xC4 ≤ fld w.toNat k 8 && fld w.toNat k 8 < 0xC8
  | none => false

/-- The instruction at which a group's clause starts has a blocking operand. -/
def blockingStart (s : State) (g : Group) : Bool :=
  match (s.team? g.team).bind fun t => (s.launch? t.launch).bind fun l => l.region.bind s.region? with
  | some r => ((codeAt r (g.hdr.toNat + 8 * g.startIdx)).map blocking).getD false
  | none => false

/-- A group that is ready for its next clause, or for resuming one (R152): a clause that waits, or one that starts at a
blocking operand, is ready once the instruction there no longer waits. -/
def groupReady (s : State) (e : Nat × Group) : Bool :=
  match clauseRow e.1 e.2 with
  | none => false
  | some i => !frozen s e.2 && !fixed s e.2 && !idleRow i s &&
      (!(e.2.phase == .waiting || blockingStart s e.2) || progresses s e.1 e.2)

/-- The ready groups. -/
def readyGroups (s : State) : List (Nat × Group) := s.groups.filter (groupReady s)

/-- The effective priority of a group's launch (R75). -/
def groupPrio (s : State) (g : Group) : Nat :=
  (((s.team? g.team).bind fun t => s.launch? t.launch).map (·.prio)).getD 0

/-- Group a comes before group b on a port (R153). -/
def comesBefore (s : State) (a b : Group) : Bool :=
  let p := groupPrio s a
  let q := groupPrio s b
  decide (q < p) || (p == q && (decide (a.readyAt < b.readyAt) || (a.readyAt == b.readyAt && decide (a.coreSlot < b.coreSlot))))

/-- Two groups compete for one port of one core. -/
def samePort (s : State) (a b : Group) : Bool :=
  placeOfGroup s a == placeOfGroup s b && groupPort s a == groupPort s b

/-- The groups whose clauses the ports start next (R153). -/
def winners (s : State) (ready : List (Nat × Group)) : List (Nat × Group) :=
  ready.filter fun e => !ready.any fun x => samePort s x.2 e.2 && comesBefore s x.2 e.2

/-- The groups in a clause, on their ports. -/
def issuers (s : State) : List (Nat × Group) :=
  s.groups.filter fun e => e.2.phase == .issuing && !frozen s e.2

/-! ## Rows that may come next -/

/-- A row and the group it runs for; a device step runs for none. -/
structure Row where
  group : Option Nat
  instr : Instr
  deriving DecidableEq, Repr

/-- The state a row runs in. -/
def Row.before (r : Row) (s : State) : State :=
  match r.group with
  | some g => s.select g
  | none => s

def Row.run (r : Row) (s : State) : Host.Outcome State Fault Refusal := exec r.instr (r.before s)

/-- Rows that the launches await. -/
def launchRows (s : State) : List Instr :=
  s.launches.flatMap fun e =>
    [.endRequestArrival e.1, .endLaunch e.1, .teamDispatch e.1, .regionLoad e.1, .launchRetire e.1]
      ++ if e.2.rollback then [.rollback e.1] else []

/-- Rows of the dispatcher's queues, mailboxes, regions and warm slots. -/
def dispatcherRows (s : State) : List Instr :=
  s.queues.map (fun e => .queueSlotAccept (Fin.ofNat 64 e.1))
    ++ s.boxes.map (fun e => .handlerLaunch e.1)
    ++ s.regions.map (fun e => .regionRelease e.1)
    ++ s.warm.map (fun e => .warmSlotStaged (BitVec.ofNat 8 e.1))

/-- Rows about one group. -/
def groupRows (e : Nat × Group) : List Instr :=
  [.pauseExpiry e.1, .porterSpill e.1, .porterRefill e.1, .tokenSpill e.1, .tokenReadback e.1, .fenceLinkTimeout e.1,
   .convoyMatch e.1]
    ++ e.2.streams.map (fun (x : Nat × Stream) => .outriderFetch e.1 (Fin.ofNat 8 x.1))
    ++ e.2.tx.map (fun (x : Nat × TxPort) => .creditGrant e.1 (Fin.ofNat 4 x.1))

/-- Rows about one operation in flight, by what it is. -/
def opRows (e : Nat × Op) : List Instr :=
  match e.2.instr with
  | .bcopy _ => [.bcopyFirstBeat e.1, .bcopyComplete e.1, .bcopyFault e.1]
  | .coll _ _ => [.collComplete e.1, .collFault e.1]
  | .mldb _ _ _ _ => [.mldbComplete e.1, .mldbFault e.1]
  | .mma _ => [.mmaWriteback e.1, .mmaFault e.1]
  | .atom _ | .atomu _ =>
    [.requestAtHome e.1, .refusalRetry e.1, .instructionComplete e.1, .atomicRepeatTimeout e.1, .peerAccessTimeout e.1]
  | _ => [.requestAtHome e.1, .refusalRetry e.1, .instructionComplete e.1, .peerAccessTimeout e.1]

/-- Rows of the memory hierarchy. -/
def fabricRows (f : Fabric) : List Instr :=
  f.walks.map (fun w => .tlbWalk (Fin.ofNat 48 w.reticle))
    ++ f.inval.map (fun (e : Nat × Nat × Option (List Byte)) =>
        if e.2.2.isSome then .subscriberLineInstall (BitVec.ofNat 12 e.1) e.2.1 else .l1Invalidation (BitVec.ofNat 12 e.1) e.2.1)
    ++ f.drover.map (fun e => .droverMigration (Fin.ofNat 48 e.reticle) e.line)
    ++ f.peerReqs.map (fun (e : Nat × PeerReq) => .requestAtHome e.1)
    ++ f.retained.map (fun a => .retentionExit a)

/-- Rows of saving, recovery, the log and the edge. -/
def recoveryRows (s : State) : List Instr :=
  s.teams.map (fun e => .preemptSave e.1)
    ++ s.saved.map (fun e => .teamRestore e.1)
    ++ (s.snaps.filter (·.wanted)).map (fun x => .snapshotCopy x.page)
    ++ s.convoys.flatMap (fun (v : Convoy) => [.convoyMismatch v.lead, .commitLogFull v.lead])
    ++ s.assay.map (fun (x : AssayStream) => .assayerReplay x.team)
    ++ s.log.windows.map (fun w => .coalescedWindowEnd w.unit w.cause)
    ++ (if s.dev.attBusy then [.attcmdQuote] else [])
    ++ [.eventLogRecord, .checkpoint, .biasFlipComplete, .migrationLineCopy, .migrationComplete]

/-- Every row of the device that may be enabled. -/
def deviceRows (s : State) : List Instr :=
  launchRows s ++ dispatcherRows s ++ s.groups.flatMap groupRows ++ s.ops.flatMap opRows
    ++ s.flits.map (fun (e : Nat × Nat × Nat × Flit) => .flitDelivery e.1) ++ fabricRows s.fab ++ recoveryRows s

/-- The enabled rows: an issuing group's instruction, the start of a clause on a port, a step of the device. Until bring-up has
made the device ready, none is (R402). -/
def enabledRows (s : State) : List Row :=
  if s.dev.stage ≠ 9 then []
  else (issuers s).filterMap (fun e => (fetched s e.1).map fun i => ⟨some e.1, i⟩)
    ++ (winners s (readyGroups s)).filterMap (fun e => (clauseRow e.1 e.2).map fun i => ⟨none, i⟩)
    ++ ((deviceRows s).filter fun i => !idleRow i s).map fun i => ⟨none, i⟩

/-- The row that comes next; where several are enabled the device's choice is open. -/
def nextRow (s : State) : Option Row :=
  match enabledRows s with
  | [] => none
  | [r] => some r
  | rs => rs[Config.pick s.tick % rs.length]?

/-! ## What the outside world presents -/

/-- Rows that the host, the board, the links or a cause the spec leaves open start; every other row is the device's own. -/
def isOutside : Instr → Bool
  | .qtailWrite _ _ | .qctlEnable _ _ | .abortHead _ | .rewrite _ | .qcackWrite _ _ | .qstatClearStopped _
  | .warmSlotImageWrite _ _ | .mailboxFiring _ | .atomicRepeatPathLost _ | .l1WriteBack _ _ | .retentionEntry _
  | .linkRetry _ | .linkStateChange _ _ | .ctxsuspSuspend _ | .ctxsuspResume _ | .uncorrectableError _
  | .ckptcmdCheckpoint | .attcmdQuote | .biasFlipStart _ | .migrationStart _ | .devrstReset | .powerOn | .powerLoss
  | .partLost _ | .hostPortReturn | .thermalThrottle _ | .thermalShutdown | .hostBar2Access _ _ _
  | .jibuegHostSnoop _ | .jibuegNegotiation _ | .pwrcapWrite _ _ | .assayctlWrite _ | .irqcauseClear _
  | .registerWrite _ _ => true
  | _ => false

/-! ## Around a row -/

/-- The clock goes on in every reticle of a powered device (R24). -/
def advanceClock (s : State) : State :=
  let dev := if s.dev.powered then
      { s.dev with cycles := (List.range 48).foldl (fun m r =>
          SMap.put m r (SMap.get 0 s.dev.cycles r + 1 + BitVec.ofNat 64 (Config.cycles s.tick r))) s.dev.cycles }
    else s.dev
  { s with tick := s.tick + 1, dev }

/-- A group as a step leaves it: its clause-ready time is the first step in which it is ready for the clause, and stays when
another clause takes its port; until then it is the next step at the earliest (R152, R154). -/
def agedGroup (ready : Bool) (tick gid : Nat) (g : Group) : Group :=
  if (clauseRow gid g).isNone then { g with wasReady := false }
  else if ready then { g with wasReady := true }
  else if g.wasReady then g
  else { g with readyAt := tick + 1 }

def agedGroups (ready : List Nat) (tick : Nat) (gs : SMap Group) : SMap Group :=
  gs.map fun (e : Nat × Group) => (e.1, agedGroup (ready.contains e.1) tick e.1 e.2)

/-- What a step does after its row: teams that are over retire (R159), the porters' moves are triggered (R166), the groups
that were not ready age, the clock goes on. -/
def afterRow (s t : State) : State :=
  let t := if t.dev.stage = 9 then retrigger (settleTeams t) else t
  let ready := (readyGroups s).map (·.1)
  advanceClock { t with groups := agedGroups ready s.tick t.groups }

/-- A row's outcome with what the step does after it. -/
def finishRow (s : State) (o : Host.Outcome State Fault Refusal) : Host.Outcome State Fault Refusal :=
  match o with
  | .next t => .next (afterRow s t)
  | .fault x => .fault x
  | .refused x => .refused x

/-- An enabled row, else only the clock goes on. -/
def ownStep (s : State) : Host.Outcome State Fault Refusal :=
  match nextRow s with
  | some r => finishRow s (r.run s)
  | none => finishRow s (.next s)

/-- What the outside world presents next; snoops that the loss of the host port holds back stay for later. -/
def nextInput (s : State) : Option Instr := s.inputs.find? fun i => !snoopHeld s i

/-- One step: what the outside world presents, unless it is an access of the host that waits, else a step of the device's
own. -/
def nextStep (s : State) : Host.Outcome State Fault Refusal :=
  match nextInput s with
  | some i =>
    if isOutside i && hostWaits s i then ownStep s
    else
      let s' := { s with inputs := s.inputs.erase i }
      finishRow s' (if isOutside i then exec i s' else .next s')
  | none => ownStep s

/-! ## Placing an instruction where the next step runs it -/

/-- A launch record of one team of one 64-lane group with a ring of 128. -/
def fetchRecord : BitVec 1024 := BitVec.ofNat 1024 (63 * 2 ^ 128 + 3 * 2 ^ 138 + 3 * 2 ^ 152)

/-- The header of a clause of one instruction word. -/
def fetchHeader (w : Word) : Word :=
  let cls := (opClass (opOf w)).getD .alu
  BitVec.ofNat 64 (Header.pack { cls, count := 0, wait := 0, setA := none, setB := none, yield := false })

/-- One launch with one group in the clause that holds the word, at that word. -/
def withWord (s : State) (w : Word) : State :=
  { s with
    inputs := [], dev := { s.dev with powered := true, stage := 9 }, queues := [], warm := [], boxes := [], ops := [], saved := [],
    flits := [], snaps := [], convoys := [], assay := [], porter := [],
    fab := { s.fab with walks := [], missed := [], inval := [], drover := [], retained := [], flip := none, move := none,
                        weak := [], tickets := [], peerReqs := [] },
    log := { s.log with reports := [], stored := none, next := 0 },
    launches := [(1, { record := fetchRecord, origin := .child 0 0, queue := 0, seq := 0, ctx := 0, prio := 0, region := some 2,
                       tablesRead := true, dispatched := [0], ran := true })],
    regions := [(2, { ctx := 0, image := 0, origin := 0, rows := 1, cols := 1, map := [(0, 0)], code := [fetchHeader w, w],
                      table := [0], images := [] })],
    teams := [(3, { launch := 1, index := 0, place := 0, logical := 0, spadSize := 0, nslots := 0, ntiles := 0, segs := [0] })],
    groups := [(4, { team := 3, slot := 0, width := 64, idx := 1, phase := .issuing, exec := fullMask 64, live := fullMask 64,
                     ring := 128, wlim := 0x00E0000000000000 })],
    nextId := max 5 s.nextId }

end Sys2Proof.Machine
end

