-- ==== Sys2Proof/Machine/Step.lean ====
section
/-! DEFINITION. One step of the machine, and the state whose next step runs a given word. -/
namespace Sys2Proof.Machine

/-- One step of the device. -/
def step (s : State) : Host.Outcome State Fault Refusal := nextStep s

/-- The state with the instruction of these bits where the next step fetches one: in the clause of the only group. -/
def State.withFetchWord (s : State) (nbits w : Nat) : State := withWord s (BitVec.ofNat 64 (w % 2 ^ nbits))

end Sys2Proof.Machine
end

