-- ==== Sys2Proof/Safety.lean ====
section
/-! DEFINITION. What counts as a well-formed state and a safe run, in the terms that statements use. -/
namespace Sys2Proof.Machine

/-! ## States and runs -/

/-- Memory is in its canonical form. -/
def State.MemCanonical (s : State) : Prop := Memory.wf s.mem = true

/-- A step that goes on. -/
def State.Runs (s : State) : Prop := ∃ t, step s = .next t

/-- A run of n steps that never stops. -/
def State.RunsFor : Nat → State → Prop
  | 0, _ => True
  | n + 1, s => ∃ t, step s = .next t ∧ t.RunsFor n

/-! ## Instructions -/

/-- The group `State.cur` is in a clause, on its port, and c is what its instruction runs in. -/
def Issues (s : State) (c : Ctx) : Prop := s.ctx? s.cur = some c ∧ c.g.phase = .issuing

/-- After an instruction's effect on the state: the flags of the stream vectors that it popped are raised, and nothing is
held for it any longer (R69, R261). -/
def Ctx.ended (c : Ctx) (s : State) : State := c.settled (c.raisePopped s)

/-- The instruction has ended, and the group goes on to the next one of its clause, or to the next clause (R123, R124). -/
def Ctx.done (c : Ctx) (s : State) : State := c.advance (c.ended s)

/-- The instruction named by a row is one that a group issues; every other row is a step of the device. -/
def Instr.Issued (i : Instr) : Prop := (encode i).isSome = true

/-- The results of an elementwise operation, lane by lane (R139). -/
def laneResults (c : Ctx) (x : Sources) (op : Nat → Nat → Nat → Flagged Nat) : List (Nat × Flagged Nat) :=
  (lanes c.g.exec).map fun l => (l, op (x.a l) (x.b l) (x.c l))

/-- A vector destination takes its results in the active lanes, and the flags they raise are added to FPSTAT. -/
def Group.withLanes (g : Group) (wide : Bool) (n : Nat) (rs : List (Nat × Flagged Nat)) : Group :=
  { rs.foldl (fun g e => g.writeLane wide n e.1 e.2.val) g with fpstat := g.fpstat ||| orFp (rs.map (·.2.fp)) }

/-! ## What an access sees -/

/-- Two states agree on what a group cannot reach through its registers: everything but the groups' table. -/
def SameButGroups (s t : State) : Prop := t = { s with groups := t.groups }

/-- Every group but one is as it was. -/
def OthersKept (s t : State) (gid : Nat) : Prop := ∀ k, k ≠ gid → t.group? k = s.group? k

/-- The trap registers of a group are as they were (R355). -/
def SameTrapState (g h : Group) : Prop :=
  h.trapCause = g.trapCause ∧ h.trapPc = g.trapPc ∧ h.trapMask = g.trapMask ∧ h.trapAddr = g.trapAddr ∧ h.trapInfo = g.trapInfo
    ∧ h.trapExec = g.trapExec ∧ h.sup = g.sup

end Sys2Proof.Machine
end

