-- ==== Sys2Proof/Certificates/Slice0/Obligations.lean ====
section
/-! DEFINITION. Statements about the W48 for the provers, from the spec's numbered rules. -/
namespace Sys2Proof.Claims

open Sys2Proof.Machine

/-! ## Elementwise instructions -/

/-- An elementwise instruction: its operate fields, the widths of its operands, its operation on one lane. -/
structure AluRow where
  f : OForm
  sh : Shape
  op : Nat → Nat → Nat → Flagged Nat

/-- The exact integer result of one lane, fitted to the type (R204). -/
def fitted (f : OForm) (v : Nat → Nat → Int) : Nat → Nat → Nat → Flagged Nat :=
  perElem f.ty fun a b _ => fit f.ty f.sat (v a b)

/-- The elementwise instructions of R203, R210, R211 and R219 with the operation that its rule gives each; SEL and LEA,
whose operands have rules of their own, stand apart. -/
def aluRow : Instr → Option AluRow
  | .add f => some ⟨f, shape2 f.ty, fitted f fun a b => ival f.ty a + ival f.ty b⟩
  | .sub f => some ⟨f, shape2 f.ty, fitted f fun a b => ival f.ty a - ival f.ty b⟩
  | .mul f => some ⟨f, shape2 f.ty, fitted f fun a b => ival f.ty a * ival f.ty b⟩
  | .mulh f => some ⟨f, shape2 f.ty, fun a b _ =>
      .pure (patOf (2 * tyBits f.ty) (ival f.ty a * ival f.ty b) / 2 ^ tyBits f.ty)⟩
  | .mad f => some ⟨f, shape3 f.ty, fun a b c =>
      let p := fit f.ty f.sat (ival f.ty a * ival f.ty b)
      let r := fit f.ty f.sat (ival f.ty p.val + ival f.ty c)
      ⟨r.val, p.fp ||| r.fp⟩⟩
  | .and f => some ⟨f, shape2 f.ty, fun a b _ => .pure ((a &&& b) % 2 ^ tyBits f.ty)⟩
  | .or f => some ⟨f, shape2 f.ty, fun a b _ => .pure ((a ||| b) % 2 ^ tyBits f.ty)⟩
  | .xor f => some ⟨f, shape2 f.ty, fun a b _ => .pure ((a ^^^ b) % 2 ^ tyBits f.ty)⟩
  | .andn f => some ⟨f, shape2 f.ty, fun a b _ => .pure ((a ^^^ (a &&& b)) % 2 ^ tyBits f.ty)⟩
  | .shl f => some ⟨f, ⟨f.ty.is64, some f.ty, some .n32, none⟩, fun a k _ =>
      .pure (if k < tyBits f.ty then a * 2 ^ k % 2 ^ tyBits f.ty else 0)⟩
  | .shr f => some ⟨f, ⟨f.ty.is64, some f.ty, some .n32, none⟩, fun a k _ =>
      .pure (if k < tyBits f.ty then a % 2 ^ tyBits f.ty / 2 ^ k else 0)⟩
  | .sar f => some ⟨f, ⟨f.ty.is64, some f.ty, some .n32, none⟩, fun a k _ =>
      .pure (patOf (tyBits f.ty) (sext (tyBits f.ty) a / (2 ^ min k (tyBits f.ty - 1) : Nat)))⟩
  | .rot f => some ⟨f, ⟨f.ty.is64, some f.ty, some .n32, none⟩, fun a k _ =>
      .pure ((a * 2 ^ (k % tyBits f.ty) % 2 ^ tyBits f.ty) ||| (a % 2 ^ tyBits f.ty / 2 ^ (tyBits f.ty - k % tyBits f.ty)))⟩
  | .min f => some ⟨f, shape2 f.ty, perElem f.ty fun a b _ => .pure (if ival f.ty b < ival f.ty a then b else a)⟩
  | .max f => some ⟨f, shape2 f.ty, perElem f.ty fun a b _ => .pure (if ival f.ty a < ival f.ty b then b else a)⟩
  | .abs f => some ⟨f, shape1 f.ty, perElem f.ty fun a _ _ => fit f.ty f.sat (ival f.ty a).natAbs⟩
  | .neg f => some ⟨f, shape1 f.ty, perElem f.ty fun a _ _ => fit f.ty f.sat (-ival f.ty a)⟩
  | .clz f => some ⟨f, ⟨false, some f.ty, none, none⟩, fun a _ _ => .pure (clzOf (tyBits f.ty) a)⟩
  | .popc f => some ⟨f, ⟨false, some f.ty, none, none⟩, fun a _ _ => .pure (popcOf (tyBits f.ty) a)⟩
  | .brev f => some ⟨f, shape1 f.ty, fun a _ _ => .pure (brevOf (tyBits f.ty) a)⟩
  | .bfe f => some ⟨f, ⟨f.ty.is64, some f.ty, some .n32, some .n32⟩, fun a b c => .pure (bfeOf f.ty a b c)⟩
  | .bfi f => some ⟨f, ⟨f.ty.is64, some f.ty, some f.ty, some .n32⟩, fun a b c => .pure (bfiOf (tyBits f.ty) a b c)⟩
  | .mov f => some ⟨f, shape1 f.ty, fun a _ _ => .pure a⟩
  | .idot4 f =>
      let t : Ty := if tySigned f.ty then .i32 else .n32
      let e (x i : Nat) : Int := ival f.ty (x / 2 ^ (8 * i) % 256)
      some ⟨f, ⟨false, some f.ty, some f.ty, some t⟩, fun a b c =>
        fit t f.sat (e a 0 * e b 0 + e a 1 * e b 1 + e a 2 * e b 2 + e a 3 * e b 3 + ival t c)⟩
  | .movi f => let o := immForm f
      some ⟨o, ⟨false, none, none, none⟩, fun _ _ _ => .pure (immOf f % 2 ^ tyBits o.ty)⟩
  | .addi f => let o := immForm f
      some ⟨o, ⟨false, some o.ty, none, none⟩, fun a _ _ => .pure ((a + immOf f % 2 ^ tyBits o.ty) % 2 ^ tyBits o.ty)⟩
  | .andi f => let o := immForm f
      some ⟨o, ⟨false, some o.ty, none, none⟩, fun a _ _ => .pure ((a &&& immOf f % 2 ^ tyBits o.ty) % 2 ^ tyBits o.ty)⟩
  | .ori f => let o := immForm f
      some ⟨o, ⟨false, some o.ty, none, none⟩, fun a _ _ => .pure ((a ||| immOf f % 2 ^ tyBits o.ty) % 2 ^ tyBits o.ty)⟩
  | .cmpi f => let g : IForm := { f with a := ⟨f.a.spec, .none, 0⟩ }
      let o := immForm g
      let n := if immUni f then 64 else 32
      some ⟨o, ⟨false, some o.ty, none, none⟩, fun a _ _ =>
        .pure (if cmpiCond n f.a.par.toNat a (immOf f % 2 ^ n) then 2 ^ n - 1 else 0)⟩
  | .fadd f => some ⟨f, shape2 f.ty, perElem f.ty fun a b _ => float2 f addVal a b⟩
  | .fsub f => some ⟨f, shape2 f.ty, perElem f.ty fun a b _ => float2 f (fun m x y => addVal m x (negVal y)) a b⟩
  | .fmul f => some ⟨f, shape2 f.ty, perElem f.ty fun a b _ => float2 f (fun _ x y => mulVal x y) a b⟩
  | .ffma f => some ⟨f, shape3 f.ty, perElem f.ty (fmaOf f)⟩
  | .fmin f => some ⟨f, shape2 f.ty, perElem f.ty fun a b _ => minOf (tyFmt f.ty) f.ftz false a b⟩
  | .fmax f => some ⟨f, shape2 f.ty, perElem f.ty fun a b _ => minOf (tyFmt f.ty) f.ftz true a b⟩
  | .fminnm f => some ⟨f, shape2 f.ty, perElem f.ty fun a b _ => minNumOf (tyFmt f.ty) f.ftz false a b⟩
  | .fmaxnm f => some ⟨f, shape2 f.ty, perElem f.ty fun a b _ => minNumOf (tyFmt f.ty) f.ftz true a b⟩
  | .fclass f => some ⟨f, ⟨false, some f.ty, none, none⟩, fun a _ _ => .pure (2 ^ classOf (tyFmt f.ty) f.ftz a)⟩
  | .frnd f => some ⟨f, shape1 f.ty, perElem f.ty fun a _ _ => frndOf (tyFmt f.ty) f.rnd f.ftz a⟩
  | .fabs f => some ⟨f, shape1 f.ty, perElem f.ty fun a _ _ => .pure (a % (tyFmt f.ty).signBit)⟩
  | .fneg f => some ⟨f, shape1 f.ty, perElem f.ty fun a _ _ => .pure (a ^^^ (tyFmt f.ty).signBit)⟩
  | .fdiv f => some ⟨f, shape2 f.ty, perElem f.ty fun a b _ => divOf f a b⟩
  | .fsqrt f => some ⟨f, shape1 f.ty, perElem f.ty fun a _ _ => sqrtOf f a⟩
  | .fdot2 f => some ⟨f, ⟨false, some f.ty, some f.ty, some .f32⟩, dot2Of f⟩
  | .fexp2f f => some ⟨f, shape1 f.ty, fun a _ _ => exp2Of f.rnd f.ftz a⟩
  | .flog2m f => some ⟨f, shape1 f.ty, fun a _ _ => log2mOf f.rnd f.ftz a⟩
  | .frcp f => some ⟨f, shape1 f.ty, fun a _ _ => rcpOf (tyFmt f.ty) f.rnd f.sat f.ftz a⟩
  | .frsq f => some ⟨f, shape1 f.ty, fun a _ _ => rsqOf (tyFmt f.ty) f.rnd f.ftz a⟩
  | .fsinpi f => some ⟨f, shape1 f.ty, fun a _ _ => sinPiOf f.rnd f.ftz a⟩
  | .fcospi f => some ⟨f, shape1 f.ty, fun a _ _ => cosPiOf f.rnd f.ftz a⟩
  | .fldexp f => some ⟨f, ⟨f.ty.is64, some f.ty, some .n32, none⟩, fun a b _ => ldexpOf f (a % 2 ^ tyBits f.ty) b⟩
  | .fgetexp f => some ⟨f, ⟨false, some f.ty, none, none⟩, fun a _ _ => getexpOf (tyFmt f.ty) f.ftz a⟩
  | .fgetman f => some ⟨f, shape1 f.ty, perElem f.ty fun a _ _ =>
      float1 (tyFmt f.ty) f.ftz (fun q => fres (tyFmt f.ty) .rne false f.ftz (.fin (q.shift (-q.exp)))) a⟩
  | .fcvt f => some ⟨f, ⟨f.ty.is64, some (srcTy f), none, none⟩, fun a _ _ => fcvtOf f (a % 2 ^ tyBits (srcTy f))⟩
  | .itof f => some ⟨f, ⟨f.ty.is64, some (srcTy f), none, none⟩, fun a _ _ =>
      fres (tyFmt f.ty) f.rnd f.sat false (.ofInt (ival (srcTy f) (a % 2 ^ tyBits (srcTy f))))⟩
  | .ftoi f => some ⟨f, ⟨f.ty.is64, some (srcTy f), none, none⟩, fun a _ _ => ftoiOf f (a % 2 ^ tyBits (srcTy f))⟩
  | _ => none

/-- The sources of an operate-format instruction that its row uses, with the widths they are read at. -/
def usedSources (f : OForm) (sh : Shape) : List (Src × Ty) :=
  [(sh.a, f.a), (sh.b, f.b), (sh.c, ⟨f.c, .none, 0⟩)].filterMap fun e => e.1.map fun t => (e.2, t)

/-- The sources as the registers give them. -/
def registerSources (c : Ctx) (f : OForm) (sh : Shape) (s : State) : Sources :=
  let val (t : Option Ty) (x : Src) : Nat → Nat := match t with | none => fun _ => 0 | some t => srcVal c.g t x .nothing
  ⟨val sh.a f.a, val sh.b f.b, val sh.c ⟨f.c, .none, 0⟩, s⟩

/-- The address x is that of a clause header of the region, at a (R171). -/
def TargetAt (c : Ctx) (x : Int) (a : BitVec 32) : Prop := x = (a.toNat : Int) ∧ isHeaderAt c.r a.toNat = true

/-- Whether BRA takes its jump (R175). -/
def braTaken (sub : BraSub) (m exec : Mask) : Bool :=
  match sub with | .all => m == exec | .any => m != 0 | .none => m == 0

/-- A group that has pushed a token and gone on to its next clause. -/
def pushed (c : Ctx) (t : Token) (s : State) : State :=
  (s.setGroup c.gid { c.g with tokens := t :: c.g.tokens, wantTok := false }).modGroup c.gid fun g => g.goto c.nextClause s.tick

/-- What a group holds for one instruction alone, once that instruction has ended: its flags are raised and the rest is gone. -/
def freed (g : Group) : Group :=
  { g with fpstat := g.fpstat ||| g.popFp, absent := [], kept := [], popFp := 0, popSubst := 0, launchRec := none,
           peerStart := none }

/-- Where `path_end` leaves a group with no spilled token: at the path it found, or ended. -/
def pathEnded (e : Bool × Group) : Group :=
  if e.1 then { e.2 with spilledTok := 0 } else { e.2 with spilledTok := 0 }.finish

/-- The limit of R167 for a CALL of k registers: the call depth, and the window stack with the tokens that are spilled once
the call has settled, within the backing area. -/
def CallFits (g : Group) (k : Nat) : Prop :=
  g.depth ≠ 65535 ∧ g.wbp.toNat + 4 * g.width * (g.base + 112 + k) + 32 * (g.tokens.length + g.spilledTok + 1 - 16) ≤ g.wlim.toNat

/-- The group's tokens as R161 searches them for a LOOP token of the current depth: IF tokens of that depth alone, inside a token
that ends the search, or none outside them. -/
def OutOfLoops (g : Group) : Prop :=
  ∃ inner outer : List Token, g.tokens = inner ++ outer ∧ (∀ x ∈ inner, x.kind = .cond ∧ x.depth.toNat = g.depth) ∧
    (outer = [] ∧ g.spilledTok = 0 ∨ ∃ t ∈ outer.head?, t.kind = .call ∨ t.depth.toNat ≠ g.depth)


/-- Every specifier of a comparison but its destination is checked by `readSources`; the destination is an s register. The
mask that a vector comparison writes: its active lanes in which it holds (R207). -/
def maskWhere (c : Ctx) (x : Sources) (op : Nat → Nat → Flagged Bool) : Mask :=
  maskOf ((lanes c.g.exec).filter fun l => (op (x.a l) (x.b l)).val)

/-- The flags that the active lanes of a vector comparison raise. -/
def flagsWhere (c : Ctx) (x : Sources) (op : Nat → Nat → Flagged Bool) : BitVec 7 :=
  orFp ((lanes c.g.exec).map fun l => (op (x.a l) (x.b l)).fp)

/-- A comparison: its fields and its condition on two values. -/
def comparisonRow : Instr → Option (OForm × (Nat → Nat → Flagged Bool))
  | .cmp f => some (f, fun a b => .pure (cmpCond (constNat f.c) (ival f.ty a) (ival f.ty b)))
  | .fcmp f => some (f, fcmpOf (tyFmt f.ty) f.ftz (constNat f.c))
  | _ => none

/-- A conversion between a value and an element under a scale (R223, R224). -/
def quantRow : Instr → Option (QForm × (Nat → Nat → Flagged Nat))
  | .qcvt f => some (f, qcvtOf f)
  | .dqcvt f => some (f, dqcvtOf f)
  | _ => none

/-- The counter that an instruction counts on is below its limit of 63 (R125). -/
def CounterFree (c : Ctx) (i : Instr) : Prop := ∀ k, c.flag i = some k → c.g.flagCount k.val < 63

/-- An instruction is counted on its flag (R125). -/
def counted (c : Ctx) (i : Instr) (s : State) : State :=
  match c.flag i with
  | none => s
  | some k => s.setGroup c.gid { c.g with flags := SMap.set 0 c.g.flags k.val (c.g.flagCount k.val + 1) }

/-- A counted instruction that completes at issue is counted up and down. -/
def countedOnce (c : Ctx) (i : Instr) (s : State) : State :=
  (counted c i s).modGroup c.gid fun g => g.uncount (c.flag i)

/-- No counted instruction of the group that is still in flight writes a register of i (R127). -/
def DestFree (c : Ctx) (i : Instr) (s : State) : Prop :=
  s.destBusy c.gid s.nextId (destKeys c.g.base c.g.sup i) = false

/-- A counted operation enters the table of operations in flight. -/
def inFlight (c : Ctx) (i : Instr) (o : Op) (s : State) : State :=
  { counted c i s with ops := SMap.put s.ops s.nextId { o with sentAt := s.cycle (reticleOf c.t.place) }, nextId := s.nextId + 1 }

/-- A cross-lane instruction's operation, on the frame in which its lanes are present (R190). -/
structure CrossRow where
  f : OForm
  /-- Whether its operand specifiers are of their columns' classes (R189). -/
  ok : Ctx → Bool
  /-- Its effect for a member mask; `none` where the lane it names is not a member. -/
  effect : Ctx → Mask → Option (State → State)

/-- The effect of a fold: what the lanes take from its partial results, and the flags that its steps raise (R191, R192). -/
def foldEffect (c : Ctx) (f : OForm) (run : List (Flagged Nat)) (vals : List (Nat × Nat)) (s : State) : State :=
  (putLanes c f.d f.ty.is64 vals s).raiseFp c.gid (orFp (run.map (·.fp)))

def crossRow : Instr → Option CrossRow
  | .shfl f => some ⟨f, fun c => vDst c f.d f.ty.is64 && crossSrc c f f.a f.ty.is64 && crossSrc c f f.b false, fun c m =>
      some (putLanes c f.d f.ty.is64 ((lanes m).map fun l =>
        let k := laneOf c.g .n32 f.b l
        (l, laneOf c.g f.ty f.a (if k < c.g.width ∧ m.getLsbD k then k else l))))⟩
  | .vote f => some ⟨f, fun c => isSReg f.d && crossSrc c f f.a false, fun c m =>
      let b := maskOf ((lanes m).filter fun l => laneOf c.g .n32 f.a l ≠ 0)
      some (putLanes c f.d true [(0, (if m = 0 then 0 else voteResult (constOf f.b) m b).toNat)])⟩
  | .elect f => some ⟨f, fun _ => isSReg f.d, fun c m =>
      some (putLanes c f.d true [(0, (match lanes m with | l :: _ => BitVec.ofNat 64 (2 ^ l) | [] => 0).toNat)])⟩
  | .redux f => some ⟨f, fun c => (isSReg f.d || vDst c f.d f.ty.is64) && crossSrc c f f.a f.ty.is64, fun c m =>
      match (lanes m).map (laneOf c.g f.ty f.a) with
      | [] => some id
      | x :: xs =>
        let run := foldRun f (constOf f.b) (foldStart f (constOf f.b) x) xs
        some (foldEffect c f run ((lanes m).map fun l => (l, ((run.getLast?).map (·.val)).getD 0)))⟩
  | .scan f => some ⟨f, fun c => vDst c f.d f.ty.is64 && crossSrc c f f.a f.ty.is64, fun c m =>
      match (lanes m).map (laneOf c.g f.ty f.a) with
      | [] => some id
      | x :: xs =>
        let k := constOf f.b
        let run := if k < 9 then foldRun f k (foldStart f k x) xs else foldRun f (k - 9) (.pure (foldIdentity f.ty (k - 9))) (x :: xs)
        some (foldEffect c f run ((lanes m).zip (run.map (·.val))))⟩
  | .bcast f => some ⟨f, fun c => (isSReg f.d || vDst c f.d f.ty.is64) && crossSrc c f f.a f.ty.is64 && laneSpec f.b, fun c m =>
      let k := laneValue c.g f.b
      if m = 0 then some id
      else if 0 ≤ k ∧ k < c.g.width ∧ m.getLsbD k.toNat then
        some (putLanes c f.d f.ty.is64 ((lanes m).map fun l => (l, laneOf c.g f.ty f.a k.toNat)))
      else none⟩
  | .setlane f => some ⟨f, fun c => vDst c f.d f.ty.is64 && (f.a.pat == .none && f.a.par == 0 &&
        (match f.a.spec with | .s _ | .int _ | .neg _ | .fp _ => true | _ => false)) && laneSpec f.b, fun c m =>
      let k := laneValue c.g f.b
      if m = 0 then some id
      else if 0 ≤ k ∧ k < c.g.width ∧ m.getLsbD k.toNat then
        some (putLanes c f.d f.ty.is64 [(k.toNat, laneOf c.g f.ty f.a 0)])
      else none⟩
  | _ => none

/-- A group that enters its handler (R352). -/
def Entered (g : Group) (x : Trap) (tick : Nat) : Group :=
  { g with trapCause := x.cause, trapPc := pcReg g.hdr g.idx, trapMask := x.mask.getD g.exec, trapAddr := x.addr, trapInfo := x.info,
           trapExec := g.exec, sup := true, hdr := g.handler, idx := 0, fromHdr := g.hdr, fromIdx := g.idx, phase := .boundary,
           readyAt := tick, wasReady := false }

/-- What an instruction held goes with its trap. -/
def unheld (g : Group) : Group := { g with absent := [], kept := [], popFp := 0, popSubst := 0, launchRec := none,
                                           peerStart := none }

/-- The dispatcher hears of the tag of the poison that a trap consumed (R385). -/
def tagged (c : Ctx) (x : Trap) (s : State) : State := if x.cause = 0x0F then reportTag c.t.launch x.info s else s

/-- The trap registers as a trap of the program writes them (R352). -/
def Trapped (g : Group) (x : Trap) : Group :=
  { g with trapCause := x.cause, trapPc := pcReg g.hdr g.idx, trapMask := x.mask.getD g.exec, trapAddr := x.addr, trapInfo := x.info,
           trapExec := g.exec }

/-- A group back from its handler, at a code position (R358). -/
def Returned (g : Group) (hdr : BitVec 32) (idx tick : Nat) : Group :=
  { g with sup := false, exec := g.trapExec &&& g.live, streams := g.streams.map fun (e : Nat × Stream) => (e.1, e.2.soundPart),
           hdr, idx, fromHdr := g.hdr, fromIdx := g.idx, phase := .boundary, readyAt := tick }


/-- A load or store instruction with its form and data register (R263, R264). -/
def loadRow : Instr → Option (Form × Spec × Bool)
  | .ld f => some (MForm.form f false, f.data, f.aux)
  | .ldu f => some (MForm.form f true, f.data, f.aux)
  | _ => none

def storeRow : Instr → Option (Form × Spec)
  | .st f => some (MForm.form f false, f.data)
  | .stu f => some (MForm.form f true, f.data)
  | _ => none

def atomRow : Instr → Option (AForm × Bool)
  | .atom f => some (f, false)
  | .atomu f => some (f, true)
  | _ => none

/-- A store's flags, and its substitute bit, once it has issued. -/
def stored (c : Ctx) (f : Form) (st : Stored) (s : State) : State :=
  let s := (endFenceRel c f s).raiseFp c.gid st.fp
  if st.subst then s.raiseSubst c.lid f.recIx else s

/-- The operands of an atomic's lanes, as its operation keeps them. -/
def atomVals (c : Ctx) (f : AForm) (once : Bool) (p : Plan) : List (Nat × Word) :=
  (p.lanes.map (·.lane)).flatMap fun l =>
    [(64 + l, BitVec.ofNat 64 (atomOperands c.g f once l).1), (128 + l, BitVec.ofNat 64 (atomOperands c.g f once l).2)]

/-- The operation of an atomic before it has requests. -/
def atomOp (c : Ctx) (i : Instr) (f : AForm) (once : Bool) (p : Plan) : Op :=
  { c.op i with record := p.record, rel := (AForm.form f once).relScope c.g, vals := atomVals c f once p }

/-- The requests of an atomic carry its core's next tags in lane order (R278). -/
def atomReqs (c : Ctx) (p : Plan) (locs : List Located) (s : State) : List LaneReq :=
  (loadReqs p locs).zipIdx.map fun (r, n) =>
    { r with kind := .atomic, tag := some (SMap.get 0 s.fab.atomTag c.t.place + BitVec.ofNat 16 n) }

/-- A core has drawn tags for an atomic's requests, from the next one of a state on, and the FENCE before it has ended. -/
def tagsTaken (c : Ctx) (f : AForm) (once : Bool) (p : Plan) (s0 s : State) : State :=
  endFenceRel c (AForm.form f once) (s.setFab { s.fab with
    atomTag := SMap.set 0 s.fab.atomTag c.t.place (SMap.get 0 s0.fab.atomTag c.t.place + BitVec.ofNat 16 p.lanes.length) })

/-- The one performance of an atomic whose bytes both sides of a convoy share (R376): its checks, its requests as one, and its
results with the flags they raise; where it meets poison, the trap. -/
def atomShared (c : Ctx) (f : AForm) (once : Bool) (far : List Piece) (o : Op) (reqs : List Located → List LaneReq) (s : State) :
    Res (List (Nat × Word) × State) := do
  let locs ← checkAccess s (c.who s) .atomic (AForm.form f once).fires far
  awaitCopies locs s
  if anyBlocked s (globalLocs locs) then .error (.wait s)
  let (x, s) ← serveNow { o with reqs := (reqs locs).filter fun r => !r.bytes.isEmpty } s
  match poisonTrap (c.who s) x.poison with
  | some t => .error (.trap t)
  | none => .ok (x.res ++ [(1000, x.fp.zeroExtend 64)], settleEverywhere s (globalLocs locs))

/-- What an access acquires when it completes. -/
def acquired (f : Form) (gid core : Nat) (s : State) : State := if f.strong && f.acquires then acquireAt s gid core f.scope else s

/-- A write of this device to a location may reach a byte: where the location lies now, its page moving or not. -/
def Reaches (f : Fabric) (p a : Nat) : Prop := forwarded f p = a ∨ forwarded f (forwarded f p) = a

/-- The addresses that an operation, or an instruction's read, asks for. -/
def askedBy (o : Op) : List Nat := o.reqs.flatMap fun r => (if r.scales.isEmpty then r.bytes else r.scales).map (·.2)


/-- The one reading of a command record, whose checks are made with it (R349): the operation's identity, and the record. -/
def collAsked (c : Ctx) (i : Instr) (p : Word) (w : Who) (s : State) : Res (List (Nat × Word) × State) := do
  let (bs, s) ← readStructIf false c i .i p 64 s
  let r := BitVec.ofNat 512 (leNat bs)
  let x := Command.ofBits (r.setWidth 320)
  guardOp (commandOk r c.l.teams && (apertureOf (ptrAddr x.src)).kind != 1 && (apertureOf (ptrAddr x.dst)).kind != 1)
  if 1 < x.devices ∧ c.l.prot then trap Cause.protection
  if x.src.toNat % x.size ≠ 0 then trap Cause.alignment (reportAddr w.stackBase c.g.stackSlot x.src.toNat)
  if x.dst.toNat % x.size ≠ 0 then trap Cause.alignment (reportAddr w.stackBase c.g.stackSlot x.dst.toNat)
  rangeCheck w [(.load, x.src, x.srcCount c.l.teams * x.size), (.store, x.dst, x.dstCount c.l.teams * x.size)]
  if (holdLines s (collHeld s w c.l.teams x c.t.index)).isNone then .error (.wait s)
  .ok (namedOp s.nextId :: (List.range 8).map (fun (k : Nat) => (k + 1, r.extractLsb' (64 * k) 64)), s)

/-- Two command records are of one collective (R349). -/
def sameCollective (x y : Command) : Prop :=
  x.opc = y.opc ∧ x.red = y.red ∧ x.fmt = y.fmt ∧ x.count = y.count ∧ x.root = y.root ∧ x.devices = y.devices


/-- The slots an MMA reads: its K rows from its first slot on, in the format that slot holds (R299). -/
def mmaSlots (c : Ctx) (f : XForm) : List Nat :=
  (List.range (slotsFor (32 * (f.chunks.toNat + 1)) (Slot.format (c.t.slotTag f.slot.toNat)))).map fun i => (f.slot.toNat + i) % 128

/-- The slots are valid, hold rows enough of one format and no poison (R301). -/
def mmaSlotsOk (c : Ctx) (f : XForm) : Prop :=
  let b := Slot.format (c.t.slotTag f.slot.toNat)
  slotsOwn c.t f.slot.toNat (mmaSlots c f).length = true ∧
    ∀ x ∈ (mmaSlots c f).zipIdx, Slot.valid (c.t.slotTag x.1) = true ∧ Slot.poisoned (c.t.slotTag x.1) = false ∧
      Slot.format (c.t.slotTag x.1) = b ∧ min (slotRows b) (32 * (f.chunks.toNat + 1) - x.2 * slotRows b) ≤ Slot.rows (c.t.slotTag x.1)

/-- What MRD writes of a tile word: F16 and BF16 are rounded, every other type is as it stands (R312). -/
def rowResult (ty : Ty) (rnd : Rnd) (sat : Bool) (x : Nat) : Flagged Nat :=
  if ty = .f16 ∨ ty = .bf16 then
    let r := roundTo (tyFmt ty) (decodeFloat .f32 x) rnd sat
    ⟨r.val.getD 0, r.fp⟩
  else .pure x

/-- The tile word that MWR makes of an operand: F16 and BF16 widen exactly (R312). -/
def rowWord (ty : Ty) (v : Nat) : Flagged Nat :=
  if ty = .f16 ∨ ty = .bf16 then
    let r := roundTo .f32 (decodeFloat (tyFmt ty) (v % 2 ^ 16)) .rne false
    ⟨r.val.getD 0, r.fp⟩
  else .pure v

/-! ### The porter -/

/-- The row of the table that does a porter move. -/
def moveRow (gid : Nat) : PorterMove → Instr
  | .spill | .writeBack => .porterSpill gid
  | .refill => .porterRefill gid
  | .tokenSpill => .tokenSpill gid
  | .tokenReadback => .tokenReadback gid

/-- What a move needs beyond its turn: a spill's granule has nothing yet to be written to it, and a token is there to go. -/
def Movable (s : State) (g : Group) (m : Move) : Prop :=
  (m.kind = .spill → granuleAwaited s m.group m.off = false) ∧ (m.kind = .tokenSpill → g.tokens ≠ [])

/-- What MBOX.UNBIND asks of the device, once for a convoy (R95, R376). -/
def unbindAsked (c : Ctx) (line : Word) (s : State) : Res (List (Nat × Word) × State) := do
  let (k, x) ← namedBox c line s
  .ok ([(0, BitVec.ofNat 64 x.total)],
    { s with boxes := if x.launched = x.total then SMap.del s.boxes k else SMap.put s.boxes k { x with bound := false } })

/-- What MBOX.COUNT asks: the total, with the firings that await their launch above it. -/
def countAsked (c : Ctx) (line : Word) (s : State) : Res (List (Nat × Word) × State) := do
  let (_, x) ← namedBox c line s
  .ok ([(0, BitVec.ofNat 64 (x.total % 2 ^ 32 + (x.total - x.launched) * 2 ^ 32))], s)

/-- What MBOX.BIND asks, its record pointer aligned. -/
def bindAsked (c : Ctx) (i : Instr) (line rec : Word) (place : Nat) (s : State) : Res (List (Nat × Word) × State) := do
  boxAligned c rec 64 s
  bindAt c i line rec place s

/-- The taking of a receive queue's oldest flit: its payload and header, or poison's trap (R337, R340, R370). -/
def flitTaken (c : Ctx) (n : Nat) (s : State) : Res (List (Nat × Word) × State) :=
  match (s.group? c.gid).bind fun g => (g.rx.find? fun e => e.1 = n).map fun e => (g, e) with
  | none => .error (.wait s)
  | some (g, e) => match e.2.tag with
    | some tag => .error (.trap { cause := Cause.poisonConsumed, info := BitVec.ofNat 23 (4096 + tag.toNat) })
    | none =>
      let t := s.setGroup c.gid { g with rx := g.rx.erase e }
      .ok ([(0, e.2.payload), (1, e.2.hdr)], if e.2.hdr.getLsbD 16 then acquireAt t c.gid c.t.place .device else t)


/-- The instructions that have no access to memory, but for the spilled tokens that BRK, CONT and EXIT may write: control,
elementwise, comparison, conversion and cross-lane ones. -/
def RegisterOnly (i : Instr) : Prop :=
  i.isControl = true ∨ (∃ r, aluRow i = some r ∧ ∀ n, r.f.d ≠ .txq n) ∨ (∃ r, comparisonRow i = some r) ∨
    (∃ r, quantRow i = some r ∧ ∀ n, r.1.d ≠ .txq n) ∨ (∃ r, crossRow i = some r) ∨
    (∃ f, (i = .sel f ∨ i = .lea f) ∧ ∀ n, f.d ≠ .txq n) ∨ (∃ f, i = .qscale f ∧ ∀ n, f.d ≠ .txq n) ∨
    (∃ d n, i = .sread d n) ∨ (∃ a n, i = .swrite a n) ∨ (∃ n, i = .trap n)

/-- No engine works on a command. -/
def EnginesIdle (s : State) : Prop := ∀ k o, s.op? k = some o → isEngineOp o.instr = false

/-- A group that its convoy takes back to the waypoint: as it was saved there, but for the queues of the message network, the
counts of R378 and R380, and what its re-execution takes from the log. -/
def TakenBack (old g : Group) (tick : Nat) : Group :=
  { g with rx := old.rx, tx := old.tx, mismatches := old.mismatches + 1, waypoints := old.waypoints, readyAt := tick, wasReady := false,
           lvq := [], popFp := 0, popSubst := 0, launchRec := none, offer := none, matched := false, convResult := none,
           convTrap := none, kept := [] }

/-- The byte of a page at an offset, through the page's physical ranges. -/
def pageByte (parts : List (Nat × Nat)) (o : Nat) : Nat := ((parts[o / 4096]?).map (·.1)).getD 0 + o % 4096

end Sys2Proof.Claims

open Sys2Proof Sys2Proof.Machine Sys2Proof.Claims

/-! ## Words -/

/-- R118 to R134, R141: every well-formed instruction that has a word has it in 64 bits, with no header's signature, and the
word decodes to the instruction with all its fields. -/
def Obligations.DecodeEncode : Prop :=
  ∀ (i : Instr) (n : Nat), i.wf = true → encode i = some n →
    n < 2 ^ 64 ∧ isHeaderWord (BitVec.ofNat 64 n) = false ∧ decode? (BitVec.ofNat 64 n) = some i

/-- R119, R121, R141: a header's word gives its fields back; a word that decodes is the word of a well-formed instruction, and
no header word or word of an unassigned opcode decodes. -/
def Obligations.CodeWordsRead : Prop :=
  (∀ h : Header, isHeaderWord (BitVec.ofNat 64 h.pack) = true ∧ decodeHeader (BitVec.ofNat 64 h.pack) = some h) ∧
  (∀ (w : Word) (i : Instr), decode? w = some i → i.wf = true ∧ encode i = some w.toNat ∧ isHeaderWord w = false ∧
    opcodeAssigned (fld w.toNat 56 8) = true)

/-- Words that the spec writes out, or that its encoding tables give bit by bit, decode to what they stand for. -/
def Obligations.WordsOfSpec : Prop :=
  decodeTableWord 64 0x6009840004000008 = some (.ld ⟨.v 9, .s 4, 64, 0, .i, .page, .relaxed, .none, .b4, false, false⟩) ∧
  decodeTableWord 64 0x3307098208001500 = some (.ffma
    { d := .v 7, a := ⟨.v 9, .bfly, 1⟩, b := ⟨.v 4, .none, 0⟩, c := .v 5, ty := .f32, rnd := .rne, sat := false, ftz := false,
      uni := false }) ∧
  decodeTableWord 64 0x27850801C6038800 = some (.cmp
    { d := .s 5, a := ⟨.v 8, .none, 0⟩, b := ⟨.int 3, .none, 0⟩, c := .int 2, ty := .i32, rnd := .rne, sat := false, ftz := false,
      uni := false }) ∧
  decodeTableWord 64 0x0283000000000005 = some (.brd (.s 3) 5) ∧
  decodeTableWord 64 0x03E0000000000000 = some .tokenIf ∧
  decodeTableWord 64 0x04E0000000000006 = some (.joinIf 6) ∧
  decodeTableWord 64 0x0BE0000000000000 = some (.exit (.int 0)) ∧
  decodeTableWord 64 0x6B0486000000000A = some (.venc ⟨.v 4, .s 6, 0, 0, .i, .page, .relaxed, .none, .b4, true, false⟩) ∧
  decodeTableWord 64 0x7900000000000002 = some (.depsig true) ∧
  decodeTableWord 64 0x7A00000000000002 = some (.waypt true) ∧
  decodeTableWord 64 0x90B8000000001000 = some (.sread (.s 56) 4) ∧
  decodeTableWord 64 0x920000000000002A = some (.trap 0x2A) ∧
  decodeTableWord 64 0x93000001C0000000 = some .rftRetry ∧
  decodeTableWord 64 0x94BBB90178000000 = some (.mappg (.s 59) (.s 57) (.s 60) false) ∧
  decodeTableWord 64 0 = none ∧ decodeTableWord 64 0x4F00000000000000 = none ∧ decodeTableWord 64 0xFC80001780000000 = none

/-! ## The machine around an instruction -/

/-- R24, R123, R151: a step takes what the outside world presents first, unless it is an access of the host that waits, and
otherwise one enabled row. A group in a clause
has the row of the instruction that the word at its position decodes to, and a step that takes that row is the instruction's
effect for that group, then the settling of teams and the clock. No other row is a group's, and where nothing is enabled only
the clock goes on.

Where the spec leaves a point of this open the statement is of the model: log entries 2, 5, 15, 16 and 59. -/
def Obligations.StepRunsDecoded : Prop :=
  ∀ s : State,
    (∀ (gid : Nat) (c : Ctx) (w : Word) (i : Instr), s.ctx? gid = some c → c.g.phase = .issuing → frozen s c.g = false →
      codeAt c.r (c.g.hdr.toNat + 8 * c.g.idx) = some w → decode? w = some i →
        s.dev.stage = 9 → ⟨some gid, i⟩ ∈ enabledRows s ∧
        (s.inputs = [] → nextRow s = some ⟨some gid, i⟩ → step s = finishRow s (exec i (s.select gid))) ∧
        (s.inputs = [] → enabledRows s = [⟨some gid, i⟩] → step s = finishRow s (exec i (s.select gid)))) ∧
    (∀ r ∈ enabledRows s, ∀ gid, r.group = some gid → ∃ c w, s.ctx? gid = some c ∧ c.g.phase = .issuing ∧
      codeAt c.r (c.g.hdr.toNat + 8 * c.g.idx) = some w ∧ decode? w = some r.instr) ∧
    (∀ r, s.inputs = [] → nextRow s = some r → r ∈ enabledRows s ∧ step s = finishRow s (r.run s)) ∧
    (s.inputs = [] → enabledRows s ≠ [] → ∃ r, nextRow s = some r) ∧
    (s.inputs = [] → enabledRows s = [] → step s = .next (afterRow s s)) ∧
    (∀ i, nextInput s = some i → let s' := { s with inputs := s.inputs.erase i }
      (isOutside i = true → hostWaits s i = true → step s = ownStep s) ∧
      (isOutside i = true → hostWaits s i = false → step s = finishRow s' (exec i s')) ∧
      (isOutside i = false → step s = finishRow s' (.next s'))) ∧
    (∀ t : State, finishRow s (.next t) = .next (afterRow s t) ∧ (advanceClock t).tick = t.tick + 1 ∧
      (t.dev.powered = true → ∀ r : Fin 48,
        (advanceClock t).cycle r.val = t.cycle r.val + 1 + BitVec.ofNat 64 (Config.cycles t.tick r.val)) ∧
      (t.dev.powered = false → (advanceClock t).dev = t.dev))

/-- Where the machine stops: an instruction of a group that issues always answers a next state, a step of the device does too
but a host access to an address that R232 leaves unbacked, and no step is refused.

Where the spec leaves a point of this open the statement is of the model: log entry 38. -/
def Obligations.StepStops : Prop :=
  (∀ (i : Instr) (s : State) (c : Ctx), Issues s c → (∀ off size d, i ≠ .hostBar2Access off size d) → ∃ t, exec i s = .next t) ∧
  (∀ (i : Instr) (s : State), encode i = none → (∀ off size d, i ≠ .hostBar2Access off size d) → ∃ t, exec i s = .next t) ∧
  (∀ (i : Instr) (s : State) (x : Refusal), exec i s ≠ .refused x) ∧
  (∀ (s : State) (x : Refusal), step s ≠ .refused x) ∧
  (∀ (s : State) (x : Fault), step s = .fault x →
    x = .unbackedAddress ∧ ∃ off size d, nextInput s = some (.hostBar2Access off size d))

/-- R72, R81, R226, R262, R356, R388, R393, R396, R402, R403: the device's registers at reset, read as the host reads them. -/
def Obligations.ResetValues : Prop :=
  (∀ q : Fin 64, (∀ k ∈ [0, 1, 2, 3, 7], registerRead State.reset (0x10000 + 64 * q.val + 8 * k) = 0) ∧
    ∀ k ∈ [4, 5, 6], registerRead State.reset (0x10000 + 64 * q.val + 8 * k) = 0xFFFFFFFF) ∧
  (∀ n : Fin 512, registerRead State.reset (0x20000 + 8 * n.val) = 0) ∧
  (∀ off ∈ [0x30000, 0x30100, 0x30108, 0x30120, 0x30128, 0x30130, 0x30200, 0x30300, 0x30410, 0x30418, 0x30430, 0x30500, 0x30508,
      0x30720, 0x30800, 0x30818], registerRead State.reset off = 0) ∧
  registerRead State.reset 0x30110 = 65536 ∧
  (∀ r : Fin 48, registerRead State.reset (0x30900 + 8 * r.val) = 500) ∧
  (∀ r : Fin 48, SMap.get 8 State.reset.dev.drovthr r.val = 8 ∧ State.reset.cycle r.val = 0) ∧
  State.reset.dev.powered = false

/-- The canonical form of memory holds at reset.

Where the spec leaves a point of this open the statement is of the model: log entry 1. -/
def Obligations.ResetInv : Prop := State.reset.MemCanonical

/-- Every step keeps the canonical form of memory: addresses strictly rise, and no listed byte is the one that an unlisted
address reads as.

Where the spec leaves a point of this open the statement is of the model: log entry 1. -/
def Obligations.StepKeepsMemoryCanonical : Prop :=
  ∀ s t : State, s.MemCanonical → step s = .next t → t.MemCanonical

/-! ## Operands and elementwise instructions -/

/-- R135, R137, R140, R200: sources that are registers, constants or permutations of registers and that pass R135's checks
are read at once, and reading them changes nothing.

R135: a source that fails its check, or whose pattern is illegal, makes the instruction trap as illegal-operand with
nothing popped.

R69, R261: a pop of an open stream whose next vector is fetched, and whose active lanes met no fault, consumes that vector
and gives its lanes; the flags of its conversion, and the bit of its record where an element was substituted, are kept for the
instruction, which raises them when it issues, and raises them once.

Where the spec leaves a point of this open the statement is of the model: log entries 52 and 77. -/
def Obligations.OperandsRead : Prop :=
  (∀ (s : State) (c : Ctx) (f : OForm) (sh : Shape),
     (∀ e ∈ usedSources f sh, srcOk c.g f.uni e.2.is64 e.1 = true ∧ isPort e.1.spec = false) →
       readSources c f sh s = .ok (registerSources c f sh s)) ∧
  (∀ (s : State) (c : Ctx) (f : OForm) (sh : Shape),
     (∃ e ∈ usedSources f sh, srcOk c.g f.uni e.2.is64 e.1 = false) →
       readSources c f sh s = .error (.trap { cause := 0x02 })) ∧
  ((∀ (s : State) (c : Ctx) (g : Group) (l : Launch), s.group? c.gid = some g → s.launch? c.lid = some l →
     (∃ g', (c.ended s).group? c.gid = some g' ∧ g'.fpstat = g.fpstat ||| g.popFp ∧ g'.popFp = 0 ∧ g'.popSubst = 0) ∧
       ∃ l', (c.ended s).launch? c.lid = some l' ∧ l'.subst = l.subst ||| g.popSubst) ∧
   ∀ (s : State) (c : Ctx) (n : Nat) (g : Group) (st : Stream) (v : StreamVec) (rest : List StreamVec),
     s.group? c.gid = some g → SMap.entry? g.streams n = some st → st.ready = true →
     st.pos < streamCount st.desc → st.fetched = v :: rest →
     (∀ l ∈ lanes g.exec, ∀ x, v.lanes[l]? = some x → x.trap = none) →
       popStream c n s = .ok (v.lanes.map (·.val), s.setGroup c.gid { g with
         streams := SMap.put g.streams n { st with pos := st.pos + 1, fetched := rest }, popFp := g.popFp ||| v.fp,
         popSubst := if v.subst = true then g.popSubst ||| BitVec.ofNat 64 (2 ^ (st.desc.extractLsb' 96 6).toNat) else g.popSubst }))

/-- R203, R210, R211, R219 with R139 and R199: an elementwise instruction in its vector form, its sources read, writes each
active lane of its destination with the result of that lane, adds the flags that the active lanes raise to FPSTAT, and goes
on. Lanes outside EXEC keep their values, and nothing else changes.

Where the spec leaves a point of this open the statement is of the model: log entry 61.

Completes, on the conditions stated here on the state and the operands alone: ADD, SUB, MUL, MULH, MAD, AND, OR, XOR, ANDN, SHL, SHR, SAR, ROT, MIN, MAX, ABS, NEG, CLZ, POPC, BREV, BFE, BFI, MOV, MOVI, ADDI, ANDI, ORI, CMPI, IDOT4, FADD, FSUB, FMUL, FFMA, FMIN, FMAX, FMINNM, FMAXNM, FCLASS, FRND, FDIV, FSQRT, FDOT2, FABS, FNEG, FEXP2F, FLOG2M, FRCP, FRSQ, FSINPI, FCOSPI, FLDEXP, FGETEXP, FGETMAN, FCVT, ITOF and FTOI. -/
def Obligations.VectorFormCompletes : Prop :=
  ∀ (i : Instr) (r : AluRow), aluRow i = some r →
    ∀ (s : State) (c : Ctx) (n : Fin 128) (x : Sources), Issues s c → r.f.uni = false → r.f.d = .v n →
      vOk c.g r.sh.d n.val = true → readSources c r.f r.sh s = .ok x →
        exec i s = .next (c.done (x.s.modGroup c.gid fun g => g.withLanes r.sh.d n.val (laneResults c x r.op)))

/-- R139 and R199: an elementwise instruction in its uniform form computes once and writes its s register whole, the result
zero-extended.

R335, R376, R377: in the uniform form a send port is a destination too: the result is sent, once for both sides of a convoy,
and the instruction completes when the send does.

Completes, on the conditions stated here on the state and the operands alone: ADD, SUB, MUL, MULH, MAD, AND, OR, XOR, ANDN, SHL, SHR, SAR, ROT, MIN, MAX, ABS, NEG, CLZ, POPC, BREV, BFE, BFI, MOV, MOVI, ADDI, ANDI, ORI, CMPI, IDOT4, FADD, FSUB, FMUL, FFMA, FMIN, FMAX, FMINNM, FMAXNM, FCLASS, FRND, FDIV, FSQRT, FDOT2, FABS, FNEG, FEXP2F, FLOG2M, FRCP, FRSQ, FSINPI, FCOSPI, FLDEXP, FGETEXP, FGETMAN, FCVT, ITOF and FTOI. -/
def Obligations.UniformFormCompletes : Prop :=
  (∀ (i : Instr) (r : AluRow), aluRow i = some r →
     ∀ (s : State) (c : Ctx) (n : Fin 64) (x : Sources), Issues s c → r.f.uni = true → r.f.d = .s n →
       readSources c r.f r.sh s = .ok x →
         exec i s = .next (c.done ((x.s.modGroup c.gid fun g =>
           g.writeS n.val (BitVec.ofNat 64 (r.op (x.a 0) (x.b 0) (x.c 0)).val)).raiseFp c.gid (r.op (x.a 0) (x.b 0) (x.c 0)).fp))) ∧
  (∀ (i : Instr) (r : AluRow), aluRow i = some r →
     ∀ (s t : State) (c : Ctx) (n : Fin 4) (x : Sources), Issues s c → r.f.uni = true → r.f.d = .txq n → c.g.sup = false →
       readSources c r.f r.sh s = .ok x →
       let v := r.op (x.a 0) (x.b 0) (x.c 0)
       let sig := c.portSig [0x200 + n.val, v.val]
       let send (u : State) : Res (List (Nat × Word) × State) := do
         let u ← sendFlit c n.val (BitVec.ofNat 64 v.val) u
         .ok ([], u)
       (∀ w, performOnce c sig send x.s = .ok (w, t) → exec i s = .next (c.done (t.raiseFp c.gid v.fp))) ∧
       (c.t.side = .solo → sendFlit c n.val (BitVec.ofNat 64 v.val) x.s = .ok t →
         exec i s = .next (c.done ((assayLog c sig [] t).raiseFp c.gid v.fp))))

/-- R139, R199: the frame of an elementwise instruction whose sources are registers or constants. It changes its group alone, where
no stream vector's flags wait to be raised: there its destination in the active lanes, or its s register, FPSTAT, which only gains flags, and its position. -/
def Obligations.ElementwiseFrame : Prop :=
  ∀ (i : Instr) (r : AluRow), aluRow i = some r →
    ∀ (s t : State) (c : Ctx), Issues s c → dstOk c.g r.f.uni r.sh.d r.f.d = true → (∀ n, r.f.d ≠ .txq n) →
      (∀ e ∈ usedSources r.f r.sh, srcOk c.g r.f.uni e.2.is64 e.1 = true ∧ isPort e.1.spec = false) → exec i s = .next t →
      (c.g.popFp = 0 → c.g.popSubst = 0 → SameButGroups s t) ∧ OthersKept s t c.gid ∧ ∃ g, t.group? c.gid = some g ∧ SameTrapState c.g g ∧
        g.su = c.g.su ∧ g.exec = c.g.exec ∧ g.live = c.g.live ∧ g.tokens = c.g.tokens ∧ g.spilledTok = c.g.spilledTok ∧
        g.depth = c.g.depth ∧ g.base = c.g.base ∧ g.flags = c.g.flags ∧ g.handler = c.g.handler ∧ g.streams = c.g.streams ∧
        g.rx = c.g.rx ∧ g.tx = c.g.tx ∧ g.rxhdr = c.g.rxhdr ∧ g.wbp = c.g.wbp ∧ g.wlim = c.g.wlim ∧
        c.g.fpstat ||| g.fpstat = g.fpstat ∧
        (∀ n, r.f.d = .s n → g.vfix = c.g.vfix ∧ g.win = c.g.win ∧ g.reserve = c.g.reserve ∧
          ∀ m, m < 64 → m ≠ n.val → g.readS m = c.g.readS m) ∧
        (∀ n, r.f.d = .v n → g.sregs = c.g.sregs ∧
          ∀ m l, l < 64 → (m ≠ n.val ∧ (r.sh.d = true → m ≠ n.val + 1)) ∨ c.g.exec.getLsbD l = false → g.readV m l = c.g.readV m l)

/-- A register-only instruction changes no byte of memory, no queue, no region, no mailbox and no operation in flight, on any
path: not where it completes, nor where it waits or traps. A pop of a flit with the release bit is an acquire (R340), so no
such flit waits for the group; and the instructions that may read or write a spilled token (R158, R161) are here those of a
group without one.

R161, R180, R184: what BRK, CONT and EXIT write of memory, where the loop's token is a spilled one, are its 32 bytes at the
locations that the porter's checks give of its address, and bytes that their core held dirty; reading spilled tokens and ending
a path write of memory only the latter. -/
def Obligations.RegisterOnlyKeepsMemory : Prop :=
  (∀ (i : Instr) (s t : State), RegisterOnly i →
     (∀ c, s.ctx? s.cur = some c → (∀ e ∈ c.g.rx, e.2.hdr.getLsbD 16 = false) ∧
       ((∃ cond target, i ∈ [Instr.brk cond, .cont cond, .exit cond, .joinLoop cond target, .ret]) → c.g.spilledTok = 0)) → exec i s = .next t →
     (∀ a, Memory.get t.mem a = Memory.get s.mem a) ∧ t.queues = s.queues ∧ t.regions = s.regions ∧ t.boxes = s.boxes ∧ t.ops = s.ops) ∧
  ((∀ (s : State) (c : Ctx) (j a : Nat) (t : Token),
     (∀ locs, porterLocs s (c.who s) [.store] (c.g.tokenPtr j) 32 = .ok locs → ∀ p ∈ locs, ¬ Reaches s.fab p a) →
     (∀ x ∈ dirtyBytes s.fab c.t.place, ¬ Reaches s.fab x.1 a) → Memory.get (writeSpilled c j t s).mem a = Memory.get s.mem a) ∧
   (∀ (s s1 : State) (c : Ctx) (a : Nat), (∀ x ∈ dirtyBytes s.fab c.t.place, ¬ Reaches s.fab x.1 a) →
     (∀ both j t, readSpilled c both j s = .ok (t, s1) → Memory.get s1.mem a = Memory.get s.mem a) ∧
     (∀ n x, seekSpilled c n s = .ok (x, s1) → Memory.get s1.mem a = Memory.get s.mem a) ∧
     ∀ g at_ new, settlePaths c new g at_ s = .ok s1 → Memory.get s1.mem a = Memory.get s.mem a))

/-! ## Control -/

/-- R123, R124, R174: NOP has no effect; the group goes on at the next instruction of its clause, and after the last one at
the header that follows the clause. No other group changes, and nothing but the groups does, where the group has popped no
stream vector whose flags wait to be raised; NOP pops none itself.

Completes, on the conditions stated here on the state and the operands alone: NOP. -/
def Obligations.NopGoesOn : Prop :=
  ∀ (s : State) (c : Ctx), Issues s c →
    exec .nop s = .next (c.done s) ∧ OthersKept s (c.done s) c.gid ∧
      (c.g.popFp = 0 → c.g.popSubst = 0 → SameButGroups s (c.done s)) ∧
      (c.g.idx ≤ c.h.count.val → (c.done s).group? c.gid = some { freed c.g with idx := c.g.idx + 1, phase := .issuing }) ∧
      (c.h.count.val < c.g.idx → (c.done s).group? c.gid =
        some { freed c.g with hdr := c.g.hdr + BitVec.ofNat 32 (8 * (c.h.count.val + 2)), idx := 0, fromHdr := c.g.hdr,
                              fromIdx := c.g.idx, phase := .boundary, readyAt := s.tick,
                              wantRing := if c.g.sup = true then c.g.wantRing else 0, wantTok := c.g.sup && c.g.wantTok,
                              wb := if c.g.sup = true then c.g.wb else none })

/-- R175: BRA jumps to a clause header where its condition holds of the mask, traps as illegal-target where the target is no
header, and goes on otherwise; it never changes EXEC or the token stack. TRAPADDR of an illegal target is the 64-bit sum of log
entry 45.

Where the spec leaves a point of this open the statement is of the model: log entry 45.

Completes, on the conditions stated here on the state and the operands alone: BRA. -/
def Obligations.BranchAll : Prop :=
  ∀ (s : State) (c : Ctx) (sub : BraSub) (cond : Spec) (target a : BitVec 32) (m : Mask), Issues s c → condMask c cond = .ok m →
    (braTaken sub m c.g.exec = true → TargetAt c (c.target target) a →
      exec (.bra sub cond target) s = .next (c.ended (c.jump c.g a s))) ∧
    (braTaken sub m c.g.exec = true → (∀ b, ¬ TargetAt c (c.target target) b) →
      exec (.bra sub cond target) s =
        .next (c.takeTrap { cause := 0x03, addr := BitVec.ofInt 64 (c.target target) } (c.settled s))) ∧
    (braTaken sub m c.g.exec = false → exec (.bra sub cond target) s = .next (c.ended (c.jump c.g c.nextClause s)))

/-- R132, R171: EXEC where the condition field is 0xE0, an s register's bits within EXEC, and an illegal operand otherwise.

R177: BRD goes on where no lane takes it, jumps where every lane does, and otherwise records the taken lanes and the
target in the innermost token, an unused IF token of the current depth, and lets the other lanes fall through. A target that
is no header is illegal-target, with the 64-bit sum of log entry 45 as its address, and another innermost token
illegal-convergence.

R176, R167: TOKEN.IF and TOKEN.LOOP push a token of the current depth while a token slot is free and the tokens spilled
once the push has settled fit above the window stack; with no slot free they wait for the porter, and past the limit they trap
as window-overflow. The join of a LOOP token is the address of the JOIN.LOOP that ends the clause at the target; a target that
is no clause header, or whose clause ends in another instruction, is illegal-target, with the 64-bit sum of log entry 45 as its
address.

Where the spec leaves a point of this open the statement is of the model: log entry 45.

Completes, on the conditions stated here on the state and the operands alone: BRD, TOKEN_IF and TOKEN_LOOP. -/
def Obligations.DivergentBranches : Prop :=
  (∀ c : Ctx, condMask c (.int 0) = .ok c.g.exec ∧ (∀ n : Fin 64, condMask c (.s n) = .ok (c.g.readS n.val &&& c.g.exec)) ∧
     ∀ x : Spec, x ≠ .int 0 → isSReg x = false → condMask c x = .error (.trap { cause := 0x02 })) ∧
  (∀ (s : State) (c : Ctx) (cond : Spec) (target : BitVec 32) (m : Mask), Issues s c → condMask c cond = .ok m →
     (m = 0 → exec (.brd cond target) s = .next (c.ended (c.jump c.g c.nextClause s))) ∧
     (m ≠ 0 → (∀ a, ¬ TargetAt c (c.target target) a) →
       exec (.brd cond target) s = .next (c.takeTrap { cause := 0x03, addr := BitVec.ofInt 64 (c.target target) } (c.settled s))) ∧
     (∀ a, m ≠ 0 → TargetAt c (c.target target) a →
       (m = c.g.exec → exec (.brd cond target) s = .next (c.ended (c.jump c.g a s))) ∧
       (m ≠ c.g.exec → c.g.sup = false →
         (∀ (t : Token) (rest : List Token), c.g.tokens = t :: rest →
           (t.kind = .cond → t.depth.toNat = c.g.depth → t.pending = 0 → t.cont = 0 → exec (.brd cond target) s =
             .next (c.ended (c.jump { c.g with tokens := { t with pending := m, join := a } :: rest, exec := c.g.exec &&& ~~~m }
               c.nextClause s))) ∧
           (t.kind ≠ .cond ∨ t.depth.toNat ≠ c.g.depth ∨ t.pending ≠ 0 ∨ t.cont ≠ 0 →
             exec (.brd cond target) s = .next (c.takeTrap { cause := 0x04 } (c.settled s)))) ∧
         (c.g.tokens = [] → c.g.spilledTok = 0 → exec (.brd cond target) s = .next (c.takeTrap { cause := 0x04 } (c.settled s)))))) ∧
  (∀ (s : State) (c : Ctx), Issues s c → c.g.sup = false →
     let fits : Prop := c.g.tokens.length + c.g.spilledTok < 16 ∨ c.g.wbp.toNat + 4 * c.g.width * (c.g.base + 112) +
       32 * (c.g.tokens.length + c.g.spilledTok + 1 - 16) ≤ c.g.wlim.toNat
     let pushes (i : Instr) (t : Token) : Prop :=
       (fits → c.g.tokens.length < 16 → exec i s = .next (c.ended (pushed c t s))) ∧
       (fits → 16 ≤ c.g.tokens.length → c.g.porterTrap = none →
         exec i s = .next (c.waitHere (s.setGroup c.gid { c.g with wantTok := true }))) ∧
       (¬ fits → exec i s = .next (c.takeTrap { cause := 0x07 } (c.settled s)))
     pushes .tokenIf { kind := .cond, depth := BitVec.ofNat 16 c.g.depth } ∧
     ∀ target : BitVec 32,
       let bad : Trap := { cause := 0x03, addr := BitVec.ofInt 64 (c.target target) }
       ((∀ a, ¬ TargetAt c (c.target target) a) → exec (.tokenLoop target) s = .next (c.takeTrap bad (c.settled s))) ∧
       ∀ (a : BitVec 32) (w x n : Nat), TargetAt c (c.target target) a → (codeAt c.r a.toNat).map (·.toNat) = some w →
         n = fld w 51 4 + 1 → x = a.toNat + 8 * n →
         (∀ (cond : Spec) (back : BitVec 32), (codeAt c.r x).bind decode? = some (.joinLoop cond back) →
           pushes (.tokenLoop target) { kind := .loop, join := BitVec.ofNat 32 x, depth := BitVec.ofNat 16 c.g.depth }) ∧
         ((∀ (cond : Spec) (back : BitVec 32), (codeAt c.r x).bind decode? ≠ some (.joinLoop cond back)) →
           exec (.tokenLoop target) s = .next (c.takeTrap bad (c.settled s))))

/-- R178, R179: a JOIN whose innermost token is absent, of another kind or of another depth traps as illegal-convergence, and
waits while the porter still holds that token.

R178: JOIN.IF runs the pending lanes from where BRD sent them, recording those that have arrived, and with nothing
pending merges the arrived lanes that still live, pops the token and jumps to its target; an illegal target's address is the
64-bit sum of log entry 45.

R179: JOIN.LOOP repeats for the lanes that its condition names and those that CONT recorded; with none of them left it
pops the token and goes on with the lanes that left the loop, or ends its path where none did. An illegal target's address is
the 64-bit sum of log entry 45.

R185 with R160: YIELD exchanges the running lanes with the pending lanes of the innermost IF token of the current depth
whose held bit is clear, and otherwise goes on.

Where the spec leaves a point of this open the statement is of the model: log entry 45.

Completes, on the conditions stated here on the state and the operands alone: JOIN_IF, JOIN_LOOP and YIELD. -/
def Obligations.Joins : Prop :=
  (∀ (s : State) (c : Ctx) (cond : Spec) (target : BitVec 32), Issues s c → c.g.sup = false →
     (c.g.tokens = [] → c.g.spilledTok = 0 → ∀ i ∈ [Instr.joinIf target, .joinLoop cond target],
       exec i s = .next (c.takeTrap { cause := 0x04 } (c.settled s))) ∧
     (c.g.tokens = [] → c.g.spilledTok ≠ 0 → c.g.porterTrap = none → ∀ i ∈ [Instr.joinIf target, .joinLoop cond target, .yield],
       exec i s = .next (c.waitHere s)) ∧
     (∀ (t : Token) (rest : List Token), c.g.tokens = t :: rest →
       (t.kind ≠ .cond ∨ t.depth.toNat ≠ c.g.depth → exec (.joinIf target) s = .next (c.takeTrap { cause := 0x04 } (c.settled s))) ∧
       (t.kind ≠ .loop ∨ t.depth.toNat ≠ c.g.depth → exec (.joinLoop cond target) s = .next (c.takeTrap { cause := 0x04 } (c.settled s))))) ∧
  (∀ (s : State) (c : Ctx) (t : Token) (rest : List Token) (target : BitVec 32), Issues s c → c.g.sup = false →
     c.g.tokens = t :: rest → t.kind = .cond → t.depth.toNat = c.g.depth →
     (t.pending ≠ 0 → exec (.joinIf target) s = .next (c.ended (s.setGroup c.gid
       ({ c.g with exec := t.pending,
                   tokens := { t with cont := t.cont ||| c.g.exec, pending := 0, join := c.here, saved := 0, held := false } :: rest }.resume
         c.r t.join s.tick)))) ∧
     (∀ a, t.pending = 0 → TargetAt c (c.target target) a → exec (.joinIf target) s =
       .next (c.ended (c.jump { c.g with exec := (c.g.exec ||| t.cont) &&& c.g.live, tokens := rest } a s))) ∧
     (t.pending = 0 → (∀ a, ¬ TargetAt c (c.target target) a) → exec (.joinIf target) s =
       .next (c.takeTrap { cause := 0x03, addr := BitVec.ofInt 64 (c.target target) } (c.settled s)))) ∧
  (∀ (s : State) (c : Ctx) (t : Token) (rest : List Token) (cond : Spec) (m : Mask) (target : BitVec 32), Issues s c →
     c.g.sup = false → c.g.tokens = t :: rest → t.kind = .loop → t.depth.toNat = c.g.depth → condMask c cond = .ok m →
     let left := (t.exited ||| (c.g.exec &&& ~~~m)) &&& c.g.live
     ((m ||| t.cont) &&& c.g.live ≠ 0 →
       (∀ a, TargetAt c (c.target target) a → exec (.joinLoop cond target) s =
         .next (c.ended (c.jump { c.g with
           exec := (m ||| t.cont) &&& c.g.live,
           tokens := { t with exited := t.exited ||| (c.g.exec &&& ~~~m), cont := 0 } :: rest } a s))) ∧
       ((∀ a, ¬ TargetAt c (c.target target) a) → exec (.joinLoop cond target) s =
         .next (c.takeTrap { cause := 0x03, addr := BitVec.ofInt 64 (c.target target) } (c.settled s)))) ∧
     ((m ||| t.cont) &&& c.g.live = 0 →
       (left ≠ 0 → exec (.joinLoop cond target) s =
         .next (c.ended (c.jump { c.g with exec := left, tokens := rest } c.nextClause s))) ∧
       (left = 0 → c.g.spilledTok = 0 → exec (.joinLoop cond target) s =
         .next (c.ended (s.setGroup c.gid (pathEnded (pathEnd c.r s.tick rest { c.g with exec := 0, tokens := rest }))))))) ∧
  (∀ (s : State) (c : Ctx), Issues s c → c.g.sup = false →
     (∀ (t : Token) (rest : List Token), c.g.tokens = t :: rest → t.kind = .cond → t.depth.toNat = c.g.depth → t.pending ≠ 0 →
       t.held = false → exec .yield s = .next (c.ended (s.setGroup c.gid
         ({ c.g with exec := t.pending, tokens := { t with pending := c.g.exec, join := c.nextClause } :: rest }.resume c.r t.join
           s.tick)))) ∧
     (∀ (t : Token) (rest : List Token), c.g.tokens = t :: rest →
       t.kind ≠ .cond ∨ t.depth.toNat ≠ c.g.depth ∨ t.pending = 0 ∨ t.held = true →
         exec .yield s = .next (c.ended (c.jump c.g c.nextClause s))) ∧
     (c.g.tokens = [] → c.g.spilledTok = 0 → exec .yield s = .next (c.ended (c.jump c.g c.nextClause s))))

/-- R180, R184: BRK, CONT and EXIT find the nearest resident LOOP token of the current depth past IF tokens of that depth
and record their lanes in it; where lanes remain, the group goes on with them, and where none remain its path ends. EXIT takes
its lanes out of LIVE too, and the group ends where LIVE is empty.

R180, R184: outside every loop, with no token or IF tokens of the current depth alone inside a token that ends the search,
BRK and CONT trap as illegal-convergence; EXIT takes its lanes out of LIVE, its path ends where none of them is left in EXEC,
and the group where none is left at all.

R161: with no loop among the resident tokens BRK, CONT and EXIT search the spilled ones, newest first, up to a token of
another depth or a CALL's. The LOOP token that they find takes the lanes, and its entry in the backing area is written; where
there is none BRK and CONT trap as illegal-convergence. A spilled token is read from its 32 bytes below the area's limit, where
nothing earlier stands in the way.

R158: a path that has ended runs an IF token's pending lanes, or its JOIN where lanes have arrived there, or a loop's
JOIN, and takes a CALL token's return effect; past the resident tokens the spilled ones are taken one by one, and with none left
the group ends. With lanes left nothing of this happens.

Where the spec leaves a point of this open the statement is of the model: log entry 99.

Completes, on the conditions stated here on the state and the operands alone: BRK, CONT and EXIT. -/
def Obligations.LanesLeave : Prop :=
  (∀ (s : State) (c : Ctx) (inner outer : List Token) (t : Token) (cond : Spec) (m : Mask), Issues s c → c.g.sup = false →
     c.g.tokens = inner ++ t :: outer → (∀ x ∈ inner, x.kind = .cond ∧ x.depth.toNat = c.g.depth) →
     t.kind = .loop → t.depth.toNat = c.g.depth → condMask c cond = .ok m →
     let gone := inner ++ { t with exited := t.exited ||| m } :: outer
     let again := inner ++ { t with cont := t.cont ||| m } :: outer
     let ends (g : Group) : Host.Outcome State Fault Refusal :=
       .next (c.ended (s.setGroup c.gid (pathEnded (pathEnd c.r s.tick g.tokens g))))
     (c.g.exec &&& ~~~m = 0 → c.g.spilledTok = 0 →
       exec (.brk cond) s = ends { c.g with tokens := gone, exec := 0 } ∧
       exec (.cont cond) s = ends { c.g with tokens := again, exec := 0 } ∧
       (c.g.live &&& ~~~m ≠ 0 → exec (.exit cond) s = ends { c.g with tokens := gone, live := c.g.live &&& ~~~m, exec := 0 })) ∧
     (c.g.live &&& ~~~m = 0 → exec (.exit cond) s = .next (c.ended (s.setGroup c.gid
       { c.g with tokens := gone, live := 0, exec := 0, phase := .ended, rx := [], tx := [], streams := [] }))) ∧
     (c.g.exec &&& ~~~m ≠ 0 →
       exec (.brk cond) s = .next (c.ended (c.jump { c.g with tokens := gone, exec := c.g.exec &&& ~~~m } c.nextClause s)) ∧
       exec (.cont cond) s = .next (c.ended (c.jump { c.g with tokens := again, exec := c.g.exec &&& ~~~m } c.nextClause s)) ∧
       (c.g.live &&& ~~~m ≠ 0 → exec (.exit cond) s = .next (c.ended (c.jump
         { c.g with tokens := gone, live := c.g.live &&& ~~~m, exec := c.g.exec &&& ~~~m } c.nextClause s))))) ∧
  (∀ (s : State) (c : Ctx) (cond : Spec) (m : Mask), Issues s c → c.g.sup = false → condMask c cond = .ok m → OutOfLoops c.g →
     (∀ i ∈ [Instr.brk cond, .cont cond], exec i s = .next (c.takeTrap { cause := 0x04 } (c.settled s))) ∧
     (c.g.live &&& ~~~m = 0 → exec (.exit cond) s = .next (c.ended (s.setGroup c.gid
       { c.g with live := 0, exec := 0, phase := .ended, rx := [], tx := [], streams := [] }))) ∧
     (c.g.live &&& ~~~m ≠ 0 → c.g.exec &&& ~~~m ≠ 0 → exec (.exit cond) s = .next (c.ended (c.jump
       { c.g with live := c.g.live &&& ~~~m, exec := c.g.exec &&& ~~~m } c.nextClause s))) ∧
     (c.g.live &&& ~~~m ≠ 0 → c.g.exec &&& ~~~m = 0 → c.g.spilledTok = 0 → exec (.exit cond) s = .next (c.ended (s.setGroup c.gid
       (pathEnded (pathEnd c.r s.tick c.g.tokens { c.g with live := c.g.live &&& ~~~m, exec := 0 })))))) ∧
  ((∀ (s s1 s2 : State) (c : Ctx) (cond : Spec) (m : Mask) (j : Nat) (k : Token), Issues s c → c.g.sup = false →
     condMask c cond = .ok m → (∀ x ∈ c.g.tokens, x.kind = .cond ∧ x.depth.toNat = c.g.depth) →
     (seekSpilled c c.g.spilledTok s = .ok (some (j, k), s1) →
       let left := c.g.exec &&& ~~~m
       let gone := { k with exited := k.exited ||| m }
       let again := { k with cont := k.cont ||| m }
       (settlePaths c (some (j, gone)) { c.g with exec := left } c.nextClause s1 = .ok s2 →
         exec (.brk cond) s = .next (c.ended (writeSpilled c j gone s2))) ∧
       (settlePaths c (some (j, again)) { c.g with exec := left } c.nextClause s1 = .ok s2 →
         exec (.cont cond) s = .next (c.ended (writeSpilled c j again s2))) ∧
       (c.g.live &&& ~~~m ≠ 0 →
         settlePaths c (some (j, gone)) { c.g with live := c.g.live &&& ~~~m, exec := left } c.nextClause s1 = .ok s2 →
           exec (.exit cond) s = .next (c.ended (writeSpilled c j gone s2))) ∧
       (c.g.live &&& ~~~m = 0 → exec (.exit cond) s = .next (c.ended (writeSpilled c j gone (s1.setGroup c.gid
         { c.g with live := 0, exec := 0, phase := .ended, rx := [], tx := [], streams := [] }))))) ∧
     (seekSpilled c c.g.spilledTok s = .ok (none, s1) → ∀ i ∈ [Instr.brk cond, .cont cond],
       exec i s = .next (c.takeTrap { cause := 0x04 } (c.settled s)))) ∧
   (∀ (s s1 : State) (c : Ctx) (n : Nat) (t : Token), seekSpilled c 0 s = .ok (none, s) ∧
     (readSpilled c true n s = .ok (t, s1) →
       (t.kind = .loop → t.depth.toNat = c.g.depth → seekSpilled c (n + 1) s = .ok (some (n, t), s1)) ∧
       (t.kind = .call ∨ t.depth.toNat ≠ c.g.depth → seekSpilled c (n + 1) s = .ok (none, s1)) ∧
       (t.kind = .cond → t.depth.toNat = c.g.depth → seekSpilled c (n + 1) s = seekSpilled c n s1))) ∧
   (∀ (s : State) (c : Ctx) (both : Bool) (j : Nat) (locs : List Nat) (t : Token),
     let w := c.who s
     let ptr := c.g.wlim - BitVec.ofNat 64 (32 * (j + 1))
     let u := w.fill s (Piece.bytes { lane := 0, ptr, len := 32 })
     let got := coreRead u c.t.place c.gid locs
     porterLocs u w (if both = true then [.load, .store] else [.load]) ptr 32 = .ok locs →
     (∀ p ∈ locs, p ∉ busyLocs u c.gid u.nextId) → coreWaits u c.t.place c.gid locs = false →
     (both = true → cowPages u locs = []) → backingPoison u w false ptr locs = none →
     Token.ofImage (BitVec.ofNat 256 (leNat got.1)) = some t → readSpilled c both j s = .ok (t, got.2))) ∧
  ((∀ (r : Region) (tick : Nat) (t : Token) (rest : List Token) (g : Group),
     pathEnd r tick [] g = (false, { g with tokens := [] }) ∧
     (t.kind = .cond → t.pending ≠ 0 → pathEnd r tick (t :: rest) g =
       (true, { g with exec := t.pending, tokens := (if t.held = true
         then { t with pending := 0, join := t.saved, saved := 0, held := false } else { t with pending := 0 }) :: rest }.resume
           r t.join tick)) ∧
     (t.kind = .cond → t.pending = 0 → t.cont ≠ 0 →
       pathEnd r tick (t :: rest) g = (true, { g with tokens := t :: rest }.resume r t.join tick)) ∧
     (t.kind = .cond → t.pending = 0 → t.cont = 0 →
       pathEnd r tick (t :: rest) g = pathEnd r tick rest { g with tokens := rest }) ∧
     (t.kind = .loop → pathEnd r tick (t :: rest) g = (true, { g with tokens := t :: rest }.resume r t.join tick)) ∧
     (t.kind = .call → (g.returnEffect t rest).exec ≠ 0 →
       pathEnd r tick (t :: rest) g = (true, (g.returnEffect t rest).resume r t.join tick)) ∧
     (t.kind = .call → (g.returnEffect t rest).exec = 0 →
       pathEnd r tick (t :: rest) g = pathEnd r tick rest (g.returnEffect t rest))) ∧
   (∀ (s : State) (c : Ctx) (g : Group) (a : BitVec 32) (new : Option (Nat × Token)),
     (g.exec ≠ 0 → settlePaths c new g a s = .ok (c.jump g a s)) ∧
     (g.exec = 0 → settlePaths c new g a s = endPath c new g.spilledTok g s) ∧
     (g.exec = 0 → g.spilledTok = 0 →
       settlePaths c new g a s = .ok (s.setGroup c.gid (pathEnded (pathEnd c.r s.tick g.tokens g))))) ∧
   ∀ (s s1 : State) (c : Ctx) (g h : Group) (n : Nat) (t : Token) (new : Option (Nat × Token)),
     (pathEnd c.r s.tick g.tokens g = (true, h) → endPath c new n g s = .ok (s.setGroup c.gid { h with spilledTok := n })) ∧
     (pathEnd c.r s.tick g.tokens g = (false, h) → new = some (n, t) →
       endPath c new (n + 1) g s = endPath c new n { h with tokens := [t] } s) ∧
     (pathEnd c.r s.tick g.tokens g = (false, h) → (∀ x ∈ new, x.1 ≠ n) → readSpilled c false n s = .ok (t, s1) →
       endPath c new (n + 1) g s = endPath c new n { h with tokens := [t] } s1))

/-- R181: BRX jumps to the entry of the launch's dispatch table that its index register names, and traps as dispatch-range
past the table's end, and as illegal-target where the entry is no clause header's address.

Completes, on the conditions stated here on the state and the operands alone: BRX. -/
def Obligations.IndexedBranch : Prop :=
  ∀ (s : State) (c : Ctx) (n : Fin 64), Issues s c →
    (∀ (x : Nat) (a : BitVec 32), (c.l.dispatch c.r)[(c.g.readS n.val).toNat]? = some x → TargetAt c x a →
      exec (.brx (.s n)) s = .next (c.ended (c.jump c.g a s))) ∧
    (∀ x : Nat, (c.l.dispatch c.r)[(c.g.readS n.val).toNat]? = some x → (∀ a, ¬ TargetAt c x a) →
      exec (.brx (.s n)) s = .next (c.takeTrap { cause := 0x03, addr := BitVec.ofNat 64 x } (c.settled s))) ∧
    ((c.l.dispatch c.r).length ≤ (c.g.readS n.val).toNat →
      exec (.brx (.s n)) s = .next (c.takeTrap { cause := 0x06, addr := c.g.readS n.val } (c.settled s)))

/-- R182: CALL and CALLX with a token slot and ring room free push a CALL token, slide the window and enter the target
with the lanes of their condition, and go on where it names no lane; past the limit of R167 they trap as window-overflow.

R183: RET pops the CALL token of the depth below, discards the registers of the slide and goes back to the caller with
the lanes that waited, or ends its path where none is left; no token at all, or any other innermost one, traps as
illegal-convergence, and while the porter holds the innermost token RET waits for it.

Completes, on the conditions stated here on the state and the operands alone: CALL, CALLX and RET. -/
def Obligations.Calls : Prop :=
  (∀ (s : State) (c : Ctx) (i : Instr) (cond : Spec) (m : Mask) (slide : BitVec 4) (target a : BitVec 32) (n : Fin 64), Issues s c →
     c.g.sup = false → condMask c cond = .ok m →
     (i = .call cond slide target ∧ TargetAt c (c.target target) a ∨
       i = .callx cond slide (.s n) ∧ ∃ x : Nat, (c.l.dispatch c.r)[(c.g.readS n.val).toNat]? = some x ∧ TargetAt c x a) →
     (m = 0 → exec i s = .next (c.ended (c.jump c.g c.nextClause s))) ∧
     (m ≠ 0 → ¬ CallFits c.g (8 * slide.toNat) → exec i s = .next (c.takeTrap { cause := 0x07 } (c.settled s))) ∧
     (m ≠ 0 → CallFits c.g (8 * slide.toNat) → c.g.tokens.length ≠ 16 → c.g.occ + 8 * slide.toNat ≤ c.g.ring →
       exec i s = .next (c.ended (c.jump { c.g with
         tokens := { kind := .call, slide, pending := c.g.exec &&& ~~~m, join := c.nextClause, depth := BitVec.ofNat 16 c.g.depth } ::
           c.g.tokens,
         depth := c.g.depth + 1, base := c.g.base + 8 * slide.toNat, exec := m, wantRing := 0, wantTok := false } a s)))) ∧
  (∀ (s : State) (c : Ctx) (t : Token) (rest : List Token), Issues s c → c.g.sup = false →
     (c.g.tokens = [] → c.g.spilledTok = 0 → exec .ret s = .next (c.takeTrap { cause := 0x04 } (c.settled s))) ∧
     (c.g.tokens = [] → c.g.spilledTok ≠ 0 → c.g.porterTrap = none → exec .ret s = .next (c.waitHere s)) ∧
     (c.g.tokens = t :: rest →
     (t.kind = .call → t.depth.toNat + 1 = c.g.depth → (c.g.exec ||| t.pending) &&& c.g.live ≠ 0 →
       exec .ret s = .next (c.ended (c.jump { c.g.forget (c.g.top - 8 * t.slide.toNat) (8 * t.slide.toNat) with
         tokens := rest, depth := c.g.depth - 1, base := c.g.base - 8 * t.slide.toNat,
         resLo := min c.g.resLo (c.g.top - 8 * t.slide.toNat), exec := (c.g.exec ||| t.pending) &&& c.g.live } t.join s))) ∧
     (t.kind = .call → t.depth.toNat + 1 = c.g.depth → (c.g.exec ||| t.pending) &&& c.g.live = 0 → c.g.spilledTok = 0 →
       exec .ret s = .next (c.ended (s.setGroup c.gid (pathEnded (pathEnd c.r s.tick rest (c.g.returnEffect t rest)))))) ∧
     (t.kind ≠ .call ∨ t.depth.toNat + 1 ≠ c.g.depth → exec .ret s = .next (c.takeTrap { cause := 0x04 } (c.settled s)))))

/-- R186: with no porter move left WSYNC.WAIT goes on; WSYNC.WB first marks the registers below the frame for writing, and
goes on once that is done.

R187: WINFO writes the quantity that its item names into its s register.

R188: PAUSE waits for its number of the reticle's cycles, 0 counting as 1, and then goes on at the next clause;
PAUSE.RECV also ends when a flit is present.

Completes, on the conditions stated here on the state and the operands alone: WSYNC_WAIT, WSYNC_WB, WINFO, PAUSE_TIME, PAUSE_RECV and PAUSE_EXPIRY. -/
def Obligations.WindowInstructions : Prop :=
  (∀ (s : State) (c : Ctx), Issues s c → c.g.sup = false → c.g.porterTrap = none →
     ((∀ m ∈ s.porter, m.group ≠ c.gid) → exec .wsyncWait s = .next (c.done s)) ∧
     ((∃ m ∈ s.porter, m.group = c.gid) → exec .wsyncWait s = .next (c.waitHere s)) ∧
     (c.g.wb = none → exec .wsyncWb s = .next (c.waitHere (s.setGroup c.gid { c.g with wb := some c.g.resLo }))) ∧
     (c.g.wb ≠ none → (∀ m ∈ s.porter, m.group ≠ c.gid) → exec .wsyncWb s = .next (c.done (s.setGroup c.gid { c.g with wb := none })))) ∧
  (∀ (s : State) (c : Ctx) (item : WItem) (n : Fin 64), Issues s c →
     exec (.winfo item (.s n)) s = .next (c.done (s.setGroup c.gid (c.g.writeS n.val (match item with
       | .depth => BitVec.ofNat 64 c.g.depth
       | .tokens => BitVec.ofNat 64 (c.g.tokens.length + c.g.spilledTok)
       | .base => BitVec.ofNat 64 c.g.base
       | .room => BitVec.ofInt 64 (((c.g.wlim.toNat : Int) - 32 * (c.g.tokens.length + c.g.spilledTok - 16 : Nat) - c.g.wbp.toNat) /
                     (4 * c.g.width : Nat) - (c.g.base + 112 : Nat))
       | .occ => BitVec.ofNat 64 c.g.occ
       | .ring => BitVec.ofNat 64 c.g.ring))))) ∧
  (∀ (s : State) (c : Ctx) (n : BitVec 16),
     (Issues s c → exec (.pauseTime n) s = .next (c.ended (s.setGroup c.gid { c.g with
         phase := .paused, pauseUntil := some (s.cycle (reticleOf c.t.place) + BitVec.ofNat 64 (max 1 n.toNat), false) })) ∧
       exec (.pauseRecv n) s = .next (c.ended (s.setGroup c.gid { c.g with
         phase := .paused, pauseUntil := some (s.cycle (reticleOf c.t.place) + BitVec.ofNat 64 (max 1 n.toNat), true) }))) ∧
     (∀ (gid : Nat) (u : Word) (recv : Bool), s.ctx? gid = some c → c.g.phase = .paused → c.g.pauseUntil = some (u, recv) →
       (u ≤ s.cycle (reticleOf c.t.place) ∨ recv = true ∧ c.g.rx ≠ [] →
         exec (.pauseExpiry gid) s = .next (c.jump { c.g with pauseUntil := none } c.nextClause s)) ∧
       (s.cycle (reticleOf c.t.place) < u → recv = false → exec (.pauseExpiry gid) s = .next s)))

/-! ## Arithmetic with operand rules of its own, and cross-lane instructions -/

/-- R206: SEL takes A in the lanes whose bit of its mask operand is set and B in the others; in the uniform form it takes A
where the operand is not 0.

R208: LEA adds the scaled index to the offset of a pointer and keeps its region id.

Completes, on the conditions stated here on the state and the operands alone: SEL and LEA. -/
def Obligations.SelectsAndAddresses : Prop :=
  (∀ (s t : State) (c : Ctx) (f : OForm) (n : Fin 128) (x : Sources), Issues s c → dstOk c.g f.uni f.ty.is64 f.d = true →
     srcOk c.g f.uni f.ty.is64 f.a = true → srcOk c.g f.uni f.ty.is64 f.b = true → selMask c.g f.uni f.c = true →
     readSources c f ⟨f.ty.is64, some f.ty, some f.ty, some .n64⟩ s = .ok x →
       (f.uni = false → f.d = .v n → exec (.sel f) s = .next (c.done (x.s.modGroup c.gid fun g =>
         g.writeLanes f.ty.is64 n.val (lanes c.g.exec) fun l => if (x.c 0).testBit l then x.a l else x.b l))) ∧
       (f.uni = true → writeUniform c f.d (if x.c 0 = 0 then x.b 0 else x.a 0) x.s = .ok t → exec (.sel f) s = .next (c.done t))) ∧
  (∀ (s t : State) (c : Ctx) (f : OForm) (n : Fin 128) (x : Sources), Issues s c → dstOk c.g f.uni true f.d = true →
     (isSReg f.a.spec = true ∨ f.uni = false ∧ ∃ k, f.a.spec = .v k) →
     readSources c f ⟨true, some .n64, some .n32, none⟩ s = .ok x →
       let p (l : Nat) : Word := ptrAdd (BitVec.ofNat 64 (x.a l)) (ival f.ty (x.b l) * (2 ^ constNat f.c : Nat))
       (f.uni = false → f.d = .v n → exec (.lea f) s = .next (c.done (x.s.modGroup c.gid fun g =>
         g.withLanes true n.val ((lanes c.g.exec).map fun l => (l, .pure (p l).toNat))))) ∧
       (f.uni = true → writeUniform c f.d (p 0).toNat x.s = .ok t → exec (.lea f) s = .next (c.done (t.raiseFp c.gid 0))))

/-- R207, R214: CMP and FCMP write the mask of the active lanes in which the condition holds, all ones or zeros in the
uniform form, and raise the flags of what they compared.

Completes, on the conditions stated here on the state and the operands alone: CMP and FCMP. -/
def Obligations.ComparisonsWriteMasks : Prop :=
  ∀ (i : Instr) (f : OForm) (op : Nat → Nat → Flagged Bool), comparisonRow i = some (f, op) →
    ∀ (s : State) (c : Ctx) (n : Fin 64) (x : Sources), Issues s c → f.d = .s n → readSources c f (shape2 f.ty) s = .ok x →
      (f.uni = false → exec i s = .next (c.done
        ((x.s.modGroup c.gid fun g => g.writeS n.val (maskWhere c x op)).raiseFp c.gid (flagsWhere c x op)))) ∧
      (f.uni = true → exec i s = .next (c.done
        ((x.s.modGroup c.gid fun g => g.writeS n.val (if (op (x.a 0) (x.b 0)).val then -1 else 0)).raiseFp c.gid
          (op (x.a 0) (x.b 0)).fp)))

/-- R223, R224: QCVT and DQCVT convert each active lane under its scale operand, and trap as illegal-operand, what was
popped staying popped, where an active lane's scale operand is out of range.

R222: QSCALE writes each active lane with the scale of the active lanes of its block.

Where the spec leaves a point of this open the statement is of the model: log entries 25 and 75.

Completes, on the conditions stated here on the state and the operands alone: QCVT, DQCVT and QSCALE. -/
def Obligations.BlocksQuantised : Prop :=
  (∀ (i : Instr) (f : QForm) (op : Nat → Nat → Flagged Nat), quantRow i = some (f, op) →
     ∀ (s t : State) (c : Ctx) (n : Fin 128) (x : Sources), Issues s c → dstOk c.g f.uni false f.d = true →
       readSources c (quantForm f) ⟨false, some .f32, some .n32, none⟩ s = .ok x →
       let ls := if f.uni then [0] else lanes c.g.exec
       let r (l : Nat) : Flagged Nat := op (x.a l) (x.b l % 2 ^ 32)
       let fp := orFp (ls.map fun l => (r l).fp)
       ((∀ l ∈ ls, scaleOperandOk f.fmt (x.b l % 2 ^ 32) = true) →
         (f.d = .v n → exec i s =
           .next (c.done ((x.s.modGroup c.gid fun g => g.writeLanes false n.val ls fun l => (r l).val).raiseFp c.gid fp))) ∧
         (f.uni = true → writeUniform c f.d (r 0).val x.s = .ok t → exec i s = .next (c.done (t.raiseFp c.gid fp)))) ∧
       ((∃ l ∈ ls, scaleOperandOk f.fmt (x.b l % 2 ^ 32) = false) →
         exec i s = .next (c.takeTrap { cause := 0x02 } (c.settled x.s)))) ∧
  (∀ (s t : State) (c : Ctx) (f : QForm) (n : Fin 128) (x : Sources), Issues s c → dstOk c.g f.uni false f.d = true →
     srcOk c.g f.uni false f.a = true → srcOk c.g f.uni false f.b = true →
     (isSReg f.b.spec = true ∨ (∃ k, f.b.spec = .int k) ∨ ∃ k, f.b.spec = .neg k) →
     srcVal c.g .n32 f.b .nothing 0 ≤ 31 → readSources c (quantForm f) ⟨false, some .f32, some .n32, none⟩ s = .ok x →
       let clip := srcVal c.g .n32 f.b .nothing 0
       let val (l : Nat) : FVal := fsrc .f32 f.ftz (x.a l % 2 ^ 32)
       (f.uni = false → f.d = .v n → exec (.qscale f) s = .next (c.done (x.s.modGroup c.gid fun g =>
         g.writeLanes false n.val (lanes c.g.exec) fun l =>
           qscaleOf f (((lanes c.g.exec).filter fun m => m / f.fmt.block = l / f.fmt.block).map val) clip))) ∧
       (f.uni = true → writeUniform c f.d (qscaleOf f [val 0] clip) x.s = .ok t → exec (.qscale f) s = .next (c.done t)))

/-- R189 to R197: where every lane of the member mask is active and the innermost token holds no rotation, a cross-lane
instruction performs its operation once for those lanes; a lane operand that names no member is an illegal operand.

R162: a cross-lane instruction that names an exited lane traps as exited-lane; one that names a lane neither active nor
pending on the innermost token, where that is an IF token of the current depth, traps as illegal-convergence, as does any
inactive lane where there is no token or the innermost is another; the first arrival at a member mask that the pending lanes
complete rotates the group to those lanes with the token held; the second arrival at the same instruction merges the lanes, and
the operation is performed, or an illegal operand of it traps with no effect (R123), while a different instruction there is
illegal-convergence.

Where the spec leaves a point of this open the statement is of the model: log entry 47.

Completes, on the conditions stated here on the state and the operands alone: SHFL, VOTE, REDUX, SCAN, ELECT, BCAST and SETLANE. -/
def Obligations.CrossLane : Prop :=
  (∀ (i : Instr) (r : CrossRow), crossRow i = some r →
     ∀ (s : State) (c : Ctx) (m : Mask), Issues s c → memberMask c r.f.c = .ok m → r.ok c = true →
       (c.g.tokens ≠ [] ∨ c.g.spilledTok = 0) → (∀ t ∈ c.g.tokens.head?, t.held = false) →
       m &&& ~~~c.g.live = 0 → m &&& c.g.exec = m →
       (∀ e, r.effect c m = some e → exec i s = .next (c.done (e s))) ∧
       (r.effect c m = none → exec i s = .next (c.takeTrap { cause := 0x02 } (c.settled s)))) ∧
  (∀ (i : Instr) (r : CrossRow), crossRow i = some r →
     ∀ (s : State) (c : Ctx) (m : Mask), Issues s c → memberMask c r.f.c = .ok m → r.ok c = true →
       (c.g.tokens ≠ [] ∨ c.g.spilledTok = 0) →
       (m &&& ~~~c.g.live ≠ 0 → exec i s = .next (c.takeTrap { cause := 0x05 } (c.settled s))) ∧
       (m &&& ~~~c.g.live = 0 → m &&& ~~~c.g.exec ≠ 0 → c.g.tokens = [] →
         exec i s = .next (c.takeTrap { cause := 0x04 } (c.settled s))) ∧
       (∀ t ∈ c.g.tokens.head?, m &&& ~~~c.g.live = 0 →
         m &&& ~~~(c.g.exec ||| if t.kind = .cond ∧ t.depth.toNat = c.g.depth then t.pending else 0) ≠ 0 →
           exec i s = .next (c.takeTrap { cause := 0x04 } (c.settled s))) ∧
       (∀ (t : Token) (rest : List Token), c.g.tokens = t :: rest → t.kind = .cond → t.depth.toNat = c.g.depth → t.held = false →
         m &&& ~~~c.g.live = 0 → m &&& c.g.exec ≠ m → m &&& ~~~(c.g.exec ||| t.pending) = 0 →
           exec i s = .next (c.settled (s.setGroup c.gid
             ({ c.g with exec := t.pending,
                         tokens := { t with pending := c.g.exec, join := c.here, saved := t.join, held := true } :: rest }.resume
               c.r t.join s.tick)))) ∧
       (∀ (t : Token) (rest : List Token), c.g.tokens = t :: rest → t.kind = .cond → t.depth.toNat = c.g.depth → t.held = true →
         m &&& ~~~c.g.live = 0 → m &&& ~~~(c.g.exec ||| t.pending) = 0 →
           (t.join ≠ c.here → exec i s = .next (c.takeTrap { cause := 0x04 } (c.settled s))) ∧
           (t.join = c.here →
             let g := { c.g with exec := c.g.exec ||| t.pending,
                                 tokens := { t with pending := 0, join := t.saved, saved := 0, held := false } :: rest }
             (∀ e, r.effect { c with g } m = some e → exec i s = .next (c.done (e (s.setGroup c.gid g)))) ∧
             (r.effect { c with g } m = none → exec i s = .next (c.takeTrap { cause := 0x02 } (c.settled s))))))

/-! ## Traps and special registers -/

/-- R352, R385: a trap in the program enters the handler with the trap registers written, and stops the group with an end
request where there is no handler. A handler value that names no header, or a trap in the handler, is a double fault. The
tag of poison that the trap consumed is reported; in a replay-protected launch consumed poison rolls the launch back; a
convoy-mismatch goes to the recovery of the convoy.

Where the spec leaves a point of this open the statement is of the model: log entry 46. -/
def Obligations.TrapsEnterHandler : Prop :=
  ∀ (s : State) (c : Ctx) (x : Trap), s.group? c.gid = some c.g →
    (x.cause = 0x11 → c.takeTrap x s = s.mismatchTeam c.g.team) ∧
    (x.cause ≠ 0x11 →
      (c.g.sup = false → x.cause = 0x0F → c.l.prot = true →
        c.takeTrap x s = ((tagged c x s).setGroup c.gid { c.g with phase := .stopped }).requestRollback c.t.launch) ∧
      (c.g.sup = false → x.cause ≠ 0x0F ∨ c.l.prot = false →
        (c.g.handler ≠ 0 → isHeaderAt c.r c.g.handler.toNat = true →
          c.takeTrap x s = (tagged c x s).setGroup c.gid (Entered c.g x s.tick)) ∧
        (c.g.handler = 0 →
          c.takeTrap x s = ((tagged c x s).setGroup c.gid { Trapped c.g x with phase := .stopped }).requestEnd c.t.launch 0x02 x.cause
            (BitVec.ofNat 12 c.t.place) x.addr) ∧
        (c.g.handler ≠ 0 → isHeaderAt c.r c.g.handler.toNat = false →
          let u := (tagged c x s).setGroup c.gid { Trapped c.g x with
            sup := true, trapCause := 0x15, trapAddr := c.g.handler.zeroExtend 64, phase := .stopped }
          c.takeTrap x s = if c.l.prot then u.requestRollback c.t.launch else
            u.requestEnd c.t.launch 0x02 0x15 (BitVec.ofNat 12 c.t.place) (c.g.handler.zeroExtend 64))) ∧
      (c.g.sup = true →
        let u := (tagged c x s).setGroup c.gid { c.g with trapCause := 0x15, trapAddr := x.addr, phase := .stopped }
        c.takeTrap x s = if c.l.prot then u.requestRollback c.t.launch else
          u.requestEnd c.t.launch 0x02 0x15 (BitVec.ofNat 12 c.t.place) x.addr))

/-- R357: TRAP raises the user trap with its immediate, zero-extended, as the address, whatever the state it runs in: it
enters the handler, or ends the launch where there is none.

Completes, on the conditions stated here on the state and the operands alone: TRAP. -/
def Obligations.UserTrap : Prop :=
  ∀ (s : State) (c : Ctx) (imm : BitVec 32), Issues s c →
    exec (.trap imm) s = .next (c.takeTrap { cause := 0x14, addr := imm.zeroExtend 64 } (c.settled s)) ∧
    (c.g.sup = false → c.g.handler ≠ 0 → isHeaderAt c.r c.g.handler.toNat = true →
      exec (.trap imm) s = .next ((c.settled s).setGroup c.gid
        (Entered (unheld c.g) { cause := 0x14, addr := imm.zeroExtend 64 } s.tick))) ∧
    (c.g.sup = false → c.g.handler = 0 →
      exec (.trap imm) s = .next (((c.settled s).setGroup c.gid
        { Trapped (unheld c.g) { cause := 0x14, addr := imm.zeroExtend 64 } with phase := .stopped }).requestEnd c.t.launch 0x02 0x14
          (BitVec.ofNat 12 c.t.place) (imm.zeroExtend 64)))

/-- R358, R381: outside the handler RFT is an illegal operand; in it, once a convoy's other side offers it too, RETRY resumes at TRAPPC, NEXT past the instruction that
trapped, with EXEC the trapped mask within LIVE, and ABORT ends the launch with the trap registers as they stand; a position past
the clause's last instruction stays as it is (the model's reading, log entry 87).

Completes, on the conditions stated here on the state and the operands alone: RFT_RETRY, RFT_NEXT and RFT_ABORT. -/
def Obligations.ReturnsFromTrap : Prop :=
  ∀ (s : State) (c : Ctx) (hdr : BitVec 32) (k n : Nat) (w : Word), Issues s c →
    (c.g.sup = false → ∀ i ∈ [Instr.rftRetry, .rftNext, .rftAbort],
      exec i s = .next (c.takeTrap { cause := 0x02 } (c.settled s))) ∧
    (c.g.sup = true → c.t.side = .solo → hdr = c.g.trapPc.extractLsb' 0 32 → k = (c.g.trapPc.extractLsb' 32 5).toNat →
      codeAt c.r hdr.toNat = some w → n = fld w.toNat 51 4 + 1 →
      let back (i : Instr) (g : Group) : Host.Outcome State Fault Refusal :=
        .next (c.ended (resumeEngines c.gid ((assayLog c (c.sig i []) [] s).setGroup c.gid g)))
      exec .rftRetry s = back .rftRetry (Returned c.g hdr k s.tick) ∧
      (k = 0 → exec .rftNext s = back .rftNext (Returned c.g.wantNothing hdr 0 s.tick)) ∧
      (k ≠ 0 → k < n → exec .rftNext s = back .rftNext (Returned c.g.wantNothing hdr (k + 1) s.tick)) ∧
      (k ≠ 0 → k = n → exec .rftNext s = back .rftNext (Returned c.g.wantNothing (hdr + BitVec.ofNat 32 (8 * (n + 1))) 0 s.tick)) ∧
      (n < k → exec .rftNext s = back .rftNext (Returned c.g.wantNothing hdr k s.tick)) ∧
      exec .rftAbort s = .next (c.ended
        (((assayLog c (c.sig .rftAbort []) [] s).modGroup c.gid fun g => { g with phase := .stopped }).requestEnd c.lid 0x02
          c.g.trapCause (BitVec.ofNat 12 c.t.place) c.g.trapAddr))) ∧
    (∀ v t, c.g.sup = true → ∀ i ∈ [Instr.rftRetry, .rftNext, .rftAbort],
      (performOnce c (c.sig i []) (fun u => .ok ([], u)) s = .error (.wait t) → exec i s = .next (c.waitHere t)) ∧
      (performOnce c (c.sig i []) (fun u => .ok ([], u)) s = .ok (v, t) →
        (i = .rftAbort → exec i s = .next (c.ended ((t.modGroup c.gid fun g => { g with phase := .stopped }).requestEnd c.lid 0x02
          c.g.trapCause (BitVec.ofNat 12 c.t.place) c.g.trapAddr))) ∧
        (i ≠ .rftAbort → ∀ g u, t.group? c.gid = some g → returnFromTrap (i == .rftNext) { c with g } t = .ok u →
          exec i s = .next (c.ended (resumeEngines c.gid u)))))

/-- R353: in the handler v16 to v47 name the supervisor reserve and s56 to s63 name SU0 to SU7; v0 to v15 and s0 to s55 are
the group's own, and outside the handler v16 and above are the current frame's.

R361, R362, R368: MAPPG, TLBINV and CTXSV run only in the handler and trap as protection elsewhere. In the handler MAPPG
writes its status, TLBINV drops the entries of the page or of the context on every reticle, and CTXSV
sends the context image to its address; the two sides of a convoy make each of them once (R381).

R361: the statuses of MAPPG: 5 where the walk meets a malformed entry or the entry that is there is not sound, 3 where a
level of the walk is absent or maps the page as a large one, 1 where the entry is present, 6 where the pool is invalid and 2
where it is empty, each taking no pool entry. Otherwise the entry at the take index is taken and the index goes on by one, with
an interrupt where as many entries are left as the pool's threshold says: 4 where that entry's frame is not a good one, and 0
where the frame's page is filled with zeros, the leaf is written from the template and the entry, and the page is noted as the
launch's. A page filled so reads 0 at every byte.

Where the spec leaves a point of this open the statement is of the model: log entry 56.

Completes, on the conditions stated here on the state and the operands alone: MAPPG, TLBINV_PAGE, TLBINV_CONTEXT and CTXSV. -/
def Obligations.HandlerView : Prop :=
  (∀ (g : Group) (k l : Nat) (v : Word) (x : Lane),
     (g.sup = true → 56 ≤ k → g.readS k = SMap.get 0 g.su (k - 56) ∧ (g.writeS k v).sregs = g.sregs) ∧
     (g.sup = false ∨ k < 56 → g.readS k = SMap.get 0 g.sregs k ∧ (g.writeS k v).su = g.su) ∧
     (k < 16 → g.readV k l = SMap.get 0 g.vfix (k * 64 + l) ∧ (g.writeV k l x).reserve = g.reserve ∧ (g.writeV k l x).win = g.win) ∧
     (g.sup = true → 16 ≤ k → g.readV k l = SMap.get 0 g.reserve ((k - 16) * 64 + l) ∧ (g.writeV k l x).win = g.win) ∧
     (g.sup = false → 16 ≤ k →
       g.readV k l = SMap.get 0 g.win ((g.base + k - 16) * 64 + l) ∧ (g.writeV k l x).reserve = g.reserve)) ∧
  (∀ (s : State) (c : Ctx) (d a b : Fin 64) (fb : Bool), Issues s c →
     (c.g.sup = false → ∀ i ∈ [Instr.mappg (.s d) (.s a) (.s b) fb, .tlbinvPage (.s a) fb, .tlbinvContext (.s a) fb, .ctxsv (.s a) fb],
       exec i s = .next (c.takeTrap { cause := 0x0B } (c.settled s))) ∧
     (c.g.sup = true → c.t.side = .solo →
       let va := c.g.readS a.val
       let tmpl := c.g.readS b.val
       let i := Instr.mappg (.s d) (.s a) (.s b) fb
       (CounterFree c i → DestFree c i s → tmpl &&& ~~~(0xC00FF0000000000E : Word) = 0 → ptrRegion va = 0 → (apertureOf (ptrAddr va)).kind = 2 →
         ∀ r t, mappg c.lid c.l.ctx va.toNat tmpl (countedOnce c i s) = (r, t) →
           exec i s = .next (c.done ((assayLog c (c.sig i [va.toNat, tmpl.toNat]) [(0, BitVec.ofNat 64 r)] t).modGroup c.gid fun g =>
             g.writeS d.val (BitVec.ofNat 64 r)))) ∧
       (CounterFree c (.tlbinvPage (.s a) fb) → exec (.tlbinvPage (.s a) fb) s = .next (c.done
         (assayLog c (c.sig (.tlbinvPage (.s a) fb) [va.toNat]) []
           (let t := countedOnce c (.tlbinvPage (.s a) fb) s
            t.setFab (tlbDrop t.fab fun e => e.covers c.l.ctx (ptrAddr va / 65536)))))) ∧
       (CounterFree c (.tlbinvContext (.s a) fb) → exec (.tlbinvContext (.s a) fb) s = .next (c.done
         (assayLog c (c.sig (.tlbinvContext (.s a) fb) [va.toNat]) []
           (let t := countedOnce c (.tlbinvContext (.s a) fb) s
            t.setFab (tlbDrop t.fab fun e => e.ctx == c.l.ctx))))) ∧
       (let bs := contextImage s c.gid c.t c.l c.g
        ∀ locs, CounterFree c (.ctxsv (.s a) fb) → ptrRegion va = 0 → (apertureOf (ptrAddr va)).kind = 2 → va.toNat % 64 = 0 →
         checkAccess s (c.who s) .store false [{ lane := 0, ptr := va, len := bs.length }] = .ok locs → awaitCopies locs s = .ok () →
         awaitMoves c locs true s = .ok () →
           exec (.ctxsv (.s a) fb) s = .next (c.done (assayLog c
             (c.sig (.ctxsv (.s a) fb) (va.toNat :: imageData c.t c.l c.g)) [] (inFlight c (.ctxsv (.s a) fb)
             { c.op (.ctxsv (.s a) fb) with
               reqs := [storeReq locs 0 (bs.zipIdx.map fun (b, k) => ((ptrAdd va (k : Nat)).toNat, b, 0xFF))],
               locs := locs.map (·.loc) } s))))) ∧
     (c.g.sup = true →
       let va := c.g.readS a.val
       let tmpl := c.g.readS b.val
       let m := Instr.mappg (.s d) (.s a) (.s b) fb
       let made (i : Instr) (f : State → State) (u v : State) : Prop :=
         ∃ x, performOnce c (c.sig i [va.toNat]) (fun w => .ok ([], f w)) u = .ok (x, v)
       (∀ u v t, completeAtOnce c m s = .ok u → tmpl &&& ~~~(0xC00FF0000000000E : Word) = 0 → ptrRegion va = 0 →
         (apertureOf (ptrAddr va)).kind = 2 →
         performOnce c (c.sig m [va.toNat, tmpl.toNat]) (fun w =>
           .ok ([(0, BitVec.ofNat 64 (mappg c.lid c.l.ctx va.toNat tmpl w).1)], (mappg c.lid c.l.ctx va.toNat tmpl w).2)) u = .ok (v, t) →
           exec m s = .next (c.done (t.modGroup c.gid fun g => g.writeS d.val ((v.head?.map (·.2)).getD 0)))) ∧
       (∀ u t, completeAtOnce c (.tlbinvPage (.s a) fb) s = .ok u →
         made (.tlbinvPage (.s a) fb) (fun w => w.setFab (tlbDrop w.fab fun e => e.covers c.l.ctx (ptrAddr va / 65536))) u t →
           exec (.tlbinvPage (.s a) fb) s = .next (c.done t)) ∧
       (∀ u t, completeAtOnce c (.tlbinvContext (.s a) fb) s = .ok u →
         made (.tlbinvContext (.s a) fb) (fun w => w.setFab (tlbDrop w.fab fun e => e.ctx == c.l.ctx)) u t →
           exec (.tlbinvContext (.s a) fb) s = .next (c.done t)) ∧
       (let bs := contextImage s c.gid c.t c.l c.g
        ∀ locs u v t, c.t.side ≠ .solo → ptrRegion va = 0 → (apertureOf (ptrAddr va)).kind = 2 → va.toNat % 64 = 0 →
         checkAccess s (c.who s) .store false [{ lane := 0, ptr := va, len := bs.length }] = .ok locs → awaitCopies locs s = .ok () →
         awaitMoves c locs true s = .ok () → completeAtOnce c (.ctxsv (.s a) fb) s = .ok u →
         anyBlocked u (locs.map (·.loc)) = false →
         performOnce c (c.sig (.ctxsv (.s a) fb) (va.toNat :: imageData c.t c.l c.g)) (fun w => do
           let (_, w) ← serveNow { c.op (.ctxsv (.s a) fb) with
             reqs := [storeReq locs 0 (bs.zipIdx.map fun (b, k) => ((ptrAdd va (k : Nat)).toNat, b, 0xFF))], locs := locs.map (·.loc) } w
           .ok ([], settleEverywhere w (locs.map (·.loc)))) u = .ok (v, t) →
           exec (.ctxsv (.s a) fb) s = .next (c.done t)))) ∧
  ((∀ (s : State) (lid : Nat) (ctx : BitVec 16) (va : Nat) (tmpl : Word),
     (leafSlot s.mem va 3 (ctxRoot (ctxEntry s ctx)) = .error .malformed → mappg lid ctx va tmpl s = (5, s)) ∧
     (∀ e, leafSlot s.mem va 3 (ctxRoot (ctxEntry s ctx)) = .error e → e ≠ .malformed → mappg lid ctx va tmpl s = (3, s))) ∧
   (∀ (s : State) (lid : Nat) (ctx : BitVec 16) (va slot : Nat) (tmpl old : Word),
     leafSlot s.mem va 3 (ctxRoot (ctxEntry s ctx)) = .ok slot → old = BitVec.ofNat 64 (Memory.nat s.mem slot 8) →
     (old.getLsbD 0 = true → Leaf.wellFormed old 0 = true → mappg lid ctx va tmpl s = (1, s)) ∧
     (old.getLsbD 0 = true → Leaf.wellFormed old 0 = false → mappg lid ctx va tmpl s = (5, s)) ∧
     (old.getLsbD 0 = false → poolOf s ctx = none → mappg lid ctx va tmpl s = (6, s.setDev (raiseCause s.dev 0))) ∧
     (∀ p, old.getLsbD 0 = false → poolOf s ctx = some p → p.put < 2 ^ 32 → p.take < 2 ^ 32 →
       (p.put = p.take → mappg lid ctx va tmpl s = (2, s.setDev (raiseCause s.dev 0))) ∧
       (p.put ≠ p.take →
         let e : Word := BitVec.ofNat 64 (Memory.nat s.mem (p.at_ + 64 + 8 * (p.take % p.cap)) 8)
         let frame := (e.extractLsb' 0 32).toNat
         let leaf : Word := tmpl ||| BitVec.ofNat 64
           (1 + frame * 2 ^ 8 + (e.extractLsb' 36 1).toNat * 2 ^ 52 + (e.extractLsb' 32 4).toNat * 2 ^ 53)
         let good := e.extractLsb' 37 27 = 0 ∧ Leaf.frameOk leaf frame = true ∧
           ∀ r ∈ pageRanges leaf, isReserved r.1 = false ∧ isReserved (r.1 + r.2 - 1) = false
         let taken := writePhys (copyFor s [p.at_ + 4]) (p.at_ + 4) 4 ((p.take + 1) % 2 ^ 32)
         let t := if p.put = (p.take + p.low + 1) % 2 ^ 32 then taken.setDev (raiseCause taken.dev 0) else taken
         let u := zeroPage (copyFor t ((pageRanges leaf).map (·.1))) leaf
         let v := writePhys (copyFor u [slot]) slot 8 leaf.toNat
         (good → p.low < 2 ^ 32 → mappg lid ctx va tmpl s = (0, { v with firstTouch := (lid, ctx, va / 65536) :: v.firstTouch })) ∧
         (¬ good → p.low < 2 ^ 32 → mappg lid ctx va tmpl s = (4, t))))) ∧
   ∀ (s : State) (leaf : Word) (a : Nat), inRanges (pageRanges leaf) a = true → Memory.get (zeroPage s leaf).mem a = 0)

/-- R356, R376: SREAD writes the register's value into its s register; CYCLE, PLACE and CONVOY are values from outside, which a
sampled team logs and the two sides of a convoy share. A register that the reader may not read is an illegal operand.

R355: the fields of SSTAT, PLACE, TEAMID and CONVOY, and which registers a program and a handler may read and write.

R356: SWRITE replaces a writable register, leaves a read-only one, and traps as protection on a register that only the
handler writes, and as illegal-operand on an absent one and on a value that sets a bit the register does not name; what is
written reads back.

Where the spec leaves a point of this open the statement is of the model: log entries 16 and 55.

Completes, on the conditions stated here on the state and the operands alone: SREAD and SWRITE. -/
def Obligations.Specials : Prop :=
  (∀ (s : State) (c : Ctx) (r : Fin 64) (n : BitVec 8), Issues s c →
     (specialReadable c.g.sup n.toNat = false → exec (.sread (.s r) n) s = .next (c.takeTrap { cause := 0x02 } (c.settled s))) ∧
     (specialReadable c.g.sup n.toNat = true → n ∉ [12, 20, 32, 33] →
       exec (.sread (.s r) n) s =
         .next (c.done (s.modGroup c.gid fun g => g.writeS r.val ((groupSpecial c.t c.l c.g n.toNat).getD 0)))) ∧
     exec (.sread (.s r) 33) s = .next (c.done (s.modGroup c.gid fun g =>
       g.writeS r.val ((SMap.get 8 s.dev.drovthr (reticleOf c.t.place)).zeroExtend 64))) ∧
     (∀ k ∈ [(12 : BitVec 8), 20, 32], ∀ v t,
       takeOutside c (c.sig (.sread (.s r) k) []) (fun u =>
         .ok ([(0, if k = 32 then u.cycle (reticleOf c.t.place) else (groupSpecial c.t c.l c.g k.toNat).getD 0)], u)) s = .ok (v, t) →
         exec (.sread (.s r) k) s = .next (c.done (t.modGroup c.gid fun g => g.writeS r.val ((v.head?.map (·.2)).getD 0)))) ∧
     (c.t.side = .solo → ∀ k ∈ [(12 : BitVec 8), 20, 32],
       let v := if k = 32 then s.cycle (reticleOf c.t.place) else (groupSpecial c.t c.l c.g k.toNat).getD 0
       exec (.sread (.s r) k) s = .next (c.done ((assayLog c (c.sig (.sread (.s r) k) []) [(0, v)] s).modGroup c.gid fun g =>
         g.writeS r.val v)))) ∧
  ((∀ (t : Team) (l : Launch) (g : Group) (v : Word),
     (groupSpecial t l g 10 = some v → v.getLsbD 0 = g.sup ∧ v.getLsbD 1 = (t.side != .solo) ∧ v.getLsbD 2 = (t.side == .escort) ∧
       v.extractLsb' 4 2 = BitVec.ofNat 2 l.replays ∧ v.extractLsb' 6 58 = 0) ∧
     (groupSpecial t l g 12 = some v →
       v.extractLsb' 12 12 = BitVec.ofNat 12 t.logical ∧ v.extractLsb' 0 12 = BitVec.ofNat 12 t.place ∧ v.extractLsb' 24 40 = 0) ∧
     (groupSpecial t l g 13 = some v → v.extractLsb' 0 32 = BitVec.ofNat 32 t.index ∧ v.extractLsb' 32 5 = BitVec.ofNat 5 g.slot ∧
       v.extractLsb' 40 4 = BitVec.ofNat 4 l.depth ∧ v.extractLsb' 44 20 = 0) ∧
     (groupSpecial t l g 20 = some v → v.getLsbD 33 = (t.side == .escort) ∧ v.getLsbD 32 = (t.side != .solo) ∧
       v.extractLsb' 16 16 = g.mismatches ∧ v.extractLsb' 0 16 = g.waypoints)) ∧
   (∀ n, specialReadable false n = true ↔ n ≤ 20 ∨ n = 32 ∨ n = 33) ∧
   (∀ n, specialReadable true n = true ↔ n ≤ 20 ∨ 24 ≤ n ∧ n ≤ 33) ∧
   (∀ n, specialWrite false n = .protected_ ↔ n = 11 ∨ n = 33) ∧
   (∀ n, specialWrite true n ≠ .protected_) ∧
   (∀ n, specialWrite false n = .absent ↔ 21 ≤ n ∧ n ≠ 32 ∧ n ≠ 33) ∧
   (∀ n, specialWrite true n = .absent ↔ 21 ≤ n ∧ n ≤ 23 ∨ 34 ≤ n)) ∧
  (∀ (s : State) (c : Ctx) (a : Spec) (v : Word) (n : BitVec 8), Issues s c → swriteValue c a = .ok v →
     (∀ m, specialWrite c.g.sup n.toNat = .bits m → v &&& ~~~m = 0 → (16 ≤ n.toNat → n.toNat ≤ 19 → Port.legal v = true) →
       (n ≠ 33 → exec (.swrite a n) s = .next (c.done (s.modGroup c.gid fun g => setSpecial g n.toNat v)) ∧
         ∀ g : Group, g.sup = c.g.sup → groupSpecial c.t c.l (setSpecial g n.toNat v) n.toNat = some v) ∧
       (n = 33 → exec (.swrite a n) s = .next (c.done (s.setDev
         { s.dev with drovthr := SMap.set 8 s.dev.drovthr (reticleOf c.t.place) (v.setWidth 4) })))) ∧
     (∀ m, specialWrite c.g.sup n.toNat = .bits m → v &&& ~~~m ≠ 0 →
       exec (.swrite a n) s = .next (c.takeTrap { cause := 0x02 } (c.settled s))) ∧
     (16 ≤ n.toNat → n.toNat ≤ 19 → Port.legal v = false →
       exec (.swrite a n) s = .next (c.takeTrap { cause := 0x02 } (c.settled s))) ∧
     (specialWrite c.g.sup n.toNat = .ignored → exec (.swrite a n) s = .next (c.done s)) ∧
     (specialWrite c.g.sup n.toNat = .protected_ → exec (.swrite a n) s = .next (c.takeTrap { cause := 0x0B } (c.settled s))) ∧
     (specialWrite c.g.sup n.toNat = .absent → exec (.swrite a n) s = .next (c.takeTrap { cause := 0x02 } (c.settled s))))

/-! ## Memory -/

/-- R125: an operation that issues is counted on its flag and enters the operations in flight, and waits while its counter
is at 63. R127: one that completes at issue waits for an earlier one that has yet to write its register. R168, R269: an
access that releases nothing passes at once where no acquire of its group is pending and no porter move triggered before it
meets its bytes, and waits otherwise; a request is not served before an earlier request of its group to the same bytes.

R264 to R272, R275, R278, R323: LD, LDU, ST, STU, ATOM and ATOMU with legal operands, whose access passes its checks,
issue an operation with one request a lane; none of them writes memory or a data register at issue. A load through a
record that traps on what it converts, or in a convoy, is served at its instruction. A store whose data does not convert traps
with what it met. With no active lane they complete at once, and an illegal data or address register traps as illegal-operand.
R376, R381: in a convoy a store is made once for the bytes that both sides share, and by each side for its own; an atomic on
shared bytes is performed once, and both sides take its results.

Where the spec leaves a point of this open the statement is of the model: log entries 45, 46 and 65.

Completes, on the conditions stated here on the state and the operands alone: LD, ST, LDU, STU, ATOM and ATOMU. -/
def Obligations.AccessesIssue : Prop :=
  (∀ (s : State) (c : Ctx) (i : Instr) (o : Op), s.group? c.gid = some c.g → o.flag = c.flag i →
     (CounterFree c i → issueOp c o s = .ok (inFlight c i o s) ∧
       (DestFree c i s → completeAtOnce c i s = .ok (countedOnce c i s)) ∧ (¬ DestFree c i s → completeAtOnce c i s = .error (.wait s))) ∧
     (∀ k, c.flag i = some k → 63 ≤ c.g.flagCount k.val →
       issueOp c o s = .error (.wait s) ∧ completeAtOnce c i s = .error (.wait s)) ∧
     (∀ (f : Form) (locs : List Located) (w : Bool), (f.strong && f.releases) = false →
       (acquirePending s c.gid = true → orderWaits c f locs w s = .error (.wait s)) ∧
       (acquirePending s c.gid = false → movesMeet s (c.who s) (locs.map (·.loc)) w = false → orderWaits c f locs w s = .ok s) ∧
       (acquirePending s c.gid = false → movesMeet s (c.who s) (locs.map (·.loc)) w = true →
         orderWaits c f locs w s = .error (.wait s))) ∧
     (∀ (w : Who) (k j : Nat) (r x : LaneReq) (e : Op) (p : Nat), (j, e) ∈ s.groupOps o.group → j < k → x ∈ e.reqs →
       p ∈ x.locs → p ∈ r.locs → mayServe s w k o r = false)) ∧
  (∀ (s s1 t : State) (c : Ctx) (i : Instr) (p : Plan) (locs : List Located), Issues s c →
     (∀ f d sx, loadRow i = some (f, d, sx) →
       (dataOk c.g f.once f.size d = true → f.addrOk c.g = true → f.acting c.g ≠ [] →
         planAccess c .load f (fun _ => .ok ()) s = .ok p → checkAccess s (c.who s) .load false (c.split p.pieces).1 = .ok locs →
         orderWaits c f locs false s = .ok s1 →
         let o : Op := { c.op i with record := p.record, vals := keepPlan p, reqs := loadReqs p locs }
         (p.precise = false → c.t.side = .solo → issueOp c o s1 = .ok t → exec i s = .next (c.done t)) ∧
         (∀ s2 o' r, p.precise = true ∨ c.t.side ≠ .solo → completeAtOnce c i s1 = .ok s2 →
           readOutside c i f p locs o s2 = .ok (o', t) → loadDone (c.who s) f o' = .ok r → r.trap = none →
             exec i s = .next (c.done (acquired f c.gid c.t.place (writeLoad t o' c.lid f d sx r))))) ∧
       (dataOk c.g f.once f.size d = true → f.addrOk c.g = true → f.acting c.g = [] → CounterFree c i → DestFree c i s →
         exec i s = .next (c.done (countedOnce c i s))) ∧
       (dataOk c.g f.once f.size d = false ∨ f.addrOk c.g = false →
         exec i s = .next (c.takeTrap { cause := 0x02 } (c.settled s)))) ∧
     (∀ f d st near far, storeRow i = some (f, d) → c.split p.pieces = (near, far) →
       (dataOk c.g f.once f.size d = true → f.addrOk c.g = true → f.acting c.g ≠ [] →
         planAccess c .store f (fun p => guardOp (wholeBlocks p)) s = .ok p →
         checkAccess s (c.who s) .store f.fires near = .ok locs →
         let o : Op := { c.op i with rel := f.relScope c.g }
         (storeData (c.who s) p (readData c.g d f.size) = .ok st → awaitCopies locs s = .ok () → orderWaits c f locs true s = .ok s1 →
           (c.t.side = .solo → issueOp c { o with reqs := putReqs locs st.puts, locs := globalLocs locs } s1 = .ok t →
             exec i s = .next (c.done (stored c f st
               (if globalLocs locs = [] then t else assayLog c (c.storeSig i st.puts) [] t)))) ∧
           (c.t.side ≠ .solo → storeOnce c i f far (.ok st) locs o s1 = .ok t → exec i s = .next (c.done (stored c f st t)))) ∧
         (∀ x, storeData (c.who s) p (readData c.g d f.size) = .error x → far = [] →
           exec i s = .next (c.takeTrap x (c.settled s)))) ∧
       (dataOk c.g f.once f.size d = true → f.addrOk c.g = true → f.acting c.g = [] → CounterFree c i →
         exec i s = .next (c.done (countedOnce c i s))) ∧
       (dataOk c.g f.once f.size d = false ∨ f.addrOk c.g = false →
         exec i s = .next (c.takeTrap { cause := 0x02 } (c.settled s)))) ∧
     (∀ f once, atomRow i = some (f, once) →
       let fm := AForm.form f once
       let o := atomOp c i f once p
       (atomDataOk c.g f once = true → fm.addrOk c.g = true → fm.acting c.g ≠ [] →
         planAccess c .atomic fm (fun _ => .ok ()) s = .ok p → checkAccess s (c.who s) .atomic fm.fires (c.split p.pieces).1 = .ok locs →
         awaitCopies locs s = .ok () → orderWaits c fm locs true s = .ok s1 →
         (c.t.side = .solo → issueOp c { o with reqs := atomReqs c p locs s1, locs := globalLocs locs } s1 = .ok t →
           exec i s = .next (c.done (tagsTaken c f once p s1 t))) ∧
         (∀ far s2 v s3, c.t.side ≠ .solo → c.split p.pieces = ([], far) → far ≠ [] → completeAtOnce c i s1 = .ok s2 →
           performOnce c (c.sig i (far.flatMap Piece.bytes ++ o.vals.map fun e => e.2.toNat))
             (atomShared c f once far o (fun l => atomReqs c p l s1)) s2 = .ok (v, s3) →
           let flags : BitVec 7 := ((v.find? fun e => e.1 == 1000).map fun e => e.2.setWidth 7).getD 0
           let u := tagsTaken c f once p s1 ((s3.modGroup c.gid fun g =>
             (v.filter fun e => e.1 < 64).foldl (fun g e => writeData g f.data fm.size e.1 false e.2.toNat) g).raiseFp c.gid flags)
           exec i s = .next (c.done (if fm.acquires then acquireAt u c.gid c.t.place fm.scope else u)))) ∧
       (atomDataOk c.g f once = true → fm.addrOk c.g = true → fm.acting c.g = [] → CounterFree c i → DestFree c i s →
         exec i s = .next (c.done (countedOnce c i s))) ∧
       (atomDataOk c.g f once = false ∨ fm.addrOk c.g = false →
         exec i s = .next (c.takeTrap { cause := 0x02 } (c.settled s)))))

/-- R265, R266: a load through record 0 from a page that is not formatted takes its bytes as they are, the lowest address
lowest, and a store puts the bytes of its data there.

R126, R127, R270, R322: with its requests served, and no earlier instruction left to write its registers, a load writes
its lanes in the frame it was issued in and a completed acquire takes effect; an atomic writes the old values; the bytes of a
store, of VENC and of CTXSV take effect at every site, or wait in the L1 before all that issues later, and VENC writes its
advanced pointer; each leaves the operations in flight and counts its flag down, and consumed poison is a fault taken later. A
store to peers or the host completes before it is acknowledged.

Where the spec leaves a point of this open the statement is of the model: log entries 41, 43 and 98.

Completes, on the conditions stated here on the state and the operands alone: INSTRUCTION_COMPLETE. -/
def Obligations.AccessesComplete : Prop :=
  (∀ (w : Who) (f : Form) (record : BitVec 320) (l : Nat) (start : Nat) (size : Nat), f.recIx = 0 → f.size = size → start + size ≤ 2 ^ 56 →
     let x : LanePlan := { lane := l, start := start }
     (∀ get : Nat → Byte, (loadLane w ⟨f, record, [x]⟩ x get).toOption.map (·.data) =
       some (leNat ((List.range size).map fun i => get (start + i)))) ∧
     (∀ data : Nat → Nat, (storeData w ⟨f, record, [x]⟩ data).toOption.map (·.puts) =
       some [(l, (List.range size).map fun i => (start + i, BitVec.ofNat 8 (data l / 2 ^ (8 * i)), 0xFF))])) ∧
  (∀ (s : State) (k : Nat) (o : Op) (w : Who) (c : Ctx) (f : Form), s.op? k = some o → s.who? o.group = some w →
     s.ctx? o.group = some c → formOf o.instr = some f →
     (isPosted o = false → o.reqs = [] → o.posted = false → destFree s k o = true → anyBlocked s o.locs = false →
       (∀ d sx r, loadRow o.instr = some (f, d, sx) → loadDone w f o = .ok r →
         let u := writeLoad s o w.t.launch f d sx r
         let v := if ∃ e ∈ o.got, sharedByte e.1 = true then assayLog c (o.sig []) (outsideVals o) u else u
         (r.trap = none → exec (.instructionComplete k) s = .next (acquired f o.group w.t.place (v.finishOp k o))) ∧
         (∀ x, r.trap = some x → exec (.instructionComplete k) s = .next (v.faultOp k o x))) ∧
       (∀ d sx x, loadRow o.instr = some (f, d, sx) → loadDone w f o = .error x →
         exec (.instructionComplete k) s = .next (s.faultOp k o x)) ∧
       ((∃ d, storeRow o.instr = some (f, d)) ∨ (∃ a fb, o.instr = .ctxsv a fb) ∨ (∃ m, o.instr = .venc m ∧ m.aux = false) →
         exec (.instructionComplete k) s = .next ((completeStore s w.t.place o.locs).finishOp k o)) ∧
       (∀ m n, o.instr = .venc m → m.addr = .s n → m.aux = true →
         exec (.instructionComplete k) s = .next (((completeStore s w.t.place o.locs).finishOp k o).modGroup o.group fun g =>
           o.inFrame g fun g => g.writeS n.val (o.val 200))) ∧
       (∀ a once, atomRow o.instr = some (a, once) →
         let u := settleEverywhere
             ((s.modGroup o.group fun g => o.inFrame g fun g =>
               o.res.foldl (fun g e => writeData g a.data f.size e.1 false e.2.toNat) g).raiseFp o.group o.fp) o.locs
         let v := if o.locs = [] then u else assayLog c (o.sig (o.locs ++ o.vals.map fun e => e.2.toNat)) o.res u
         (o.poison = [] → exec (.instructionComplete k) s = .next (acquired f o.group w.t.place (v.finishOp k o))) ∧
         (∀ x, poisonTrap w o.poison = some x → exec (.instructionComplete k) s = .next (v.faultOp k o x)))) ∧
     (isPosted o = true → o.posted = false → exec (.instructionComplete k) s =
       .next ((vencAdvance o (s.setOp k { o with posted := true, flag := none, doneAt := s.nextId })).modGroup o.group fun g =>
         g.uncount o.flag)))

/-- R242, R319: a write at home changes the bytes it names, in the bits it names, and no other byte of memory.

R242, R254, R270, R318, R333: REQUEST_AT_HOME serves one request of an operation, or refuses it; an atomic's response
may be lost on the way. It changes no byte of memory but those that the operation's requests name and those that the core
held dirty. REFUSAL_RETRY lets a refused request go again, which until then is not served.

R278, R316, R399: REQUEST_AT_HOME performs a peer's request at the peer's own site: a store writes its bytes at home, a load
is answered with the bytes that the site sees, and an atomic with the old value, once: the answer to a tag that its home holds is
the one that it gave.

Where the spec leaves a point of this open the statement is of the model: log entries 41, 44, 62, 63, 64 and 80.

Completes, on the conditions stated here on the state and the operands alone: REQUEST_AT_HOME and REFUSAL_RETRY. -/
def Obligations.RequestsServed : Prop :=
  (∀ (s : State) (site group : Nat) (all : Bool) (wait : List Nat) (ws : List (Nat × Byte × Byte)) (a : Nat),
     ((∀ x ∈ ws, forwarded s.fab x.1 ≠ a) → Memory.get (writeHomeBy s site all wait group ws).mem a = Memory.get s.mem a) ∧
     (∀ v m, ws = [(a, v, m)] → forwarded s.fab a = a →
       Memory.get (writeHomeBy s site all wait group ws).mem a = (Memory.get s.mem a &&& ~~~m) ||| (v &&& m))) ∧
  (∀ (s t : State) (k : Nat) (o : Op), s.op? k = some o →
     (exec (.requestAtHome k) s = .next t → ∀ (w : Who) (a : Nat), s.who? o.group = some w →
       (∀ r ∈ o.reqs, ∀ b ∈ r.bytes, ¬ Reaches s.fab b.2 a) →
       (∀ x ∈ dirtyBytes s.fab w.t.place, ¬ Reaches s.fab x.1 a) → Memory.get t.mem a = Memory.get s.mem a) ∧
     ((∀ r ∈ o.reqs, r.refused = true) → exec (.requestAtHome k) s = .next s) ∧
     (∀ r, o.reqs.find? (·.refused) = some r → exec (.refusalRetry k) s =
       .next (s.setOp k { o with reqs := o.reqs.map fun x => if x = r then { r with refused := false } else x })) ∧
     (∀ (w : Who) (r : LaneReq) (o' : Op) (s' : State), isHolder o.instr = false → o.reqs = [r] → mayServe s w k o r = true →
       s.who? o.group = some w →
       let u : State := { s with free := s.free + 2 }
       (r.bankLine u = none ∨ ∃ n, r.bankLine u = some n ∧ (refuser u n, k, r.lane) ∈ u.fab.tickets ∧
         ticketAhead u (refuser u n) k r.lane = false) →
       serve u w k o r = some (o', s') →
         exec (.requestAtHome k) s = .next (let v : State := { s' with free := s'.free + 1 }
           if Config.freeBit s'.free && isAtomic o.instr && (r.bankLine u).isSome then v.setOp k { o with reqs := [{ r with lost := true }] }
           else afterServe v k o' r))) ∧
  (∀ (s : State) (k : Nat) (r : PeerReq), s.op? k = none → SMap.entry? s.fab.peerReqs k = some r →
     let t := 49 + r.peer.val
     let locs := (List.range r.size).map fun i => forwarded s.fab (r.loc + i)
     let u := s.setFab { s.fab with peerReqs := SMap.del s.fab.peerReqs k }
     let answer (bs : List Byte) (v : State) : State := v.setFab { v.fab with peerReplies := v.fab.peerReplies ++ [(k, bs)] }
     (locs.map lineOf).any (lineWaits s .other) = false → (∀ p ∈ locs, p < 1536 * gib) → blockedFor s t 0 locs = false →
       (∀ bs, r.data = some bs → cowPages s locs = [] → exec (.requestAtHome k) s =
         .next (writeHome u t false ((locs.zip bs).map fun x => (x.1, x.2, 0xFF)))) ∧
       (r.data = none → r.atomic = none → exec (.requestAtHome k) s =
         .next (answer (readLocs u t 0 locs).1 (readLocs u t 0 locs).2)) ∧
       (∀ op a b n, r.data = none → r.atomic = some (op, a, b) → r.tag = some n → cowPages s locs = [] →
         (∀ x v, heldTag s.fab r.requester (lineOf r.loc) n = some x → x.old = some v →
           exec (.requestAtHome k) s = .next (answer (leBytes r.size v.toNat) u)) ∧
         (heldTag s.fab r.requester (lineOf r.loc) n = none →
           let old := leNat (readNewest s locs)
           let v := writeHome u t false ((locs.zip (leBytes r.size (atomNew op (8 * r.size) a b old).1)).map fun y => (y.1, y.2, 0xFF))
           let x : Served := { home := (waybill s ((locs.map lineOf).headD 0)).home, line := lineOf r.loc, core := r.requester, tag := n,
                               old := some (BitVec.ofNat 64 old), fp := 0, poison := [] }
           exec (.requestAtHome k) s =
             .next (answer (leBytes r.size (BitVec.ofNat 64 old).toNat) (v.setFab (recordTag v.fab x))))))

/-- R279: LDFE reads scratchpad granules that are full, and empties them where it says so; STFE writes granules and marks
them full.

Completes, on the conditions stated here on the state and the operands alone: LDFE and STFE. -/
def Obligations.FullEmptyAccess : Prop :=
  ∀ (s s1 s2 : State) (c : Ctx) (f : MForm) (p : Plan) (locs : List Located) (o : Op), Issues s c →
    dataOk c.g false (sizeBytes f.size) f.data = true → (MForm.form f false).addrOk c.g = true → (MForm.form f false).acting c.g ≠ [] →
    let offs := locs.map fun b => b.loc - 2 ^ 48
    (planAccess c .load (MForm.form f false) spadOnly s = .ok p → checkAccess s (c.who s) .load false p.pieces = .ok locs →
      orderWaits c (MForm.form f false) locs false s = .ok s1 → noOverlap c locs false s1 = .ok () →
      (offs.all (fun a => SMap.get false c.t.fe (a / 16)) = false → exec (.ldfe f) s = .next (c.waitHere s1)) ∧
      (∀ r, offs.all (fun a => SMap.get false c.t.fe (a / 16)) = true → completeAtOnce c (.ldfe f) s1 = .ok s2 →
        ∀ s3, serveNow { c.op (.ldfe f) with record := p.record, vals := keepPlan p, reqs := loadReqs p locs } s2 = .ok (o, s3) →
        loadDone (c.who s) (MForm.form f false) o = .ok r → r.trap = none →
          exec (.ldfe f) s = .next (c.done
            (let t := writeLoad s3 o c.lid (MForm.form f false) f.data false r
             if f.aux then t.modTeam c.g.team fun x => x.setGranules offs false else t)))) ∧
    (planAccess c .store (MForm.form f false) spadOnly s = .ok p → checkAccess s (c.who s) .store false p.pieces = .ok locs →
      orderWaits c (MForm.form f false) locs true s = .ok s1 → noOverlap c locs true s1 = .ok () →
      ∀ st s3, storeData (c.who s) p (readData c.g f.data (sizeBytes f.size)) = .ok st → completeAtOnce c (.stfe f) s1 = .ok s2 →
        serveNow { c.op (.stfe f) with reqs := putReqs locs st.puts } s2 = .ok (o, s3) →
          exec (.stfe f) s = .next (c.done (s3.modTeam c.g.team fun x => x.setGranules offs true)))

/-- R237, R280: BUFST loads a record into the team's record file, or declares or removes a scratchpad buffer, from the
bytes at its aligned pointer; a misaligned pointer traps as alignment.

Completes, on the conditions stated here on the state and the operands alone: BUFST_RECORD and BUFST_BUFFER. -/
def Obligations.TablesLoaded : Prop :=
  ∀ (s s1 s2 : State) (c : Ctx) (f : MForm) (n : Fin 64) (bs : List Byte), Issues s c → f.addr = .s n →
    let p := c.g.readS n.val
    let bad : Trap := { cause := 0x0E, addr := reportAddr (c.who s).stackBase c.g.stackSlot p.toNat }
    (f.recIx ≠ 0 →
      (p.toNat % 8 ≠ 0 → exec (.bufstRecord f) s = .next (c.takeTrap bad (c.settled s))) ∧
      (p.toNat % 8 = 0 → acquirePending s c.gid = false → completeAtOnce c (.bufstRecord f) s = .ok s1 →
        readStruct c (.bufstRecord f) .i p 40 s1 = .ok (bs, s2) →
          exec (.bufstRecord f) s = .next (c.done (s2.modTeam c.g.team fun t =>
            { t with records := SMap.set 0 t.records f.recIx.toNat (BitVec.ofNat 320 (leNat bs)) })))) ∧
    (f.recIx.toNat < 16 →
      (p.toNat % 16 ≠ 0 → exec (.bufstBuffer f) s = .next (c.takeTrap bad (c.settled s))) ∧
      (p.toNat % 16 = 0 → acquirePending s c.gid = false →
        engineOn s c.g.team c.t.place (fun x => match SMap.entry? c.t.bufs f.recIx.toNat with
          | some b => decide ((bufRange b.desc).1 ≤ x) && decide (x < (bufRange b.desc).1 + (bufRange b.desc).2)
          | none => false) = false →
        completeAtOnce c (.bufstBuffer f) s = .ok s1 → readStruct c (.bufstBuffer f) .i p 16 s1 = .ok (bs, s2) →
        ∀ d, d = BitVec.ofNat 128 (leNat bs) → bufOk c.t f.recIx.toNat d = true →
          exec (.bufstBuffer f) s = .next (c.done (s2.modTeam c.g.team fun t =>
            let st := [BufState.empty, .filling, .full, .draining].getD (d.extractLsb' 97 2).toNat .empty
            { t with bufs := if d.getLsbD 96 then SMap.put t.bufs f.recIx.toNat { desc := d, state := st }
                             else SMap.del t.bufs f.recIx.toNat }))))

/-- R281: PREF traps for its register, for its record, and as scale-source-absent where record 0 names a page of a format with
scales (R40), and for nothing else; otherwise it brings its lanes' lines or leaves them. R282, R283:
FLUSHL writes the core's dirty bytes of the named lines back (and, where it says so, has their homes write them to HBM),
INVL and SUBSCR with its drop also take the lines out of the L1, and SUBSCR subscribes them through a record that subscribes
precisely and behaves as PREF through any other. With no active lane each of them changes nothing.

Where the spec leaves a point of this open the statement is of the model: log entry 23.

Completes, on the conditions stated here on the state and the operands alone: PREF, FLUSHL, INVL and SUBSCR. -/
def Obligations.CacheInstructions : Prop :=
  ∀ (s t : State) (c : Ctx) (f : MForm) (p : Plan) (locs : List Located), Issues s c → (MForm.form f false).addrOk c.g = true →
    acquirePending s c.gid = false →
    let fm := MForm.form f false
    let core := c.t.place
    let lines := namedLines s.fab locs
    let dropped (u : State) : State := lines.foldl (dropLine core) u
    (fm.acting c.g = [] → ∀ i ∈ [Instr.pref f, .flushl f, .invl f, .subscr f], CounterFree c i →
      exec i s = .next (c.done (countedOnce c i s))) ∧
    (fm.acting c.g ≠ [] → (f.recIx = 0 ∨ recordChecks .load (c.t.fileRec fm.recIx) = .ok ()) → CounterFree c (.pref f) →
      (prefLanes c fm f.aux (countedOnce c (.pref f) s) = .ok t → exec (.pref f) s = .next (c.done t)) ∧
      ∀ x, prefLanes c fm f.aux (countedOnce c (.pref f) s) = .error (.trap x) →
        x = { cause := 0x16 } ∧ f.recIx = 0 ∧ exec (.pref f) s = .next (c.takeTrap x (c.settled s))) ∧
    (∀ x, fm.acting c.g ≠ [] → f.recIx ≠ 0 → recordChecks .load (c.t.fileRec fm.recIx) = .error (.trap x) →
      exec (.pref f) s = .next (c.takeTrap x (c.settled s))) ∧
    (fm.acting c.g ≠ [] → planAccess c .flush fm (fun _ => .ok ()) s = .ok p →
      checkAccess s (c.who s) .flush false p.pieces = .ok locs → noOverlap c locs true s = .ok () → flushWaits s core c.gid lines = false →
      (CounterFree c (.flushl f) → exec (.flushl f) s = .next (c.done (
        let u := writeBackLines (countedOnce c (.flushl f) s) core lines
        if f.aux = true then hbmWritten u false lines else u))) ∧
      (CounterFree c (.invl f) → exec (.invl f) s =
        .next (c.done (dropped (writeBackLines (countedOnce c (.invl f) s) core lines))))) ∧
    (fm.acting c.g ≠ [] → recordChecks .load (c.t.fileRec fm.recIx) = .ok () → CounterFree c (.subscr f) →
      (planAccess c .load fm (fun _ => .ok ()) s = .ok p → checkAccess s (c.who s) .load false p.pieces = .ok locs →
        (f.aux = true → noOverlap c locs true s = .ok () → flushWaits s core c.gid lines = false →
          exec (.subscr f) s = .next (c.done (dropped (writeBackLines (countedOnce c (.subscr f) s) core lines)))) ∧
        (∀ u m, f.aux = false → subscription (some (Rec.ofBits fm.recIx (c.t.fileRec fm.recIx))) = some (some u, m) →
          noOverlap c locs false s = .ok () →
          (byLine (forwardAll s.fab ((locs.filter fun b => !isSpad b.loc && !isBypass (countedOnce c (.subscr f) s) b.loc).map fun b =>
            (b.ptr, b.loc)))).foldlM
            (fun s b => subscribeLine s (c.who s) fm (u, m) b) (countedOnce c (.subscr f) s) = some t →
            exec (.subscr f) s = .next (c.done t))) ∧
      (f.aux = false → (∀ u m, subscription (some (Rec.ofBits fm.recIx (c.t.fileRec fm.recIx))) ≠ some (some u, m)) →
        prefLanes c { fm with req := .i } false (countedOnce c (.subscr f) s) = .ok t → exec (.subscr f) s = .next (c.done t)))

/-- R284 to R286: VDEC writes the decoded values of a block to the active lanes and advances its pointer register where it
says so; a header that R284 does not allow is an illegal operand at its address; VENC stores the block that encodes the active
lanes. A pointer that is not aligned to 8 traps as alignment. R376: the two sides of a convoy share one read or write of a
block that is not in the private stack.

R286: what VENC encodes VDEC decodes: the block of up to 64 32-bit values gives them back.

Where the spec leaves a point of this open the statement is of the model: log entries 25, 51 and 95.

Completes, on the conditions stated here on the state and the operands alone: VDEC and VENC. -/
def Obligations.BlockCodec : Prop :=
  (∀ (s s1 s2 s3 : State) (c : Ctx) (f : MForm) (n : Fin 64) (h bs : List Byte) (m mode b r : Nat), Issues s c → f.addr = .s n →
     dataOk c.g false 4 f.data = true →
     (c.g.exec = 0 → ∀ i ∈ [Instr.vdec f, .venc f], CounterFree c i → DestFree c i s → exec i s = .next (c.done (countedOnce c i s))) ∧
     (c.g.exec ≠ 0 →
     let a := ptrAdd (c.g.readS n.val) f.off.toInt
     let bad : Trap := { cause := 0x0E, addr := reportAddr (c.who s).stackBase c.g.stackSlot a.toNat }
     let decoded (bs : List Byte) (u : State) : State := advanceAddr c f a (vSize m b) (u.modGroup c.gid fun g =>
       (lanes g.exec).foldl (fun g l => writeData g f.data 4 l false (((vValues m mode b r (leNat (bs.drop 8)))[l]?).getD 0)) g)
     (a.toNat % 8 ≠ 0 → ∀ i ∈ [Instr.vdec f, .venc f], exec i s = .next (c.takeTrap bad (c.settled s))) ∧
     (a.toNat % 8 = 0 → acquirePending s c.gid = false → completeAtOnce c (.vdec f) s = .ok s1 →
       (∀ u, readShared c (.vdec f) a 0 (vRead c f a) s1 = .ok (bs, u) → vHeader (leNat (bs.take 8)) = some (m, mode, b, r) →
         exec (.vdec f) s = .next (c.done (decoded bs u))) ∧
       (readRaw c (.vdec f) f.req f.hint a 8 s1 = .ok (h, s2) → c.t.side = .solo →
         (vHeader (leNat h) = none → exec (.vdec f) s = .next (c.takeTrap { bad with cause := 0x02 } (c.settled s))) ∧
         (vHeader (leNat h) = some (m, mode, b, r) → h.length = 8 → readRaw c (.vdec f) f.req f.hint a (vSize m b) s2 = .ok (bs, s3) →
           let all := h ++ bs.drop 8
           let u := if sharedByte a.toNat then
             assayLog c (c.sig (.vdec f) [a.toNat, 0]) (all.zipIdx.map fun (v, k) => (k, v.zeroExtend 64)) s3 else s3
           exec (.vdec f) s = .next (c.done (decoded all u))))) ∧
     (∀ near far locs t, bs = vEncode ((lanes c.g.exec).map fun l => readData c.g f.data 4 l) → a.toNat % 8 = 0 →
       c.split [{ lane := 0, ptr := a, len := bs.length }] = (near, far) →
       checkAccess s (c.who s) .store false near = .ok locs → awaitCopies locs s = .ok () →
       orderWaits c (MForm.form f true) locs true s = .ok s1 →
       let puts : List (Nat × List Put) := [(0, bs.zipIdx.map fun (v, k) => ((ptrAdd a (k : Nat)).toNat, v, 0xFF))]
       let o : Op := { c.op (.venc f) with vals := [(200, ptrAdd a bs.length)] }
       (c.t.side = .solo → issueOp c { o with reqs := putReqs locs puts, locs := globalLocs locs } s1 = .ok t →
         exec (.venc f) s = .next (c.done (if globalLocs locs = [] then t else assayLog c (c.storeSig (.venc f) puts) [] t))) ∧
       (c.t.side ≠ .solo → storeOnce c (.venc f) (MForm.form f true) far (.ok { puts }) locs o s1 = .ok t →
         exec (.venc f) s = .next (c.done (advanceAddr c f a bs.length t)))))) ∧
  (∀ xs : List Nat, xs ≠ [] → xs.length ≤ 64 → (∀ x ∈ xs, x < 2 ^ 32) →
     ∃ b r, vHeader (leNat ((vEncode xs).take 8)) = some (xs.length, 0, b, r) ∧ (vEncode xs).length = vSize xs.length b ∧
       vValues xs.length 0 b r (leNat ((vEncode xs).drop 8)) = xs)

/-- R250, R269, R287: a release with nothing of its group pending, and no posted write that can still arrive, brings the core's
dirty bytes home and makes what its site has seen take effect as its scope says, once the invalidations that this caused are
over; it waits until then.

R287, R323, R325, R399: a FENCE completes once no load is pending, a releasing one once every access is and its release
is made, which the group's next strong store or atomic completes, and an acquiring one takes its effect; a FENCE.SC makes a
release of system scope besides, so that it is ordered with every effect seen; a system fence waits while a write is
unacknowledged, and traps as fence-unreachable where its links are down or it has waited LINKFENCELIM cycles, at its
instruction or as its wait ends. A system fence of a convoy goes on when both sides have come to it (R376).

Where the spec leaves a point of this open the statement is of the model: log entries 62 and 63.

Completes, on the conditions stated here on the state and the operands alone: FENCE and FENCE_LINK_TIMEOUT. -/
def Obligations.FencesComplete : Prop :=
  (∀ (s : State) (c : Ctx) (fence : Bool) (sc : Scope),
     (s.pendingOps c.gid ≠ [] ∨ (∃ e ∈ s.groupOps c.gid, postedOpen s e.2 = true) → release c fence sc s = .error (.wait s)) ∧
     (s.pendingOps c.gid = [] → (∀ e ∈ s.groupOps c.gid, postedOpen s e.2 = false) →
       (releaseReady s c.t.place sc = false → release c fence sc s = .error (.wait s)) ∧
       (releaseReady s c.t.place sc = true →
         let awaited := Scope.global sc = true ∨ fence = true ∧ Scope.wide sc = true
         let t := releaseAt s c.t.place sc
         (¬ awaited ∨ invalidationsPending t = false → release c fence sc s = .ok t) ∧
         (awaited → invalidationsPending t = true → release c fence sc s = .error (.wait t))))) ∧
  (∀ (s s0 s1 : State) (c : Ctx) (f : MForm), s.ctx? c.gid = some c → acquirePending s c.gid = false →
     let rel := f.ord == .release || f.ord == .acqRel
     let u := if f.scope = .system then startFence c s else s
     (rel = true → release c true f.scope u = .ok s0) →
     (rel = false → (u.pendingOps c.gid).any (fun e => isLoadOp e.2.instr) = false ∧ s0 = u) →
     (f.aux = true → release c true .system s0 = .ok s1) → (f.aux = false → s1 = s0) →
     let s2 := if f.ord = .acquire ∨ f.ord = .acqRel then acquireAt s1 c.gid c.t.place f.scope else s1
     let ended (u : State) : State := u.modGroup c.gid fun g =>
       { g with fenceStart := none, fenceRel := if rel then some f.scope else g.fenceRel }
     let late := unreachableWrite s2 c.gid || fenceLate s2 c.gid
     let trapped := c.takeTrap { cause := 0x10, addr := BitVec.ofNat 64 (unacknowledged s2 c.gid) } (c.settled (ended s2))
     (Issues s c →
       (f.scope ≠ .system → ∀ t, completeAtOnce c (.fence f) (ended s2) = .ok t → exec (.fence f) s = .next (c.done t)) ∧
       (f.scope = .system → unacknowledged s2 c.gid = 0 →
         (∀ v s3 t, performOnce c (c.sig (.fence f) []) (fun x => .ok ([], x)) s2 = .ok (v, s3) →
           completeAtOnce c (.fence f) (ended s3) = .ok t → exec (.fence f) s = .next (c.done t)) ∧
         (c.t.side = .solo → ∀ t, completeAtOnce c (.fence f) (ended (assayLog c (c.sig (.fence f) []) [] s2)) = .ok t →
           exec (.fence f) s = .next (c.done t))) ∧
       (f.scope = .system → unacknowledged s2 c.gid ≠ 0 → late = false → exec (.fence f) s = .next (c.waitHere s2)) ∧
       (f.scope = .system → unacknowledged s2 c.gid ≠ 0 → late = true → exec (.fence f) s = .next trapped)) ∧
     (c.g.phase = .waiting → fenceLate s c.gid = true → f.scope = .system → unacknowledged s2 c.gid ≠ 0 → late = true →
       (codeAt c.r (c.g.hdr.toNat + 8 * c.g.idx)).bind decode? = some (.fence f) →
         exec (.fenceLinkTimeout c.gid) s = .next trapped))

/-- R278, R333, R399: the core sends an unanswered atomic again with its tags after 2^20 cycles or when the path is lost, and a
home that holds the tag of a repeat answers from its record and performs nothing again; a peer access that stays unanswered for
LINKFENCELIM cycles, or whose links are all down, is fence-unreachable, whether it is an operation in flight or the read of an
instruction that waits for it.

Where the spec leaves a point of this open the statement is of the model: log entries 11, 59 and 62.

Completes, on the conditions stated here on the state and the operands alone: ATOMIC_REPEAT_TIMEOUT, ATOMIC_REPEAT_PATH_LOST and PEER_ACCESS_TIMEOUT. -/
def Obligations.RepeatsAndTimeouts : Prop :=
  ∀ (s : State) (k core : Nat) (o : Op) (w : Who), s.who? o.group = some w →
    (s.group? o.group).bind (placeOfGroup s) = some core →
    (s.op? k = some o → isAtomic o.instr = true →
      let again := s.setOp k { o with reqs := o.reqs.map fun r => { r with lost := false, again := r.again || r.lost } }
      exec (.atomicRepeatPathLost k) s = .next again ∧
      (o.reqs ≠ [] → o.sentAt + 0x100000 ≤ s.cycle (reticleOf core) → exec (.atomicRepeatTimeout k) s = .next again) ∧
      ∀ (r : LaneReq) (u : BitVec 16) (x : Served), r.kind = .atomic → r.tag = some u → r.again = true →
        heldTag s.fab w.t.place (lineOf (((r.bytes.head?).map (·.2)).getD 0)) u = some x →
        (serve s w k o r).map (·.2) = some s ∧ (serve s w k o r).map (·.1.reqs) = some (o.reqs.erase r) ∧
          ∀ v, x.old = some v → (serve s w k o r).map (·.1.res) = some (o.res ++ [(r.lane, v)])) ∧
    (s.op? k = some o → isLoadOp o.instr = true → o.posted = false → (askedBy o).any isPeer = true →
      o.sentAt + w.g.linkFenceLim.zeroExtend 64 ≤ s.cycle (reticleOf w.t.place) ∨
        (∃ p ∈ askedBy o, isPeer p = true ∧ ∀ i < 12, (SMap.get 0 s.dev.peers (peerOf p)).getLsbD i = true → SMap.get .down s.dev.links i = .down) →
        exec (.peerAccessTimeout k) s = .next (s.faultOp k o { cause := 0x10 })) ∧
    (serveAll (2 * o.reqs.length) o s = none → (∀ r ∈ o.reqs, r.kind = .load ∨ r.kind = .atomic) → (askedBy o).any isPeer = true →
      let now := s.cycle (reticleOf w.t.place)
      let expired := w.g.peerStart.isSome = true ∧ w.g.peerStart.getD now + w.g.linkFenceLim.zeroExtend 64 ≤ now
      ((askedBy o).any (linkDown s) = true ∨ expired → serveNow o s = .error (.trap { cause := 0x10 })) ∧
      ((askedBy o).any (linkDown s) = false → ¬ expired → serveNow o s =
        .error (.wait (s.modGroup o.group fun g => { g with peerStart := some (w.g.peerStart.getD now) }))))

/-! ## Engines, barriers, collectives and the matrix engine -/

/-- R288, R289: BCOPY with legal operands whose ranges pass their early checks starts a copy that is counted, and holds the
lines it will write; a length that is not legal is an illegal operand, a place that is not usable traps as placement-fault, and
the handler may not start one. It waits while a bank has no waybill for a line that it would hold. In a convoy the copy is
started once (R376).

R239, R289, R290: a copy starts once earlier accesses of its group have reached memory and the receiving team takes it,
and may copy some bytes at once; a place where the launch has no team is placement-fault. With every byte passing the late
checks it writes what it has not written, frees its lines and completes, and it then signals its barrier object where it has
one, whose arrival is an illegal operand where the object is none; a page that is not present stops it at the end of a line for
the handler, and any other failed check, or a receiving team that has gone, ends it.

Where the spec leaves a point of this open the statement is of the model: log entries 42, 48, 49, 60, 79, 82 and 91.

Completes, on the conditions stated here on the state and the operands alone: BCOPY, BCOPY_FIRST_BEAT, BCOPY_COMPLETE and BCOPY_FAULT. -/
def Obligations.Copies : Prop :=
  (∀ (s t : State) (c : Ctx) (f : EForm) (i j n : Fin 64), Issues s c → f.src = .s i → f.dst = .s j → f.len = .s n →
     acquirePending s c.gid = false →
     let src := c.g.readS i.val
     let dst := c.g.readS j.val
     let len := c.g.readS n.val
     let sig := c.sig (.bcopy f) [src.toNat, dst.toNat, len.toNat]
     (c.g.sup = true → exec (.bcopy f) s = .next (c.takeTrap { cause := 0x02 } (c.settled s))) ∧
     (c.g.sup = false → copyOf f.twoD src dst len = none → exec (.bcopy f) s = .next (c.takeTrap { cause := 0x02 } (c.settled s))) ∧
     (∀ x, c.g.sup = false → copyOf f.twoD src dst len = some x →
       (usable s.dev f.place.toNat = false →
         exec (.bcopy f) s = .next (c.takeTrap { cause := 0x12, addr := f.place.zeroExtend 64 } (c.settled s))) ∧
       (usable s.dev f.place.toNat = true →
         rangeCheck (c.who s) (x.rowsOf .load src x.sstride ++ if isSpadPtr dst.toNat then [] else x.rowsOf .store dst x.dstride) = .ok () →
         let u := (c.who s).fill s (if isSpadPtr dst.toNat then [] else x.pairs.map (·.2))
         let held := heldByCopy u (c.who s) x
         let o : Op := { c.op (.bcopy f) with vals := [(0, src), (1, dst), (2, len)], locs := held }
         (issueHolder c (.bcopy f) o sig u = .ok t → exec (.bcopy f) s = .next (c.done t)) ∧
         (c.t.side = .solo → s.nextId < 2 ^ 64 → CounterFree c (.bcopy f) →
           (holdLines u held = none → exec (.bcopy f) s = .next (c.waitHere u)) ∧
           (∀ v, holdLines u held = some v → issueOp c o (assayLog c sig [namedOp v.nextId] v) = .ok t →
             exec (.bcopy f) s = .next (c.done t)))))) ∧
  (∀ (s : State) (k tid n p : Nat) (o : Op) (f : EForm) (w : Who) (x : Copy) (zs : List (Site × Site)), s.op? k = some o →
     o.instr = .bcopy f → s.who? o.group = some w → o.copy f = some x →
     (o.started = false → engineReady? s k o w.t.place = true → spadRetained s.fab f.place.toNat = false →
       let u := x.fill w (writeBack s w.t.place)
       let toSpad := isSpadPtr x.dst.toNat && x.rows * x.len ≠ 0
       let offs := if toSpad then x.pairs.map fun p => p.2 % 2 ^ 56 - 0xF0000000000000 else []
       (toSpad = false → f.sig = false → exec (.bcopyFirstBeat k) s = .next (startCopy u k o w x w.g.team)) ∧
       (toSpad = true ∨ f.sig = true →
         (teamAt u w.t.launch f.place.toNat w.t.side = none → exec (.bcopyFirstBeat k) s =
           .next (endEngine u k o { cause := 0x12, addr := f.place.zeroExtend 64 })) ∧
         (∀ t, teamAt u w.t.launch f.place.toNat w.t.side = some (tid, t) → (f.sig = true → 16 * f.bar.toNat + 16 ≤ t.spadSize) →
           (toSpad = true → ptrRegion x.dst = 0) → (∀ a ∈ offs, a < t.spadSize ∧ engineBufOk t true a = true) →
             exec (.bcopyFirstBeat k) s = .next (startCopy u k o w x tid))) ∧
       ∃ m ls, (startCopy u k o w x tid).op? k =
         some { o with started := true, vals := (9, BitVec.ofNat 64 tid) :: o.vals, prog := m, locs := ls }) ∧
     (o.started = true → o.fault = none → receiverGone s o = true → exec (.bcopyFault k) s =
       .next (endEngine (endReads s o w x) k o { cause := 0x12, addr := f.place.zeroExtend 64 })) ∧
     (∀ u0, o.started = true → o.fault = none → receivingTeam s o = some tid → (o.doneAt = 0 → u0 = s) →
       (o.doneAt ≠ 0 → engineReady? s k o w.t.place = true ∧ u0 = writeBack s w.t.place) →
       let locs := siteLocs (zs.map (·.2))
       let asked (xs : List (Site × Site)) := (xs.drop o.prog).flatMap fun z => [z.1, z.2]
       (let u := x.fill w u0
        let written := endReads ((boxesAt u locs).foldl fireBox (freeLines (settleEverywhere
          (copyBytes u w.t.place o.group tid (zs.drop o.prog)) locs) k o.locs)) o w x
        let ended := if tid = w.g.team then noteShare written tid k (spadOffs (zs.map (·.2))) else written
        let off := 16 * f.bar.toNat
        copySites u w tid x = (zs, none) → (boxesAt u locs).all (boxHasRoom u) = true → invalidationsPending u = false →
         spadRetained u.fab f.place.toNat = false → sitesWait u k o w.t.place (asked zs) = false → copiesDone u locs = true →
         (f.sig = false → exec (.bcopyComplete k) s = .next (ended.finishOp k o)) ∧
         (f.sig = true → signalWaits u w.t.place tid off = false →
           (∀ t, signalObject ended w.t.place tid off = some t → exec (.bcopyComplete k) s =
             .next ((if tid = w.g.team then noteResult t tid k [(2 ^ 34 + off, 0)] else t).finishOp k o)) ∧
           (signalObject ended w.t.place tid off = none → exec (.bcopyComplete k) s =
             .next (endEngine ended k o { cause := 0x02, addr := objectAddr f })))) ∧
       (copySites u0 w tid x = (zs, some (n, p)) →
         (isPageAbsent u0 w n p = false → copiesDone u0 locs = true → sitesWait u0 k o w.t.place (asked zs) = false →
           let e := copyUpTo u0 k o w tid zs zs.length
           exec (.bcopyFault k) s = .next (endEngine (endReads e.1 e.2 w x) k e.2 (engineTrap w n p))) ∧
         (let ys := zs.take (x.lineCut zs.length)
          isPageAbsent u0 w n p = true → copiesDone u0 (siteLocs (ys.map (·.2))) = true → sitesWait u0 k o w.t.place (asked ys) = false →
           let e := copyUpTo u0 k o w tid ys ys.length
           exec (.bcopyFault k) s = .next (stallEngine e.1 k e.2 (engineTrap w n p))))))

/-- R260, R261, R291: STREAM opens a stream on the descriptor at its aligned pointer, with the record the descriptor
names; a number that is open traps as queue-misuse, as does SCLOSE of one that is not; OUTRIDER_FETCH adds the next vector
while fewer than the depth wait to be popped and the group has not ended. R376: a convoy's lead fetches for both sides while both
stand at the same vector, and a side that is behind fetches what the other has.

Where the spec leaves a point of this open the statement is of the model: log entry 52.

Completes, on the conditions stated here on the state and the operands alone: STREAM, SCLOSE and OUTRIDER_FETCH. -/
def Obligations.StreamsOpen : Prop :=
  ∀ (s s1 s2 : State) (c : Ctx) (a : Fin 64) (n : Fin 8) (fb : Bool) (bs : List Byte),
    let p := c.g.readS a.val
    let d : BitVec 512 := BitVec.ofNat 512 (leNat bs)
    (Issues s c → c.g.sup = false → acquirePending s c.gid = false →
      (SMap.entry? c.g.streams n.val = none → p.toNat % 64 = 0 → completeAtOnce c (.stream (.s a) n fb) s = .ok s1 →
        readStruct c (.stream (.s a) n fb) .i p 64 s1 = .ok (bs, s2) →
        streamOk d (c.t.fileRec (d.extractLsb' 96 6).toNat) = .ok () →
          let st : Stream := { desc := d, record := c.t.fileRec (d.extractLsb' 96 6).toNat, ready := true, since := s2.nextId }
          exec (.stream (.s a) n fb) s =
            .next (c.done (s2.modGroup c.gid fun g => { g with streams := SMap.put g.streams n.val st }))) ∧
      (SMap.entry? c.g.streams n.val ≠ none →
        exec (.stream (.s a) n fb) s = .next (c.takeTrap { cause := 0x13 } (c.settled s)) ∧
        (CounterFree c (.sclose n fb) → exec (.sclose n fb) s = .next (c.done
          ((countedOnce c (.sclose n fb) s).modGroup c.gid fun g => { g with streams := SMap.del g.streams n.val })))) ∧
      (SMap.entry? c.g.streams n.val = none → exec (.sclose n fb) s = .next (c.takeTrap { cause := 0x13 } (c.settled s)))) ∧
    (∀ (gid : Nat) (st : Stream) (v : StreamVec) (t : State), s.ctx? gid = some c → SMap.entry? c.g.streams n.val = some st →
      st.ready = true → c.g.phase ≠ .ended → c.g.phase ≠ .stopped → st.fetched.length < (st.desc.extractLsb' 104 7).toNat →
      st.pos + st.fetched.length < streamCount st.desc → (∀ e ∈ s.groupOps gid, e.1 < st.since → e.2.reqs = []) →
      streamVec s (c.who s) st (st.pos + st.fetched.length) = some (v, t) →
        let add (g : Nat) (u : State) : State := u.modGroup g fun y =>
          { y with streams := SMap.adjust y.streams n.val fun x => { x with fetched := x.fetched ++ [v] } }
        let logged (u : State) : State := assayLog c (c.sig (.stream (.s 0) n false) [st.pos + st.fetched.length]) v.vals u
        (c.t.side = .solo → exec (.outriderFetch gid n) s = .next (logged (add gid t))) ∧
        (∀ p g other, c.t.side ≠ .solo → c.peer? s = some p → s.group? p = some g → SMap.entry? g.streams n.val = some other →
          (c.t.side = .lead → other.pos + other.fetched.length = st.pos + st.fetched.length →
            exec (.outriderFetch gid n) s = .next (logged (add p (add gid t)))) ∧
          (st.pos + st.fetched.length < other.pos + other.fetched.length →
            exec (.outriderFetch gid n) s = .next (add gid t))))

/-- R342, R344: n arrivals at a barrier object below its expected count add to the count and keep the phase and the
waiters; those that reach it flip the phase, start the count again and leave no waiter.

R344 to R346, R98: BARA arrives at its object and writes the phase it found; BARW goes on where the object's phase is not
the one it names, and waits with its bit in the waiter mask otherwise; TBAR goes on once every group of the team that has
not ended has arrived as often; WAYPT outside a convoy goes on, and in one it arrives and waits until every group of both sides
has come and has nothing in flight, when the first of them takes the waypoint, or traps as convoy-mismatch where the sides
differ, and the others go on; DEPSIG sets its team's bit once, and once for the two sides of a convoy (R376).

Completes, on the conditions stated here on the state and the operands alone: BARW, BARA, TBAR, DEPSIG and WAYPT. -/
def Obligations.Barriers : Prop :=
  (∀ (v : BitVec 128) (n e x : Nat), e = (v.extractLsb' 32 32).toNat → x = (v.extractLsb' 0 32).toNat → objectBad v = false → x < e →
     (arriveObject v n).extractLsb' 32 32 = v.extractLsb' 32 32 ∧ (arriveObject v n).extractLsb' 65 31 = v.extractLsb' 65 31 ∧
     (x + n < e → (arriveObject v n).extractLsb' 0 32 = BitVec.ofNat 32 (x + n) ∧
       (arriveObject v n).extractLsb' 64 1 = v.extractLsb' 64 1 ∧ (arriveObject v n).extractLsb' 96 32 = v.extractLsb' 96 32) ∧
     (x + n = e → (arriveObject v n).extractLsb' 0 32 = 0 ∧
       (arriveObject v n).extractLsb' 64 1 = ~~~(v.extractLsb' 64 1) ∧ (arriveObject v n).extractLsb' 96 32 = 0)) ∧
  (∀ (s s1 s2 : State) (c : Ctx) (d a : Fin 64) (count phase : Spec) (sc : BScope) (fb : Bool) (off n : Nat) (ph : Bool), Issues s c →
     c.g.sup = false → acquirePending s c.gid = false →
     (arrivalCount c count = .ok n → n ≠ 0 → objectAt c (c.g.readS a.val) s = .ok off →
       completeAtOnce c (.bara (.s d) (.s a) count sc fb) s = .ok s1 → release c false (BScope.scope sc) s1 = .ok s2 →
       objectBad (c.t.object off) = false →
         exec (.bara (.s d) (.s a) count sc fb) s = .next (c.done
           ((s2.modTeam c.g.team fun t => t.setObject off (arriveObject (c.t.object off) n)).modGroup c.gid fun g =>
             g.writeS d.val (((c.t.object off).extractLsb' 64 1).zeroExtend 64)))) ∧
     (phaseBit c phase = .ok ph → objectAt c (c.g.readS a.val) s = .ok off → objectBad (c.t.object off) = false →
       completeAtOnce c (.barw (.s a) phase sc fb) s = .ok s1 →
       ((c.t.object off).getLsbD 64 ≠ ph →
         exec (.barw (.s a) phase sc fb) s = .next (c.done (acquireAt s1 c.gid c.t.place (BScope.scope sc)))) ∧
       ((c.t.object off).getLsbD 64 = ph → exec (.barw (.s a) phase sc fb) s = .next (c.waitHere
         (s1.modTeam c.g.team fun t => t.setObject off (c.t.object off ||| BitVec.ofNat 128 (2 ^ (96 + c.g.slot))))))) ∧
     (c.g.arrived = false → completeAtOnce c (.tbar fb) s = .ok s1 → release c false .team s1 = .ok s2 →
       let t := s2.modGroup c.gid fun g => { g with tbars := g.tbars + 1, arrived := true }
       ((∀ e ∈ t.teamGroups c.g.team, e.2.phase = .ended ∨ c.g.tbars + 1 ≤ e.2.tbars) →
         exec (.tbar fb) s = .next (c.done ((acquireAt t c.gid c.t.place .team).modGroup c.gid fun g => { g with arrived := false }))) ∧
       ((∃ e ∈ t.teamGroups c.g.team, e.2.phase ≠ .ended ∧ e.2.tbars < c.g.tbars + 1) →
         exec (.tbar fb) s = .next (c.waitHere t))) ∧
     (c.g.arrived = true → completeAtOnce c (.tbar fb) s = .ok s1 →
       (∀ e ∈ s1.teamGroups c.g.team, e.2.phase = .ended ∨ c.g.tbars ≤ e.2.tbars) →
         exec (.tbar fb) s = .next (c.done ((acquireAt s1 c.gid c.t.place .team).modGroup c.gid fun g => { g with arrived := false }))) ∧
     (completeAtOnce c (.depsig fb) s = .ok s1 → release c false .device s1 = .ok s2 →
       let signalled (u : State) : State := if c.l.prot || c.t.depsigned then u else setBitmapBit c.l c.t.index u
       (∀ v s3, performOnce c (c.sig (.depsig fb) []) (fun u => .ok ([], signalled u)) s2 = .ok (v, s3) →
         exec (.depsig fb) s = .next (c.done (s3.modTeam c.g.team fun t => { t with depsigned := true }))) ∧
       (c.t.side = .solo → exec (.depsig fb) s = .next (c.done ((assayLog c (c.sig (.depsig fb) []) [] (signalled s2)).modTeam
         c.g.team fun t => { t with depsigned := true })))) ∧
     (c.convoy? s = none → CounterFree c (.waypt fb) → exec (.waypt fb) s = .next (c.done (countedOnce c (.waypt fb) s))) ∧
     (∀ v, completeAtOnce c (.waypt fb) s = .ok s1 → c.convoy? s1 = some v →
       let n := if c.g.arrived then c.g.waypts else c.g.waypts + 1
       let u := if c.g.arrived then s1 else s1.modGroup c.gid fun g => { g with waypts := n, arrived := true }
       let passed (t : State) : State := t.modGroup c.gid fun g => { g with arrived := false }
       let both := u.teamGroups v.lead ++ u.teamGroups v.escort
       (n ≤ v.wayNo → exec (.waypt fb) s = .next (c.done (passed u))) ∧
       (v.wayNo < n → (∀ e ∈ both, (e.2.phase = .ended ∨ n ≤ e.2.waypts) ∧ u.pendingOps e.1 = []) →
         (∀ t, takeWaypoint u v n = some t → exec (.waypt fb) s = .next (c.done (passed t))) ∧
         (takeWaypoint u v n = none → exec (.waypt fb) s = .next (c.takeTrap { cause := 0x11 } (c.settled s)))) ∧
       (v.wayNo < n → (∃ e ∈ both, e.2.phase ≠ .ended ∧ e.2.waypts < n ∨ u.pendingOps e.1 ≠ []) →
         exec (.waypt fb) s = .next (c.waitHere u))))

/-- R347 to R349: COLL of group 0 of a team reads its command record and issues, once for the two sides of a convoy (R376);
once it has been carried out COLL_COMPLETE completes it. COLL_FAULT makes every COLL of a collective of which one differs from
team 0's an illegal operand, also of a team that issues it later; one that a retired team never issued is queue-misuse, and a
byte that fails a late check ends its own team's COLL, or stops it for the handler where its page is not present. A COLL of
another group is an illegal operand.

Where the spec leaves a point of this open the statement is of the model: log entries 48, 53, 62, 82 and 91.

Completes, on the conditions stated here on the state and the operands alone: COLL, COLL_COMPLETE and COLL_FAULT. -/
def Obligations.Collectives : Prop :=
  (∀ (s s1 t : State) (c : Ctx) (a : Fin 64) (fb : Bool) (bs : List Byte), Issues s c → c.g.sup = false →
    acquirePending s c.gid = false →
    let i := Instr.coll (.s a) fb
    let p := c.g.readS a.val
    let r : BitVec 512 := BitVec.ofNat 512 (leNat bs)
    let x := Command.ofBits (r.setWidth 320)
    let issued (u : State) : State := u.modGroup c.gid fun g => { g with colls := g.colls + 1 }
    (c.g.slot ≠ 0 → exec i s = .next (c.takeTrap { cause := 0x02 } (c.settled s))) ∧
    (c.g.slot = 0 → p.toNat % 64 = 0 → CounterFree c i →
      (∀ v s2, performOnce c (c.sig i [p.toNat]) (collAsked c i p (c.who s)) s = .ok (v, s2) →
        let q : BitVec 512 := BitVec.ofNat 512 (((v.drop 1).take 8).foldr (fun e n => e.2.toNat + 2 ^ 64 * n) 0)
        let held := collHeld s2 (c.who s) c.l.teams (Command.ofBits (q.setWidth 320)) c.t.index
        joinEngine c i { c.op i with record := q.setWidth 320, prog := c.g.colls + 1, locs := held } v
          (if c.t.side = .escort then s2 else (holdLines s2 held).getD s2) = .ok t →
            exec i s = .next (c.done (issued t))) ∧
      (c.t.side = .solo → readStructIf false c i .i p 64 s = .ok (bs, s1) →
        commandOk r c.l.teams = true → (apertureOf (ptrAddr x.src)).kind ≠ 1 → (apertureOf (ptrAddr x.dst)).kind ≠ 1 →
        x.devices = 1 ∨ c.l.prot = false → x.src.toNat % x.size = 0 → x.dst.toNat % x.size = 0 →
        rangeCheck (c.who s) [(.load, x.src, x.srcCount c.l.teams * x.size), (.store, x.dst, x.dstCount c.l.teams * x.size)] = .ok () →
        s1.nextId < 2 ^ 64 → holdLines s1 (collHeld s1 (c.who s) c.l.teams x c.t.index) ≠ none →
        let s2 := assayLog c (c.sig i [p.toNat]) (namedOp s1.nextId ::
          (List.range 8).map fun k => (k + 1, r.extractLsb' (64 * k) 64)) s1
        let held := collHeld s2 (c.who s) c.l.teams x c.t.index
        issueOp c { c.op i with record := r.setWidth 320, prog := c.g.colls + 1, locs := held } ((holdLines s2 held).getD s2) = .ok t →
          exec i s = .next (c.done (issued t))))) ∧
  (∀ (s s1 : State) (k : Nat) (o o1 : Op) (w : Who) (a : Spec) (fb : Bool), s.op? k = some o → o.instr = .coll a fb →
    s.who? o.group = some w →
    (o.started = true → exec (.collComplete k) s = .next (s.finishOp k o)) ∧
    (o.started = false → runCollective s w.t.launch o.prog = some s1 → s1.op? k = some o1 →
      exec (.collComplete k) s = .next (s1.finishOp k o1)) ∧
    (o.started = false → o.fault = none →
      let ps := participants s w.t.launch o.prog
      let x := Command.ofBits o.record
      let all (t : Trap) (u : State) : State := ps.foldl (fun s p => endEngine s p.2.1 p.2.2 t) u
      let differs := (∃ q, ps.find? (fun p => p.1 == 0) = some q ∧ ¬ sameCollective (Command.ofBits q.2.2.record) x) ∨
        o.prog ∈ w.l.differed
      let lacking := ∃ t ∈ w.l.retired, ∀ p ∈ ps, p.1 ≠ t
      (differs → exec (.collFault k) s = .next (all { cause := 0x02 }
        (s.modLaunch w.t.launch fun l => { l with differed := (o.prog :: l.differed).dedup }))) ∧
      (¬ differs → lacking → exec (.collFault k) s = .next (all { cause := 0x13 } s)) ∧
      (¬ differs → ¬ lacking → ∀ n b, collSites s w w.l.teams x w.t.index = .error (n, b) →
        (isPageAbsent s w n b = true → exec (.collFault k) s = .next (stallEngine s k o (engineTrap w n b))) ∧
        (isPageAbsent s w n b = false → exec (.collFault k) s = .next (endEngine s k o (engineTrap w n b))))))

/-- R293, R294, R310 to R313: MZERO of some tiles, MRD and MWR with legal operands start an operation that names their tiles;
MZERO of no tile completes at once; MWAIT waits while an operation of its group names one of its tiles, or is an MLDB where it
asks for those, and completes otherwise. In the handler each is an illegal operand.

R296, R299 to R301, R314: MLDB, MMA and MST whose operands and early checks pass start an operation that names their tile
and slots, MMA with the bytes of its A operand as they are at issue. MMA waits while one of its slots is being loaded. An MLDB
whose source or scales lie outside the share, and an MST of global lines, are started once for the two sides of a convoy (R376);
an MLDB taken again from the commit log fills its slots at once (R380). An MST waits while a bank has no waybill for one of its
lines, and, where its data are compared, logged or checked, for what names its tile before it.

Where the spec leaves a point of this open the statement is of the model: log entry 48.

Completes, on the conditions stated here on the state and the operands alone: MLDB, MMA, MZERO, MRD, MWR, MST and MWAIT. -/
def Obligations.MatrixIssues : Prop :=
  (∀ (s : State) (c : Ctx) (a b d : Spec) (ty : Ty) (rnd : Rnd) (sat fb : Bool) (n m row col : Nat), Issues s c →
     (c.g.sup = true → ∀ i ∈ [Instr.mzero b fb, .mrd d a b ty rnd sat fb, .mwr a b d ty fb, .mwait b fb],
       exec i s = .next (c.takeTrap { cause := 0x02 } (c.settled s))) ∧
     (c.g.sup = false → acquirePending s c.gid = false →
       (tileOperand c b false = .ok m → CounterFree c (.mzero b fb) →
         (m = 0 → exec (.mzero b fb) s = .next (c.done (countedOnce c (.mzero b fb) s))) ∧
         (m ≠ 0 → exec (.mzero b fb) s =
           .next (c.done (inFlight c (.mzero b fb) { c.op (.mzero b fb) with vals := naming m 0 0 } s)))) ∧
       (vDst c d ty.is64 = true → tileSpec a = .ok n → position c b = .ok (row, col) → tilePair c.t n (ty == .f64) = some m →
         let at_ : List (Nat × Word) := [(0, BitVec.ofNat 64 n), (1, BitVec.ofNat 64 row), (2, BitVec.ofNat 64 col)]
         (CounterFree c (.mrd d a b ty rnd sat fb) → exec (.mrd d a b ty rnd sat fb) s = .next (c.done
           (inFlight c (.mrd d a b ty rnd sat fb) { c.op (.mrd d a b ty rnd sat fb) with vals := naming m 0 0 ++ at_ } s))) ∧
         (CounterFree c (.mwr a b d ty fb) → exec (.mwr a b d ty fb) s = .next (c.done
           (inFlight c (.mwr a b d ty fb) { c.op (.mwr a b d ty fb) with
             vals := naming m 0 0 ++ at_ ++
               (lanes c.g.exec).map fun l => (400 + l, BitVec.ofNat 64 (readData c.g d (if ty = .f64 then 8 else 4) l)) } s)))) ∧
       (tileOperand c b true = .ok m →
         let busy := ∃ e ∈ s.ops, (e.2.group = c.gid ∨ ∃ k, e.2.twin = some (c.gid, k)) ∧ isMatrix e.2.instr = true ∧
           (e.2.tileMask &&& m ≠ 0 ∨ m.testBit 16 = true ∧ isMldb e.2.instr = true)
         (busy → exec (.mwait b fb) s = .next (c.waitHere s)) ∧
         (¬busy → CounterFree c (.mwait b fb) → exec (.mwait b fb) s = .next (c.done (countedOnce c (.mwait b fb) s)))))) ∧
  (∀ (s : State) (c : Ctx), Issues s c → c.g.sup = false → acquirePending s c.gid = false →
     (∀ (k : Fin 64) (b : Spec) (fmt : Fmt) (fb : Bool) (ctl : Word) (v : List (Nat × Word)) (u t : State),
       let i := Instr.mldb (.s k) b fmt fb
       let src := c.g.readS k.val
       let scale := c.g.readS (k.val + 1)
       let x := mldbOf fmt src scale ctl
       let mark := if x.begins c.t then [begun c.g.team] else []
       let o : Op := { c.op i with vals := [(0, src), (1, scale), (2, ctl)] ++ naming 0 x.first x.count ++ mark }
       let sig := c.sig i [src.toNat, scale.toNat, ctl.toNat]
       k.val % 2 = 0 → sVal c b = .ok ctl → mldbChecks c fmt x ctl s = .ok () → CounterFree c i →
         let starts (y : State) : State := if x.begins c.t then y.modTeam c.g.team fun m => m.engineReads x.ownReads true else y
         (isSpadPtr src.toNat = true → (fmt.hasScale = true → isSpadPtr scale.toNat = true) →
           exec i s = .next (c.done (starts (inFlight c i o s)))) ∧
         (isSpadPtr src.toNat = false ∨ fmt.hasScale = true ∧ isSpadPtr scale.toNat = false →
           (c.t.side = .solo → s.nextId < 2 ^ 64 →
             exec i s = .next (c.done (starts (inFlight c i o (assayLog c sig [namedOp s.nextId] s))))) ∧
           (takeOutside c sig (fun y => .ok ([namedOp y.nextId], y)) s = .ok (v, u) →
             let named (y : State) : State := if c.t.side = .escort then
                 { y.modOp ((v.head?.map fun e => e.2.toNat).getD 0) fun o =>
                     { o with vals := o.vals ++ (303, BitVec.ofNat 64 u.nextId) :: mark } with nextId := y.nextId + 1 }
               else y
             (v.drop 1 = [] → joinEngine c i o v u = .ok t → exec i s = .next (c.done (named (starts t)))) ∧
             (v.drop 1 ≠ [] → earlierNaming u c.g.team u.nextId o = true → exec i s = .next (c.waitHere u)) ∧
             (v.drop 1 ≠ [] → earlierNaming u c.g.team u.nextId o = false → joinEngine c i o v u = .ok t →
               exec i s = .next (c.done (named (replayMldb c x v t))))))) ∧
     (∀ (f : XForm) (d : Word) (mask : Nat), c.g.exec = fullMask c.g.width → c.g.exec &&& ~~~c.g.live = 0 →
       (c.g.tokens ≠ [] ∨ c.g.spilledTok = 0) → (∀ t ∈ c.g.tokens.head?, t.held = false) →
       ((∃ q ∈ f.slot.toNat :: mmaSlots c f, slotLoading s c.g.team q = true) → Slot.valid (c.t.slotTag f.slot.toNat) = true →
         exec (.mma f) s = .next (c.waitHere s)) ∧
       ((∀ q ∈ f.slot.toNat :: mmaSlots c f, slotLoading s c.g.team q = false) → sVal c f.abase = .ok d →
         tilePair c.t f.acc.toNat (isPair f) = some mask → Slot.valid (c.t.slotTag f.slot.toNat) = true → mmaSlotsOk c f →
         let b := Slot.format (c.t.slotTag f.slot.toNat)
         let rows := 32 * (f.chunks.toNat + 1)
         combination f.sem f.accf f.afmt b = true → (∀ y ∈ [f.afmt, b], y.isAsym = true → rows % y.block = 0) →
         descriptorOk d = true → (∀ o ∈ (aOperand f d).offsets, o < c.t.spadSize ∧ bufferAllows c.t .load o = true) →
         overlapping s c.gid ((aOperand f d).offsets.map spadLoc) = false → CounterFree c (.mma f) →
           exec (.mma f) s = .next (c.done (inFlight c (.mma f)
             { c.op (.mma f) with
               vals := (0, d) :: naming mask f.slot.toNat (mmaSlots c f).length,
               got := (aOperand f d).offsets.foldl (fun m o => SMap.put m o (c.t.spadByte o)) [] } s)))) ∧
     (∀ (f : MForm) (tile mask : Nat) (addr : Word) (locs : List Located) (s1 : State),
       let record := c.t.fileRec f.recIx.toNat
       let r := Rec.ofBits f.recIx.toNat record
       let p := mstPlan f record addr
       let o : Op := { c.op (.mst f) with
         record, locs := globalLocs locs, vals := naming mask 0 0 ++ [(0, addr), (1, BitVec.ofNat 64 tile)],
         reqs := [{ lane := 0, kind := .store, bytes := (locs.map fun b => (b.ptr, b.loc)).dedup }] }
       tileSpec f.data = .ok tile → sVal c f.addr = .ok addr → tilePair c.t tile (f.size == .b8) = some mask →
       recordChecks .store record = .ok () → (if f.size = .b8 then r.reg = .f64 else r.reg = .f32 ∨ r.reg = .i32) →
       (if f.aux then 32 else 64) ≤ addr.toNat / 2 ^ 32 → wholeBlocks p = true →
       (∀ e ∈ p.elems, 0 ≤ r.elemBit e.n ∧ r.elemBit e.n + r.stored.bits ≤ 8 * (r.extent : Int)) →
       checkAccess s (c.who s) .store false p.pieces = .ok locs → awaitCopies locs s = .ok () →
       orderWaits c (MForm.form f true) locs true s = .ok s1 → noOverlap c locs true s1 = .ok () →
       let named := earlierNaming s1 c.g.team s1.nextId { c.op (.mst f) with vals := naming mask 0 0 }
       let asked := (c.t.side ≠ .solo ∨ c.t.sampled = true) ∧ globalLocs locs ≠ []
       (asked ∨ r.policy = 1 → named = true → exec (.mst f) s = .next (c.waitHere s1)) ∧
       ((asked → named = false) →
        (r.policy = 1 → named = false ∧
           ∃ st, storeData (c.who s) p (fun l => c.t.tileVal tile (f.size == .b8) (l / 64) (l % 64)) = .ok st) →
         let sig := c.sig (.mst f) (addr.toNat :: (List.range 32).flatMap fun i => (List.range 64).map fun n =>
           c.t.tileVal tile (f.size == .b8) i n)
         (globalLocs locs = [] → ∀ t, issueOp c o s1 = .ok t → exec (.mst f) s = .next (c.done t)) ∧
         (globalLocs locs ≠ [] → ∀ t, issueHolder c (.mst f) o sig s1 = .ok t → exec (.mst f) s = .next (c.done t)) ∧
         (globalLocs locs ≠ [] → c.t.side = .solo → s1.nextId < 2 ^ 64 → CounterFree c (.mst f) →
           (holdLines s1 (globalLocs locs) = none → exec (.mst f) s = .next (c.waitHere s1)) ∧
           ∀ v t, holdLines s1 (globalLocs locs) = some v → issueOp c o (assayLog c sig [namedOp v.nextId] v) = .ok t →
             exec (.mst f) s = .next (c.done t)))))

/-- R294, R297, R298, R308 to R315: in its turn MZERO clears its tiles and no other, MRD and MWR move one row, MST writes its
tile through its record, MLDB fills its slots and MMA its accumulator; each then counts its flag down. A fault ends an
operation and is held for the group; an MMA's fault leaves the chunks before it, none where the first chunk has it.

Where the spec leaves a point of this open the statement is of the model: log entries 42, 50, 54, 78 and 91.

Completes, on the conditions stated here on the state and the operands alone: INSTRUCTION_COMPLETE, MLDB_COMPLETE, MLDB_FAULT, MMA_WRITEBACK and MMA_FAULT. -/
def Obligations.MatrixCompletes : Prop :=
  ∀ (s : State) (k : Nat) (o : Op) (w : Who), s.op? k = some o → s.who? o.group = some w → matrixReady s k o = true →
    let tile := (o.val 0).toNat
    let row := (o.val 1).toNat
    let col := (o.val 2).toNat
    (∀ b fb, o.instr = .mzero b fb → ∃ t, exec (.instructionComplete k) s = .next ((s.setTeam w.g.team t).finishOp k o) ∧
      (∀ a i n, i < 32 → n < 64 → t.tileWord a i n = if o.tileMask.testBit a then 0 else w.t.tileWord a i n) ∧
      t = { w.t with tiles := t.tiles }) ∧
    (∀ d a b ty rnd sat fb, o.instr = .mrd d a b ty rnd sat fb → destFree s k o = true →
      let r (l : Nat) : Flagged Nat := rowResult ty rnd sat (w.t.tileVal tile (ty == .f64) row (col + l))
      exec (.instructionComplete k) s = .next ((State.raiseFp (s.modGroup o.group fun g => o.inFrame g fun g => (lanes o.exec).foldl
        (fun g l => writeData g d (if ty = .f64 then 8 else 4) l false (r l).val) g) o.group
          (orFp ((lanes o.exec).map fun l => (r l).fp))).finishOp k o)) ∧
    (∀ a b x ty fb, o.instr = .mwr a b x ty fb →
      exec (.instructionComplete k) s = .next (((s.modTeam w.g.team fun t => (lanes o.exec).foldl
        (fun t l => t.setTileVal tile (ty == .f64) row (col + l) (rowWord ty (o.val (400 + l)).toNat).val) t).raiseFp o.group
          (orFp ((lanes o.exec).map fun l => (rowWord ty (o.val (400 + l)).toNat).fp))).finishOp k o)) ∧
    (∀ f x, o.instr = .mst f → mstWrites w o f = .error x → exec (.instructionComplete k) s = .next (endEngine s k o x)) ∧
    (∀ f ws st, o.instr = .mst f → mstWrites w o f = .ok (ws, st) → sitesWait s k o w.t.place (ws.map fun e => e.2.1) = false →
      writeBackReady s w.t.place = true → copiesDone s (linesOf ws) = true →
      let own := ((o.reqs.head?.map fun r => r.bytes.filterMap fun b => if isSpad b.2 then some (b.2 - 2 ^ 48) else none)).getD []
      let t := settleEverywhere (engineWrite (writeBack s w.t.place) w.t.place (mirrorShare s w.g.team (ws.map (·.2)))) (linesOf ws)
      let t := noteResult (noteShare t w.g.team k own) w.g.team k [(2 ^ 35, st.fp.zeroExtend 64)]
      let t := (settleEverywhere t o.locs).raiseFp o.group st.fp
      let t := (o.twin.map (·.1)).elim t fun g => t.raiseFp g st.fp
      exec (.instructionComplete k) s =
        .next ((freeLines (if st.subst then t.raiseSubst w.t.launch f.recIx.toNat else t) k o.locs).finishOp k o)) ∧
    (∀ a b f fb sites bs t, o.instr = .mldb a b f fb → mldbReady s k o w (o.mldb f) = true →
      let x := o.mldb f
      (let u := w.fill s x.bytes
       mldbSites u w x = .ok sites → sitesWait u k o w.t.place sites = false →
        engineRead (writeBack u w.t.place) w.t.place o.group sites = (bs, t) → x.badScale bs = none →
        let t := mldbReads (mldbReads t x true ((mldbTeams t o).filter fun m => !o.begunIn.contains m)) x false (mldbTeams t o)
        let t := (mldbTeams t o).foldl (fun y team => y.modTeam team fun m => (List.range x.count).foldl (fun m i =>
          x.fill bs ((x.first + i) % 128) (i * slotRows f) (min ((i + 1) * slotRows f) x.rows) m) m) t
        exec (.mldbComplete k) s =
          .next ((noteResult t w.g.team k (bs.zipIdx.map fun e => (2 ^ 33 + e.2, e.1.word))).finishOp k o)) ∧
      (let failed (y : Trap) : State :=
         endEngine ((mldbTeams s o).foldl (fun u team => u.modTeam team x.invalidate) (mldbReads s x false o.begunIn)) k o y
       (∀ off, mldbSites s w x = .ok sites → sitesWait s k o w.t.place sites = false →
        engineRead (writeBack s w.t.place) w.t.place o.group sites = (bs, t) → x.badScale bs = some off →
          exec (.mldbFault k) s = .next (failed
            { cause := 0x02, addr := reportAddr w.stackBase w.g.stackSlot (ptrAdd x.scale off).toNat })) ∧
       (∀ n p, mldbSites s w x = .error (n, p) → exec (.mldbFault k) s =
          .next (if isPageAbsent s w n p then stallEngine s k o (engineTrap w n p) else failed (engineTrap w n p))))) ∧
    (∀ f, o.instr = .mma f → mmaReady s k o w.t.place = true →
      let d := mmaData s w.t o f
      let rows := 32 * (f.chunks.toNat + 1)
      let b := Slot.format (w.t.slotTag (o.val 301).toNat)
      (d.fault = none → exec (.mmaWriteback k) s = .next ((({ s with free := s.free + 64 * rows }.setTeam w.g.team
        (mmaTile w.t f d b rows).1).raiseFp o.group (mmaTile w.t f d b rows).2).finishOp k o)) ∧
      (∀ q x, d.fault = some (q, x) → 32 ≤ q → exec (.mmaFault k) s = .next ((({ s with free := s.free + 64 * rows }.setTeam w.g.team
        (mmaTile w.t f d b (q / 32 * 32)).1).raiseFp o.group (mmaTile w.t f d b (q / 32 * 32)).2).faultOp k o x)) ∧
      (∀ q x, d.fault = some (q, x) → q < 32 → exec (.mmaFault k) s =
        .next ((({ s with free := s.free + 64 * rows }.setTeam w.g.team w.t).raiseFp o.group 0).faultOp k o x)))

/-! ## Child grids, messages, clauses and the porter -/

/-- R91 to R93: LAUNCH by group 0 of a team, once its earlier instructions are done, reads the launch record at its aligned
pointer and enters a child one level deeper with its root's sequence and its parent's context, priority and protection; the
root counts it, and the destination takes its ordinal with the depth above it; a convoy launches once for both sides (R376).
While 4,096 children have not retired it waits with the record that it has read. Another group may not launch, and a launch at depth 10 traps as
launch-depth.

Where the spec leaves a point of this open the statement is of the model: log entry 24.

Completes, on the conditions stated here on the state and the operands alone: LAUNCH. -/
def Obligations.LaunchesMade : Prop :=
  ∀ (s s1 s2 s3 : State) (c : Ctx) (d a : Fin 64) (fb : Bool) (r : BitVec 1024), Issues s c → c.g.sup = false →
    acquirePending s c.gid = false →
    let i := Instr.launch (.s d) (.s a) fb
    let p := c.g.readS a.val
    (c.g.slot ≠ 0 → exec i s = .next (c.takeTrap { cause := 0x02 } (c.settled s))) ∧
    (c.g.slot = 0 → c.l.depth = 10 → exec i s = .next (c.takeTrap { cause := 0x17 } (c.settled s))) ∧
    (c.g.slot = 0 → c.l.depth ≠ 10 → completeAtOnce c i s = .ok s1 → release c false .device s1 = .ok s2 →
      (p.toNat % 64 ≠ 0 → exec i s =
        .next (c.takeTrap { cause := 0x0E, addr := reportAddr (c.who s2).stackBase c.g.stackSlot p.toNat } (c.settled s))) ∧
      (p.toNat % 64 = 0 →
        (∀ v t, performOnce c (c.sig i [p.toNat]) (launchAt c i p) s2 = .ok (v, t) →
          exec i s = .next (c.done (t.modGroup c.gid fun g => g.writeS d.val (firstVal v)))) ∧
        (((c.g.launchRec = some r ∧ s3 = s2) ∨ (c.g.launchRec = none ∧ ∃ bs, readStructIf false c i .i p 128 s2 = .ok (bs, s3) ∧
          r = recordOf bs ∧ launchRecordOk false r = true ∧
          (c.l.prot = true → (s3.launch? (s3.root c.lid)).map (·.boundsPtr) = some (r.extractLsb' 384 64)))) →
        (4096 ≤ childrenAlive s3 →
          launchAt c i p s2 = .error (.wait (s3.modGroup c.gid fun g => { g with launchRec := some r })) ∧
          (c.t.side = .solo → exec i s = .next (c.waitHere (s3.modGroup c.gid fun g => { g with launchRec := some r })))) ∧
        ∀ x, s3.launch? (s3.root c.lid) = some x → childrenAlive s3 < 4096 →
        let v : Word := BitVec.ofNat 64 (x.childCount % 2 ^ 32 + (c.l.depth + 1) * 2 ^ 32)
        let child : Launch :=
          { record := r, origin := .child c.lid x.childCount, queue := c.l.queue, seq := c.l.seq, ctx := c.l.ctx, prio := c.l.prio,
            depth := c.l.depth + 1, prot := c.l.prot, convoy := c.l.convoy }
        let entered := acceptLaunch (((s3.modGroup c.gid fun g => { g with launchRec := none }).modLaunch (s3.root c.lid) fun y =>
          { y with childCount := x.childCount + 1 }).modLaunch c.lid fun y => { y with children := s3.nextId :: y.children }) child
        launchAt c i p s2 = .ok ([(0, v)], entered) ∧
        (c.t.side = .solo → exec i s = .next (c.done ((assayLog c (c.sig i [p.toNat]) [(0, v)] entered).modGroup c.gid fun g =>
          g.writeS d.val v))))))

/-- R94 to R97: BIND at a line that passes a load's checks enters a mailbox for it, with the handler record it names and a
number free in the context; UNBIND and COUNT return the total of a bound mailbox, UNBIND unbinding it. A line that names no
bound mailbox, and one that is bound already, are misuse. In a convoy the mailbox is acted on once (R376). A firing takes the
next ordinal; HANDLER_LAUNCH accepts the handler of the oldest firing.

Where the spec leaves a point of this open the statement is of the model: log entries 29 and 30.

Completes, on the conditions stated here on the state and the operands alone: MAILBOX_FIRING, HANDLER_LAUNCH, MBOX_BIND, MBOX_UNBIND and MBOX_COUNT. -/
def Obligations.MailboxesServe : Prop :=
  (∀ (s : State) (c : Ctx) (d a : Fin 64) (place : BitVec 12) (locs : List Located), Issues s c → c.g.sup = false →
    acquirePending s c.gid = false → a.val % 2 = 0 →
    let line := c.g.readS a.val
    let rec_ := c.g.readS (a.val + 1)
    line.toNat % 128 = 0 →
    (∀ v t,
      let asked (i : Instr) (f : State → Res (List (Nat × Word) × State)) : Prop :=
        performOnce c (c.sig i [line.toNat, rec_.toNat]) f s = .ok (v, t) →
          exec i s = .next (c.done (t.modGroup c.gid fun g => g.writeS d.val (firstVal v)))
      asked (.mboxUnbind (.s d) (.s a) place) (unbindAsked c line) ∧ asked (.mboxCount (.s d) (.s a) place) (countAsked c line) ∧
      asked (.mboxBind (.s d) (.s a) place) (bindAsked c (.mboxBind (.s d) (.s a) place) line rec_ place.toNat)) ∧
    (c.t.side = .solo → checkAccess s (c.who s) .load false [{ lane := 0, ptr := line, len := 128 }] = .ok locs →
    (apertureOf (ptrAddr line)).kind = 2 → (∀ f, (c.who s).leafOf s .load line.toNat = some f → Leaf.biased s.dev f = false) →
    let phys := ((locs.head?).map (·.loc)).getD 0
    let answer (i : Instr) (v : Word) (t : State) : State :=
      (assayLog c (c.sig i [line.toNat, rec_.toNat]) [(0, v)] t).modGroup c.gid fun g => g.writeS d.val v
    (boundBox s c.l.ctx phys = none → ∀ i ∈ [Instr.mboxUnbind (.s d) (.s a) place, .mboxCount (.s d) (.s a) place],
      exec i s = .next (c.takeTrap { cause := 0x18 } (c.settled s))) ∧
    (∀ k x, boundBox s c.l.ctx phys = some (k, x) → c.l.prot = false →
      exec (.mboxCount (.s d) (.s a) place) s = .next (c.done (answer (.mboxCount (.s d) (.s a) place)
        (BitVec.ofNat 64 (x.total % 2 ^ 32 + (x.total - x.launched) * 2 ^ 32)) s)) ∧
      exec (.mboxUnbind (.s d) (.s a) place) s = .next (c.done (answer (.mboxUnbind (.s d) (.s a) place)
        (BitVec.ofNat 64 x.total)
        { s with boxes := if x.launched = x.total then SMap.del s.boxes k else SMap.put s.boxes k { x with bound := false } }))) ∧
    (∀ bs s1 locs', rec_.toNat % 64 = 0 → readStructIf false c (.mboxBind (.s d) (.s a) place) .i rec_ 128 s = .ok (bs, s1) →
      checkAccess s1 (c.who s1) .load false [{ lane := 0, ptr := line, len := 128 }] = .ok locs' →
      (∀ f, (c.who s1).leafOf s1 .load line.toNat = some f → Leaf.biased s1.dev f = false) →
      let x := newBox c line place.toNat (((locs'.head?).map (·.loc)).getD 0) (recordOf bs) s1
      let free := freeNumbers s1 c.l.ctx
      ((∃ e ∈ s1.boxes, e.2.bound = true ∧ e.2.phys = x.phys) →
        exec (.mboxBind (.s d) (.s a) place) s = .next (c.takeTrap { cause := 0x18 } (c.settled s))) ∧
      (∀ q g, (∀ e ∈ s1.boxes, e.2.bound = true → e.2.phys ≠ x.phys) → free ≠ [] → launchRecordOk true x.handler = true →
        warmRegion s1 c.l.ctx (handlerLaunchOf 0 x) = some q → s1.region? q = some g → place.toNat ∈ g.cores → c.l.prot = false →
        ∀ n, free[Config.freeChoice s1.free % free.length]? = some n →
        exec (.mboxBind (.s d) (.s a) place) s = .next (c.done (answer (.mboxBind (.s d) (.s a) place) (BitVec.ofNat 64 n)
          { s1 with free := s1.free + 1, boxes := SMap.put s1.boxes s1.nextId { x with number := n }, nextId := s1.nextId + 1 })))))) ∧
  (∀ (s : State) (k : Nat) (x : Mailbox), SMap.entry? s.boxes k = some x →
    (x.bound = true → x.total - x.launched < 65535 →
      exec (.mailboxFiring k) s = .next { s with boxes := SMap.adjust s.boxes k fun x => { x with total := x.total + 1 } }) ∧
    (s.dev.stage = 9 → x.launched ≠ x.total → (x.bound = true ∨ x.launched + 1 ≠ x.total) →
      exec (.handlerLaunch k) s = .next (acceptLaunch { s with boxes := SMap.put s.boxes k { x with launched := x.launched + 1 } }
        (handlerLaunchOf k x))) ∧
    (s.dev.stage = 9 → x.launched ≠ x.total → x.bound = false → x.launched + 1 = x.total →
      exec (.handlerLaunch k) s = .next (acceptLaunch { s with boxes := SMap.del s.boxes k } (handlerLaunchOf k x))))

/-- R335 to R338: a send to one live group with a credit takes the credit and puts the flit in flight, with its header; a
flit that is the oldest of its sender and port enters its receive queue last, and is dropped at a group that has ended;
a receive takes the oldest flit of its queue, with its header in RXHDR, a convoy's lead for both sides (R376); a grant gives a port that asks, and whose request for
the queue is the oldest, a batch of credits: at least one, at most four with those it holds, and no more than the free slots.

Where the spec leaves a point of this open the statement is of the model: log entries 64 and 89.

Completes, on the conditions stated here on the state and the operands alone: FLIT_DELIVERY and CREDIT_GRANT. -/
def Obligations.MessagesMove : Prop :=
  (∀ (s : State) (c : Ctx) (n dst : Nat) (v : Word),
    let p := c.g.port n
    let key := dst * 4 + Port.queue p.bind
    (Port.kind p.bind = 3 → sendFlit c n v s = .error (.trap { cause := 0x13 })) ∧
    (Port.kind p.bind = 0 → Port.release p.bind = false → usable s.dev (Port.place p.bind) = true →
    receiver s c (Port.place p.bind) (Port.slot p.bind) = some dst → 0 < SMap.get 0 p.credits key →
      sendFlit c n v s = .ok ({ s with
        flits := SMap.put s.flits s.nextId (dst, Port.queue p.bind, { hdr := flitHeader c p.bind p.sent, payload := v, src := c.gid * 4 + n }),
        nextId := s.nextId + 1,
        groups := SMap.adjust (SMap.adjust s.groups c.gid fun g => g.setPort n { g.port n with sent := p.sent + 1 }) c.gid fun g =>
          g.setPort n { g.port n with credits := SMap.set 0 p.credits key (SMap.get 0 p.credits key - 1), request := false } }))) ∧
  (∀ (s : State) (k dst q : Nat) (f : Flit) (g : Group), SMap.entry? s.flits k = some (dst, q, f) → s.group? dst = some g →
    (∀ e ∈ s.flits, e.1 < k → e.2.1 = dst → e.2.2.1 = q → e.2.2.2.src ≠ f.src) →
    (g.phase ≠ .ended → exec (.flitDelivery k) s =
      .next ({ s with flits := SMap.del s.flits k }.setGroup dst { g with rx := g.rx ++ [(q, f)] })) ∧
    (g.phase = .ended → exec (.flitDelivery k) s = .next ({ s with flits := SMap.del s.flits k }.setGroup dst g))) ∧
  (∀ (s : State) (c : Ctx) (n : Nat),
    (∀ v t, takeOutside c (c.portSig [0x100 + n]) (flitTaken c n) s = .ok (v, t) → popFlit c n s =
      .ok (((v.find? fun e => e.1 = 0).map (·.2)).getD 0, t.modGroup c.gid fun g =>
        { g with rxhdr := ((v.find? fun e => e.1 = 1).map (·.2)).getD 0 })) ∧
    (∀ (g : Group) (e : Nat × Flit), c.t.side = .solo → s.group? c.gid = some g → g.rx.find? (fun e => e.1 = n) = some e →
      e.2.tag = none → e.2.hdr.getLsbD 16 = false →
        popFlit c n s = .ok (e.2.payload, (assayLog c (c.portSig [0x100 + n]) [(0, e.2.payload), (1, e.2.hdr)]
          (s.setGroup c.gid { g with rx := g.rx.erase e })).modGroup c.gid fun g => { g with rxhdr := e.2.hdr }))) ∧
  (∀ (s : State) (c : Ctx) (gid dst : Nat) (n : Fin 4), s.ctx? gid = some c →
    let p := c.g.port n.val
    let key := dst * 4 + Port.queue p.bind
    p.request = true → Port.kind p.bind = 0 → receiver s c (Port.place p.bind) (Port.slot p.bind) = some dst →
    SMap.get 0 p.credits key < 4 → 0 < freeSlots s dst (Port.queue p.bind) → oldestAsk s key p.asked (gid * 4 + n.val) = true →
      ∃ k, 0 < k ∧ SMap.get 0 p.credits key + k ≤ 4 ∧ k ≤ freeSlots s dst (Port.queue p.bind) ∧
        let credits := SMap.set 0 p.credits key (SMap.get 0 p.credits key + k)
        (credits ≠ p.credits → exec (.creditGrant gid n) s =
          .next ({ s with free := s.free + 1 }.modGroup gid fun g => g.setPort n.val { p with credits, request := false })))

/-- R119 to R125, R151, R152, R290, R354, R414: a group at a clause boundary takes the first fault that is held for it. With
none held, its flags clear and its port free, it starts its clause at the first word, or resumes it at its index, where the
clause passes its checks, and traps at the word that fails them otherwise; a flag of the wait mask that is not clear keeps it
where it is. In the handler nothing held is taken. A waiting clause goes on once its port is free and the flags of its wait
mask are clear but for what held faults keep counted, or takes the fault of a restore's copy.

Where the spec leaves a point of this open the statement is of the model: log entries 15 and 84.

Completes, on the conditions stated here on the state and the operands alone: CLAUSE_ISSUE and CLAUSE_RESUME. -/
def Obligations.ClausesStart : Prop :=
  ∀ (s : State) (gid : Nat) (g : Group) (t : Team) (l : Launch) (n : Nat) (r : Region), s.group? gid = some g →
    s.team? g.team = some t → s.launch? t.launch = some l → l.region = some n → s.region? n = some r →
    (g.phase = .boundary → l.status = none →
      let h := g.keepWants r
      let k := if g.idx = 0 then 1 else g.idx
      let i := if g.idx = 0 then Instr.clauseIssue gid else .clauseResume gid
      (∀ x h', nextHeld h = some (x, h') →
        exec i s = .next (takeTrap gid h' t l r (pcReg g.hdr g.idx) x (s.setGroup gid h'))) ∧
      (nextHeld h = none →
        ((∃ f, f < 12 ∧ (waitMask r h).getLsbD f = true ∧ h.flagCount f ≠ 0) → exec i s = .next s) ∧
        (clauseReady r h = true → portBusy s gid t.place (groupPort s h) = false → stoppedForWaypoint s h t = false →
          (∀ w, checkClause r h = .ok w → exec i s =
            .next (s.setGroup gid { h with phase := .issuing, idx := k, clauses := if k = 1 then h.clauses + 1 else h.clauses })) ∧
          (∀ pos x, checkClause r h = .error (pos, x) → exec i s = .next (takeTrap gid h t l r pos x s))))) ∧
    (g.phase = .waiting → (s.ctx? gid).isSome = true →
      (frameCopied g = true → (∃ f, f < 12 ∧ (waitMask r g).getLsbD f = true ∧ g.unheld.flagCount f ≠ 0) →
        exec (.clauseResume gid) s = .next s) ∧
      (frameCopied g = true → (∀ f, f < 12 → (waitMask r g).getLsbD f = true → g.unheld.flagCount f = 0) →
        portBusy s gid t.place (groupPort s g) = false →
        exec (.clauseResume gid) s = .next (s.setGroup gid { g with phase := .issuing })) ∧
      (∀ x, frameCopied g = false → g.porterTrap = some x → exec (.clauseResume gid) s =
        .next (takeTrap gid { g with porterTrap := none } t l r (pcReg g.hdr g.idx) x (s.setGroup gid { g with porterTrap := none }))))

/-- R161, R163 to R169: the move whose turn it is writes its granule, or the outermost token, to its backing bytes and drops
it, copies a granule there for WSYNC.WB, or reads a granule, or a token, back, once no earlier access of the group and nothing
in the hierarchy stands in its way; a backing access that fails its checks, or reads poison, leaves the group a porter fault
and the move where it stands. An entry that no token has ends the launch (log entry 13).

Where the spec leaves a point of this open the statement is of the model: log entries 13, 40, 79, 84 and 97.

Completes, on the conditions stated here on the state and the operands alone: PORTER_SPILL, PORTER_REFILL, TOKEN_SPILL and TOKEN_READBACK. -/
def Obligations.PorterMoves : Prop :=
  ∀ (s : State) (gid : Nat) (m : Move) (w : Who), nextMove s gid = some m → s.who? gid = some w → Movable s w.g m →
    let g := w.g
    let ptr := (m.range g).1
    let len := (m.range g).2
    let s' := w.fill s (Piece.bytes { lane := 0, ptr, len })
    let checked := porterLocs s' w [if m.writes then .store else .load] ptr len
    let i := moveRow gid m.kind
    (∀ x, checked = .error x → exec i s = .next (s'.setGroup gid { g with porterTrap := some x, porterFault := some (m.kind, m.off) })) ∧
    (∀ locs, checked = .ok locs → (∀ p ∈ locs, p ∉ busyLocs s' gid m.since) → coreWaits s' w.t.place gid locs = false →
      (m.writes = true → cowPages s' locs = []) →
      let t := s'.served m
      let put (bytes : List Byte) (f : Group → Group) : State :=
        (coreWrite t w.t.place gid locs bytes).modGroup gid fun g => (f g).markStack ptr len
      (m.kind = .spill → exec i s = .next (put (g.windowBytes m.off 8) fun x => { x.forget m.off 8 with resLo := m.off + 8 })) ∧
      (m.kind = .writeBack → exec i s = .next (put (g.windowBytes m.off 8) fun x => { x with wb := some (m.off + 8) })) ∧
      (∀ k, m.kind = .tokenSpill → g.tokens.getLast? = some k → exec i s = .next (put (leBytes 32 k.image.toNat) fun x =>
        { x with tokens := x.tokens.dropLast, spilledTok := x.spilledTok + 1 })) ∧
      (m.writes = false → (∃ p ∈ locs, byteTag s.fab w.t.place false (forwarded s.fab p) ≠ none) →
        ∃ x : Trap, x.cause = Cause.poisonConsumed ∧ x.info.getLsbD 14 = true ∧ (m.kind = .tokenReadback → x.mask = none) ∧
          exec i s = .next (s.setGroup gid { g with porterTrap := some x, porterFault := some (m.kind, m.off) })) ∧
      ((∀ p ∈ locs, byteTag s.fab w.t.place false (forwarded s.fab p) = none) →
        let got := coreRead t w.t.place gid locs
        (m.kind = .refill → exec i s = .next (got.2.modGroup gid fun x => { x.setWindow m.off 8 got.1 with resLo := m.off })) ∧
        (m.kind = .tokenReadback →
          (∀ k, Token.ofImage (BitVec.ofNat 256 (leNat got.1)) = some k →
            exec i s = .next (got.2.modGroup gid fun x => { x with tokens := x.tokens ++ [k], spilledTok := m.off })) ∧
          (Token.ofImage (BitVec.ofNat 256 (leNat got.1)) = none →
            exec i s = .next (doubleFault gid g w.t w.l 0 got.2)))))

/-- R234, R242, R247, R248, R250, R252, R254, R262, R398: a walk puts the leaf it finds into the reticle's buffer and those of
the cores that wait, tells the groups that wait where it finds none, and lets the oldest miss of a core into the queue; a
line counted often enough moves its home, unless it is pinned, has moved 15 times, or its page is of host bias or moving, and
where the anchor has no waybill for it the count stands; a write-back of a line changes memory only where the core holds dirty
bytes, and leaves the L1's copy clean or gone; an invalidation takes the clean bytes of a line out of the L1; an install gives a
subscriber the line that the home sent; an idle array enters retention while it is enabled and leaves it, an error that it corrected being
reported; a link takes the state that it changes to, and a retry only reports.

Where the spec leaves a point of this open the statement is of the model: log entries 41, 59, 76, 79 and 81.

Completes, on the conditions stated here on the state and the operands alone: TLB_WALK, L1_WRITE_BACK, L1_INVALIDATION, SUBSCRIBER_LINE_INSTALL, DROVER_MIGRATION, RETENTION_ENTRY, RETENTION_EXIT, LINK_RETRY and LINK_STATE_CHANGE. -/
def Obligations.HierarchySteps : Prop :=
  (∀ (s : State) (core : BitVec 12) (line : Nat) (x : L1Line), l1Find s.fab core.toNat line = some x →
    let t := writeBackLines s core.toNat [line]
    let t' := { t with free := t.free + 1 }
    (lineBackWaits s core.toNat line = false → exec (.l1WriteBack core line) s = .next (if Config.freeBit t.free = true then
      (unsubscribe t' core.toNat line).setFab (l1Drop (unsubscribe t' core.toNat line).fab core.toNat line) else t')) ∧
    (((core.toNat, line, none) ∈ s.fab.inval) →
      let f := { s.fab with inval := s.fab.inval.erase (core.toNat, line, none) }
      exec (.l1Invalidation core line) s = .next (s.setFab (if x.dirty = 0 then l1Drop f core.toNat line
        else l1Put f { x with valid := x.dirty, owned := false }))) ∧
    (∀ bytes, sentLine s.fab core.toNat line = some bytes → lineStuck s (reticleOf core.toNat) line = false →
      let u := s.setFab { s.fab with inval := s.fab.inval.erase (core.toNat, line, some bytes) }
      (x.owned = false → exec (.subscriberLineInstall core line) s = .next u) ∧
      (x.owned = true → exec (.subscriberLineInstall core line) s =
        let t := (readOwned u (reticleOf core.toNat) line).2
        .next (t.setFab (l1Install t.fab core.toNat line bytes true))))) ∧
  (∀ (s : State) (r : Fin 48) (w : Walk), s.fab.walks.find? (fun w => w.reticle == r.val) = some w →
    let f := admitMiss { s.fab with walks := s.fab.walks.erase w } r.val
    (∀ leaf level, walkTables s w.ctx (w.page * 65536) = .found leaf level → ∃ f', exec (.tlbWalk r) s = .next (s.setFab f') ∧
      (tlbFind f'.tlbShared r.val w.ctx w.page).map (·.leaf) = some leaf ∧ f' = { f with tlb := f'.tlb, tlbShared := f'.tlbShared } ∧
      ∀ g ∈ w.waiters, ∀ x t, s.group? g = some x → s.team? x.team = some t →
        (tlbFind f'.tlb t.place w.ctx w.page).map (·.leaf) = some leaf) ∧
    ((∀ leaf level, walkTables s w.ctx (w.page * 65536) ≠ .found leaf level) → exec (.tlbWalk r) s =
      .next (w.waiters.foldl (fun s g => s.modGroup g fun x => { x with absent := w.page :: x.absent }) (s.setFab f)))) ∧
  (∀ (s : State) (r : Fin 48) (line : Nat) (e : Counted), s.fab.drover.find? (fun e => e.reticle == r.val && e.line == line) = some e →
    (SMap.get 8 s.dev.drovthr r.val).toNat ≠ 0 → (SMap.get 8 s.dev.drovthr r.val).toNat ≤ e.count →
    let w := waybill s line
    let s' := s.setFab { s.fab with drover := s.fab.drover.erase e }
    let room := makeRoom s' line
    let stays := w.pin = true ∨ w.counter = 15 ∨ inFlip s (128 * line) = true ∨ pageStays s e = true
    w.held = false → w.inFlight = false →
      (stays → exec (.droverMigration r line) s = .next s') ∧
      (¬ stays → room.2 = false → exec (.droverMigration r line) s = .next s) ∧
      (¬ stays → room.2 = true → exec (.droverMigration r line) s =
        let w := waybill room.1 line
        .next (setWaybill room.1 line { w with home := if bankLive s.dev e.core then e.core else anchorIn (reticleBanks s.dev r.val) line,
                                               counter := min 15 (w.counter + 1), replicas := w.replicas &&& ~~~(BitVec.ofNat 48 (2 ^ r.val)) }))) ∧
  (∀ (s : State) (core : BitVec 12) (line a : Nat), (∀ x ∈ dirtyBytes s.fab core.toNat, forwarded s.fab x.1 ≠ a) →
      Memory.get (writeBackLines s core.toNat [line]).mem a = Memory.get s.mem a) ∧
  (∀ (s : State) (a : Array_),
    (s.dev.retctl ≠ 0 → a ∉ s.fab.retained → (∀ p, a = .scratchpad p → ∀ e ∈ s.teams, e.2.place ≠ p.toNat) →
      exec (.retentionEntry a) s = .next (s.setFab { s.fab with retained := a :: s.fab.retained })) ∧
    (a ∈ s.fab.retained →
      let t := { s.setFab { s.fab with retained := s.fab.retained.erase a } with free := s.free + 1 }
      (Config.freeBit s.free = false → exec (.retentionExit a) s = .next t) ∧
      (Config.freeBit s.free = true → ∃ x : Report, x.cls = 0 ∧ x.cause = 0x02 ∧ x.place = BitVec.ofNat 12 (arrayPlace a) ∧
        exec (.retentionExit a) s = .next (t.reportCorrected 0 x)))) ∧
  (∀ (s : State) (link : Fin 12) (st : LinkState), .link link ∉ s.dev.lost →
    exec (.linkStateChange link st) s = .next (s.setDev { s.dev with links := SMap.set .down s.dev.links link.val st })) ∧
  (∀ (s : State) (link : Fin 12), exec (.linkRetry link) s = .next (s.reportCorrected link.val
    { cls := 0, unit := 6, cause := 0x04, place := partPlace (.link link), detail := BitVec.ofNat 64 link.val }))

/-! ## Queues, regions and the dispatcher -/

/-- R72 to R75, R78: what a write of a queue's registers does. A tail written to a disabled, empty queue restarts its
sequences; the context and the size change only while the queue is disabled; enabling over an invalid base stops the queue;
the abort fixes the status of the oldest launch that has run no team; QCACK frees the held records it covers, and clearing
the stop bit restarts reading. REWRITE writes every held record that names a pointer.

R73, R75, R78: the queue read next, the highest priority first, accepts the record at its head where its sequence follows
the last one accepted, skips it where it is that one or an earlier one, and stops otherwise, or where it cannot be read. A
device queue that is not the one read next does nothing.

R78: a launch whose record keeps the rules of R77 enters the table under the next identity; one whose record does not is
accepted with the status of an invalid record.

Where the spec leaves a point of this open the statement is of the model: log entries 6, 24, 70 and 71.

Completes, on the conditions stated here on the state and the operands alone: QTAIL_WRITE, QCTL_ENABLE, ABORT_HEAD, REWRITE, QCACK_WRITE, QSTAT_CLEAR_STOPPED and QUEUE_SLOT_ACCEPT. -/
def Obligations.QueuesAccept : Prop :=
  (∀ (s : State) (k : Fin 64) (v : BitVec 32) (x : Word),
     let q := s.queue k.val
     (q.enable = false ∧ q.journal = [] ∧ q.held = [] →
       exec (.qtailWrite k v) s = .next (s.setQueue k.val { q with ack := v - 1, ret := v - 1, cack := v - 1, head := v, tail := v })) ∧
     (q.enable = true ∨ q.journal ≠ [] ∨ q.held ≠ [] → exec (.qtailWrite k v) s = .next (s.setQueue k.val { q with tail := v })) ∧
     (x.getLsbD 33 = false → x.getLsbD 32 = false →
       (q.enable = true → exec (.qctlEnable k x) s = .next (s.setQueue k.val
         { q with enable := x.getLsbD 31, prio := x.extractLsb' 29 2, inDevice := x.getLsbD 28 })) ∧
       (q.enable = false →
         let q' := { q with ctx := x.extractLsb' 48 16, n := x.extractLsb' 23 5, enable := x.getLsbD 31, prio := x.extractLsb' 29 2,
                            inDevice := x.getLsbD 28 }
         exec (.qctlEnable k x) s = .next (s.setQueue k.val
           (if x.getLsbD 31 = true ∧ q'.baseOk = false then { q' with stopped := true, cause := 3 } else q')))) ∧
     (∀ before after lid l, q.journal = before ++ lid :: after → s.launch? lid = some l → l.ran = false → l.status = none →
       (∀ j ∈ before, ∀ y, s.launch? j = some y → y.ran = true ∨ y.status ≠ none) →
         exec (.abortHead k) s = .next (s.setLaunch lid { l with status := some 0x06 })) ∧
     (exec (.rewrite k) s = .next ((q.held.filter fun e => e.2.2.1 != 0).foldl (fun s e => (writeRecord s e.2.1 e.2.2.1 e.2.2.2).getD s) s)) ∧
     (exec (.qcackWrite k v) s = .next (s.setQueue k.val { q with cack := v, held := q.held.filter fun e => !Queue.covers v e.1 })) ∧
     (exec (.qstatClearStopped k) s = .next (s.setQueue k.val { q with stopped := false, cause := 0 }))) ∧
  (∀ (s : State) (k : Fin 64),
     let q := s.queue k.val
     let s' := s.setDev { s.dev with rrobin := SMap.set 0 s.dev.rrobin q.prio.toNat (k.val + 1) }
     (nextQueue s ≠ some k.val → exec (.queueSlotAccept k) s = .next s) ∧
     (nextQueue s = some k.val →
       (∃ e ∈ s.queues, e.1 = k.val ∧ e.2.reads s.dev = true ∧ ∀ x ∈ s.queues, x.2.reads s.dev = true → x.2.prio.toNat ≤ e.2.prio.toNat) ∧
       (readSlot s' q = none → exec (.queueSlotAccept k) s = .next (s'.setQueue k.val { q with stopped := true, cause := 2 })) ∧
       (∀ r : BitVec 1024, readSlot s' q = some r →
         let n : BitVec 32 := r.extractLsb' 224 32
         (n = q.ack + 1 → exec (.queueSlotAccept k) s = .next (acceptLaunch
           (s'.setQueue k.val { q with ack := n, head := q.head + 1, journal := q.journal ++ [s.nextId] }) (queueLaunch k.val q r))) ∧
         (n ≠ q.ack + 1 → (q.ack - n).toNat < 2 ^ 31 →
           exec (.queueSlotAccept k) s = .next (s'.setQueue k.val { q with head := q.head + 1, dups := q.dups + 1 })) ∧
         (n ≠ q.ack + 1 → 2 ^ 31 ≤ (q.ack - n).toNat →
           exec (.queueSlotAccept k) s = .next (s'.setQueue k.val { q with stopped := true, cause := 1 }))))) ∧
  (∀ (s : State) (k : Nat) (q : Queue) (r : BitVec 1024), (queueLaunch k q r).bitmapPtr = 0 →
     (queueLaunch k q r).prot = false →
       acceptLaunch s (queueLaunch k q r) = { s with
         launches := SMap.put s.launches s.nextId { queueLaunch k q r with
           status := if launchRecordOk false r = true then none else some 0x04 },
         nextId := s.nextId + 1 })

/-- R43, R82, R96, R107 to R109: a launch that is not warm has its image loaded on a region; a rejected image fixes its
status and a want of free cores makes it wait; a region that no launch uses is released; a write to a warm slot's image
register stages its image, with the handlers bound to the slot's region no longer warm, and staging ends ready or failed, on a
region of its own or on the one that the slot kept over a device reset.

Where the spec leaves a point of this open the statement is of the model: log entries 24, 28, 68, 69 and 72.

Completes, on the conditions stated here on the state and the operands alone: REGION_LOAD, REGION_RELEASE, WARM_SLOT_IMAGE_WRITE and WARM_SLOT_STAGED. -/
def Obligations.RegionsLoaded : Prop :=
  (∀ (s : State) (lid : Nat) (l : Launch), s.launch? lid = some l → mayDispatch s lid l = true → l.region = none →
    warmRegion s l.ctx l = none → ctxValid s (ctxEntry s l.ctx) = true →
    let v := Config.regionChoice s.tick
    let origin := v % 3072
    let rows := v / 3072 % (48 - waferRow origin) + 1
    let cols := v / (3072 * 48) % (64 - waferCol origin) + 1
    exec (.regionLoad lid) s = .next (match loadRegion s l.ctx l.image origin rows cols none with
      | .loaded r =>
        { s.setLaunch lid { l with region := some s.nextId } with regions := SMap.put s.regions s.nextId r, nextId := s.nextId + 1 }
      | .rejected => s.setLaunch lid { l with status := some 0x03 }
      | .noCores => s)) ∧
  (∀ (s : State) (ctx : BitVec 16) (image : Word) (origin rows cols : Nat) (warm : Option Nat) (r : Region),
    loadRegion s ctx image origin rows cols warm = .loaded r →
      (∀ e ∈ r.map, e.2 ∈ freeCores s) ∧ (r.map.map (·.2)).Nodup ∧ some (r.map.map (·.1)) = rectangle origin rows cols) ∧
  (∀ (s : State) (k : Nat) (r : Region), s.region? k = some r →
    ((∀ e ∈ s.launches, e.2.region ≠ some k) → (r.warm = none ∨ r.releasing = true) →
      exec (.regionRelease k) s = .next { s with regions := SMap.del s.regions k }) ∧
    ((∃ e ∈ s.launches, e.2.region = some k) → exec (.regionRelease k) s = .next s)) ∧
  (∀ (s : State) (n : BitVec 8) (p : Word) (w : WarmSlot), s.warmSlot n.toNat = w →
    (w.region = none → exec (.warmSlotImageWrite n p) s = .next (s.setWarm n.toNat
      { w with pointer := p, ready := false, failed := false, staging := p != 0 })) ∧
    (∀ k r, w.region = some k → s.region? k = some r → exec (.warmSlotImageWrite n p) s = .next
      ((coldBoxes { s with regions := SMap.put s.regions k { r with releasing := true } } (some k)).setWarm n.toNat
        { w with pointer := p, ready := false, failed := false, region := none, staging := p != 0 })) ∧
    (SMap.entry? s.warm n.toNat = some w → w.staging = true → w.region = none → (∀ e ∈ s.regions, e.2.warm ≠ some n.toNat) →
      let x := loadRegion s w.ctx w.pointer w.origin.toNat (w.rows.toNat + 1) (w.cols.toNat + 1) (some n.toNat)
      exec (.warmSlotStaged n) s = .next (match x with
        | .loaded r => { s with regions := SMap.put s.regions s.nextId r, nextId := s.nextId + 1 }.setWarm n.toNat
            { w with staging := false, ready := true, failed := false, region := some s.nextId }
        | _ => s.setWarm n.toNat { w with staging := false, ready := false, failed := true, region := none })) ∧
    (∀ k r m r', SMap.entry? s.warm n.toNat = some w → w.staging = true → w.region = some k → s.region? k = some r →
      keptMap s k r = some m → loadOn s w.ctx w.pointer r.origin r.rows r.cols (some n.toNat) m = .loaded r' →
        exec (.warmSlotStaged n) s = .next ({ s with regions := SMap.put s.regions k r' }.setWarm n.toNat
          { w with staging := false, ready := true, failed := false })))

/-- R83 to R88, R99, R104, R115, R227, R415: until its first team is dispatched a ready launch has its context's entry checked;
its tables are read before that team, its status is fixed where the entry or a table is invalid or no core of its region could
hold a team, and otherwise one ready team is loaded on a core of its region where it fits, one without a team where there is one
(log entry 90), with the lowest free stack slots.

R44, R99, R115, R355: a team is loaded with its launch's shares and its groups' full masks, the first clause, an empty
window stack, s0 holding the launch's argument pointer, and the special registers of its image.

Where the spec leaves a point of this open the statement is of the model: log entries 24, 26, 27, 66, 67, 90 and 96.

Completes, on the conditions stated here on the state and the operands alone: TEAM_DISPATCH. -/
def Obligations.TeamsDispatched : Prop :=
  (∀ (s : State) (lid k : Nat) (l : Launch) (r : Region), s.launch? lid = some l → mayDispatch s lid l = true →
     (l.dispatched = [] → (l.tablesRead = false ∨ l.teams ≠ 0) → ctxValid s (ctxEntry s l.ctx) = false →
       exec (.teamDispatch lid) s = .next (fixStatus s lid 0x04)) ∧
     (l.region.or (warmRegion s l.ctx l) = some k → s.region? k = some r →
       (l.dispatched = [] → ctxValid s (ctxEntry s l.ctx) = true) →
       (l.tablesRead = false → readTables s l r = none → exec (.teamDispatch lid) s = .next (fixStatus s lid 0x03)) ∧
       (∀ l', l.tablesRead = false → readTables s l r = some l' →
         let x := { l' with region := some k }
         exec (.teamDispatch lid) s = .next ((dispatchReady (s.setLaunch lid x) lid x r).getD (s.setLaunch lid x))) ∧
       (l.tablesRead = true → l.dispatched.length ≠ l.teams →
         let x := { l with region := some k }
         let u := s.setLaunch lid x
         (x.dispatched = [] → placeable u x r = false → exec (.teamDispatch lid) s = .next (fixStatus u lid 0x05)) ∧
         ((x.dispatched ≠ [] ∨ placeable u x r = true) → snapshotHeld u lid x = false →
           (readyTeam u x = .failed → exec (.teamDispatch lid) s = .next (u.modLaunch lid fun y => { y with depFailed := true })) ∧
           (readyTeam u x = .none → exec (.teamDispatch lid) s = .next s) ∧
           (∀ n p segs, readyTeam u x = .team n → coreFor u x r n = some p → fits u p x.need = some segs → x.convoy = false →
             samples u.dev x n = false →
             let stk := lowestFree (stackUsed u x.ctx) (ctxStackSlots (ctxEntry u x.ctx)) x.groups
             p ∈ r.cores ∧ (teamsOn u p = [] ∨ ∀ q ∈ fitting u r.cores x.need, teamsOn u q ≠ []) ∧
             (stk.length < x.groups → exec (.teamDispatch lid) s = .next s) ∧
             (stk.length = x.groups → exec (.teamDispatch lid) s = .next
               (loadTeam (u.modLaunch lid fun y => { y with dispatched := n :: y.dispatched, ran := true }) lid x r
                 (newTeam x r n p segs) stk))))))) ∧
  (∀ (l : Launch) (r : Region) (team j stack core tick : Nat), (∀ b n line, l.origin ≠ .mailbox b n line) →
     let g := loadGroup l r team j stack core tick
     g.exec = fullMask l.width ∧ g.live = fullMask l.width ∧ g.hdr = 0 ∧ g.idx = 0 ∧ g.phase = .boundary ∧ g.sup = false ∧
       g.tokens = [] ∧ g.depth = 0 ∧ g.base = 0 ∧ g.win = [] ∧ g.ring = l.ring ∧ SMap.get 0 g.sregs 0 = l.argument ∧
       g.wbp = 0x00E0000000000000 ∧ g.wlim = 0x00E0000000000000 + BitVec.ofNat 64 l.backing ∧
       (r.images = [] → g.handler = 0 ∧ g.linkFenceLim = 4000000 ∧ ∀ n, n < 4 → (g.port n).bind = 0xC000000000000000))

/-- R359, R382 to R387: the first end request to arrive fixes the status and the trap fields; ending a launch stops its engines
at a line boundary and its groups, drops its saved teams and ends its children trapped, and changes memory by nothing but what
those engines have written; a launch all of whose teams and children are gone retires in order with its completion record where
it names a place for one, and leaves the table, its root keeping the pages that a child has mapped (R89, R375). A launch of which
no group has issued an instruction leaves bits 132 to 255 of its record and its trap address zero.

Where the spec leaves a point of this open the statement is of the model: log entries 31, 39, 85 and 91.

Completes, on the conditions stated here on the state and the operands alone: END_LAUNCH, LAUNCH_RETIRE and END_REQUEST_ARRIVAL. -/
def Obligations.LaunchesEnd : Prop :=
  ∀ (s : State) (lid : Nat) (l : Launch), s.launch? lid = some l →
    (∀ st cause place addr, l.requests = [(st, cause, place, addr)] →
      (l.status = none → exec (.endRequestArrival lid) s = .next (s.setLaunch lid
        { l with requests := [], status := some st, endCause := cause, endPlace := place, endAddr := addr })) ∧
      (l.status ≠ none → exec (.endRequestArrival lid) s = .next (s.setLaunch lid { l with requests := [] }))) ∧
    (l.status ≠ none → stillRuns s lid l = true →
      let u := haltEngines s (launchGroups s lid)
      ∃ t, exec (.endLaunch lid) s = .next t ∧ t.mem = u.mem ∧
        ((∀ e ∈ s.ops, e.2.group ∈ launchGroups s lid → isEngineOp e.2.instr = false) → t.mem = s.mem) ∧
        (∀ k ∈ launchGroups s lid, ∀ g, u.group? k = some g → t.group? k = some g.halt) ∧
        (∀ e ∈ t.ops, e.2.group ∈ launchGroups s lid → isEngineOp e.2.instr = false) ∧
        (∀ e ∈ t.saved, e.2.team.launch ≠ lid) ∧
        (∀ k ∈ l.children, ∀ x, u.launch? k = some x → x.status = none → k ≠ lid →
          ∃ y, t.launch? k = some y ∧ y.status = some 0x02)) ∧
    (l.issued = false → ∀ rseq,
      (completionRecord l rseq).extractLsb' 132 124 = 0 ∧ (completionRecord l rseq).extractLsb' 448 64 = 0) ∧
    (mayRetire s lid l = true → s.snaps.all (fun x => x.launch != lid) = true → l.bitmapPtr = 0 →
      let rseq := s.dev.devrseq + 1
      let r := completionRecord l rseq
      let s' := s.setDev { s.dev with devrseq := rseq }
      let gone (t : State) : State := { t with
        launches := SMap.del t.launches lid, assay := t.assay.filter (fun x => x.launch != lid) }
      let forgotten (t : State) : State := { t with firstTouch := t.firstTouch.filter fun e => e.1 != lid }
      ∀ t, (recordPlace l = 0 → t = s') → (recordPlace l ≠ 0 → writeRecord s' l.ctx (recordPlace l) r = some t) → t.snaps = s.snaps →
        (l.origin = .queue → exec (.launchRetire lid) s = .next (forgotten (gone (retireInQueue t l r)))) ∧
        (∀ p n, l.origin = .child p n → exec (.launchRetire lid) s =
          let u := t.modLaunch p fun x => { x with children := x.children.erase lid }
          .next { gone u with firstTouch := u.firstTouch.map fun e => if e.1 = lid then (u.root lid, e.2) else e }) ∧
        (∀ b n line, l.origin = .mailbox b n line → exec (.launchRetire lid) s = .next (forgotten (gone t)))) ∧
    (mayRetire s lid l = false → exec (.launchRetire lid) s = .next s)

/-! ## Saving, recovery, the log, power and the host -/

/-- R364 to R366: a suspend stands until its resume; a team of a suspended context whose groups stand still with their memory
instructions complete is saved: its engines stop at a line boundary, its state leaves the core and is kept.

R114, R116, R117, R337, R367: a saved team goes back with its state to a core where it fits, one without a team where there is
one (log entry 90), once its engines can mark their lines again; both sides of a convoy go back together. It waits while its
context is suspended; a save area whose hash fails (log entry 83), or a group's image that fails its check, ends the launch or
has it replayed, before any state changes.

R366, R369, R370, R371, R385, R392, R412: an uncorrectable error in a sector of memory, of a scratchpad or in a slot poisons it
with the tag of its log record, the lower tag staying; one in reserved HBM may spoil a save area. One in state without poison
ends its launch, or rolls a protected one back; what is fetched again is a corrected error of its unit (log entry 86); a wrong
value that no code catches changes one lane of a register.

R374, R375: a page that a write of a protected launch waits for is copied and its leaf marked: it shows a snapshot, and
copy-on-write while another page that it maps awaits its copy. With no frame left the launch is rolled back without replay. A
roll-back takes away every trace of the run of the launch's tree: its descendants, their teams and saved teams, and the root is
as it was accepted, replayed at most twice; the page of a snapshot has its copy's bytes again and a page mapped by first touch is
zero. A launch whose status is fixed otherwise is not rolled back.

Where the spec leaves a point of this open the statement is of the model: log entries 19, 26, 34, 83, 84, 86, 90, 91 and 96.

Completes, on the conditions stated here on the state and the operands alone: CTXSUSP_SUSPEND, CTXSUSP_RESUME, PREEMPT_SAVE, TEAM_RESTORE, UNCORRECTABLE_ERROR, SNAPSHOT_COPY and ROLLBACK. -/
def Obligations.SavesAndErrors : Prop :=
  ((∀ (s : State) (c : BitVec 16),
     (c ∈ s.dev.suspended → exec (.ctxsuspSuspend c) s = .next (s.setDev { s.dev with suspId := c })) ∧
     (c ∉ s.dev.suspended → exec (.ctxsuspSuspend c) s = .next (s.setDev { s.dev with suspId := c, suspended := c :: s.dev.suspended })) ∧
     exec (.ctxsuspResume c) s = .next (s.setDev { s.dev with suspId := c, suspended := s.dev.suspended.erase c })) ∧
   (∀ (s : State) (tid : Nat) (t : Team) (l : Launch), s.team? tid = some t → s.launch? t.launch = some l → t.side = .solo →
     l.status = none → l.rollback = false → (∀ v ∈ s.convoys, v.lead ≠ tid ∧ v.escort ≠ tid) → t.both tid = [tid] →
     (mayStand s tid = true → l.ctx ∈ s.dev.suspended →
       let h := haltEngines s ((s.teamGroups tid).map (·.1))
       (EnginesIdle s → h = s) ∧
       ∃ u x, exec (.preemptSave tid) s = .next u ∧ SMap.entry? u.saved tid = some x ∧ h.team? tid = some x.team ∧
         x.team = { t with spad := x.team.spad, fe := x.team.fe, spadPoison := x.team.spadPoison, bufs := x.team.bufs } ∧
         x.damaged = false ∧ x.groups.map (·.1) = (s.teamGroups tid).map (·.1) ∧ (∀ e ∈ u.groups, e.2.team ≠ tid) ∧
         (∀ e ∈ x.ops, isEngineOp e.2.instr = true) ∧ (∀ e ∈ x.groups, e.2.phase ≠ .issuing)) ∧
     (mayStand s tid = false → exec (.preemptSave tid) s = .next s))) ∧
  (∀ (s : State) (tid : Nat) (x : SavedTeam) (l : Launch), SMap.entry? s.saved tid = some x → s.launch? x.team.launch = some l →
     (x.sound l.width = true ↔ x.damaged = false ∧ ∀ e ∈ x.groups, e.2.imageOk l.width = true) ∧
     (s.dev.stage = 9 → l.status = none → l.rollback = false → l.ctx ∉ s.dev.suspended →
       (∀ r ∈ l.requests, r.2.1 ≠ Cause.doubleFault) →
       (x.sound l.width = false → exec (.teamRestore tid) s = .next (failRestore s x l)) ∧
       (∀ p fit, x.sound l.width = true → x.team.side = .solo →
         choose (freeFirst s (restoreCores s x [])) (Config.coreChoice s.tick) = some p → restoreFit s x p = some fit →
           p ∈ restoreCores s x [] ∧ (teamsOn s p = [] ∨ ∀ q ∈ restoreCores s x [], teamsOn s q ≠ []) ∧
           (∀ t, putBack s x p fit = some t → exec (.teamRestore tid) s = .next t ∧
             (x.id = tid → t.team? tid = some { x.team with place := p, segs := fit.map (·.1) })) ∧
           (putBack s x p fit = none → exec (.teamRestore tid) s = .next s)) ∧
       (∀ y, x.team.side ≠ .solo → SMap.entry? s.saved x.team.peer = some y →
         (y.sound l.width = false → exec (.teamRestore tid) s = .next (failRestore s x l)) ∧
         (∀ p fit u q fit' t, x.sound l.width = true → y.sound l.width = true →
           choose (freeFirst s (restoreCores s x [])) (Config.coreChoice s.tick) = some p → restoreFit s x p = some fit →
           putBack s x p fit = some u →
           choose (freeFirst u ((restoreCores u y [p]).filter fun q => !l.apart || reticleOf q != reticleOf p))
             (Config.coreChoice (s.tick + 1)) = some q → restoreFit u y q = some fit' → putBack u y q fit' = some t →
             exec (.teamRestore tid) s = .next t ∧ q ≠ p))) ∧
     (l.ctx ∈ s.dev.suspended ∨ (∃ r ∈ l.requests, r.2.1 = Cause.doubleFault) → exec (.teamRestore tid) s = .next s)) ∧
  (∀ (s : State),
     let tag := BitVec.ofNat 12 (s.log.next + s.log.reports.length)
     (∀ a, isBacked a = true → ∃ t, exec (.uncorrectableError (.sector a)) s = .next t ∧
       SMap.entry? t.fab.poison (a / 32) = some (match SMap.entry? s.fab.poison (a / 32) with
         | some old => if old.toNat < tag.toNat then old else tag | none => tag) ∧
       (∀ q, q ≠ a / 32 → SMap.entry? t.fab.poison q = SMap.entry? s.fab.poison q) ∧ t.mem = s.mem ∧
       t.log.reports = s.log.reports ++ [{ cls := 1, unit := 5, cause := 0x10, detail := BitVec.ofNat 64 (a / 32 * 32),
                                           place := partPlace (.stack (Fin.ofNat 16 (a / (96 * gib)))) }] ∧
       (isReserved a = false → t.saved = s.saved) ∧
       (isReserved a = true → t.saved.map (·.1) = s.saved.map (·.1) ∧
         ∀ e ∈ t.saved, e ∈ s.saved ∨ ∃ e' ∈ s.saved, e = (e'.1, { e'.2 with damaged := true }))) ∧
     (∀ a, isBacked a = false → exec (.uncorrectableError (.sector a)) s = .next s) ∧
     (∀ tid off t, s.team? tid = some t → off < t.spadSize →
       let r : Report := { cls := 1, unit := 3, cause := 0x10, detail := BitVec.ofNat 64 (off / 32 * 32) }
       exec (.uncorrectableError (.scratchpad tid off)) s = .next ((s.setTeam tid (t.addSpadPoison (off / 32) tag)).report
         { r with place := BitVec.ofNat 12 t.place, cycle := s.cycle (reticleOf t.place) })) ∧
     (∀ tid n t, s.team? tid = some t → n < t.nslots →
       let r : Report := { cls := 1, unit := 2, cause := 0x10, detail := BitVec.ofNat 64 n }
       let bad := t.setSlotTag n (t.slotTag n ||| BitVec.ofNat 32 (2 ^ 22))
       exec (.uncorrectableError (.slot tid n)) s = .next ((s.setTeam tid bad).report
         { r with place := BitVec.ofNat 12 t.place, cycle := s.cycle (reticleOf t.place) }) ∧ (bad.slotTag n).getLsbD 22 = true) ∧
     (∀ lid l, s.launch? lid = some l → l.status = none →
       let p := ((s.teams.find? fun e => e.2.launch == lid).map fun e => e.2.place).getD 0
       let r : Report := { cls := 1, unit := 0, cause := 0x12, place := BitVec.ofNat 12 p, cycle := s.cycle (reticleOf p),
                           detail := BitVec.ofNat 64 (l.seq.toNat * 2 ^ 32 + l.queue) }
       (l.prot = false → exec (.uncorrectableError (.state lid)) s = .next ((s.report r).setLaunch lid { l with status := some 0x0A })) ∧
       (l.prot = true → exec (.uncorrectableError (.state lid)) s = .next ((s.report r).setLaunch lid { l with rollback := true }))) ∧
     (∀ (unit : BitVec 8) place, ((unit.toNat < 5 ∨ unit = 5 ∧ ∃ n : Fin 16, place = partPlace (.stack n)) →
       ∃ x : Report, x.cls = 0 ∧ x.unit = unit ∧ x.place = place ∧ x.cause = (if unit = 5 then 0x03 else 0x01) ∧
         exec (.uncorrectableError (.refetched unit place)) s = .next ({ s with free := s.free + 1 }.reportCorrected 0 x)) ∧
       (5 < unit.toNat ∨ unit = 5 ∧ (∀ n : Fin 16, place ≠ partPlace (.stack n)) →
         exec (.uncorrectableError (.refetched unit place)) s = .next s)) ∧
     (∀ gid reg lane mask g, s.group? gid = some g → vOk g false reg.val = true → lane.val < g.width →
       exec (.uncorrectableError (.silent gid reg lane mask)) s =
         .next (s.setGroup gid (g.writeV reg.val lane.val (g.readV reg.val lane.val ^^^ mask))))) ∧
  ((∀ (s : State) (page : Nat) (x : Snapshot), s.snaps.find? (fun x => x.page == page && x.wanted && !x.copied) = some x →
     (65536 ≤ (s.snaps.filter (·.copied)).length →
       exec (.snapshotCopy page) s = .next ((fixStatus s x.launch 0x0B).requestRollback x.launch)) ∧
     ((s.snaps.filter (·.copied)).length < 65536 → ∀ a, snapshotLeaf s x = some a →
       let v : State := { s with snaps := s.snaps.map fun y => if y = x then copyPage s (pageParts a.leaf a.level page) y else y }
       let t := remarkLeaf v x.ctx a
       exec (.snapshotCopy page) s = .next t ∧ copyPage s (pageParts a.leaf a.level page) x ∈ t.snaps ∧ t.snaps.length = s.snaps.length ∧
       ((∀ i < 8, forwarded s.fab (a.slot + i) = a.slot + i) →
         let w := BitVec.ofNat 64 (Memory.nat t.mem a.slot 8)
         w.getLsbD 59 = true ∧
         (w.getLsbD 58 = true ↔ ∃ y ∈ t.snaps, y.ctx = x.ctx ∧ a.page ≤ y.page ∧ y.page < a.page + Leaf.pages a.level ∧ y.copied = false) ∧
         ∀ b < 64, b ≠ 58 → b ≠ 59 → w.getLsbD b = a.leaf.getLsbD b))) ∧
   (∀ (s : State) (lid k : Nat) (l : Launch), s.root lid = k → s.launch? k = some l →
     let tree := s.tree k
     let flagged := ∃ j ∈ tree, ∃ y, s.launch? j = some y ∧ y.rollback = true
     (¬ flagged → exec (.rollback lid) s = .next s) ∧
     (flagged → l.status ≠ none → l.status ≠ some 0x0B →
       exec (.rollback lid) s = .next (tree.foldl (fun s j => s.modLaunch j fun y => { y with rollback := false }) s)) ∧
     (flagged → l.status = none ∨ l.status = some 0x0B → ∃ t x, exec (.rollback lid) s = .next t ∧ t.launch? k = some x ∧
       x.record = l.record ∧ x.dispatched = [] ∧ x.children = [] ∧ x.rollback = false ∧ x.fpstat = 0 ∧ x.tablesRead = false ∧
       (l.status = none → l.replays < 2 → x.replays = l.replays + 1 ∧ x.status = none) ∧
       (l.status = none → 2 ≤ l.replays → x.replays = l.replays ∧ x.status = some 0x0C) ∧
       (l.status = some 0x0B → x.replays = l.replays ∧ x.status = some 0x0B) ∧
       (∀ j ∈ tree, j ≠ k → t.launch? j = none) ∧
       (∀ e ∈ t.teams, e.2.launch ∉ tree) ∧ (∀ e ∈ t.saved, e.2.team.launch ∉ tree) ∧
       t.log.reports = s.log.reports ++
         [{ cls := 2, unit := 8, cause := 0x20, detail := BitVec.ofNat 64 (l.seq.toNat * 2 ^ 32 + l.queue) }] ∧
       (let u := tree.foldl discardRun s
        let mapped := u.firstTouch.filter fun e => tree.contains e.1
        (∀ y a, (u.snaps.filter fun y => y.launch == k && y.copied) = [y] → snapshotLeaf u y = some a → mapped = [] →
          let parts := pageParts a.leaf a.level y.page
          (y.bytes.map (·.1)).Nodup → (∀ e ∈ y.bytes, e.1 < 65536) →
          (∀ o o', o < 65536 → o' < 65536 → pageByte parts o = pageByte parts o' → o = o') →
            (∀ e ∈ y.bytes, Memory.get t.mem (pageByte parts e.1) = e.2) ∧
            (∀ o < 65536, o ∉ y.bytes.map (·.1) → Memory.get t.mem (pageByte parts o) = 0) ∧
            (∀ p, inRanges parts p = false → Memory.get t.mem p = Memory.get u.mem p)) ∧
        (∀ j ctx page leaf level, (u.snaps.filter fun y => y.launch == k && y.copied) = [] → mapped = [(j, ctx, page)] →
          walkTables u ctx (page * 65536) = .found leaf level →
            let parts := pageParts leaf level page
            (∀ p, inRanges parts p = true → Memory.get t.mem p = 0) ∧
            (∀ p, inRanges parts p = false → Memory.get t.mem p = Memory.get u.mem p))))))

/-- R377 to R380, R390: equal offers of a convoy's two sides match; different ones, and an offer to a side that has ended, are a
mismatch. The first mismatch since a waypoint sends both sides back to it: their teams and groups are those saved there, engines
in flight stop, writes that are posted go on, and what was logged since is taken from the log (log entry 92); the second ends the
launch. A full log of two sides that stand still makes a waypoint; an assayer's replay leaves its stream and counts the team as
sampled, and is not made of a launch that has ended.

R376 to R381: what the two sides of a convoy do at an operation of the second row (a value that one of them takes from
outside) and of the third row (one that is made once), and at one that the log of a re-execution covers. The lead stalls while the
escort is behind by the launch's slack; a value goes from the lead to the escort's queue with its signature; an operation made
once waits until both sides have offered the same one, and its result, or its trap, is both sides'. A signature that differs is a
mismatch, which CONVOY_MISMATCH takes up. A team by itself makes the operation and logs it where it is sampled.

Where the spec leaves a point of this open the statement is of the model: log entries 27, 32, 33, 57 and 92.

Completes, on the conditions stated here on the state and the operands alone: CONVOY_MATCH, CONVOY_MISMATCH, COMMIT_LOG_FULL and ASSAYER_REPLAY. -/
def Obligations.ConvoysRecover : Prop :=
  ((∀ (s : State) (gid : Nat) (g : Group) (t : Team) (e : Nat × Group), s.group? gid = some g → s.team? g.team = some t →
     t.side = .lead → g.matched = false → s.groups.find? (fun e => e.2.team == t.peer && e.2.slot == g.slot) = some e →
     let mismatch : State := { s with convoys := s.convoys.map fun v =>
       if v.lead = g.team ∨ v.escort = g.team then { v with mismatched := true } else v }
     (∀ a b, g.offer = some a → e.2.offer = some b →
       (a = b → exec (.convoyMatch gid) s = .next (s.setGroup gid { g with matched := true })) ∧
       (a ≠ b → exec (.convoyMatch gid) s = .next mismatch)) ∧
     (∀ a, g.offer = some a ∧ e.2.offer = none ∧ e.2.phase = .ended ∨ g.offer = none ∧ e.2.offer = some a ∧ g.phase = .ended →
       exec (.convoyMatch gid) s = .next mismatch) ∧
     (g.offer = none ∧ e.2.offer = none ∨ g.offer = none ∧ g.phase ≠ .ended ∨ e.2.offer = none ∧ g.offer ≠ none ∧ e.2.phase ≠ .ended →
       exec (.convoyMatch gid) s = .next s)) ∧
   (∀ (s : State) (tid : Nat) (v : Convoy) (a b : Team) (l : Launch),
     s.convoys.find? (fun v => (v.lead == tid || v.escort == tid) && v.mismatched) = some v → s.team? v.lead = some a →
     s.team? v.escort = some b → s.launch? a.launch = some l →
       ∃ t, exec (.convoyMismatch tid) s = .next t ∧ (∃ x, t.launch? a.launch = some x ∧ x.mismatches = min 65535 (l.mismatches + 1) ∧
           (v.warned = true → l.status = none → x.status = some 0x0D ∧ x.endCause = 0x11 ∧ x.endPlace = BitVec.ofNat 12 b.place) ∧
           (v.warned = false → x.status = l.status)) ∧
         (∃ u ∈ t.convoys, u.lead = v.lead ∧ u.mismatched = false ∧
           (v.warned = false → l.status = none → u.warned = true ∧ u.way = v.way ∧ u.covered = loggedCounts v ∧ u.taken = [] ∧
             u.commits.map (fun e => (e.1, e.2.sig, e.2.vals, e.2.trap)) = v.commits.map (fun e => (e.1, e.2.sig, e.2.vals, e.2.trap)) ∧
             (s.ops = [] → u.commits = v.commits))) ∧
         (∀ x y, v.warned = false → l.status = none → v.way = [x, y] → x.id = v.lead → y.id = v.escort → v.lead ≠ v.escort →
           ((x.groups ++ y.groups).map (·.1)).Nodup → (∀ e ∈ x.groups, e.2.team = v.lead) → (∀ e ∈ y.groups, e.2.team = v.escort) →
             t.team? v.lead = some x.team ∧ t.team? v.escort = some y.team ∧
             (∀ e ∈ x.groups ++ y.groups, ∀ old, s.group? e.1 = some old → t.group? e.1 = some (TakenBack old e.2 s.tick)) ∧
             (x.ops = [] → y.ops = [] → ∀ e ∈ t.ops, e.2.group ∈ (x.groups ++ y.groups).map (·.1) → e.2.posted = true)) ∧
         (v.warned = true → ∀ e ∈ t.groups, e.2.team = v.lead ∨ e.2.team = v.escort → e.2.phase = .ended ∨ e.2.phase = .stopped) ∧
         (∃ r ∈ t.log.reports, r.cls = 2 ∧ r.cause = 0x21)) ∧
   (∀ (s u : State) (tid : Nat) (v : Convoy), s.convoys.find? (fun v => v.lead == tid || v.escort == tid) = some v → v.mismatched = false →
     (v.commits.length < 4096 → exec (.commitLogFull tid) s = .next s) ∧
     (4096 ≤ v.commits.length →
       (∀ e ∈ s.teamGroups v.lead ++ s.teamGroups v.escort, (e.2.phase = .waiting ∨ e.2.phase = .paused ∨ e.2.phase = .ended) ∧
         s.pendingOps e.1 = []) →
       (takeWaypoint s v v.wayNo = some u → exec (.commitLogFull tid) s = .next u) ∧
       (takeWaypoint s v v.wayNo = none → exec (.commitLogFull tid) s = .next (s.mismatchTeam v.lead)))) ∧
   (∀ (s : State) (tid : Nat) (x : AssayStream) (l : Launch), s.assay.find? (fun x => x.team == tid && x.ended) = some x →
     s.launch? x.launch = some l → (l.status.isSome = true → exec (.assayerReplay tid) s = .next s) ∧ (l.status = none → tid ∈ l.replaying →
       let t := { s with assay := s.assay.filter fun (y : AssayStream) => y.team != tid }.setLaunch x.launch { l with
         replaying := l.replaying.erase tid, sampled := min 65535 (l.sampled + 1),
         auditMismatches := if Config.replayDiffers s.tick = true then min 65535 (l.auditMismatches + 1) else l.auditMismatches }
       exec (.assayerReplay tid) s = .next (if Config.replayDiffers s.tick = true then
         t.report { cls := 3, unit := 10, cause := 0x30, detail := BitVec.ofNat 64 x.index } else t)))) ∧
  ((∀ (s : State) (c : Ctx) (sig : Word) (perform : State → Res (List (Nat × Word) × State)),
     let logged (v : List (Nat × Word)) (u : State) : State := assayLog c sig v u
     let offered : State := s.modGroup c.gid fun g => { g with offer := some sig }
     let ended (u : State) : State := u.modGroup c.gid fun g => { g with matched := false, offer := none }
     (c.t.side = .solo → ∀ v u, perform s = .ok (v, u) →
       takeOutside c sig perform s = .ok (v, logged v u) ∧ performOnce c sig perform s = .ok (v, logged v u)) ∧
     (c.t.side = .lead → c.logged s = none →
       (stalls s c = true → takeOutside c sig perform s = .error (.wait s) ∧ performOnce c sig perform s = .error (.wait s)) ∧
       (stalls s c = false →
         (∀ v u p, perform s = .ok (v, u) → c.peer? (logged v u) = some p → takeOutside c sig perform s =
           .ok (v, c.commit sig v ((logged v u).modGroup p fun g => { g with lvq := g.lvq ++ [{ sig, vals := v }] }))) ∧
         (∀ x p, perform s = .error (.trap x) → c.peer? s = some p → takeOutside c sig perform s = .error (.trapIn x
           (c.commitEntry { sig, trap := some x } (s.modGroup p fun g => { g with lvq := g.lvq ++ [{ sig, trap := some x }] })))) ∧
         (∀ u, perform s = .error (.wait u) → takeOutside c sig perform s = .error (.wait u)) ∧
         (c.g.matched = false → performOnce c sig perform s = .error (.wait offered)) ∧
         (c.g.matched = true →
           (∀ v u p, perform s = .ok (v, u) → c.peer? (ended (logged v u)) = some p → performOnce c sig perform s =
             .ok (v, c.commit sig v ((ended (logged v u)).modGroup p fun g => { g with convResult := some v, offer := none }))) ∧
           (∀ x p, perform s = .error (.trap x) → c.peer? (ended s) = some p → performOnce c sig perform s = .error (.trapIn x
             (c.commitEntry { sig, trap := some x } ((ended s).modGroup p fun g => { g with convTrap := some x, offer := none }))))))) ∧
     (c.t.side = .escort → c.logged s = none →
       (c.g.lvq = [] → takeOutside c sig perform s = .error (.wait s)) ∧
       (∀ v rest, c.g.lvq = v :: rest →
         let u := s.modGroup c.gid fun g => { g with lvq := rest }
         (v.sig ≠ sig → takeOutside c sig perform s = .error (.trap { cause := 0x11 })) ∧
         (v.sig = sig → v.trap = none → takeOutside c sig perform s = .ok (v.vals, u)) ∧
         (∀ x, v.sig = sig → v.trap = some x → takeOutside c sig perform s = .error (.trapIn x u))) ∧
       (c.g.convTrap = none → c.g.convResult = none → performOnce c sig perform s = .error (.wait offered)) ∧
       (∀ v, c.g.convTrap = none → c.g.convResult = some v →
         performOnce c sig perform s = .ok (v, s.modGroup c.gid fun g => { g with convResult := none })) ∧
       (∀ x, c.g.convTrap = some x →
         performOnce c sig perform s = .error (.trapIn x (s.modGroup c.gid fun g => { g with convTrap := none })))) ∧
     (∀ e, c.t.side ≠ .solo → c.logged s = some e →
       (e.sig ≠ sig → takeOutside c sig perform s = .error (.trap { cause := 0x11 }) ∧
         performOnce c sig perform s = .error (.trap { cause := 0x11 })) ∧
       (e.sig = sig → e.undone = false →
         (e.trap = none → takeOutside c sig perform s = .ok (e.vals, c.tookLogged s) ∧
           performOnce c sig perform s = .ok (e.vals, c.tookLogged s)) ∧
         (∀ x, e.trap = some x → takeOutside c sig perform s = .error (.trapIn x (c.tookLogged s)) ∧
           performOnce c sig perform s = .error (.trapIn x (c.tookLogged s)))))) ∧
   (∀ (s : State) (c : Ctx) (sig : Word) (v : List (Nat × Word)), c.logged s = none →
     c.commit sig v s = s.modConvoy c.g.team fun x => { x with commits := x.commits ++ [(c.g.slot, { sig, vals := v })] }) ∧
   (∀ (s : State) (c : Ctx) (g : Group) (addr : Word), s.group? c.gid = some g →
     c.takeTrap { cause := 0x11, addr } s = { s with convoys := s.convoys.map fun v =>
       if v.lead = g.team ∨ v.escort = g.team then { v with mismatched := true } else v }))

/-- R391 to R394, R401: while the log is open the oldest report becomes the next record, which carries its number and the hash
chained from the records before it; the first 256 corrected errors of a unit and cause are reported one by one, and 2^20 cycles
after the first the window's end logs those beyond them as one record; a checkpoint, taken on command or where 4,096 records stand
past the last, signs the newest record's hash, counts and moves the reserve limit to 8,192 past it; a quote, which ATTCMD shows as
under way until it is formed, signs the nonce, the measurements and the log.

Where the spec leaves a point of this open the statement is of the model: log entries 18, 35 and 36.

Completes, on the conditions stated here on the state and the operands alone: EVENT_LOG_RECORD, CHECKPOINT, CKPTCMD_CHECKPOINT, ATTCMD_QUOTE and COALESCED_WINDOW_END. -/
def Obligations.LogWritten : Prop :=
  (∀ (s : State) (x : Report) (rest : List Report), s.log.reports = x :: rest →
    (7 ≤ s.dev.stage.toNat → s.dev.failure = 0 → s.log.next < s.log.limit → ∃ t r, exec .eventLogRecord s = .next t ∧
      t.log.records.head? = some r ∧ t.log.next = s.log.next + 1 ∧ t.log.reports = rest ∧ t.log.chain = digest (leBytes 64 r.toNat) ∧
      r.extractLsb' 256 256 = s.log.chain ∧ r.extractLsb' 192 64 = BitVec.ofNat 64 s.log.next ∧ r.extractLsb' 128 64 = x.cycle ∧
      r.extractLsb' 64 64 = x.detail ∧ r.extractLsb' 32 8 = x.cause ∧ r.extractLsb' 40 8 = x.unit ∧
      (x.cls = 1 ∨ logCrowded t.log s.dev.logAck.toNat = true → t.dev.irqcause.getLsbD 1 = true)) ∧
    (s.dev.stage.toNat < 7 ∨ s.dev.failure ≠ 0 ∨ s.log.limit ≤ s.log.next → exec .eventLogRecord s = .next s)) ∧
  (∀ (s : State) (w : ErrWindow), s.log.windows = [w] →
    (w.since + 0x100000 ≤ s.cycle (reticleOf w.place.toNat) →
      exec (.coalescedWindowEnd w.unit w.cause) s = .next { s with log := { s.log with windows := [], reports := s.log.reports ++
        if 256 < w.count then [{ cls := 0, unit := w.unit, cause := 0x05, place := w.place, detail := BitVec.ofNat 64 (w.count - 256),
                                 cycle := if w.unit.toNat ≤ 4 then s.cycle (reticleOf w.place.toNat) else 0 }] else [] } }) ∧
    (¬ w.since + 0x100000 ≤ s.cycle (reticleOf w.place.toNat) → exec (.coalescedWindowEnd w.unit w.cause) s = .next s ∧
      ∀ r : Report, r.unit = w.unit → r.cause = w.cause → r.place = w.place →
        s.reportCorrected w.part r = { s with log := { s.log with
          windows := [{ w with count := w.count + 1 }],
          reports := s.log.reports ++ if w.count < 256 then [r] else [] } })) ∧
  (∀ (s : State) (part : Nat) (r : Report), s.log.windows = [] → s.reportCorrected part r = { s with log := { s.log with
    windows := [{ unit := r.unit, cause := r.cause, place := r.place, part, count := 1, since := s.cycle (reticleOf r.place.toNat) }],
    reports := s.log.reports ++ [r] } }) ∧
  (∀ (s : State),
    let n := s.log.next - 1
    let head := ckptHead (s.log.counter + 1) n s.log.chain
    let t : State := { s with log := { s.log with
      ckpts := SMap.put s.log.ckpts (s.log.ckptCount % 256) (Config.sm2Sign (leBytes 64 head.toNat) ++ head),
      ckptCount := s.log.ckptCount + 1, counter := s.log.counter + 1, stored := some (n, s.log.chain), limit := n + 8192 } }
    let u := t.report { cls := 5, unit := 12, cause := 0x50, detail := BitVec.ofNat 64 (s.log.ckptCount % 256) }
    (s.log.records.head?.map recordSeq = some n → 7 ≤ s.dev.stage.toNat → s.dev.failure = 0 →
      exec .ckptcmdCheckpoint s = .next u ∧ (ckptDue s = true → exec .checkpoint s = .next u)) ∧
    (s.log.records.head?.map recordSeq ≠ some n ∨ s.dev.stage.toNat < 7 ∨ s.dev.failure ≠ 0 → exec .ckptcmdCheckpoint s = .next s) ∧
    (ckptDue s = false → exec .checkpoint s = .next s)) ∧
  (∀ s : State,
    let q := BitVec.ofNat 2048 (leNat (quoteHead s ++ leBytes 64 (Config.sm2Sign (quoteHead s)).toNat))
    (s.dev.attBusy = false → exec .attcmdQuote s = .next (s.setDev { s.dev with attBusy := true })) ∧
    (s.dev.attBusy = true → exec .attcmdQuote s = .next (s.setDev { s.dev with attBusy := false, quote := q })))

/-- R257 to R259, R400: a bias flip of a present, unsplit device page that is not moving starts, and ends with the page's bias
changed; a page move to a frame that can hold it starts, copies its lines in order, byte for byte, shows with the last one that
they are all copied, and ends with the leaf at the new frame and bound mailboxes there; what a flip or a move is refused for is
its error code, and vector 67 says so (log entry 88).

R395 to R397, R403, R387, R388: a host access through BAR2 reads or writes device memory at HWIN, with Jibueg after a recall of
its lines, and an unbacked or reserved address is none; past the window's end nothing is accessed. A snoop recalls its line while
Jibueg is up; a power cap and an assayer setting are stored and measured, the cap being reported at each write (log entry 88), and
ones clear cause bits.

R8, R72, R81, R226, R257, R364, R393, R396: a register write at an offset that is no multiple of 8 changes nothing, and one at
a read-only register changes nothing; a write of a register with RW fields alone stores them, and one of LOGACK that leaves the
log crowded raises vector 65.

Where the spec leaves a point of this open the statement is of the model: log entries 36, 37, 38, 73 and 88.

Completes, on the conditions stated here on the state and the operands alone: BIAS_FLIP_START, BIAS_FLIP_COMPLETE, MIGRATION_START, MIGRATION_LINE_COPY, MIGRATION_COMPLETE, HOST_BAR2_ACCESS, JIBUEG_HOST_SNOOP, JIBUEG_NEGOTIATION, PWRCAP_WRITE, ASSAYCTL_WRITE, IRQCAUSE_CLEAR and REGISTER_WRITE. -/
def Obligations.HostActs : Prop :=
  ((∀ (s : State) (v : Word), s.fab.flip = none → v.getLsbD 0 = true →
     let ctx := s.dev.biasPg.extractLsb' 48 16
     let page := (s.dev.biasPg.extractLsb' 0 40).toNat
     let s' := s.setDev { s.dev with biasTarget := v.getLsbD 1 }
     (flipError s' ctx page = 0 → exec (.biasFlipStart v) s = .next (s'.setFab { s.fab with flip := some (ctx, page, v.getLsbD 1) })) ∧
     (∀ n, flipError s' ctx page = n + 1 → exec (.biasFlipStart v) s = .next ((s'.setFab { s.fab with flip := none }).setDev
       (raiseCause { s'.dev with biasErr := true, biasCode := BitVec.ofNat 4 (n + 1) } 3)))) ∧
   (∀ (s : State) (ctx : BitVec 16) (page slot : Nat) (host : Bool) (leaf : Word), s.fab.flip = some (ctx, page, host) →
     walkTables s ctx (page * 65536) = .found leaf 0 → pageSlot s ctx page = some slot →
     (Leaf.hostBias leaf = host → exec .biasFlipComplete s = .next (flipDone s false 0)) ∧
     (Leaf.hostBias leaf = false → host = true →
       (recallWaits s (pageLines leaf) = true → exec .biasFlipComplete s = .next s) ∧
       (recallWaits s (pageLines leaf) = false → exec .biasFlipComplete s = .next (flipDone
         (changeLeaf (hbmWritten (dropWaybills (recallLines s (pageLines leaf)) (pageLines leaf)) true (pageLines leaf)) slot (leaf ||| BitVec.ofNat 64 (2 ^ 57)) ctx page) false 0))) ∧
     (Leaf.hostBias leaf = true → host = false → .hostPort ∉ s.dev.lost →
       (s.dev.jibueg = true → s.dev.hostUp = true → exec .biasFlipComplete s =
         .next (flipDone (changeLeaf s slot (leaf &&& ~~~(BitVec.ofNat 64 (2 ^ 57))) ctx page) false 0)) ∧
       (s.dev.jibueg = false ∨ s.dev.hostUp = false → exec .biasFlipComplete s = .next (flipDone s true 0)))) ∧
   (∀ (s : State) (v : Word), s.fab.move = none → v.getLsbD 0 = true →
     let ctx := s.dev.migPg.extractLsb' 48 16
     let page := (s.dev.migPg.extractLsb' 0 40).toNat
     (∀ leaf slot, moveError s ctx page = 0 → walkTables s ctx (page * 65536) = .found leaf 0 → pageSlot s ctx page = some slot →
       exec (.migrationStart v) s = .next (((writePhys s slot 8 (withMigration leaf 1).toNat).setFab
         { (writePhys s slot 8 (withMigration leaf 1).toNat).fab with move := some (ctx, page, leaf, movedLeaf leaf s.dev.migDst, 0) }).setDev
           { (writePhys s slot 8 (withMigration leaf 1).toNat).dev with migErr := false, migCode := 0 })) ∧
     (∀ n, moveError s ctx page = n + 1 → exec (.migrationStart v) s =
       .next (s.setDev (raiseCause { s.dev with migErr := true, migCode := BitVec.ofNat 4 (n + 1) } 3)))) ∧
   (∀ (s : State) (ctx : BitVec 16) (page n : Nat) (old new : Word), s.fab.move = some (ctx, page, old, new, n) →
     (let a := Leaf.phys old 0 (page * 65536 + 128 * n)
      let b := Leaf.phys new 0 (page * 65536 + 128 * n)
      let u := dropWaybills (recallLines s [a / 128, b / 128]) [a / 128, b / 128]
      let v := writeHome u 48 true ((Memory.bytes u.mem a 128).zipIdx.map fun x => (b + x.2, x.1, (0xFF : Byte)))
      n < 512 → recallWaits s [a / 128, b / 128] = false → ∃ t, exec .migrationLineCopy s = .next t ∧
        t.fab.move = some (ctx, page, old, new, n + 1) ∧
        (n < 511 → t.mem = v.mem) ∧
        (n = 511 → ∀ slot, pageSlot v ctx page = some slot → t.mem = (writePhys v slot 8 (withMigration (leafAt v slot) 2).toNat).mem) ∧
        ((∀ i < 128, forwarded u.fab (b + i) = b + i) →
          (∀ i < 128, Memory.get v.mem (b + i) = Memory.get u.mem (a + i)) ∧
          ∀ p, (∀ i < 128, p ≠ b + i) → Memory.get v.mem p = Memory.get u.mem p)) ∧
     (512 ≤ n → (∀ e ∈ s.ops, ∀ r ∈ e.2.reqs, ∀ b ∈ r.bytes, inRanges (pageRanges old) b.2 = false) →
       recallWaits s (pageLines old) = false →
       let u := recallLines s (pageLines old)
       let v : State := { u with boxes := u.boxes.map fun (e : Nat × Mailbox) => (e.1, { e.2 with phys := forwarded u.fab e.2.phys }) }
       ∀ slot, pageSlot v ctx page = some slot →
         let w := changeLeaf v slot (withMigration (withFrame (leafAt v slot) new) 0) ctx page
         exec .migrationComplete s = .next ((w.setFab { w.fab with move := none }).setDev (raiseCause w.dev 3)) ∧
         (raiseCause w.dev 3).irqcause.getLsbD 3 = true) ∧
     (n < 512 ∨ (∃ e ∈ s.ops, ∃ r ∈ e.2.reqs, ∃ b ∈ r.bytes, inRanges (pageRanges old) b.2 = true) ∨ recallWaits s (pageLines old) = true →
       exec .migrationComplete s = .next s))) ∧
  ((∀ (s : State) (off size : Nat) (v : Word),
     let locs := (List.range size).map fun i => s.dev.hwin.toNat * 65536 + off + i
     (off + size ≤ 2 ^ 36 → (∀ p ∈ locs, isBacked p = true ∧ isReserved p = false) →
       (hostWaits s (.hostBar2Access off size none) = false →
         let got := readLocs (hostRecall s locs) 48 0 locs
         exec (.hostBar2Access off size none) s = .next (got.2.setDev { got.2.dev with bar2 := got.1 })) ∧
       (∀ d, hostWaits s (.hostBar2Access off size d) = true → exec (.hostBar2Access off size d) s = .next s) ∧
       (hostWaits s (.hostBar2Access off size (some v)) = false → exec (.hostBar2Access off size (some v)) s =
         .next (writeHome (hostRecall (copyFor s locs) locs) 48 false
           ((locs.zip (leBytes size v.toNat)).map fun (a, b) => (a, b, (0xFF : Byte)))))) ∧
     (s.dev.jibueg = false → hostRecall s locs = s) ∧
     (s.dev.jibueg = true → hostRecall s locs = recallLines s (locs.map (· / 128)).dedup) ∧
     (off + size ≤ 2 ^ 36 → (∃ p ∈ locs, isBacked p = false ∨ isReserved p = true) →
       ∀ d, exec (.hostBar2Access off size d) s = .fault .unbackedAddress) ∧
     (2 ^ 36 < off + size → ∀ d, exec (.hostBar2Access off size d) s = .next s)) ∧
   (∀ (s : State) (line : Nat) (up : Bool),
     (s.dev.hostUp = true → exec (.jibuegNegotiation up) s = .next (s.setDev { s.dev with jibueg := up })) ∧
     (s.dev.hostUp = false → exec (.jibuegNegotiation up) s = .next s) ∧
     (s.dev.jibueg = true → s.dev.hostUp = true → recallWaits s [line] = false →
       exec (.jibuegHostSnoop line) s = .next (forgetCopies (recallLines s [line]) line)) ∧
     (s.dev.jibueg = false ∨ s.dev.hostUp = false ∨ recallWaits s [line] = true → exec (.jibuegHostSnoop line) s = .next s)) ∧
   (∀ (s : State) (r : Fin 48) (v : Word),
     let cap : BitVec 16 := v.extractLsb' 0 16
     let r' : Report := { cls := 4, unit := 13, cause := 0x42, place := BitVec.ofNat 12 (64 * r.val), detail := cap.zeroExtend 64 }
     (∃ t, exec (.pwrcapWrite r v) s = .next t ∧ SMap.get 500 t.dev.pwrcap r.val = cap ∧
       t.log.reports = s.log.reports ++ [r']) ∧
     (16 < (v.extractLsb' 0 5).toNat → exec (.assayctlWrite v) s = .next s) ∧
     ((v.extractLsb' 0 5).toNat ≤ 16 → ∃ t, exec (.assayctlWrite v) s = .next t ∧ t.dev.assayEnable = v.getLsbD 7 ∧
       t.dev.assayK = v.extractLsb' 0 5 ∧ t = { s with dev := { s.dev with
         assayEnable := v.getLsbD 7, assayK := v.extractLsb' 0 5, config := t.dev.config } }) ∧
     exec (.irqcauseClear v) s = .next (s.setDev { s.dev with irqcause := s.dev.irqcause &&& ~~~(v.extractLsb' 0 4) }))) ∧
  (∀ (s : State) (off : Nat) (v : Word),
     (off % 8 ≠ 0 → exec (.registerWrite off v) s = .next s) ∧
     (off ∈ [0x30400, 0x30408, 0x30420, 0x30800, 0x30808, 0x30820] ∨ 0x30440 ≤ off ∧ off < 0x30500 →
       exec (.registerWrite off v) s = .next s) ∧
     exec (.registerWrite 0x30000 v) s = .next (s.setDev { s.dev with ctxtab := v }) ∧
     exec (.registerWrite 0x30100 v) s = .next (s.setDev { s.dev with biasPg := v &&& 0xFFFF00FFFFFFFFFF }) ∧
     exec (.registerWrite 0x30110 v) s = .next (s.setDev { s.dev with retctl := v.extractLsb' 0 32 }) ∧
     (logCrowded s.log v.toNat = false → exec (.registerWrite 0x30418 v) s = .next (s.setDev { s.dev with logAck := v })) ∧
     (logCrowded s.log v.toNat = true → exec (.registerWrite 0x30418 v) s = .next (s.setDev (raiseCause { s.dev with logAck := v } 1))) ∧
     exec (.registerWrite 0x30500 v) s = .next (s.setDev { s.dev with irqen := v }) ∧
     exec (.registerWrite 0x30818 v) s = .next (s.setDev { s.dev with hwin := v.extractLsb' 0 36 }) ∧
     (∀ q : Fin 64, (s.queue q.val).enable = false →
       exec (.registerWrite (0x10000 + 64 * q.val) v) s = .next (s.setQueue q.val { s.queue q.val with base := v })) ∧
     (∀ q : Fin 64, exec (.registerWrite (0x10000 + 64 * q.val + 0x10) v) s = exec (.qtailWrite q (v.extractLsb' 0 32)) s) ∧
     (∀ n : Fin 256, exec (.registerWrite (0x20000 + 16 * n.val + 8) v) s = .next ((if (s.warmSlot n.val).ctx = v.extractLsb' 48 16 then s
       else coldBoxes s (s.warmSlot n.val).region).setWarm n.val { s.warmSlot n.val with
       ctx := v.extractLsb' 48 16, cols := v.extractLsb' 42 6, rows := v.extractLsb' 36 6, origin := v.extractLsb' 24 12 })))

/-- R79, R80, R402, R404, R415: power brings the device up once; its loss leaves only the store that keeps the log and the
sequences; a device reset keeps home memory, where no engine works and no roll-back restores a page, and brings the device up
again, whose stage 8 settles what was in flight: a launch without replay protection that ran ends, a protected one is replayed,
and one that has run nothing stays as it was. A thermal shutdown is a loss of power.

R80, R415: a lost part is reported, shown in DEVSTAT's cause and marked; a lost link is down, a lost stack reads as poisoned,
a lost reticle keeps no team, a lost host port is down with Jibueg until it returns and trains anew, whether with Jibueg being
its own matter. A part is lost once.

Where the spec leaves a point of this open the statement is of the model: log entries 10, 17, 18, 20, 21, 22, 93 and 94.

Completes, on the conditions stated here on the state and the operands alone: DEVRST_RESET, POWER_ON, POWER_LOSS, PART_LOST, HOST_PORT_RETURN, THERMAL_THROTTLE and THERMAL_SHUTDOWN. -/
def Obligations.PowerCycles : Prop :=
  (∀ s : State,
     (s.dev.powered = false → ∃ t, exec .powerOn s = .next t ∧ t.dev.powered = true ∧ t.teams = s.teams ∧
       (s.fab.flip = none → s.fab.move = none → t.mem = s.mem)) ∧
     (s.dev.powered = true → exec .powerOn s = .next s ∧
       (∀ i ∈ [Instr.powerLoss, .thermalShutdown], ∃ t, exec i s = .next t ∧ t.dev.powered = false ∧ t.mem = [] ∧ t.groups = [] ∧
         t.teams = [] ∧ t.launches = [] ∧ t.queues = [] ∧ t.dev.devrseq = s.dev.devrseq ∧ t.log.stored = s.log.stored ∧
         t.log.counter = s.log.counter ∧ t.log.records = [] ∧ t.log.chain = (s.log.stored.map (·.2)).getD 0) ∧
       (∃ t, exec .devrstReset s = .next t ∧ t.dev.powered = true ∧ t.boxes = [] ∧ t.flits = [] ∧ t.fab.l1 = [] ∧
         (.hostPort ∈ t.dev.lost → t.dev.jibueg = false) ∧
         (EnginesIdle s → s.fab.flip = none → s.fab.move = none → (∀ e ∈ s.launches, e.2.prot = false) → t.mem = s.mem) ∧
         (∀ lid l, s.launches = [(lid, l)] → (∀ a b, l.origin ≠ .child a b) → l.children = [] → t.dev.stage = 9 →
           (∀ e ∈ t.teams, e.2.launch ≠ lid) ∧ (∀ e ∈ t.saved, e.2.team.launch ≠ lid) ∧ ∃ x, t.launch? lid = some x ∧
             x.record = l.record ∧ x.rollback = false ∧
             (l.ran = false → x.status = l.status) ∧
             (l.ran = true → l.prot = false ∨ l.status ≠ none → x.status = l.status.or (some 0x07)) ∧
             (l.ran = true → l.prot = true → l.status = none → l.replays < 2 → x.status = none ∧ x.replays = l.replays + 1) ∧
             (l.ran = true → l.prot = true → l.status = none → 2 ≤ l.replays → x.status = some 0x0C)))) ∧
     (∀ r : Fin 48, (r ∉ s.dev.throttled → exec (.thermalThrottle r) s = .next (s.setDev { s.dev with throttled := r :: s.dev.throttled })) ∧
       (r ∈ s.dev.throttled → exec (.thermalThrottle r) s = .next s))) ∧
  (∀ (s : State) (p : Part),
     (s.dev.powered = true → p ∉ s.dev.lost → ∃ t, exec (.partLost p) s = .next t ∧ p ∈ t.dev.lost ∧ t.dev.irqcause.getLsbD 2 = true ∧
       (∀ n, p = .link n → SMap.get .down t.dev.links n.val = .down) ∧
       (∀ n, p = .stack n → t.fab.gone.head? = some (n, BitVec.ofNat 12 (s.log.next + s.log.reports.length))) ∧
       (∀ n, p = .reticle n → ∀ e ∈ t.teams, e.2.place / 64 ≠ n.val) ∧
       (p = .hostPort → t.dev.hostUp = false ∧ t.dev.jibueg = false)) ∧
     (p ∈ s.dev.lost → exec (.partLost p) s = .next s) ∧
     (.hostPort ∈ s.dev.lost → .hostPort ∉ s.dev.lost.erase .hostPort → exec .hostPortReturn s = .next (s.freeBit.2.setDev
       { s.dev with lost := s.dev.lost.erase .hostPort, hostUp := true, jibueg := s.freeBit.1 })) ∧
     (.hostPort ∉ s.dev.lost → exec .hostPortReturn s = .next s))
end

