-- ==== Sys2Proof/Laws/Map.lean ====
section
/-! SUPPORT. Sparse maps and memory: a read after a write, and the canonical form kept by every operation. -/
namespace Sys2Proof.Machine

namespace SMap

variable {α : Type}

/-! ## Object tables -/

@[simp] theorem entry?_put_self (m : SMap α) (k : Nat) (v : α) : entry? (put m k v) k = some v := by
  induction m with
  | nil => simp [put, entry?]
  | cons e m ih => simp only [put]; split <;> [skip; split] <;> simp_all [entry?]

theorem entry?_put_other (m : SMap α) {k j : Nat} (v : α) (hj : j ≠ k) : entry? (put m k v) j = entry? m j := by
  induction m with
  | nil => simp [put, entry?, hj]
  | cons e m ih => simp only [put]; split <;> [skip; split] <;> simp_all [entry?]

@[simp] theorem entry?_del_self (m : SMap α) (k : Nat) : entry? (del m k) k = none := by
  induction m with
  | nil => rfl
  | cons e m ih => simp only [del]; split <;> simp_all [entry?]

theorem entry?_del_other (m : SMap α) {k j : Nat} (hj : j ≠ k) : entry? (del m k) j = entry? m j := by
  induction m with
  | nil => rfl
  | cons e m ih => simp only [del]; split <;> simp_all [entry?]

/-! ## Maps with a default -/

@[simp] theorem get_put_self (d : α) (m : SMap α) (k : Nat) (v : α) : get d (put m k v) k = v := by
  induction m with
  | nil => simp [put, get]
  | cons e m ih => simp only [put]; split <;> [skip; split] <;> simp_all [get]

theorem get_put_other (d : α) (m : SMap α) {k j : Nat} (v : α) (hj : j ≠ k) : get d (put m k v) j = get d m j := by
  induction m with
  | nil => simp [put, get, hj]
  | cons e m ih => simp only [put]; split <;> [skip; split] <;> simp_all [get]

@[simp] theorem get_del_self (d : α) (m : SMap α) (k : Nat) : get d (del m k) k = d := by
  induction m with
  | nil => rfl
  | cons e m ih => simp only [del]; split <;> simp_all [get]

theorem get_del_other (d : α) (m : SMap α) {k j : Nat} (hj : j ≠ k) : get d (del m k) j = get d m j := by
  induction m with
  | nil => rfl
  | cons e m ih => simp only [del]; split <;> simp_all [get]

/-- A read of the key just written. -/
@[simp] theorem get_set_self [DecidableEq α] (d : α) (m : SMap α) (k : Nat) (v : α) : get d (set d m k v) k = v := by
  unfold set; split <;> simp_all

/-- A write leaves every other key alone. -/
theorem get_set_other [DecidableEq α] (d : α) (m : SMap α) {k j : Nat} (v : α) (hj : j ≠ k) :
    get d (set d m k v) j = get d m j := by
  unfold set
  split
  · exact get_del_other d m hj
  · exact get_put_other d m v hj

/-! ## The canonical form -/

theorem rising_mono {lo lo' : Nat} {m : SMap α} (h : rising lo m = true) (hl : lo' ≤ lo) : rising lo' m = true := by
  cases m with
  | nil => rfl
  | cons e m =>
    obtain ⟨a, x⟩ := e
    simp only [rising, Bool.and_eq_true, decide_eq_true_eq] at h ⊢
    exact ⟨by omega, h.2⟩

theorem rising_put {lo : Nat} {m : SMap α} (h : rising lo m = true) {k : Nat} (v : α) (hk : lo ≤ k) :
    rising lo (put m k v) = true := by
  induction m generalizing lo with
  | nil => simp [put, rising, hk]
  | cons e m ih =>
    obtain ⟨a, x⟩ := e
    simp only [rising, Bool.and_eq_true, decide_eq_true_eq] at h
    simp only [put]
    split
    · simp [rising, hk, h.2]; omega
    · split
      · subst_vars; simp [rising, hk, h.2]
      · simp only [rising, Bool.and_eq_true, decide_eq_true_eq]
        exact ⟨h.1, ih h.2 (by omega)⟩

theorem rising_del {lo : Nat} {m : SMap α} (h : rising lo m = true) (k : Nat) : rising lo (del m k) = true := by
  induction m generalizing lo with
  | nil => rfl
  | cons e m ih =>
    obtain ⟨a, x⟩ := e
    simp only [rising, Bool.and_eq_true, decide_eq_true_eq] at h
    simp only [del]
    split
    · exact rising_mono (ih h.2) (by omega)
    · simp only [rising, Bool.and_eq_true, decide_eq_true_eq]
      exact ⟨h.1, ih h.2⟩

/-- The canonical form without its default. -/
theorem wf_rising [DecidableEq α] {d : α} {m : SMap α} (h : wf d m = true) : rising 0 m = true := by
  simp only [wf, Bool.and_eq_true] at h; exact h.1

theorem mem_put {m : SMap α} {k : Nat} {v : α} {e : Nat × α} (h : e ∈ put m k v) : e = (k, v) ∨ e ∈ m := by
  induction m with
  | nil => simpa [put] using h
  | cons x m ih =>
    obtain ⟨a, y⟩ := x
    simp only [put] at h
    split at h
    · simpa using h
    · split at h
      · simp only [List.mem_cons] at h ⊢; tauto
      · simp only [List.mem_cons] at h ⊢
        rcases h with h | h
        · exact .inr (.inl h)
        · rcases ih h with h | h
          · exact .inl h
          · exact .inr (.inr h)

theorem mem_of_entry? {m : SMap α} {k : Nat} {v : α} (h : entry? m k = some v) : (k, v) ∈ m := by
  induction m with
  | nil => exact absurd h (by simp [entry?])
  | cons a m ih =>
    unfold entry? at h
    split at h
    · rename_i hk
      cases h
      subst hk
      exact List.mem_cons_self
    · exact List.mem_cons_of_mem _ (ih h)

theorem mem_del {m : SMap α} {k : Nat} {e : Nat × α} (h : e ∈ del m k) : e ∈ m := by
  induction m with
  | nil => exact h
  | cons x m ih =>
    simp only [del] at h
    split at h
    · exact List.mem_cons_of_mem _ (ih h)
    · simp only [List.mem_cons] at h ⊢
      exact h.imp id ih

/-- A write keeps the canonical form. -/
theorem wf_set [DecidableEq α] {d : α} {m : SMap α} (h : wf d m = true) (k : Nat) (v : α) : wf d (set d m k v) = true := by
  have hr := wf_rising h
  simp only [wf, Bool.and_eq_true, List.all_eq_true, bne_iff_ne] at h ⊢
  unfold set
  split
  · exact ⟨rising_del hr k, fun e he => h.2 e (mem_del he)⟩
  · refine ⟨rising_put hr v (Nat.zero_le _), fun e he => ?_⟩
    rcases mem_put he with rfl | he
    · assumption
    · exact h.2 e he

/-- A canonical map without some entries is canonical. -/
theorem rising_filter {lo : Nat} {m : SMap α} (h : rising lo m = true) (p : Nat × α → Bool) : rising lo (m.filter p) = true := by
  induction m generalizing lo with
  | nil => rfl
  | cons e m ih =>
    obtain ⟨a, x⟩ := e
    simp only [rising, Bool.and_eq_true, decide_eq_true_eq] at h
    simp only [List.filter_cons]
    split
    · simp only [rising, Bool.and_eq_true, decide_eq_true_eq]; exact ⟨h.1, ih h.2⟩
    · exact rising_mono (ih h.2) (by omega)

theorem wf_filter [DecidableEq α] {d : α} {m : SMap α} (h : wf d m = true) (p : Nat × α → Bool) : wf d (m.filter p) = true := by
  simp only [wf, Bool.and_eq_true, List.all_eq_true, bne_iff_ne] at h ⊢
  exact ⟨rising_filter h.1 p, fun e he => h.2 e (List.mem_of_mem_filter he)⟩

end SMap

/-! ## Memory -/

/-- The byte just written reads back. -/
@[simp] theorem Memory.get_set_self (m : List Host.Cell) (a : Nat) (v : Byte) : Memory.get (Memory.set m a v) a = v :=
  SMap.get_set_self Memory.blank m a v

/-- Every other byte stays. -/
theorem Memory.get_set_other (m : List Host.Cell) {a b : Nat} (v : Byte) (hb : b ≠ a) :
    Memory.get (Memory.set m a v) b = Memory.get m b := SMap.get_set_other Memory.blank m v hb

/-- Memory operations keep the canonical form. -/
theorem Memory.wf_set {m : List Host.Cell} (h : Memory.wf m = true) (a : Nat) (v : Byte) : Memory.wf (Memory.set m a v) = true :=
  SMap.wf_set h a v

theorem Memory.wf_setBytes {m : List Host.Cell} (h : Memory.wf m = true) (a : Nat) (bs : List Byte) :
    Memory.wf (Memory.setBytes m a bs) = true := by
  induction bs generalizing m a with
  | nil => exact h
  | cons b bs ih => exact ih (Memory.wf_set h a b) (a + 1)

theorem Memory.wf_filter {m : List Host.Cell} (h : Memory.wf m = true) (p : Host.Cell → Bool) : Memory.wf (m.filter p) = true :=
  SMap.wf_filter h p

end Sys2Proof.Machine
end

