-- ==== Sys2Proof/Laws/Memory.lean ====
section
/-! SUPPORT. Every operation that writes memory keeps its canonical form; what a write at home leaves as it was. -/
namespace Sys2Proof.Machine

/-! ## What leaves memory alone -/

@[simp] theorem setWaybill_mem (s : State) (n : Nat) (w : Waybill) : (setWaybill s n w).mem = s.mem := rfl

@[simp] theorem judge_mem (s : State) (line : Nat) (old new : List Byte) : (judge s line old new).mem = s.mem := by
  unfold judge
  split
  · rfl
  · split <;> rfl

theorem judge_foldl_mem (bs : List (Nat × List Byte)) (s : State) :
    (bs.foldl (fun s (e : Nat × List Byte) => judge s e.1 e.2 (Memory.bytes s.mem (128 * e.1) 128)) s).mem = s.mem := by
  induction bs generalizing s with
  | nil => rfl
  | cons b bs ih => simp [List.foldl, ih]

@[simp] theorem settleEverywhere_mem (s : State) (locs : List Nat) : (settleEverywhere s locs).mem = s.mem := rfl
@[simp] theorem settleSeen_mem (s : State) (t : Nat) : (settleSeen s t).mem = s.mem := rfl
@[simp] theorem setGroup_mem (s : State) (k : Nat) (g : Group) : (s.setGroup k g).mem = s.mem := rfl
@[simp] theorem modGroup_mem (s : State) (k : Nat) (f : Group → Group) : (s.modGroup k f).mem = s.mem := rfl
@[simp] theorem setFab_mem (s : State) (f : Fabric) : (s.setFab f).mem = s.mem := rfl
@[simp] theorem setDev_mem (s : State) (d : Device) : (s.setDev d).mem = s.mem := rfl

/-! ## Writes at home -/

/-- One write of some bits of some bytes, in order. -/
def written (m : List Host.Cell) (ws : List (Nat × Byte × Byte)) : List Host.Cell :=
  ws.foldl (fun m (x : Nat × Byte × Byte) => Memory.set m x.1 ((Memory.get m x.1 &&& ~~~x.2.2) ||| (x.2.1 &&& x.2.2))) m

theorem writeHomeBy_mem (s : State) (t : Nat) (all : Bool) (wait : List Nat) (group : Nat) (ws : List (Nat × Byte × Byte)) :
    (writeHomeBy s t all wait group ws).mem = written s.mem (ws.map fun x => (forwarded s.fab x.1, x.2.1, x.2.2)) := by
  unfold writeHomeBy
  rw [judge_foldl_mem]
  rfl

theorem wf_written {m : List Host.Cell} (h : Memory.wf m = true) (ws : List (Nat × Byte × Byte)) : Memory.wf (written m ws) = true := by
  induction ws generalizing m with
  | nil => exact h
  | cons w ws ih => exact ih (Memory.wf_set h _ _)

theorem get_written_other {m : List Host.Cell} {ws : List (Nat × Byte × Byte)} {a : Nat} (h : ∀ x ∈ ws, x.1 ≠ a) :
    Memory.get (written m ws) a = Memory.get m a := by
  induction ws generalizing m with
  | nil => rfl
  | cons w ws ih =>
    refine (ih (fun x hx => h x (List.mem_cons_of_mem _ hx))).trans ?_
    exact Memory.get_set_other _ _ (Ne.symm (h w List.mem_cons_self))

theorem writeHomeBy_canonical {s : State} (h : s.MemCanonical) (t : Nat) (all : Bool) (wait : List Nat) (group : Nat)
    (ws : List (Nat × Byte × Byte)) : (writeHomeBy s t all wait group ws).MemCanonical := by
  unfold State.MemCanonical
  rw [writeHomeBy_mem]
  exact wf_written h _

theorem writeHome_canonical {s : State} (h : s.MemCanonical) (t : Nat) (all : Bool) (ws : List (Nat × Byte × Byte)) :
    (writeHome s t all ws).MemCanonical :=
  writeHomeBy_canonical h _ _ _ _ _

theorem writePhys_canonical {s : State} (h : s.MemCanonical) (a n v : Nat) : (writePhys s a n v).MemCanonical :=
  writeHome_canonical h _ _ _

@[simp] theorem countDrover_mem (s : State) (core line : Nat) (ctx : BitVec 16) (page : Nat) (req : Req) (h : Hint) :
    (countDrover s core line ctx page req h).mem = s.mem := by
  unfold countDrover
  dsimp only
  split <;> rfl

/-- A fold of steps that leave memory alone leaves it alone. -/
theorem foldl_mem {α : Type} {f : State → α → State} (hf : ∀ s a, (f s a).mem = s.mem) (l : List α) (s : State) :
    (l.foldl f s).mem = s.mem := by
  induction l generalizing s with
  | nil => rfl
  | cons a l ih => exact (ih _).trans (hf s a)

/-- A fold of steps that keep the canonical form keeps it. -/
theorem foldl_canonical {α : Type} {f : State → α → State} (hf : ∀ s a, s.MemCanonical → (f s a).MemCanonical) (l : List α)
    {s : State} (h : s.MemCanonical) : (l.foldl f s).MemCanonical := by
  induction l generalizing s with
  | nil => exact h
  | cons a l ih => exact ih (hf s a h)

/-! ## Write-backs -/

theorem sendHome_canonical {s : State} (h : s.MemCanonical) (core : Nat) (all : Bool) (ws : List (Nat × Byte × Byte)) :
    (sendHome s core all ws).MemCanonical := by
  unfold sendHome
  split
  · exact h
  · refine writeHome_canonical (s := _) ?_ _ _ _
    unfold State.MemCanonical
    rw [foldl_mem]
    · exact h
    · intro s n
      split
      · exact countDrover_mem _ _ _ _ _ _ _
      · rfl

theorem settleWeak_canonical {s : State} (h : s.MemCanonical) (core k : Nat) : (settleWeak s core k).MemCanonical := by
  unfold settleWeak
  dsimp only
  split
  · exact h
  · exact sendHome_canonical (sendHome_canonical h _ _ _) _ _ _

theorem writeBackLines_canonical {s : State} (h : s.MemCanonical) (core : Nat) (lines : List Nat) :
    (writeBackLines s core lines).MemCanonical := by
  unfold writeBackLines
  dsimp only
  split
  · exact h
  · exact sendHome_canonical (settleWeak_canonical h _ _) _ _ _

theorem recallDirty_canonical {s : State} (h : s.MemCanonical) (lines : List Nat) : (recallDirty s lines).MemCanonical :=
  foldl_canonical (fun _ _ h => writeBackLines_canonical h _ _) _ h

theorem writeBack_canonical {s : State} (h : s.MemCanonical) (core : Nat) : (writeBack s core).MemCanonical :=
  sendHome_canonical (settleWeak_canonical h _ _) _ _ _

theorem dropLines_canonical {s : State} (h : s.MemCanonical) (core : Nat) : (dropLines s core).MemCanonical := by
  unfold dropLines
  split
  · exact writeBack_canonical (s := s) h core
  · exact h

theorem releaseAt_canonical {s : State} (h : s.MemCanonical) (core : Nat) (sc : Scope) : (releaseAt s core sc).MemCanonical := by
  unfold releaseAt
  split <;> split <;> first | exact writeBack_canonical h core | exact h

theorem acquireAt_canonical {s : State} (h : s.MemCanonical) (gid core : Nat) (sc : Scope) : (acquireAt s gid core sc).MemCanonical := by
  unfold acquireAt
  split
  · exact dropLines_canonical h core
  · exact h

/-! ## Pages -/

theorem zeroPage_canonical {s : State} (h : s.MemCanonical) (leaf : Word) : (zeroPage s leaf).MemCanonical := by
  unfold State.MemCanonical zeroPage
  rw [judge_foldl_mem]
  exact Memory.wf_filter h _

theorem putPage_canonical {s : State} (h : s.MemCanonical) (ctx : BitVec 16) (page : Nat) (parts : List (Nat × Nat))
    (bytes : List (Nat × Byte)) (tags : List (Nat × BitVec 12)) : (putPage s ctx page parts bytes tags).MemCanonical := by
  unfold State.MemCanonical putPage
  show Memory.wf (bytes.foldl _ (s.mem.filter _)) = true
  generalize hm : s.mem.filter _ = m
  have hw : Memory.wf m = true := hm ▸ Memory.wf_filter h _
  clear hm
  induction bytes generalizing m with
  | nil => exact hw
  | cons b bs ih => exact ih _ (Memory.wf_set hw _ _)

end Sys2Proof.Machine
end

