-- ==== Sys2Proof/Laws/Frame.lean ====
section
/-! SUPPORT. What the operations of the caches leave alone: they change memory and the wafer cache, and nothing else of the
state. -/
namespace Sys2Proof.Machine

/-- Two states that differ in memory and the wafer cache alone. -/
def State.SameButStore (s t : State) : Prop := { t with mem := s.mem, fab := s.fab } = s

namespace State.SameButStore

variable {s t u : State}

theorem rfl' (s : State) : s.SameButStore s := rfl

theorem eq (h : s.SameButStore t) : { t with mem := s.mem, fab := s.fab } = s := h

theorem trans (h : s.SameButStore t) (h' : t.SameButStore u) : s.SameButStore u :=
  ((congrArg (fun x : State => { x with mem := s.mem, fab := s.fab }) h'.eq :) : _ = { t with mem := s.mem, fab := s.fab }).trans h.eq

theorem setFab (s : State) (f : Fabric) : s.SameButStore (s.setFab f) := rfl

theorem then_setFab (h : s.SameButStore t) (f : Fabric) : s.SameButStore (t.setFab f) := h.trans (setFab t f)

theorem foldl {α : Type} {f : State → α → State} (hf : ∀ (s : State) (a : α), s.SameButStore (f s a)) (l : List α) (s : State) :
    s.SameButStore (l.foldl f s) := by
  induction l generalizing s with
  | nil => exact rfl' s
  | cons a l ih => exact (hf s a).trans (ih _)

theorem teams (h : s.SameButStore t) : t.teams = s.teams := (congrArg State.teams h.eq :)
theorem groups (h : s.SameButStore t) : t.groups = s.groups := (congrArg State.groups h.eq :)
theorem launches (h : s.SameButStore t) : t.launches = s.launches := (congrArg State.launches h.eq :)
theorem ops (h : s.SameButStore t) : t.ops = s.ops := (congrArg State.ops h.eq :)
theorem saved (h : s.SameButStore t) : t.saved = s.saved := (congrArg State.saved h.eq :)
theorem convoys (h : s.SameButStore t) : t.convoys = s.convoys := (congrArg State.convoys h.eq :)
theorem queues (h : s.SameButStore t) : t.queues = s.queues := (congrArg State.queues h.eq :)
theorem regions (h : s.SameButStore t) : t.regions = s.regions := (congrArg State.regions h.eq :)
theorem boxes (h : s.SameButStore t) : t.boxes = s.boxes := (congrArg State.boxes h.eq :)
theorem snaps (h : s.SameButStore t) : t.snaps = s.snaps := (congrArg State.snaps h.eq :)
theorem firstTouch (h : s.SameButStore t) : t.firstTouch = s.firstTouch := (congrArg State.firstTouch h.eq :)
theorem porter (h : s.SameButStore t) : t.porter = s.porter := (congrArg State.porter h.eq :)
theorem dev (h : s.SameButStore t) : t.dev = s.dev := (congrArg State.dev h.eq :)
theorem log (h : s.SameButStore t) : t.log = s.log := (congrArg State.log h.eq :)
theorem tick (h : s.SameButStore t) : t.tick = s.tick := (congrArg State.tick h.eq :)
theorem nextId (h : s.SameButStore t) : t.nextId = s.nextId := (congrArg State.nextId h.eq :)

end State.SameButStore

/-! ## The operations -/

theorem judge_sameButStore (s : State) (line : Nat) (old new : List Byte) : s.SameButStore (judge s line old new) := by
  unfold judge
  split
  · rfl
  · split <;> rfl

theorem writeHomeBy_sameButStore (s : State) (t : Nat) (all : Bool) (wait : List Nat) (group : Nat) (ws : List (Nat × Byte × Byte)) :
    s.SameButStore (writeHomeBy s t all wait group ws) :=
  State.SameButStore.trans (t := _) (by exact rfl) (State.SameButStore.foldl (fun s _ => judge_sameButStore s _ _ _) _ _)

theorem writeHome_sameButStore (s : State) (t : Nat) (all : Bool) (ws : List (Nat × Byte × Byte)) :
    s.SameButStore (writeHome s t all ws) :=
  writeHomeBy_sameButStore _ _ _ _ _ _

theorem writePhys_sameButStore (s : State) (a n v : Nat) : s.SameButStore (writePhys s a n v) :=
  writeHome_sameButStore _ _ _ _

theorem countDrover_sameButStore (s : State) (core line : Nat) (ctx : BitVec 16) (page : Nat) (req : Req) (h : Hint) :
    s.SameButStore (countDrover s core line ctx page req h) := by
  unfold countDrover
  dsimp only
  split <;> rfl

theorem sendHome_sameButStore (s : State) (core : Nat) (all : Bool) (ws : List (Nat × Byte × Byte)) :
    s.SameButStore (sendHome s core all ws) := by
  unfold sendHome
  split
  · rfl
  · refine State.SameButStore.then_setFab ?_ _
    refine State.SameButStore.trans (State.SameButStore.foldl ?_ _ _) (writeHome_sameButStore _ _ _ _)
    intro s n
    split
    · exact countDrover_sameButStore _ _ _ _ _ _ _
    · rfl

theorem settleWeak_sameButStore (s : State) (core k : Nat) : s.SameButStore (settleWeak s core k) := by
  unfold settleWeak
  dsimp only
  split
  · rfl
  · exact (((sendHome_sameButStore _ _ _ _).trans (sendHome_sameButStore _ _ _ _)).then_setFab _).then_setFab _

theorem writeBackLines_sameButStore (s : State) (core : Nat) (lines : List Nat) : s.SameButStore (writeBackLines s core lines) := by
  unfold writeBackLines
  dsimp only
  split
  · rfl
  · exact (settleWeak_sameButStore _ _ _).trans (sendHome_sameButStore _ _ _ _)

theorem recallDirty_sameButStore (s : State) (lines : List Nat) : s.SameButStore (recallDirty s lines) :=
  State.SameButStore.foldl (fun _ _ => writeBackLines_sameButStore _ _ _) _ _

theorem recallLines_sameButStore (s : State) (lines : List Nat) : s.SameButStore (recallLines s lines) :=
  (recallDirty_sameButStore s lines).then_setFab _

theorem writeBack_sameButStore (s : State) (core : Nat) : s.SameButStore (writeBack s core) :=
  (settleWeak_sameButStore _ _ _).trans (sendHome_sameButStore _ _ _ _)

theorem dropLines_sameButStore (s : State) (core : Nat) : s.SameButStore (dropLines s core) := by
  unfold dropLines
  split
  · exact (writeBack_sameButStore s core).then_setFab _
  · exact State.SameButStore.setFab _ _

theorem coreWrite_sameButStore (s : State) (core gid : Nat) (locs : List Nat) (bytes : List Byte) :
    s.SameButStore (coreWrite s core gid locs bytes) :=
  (((settleWeak_sameButStore _ _ _).trans (writeBackLines_sameButStore _ _ _)).trans (writeHomeBy_sameButStore _ _ _ _ _ _)).then_setFab _

theorem putPage_sameButStore (s : State) (ctx : BitVec 16) (page : Nat) (parts : List (Nat × Nat)) (bytes : List (Nat × Byte))
    (tags : List (Nat × BitVec 12)) : s.SameButStore (putPage s ctx page parts bytes tags) := rfl

theorem zeroPage_sameButStore (s : State) (leaf : Word) : s.SameButStore (zeroPage s leaf) :=
  State.SameButStore.trans (t := _) (by exact rfl) (State.SameButStore.foldl (fun s _ => judge_sameButStore s _ _ _) _ _)

theorem freeLines_sameButStore (s : State) (k : Nat) (locs : List Nat) : s.SameButStore (freeLines s k locs) := by
  refine State.SameButStore.foldl ?_ _ _
  intro s n
  split <;> rfl

/-! ## Leaves and whole bytes -/

/-- A leaf that is found for some pages maps one of them. -/
theorem entryLeaves_cover {mem : List Host.Cell} {lo hi level table page i : Nat} {below : Nat → Nat → List LeafAt}
    (hb : ∀ t p, ∀ a ∈ below t p, a.page ≤ hi ∧ lo < a.page + Leaf.pages a.level) {a : LeafAt}
    (ha : a ∈ entryLeaves mem lo hi level table page below i) : a.page ≤ hi ∧ lo < a.page + Leaf.pages a.level := by
  unfold entryLeaves at ha
  dsimp only at ha
  split at ha
  · exact absurd ha List.not_mem_nil
  · rename_i h
    split at ha
    · exact absurd ha List.not_mem_nil
    · split at ha
      · split at ha
        · cases List.mem_singleton.1 ha
          dsimp only
          omega
        · exact absurd ha List.not_mem_nil
      · split at ha
        · exact absurd ha List.not_mem_nil
        · exact hb _ _ a ha

theorem leavesIn_cover (mem : List Host.Cell) (lo hi level : Nat) : ∀ table page, ∀ a ∈ leavesIn mem lo hi level table page,
    a.page ≤ hi ∧ lo < a.page + Leaf.pages a.level := by
  induction level with
  | zero =>
    intro table page a ha
    rw [leavesIn, List.mem_flatMap] at ha
    obtain ⟨i, -, ha⟩ := ha
    exact entryLeaves_cover (fun _ _ a ha => absurd ha List.not_mem_nil) ha
  | succ n ih =>
    intro table page a ha
    rw [leavesIn, List.mem_flatMap] at ha
    obtain ⟨i, -, ha⟩ := ha
    exact entryLeaves_cover ih ha

/-- Whole bytes written at rising places stand there. -/
theorem get_written_run (a : Nat) (bs : List Byte) : ∀ (k : Nat) (m : List Host.Cell) (i : Nat), i < bs.length →
    Memory.get (written m ((bs.zipIdx k).map fun x => (a + x.2, x.1, (0xFF : Byte)))) (a + k + i) = (bs[i]?).getD 0 := by
  induction bs with
  | nil => intro k m i hi; exact absurd hi (Nat.not_lt_zero _)
  | cons b bs ih =>
    intro k m i hi
    rw [List.zipIdx_cons, List.map_cons]
    unfold written
    rw [List.foldl_cons]
    change Memory.get (written _ _) _ = _
    cases i with
    | zero =>
      rw [get_written_other]
      · have e : b &&& 255#8 = b := by rw [show (255#8 : Byte) = BitVec.allOnes 8 from rfl, BitVec.and_allOnes]
        simp [e]
      · intro x hx
        rw [List.mem_map] at hx
        obtain ⟨y, hy, rfl⟩ := hx
        have := List.le_snd_of_mem_zipIdx hy
        dsimp only
        omega
    | succ i =>
      have := ih (k + 1) (Memory.set m (a + k) ((Memory.get m (a + k) &&& ~~~(0xFF : Byte)) ||| (b &&& 0xFF))) i (by simpa using hi)
      rw [show a + k + (i + 1) = a + (k + 1) + i by omega]
      simpa using this

/-- What a device's write of whole bytes leaves at its places, where no page move has copied them. -/
theorem get_writeHome_run (s : State) (a : Nat) (bs : List Byte) (all : Bool) (h : ∀ i < bs.length, forwarded s.fab (a + i) = a + i)
    {i : Nat} (hi : i < bs.length) :
    Memory.get (writeHome s 48 all (bs.zipIdx.map fun x => (a + x.2, x.1, (0xFF : Byte)))).mem (a + i) = (bs[i]?).getD 0 := by
  have e : (bs.zipIdx.map fun x => (a + x.2, x.1, (0xFF : Byte))).map (fun x => (forwarded s.fab x.1, x.2.1, x.2.2))
      = bs.zipIdx.map fun x => (a + x.2, x.1, (0xFF : Byte)) := by
    rw [List.map_map]
    refine List.map_congr_left fun x hx => ?_
    have := List.snd_lt_of_mem_zipIdx hx
    simp [h x.2 (by simpa using this)]
  unfold writeHome
  rw [writeHomeBy_mem, e]
  simpa using get_written_run a bs 0 s.mem i hi

end Sys2Proof.Machine
end

