-- ==== Sys2Proof/Laws/State.lean ====
section
/-! SUPPORT. For every update of the state, what each field is after it. -/
namespace Sys2Proof.Machine

/-! ## `State.setGroup` -/

@[simp] theorem State.setGroup_tick (s : State) (k : Nat) (g : Group) : (s.setGroup k g).tick = s.tick := rfl
@[simp] theorem State.setGroup_free (s : State) (k : Nat) (g : Group) : (s.setGroup k g).free = s.free := rfl
@[simp] theorem State.setGroup_cur (s : State) (k : Nat) (g : Group) : (s.setGroup k g).cur = s.cur := rfl
@[simp] theorem State.setGroup_nextId (s : State) (k : Nat) (g : Group) : (s.setGroup k g).nextId = s.nextId := rfl
@[simp] theorem State.setGroup_inputs (s : State) (k : Nat) (g : Group) : (s.setGroup k g).inputs = s.inputs := rfl
@[simp] theorem State.setGroup_dev (s : State) (k : Nat) (g : Group) : (s.setGroup k g).dev = s.dev := rfl
@[simp] theorem State.setGroup_queues (s : State) (k : Nat) (g : Group) : (s.setGroup k g).queues = s.queues := rfl
@[simp] theorem State.setGroup_warm (s : State) (k : Nat) (g : Group) : (s.setGroup k g).warm = s.warm := rfl
@[simp] theorem State.setGroup_launches (s : State) (k : Nat) (g : Group) : (s.setGroup k g).launches = s.launches := rfl
@[simp] theorem State.setGroup_regions (s : State) (k : Nat) (g : Group) : (s.setGroup k g).regions = s.regions := rfl
@[simp] theorem State.setGroup_boxes (s : State) (k : Nat) (g : Group) : (s.setGroup k g).boxes = s.boxes := rfl
@[simp] theorem State.setGroup_teams (s : State) (k : Nat) (g : Group) : (s.setGroup k g).teams = s.teams := rfl
@[simp] theorem State.setGroup_groups (s : State) (k : Nat) (g : Group) : (s.setGroup k g).groups = SMap.put s.groups k g := rfl
@[simp] theorem State.setGroup_ops (s : State) (k : Nat) (g : Group) : (s.setGroup k g).ops = s.ops := rfl
@[simp] theorem State.setGroup_saved (s : State) (k : Nat) (g : Group) : (s.setGroup k g).saved = s.saved := rfl
@[simp] theorem State.setGroup_mem (s : State) (k : Nat) (g : Group) : (s.setGroup k g).mem = s.mem := rfl
@[simp] theorem State.setGroup_fab (s : State) (k : Nat) (g : Group) : (s.setGroup k g).fab = s.fab := rfl
@[simp] theorem State.setGroup_porter (s : State) (k : Nat) (g : Group) : (s.setGroup k g).porter = s.porter := rfl
@[simp] theorem State.setGroup_flits (s : State) (k : Nat) (g : Group) : (s.setGroup k g).flits = s.flits := rfl
@[simp] theorem State.setGroup_snaps (s : State) (k : Nat) (g : Group) : (s.setGroup k g).snaps = s.snaps := rfl
@[simp] theorem State.setGroup_firstTouch (s : State) (k : Nat) (g : Group) : (s.setGroup k g).firstTouch = s.firstTouch := rfl
@[simp] theorem State.setGroup_convoys (s : State) (k : Nat) (g : Group) : (s.setGroup k g).convoys = s.convoys := rfl
@[simp] theorem State.setGroup_assay (s : State) (k : Nat) (g : Group) : (s.setGroup k g).assay = s.assay := rfl
@[simp] theorem State.setGroup_log (s : State) (k : Nat) (g : Group) : (s.setGroup k g).log = s.log := rfl

/-! ## `State.setTeam` -/

@[simp] theorem State.setTeam_tick (s : State) (k : Nat) (t : Team) : (s.setTeam k t).tick = s.tick := rfl
@[simp] theorem State.setTeam_free (s : State) (k : Nat) (t : Team) : (s.setTeam k t).free = s.free := rfl
@[simp] theorem State.setTeam_cur (s : State) (k : Nat) (t : Team) : (s.setTeam k t).cur = s.cur := rfl
@[simp] theorem State.setTeam_nextId (s : State) (k : Nat) (t : Team) : (s.setTeam k t).nextId = s.nextId := rfl
@[simp] theorem State.setTeam_inputs (s : State) (k : Nat) (t : Team) : (s.setTeam k t).inputs = s.inputs := rfl
@[simp] theorem State.setTeam_dev (s : State) (k : Nat) (t : Team) : (s.setTeam k t).dev = s.dev := rfl
@[simp] theorem State.setTeam_queues (s : State) (k : Nat) (t : Team) : (s.setTeam k t).queues = s.queues := rfl
@[simp] theorem State.setTeam_warm (s : State) (k : Nat) (t : Team) : (s.setTeam k t).warm = s.warm := rfl
@[simp] theorem State.setTeam_launches (s : State) (k : Nat) (t : Team) : (s.setTeam k t).launches = s.launches := rfl
@[simp] theorem State.setTeam_regions (s : State) (k : Nat) (t : Team) : (s.setTeam k t).regions = s.regions := rfl
@[simp] theorem State.setTeam_boxes (s : State) (k : Nat) (t : Team) : (s.setTeam k t).boxes = s.boxes := rfl
@[simp] theorem State.setTeam_teams (s : State) (k : Nat) (t : Team) : (s.setTeam k t).teams = SMap.put s.teams k t := rfl
@[simp] theorem State.setTeam_groups (s : State) (k : Nat) (t : Team) : (s.setTeam k t).groups = s.groups := rfl
@[simp] theorem State.setTeam_ops (s : State) (k : Nat) (t : Team) : (s.setTeam k t).ops = s.ops := rfl
@[simp] theorem State.setTeam_saved (s : State) (k : Nat) (t : Team) : (s.setTeam k t).saved = s.saved := rfl
@[simp] theorem State.setTeam_mem (s : State) (k : Nat) (t : Team) : (s.setTeam k t).mem = s.mem := rfl
@[simp] theorem State.setTeam_fab (s : State) (k : Nat) (t : Team) : (s.setTeam k t).fab = s.fab := rfl
@[simp] theorem State.setTeam_porter (s : State) (k : Nat) (t : Team) : (s.setTeam k t).porter = s.porter := rfl
@[simp] theorem State.setTeam_flits (s : State) (k : Nat) (t : Team) : (s.setTeam k t).flits = s.flits := rfl
@[simp] theorem State.setTeam_snaps (s : State) (k : Nat) (t : Team) : (s.setTeam k t).snaps = s.snaps := rfl
@[simp] theorem State.setTeam_firstTouch (s : State) (k : Nat) (t : Team) : (s.setTeam k t).firstTouch = s.firstTouch := rfl
@[simp] theorem State.setTeam_convoys (s : State) (k : Nat) (t : Team) : (s.setTeam k t).convoys = s.convoys := rfl
@[simp] theorem State.setTeam_assay (s : State) (k : Nat) (t : Team) : (s.setTeam k t).assay = s.assay := rfl
@[simp] theorem State.setTeam_log (s : State) (k : Nat) (t : Team) : (s.setTeam k t).log = s.log := rfl

/-! ## `State.setLaunch` -/

@[simp] theorem State.setLaunch_tick (s : State) (k : Nat) (l : Launch) : (s.setLaunch k l).tick = s.tick := rfl
@[simp] theorem State.setLaunch_free (s : State) (k : Nat) (l : Launch) : (s.setLaunch k l).free = s.free := rfl
@[simp] theorem State.setLaunch_cur (s : State) (k : Nat) (l : Launch) : (s.setLaunch k l).cur = s.cur := rfl
@[simp] theorem State.setLaunch_nextId (s : State) (k : Nat) (l : Launch) : (s.setLaunch k l).nextId = s.nextId := rfl
@[simp] theorem State.setLaunch_inputs (s : State) (k : Nat) (l : Launch) : (s.setLaunch k l).inputs = s.inputs := rfl
@[simp] theorem State.setLaunch_dev (s : State) (k : Nat) (l : Launch) : (s.setLaunch k l).dev = s.dev := rfl
@[simp] theorem State.setLaunch_queues (s : State) (k : Nat) (l : Launch) : (s.setLaunch k l).queues = s.queues := rfl
@[simp] theorem State.setLaunch_warm (s : State) (k : Nat) (l : Launch) : (s.setLaunch k l).warm = s.warm := rfl
@[simp] theorem State.setLaunch_launches (s : State) (k : Nat) (l : Launch) : (s.setLaunch k l).launches = SMap.put s.launches k l := rfl
@[simp] theorem State.setLaunch_regions (s : State) (k : Nat) (l : Launch) : (s.setLaunch k l).regions = s.regions := rfl
@[simp] theorem State.setLaunch_boxes (s : State) (k : Nat) (l : Launch) : (s.setLaunch k l).boxes = s.boxes := rfl
@[simp] theorem State.setLaunch_teams (s : State) (k : Nat) (l : Launch) : (s.setLaunch k l).teams = s.teams := rfl
@[simp] theorem State.setLaunch_groups (s : State) (k : Nat) (l : Launch) : (s.setLaunch k l).groups = s.groups := rfl
@[simp] theorem State.setLaunch_ops (s : State) (k : Nat) (l : Launch) : (s.setLaunch k l).ops = s.ops := rfl
@[simp] theorem State.setLaunch_saved (s : State) (k : Nat) (l : Launch) : (s.setLaunch k l).saved = s.saved := rfl
@[simp] theorem State.setLaunch_mem (s : State) (k : Nat) (l : Launch) : (s.setLaunch k l).mem = s.mem := rfl
@[simp] theorem State.setLaunch_fab (s : State) (k : Nat) (l : Launch) : (s.setLaunch k l).fab = s.fab := rfl
@[simp] theorem State.setLaunch_porter (s : State) (k : Nat) (l : Launch) : (s.setLaunch k l).porter = s.porter := rfl
@[simp] theorem State.setLaunch_flits (s : State) (k : Nat) (l : Launch) : (s.setLaunch k l).flits = s.flits := rfl
@[simp] theorem State.setLaunch_snaps (s : State) (k : Nat) (l : Launch) : (s.setLaunch k l).snaps = s.snaps := rfl
@[simp] theorem State.setLaunch_firstTouch (s : State) (k : Nat) (l : Launch) : (s.setLaunch k l).firstTouch = s.firstTouch := rfl
@[simp] theorem State.setLaunch_convoys (s : State) (k : Nat) (l : Launch) : (s.setLaunch k l).convoys = s.convoys := rfl
@[simp] theorem State.setLaunch_assay (s : State) (k : Nat) (l : Launch) : (s.setLaunch k l).assay = s.assay := rfl
@[simp] theorem State.setLaunch_log (s : State) (k : Nat) (l : Launch) : (s.setLaunch k l).log = s.log := rfl

/-! ## `State.setOp` -/

@[simp] theorem State.setOp_tick (s : State) (k : Nat) (o : Op) : (s.setOp k o).tick = s.tick := rfl
@[simp] theorem State.setOp_free (s : State) (k : Nat) (o : Op) : (s.setOp k o).free = s.free := rfl
@[simp] theorem State.setOp_cur (s : State) (k : Nat) (o : Op) : (s.setOp k o).cur = s.cur := rfl
@[simp] theorem State.setOp_nextId (s : State) (k : Nat) (o : Op) : (s.setOp k o).nextId = s.nextId := rfl
@[simp] theorem State.setOp_inputs (s : State) (k : Nat) (o : Op) : (s.setOp k o).inputs = s.inputs := rfl
@[simp] theorem State.setOp_dev (s : State) (k : Nat) (o : Op) : (s.setOp k o).dev = s.dev := rfl
@[simp] theorem State.setOp_queues (s : State) (k : Nat) (o : Op) : (s.setOp k o).queues = s.queues := rfl
@[simp] theorem State.setOp_warm (s : State) (k : Nat) (o : Op) : (s.setOp k o).warm = s.warm := rfl
@[simp] theorem State.setOp_launches (s : State) (k : Nat) (o : Op) : (s.setOp k o).launches = s.launches := rfl
@[simp] theorem State.setOp_regions (s : State) (k : Nat) (o : Op) : (s.setOp k o).regions = s.regions := rfl
@[simp] theorem State.setOp_boxes (s : State) (k : Nat) (o : Op) : (s.setOp k o).boxes = s.boxes := rfl
@[simp] theorem State.setOp_teams (s : State) (k : Nat) (o : Op) : (s.setOp k o).teams = s.teams := rfl
@[simp] theorem State.setOp_groups (s : State) (k : Nat) (o : Op) : (s.setOp k o).groups = s.groups := rfl
@[simp] theorem State.setOp_ops (s : State) (k : Nat) (o : Op) : (s.setOp k o).ops = SMap.put s.ops k o := rfl
@[simp] theorem State.setOp_saved (s : State) (k : Nat) (o : Op) : (s.setOp k o).saved = s.saved := rfl
@[simp] theorem State.setOp_mem (s : State) (k : Nat) (o : Op) : (s.setOp k o).mem = s.mem := rfl
@[simp] theorem State.setOp_fab (s : State) (k : Nat) (o : Op) : (s.setOp k o).fab = s.fab := rfl
@[simp] theorem State.setOp_porter (s : State) (k : Nat) (o : Op) : (s.setOp k o).porter = s.porter := rfl
@[simp] theorem State.setOp_flits (s : State) (k : Nat) (o : Op) : (s.setOp k o).flits = s.flits := rfl
@[simp] theorem State.setOp_snaps (s : State) (k : Nat) (o : Op) : (s.setOp k o).snaps = s.snaps := rfl
@[simp] theorem State.setOp_firstTouch (s : State) (k : Nat) (o : Op) : (s.setOp k o).firstTouch = s.firstTouch := rfl
@[simp] theorem State.setOp_convoys (s : State) (k : Nat) (o : Op) : (s.setOp k o).convoys = s.convoys := rfl
@[simp] theorem State.setOp_assay (s : State) (k : Nat) (o : Op) : (s.setOp k o).assay = s.assay := rfl
@[simp] theorem State.setOp_log (s : State) (k : Nat) (o : Op) : (s.setOp k o).log = s.log := rfl

/-! ## `State.setQueue` -/

@[simp] theorem State.setQueue_tick (s : State) (k : Nat) (v : Queue) : (s.setQueue k v).tick = s.tick := rfl
@[simp] theorem State.setQueue_free (s : State) (k : Nat) (v : Queue) : (s.setQueue k v).free = s.free := rfl
@[simp] theorem State.setQueue_cur (s : State) (k : Nat) (v : Queue) : (s.setQueue k v).cur = s.cur := rfl
@[simp] theorem State.setQueue_nextId (s : State) (k : Nat) (v : Queue) : (s.setQueue k v).nextId = s.nextId := rfl
@[simp] theorem State.setQueue_inputs (s : State) (k : Nat) (v : Queue) : (s.setQueue k v).inputs = s.inputs := rfl
@[simp] theorem State.setQueue_dev (s : State) (k : Nat) (v : Queue) : (s.setQueue k v).dev = s.dev := rfl
@[simp] theorem State.setQueue_queues (s : State) (k : Nat) (v : Queue) : (s.setQueue k v).queues = SMap.set {} s.queues k v := rfl
@[simp] theorem State.setQueue_warm (s : State) (k : Nat) (v : Queue) : (s.setQueue k v).warm = s.warm := rfl
@[simp] theorem State.setQueue_launches (s : State) (k : Nat) (v : Queue) : (s.setQueue k v).launches = s.launches := rfl
@[simp] theorem State.setQueue_regions (s : State) (k : Nat) (v : Queue) : (s.setQueue k v).regions = s.regions := rfl
@[simp] theorem State.setQueue_boxes (s : State) (k : Nat) (v : Queue) : (s.setQueue k v).boxes = s.boxes := rfl
@[simp] theorem State.setQueue_teams (s : State) (k : Nat) (v : Queue) : (s.setQueue k v).teams = s.teams := rfl
@[simp] theorem State.setQueue_groups (s : State) (k : Nat) (v : Queue) : (s.setQueue k v).groups = s.groups := rfl
@[simp] theorem State.setQueue_ops (s : State) (k : Nat) (v : Queue) : (s.setQueue k v).ops = s.ops := rfl
@[simp] theorem State.setQueue_saved (s : State) (k : Nat) (v : Queue) : (s.setQueue k v).saved = s.saved := rfl
@[simp] theorem State.setQueue_mem (s : State) (k : Nat) (v : Queue) : (s.setQueue k v).mem = s.mem := rfl
@[simp] theorem State.setQueue_fab (s : State) (k : Nat) (v : Queue) : (s.setQueue k v).fab = s.fab := rfl
@[simp] theorem State.setQueue_porter (s : State) (k : Nat) (v : Queue) : (s.setQueue k v).porter = s.porter := rfl
@[simp] theorem State.setQueue_flits (s : State) (k : Nat) (v : Queue) : (s.setQueue k v).flits = s.flits := rfl
@[simp] theorem State.setQueue_snaps (s : State) (k : Nat) (v : Queue) : (s.setQueue k v).snaps = s.snaps := rfl
@[simp] theorem State.setQueue_firstTouch (s : State) (k : Nat) (v : Queue) : (s.setQueue k v).firstTouch = s.firstTouch := rfl
@[simp] theorem State.setQueue_convoys (s : State) (k : Nat) (v : Queue) : (s.setQueue k v).convoys = s.convoys := rfl
@[simp] theorem State.setQueue_assay (s : State) (k : Nat) (v : Queue) : (s.setQueue k v).assay = s.assay := rfl
@[simp] theorem State.setQueue_log (s : State) (k : Nat) (v : Queue) : (s.setQueue k v).log = s.log := rfl

/-! ## `State.setMem` -/

@[simp] theorem State.setMem_tick (s : State) (m : List Host.Cell) : (s.setMem m).tick = s.tick := rfl
@[simp] theorem State.setMem_free (s : State) (m : List Host.Cell) : (s.setMem m).free = s.free := rfl
@[simp] theorem State.setMem_cur (s : State) (m : List Host.Cell) : (s.setMem m).cur = s.cur := rfl
@[simp] theorem State.setMem_nextId (s : State) (m : List Host.Cell) : (s.setMem m).nextId = s.nextId := rfl
@[simp] theorem State.setMem_inputs (s : State) (m : List Host.Cell) : (s.setMem m).inputs = s.inputs := rfl
@[simp] theorem State.setMem_dev (s : State) (m : List Host.Cell) : (s.setMem m).dev = s.dev := rfl
@[simp] theorem State.setMem_queues (s : State) (m : List Host.Cell) : (s.setMem m).queues = s.queues := rfl
@[simp] theorem State.setMem_warm (s : State) (m : List Host.Cell) : (s.setMem m).warm = s.warm := rfl
@[simp] theorem State.setMem_launches (s : State) (m : List Host.Cell) : (s.setMem m).launches = s.launches := rfl
@[simp] theorem State.setMem_regions (s : State) (m : List Host.Cell) : (s.setMem m).regions = s.regions := rfl
@[simp] theorem State.setMem_boxes (s : State) (m : List Host.Cell) : (s.setMem m).boxes = s.boxes := rfl
@[simp] theorem State.setMem_teams (s : State) (m : List Host.Cell) : (s.setMem m).teams = s.teams := rfl
@[simp] theorem State.setMem_groups (s : State) (m : List Host.Cell) : (s.setMem m).groups = s.groups := rfl
@[simp] theorem State.setMem_ops (s : State) (m : List Host.Cell) : (s.setMem m).ops = s.ops := rfl
@[simp] theorem State.setMem_saved (s : State) (m : List Host.Cell) : (s.setMem m).saved = s.saved := rfl
@[simp] theorem State.setMem_mem (s : State) (m : List Host.Cell) : (s.setMem m).mem = m := rfl
@[simp] theorem State.setMem_fab (s : State) (m : List Host.Cell) : (s.setMem m).fab = s.fab := rfl
@[simp] theorem State.setMem_porter (s : State) (m : List Host.Cell) : (s.setMem m).porter = s.porter := rfl
@[simp] theorem State.setMem_flits (s : State) (m : List Host.Cell) : (s.setMem m).flits = s.flits := rfl
@[simp] theorem State.setMem_snaps (s : State) (m : List Host.Cell) : (s.setMem m).snaps = s.snaps := rfl
@[simp] theorem State.setMem_firstTouch (s : State) (m : List Host.Cell) : (s.setMem m).firstTouch = s.firstTouch := rfl
@[simp] theorem State.setMem_convoys (s : State) (m : List Host.Cell) : (s.setMem m).convoys = s.convoys := rfl
@[simp] theorem State.setMem_assay (s : State) (m : List Host.Cell) : (s.setMem m).assay = s.assay := rfl
@[simp] theorem State.setMem_log (s : State) (m : List Host.Cell) : (s.setMem m).log = s.log := rfl

/-! ## `State.setFab` -/

@[simp] theorem State.setFab_tick (s : State) (f : Fabric) : (s.setFab f).tick = s.tick := rfl
@[simp] theorem State.setFab_free (s : State) (f : Fabric) : (s.setFab f).free = s.free := rfl
@[simp] theorem State.setFab_cur (s : State) (f : Fabric) : (s.setFab f).cur = s.cur := rfl
@[simp] theorem State.setFab_nextId (s : State) (f : Fabric) : (s.setFab f).nextId = s.nextId := rfl
@[simp] theorem State.setFab_inputs (s : State) (f : Fabric) : (s.setFab f).inputs = s.inputs := rfl
@[simp] theorem State.setFab_dev (s : State) (f : Fabric) : (s.setFab f).dev = s.dev := rfl
@[simp] theorem State.setFab_queues (s : State) (f : Fabric) : (s.setFab f).queues = s.queues := rfl
@[simp] theorem State.setFab_warm (s : State) (f : Fabric) : (s.setFab f).warm = s.warm := rfl
@[simp] theorem State.setFab_launches (s : State) (f : Fabric) : (s.setFab f).launches = s.launches := rfl
@[simp] theorem State.setFab_regions (s : State) (f : Fabric) : (s.setFab f).regions = s.regions := rfl
@[simp] theorem State.setFab_boxes (s : State) (f : Fabric) : (s.setFab f).boxes = s.boxes := rfl
@[simp] theorem State.setFab_teams (s : State) (f : Fabric) : (s.setFab f).teams = s.teams := rfl
@[simp] theorem State.setFab_groups (s : State) (f : Fabric) : (s.setFab f).groups = s.groups := rfl
@[simp] theorem State.setFab_ops (s : State) (f : Fabric) : (s.setFab f).ops = s.ops := rfl
@[simp] theorem State.setFab_saved (s : State) (f : Fabric) : (s.setFab f).saved = s.saved := rfl
@[simp] theorem State.setFab_mem (s : State) (f : Fabric) : (s.setFab f).mem = s.mem := rfl
@[simp] theorem State.setFab_fab (s : State) (f : Fabric) : (s.setFab f).fab = f := rfl
@[simp] theorem State.setFab_porter (s : State) (f : Fabric) : (s.setFab f).porter = s.porter := rfl
@[simp] theorem State.setFab_flits (s : State) (f : Fabric) : (s.setFab f).flits = s.flits := rfl
@[simp] theorem State.setFab_snaps (s : State) (f : Fabric) : (s.setFab f).snaps = s.snaps := rfl
@[simp] theorem State.setFab_firstTouch (s : State) (f : Fabric) : (s.setFab f).firstTouch = s.firstTouch := rfl
@[simp] theorem State.setFab_convoys (s : State) (f : Fabric) : (s.setFab f).convoys = s.convoys := rfl
@[simp] theorem State.setFab_assay (s : State) (f : Fabric) : (s.setFab f).assay = s.assay := rfl
@[simp] theorem State.setFab_log (s : State) (f : Fabric) : (s.setFab f).log = s.log := rfl

/-! ## `State.setDev` -/

@[simp] theorem State.setDev_tick (s : State) (d : Device) : (s.setDev d).tick = s.tick := rfl
@[simp] theorem State.setDev_free (s : State) (d : Device) : (s.setDev d).free = s.free := rfl
@[simp] theorem State.setDev_cur (s : State) (d : Device) : (s.setDev d).cur = s.cur := rfl
@[simp] theorem State.setDev_nextId (s : State) (d : Device) : (s.setDev d).nextId = s.nextId := rfl
@[simp] theorem State.setDev_inputs (s : State) (d : Device) : (s.setDev d).inputs = s.inputs := rfl
@[simp] theorem State.setDev_dev (s : State) (d : Device) : (s.setDev d).dev = d := rfl
@[simp] theorem State.setDev_queues (s : State) (d : Device) : (s.setDev d).queues = s.queues := rfl
@[simp] theorem State.setDev_warm (s : State) (d : Device) : (s.setDev d).warm = s.warm := rfl
@[simp] theorem State.setDev_launches (s : State) (d : Device) : (s.setDev d).launches = s.launches := rfl
@[simp] theorem State.setDev_regions (s : State) (d : Device) : (s.setDev d).regions = s.regions := rfl
@[simp] theorem State.setDev_boxes (s : State) (d : Device) : (s.setDev d).boxes = s.boxes := rfl
@[simp] theorem State.setDev_teams (s : State) (d : Device) : (s.setDev d).teams = s.teams := rfl
@[simp] theorem State.setDev_groups (s : State) (d : Device) : (s.setDev d).groups = s.groups := rfl
@[simp] theorem State.setDev_ops (s : State) (d : Device) : (s.setDev d).ops = s.ops := rfl
@[simp] theorem State.setDev_saved (s : State) (d : Device) : (s.setDev d).saved = s.saved := rfl
@[simp] theorem State.setDev_mem (s : State) (d : Device) : (s.setDev d).mem = s.mem := rfl
@[simp] theorem State.setDev_fab (s : State) (d : Device) : (s.setDev d).fab = s.fab := rfl
@[simp] theorem State.setDev_porter (s : State) (d : Device) : (s.setDev d).porter = s.porter := rfl
@[simp] theorem State.setDev_flits (s : State) (d : Device) : (s.setDev d).flits = s.flits := rfl
@[simp] theorem State.setDev_snaps (s : State) (d : Device) : (s.setDev d).snaps = s.snaps := rfl
@[simp] theorem State.setDev_firstTouch (s : State) (d : Device) : (s.setDev d).firstTouch = s.firstTouch := rfl
@[simp] theorem State.setDev_convoys (s : State) (d : Device) : (s.setDev d).convoys = s.convoys := rfl
@[simp] theorem State.setDev_assay (s : State) (d : Device) : (s.setDev d).assay = s.assay := rfl
@[simp] theorem State.setDev_log (s : State) (d : Device) : (s.setDev d).log = s.log := rfl

/-! ## `State.modGroup` -/

@[simp] theorem State.modGroup_tick (s : State) (k : Nat) (f : Group → Group) : (s.modGroup k f).tick = s.tick := rfl
@[simp] theorem State.modGroup_free (s : State) (k : Nat) (f : Group → Group) : (s.modGroup k f).free = s.free := rfl
@[simp] theorem State.modGroup_cur (s : State) (k : Nat) (f : Group → Group) : (s.modGroup k f).cur = s.cur := rfl
@[simp] theorem State.modGroup_nextId (s : State) (k : Nat) (f : Group → Group) : (s.modGroup k f).nextId = s.nextId := rfl
@[simp] theorem State.modGroup_inputs (s : State) (k : Nat) (f : Group → Group) : (s.modGroup k f).inputs = s.inputs := rfl
@[simp] theorem State.modGroup_dev (s : State) (k : Nat) (f : Group → Group) : (s.modGroup k f).dev = s.dev := rfl
@[simp] theorem State.modGroup_queues (s : State) (k : Nat) (f : Group → Group) : (s.modGroup k f).queues = s.queues := rfl
@[simp] theorem State.modGroup_warm (s : State) (k : Nat) (f : Group → Group) : (s.modGroup k f).warm = s.warm := rfl
@[simp] theorem State.modGroup_launches (s : State) (k : Nat) (f : Group → Group) : (s.modGroup k f).launches = s.launches := rfl
@[simp] theorem State.modGroup_regions (s : State) (k : Nat) (f : Group → Group) : (s.modGroup k f).regions = s.regions := rfl
@[simp] theorem State.modGroup_boxes (s : State) (k : Nat) (f : Group → Group) : (s.modGroup k f).boxes = s.boxes := rfl
@[simp] theorem State.modGroup_teams (s : State) (k : Nat) (f : Group → Group) : (s.modGroup k f).teams = s.teams := rfl
@[simp] theorem State.modGroup_groups (s : State) (k : Nat) (f : Group → Group) : (s.modGroup k f).groups = SMap.adjust s.groups k f := rfl
@[simp] theorem State.modGroup_ops (s : State) (k : Nat) (f : Group → Group) : (s.modGroup k f).ops = s.ops := rfl
@[simp] theorem State.modGroup_saved (s : State) (k : Nat) (f : Group → Group) : (s.modGroup k f).saved = s.saved := rfl
@[simp] theorem State.modGroup_mem (s : State) (k : Nat) (f : Group → Group) : (s.modGroup k f).mem = s.mem := rfl
@[simp] theorem State.modGroup_fab (s : State) (k : Nat) (f : Group → Group) : (s.modGroup k f).fab = s.fab := rfl
@[simp] theorem State.modGroup_porter (s : State) (k : Nat) (f : Group → Group) : (s.modGroup k f).porter = s.porter := rfl
@[simp] theorem State.modGroup_flits (s : State) (k : Nat) (f : Group → Group) : (s.modGroup k f).flits = s.flits := rfl
@[simp] theorem State.modGroup_snaps (s : State) (k : Nat) (f : Group → Group) : (s.modGroup k f).snaps = s.snaps := rfl
@[simp] theorem State.modGroup_firstTouch (s : State) (k : Nat) (f : Group → Group) : (s.modGroup k f).firstTouch = s.firstTouch := rfl
@[simp] theorem State.modGroup_convoys (s : State) (k : Nat) (f : Group → Group) : (s.modGroup k f).convoys = s.convoys := rfl
@[simp] theorem State.modGroup_assay (s : State) (k : Nat) (f : Group → Group) : (s.modGroup k f).assay = s.assay := rfl
@[simp] theorem State.modGroup_log (s : State) (k : Nat) (f : Group → Group) : (s.modGroup k f).log = s.log := rfl

/-! ## `State.modTeam` -/

@[simp] theorem State.modTeam_tick (s : State) (k : Nat) (f : Team → Team) : (s.modTeam k f).tick = s.tick := rfl
@[simp] theorem State.modTeam_free (s : State) (k : Nat) (f : Team → Team) : (s.modTeam k f).free = s.free := rfl
@[simp] theorem State.modTeam_cur (s : State) (k : Nat) (f : Team → Team) : (s.modTeam k f).cur = s.cur := rfl
@[simp] theorem State.modTeam_nextId (s : State) (k : Nat) (f : Team → Team) : (s.modTeam k f).nextId = s.nextId := rfl
@[simp] theorem State.modTeam_inputs (s : State) (k : Nat) (f : Team → Team) : (s.modTeam k f).inputs = s.inputs := rfl
@[simp] theorem State.modTeam_dev (s : State) (k : Nat) (f : Team → Team) : (s.modTeam k f).dev = s.dev := rfl
@[simp] theorem State.modTeam_queues (s : State) (k : Nat) (f : Team → Team) : (s.modTeam k f).queues = s.queues := rfl
@[simp] theorem State.modTeam_warm (s : State) (k : Nat) (f : Team → Team) : (s.modTeam k f).warm = s.warm := rfl
@[simp] theorem State.modTeam_launches (s : State) (k : Nat) (f : Team → Team) : (s.modTeam k f).launches = s.launches := rfl
@[simp] theorem State.modTeam_regions (s : State) (k : Nat) (f : Team → Team) : (s.modTeam k f).regions = s.regions := rfl
@[simp] theorem State.modTeam_boxes (s : State) (k : Nat) (f : Team → Team) : (s.modTeam k f).boxes = s.boxes := rfl
@[simp] theorem State.modTeam_teams (s : State) (k : Nat) (f : Team → Team) : (s.modTeam k f).teams = SMap.adjust s.teams k f := rfl
@[simp] theorem State.modTeam_groups (s : State) (k : Nat) (f : Team → Team) : (s.modTeam k f).groups = s.groups := rfl
@[simp] theorem State.modTeam_ops (s : State) (k : Nat) (f : Team → Team) : (s.modTeam k f).ops = s.ops := rfl
@[simp] theorem State.modTeam_saved (s : State) (k : Nat) (f : Team → Team) : (s.modTeam k f).saved = s.saved := rfl
@[simp] theorem State.modTeam_mem (s : State) (k : Nat) (f : Team → Team) : (s.modTeam k f).mem = s.mem := rfl
@[simp] theorem State.modTeam_fab (s : State) (k : Nat) (f : Team → Team) : (s.modTeam k f).fab = s.fab := rfl
@[simp] theorem State.modTeam_porter (s : State) (k : Nat) (f : Team → Team) : (s.modTeam k f).porter = s.porter := rfl
@[simp] theorem State.modTeam_flits (s : State) (k : Nat) (f : Team → Team) : (s.modTeam k f).flits = s.flits := rfl
@[simp] theorem State.modTeam_snaps (s : State) (k : Nat) (f : Team → Team) : (s.modTeam k f).snaps = s.snaps := rfl
@[simp] theorem State.modTeam_firstTouch (s : State) (k : Nat) (f : Team → Team) : (s.modTeam k f).firstTouch = s.firstTouch := rfl
@[simp] theorem State.modTeam_convoys (s : State) (k : Nat) (f : Team → Team) : (s.modTeam k f).convoys = s.convoys := rfl
@[simp] theorem State.modTeam_assay (s : State) (k : Nat) (f : Team → Team) : (s.modTeam k f).assay = s.assay := rfl
@[simp] theorem State.modTeam_log (s : State) (k : Nat) (f : Team → Team) : (s.modTeam k f).log = s.log := rfl

/-! ## `State.modLaunch` -/

@[simp] theorem State.modLaunch_tick (s : State) (k : Nat) (f : Launch → Launch) : (s.modLaunch k f).tick = s.tick := rfl
@[simp] theorem State.modLaunch_free (s : State) (k : Nat) (f : Launch → Launch) : (s.modLaunch k f).free = s.free := rfl
@[simp] theorem State.modLaunch_cur (s : State) (k : Nat) (f : Launch → Launch) : (s.modLaunch k f).cur = s.cur := rfl
@[simp] theorem State.modLaunch_nextId (s : State) (k : Nat) (f : Launch → Launch) : (s.modLaunch k f).nextId = s.nextId := rfl
@[simp] theorem State.modLaunch_inputs (s : State) (k : Nat) (f : Launch → Launch) : (s.modLaunch k f).inputs = s.inputs := rfl
@[simp] theorem State.modLaunch_dev (s : State) (k : Nat) (f : Launch → Launch) : (s.modLaunch k f).dev = s.dev := rfl
@[simp] theorem State.modLaunch_queues (s : State) (k : Nat) (f : Launch → Launch) : (s.modLaunch k f).queues = s.queues := rfl
@[simp] theorem State.modLaunch_warm (s : State) (k : Nat) (f : Launch → Launch) : (s.modLaunch k f).warm = s.warm := rfl
@[simp] theorem State.modLaunch_launches (s : State) (k : Nat) (f : Launch → Launch) : (s.modLaunch k f).launches = SMap.adjust s.launches k f := rfl
@[simp] theorem State.modLaunch_regions (s : State) (k : Nat) (f : Launch → Launch) : (s.modLaunch k f).regions = s.regions := rfl
@[simp] theorem State.modLaunch_boxes (s : State) (k : Nat) (f : Launch → Launch) : (s.modLaunch k f).boxes = s.boxes := rfl
@[simp] theorem State.modLaunch_teams (s : State) (k : Nat) (f : Launch → Launch) : (s.modLaunch k f).teams = s.teams := rfl
@[simp] theorem State.modLaunch_groups (s : State) (k : Nat) (f : Launch → Launch) : (s.modLaunch k f).groups = s.groups := rfl
@[simp] theorem State.modLaunch_ops (s : State) (k : Nat) (f : Launch → Launch) : (s.modLaunch k f).ops = s.ops := rfl
@[simp] theorem State.modLaunch_saved (s : State) (k : Nat) (f : Launch → Launch) : (s.modLaunch k f).saved = s.saved := rfl
@[simp] theorem State.modLaunch_mem (s : State) (k : Nat) (f : Launch → Launch) : (s.modLaunch k f).mem = s.mem := rfl
@[simp] theorem State.modLaunch_fab (s : State) (k : Nat) (f : Launch → Launch) : (s.modLaunch k f).fab = s.fab := rfl
@[simp] theorem State.modLaunch_porter (s : State) (k : Nat) (f : Launch → Launch) : (s.modLaunch k f).porter = s.porter := rfl
@[simp] theorem State.modLaunch_flits (s : State) (k : Nat) (f : Launch → Launch) : (s.modLaunch k f).flits = s.flits := rfl
@[simp] theorem State.modLaunch_snaps (s : State) (k : Nat) (f : Launch → Launch) : (s.modLaunch k f).snaps = s.snaps := rfl
@[simp] theorem State.modLaunch_firstTouch (s : State) (k : Nat) (f : Launch → Launch) : (s.modLaunch k f).firstTouch = s.firstTouch := rfl
@[simp] theorem State.modLaunch_convoys (s : State) (k : Nat) (f : Launch → Launch) : (s.modLaunch k f).convoys = s.convoys := rfl
@[simp] theorem State.modLaunch_assay (s : State) (k : Nat) (f : Launch → Launch) : (s.modLaunch k f).assay = s.assay := rfl
@[simp] theorem State.modLaunch_log (s : State) (k : Nat) (f : Launch → Launch) : (s.modLaunch k f).log = s.log := rfl

/-! ## `State.modOp` -/

@[simp] theorem State.modOp_tick (s : State) (k : Nat) (f : Op → Op) : (s.modOp k f).tick = s.tick := rfl
@[simp] theorem State.modOp_free (s : State) (k : Nat) (f : Op → Op) : (s.modOp k f).free = s.free := rfl
@[simp] theorem State.modOp_cur (s : State) (k : Nat) (f : Op → Op) : (s.modOp k f).cur = s.cur := rfl
@[simp] theorem State.modOp_nextId (s : State) (k : Nat) (f : Op → Op) : (s.modOp k f).nextId = s.nextId := rfl
@[simp] theorem State.modOp_inputs (s : State) (k : Nat) (f : Op → Op) : (s.modOp k f).inputs = s.inputs := rfl
@[simp] theorem State.modOp_dev (s : State) (k : Nat) (f : Op → Op) : (s.modOp k f).dev = s.dev := rfl
@[simp] theorem State.modOp_queues (s : State) (k : Nat) (f : Op → Op) : (s.modOp k f).queues = s.queues := rfl
@[simp] theorem State.modOp_warm (s : State) (k : Nat) (f : Op → Op) : (s.modOp k f).warm = s.warm := rfl
@[simp] theorem State.modOp_launches (s : State) (k : Nat) (f : Op → Op) : (s.modOp k f).launches = s.launches := rfl
@[simp] theorem State.modOp_regions (s : State) (k : Nat) (f : Op → Op) : (s.modOp k f).regions = s.regions := rfl
@[simp] theorem State.modOp_boxes (s : State) (k : Nat) (f : Op → Op) : (s.modOp k f).boxes = s.boxes := rfl
@[simp] theorem State.modOp_teams (s : State) (k : Nat) (f : Op → Op) : (s.modOp k f).teams = s.teams := rfl
@[simp] theorem State.modOp_groups (s : State) (k : Nat) (f : Op → Op) : (s.modOp k f).groups = s.groups := rfl
@[simp] theorem State.modOp_ops (s : State) (k : Nat) (f : Op → Op) : (s.modOp k f).ops = SMap.adjust s.ops k f := rfl
@[simp] theorem State.modOp_saved (s : State) (k : Nat) (f : Op → Op) : (s.modOp k f).saved = s.saved := rfl
@[simp] theorem State.modOp_mem (s : State) (k : Nat) (f : Op → Op) : (s.modOp k f).mem = s.mem := rfl
@[simp] theorem State.modOp_fab (s : State) (k : Nat) (f : Op → Op) : (s.modOp k f).fab = s.fab := rfl
@[simp] theorem State.modOp_porter (s : State) (k : Nat) (f : Op → Op) : (s.modOp k f).porter = s.porter := rfl
@[simp] theorem State.modOp_flits (s : State) (k : Nat) (f : Op → Op) : (s.modOp k f).flits = s.flits := rfl
@[simp] theorem State.modOp_snaps (s : State) (k : Nat) (f : Op → Op) : (s.modOp k f).snaps = s.snaps := rfl
@[simp] theorem State.modOp_firstTouch (s : State) (k : Nat) (f : Op → Op) : (s.modOp k f).firstTouch = s.firstTouch := rfl
@[simp] theorem State.modOp_convoys (s : State) (k : Nat) (f : Op → Op) : (s.modOp k f).convoys = s.convoys := rfl
@[simp] theorem State.modOp_assay (s : State) (k : Nat) (f : Op → Op) : (s.modOp k f).assay = s.assay := rfl
@[simp] theorem State.modOp_log (s : State) (k : Nat) (f : Op → Op) : (s.modOp k f).log = s.log := rfl

/-! ## `State.select` -/

@[simp] theorem State.select_tick (s : State) (g : Nat) : (s.select g).tick = s.tick := rfl
@[simp] theorem State.select_free (s : State) (g : Nat) : (s.select g).free = s.free := rfl
@[simp] theorem State.select_cur (s : State) (g : Nat) : (s.select g).cur = g := rfl
@[simp] theorem State.select_nextId (s : State) (g : Nat) : (s.select g).nextId = s.nextId := rfl
@[simp] theorem State.select_inputs (s : State) (g : Nat) : (s.select g).inputs = s.inputs := rfl
@[simp] theorem State.select_dev (s : State) (g : Nat) : (s.select g).dev = s.dev := rfl
@[simp] theorem State.select_queues (s : State) (g : Nat) : (s.select g).queues = s.queues := rfl
@[simp] theorem State.select_warm (s : State) (g : Nat) : (s.select g).warm = s.warm := rfl
@[simp] theorem State.select_launches (s : State) (g : Nat) : (s.select g).launches = s.launches := rfl
@[simp] theorem State.select_regions (s : State) (g : Nat) : (s.select g).regions = s.regions := rfl
@[simp] theorem State.select_boxes (s : State) (g : Nat) : (s.select g).boxes = s.boxes := rfl
@[simp] theorem State.select_teams (s : State) (g : Nat) : (s.select g).teams = s.teams := rfl
@[simp] theorem State.select_groups (s : State) (g : Nat) : (s.select g).groups = s.groups := rfl
@[simp] theorem State.select_ops (s : State) (g : Nat) : (s.select g).ops = s.ops := rfl
@[simp] theorem State.select_saved (s : State) (g : Nat) : (s.select g).saved = s.saved := rfl
@[simp] theorem State.select_mem (s : State) (g : Nat) : (s.select g).mem = s.mem := rfl
@[simp] theorem State.select_fab (s : State) (g : Nat) : (s.select g).fab = s.fab := rfl
@[simp] theorem State.select_porter (s : State) (g : Nat) : (s.select g).porter = s.porter := rfl
@[simp] theorem State.select_flits (s : State) (g : Nat) : (s.select g).flits = s.flits := rfl
@[simp] theorem State.select_snaps (s : State) (g : Nat) : (s.select g).snaps = s.snaps := rfl
@[simp] theorem State.select_firstTouch (s : State) (g : Nat) : (s.select g).firstTouch = s.firstTouch := rfl
@[simp] theorem State.select_convoys (s : State) (g : Nat) : (s.select g).convoys = s.convoys := rfl
@[simp] theorem State.select_assay (s : State) (g : Nat) : (s.select g).assay = s.assay := rfl
@[simp] theorem State.select_log (s : State) (g : Nat) : (s.select g).log = s.log := rfl

@[simp] theorem State.report_tick (s : State) (r : Report) : (s.report r).tick = s.tick := rfl
@[simp] theorem State.report_free (s : State) (r : Report) : (s.report r).free = s.free := rfl
@[simp] theorem State.report_cur (s : State) (r : Report) : (s.report r).cur = s.cur := rfl
@[simp] theorem State.report_nextId (s : State) (r : Report) : (s.report r).nextId = s.nextId := rfl
@[simp] theorem State.report_inputs (s : State) (r : Report) : (s.report r).inputs = s.inputs := rfl
@[simp] theorem State.report_dev (s : State) (r : Report) : (s.report r).dev = s.dev := rfl
@[simp] theorem State.report_queues (s : State) (r : Report) : (s.report r).queues = s.queues := rfl
@[simp] theorem State.report_warm (s : State) (r : Report) : (s.report r).warm = s.warm := rfl
@[simp] theorem State.report_launches (s : State) (r : Report) : (s.report r).launches = s.launches := rfl
@[simp] theorem State.report_regions (s : State) (r : Report) : (s.report r).regions = s.regions := rfl
@[simp] theorem State.report_boxes (s : State) (r : Report) : (s.report r).boxes = s.boxes := rfl
@[simp] theorem State.report_teams (s : State) (r : Report) : (s.report r).teams = s.teams := rfl
@[simp] theorem State.report_groups (s : State) (r : Report) : (s.report r).groups = s.groups := rfl
@[simp] theorem State.report_ops (s : State) (r : Report) : (s.report r).ops = s.ops := rfl
@[simp] theorem State.report_saved (s : State) (r : Report) : (s.report r).saved = s.saved := rfl
@[simp] theorem State.report_mem (s : State) (r : Report) : (s.report r).mem = s.mem := rfl
@[simp] theorem State.report_fab (s : State) (r : Report) : (s.report r).fab = s.fab := rfl
@[simp] theorem State.report_porter (s : State) (r : Report) : (s.report r).porter = s.porter := rfl
@[simp] theorem State.report_flits (s : State) (r : Report) : (s.report r).flits = s.flits := rfl
@[simp] theorem State.report_snaps (s : State) (r : Report) : (s.report r).snaps = s.snaps := rfl
@[simp] theorem State.report_firstTouch (s : State) (r : Report) : (s.report r).firstTouch = s.firstTouch := rfl
@[simp] theorem State.report_convoys (s : State) (r : Report) : (s.report r).convoys = s.convoys := rfl
@[simp] theorem State.report_assay (s : State) (r : Report) : (s.report r).assay = s.assay := rfl
@[simp] theorem State.report_log (s : State) (r : Report) : (s.report r).log = { s.log with reports := s.log.reports ++ [r] } := rfl

end Sys2Proof.Machine
end

