-- ==== Sys2Proof/Laws/Ops.lean ====
section
/-! SUPPORT. What the shared operations over the state do: the frame of an instruction, its ends, and device steps. -/
namespace Sys2Proof.Machine

/-! ## Results -/

@[simp] theorem Res.ok_bind {α β : Type} (a : α) (f : α → Res β) : ((Except.ok a : Res α) >>= f) = f a := rfl
@[simp] theorem Res.error_bind {α β : Type} (e : Stop) (f : α → Res β) : ((Except.error e : Res α) >>= f) = .error e := rfl
@[simp] theorem guardOp_true : guardOp true = .ok () := rfl
@[simp] theorem guardOp_false : guardOp false = .error (.trap { cause := 0x02 }) := rfl
@[simp] theorem illegal_eq {α : Type} : (illegal : Res α) = .error (.trap { cause := 0x02 }) := rfl
@[simp] theorem trap_eq {α : Type} (x : BitVec 8) (a : Word) : (trap x a : Res α) = .error (.trap { cause := x, addr := a }) := rfl

/-! ## The frame -/

/-- Everything that a frame says about the state. -/
theorem State.ctx?_spec {s : State} {gid : Nat} {c : Ctx} (h : s.ctx? gid = some c) :
    c.gid = gid ∧ s.group? gid = some c.g ∧ s.team? c.g.team = some c.t ∧ c.lid = c.t.launch ∧ s.launch? c.t.launch = some c.l
      ∧ c.l.region.bind s.region? = some c.r ∧ (codeAt c.r c.g.hdr.toNat).bind decodeHeader = some c.h := by
  simp only [State.ctx?, Option.bind_eq_bind, Option.bind_eq_some_iff, Option.pure_def, Option.some.injEq] at h
  obtain ⟨g, hg, t, ht, l, hl, k, hk, r, hr, w, hw, hd, hh, rfl⟩ := h
  simp [hg, ht, hl, hk, hr, hw, hh]

/-- An instruction whose body takes its effect. -/
theorem runInstr_ok {s s' : State} {c : Ctx} {body : Ctx → State → Res State} (h : Issues s c) (hb : body c s = .ok s') :
    runInstr body s = .next (c.done s') := by
  simp [runInstr, runWith, h.1, h.2, hb, Ctx.done, Ctx.ended]

theorem runControl_ok {s s' : State} {c : Ctx} {body : Ctx → State → Res State} (h : Issues s c) (hb : body c s = .ok s') :
    runControl body s = .next (c.ended s') := by
  simp [runControl, runWith, h.1, h.2, hb, Ctx.ended]

/-- An instruction that traps. -/
theorem runInstr_trap {s : State} {c : Ctx} {x : Trap} {body : Ctx → State → Res State} (h : Issues s c)
    (hb : body c s = .error (.trap x)) : runInstr body s = .next (c.takeTrap x (c.settled s)) := by
  simp [runInstr, runWith, h.1, h.2, hb]

theorem runControl_trap {s : State} {c : Ctx} {x : Trap} {body : Ctx → State → Res State} (h : Issues s c)
    (hb : body c s = .error (.trap x)) : runControl body s = .next (c.takeTrap x (c.settled s)) := by
  simp [runControl, runWith, h.1, h.2, hb]

/-- An instruction that waits leaves its port. -/
theorem runInstr_wait {s s' : State} {c : Ctx} {body : Ctx → State → Res State} (h : Issues s c)
    (hb : body c s = .error (.wait s')) : runInstr body s = .next (c.waitHere s') := by
  simp [runInstr, runWith, h.1, h.2, hb]

/-- A group that has popped no stream vector has nothing to raise. -/
theorem Ctx.raisePopped_of_none {c : Ctx} {s : State} (h : ∀ g, s.group? c.gid = some g → g.popFp = 0 ∧ g.popSubst = 0) :
    c.raisePopped s = s := by
  unfold Ctx.raisePopped
  cases hg : s.group? c.gid with
  | none => rfl
  | some g => simp [h g hg]

/-- No instruction is refused, and none faults but for want of an issuing group. -/
theorem runWith_cases (done : Ctx → State → State) (body : Ctx → State → Res State) (s : State) :
    (∃ t, runWith done body s = .next t) ∨ runWith done body s = .fault .noIssuingGroup := by
  unfold runWith
  split
  · exact .inr rfl
  · split
    · exact .inr rfl
    · split <;> exact .inl ⟨_, rfl⟩

/-- With an issuing group an instruction answers a next state. -/
theorem runWith_next {done : Ctx → State → State} {body : Ctx → State → Res State} {s : State} {c : Ctx} (h : Issues s c) :
    ∃ t, runWith done body s = .next t := by
  simp only [runWith, h.1, h.2, ne_eq, not_true_eq_false, if_false]
  split <;> exact ⟨_, rfl⟩

/-- Forgetting what a group asked of the porter moves it nowhere. -/
theorem Group.keepWants_spec (g : Group) (r : Region) :
    (g.keepWants r).hdr = g.hdr ∧ (g.keepWants r).idx = g.idx ∧ (g.keepWants r).phase = g.phase ∧ (g.keepWants r).clauses = g.clauses := by
  simp only [Group.keepWants]
  repeat' split
  all_goals exact ⟨rfl, rfl, rfl, rfl⟩

/-! ## Device steps -/

theorem event_some {f : State → Option State} {s t : State} (h : f s = some t) : event f s = .next t := by
  simp [event, h]

theorem event_none {f : State → Option State} {s : State} (h : f s = none) : event f s = .next s := by
  simp [event, h]

theorem event_next (f : State → Option State) (s : State) : ∃ t, event f s = .next t := ⟨_, rfl⟩

/-! ## Groups -/

theorem SMap.entry?_adjust_self {α : Type} (m : SMap α) (k : Nat) (f : α → α) : entry? (adjust m k f) k = (entry? m k).map f := by
  unfold adjust
  cases h : entry? m k with
  | none => simp [h]
  | some v => simp

@[simp] theorem State.group?_setGroup_self (s : State) (k : Nat) (g : Group) : (s.setGroup k g).group? k = some g := by
  simp [State.group?, State.setGroup]

@[simp] theorem State.group?_modGroup_self (s : State) (k : Nat) (f : Group → Group) :
    (s.modGroup k f).group? k = (s.group? k).map f := SMap.entry?_adjust_self _ _ _

@[simp] theorem State.team?_setGroup (s : State) (k j : Nat) (g : Group) : (s.setGroup k g).team? j = s.team? j := rfl
@[simp] theorem State.team?_modGroup (s : State) (k j : Nat) (f : Group → Group) : (s.modGroup k f).team? j = s.team? j := rfl
@[simp] theorem State.launch?_setGroup (s : State) (k j : Nat) (g : Group) : (s.setGroup k g).launch? j = s.launch? j := rfl
@[simp] theorem State.launch?_modGroup (s : State) (k j : Nat) (f : Group → Group) : (s.modGroup k f).launch? j = s.launch? j := rfl

/-- A state in which a group is given what it already holds is the same state. -/
theorem State.modGroup_of_some {s : State} {k : Nat} {g : Group} (f : Group → Group) (h : s.group? k = some g) :
    s.modGroup k f = s.setGroup k (f g) := by
  simp only [State.group?] at h
  simp [State.modGroup, State.setGroup, SMap.adjust, h]

end Sys2Proof.Machine
end

