-- ==== Sys2Proof/Laws/Engines.lean ====
section
/-! SUPPORT. What stopped engines leave alone: they change memory, the wafer cache, the shares of teams and their own
operations, and nothing else of the state. -/
namespace Sys2Proof.Machine

/-- Two states that differ by what engines do alone. -/
def State.SameButEngines (s t : State) : Prop :=
  { t with mem := s.mem, fab := s.fab, teams := s.teams, ops := s.ops, free := s.free } = s

namespace State.SameButEngines

variable {s t u : State}

theorem rfl' (s : State) : s.SameButEngines s := rfl

theorem eq (h : s.SameButEngines t) : { t with mem := s.mem, fab := s.fab, teams := s.teams, ops := s.ops, free := s.free } = s := h

theorem trans (h : s.SameButEngines t) (h' : t.SameButEngines u) : s.SameButEngines u :=
  ((congrArg (fun x : State => { x with mem := s.mem, fab := s.fab, teams := s.teams, ops := s.ops, free := s.free }) h'.eq :) :
    _ = { t with mem := s.mem, fab := s.fab, teams := s.teams, ops := s.ops, free := s.free }).trans h.eq

theorem ofStore (h : s.SameButStore t) : s.SameButEngines t := by
  have e := congrArg (fun x : State => { x with teams := s.teams, ops := s.ops, free := s.free }) h.eq
  exact e

theorem groups (h : s.SameButEngines t) : t.groups = s.groups := (congrArg State.groups h.eq :)
theorem launches (h : s.SameButEngines t) : t.launches = s.launches := (congrArg State.launches h.eq :)
theorem saved (h : s.SameButEngines t) : t.saved = s.saved := (congrArg State.saved h.eq :)
theorem convoys (h : s.SameButEngines t) : t.convoys = s.convoys := (congrArg State.convoys h.eq :)
theorem queues (h : s.SameButEngines t) : t.queues = s.queues := (congrArg State.queues h.eq :)
theorem regions (h : s.SameButEngines t) : t.regions = s.regions := (congrArg State.regions h.eq :)
theorem boxes (h : s.SameButEngines t) : t.boxes = s.boxes := (congrArg State.boxes h.eq :)
theorem snaps (h : s.SameButEngines t) : t.snaps = s.snaps := (congrArg State.snaps h.eq :)
theorem firstTouch (h : s.SameButEngines t) : t.firstTouch = s.firstTouch := (congrArg State.firstTouch h.eq :)
theorem dev (h : s.SameButEngines t) : t.dev = s.dev := (congrArg State.dev h.eq :)
theorem log (h : s.SameButEngines t) : t.log = s.log := (congrArg State.log h.eq :)
theorem tick (h : s.SameButEngines t) : t.tick = s.tick := (congrArg State.tick h.eq :)
theorem nextId (h : s.SameButEngines t) : t.nextId = s.nextId := (congrArg State.nextId h.eq :)

end State.SameButEngines

/-! ## What engines do to a team -/

/-- Two values of a team that differ in its scratchpad share alone. -/
def Team.SameButShare (t u : Team) : Prop := { u with spad := t.spad, fe := t.fe, spadPoison := t.spadPoison, bufs := t.bufs } = t

namespace Team.SameButShare

variable {t u v : Team}

theorem rfl' (t : Team) : t.SameButShare t := rfl

theorem eq (h : t.SameButShare u) : { u with spad := t.spad, fe := t.fe, spadPoison := t.spadPoison, bufs := t.bufs } = t := h

theorem trans (h : t.SameButShare u) (h' : u.SameButShare v) : t.SameButShare v :=
  ((congrArg (fun x : Team => { x with spad := t.spad, fe := t.fe, spadPoison := t.spadPoison, bufs := t.bufs }) h'.eq :) :
    _ = { u with spad := t.spad, fe := t.fe, spadPoison := t.spadPoison, bufs := t.bufs }).trans h.eq

theorem foldl {α : Type} {f : Team → α → Team} (hf : ∀ (t : Team) (a : α), t.SameButShare (f t a)) (l : List α) (t : Team) :
    t.SameButShare (l.foldl f t) := by
  induction l generalizing t with
  | nil => exact rfl' t
  | cons a l ih => exact (hf t a).trans (ih _)

theorem launch (h : t.SameButShare u) : u.launch = t.launch := (congrArg Team.launch h.eq :)
theorem place (h : t.SameButShare u) : u.place = t.place := (congrArg Team.place h.eq :)
theorem side (h : t.SameButShare u) : u.side = t.side := (congrArg Team.side h.eq :)
theorem peer (h : t.SameButShare u) : u.peer = t.peer := (congrArg Team.peer h.eq :)

end Team.SameButShare

theorem Team.countFill_sameButShare (t : Team) (offs : List Nat) (engine : Bool) : t.SameButShare (t.countFill offs engine) := by
  refine Team.SameButShare.foldl (fun t off => ?_) _ _
  dsimp only
  split
  · rfl
  · split
    · split <;> rfl
    · split <;> rfl
    · rfl

theorem Team.spadWrite_sameButShare (t : Team) (ws : List (Nat × Byte × Byte)) (engine : Bool) : t.SameButShare (t.spadWrite ws engine) := by
  unfold Team.spadWrite
  dsimp only
  refine Team.SameButShare.trans ?_ (Team.countFill_sameButShare _ _ _)
  rfl

/-! ## Relations that every act of an engine keeps -/

/-- A relation between states that the acts of engines keep: writes of memory and of shares, and changes of operations. -/
structure EngineRel (R : State → State → Prop) : Prop where
  refl : ∀ s, R s s
  trans : ∀ {s t u}, R s t → R t u → R s u
  store : ∀ {s t}, s.SameButStore t → R s t
  setOp : ∀ (s : State) k o, R s (s.setOp k o)
  delOp : ∀ (s : State) k, R s { s with ops := SMap.del s.ops k }
  setFree : ∀ (s : State) n, R s { s with free := n }
  share : ∀ (s : State) k f, (∀ t : Team, t.SameButShare (f t)) → R s (s.modTeam k f)

namespace EngineRel

variable {R : State → State → Prop} (h : EngineRel R)
include h

theorem foldl {α : Type} {f : State → α → State} (hf : ∀ (s : State) (a : α), R s (f s a)) (l : List α) (s : State) :
    R s (l.foldl f s) := by
  induction l generalizing s with
  | nil => exact h.refl s
  | cons a l ih => exact h.trans (hf s a) (ih _)

/-- The same of a fold that carries something beside the state. -/
theorem foldl_snd {α β : Type} {f : β × State → α → β × State} (hf : ∀ b (s : State) a, R s (f (b, s) a).2) (l : List α)
    (b : β) (s : State) : R s (l.foldl f (b, s)).2 := by
  induction l generalizing b s with
  | nil => exact h.refl s
  | cons a l ih => exact h.trans (hf b s a) (ih _ _)

theorem settled (s : State) (locs : List Nat) : R s (settleEverywhere s locs) := h.store (State.SameButStore.setFab _ _)

theorem readWord (s : State) (t gid word : Nat) : R s (Machine.readWord s t gid word).2 := by
  unfold Machine.readWord
  dsimp only
  split
  · exact h.refl s
  · split
    · split
      · exact h.store (State.SameButStore.setFab _ _)
      · split <;> exact h.refl s
    · split
      · exact h.setFree _ _
      · exact h.trans (h.setFree s (s.free + 1)) (h.store (State.SameButStore.setFab _ _))

theorem readLocs (s : State) (t gid : Nat) (locs : List Nat) : R s (Machine.readLocs s t gid locs).2 :=
  h.foldl_snd (f := fun (x : List (Nat × List Byte) × State) w =>
    let r := Machine.readWord x.2 t gid w; ((w, r.1) :: x.1, r.2)) (fun _ s w => h.readWord s t gid w) _ [] s

theorem engineRead (s : State) (core gid : Nat) (xs : List Site) : R s (Machine.engineRead s core gid xs).2 := h.readLocs _ _ _ _

theorem engineWrite (s : State) (core : Nat) (ws : List (Site × Carried)) : R s (Machine.engineWrite s core ws) := by
  have key (s : State) (t : Nat) (mine : List (Nat × Carried)) : R s (s.modTeam t fun tm =>
      let tm := (tm.spadWrite (mine.map fun x => (x.1, x.2.val, x.2.mask)) true).setGranules (mine.map (·.1)) true
      mine.foldl (fun tm x => match x.2.tag with | some g => tm.addSpadPoison (x.1 / 32) g | none => tm) tm) := by
    refine h.share s t _ fun tm => ?_
    dsimp only
    refine ((Team.spadWrite_sameButShare tm (mine.map fun x => (x.1, x.2.val, x.2.mask)) true).trans ?_).trans (Team.SameButShare.foldl (fun tm x => ?_) _ _)
    · rfl
    · split <;> rfl
  unfold Machine.engineWrite
  dsimp only
  split
  · exact h.foldl (fun s t => key s t _) _ _
  · exact h.trans (h.foldl (fun s t => key s t _) _ _)
      (h.store (((writeHome_sameButStore _ _ _ _).then_setFab _).then_setFab _))

theorem freeLines (s : State) (k : Nat) (locs : List Nat) : R s (Machine.freeLines s k locs) := h.store (freeLines_sameButStore _ _ _)

theorem noteWritten (s : State) (k : Nat) (o : Op) (ls done rest : List Nat) : R s (Machine.noteWritten s k o ls done rest) := by
  unfold Machine.noteWritten freeWritten
  dsimp only
  exact h.trans (h.freeLines _ _ _) (h.setOp _ _ _)

theorem copyBytes (s : State) (core gid tid : Nat) (zs : List (Site × Site)) : R s (Machine.copyBytes s core gid tid zs) := by
  have e := h.engineRead s core gid (zs.map (·.1))
  unfold Machine.copyBytes
  generalize Machine.engineRead s core gid (zs.map (·.1)) = r at e ⊢
  refine h.trans (h.trans e ?_) (h.engineWrite _ _ _)
  refine h.foldl_snd (fun b s z => ?_) _ _ _
  split
  · exact h.setFree _ _
  · exact h.refl s

theorem copySome (s : State) (k : Nat) (o : Op) (w : Who) (x : Copy) (tid : Nat) : R s (Machine.copySome s k o w x tid) := by
  unfold Machine.copySome
  dsimp only
  split
  · exact h.setFree _ _
  · unfold copyUpTo freeWritten
    dsimp only
    exact h.trans (h.setFree s (s.free + 1)) (h.trans (h.trans (h.copyBytes _ _ _ _ _) (h.freeLines _ _ _)) (h.setOp _ _ _))

/-- A step that may not be made leaves the state as it is. -/
theorem getD {s : State} {o : Option State} (ho : ∀ t, o = some t → R s t) : R s (o.getD s) := by
  cases o with
  | none => exact h.refl s
  | some t => exact ho t rfl

theorem stopCopy (s : State) (k : Nat) : R s (Machine.stopCopy s k) := by
  refine h.getD fun t ht => ?_
  simp only [Option.bind_eq_bind, Option.bind_eq_some_iff, Option.pure_def] at ht
  obtain ⟨o, -, ht⟩ := ht
  split at ht
  · simp only [Option.bind_eq_some_iff] at ht
    obtain ⟨f, -, w, -, x, -, tid, -, ht⟩ := ht
    split at ht
    · exact absurd ht (by simp)
    · cases ht
      exact h.copySome _ _ _ _ _ _
  · exact absurd ht (by simp)

theorem mstWrite {s t : State} {k : Nat} {o : Op} {w : Who} {ws : List (Nat × Site × Carried)}
    (hw : Machine.mstWrite s k o w ws = some t) : R s t := by
  unfold Machine.mstWrite at hw
  dsimp only at hw
  split at hw
  · exact absurd hw (by simp)
  · cases hw
    exact h.trans (h.trans (h.store (writeBack_sameButStore _ _)) (h.engineWrite _ _ _)) (h.settled _ _)

theorem stopMst (s : State) (k : Nat) : R s (Machine.stopMst s k) := by
  refine h.getD fun t ht => ?_
  simp only [Option.bind_eq_bind, Option.bind_eq_some_iff, Option.pure_def] at ht
  obtain ⟨o, -, ht⟩ := ht
  split at ht
  · simp only [Option.bind_eq_some_iff] at ht
    obtain ⟨f, -, w, -, ht⟩ := ht
    split at ht
    · exact absurd ht (by simp)
    · simp only [Option.bind_eq_some_iff] at ht
      obtain ⟨ws, -, u, hu, ht⟩ := ht
      cases ht
      exact h.trans (h.trans (h.setFree s _) (h.mstWrite hu)) (h.noteWritten _ _ _ _ _ _)
  · exact absurd ht (by simp)

theorem collValues (s : State) (x : Command) (plans : List CollPlan) : R s (Machine.collValues s x plans).2.2 := by
  unfold Machine.collValues
  dsimp only
  refine h.trans (h.foldl (fun s p => h.store (writeBack_sameButStore s _)) plans s) (h.foldl_snd ?_ _ _ _)
  intro b s p
  exact h.engineRead _ _ _ _

theorem stopColl (s : State) (k : Nat) : R s (Machine.stopColl s k) := by
  refine h.getD fun t ht => ?_
  simp only [Option.bind_eq_bind, Option.bind_eq_some_iff, Option.pure_def] at ht
  obtain ⟨o, -, tm, -, xp, -, pa, -, ht⟩ := ht
  cases ht
  refine h.trans (h.trans (h.collValues s xp.1 xp.2) ?_) (h.noteWritten _ _ _ _ _ _)
  exact h.trans (h.setFree _ _) (h.trans (h.engineWrite _ _ _) (h.settled _ _))

theorem haltEngines (s : State) (gids : List Nat) : R s (Machine.haltEngines s gids) := by
  refine h.foldl (fun s e => ?_) _ _
  unfold stopEngine
  split
  · exact h.stopCopy _ _
  · exact h.stopMst _ _
  · exact h.stopColl _ _
  · exact h.refl s

theorem dropEngines (s : State) (gids : List Nat) (all : Bool) : R s (Machine.dropEngines s gids all) := by
  refine h.foldl (fun s e => ?_) _ _
  split
  · exact h.trans (h.delOp s e.1) (h.freeLines _ _ _)
  · exact h.refl s

theorem stopEngines (s : State) (gids : List Nat) (all : Bool) : R s (Machine.stopEngines s gids all) :=
  h.trans (h.haltEngines s gids) (h.dropEngines _ _ _)

end EngineRel

/-! ## The relations -/

theorem sameButEngines_engineRel : EngineRel State.SameButEngines where
  refl := State.SameButEngines.rfl'
  trans := State.SameButEngines.trans
  store := State.SameButEngines.ofStore
  setOp _ _ _ := rfl
  delOp _ _ := rfl
  setFree _ _ := rfl
  share _ _ _ _ := rfl

/-- A team keeps its number, but for its share. -/
def TeamsKept (s t : State) : Prop := ∀ k v, s.team? k = some v → ∃ v', t.team? k = some v' ∧ v.SameButShare v'

theorem teamsKept_engineRel : EngineRel TeamsKept where
  refl _ _ v hv := ⟨v, hv, rfl⟩
  trans h h' k v hv := by
    obtain ⟨u, hu, e⟩ := h k v hv
    obtain ⟨w, hw, e'⟩ := h' k u hu
    exact ⟨w, hw, e.trans e'⟩
  store h k v hv := ⟨v, by rw [State.team?, h.teams]; exact hv, rfl⟩
  setOp _ _ _ _ v hv := ⟨v, hv, rfl⟩
  delOp _ _ _ v hv := ⟨v, hv, rfl⟩
  setFree _ _ _ v hv := ⟨v, hv, rfl⟩
  share s k f hf j v hv := by
    by_cases hj : j = k
    · subst hj
      exact ⟨f v, by simpa [State.team?, State.modTeam, SMap.entry?_adjust_self] using ⟨v, hv, rfl⟩, hf v⟩
    · refine ⟨v, ?_, rfl⟩
      simp only [State.team?, State.modTeam, SMap.adjust]
      split
      · rw [SMap.entry?_put_other _ _ hj]; exact hv
      · exact hv

/-- Every team stood before under its number, but for its share. -/
def TeamsFrom (s t : State) : Prop := ∀ e ∈ t.teams, ∃ e' ∈ s.teams, e'.1 = e.1 ∧ e'.2.SameButShare e.2

theorem teamsFrom_engineRel : EngineRel TeamsFrom where
  refl _ e he := ⟨e, he, rfl, rfl⟩
  trans h h' e he := by
    obtain ⟨u, hu, e1, e2⟩ := h' e he
    obtain ⟨w, hw, e3, e4⟩ := h u hu
    exact ⟨w, hw, e3.trans e1, e4.trans e2⟩
  store h e he := ⟨e, by rw [← h.teams]; exact he, rfl, rfl⟩
  setOp _ _ _ e he := ⟨e, he, rfl, rfl⟩
  delOp _ _ e he := ⟨e, he, rfl, rfl⟩
  setFree _ _ e he := ⟨e, he, rfl, rfl⟩
  share s k f hf e he := by
    simp only [State.modTeam, SMap.adjust] at he
    split at he
    · rename_i v hv
      rcases SMap.mem_put he with rfl | he
      · exact ⟨(k, v), SMap.mem_of_entry? hv, rfl, hf _⟩
      · exact ⟨e, he, rfl, rfl⟩
    · exact ⟨e, he, rfl, rfl⟩

/-- Where no engine works on a command, none stops. -/
theorem haltEngines_of_idle {s : State} (h : ∀ k o, s.op? k = some o → isEngineOp o.instr = false) (gids : List Nat) :
    haltEngines s gids = s := by
  have key (l : List (Nat × Op)) : l.foldl (fun s e => stopEngine s e.1) s = s := by
    induction l with
    | nil => rfl
    | cons e l ih =>
      have : stopEngine s e.1 = s := by
        unfold stopEngine
        cases ho : s.op? e.1 with
        | none => rfl
        | some o =>
          have hn := h _ _ ho
          rw [Option.map_some]
          split
          all_goals first
            | rfl
            | (rename_i h'; rw [Option.some.inj h'] at hn; exact absurd hn (by simp [isEngineOp]))
      rw [List.foldl_cons, this, ih]
  exact key _

end Sys2Proof.Machine
end

