-- ==== Sys2Proof/Laws/PerInstr.lean ====
section
/-! SUPPORT. For every instruction, as syntax: a word has 64 bits and an opcode that R141 assigns in bits [63:56]. -/
namespace Sys2Proof.Laws

/-- A word of 64 bits whose top byte is an opcode of R141. -/
def Opcoded (n : Nat) : Prop := n < 2 ^ 64 ∧ opcodeAssigned (fld n 56 8) = true

theorem opcoded_of_bounds {n op : Nat} (ho : opcodeAssigned op = true) (h8 : op < 256) (h1 : op * 2 ^ 56 ≤ n)
    (h2 : n < op * 2 ^ 56 + 2 ^ 56) : Opcoded n := by
  have : fld n 56 8 = op := by unfold fld; omega
  exact ⟨by omega, this ▸ ho⟩

/-! ## Bounds of the fields -/

theorem b2n_lt (b : Bool) : b2n b < 2 := by cases b <;> decide
theorem Spec.code_lt (x : Spec) : x.code < 256 := by cases x <;> simp only [Spec.code] <;> omega
theorem Src.code_lt (x : Src) : x.code < 2 ^ 15 := by
  have h1 := Spec.code_lt x.spec
  have h2 : x.pat.code < 8 := by cases x.pat <;> decide
  have h3 := x.par.isLt
  unfold Src.code; omega
theorem Ty.code_lt (x : Ty) : x.code < 16 := by cases x <;> decide
theorem Rnd.code_lt (x : Rnd) : x.code < 4 := by cases x <;> decide
theorem Fmt.code_lt (x : Fmt) : x.code < 32 := by cases x <;> decide
theorem Req.code_lt (x : Req) : x.code < 4 := by cases x <;> decide
theorem Hint.code_lt (x : Hint) : x.code < 4 := by cases x <;> decide
theorem Order.code_lt (x : Order) : x.code < 4 := by cases x <;> decide
theorem Scope.code_lt (x : Scope) : x.code < 8 := by cases x <;> decide
theorem Size.code_lt (x : Size) : x.code < 8 := by cases x <;> decide
theorem AtomOp.code_lt (x : AtomOp) : x.code < 16 := by cases x <;> decide
theorem BScope.code_lt (x : BScope) : x.code < 16 := by cases x <;> decide
theorem Semiring.code_lt (x : Semiring) : x.code < 8 := by cases x <;> decide
theorem AccFmt.code_lt (x : AccFmt) : x.code < 4 := by cases x <;> decide
theorem WItem.code_lt (x : WItem) : x.code < 16 := by cases x <;> decide
theorem BraSub.code_lt (x : BraSub) : x.code < 16 := by cases x <;> decide

/-! ## The formats -/

theorem OForm.pack_opcoded (f : OForm) {op : Nat} (ho : opcodeAssigned op = true) (h8 : op < 256) : Opcoded (f.pack op) := by
  have := Spec.code_lt f.d; have := Src.code_lt f.a; have := Src.code_lt f.b; have := Spec.code_lt f.c
  have := Ty.code_lt f.ty; have := Rnd.code_lt f.rnd; have := b2n_lt f.sat; have := b2n_lt f.ftz; have := b2n_lt f.uni
  apply opcoded_of_bounds ho h8 <;> unfold OForm.pack <;> omega

theorem QForm.pack_opcoded (f : QForm) {op : Nat} (ho : opcodeAssigned op = true) (h8 : op < 256) : Opcoded (f.pack op) := by
  have := Spec.code_lt f.d; have := Src.code_lt f.a; have := Src.code_lt f.b; have := Fmt.code_lt f.fmt
  have := Rnd.code_lt f.rnd; have := b2n_lt f.sat; have := b2n_lt f.ftz; have := b2n_lt f.uni
  apply opcoded_of_bounds ho h8 <;> unfold QForm.pack <;> omega

theorem IForm.pack_opcoded (f : IForm) {op : Nat} (ho : opcodeAssigned op = true) (h8 : op < 256) : Opcoded (f.pack op) := by
  have := Spec.code_lt f.d; have := Src.code_lt f.a; have := b2n_lt f.fill; have := f.imm.isLt
  apply opcoded_of_bounds ho h8 <;> unfold IForm.pack <;> omega

theorem MForm.pack_opcoded (f : MForm) {op : Nat} (ho : opcodeAssigned op = true) (h8 : op < 256) : Opcoded (f.pack op) := by
  have := Spec.code_lt f.data; have := Spec.code_lt f.addr; have := f.off.isLt; have := f.recIx.isLt; have := Req.code_lt f.req
  have := Hint.code_lt f.hint; have := Order.code_lt f.ord; have := Scope.code_lt f.scope; have := Size.code_lt f.size
  have := b2n_lt f.aux; have := b2n_lt f.fb
  apply opcoded_of_bounds ho h8 <;> unfold MForm.pack <;> omega

theorem AForm.pack_opcoded (f : AForm) {op : Nat} (ho : opcodeAssigned op = true) (h8 : op < 256) : Opcoded (f.pack op) := by
  have := Spec.code_lt f.data; have := Spec.code_lt f.addr; have := f.off.isLt; have := f.recIx.isLt; have := Req.code_lt f.req
  have := Hint.code_lt f.hint; have := Order.code_lt f.ord; have := Scope.code_lt f.scope; have := Size.code_lt f.size
  have := AtomOp.code_lt f.op; have := b2n_lt f.fb
  apply opcoded_of_bounds ho h8 <;> unfold AForm.pack <;> omega

theorem XForm.pack_opcoded (f : XForm) : Opcoded f.pack := by
  have := f.acc.isLt; have := f.slot.isLt; have := Spec.code_lt f.abase; have := f.aoff.isLt; have := f.chunks.isLt
  have := Semiring.code_lt f.sem; have := Fmt.code_lt f.afmt; have := b2n_lt f.col; have := b2n_lt f.skip; have := b2n_lt f.accum
  have := AccFmt.code_lt f.accf; have := b2n_lt f.sat; have := b2n_lt f.fb
  apply opcoded_of_bounds (op := 0x81) rfl (by omega) <;> simp only [XForm.pack] <;> omega

theorem EForm.pack_opcoded (f : EForm) : Opcoded f.pack := by
  have := f.place.isLt; have := Spec.code_lt f.src; have := Spec.code_lt f.dst; have := Spec.code_lt f.len; have := f.bar.isLt
  have := b2n_lt f.twoD; have := b2n_lt f.sig; have := b2n_lt f.fb
  apply opcoded_of_bounds (op := 0x70) rfl (by omega) <;> unfold EForm.pack <;> omega

theorem packC_opcoded {op kind sub index : Nat} (cond : Spec) (target : BitVec 32) (ho : opcodeAssigned op = true) (h8 : op < 256)
    (hk : kind < 16) (hs : sub < 16) (hi : index < 256) : Opcoded (packC op cond kind sub index target) := by
  have := Spec.code_lt cond; have := target.isLt
  apply opcoded_of_bounds ho h8 <;> unfold packC <;> omega

theorem packP_opcoded {op d a b c low : Nat} (ho : opcodeAssigned op = true) (h8 : op < 256) (hd : d < 256) (ha : a < 256)
    (hb : b < 256) (hc : c * 2 ^ 10 + low < 2 ^ 25) : Opcoded (packP op d a b c low) := by
  have e : packP op d a b c low = op * 2 ^ 56 + (d * 2 ^ 48 + (a * 2 ^ 40 + (b * 2 ^ 25 + (c * 2 ^ 10 + low)))) := by
    simp only [packP, Nat.add_assoc]
  have key (z : Nat) (hz : z < 2 ^ 25) : Opcoded (op * 2 ^ 56 + (d * 2 ^ 48 + (a * 2 ^ 40 + (b * 2 ^ 25 + z)))) := by
    clear e hc
    apply opcoded_of_bounds ho h8 <;> omega
  exact e ▸ key _ hc

theorem trap_opcoded (imm : BitVec 32) : Opcoded (0x92 * 2 ^ 56 + imm.toNat) := by
  have := imm.isLt
  apply opcoded_of_bounds (op := 0x92) rfl (by omega) <;> omega

theorem boxOp_opcoded {k : Nat} (d a : Spec) (p : BitVec 12) (hk : k < 16) :
    Opcoded (0x78 * 2 ^ 56 + d.code * 2 ^ 48 + a.code * 2 ^ 40 + k * 2 ^ 28 + p.toNat) := by
  have := Spec.code_lt d; have := Spec.code_lt a; have := p.isLt
  apply opcoded_of_bounds (op := 0x78) rfl (by omega) <;> omega

theorem box_opcoded (d a : Spec) (p : BitVec 12) : Opcoded (0x78 * 2 ^ 56 + d.code * 2 ^ 48 + a.code * 2 ^ 40 + p.toNat) := by
  have := Spec.code_lt d; have := Spec.code_lt a; have := p.isLt
  apply opcoded_of_bounds (op := 0x78) rfl (by omega) <;> omega

/-! ## The family -/

namespace Enc

/-- Every well-formed instruction's word has 64 bits and an assigned opcode. -/
def Statement (i : Instr) : Prop := i.wf = true → ∀ n, encode i = some n → Opcoded n

theorem of_row {i : Instr} (h : Opcoded (encodeRow i)) : Statement i := by
  intro _ n hn
  unfold encode at hn
  split at hn
  · cases hn
  · cases hn; exact h

theorem of_none {i : Instr} (h : encodeRow i = 0) : Statement i := by
  intro _ n hn
  rw [encode, if_pos h] at hn
  cases hn

theorem qtailWrite (q : Fin 64) (v : BitVec 32) : Statement (.qtailWrite q v) :=
  of_none rfl
theorem qctlEnable (q : Fin 64) (v : Word) : Statement (.qctlEnable q v) :=
  of_none rfl
theorem abortHead (q : Fin 64) : Statement (.abortHead q) :=
  of_none rfl
theorem rewrite (q : Fin 64) : Statement (.rewrite q) :=
  of_none rfl
theorem qcackWrite (q : Fin 64) (v : BitVec 32) : Statement (.qcackWrite q v) :=
  of_none rfl
theorem qstatClearStopped (q : Fin 64) : Statement (.qstatClearStopped q) :=
  of_none rfl
theorem queueSlotAccept (q : Fin 64) : Statement (.queueSlotAccept q) :=
  of_none rfl
theorem regionLoad (launch : Nat) : Statement (.regionLoad launch) :=
  of_none rfl
theorem regionRelease (region : Nat) : Statement (.regionRelease region) :=
  of_none rfl
theorem warmSlotImageWrite (slot : BitVec 8) (ptr : Word) : Statement (.warmSlotImageWrite slot ptr) :=
  of_none rfl
theorem warmSlotStaged (slot : BitVec 8) : Statement (.warmSlotStaged slot) :=
  of_none rfl
theorem teamDispatch (launch : Nat) : Statement (.teamDispatch launch) :=
  of_none rfl
theorem clauseIssue (group : Nat) : Statement (.clauseIssue group) :=
  of_none rfl
theorem clauseResume (group : Nat) : Statement (.clauseResume group) :=
  of_none rfl
theorem endLaunch (launch : Nat) : Statement (.endLaunch launch) :=
  of_none rfl
theorem instructionComplete (op : Nat) : Statement (.instructionComplete op) :=
  of_none rfl
theorem launchRetire (launch : Nat) : Statement (.launchRetire launch) :=
  of_none rfl
theorem mailboxFiring (box : Nat) : Statement (.mailboxFiring box) :=
  of_none rfl
theorem handlerLaunch (box : Nat) : Statement (.handlerLaunch box) :=
  of_none rfl
theorem nop : Statement .nop :=
  of_row (by exact packC_opcoded _ _ rfl (by omega) (by omega) (by omega) (by omega))
theorem bra (sub : BraSub) (cond : Spec) (target : BitVec 32) : Statement (.bra sub cond target) :=
  of_row (by have := BraSub.code_lt sub; exact packC_opcoded _ _ rfl (by omega) (by omega) (by omega) (by omega))
theorem brd (cond : Spec) (target : BitVec 32) : Statement (.brd cond target) :=
  of_row (by exact packC_opcoded _ _ rfl (by omega) (by omega) (by omega) (by omega))
theorem tokenIf : Statement .tokenIf :=
  of_row (by exact packC_opcoded _ _ rfl (by omega) (by omega) (by omega) (by omega))
theorem tokenLoop (target : BitVec 32) : Statement (.tokenLoop target) :=
  of_row (by exact packC_opcoded _ _ rfl (by omega) (by omega) (by omega) (by omega))
theorem joinIf (target : BitVec 32) : Statement (.joinIf target) :=
  of_row (by exact packC_opcoded _ _ rfl (by omega) (by omega) (by omega) (by omega))
theorem joinLoop (cond : Spec) (target : BitVec 32) : Statement (.joinLoop cond target) :=
  of_row (by exact packC_opcoded _ _ rfl (by omega) (by omega) (by omega) (by omega))
theorem brk (cond : Spec) : Statement (.brk cond) :=
  of_row (by exact packC_opcoded _ _ rfl (by omega) (by omega) (by omega) (by omega))
theorem cont (cond : Spec) : Statement (.cont cond) :=
  of_row (by exact packC_opcoded _ _ rfl (by omega) (by omega) (by omega) (by omega))
theorem brx (index : Spec) : Statement (.brx index) :=
  of_row (by have := Spec.code_lt index; exact packC_opcoded _ _ rfl (by omega) (by omega) (by omega) (by omega))
theorem call (cond : Spec) (slide : BitVec 4) (target : BitVec 32) : Statement (.call cond slide target) :=
  of_row (by have := slide.isLt; exact packC_opcoded _ _ rfl (by omega) (by omega) (by omega) (by omega))
theorem callx (cond : Spec) (slide : BitVec 4) (index : Spec) : Statement (.callx cond slide index) :=
  of_row (by have := Spec.code_lt index; have := slide.isLt; exact packC_opcoded _ _ rfl (by omega) (by omega) (by omega) (by omega))
theorem ret : Statement .ret :=
  of_row (by exact packC_opcoded _ _ rfl (by omega) (by omega) (by omega) (by omega))
theorem exit (cond : Spec) : Statement (.exit cond) :=
  of_row (by exact packC_opcoded _ _ rfl (by omega) (by omega) (by omega) (by omega))
theorem yield : Statement .yield :=
  of_row (by exact packC_opcoded _ _ rfl (by omega) (by omega) (by omega) (by omega))
theorem wsyncWait : Statement .wsyncWait :=
  of_row (by exact packC_opcoded _ _ rfl (by omega) (by omega) (by omega) (by omega))
theorem wsyncWb : Statement .wsyncWb :=
  of_row (by exact packC_opcoded _ _ rfl (by omega) (by omega) (by omega) (by omega))
theorem winfo (item : WItem) (dst : Spec) : Statement (.winfo item dst) :=
  of_row (by have := WItem.code_lt item; have := Spec.code_lt dst; exact packC_opcoded _ _ rfl (by omega) (by omega) (by omega) (by omega))
theorem pauseTime (n : BitVec 16) : Statement (.pauseTime n) :=
  of_row (by exact packC_opcoded _ _ rfl (by omega) (by omega) (by omega) (by omega))
theorem pauseRecv (n : BitVec 16) : Statement (.pauseRecv n) :=
  of_row (by exact packC_opcoded _ _ rfl (by omega) (by omega) (by omega) (by omega))
theorem pauseExpiry (group : Nat) : Statement (.pauseExpiry group) :=
  of_none rfl
theorem add (f : OForm) : Statement (.add f) :=
  of_row (OForm.pack_opcoded f rfl (by omega))
theorem sub (f : OForm) : Statement (.sub f) :=
  of_row (OForm.pack_opcoded f rfl (by omega))
theorem mul (f : OForm) : Statement (.mul f) :=
  of_row (OForm.pack_opcoded f rfl (by omega))
theorem mulh (f : OForm) : Statement (.mulh f) :=
  of_row (OForm.pack_opcoded f rfl (by omega))
theorem mad (f : OForm) : Statement (.mad f) :=
  of_row (OForm.pack_opcoded f rfl (by omega))
theorem and (f : OForm) : Statement (.and f) :=
  of_row (OForm.pack_opcoded f rfl (by omega))
theorem or (f : OForm) : Statement (.or f) :=
  of_row (OForm.pack_opcoded f rfl (by omega))
theorem xor (f : OForm) : Statement (.xor f) :=
  of_row (OForm.pack_opcoded f rfl (by omega))
theorem andn (f : OForm) : Statement (.andn f) :=
  of_row (OForm.pack_opcoded f rfl (by omega))
theorem shl (f : OForm) : Statement (.shl f) :=
  of_row (OForm.pack_opcoded f rfl (by omega))
theorem shr (f : OForm) : Statement (.shr f) :=
  of_row (OForm.pack_opcoded f rfl (by omega))
theorem sar (f : OForm) : Statement (.sar f) :=
  of_row (OForm.pack_opcoded f rfl (by omega))
theorem rot (f : OForm) : Statement (.rot f) :=
  of_row (OForm.pack_opcoded f rfl (by omega))
theorem min (f : OForm) : Statement (.min f) :=
  of_row (OForm.pack_opcoded f rfl (by omega))
theorem max (f : OForm) : Statement (.max f) :=
  of_row (OForm.pack_opcoded f rfl (by omega))
theorem sel (f : OForm) : Statement (.sel f) :=
  of_row (OForm.pack_opcoded f rfl (by omega))
theorem abs (f : OForm) : Statement (.abs f) :=
  of_row (OForm.pack_opcoded f rfl (by omega))
theorem neg (f : OForm) : Statement (.neg f) :=
  of_row (OForm.pack_opcoded f rfl (by omega))
theorem clz (f : OForm) : Statement (.clz f) :=
  of_row (OForm.pack_opcoded f rfl (by omega))
theorem popc (f : OForm) : Statement (.popc f) :=
  of_row (OForm.pack_opcoded f rfl (by omega))
theorem brev (f : OForm) : Statement (.brev f) :=
  of_row (OForm.pack_opcoded f rfl (by omega))
theorem bfe (f : OForm) : Statement (.bfe f) :=
  of_row (OForm.pack_opcoded f rfl (by omega))
theorem bfi (f : OForm) : Statement (.bfi f) :=
  of_row (OForm.pack_opcoded f rfl (by omega))
theorem cmp (f : OForm) : Statement (.cmp f) :=
  of_row (OForm.pack_opcoded f rfl (by omega))
theorem lea (f : OForm) : Statement (.lea f) :=
  of_row (OForm.pack_opcoded f rfl (by omega))
theorem mov (f : OForm) : Statement (.mov f) :=
  of_row (OForm.pack_opcoded f rfl (by omega))
theorem movi (f : IForm) : Statement (.movi f) :=
  of_row (IForm.pack_opcoded f rfl (by omega))
theorem addi (f : IForm) : Statement (.addi f) :=
  of_row (IForm.pack_opcoded f rfl (by omega))
theorem andi (f : IForm) : Statement (.andi f) :=
  of_row (IForm.pack_opcoded f rfl (by omega))
theorem ori (f : IForm) : Statement (.ori f) :=
  of_row (IForm.pack_opcoded f rfl (by omega))
theorem cmpi (f : IForm) : Statement (.cmpi f) :=
  of_row (IForm.pack_opcoded f rfl (by omega))
theorem idot4 (f : OForm) : Statement (.idot4 f) :=
  of_row (OForm.pack_opcoded f rfl (by omega))
theorem fadd (f : OForm) : Statement (.fadd f) :=
  of_row (OForm.pack_opcoded f rfl (by omega))
theorem fsub (f : OForm) : Statement (.fsub f) :=
  of_row (OForm.pack_opcoded f rfl (by omega))
theorem fmul (f : OForm) : Statement (.fmul f) :=
  of_row (OForm.pack_opcoded f rfl (by omega))
theorem ffma (f : OForm) : Statement (.ffma f) :=
  of_row (OForm.pack_opcoded f rfl (by omega))
theorem fmin (f : OForm) : Statement (.fmin f) :=
  of_row (OForm.pack_opcoded f rfl (by omega))
theorem fmax (f : OForm) : Statement (.fmax f) :=
  of_row (OForm.pack_opcoded f rfl (by omega))
theorem fminnm (f : OForm) : Statement (.fminnm f) :=
  of_row (OForm.pack_opcoded f rfl (by omega))
theorem fmaxnm (f : OForm) : Statement (.fmaxnm f) :=
  of_row (OForm.pack_opcoded f rfl (by omega))
theorem fcmp (f : OForm) : Statement (.fcmp f) :=
  of_row (OForm.pack_opcoded f rfl (by omega))
theorem fclass (f : OForm) : Statement (.fclass f) :=
  of_row (OForm.pack_opcoded f rfl (by omega))
theorem frnd (f : OForm) : Statement (.frnd f) :=
  of_row (OForm.pack_opcoded f rfl (by omega))
theorem fdiv (f : OForm) : Statement (.fdiv f) :=
  of_row (OForm.pack_opcoded f rfl (by omega))
theorem fsqrt (f : OForm) : Statement (.fsqrt f) :=
  of_row (OForm.pack_opcoded f rfl (by omega))
theorem fdot2 (f : OForm) : Statement (.fdot2 f) :=
  of_row (OForm.pack_opcoded f rfl (by omega))
theorem fabs (f : OForm) : Statement (.fabs f) :=
  of_row (OForm.pack_opcoded f rfl (by omega))
theorem fneg (f : OForm) : Statement (.fneg f) :=
  of_row (OForm.pack_opcoded f rfl (by omega))
theorem fexp2f (f : OForm) : Statement (.fexp2f f) :=
  of_row (OForm.pack_opcoded f rfl (by omega))
theorem flog2m (f : OForm) : Statement (.flog2m f) :=
  of_row (OForm.pack_opcoded f rfl (by omega))
theorem frcp (f : OForm) : Statement (.frcp f) :=
  of_row (OForm.pack_opcoded f rfl (by omega))
theorem frsq (f : OForm) : Statement (.frsq f) :=
  of_row (OForm.pack_opcoded f rfl (by omega))
theorem fsinpi (f : OForm) : Statement (.fsinpi f) :=
  of_row (OForm.pack_opcoded f rfl (by omega))
theorem fcospi (f : OForm) : Statement (.fcospi f) :=
  of_row (OForm.pack_opcoded f rfl (by omega))
theorem fldexp (f : OForm) : Statement (.fldexp f) :=
  of_row (OForm.pack_opcoded f rfl (by omega))
theorem fgetexp (f : OForm) : Statement (.fgetexp f) :=
  of_row (OForm.pack_opcoded f rfl (by omega))
theorem fgetman (f : OForm) : Statement (.fgetman f) :=
  of_row (OForm.pack_opcoded f rfl (by omega))
theorem fcvt (f : OForm) : Statement (.fcvt f) :=
  of_row (OForm.pack_opcoded f rfl (by omega))
theorem itof (f : OForm) : Statement (.itof f) :=
  of_row (OForm.pack_opcoded f rfl (by omega))
theorem ftoi (f : OForm) : Statement (.ftoi f) :=
  of_row (OForm.pack_opcoded f rfl (by omega))
theorem qcvt (f : QForm) : Statement (.qcvt f) :=
  of_row (QForm.pack_opcoded f rfl (by omega))
theorem dqcvt (f : QForm) : Statement (.dqcvt f) :=
  of_row (QForm.pack_opcoded f rfl (by omega))
theorem qscale (f : QForm) : Statement (.qscale f) :=
  of_row (QForm.pack_opcoded f rfl (by omega))
theorem shfl (f : OForm) : Statement (.shfl f) :=
  of_row (OForm.pack_opcoded f rfl (by omega))
theorem vote (f : OForm) : Statement (.vote f) :=
  of_row (OForm.pack_opcoded f rfl (by omega))
theorem redux (f : OForm) : Statement (.redux f) :=
  of_row (OForm.pack_opcoded f rfl (by omega))
theorem scan (f : OForm) : Statement (.scan f) :=
  of_row (OForm.pack_opcoded f rfl (by omega))
theorem elect (f : OForm) : Statement (.elect f) :=
  of_row (OForm.pack_opcoded f rfl (by omega))
theorem bcast (f : OForm) : Statement (.bcast f) :=
  of_row (OForm.pack_opcoded f rfl (by omega))
theorem setlane (f : OForm) : Statement (.setlane f) :=
  of_row (OForm.pack_opcoded f rfl (by omega))
theorem ld (f : MForm) : Statement (.ld f) :=
  of_row (MForm.pack_opcoded f rfl (by omega))
theorem st (f : MForm) : Statement (.st f) :=
  of_row (MForm.pack_opcoded f rfl (by omega))
theorem ldu (f : MForm) : Statement (.ldu f) :=
  of_row (MForm.pack_opcoded f rfl (by omega))
theorem stu (f : MForm) : Statement (.stu f) :=
  of_row (MForm.pack_opcoded f rfl (by omega))
theorem atom (f : AForm) : Statement (.atom f) :=
  of_row (AForm.pack_opcoded f rfl (by omega))
theorem atomu (f : AForm) : Statement (.atomu f) :=
  of_row (AForm.pack_opcoded f rfl (by omega))
theorem ldfe (f : MForm) : Statement (.ldfe f) :=
  of_row (MForm.pack_opcoded f rfl (by omega))
theorem stfe (f : MForm) : Statement (.stfe f) :=
  of_row (MForm.pack_opcoded f rfl (by omega))
theorem bufstRecord (f : MForm) : Statement (.bufstRecord f) :=
  of_row (MForm.pack_opcoded f rfl (by omega))
theorem bufstBuffer (f : MForm) : Statement (.bufstBuffer f) :=
  of_row (MForm.pack_opcoded f rfl (by omega))
theorem pref (f : MForm) : Statement (.pref f) :=
  of_row (MForm.pack_opcoded f rfl (by omega))
theorem vdec (f : MForm) : Statement (.vdec f) :=
  of_row (MForm.pack_opcoded f rfl (by omega))
theorem venc (f : MForm) : Statement (.venc f) :=
  of_row (MForm.pack_opcoded f rfl (by omega))
theorem fence (f : MForm) : Statement (.fence f) :=
  of_row (MForm.pack_opcoded f rfl (by omega))
theorem fenceLinkTimeout (group : Nat) : Statement (.fenceLinkTimeout group) :=
  of_none rfl
theorem flushl (f : MForm) : Statement (.flushl f) :=
  of_row (MForm.pack_opcoded f rfl (by omega))
theorem invl (f : MForm) : Statement (.invl f) :=
  of_row (MForm.pack_opcoded f rfl (by omega))
theorem subscr (f : MForm) : Statement (.subscr f) :=
  of_row (MForm.pack_opcoded f rfl (by omega))
theorem bcopy (f : EForm) : Statement (.bcopy f) :=
  of_row (EForm.pack_opcoded f)
theorem bcopyFirstBeat (op : Nat) : Statement (.bcopyFirstBeat op) :=
  of_none rfl
theorem bcopyComplete (op : Nat) : Statement (.bcopyComplete op) :=
  of_none rfl
theorem bcopyFault (op : Nat) : Statement (.bcopyFault op) :=
  of_none rfl
theorem stream (a : Spec) (n : Fin 8) (fb : Bool) : Statement (.stream a n fb) :=
  of_row (by have := Spec.code_lt a; have := b2n_lt fb; have := n.isLt; exact packP_opcoded rfl (by omega) (by omega) (by omega) (by omega) (by omega))
theorem sclose (n : Fin 8) (fb : Bool) : Statement (.sclose n fb) :=
  of_row (by have := b2n_lt fb; have := n.isLt; exact packP_opcoded rfl (by omega) (by omega) (by omega) (by omega) (by omega))
theorem outriderFetch (group : Nat) (n : Fin 8) : Statement (.outriderFetch group n) :=
  of_none rfl
theorem barw (a : Spec) (phase : Spec) (scope : BScope) (fb : Bool) : Statement (.barw a phase scope fb) :=
  of_row (by have := Spec.code_lt a; have := Spec.code_lt phase; have := BScope.code_lt scope; have := b2n_lt fb; exact packP_opcoded rfl (by omega) (by omega) (by omega) (by omega) (by omega))
theorem bara (d : Spec) (a : Spec) (count : Spec) (scope : BScope) (fb : Bool) : Statement (.bara d a count scope fb) :=
  of_row (by have := Spec.code_lt d; have := Spec.code_lt a; have := Spec.code_lt count; have := BScope.code_lt scope; have := b2n_lt fb; exact packP_opcoded rfl (by omega) (by omega) (by omega) (by omega) (by omega))
theorem tbar (fb : Bool) : Statement (.tbar fb) :=
  of_row (by have := b2n_lt fb; exact packP_opcoded rfl (by omega) (by omega) (by omega) (by omega) (by omega))
theorem coll (a : Spec) (fb : Bool) : Statement (.coll a fb) :=
  of_row (by have := Spec.code_lt a; have := b2n_lt fb; exact packP_opcoded rfl (by omega) (by omega) (by omega) (by omega) (by omega))
theorem collComplete (op : Nat) : Statement (.collComplete op) :=
  of_none rfl
theorem collFault (op : Nat) : Statement (.collFault op) :=
  of_none rfl
theorem launch (d : Spec) (a : Spec) (fb : Bool) : Statement (.launch d a fb) :=
  of_row (by have := Spec.code_lt d; have := Spec.code_lt a; have := b2n_lt fb; exact packP_opcoded rfl (by omega) (by omega) (by omega) (by omega) (by omega))
theorem mboxBind (d : Spec) (a : Spec) (place : BitVec 12) : Statement (.mboxBind d a place) :=
  of_row (box_opcoded d a place)
theorem mboxUnbind (d : Spec) (a : Spec) (place : BitVec 12) : Statement (.mboxUnbind d a place) :=
  of_row (boxOp_opcoded d a place (k := 1) (by omega))
theorem mboxCount (d : Spec) (a : Spec) (place : BitVec 12) : Statement (.mboxCount d a place) :=
  of_row (boxOp_opcoded d a place (k := 2) (by omega))
theorem depsig (fb : Bool) : Statement (.depsig fb) :=
  of_row (by have := b2n_lt fb; exact packP_opcoded rfl (by omega) (by omega) (by omega) (by omega) (by omega))
theorem waypt (fb : Bool) : Statement (.waypt fb) :=
  of_row (by have := b2n_lt fb; exact packP_opcoded rfl (by omega) (by omega) (by omega) (by omega) (by omega))
theorem mldb (a : Spec) (b : Spec) (fmt : Fmt) (fb : Bool) : Statement (.mldb a b fmt fb) :=
  of_row (by have := Spec.code_lt a; have := Spec.code_lt b; have := Fmt.code_lt fmt; have := b2n_lt fb; exact packP_opcoded rfl (by omega) (by omega) (by omega) (by omega) (by omega))
theorem mldbComplete (op : Nat) : Statement (.mldbComplete op) :=
  of_none rfl
theorem mldbFault (op : Nat) : Statement (.mldbFault op) :=
  of_none rfl
theorem mma (f : XForm) : Statement (.mma f) :=
  of_row (XForm.pack_opcoded f)
theorem mmaWriteback (op : Nat) : Statement (.mmaWriteback op) :=
  of_none rfl
theorem mmaFault (op : Nat) : Statement (.mmaFault op) :=
  of_none rfl
theorem mzero (b : Spec) (fb : Bool) : Statement (.mzero b fb) :=
  of_row (by have := Spec.code_lt b; have := b2n_lt fb; exact packP_opcoded rfl (by omega) (by omega) (by omega) (by omega) (by omega))
theorem mrd (d : Spec) (a : Spec) (b : Spec) (ty : Ty) (rnd : Rnd) (sat : Bool) (fb : Bool) : Statement (.mrd d a b ty rnd sat fb) :=
  of_row (by have := Spec.code_lt d; have := Spec.code_lt a; have := Spec.code_lt b; have := Ty.code_lt ty; have := Rnd.code_lt rnd; have := b2n_lt sat; have := b2n_lt fb; exact packP_opcoded rfl (by omega) (by omega) (by omega) (by omega) (by omega))
theorem mwr (a : Spec) (b : Spec) (c : Spec) (ty : Ty) (fb : Bool) : Statement (.mwr a b c ty fb) :=
  of_row (by have := Spec.code_lt a; have := Spec.code_lt b; have := Spec.code_lt c; have := Ty.code_lt ty; have := b2n_lt fb; exact packP_opcoded rfl (by omega) (by omega) (by omega) (by omega) (by omega))
theorem mst (f : MForm) : Statement (.mst f) :=
  of_row (MForm.pack_opcoded f rfl (by omega))
theorem mwait (b : Spec) (fb : Bool) : Statement (.mwait b fb) :=
  of_row (by have := Spec.code_lt b; have := b2n_lt fb; exact packP_opcoded rfl (by omega) (by omega) (by omega) (by omega) (by omega))
theorem sread (d : Spec) (n : BitVec 8) : Statement (.sread d n) :=
  of_row (by have := Spec.code_lt d; have := n.isLt; exact packP_opcoded rfl (by omega) (by omega) (by omega) (by omega) (by omega))
theorem swrite (a : Spec) (n : BitVec 8) : Statement (.swrite a n) :=
  of_row (by have := Spec.code_lt a; have := n.isLt; exact packP_opcoded rfl (by omega) (by omega) (by omega) (by omega) (by omega))
theorem trap (imm : BitVec 32) : Statement (.trap imm) :=
  of_row (trap_opcoded imm)
theorem rftRetry : Statement .rftRetry :=
  of_row (by exact packP_opcoded rfl (by omega) (by omega) (by omega) (by omega) (by omega))
theorem rftNext : Statement .rftNext :=
  of_row (by exact packP_opcoded rfl (by omega) (by omega) (by omega) (by omega) (by omega))
theorem rftAbort : Statement .rftAbort :=
  of_row (by exact packP_opcoded rfl (by omega) (by omega) (by omega) (by omega) (by omega))
theorem mappg (d : Spec) (a : Spec) (b : Spec) (fb : Bool) : Statement (.mappg d a b fb) :=
  of_row (by have := Spec.code_lt d; have := Spec.code_lt a; have := Spec.code_lt b; have := b2n_lt fb; exact packP_opcoded rfl (by omega) (by omega) (by omega) (by omega) (by omega))
theorem tlbinvPage (a : Spec) (fb : Bool) : Statement (.tlbinvPage a fb) :=
  of_row (by have := Spec.code_lt a; have := b2n_lt fb; exact packP_opcoded rfl (by omega) (by omega) (by omega) (by omega) (by omega))
theorem tlbinvContext (a : Spec) (fb : Bool) : Statement (.tlbinvContext a fb) :=
  of_row (by have := Spec.code_lt a; have := b2n_lt fb; exact packP_opcoded rfl (by omega) (by omega) (by omega) (by omega) (by omega))
theorem ctxsv (a : Spec) (fb : Bool) : Statement (.ctxsv a fb) :=
  of_row (by have := Spec.code_lt a; have := b2n_lt fb; exact packP_opcoded rfl (by omega) (by omega) (by omega) (by omega) (by omega))
theorem porterSpill (group : Nat) : Statement (.porterSpill group) :=
  of_none rfl
theorem porterRefill (group : Nat) : Statement (.porterRefill group) :=
  of_none rfl
theorem tokenSpill (group : Nat) : Statement (.tokenSpill group) :=
  of_none rfl
theorem tokenReadback (group : Nat) : Statement (.tokenReadback group) :=
  of_none rfl
theorem tlbWalk (reticle : Fin 48) : Statement (.tlbWalk reticle) :=
  of_none rfl
theorem requestAtHome (op : Nat) : Statement (.requestAtHome op) :=
  of_none rfl
theorem refusalRetry (op : Nat) : Statement (.refusalRetry op) :=
  of_none rfl
theorem atomicRepeatTimeout (op : Nat) : Statement (.atomicRepeatTimeout op) :=
  of_none rfl
theorem atomicRepeatPathLost (op : Nat) : Statement (.atomicRepeatPathLost op) :=
  of_none rfl
theorem l1WriteBack (core : BitVec 12) (line : Nat) : Statement (.l1WriteBack core line) :=
  of_none rfl
theorem l1Invalidation (core : BitVec 12) (line : Nat) : Statement (.l1Invalidation core line) :=
  of_none rfl
theorem subscriberLineInstall (core : BitVec 12) (line : Nat) : Statement (.subscriberLineInstall core line) :=
  of_none rfl
theorem droverMigration (reticle : Fin 48) (line : Nat) : Statement (.droverMigration reticle line) :=
  of_none rfl
theorem retentionEntry (a : Array_) : Statement (.retentionEntry a) :=
  of_none rfl
theorem retentionExit (a : Array_) : Statement (.retentionExit a) :=
  of_none rfl
theorem flitDelivery (flit : Nat) : Statement (.flitDelivery flit) :=
  of_none rfl
theorem creditGrant (group : Nat) (port : Fin 4) : Statement (.creditGrant group port) :=
  of_none rfl
theorem linkRetry (link : Fin 12) : Statement (.linkRetry link) :=
  of_none rfl
theorem linkStateChange (link : Fin 12) (st : LinkState) : Statement (.linkStateChange link st) :=
  of_none rfl
theorem peerAccessTimeout (op : Nat) : Statement (.peerAccessTimeout op) :=
  of_none rfl
theorem endRequestArrival (launch : Nat) : Statement (.endRequestArrival launch) :=
  of_none rfl
theorem ctxsuspSuspend (ctx : BitVec 16) : Statement (.ctxsuspSuspend ctx) :=
  of_none rfl
theorem ctxsuspResume (ctx : BitVec 16) : Statement (.ctxsuspResume ctx) :=
  of_none rfl
theorem preemptSave (team : Nat) : Statement (.preemptSave team) :=
  of_none rfl
theorem teamRestore (team : Nat) : Statement (.teamRestore team) :=
  of_none rfl
theorem uncorrectableError (site : ErrSite) : Statement (.uncorrectableError site) :=
  of_none rfl
theorem snapshotCopy (page : Nat) : Statement (.snapshotCopy page) :=
  of_none rfl
theorem rollback (launch : Nat) : Statement (.rollback launch) :=
  of_none rfl
theorem convoyMatch (group : Nat) : Statement (.convoyMatch group) :=
  of_none rfl
theorem convoyMismatch (team : Nat) : Statement (.convoyMismatch team) :=
  of_none rfl
theorem commitLogFull (team : Nat) : Statement (.commitLogFull team) :=
  of_none rfl
theorem assayerReplay (team : Nat) : Statement (.assayerReplay team) :=
  of_none rfl
theorem eventLogRecord : Statement .eventLogRecord :=
  of_none rfl
theorem checkpoint : Statement .checkpoint :=
  of_none rfl
theorem ckptcmdCheckpoint : Statement .ckptcmdCheckpoint :=
  of_none rfl
theorem attcmdQuote : Statement .attcmdQuote :=
  of_none rfl
theorem biasFlipStart (v : Word) : Statement (.biasFlipStart v) :=
  of_none rfl
theorem biasFlipComplete : Statement .biasFlipComplete :=
  of_none rfl
theorem migrationStart (v : Word) : Statement (.migrationStart v) :=
  of_none rfl
theorem migrationLineCopy : Statement .migrationLineCopy :=
  of_none rfl
theorem migrationComplete : Statement .migrationComplete :=
  of_none rfl
theorem devrstReset : Statement .devrstReset :=
  of_none rfl
theorem powerOn : Statement .powerOn :=
  of_none rfl
theorem powerLoss : Statement .powerLoss :=
  of_none rfl
theorem partLost (part : Part) : Statement (.partLost part) :=
  of_none rfl
theorem hostPortReturn : Statement .hostPortReturn :=
  of_none rfl
theorem thermalThrottle (reticle : Fin 48) : Statement (.thermalThrottle reticle) :=
  of_none rfl
theorem thermalShutdown : Statement .thermalShutdown :=
  of_none rfl
theorem hostBar2Access (off : Nat) (size : Nat) (data : Option Word) : Statement (.hostBar2Access off size data) :=
  of_none rfl
theorem jibuegHostSnoop (line : Nat) : Statement (.jibuegHostSnoop line) :=
  of_none rfl
theorem jibuegNegotiation (up : Bool) : Statement (.jibuegNegotiation up) :=
  of_none rfl
theorem pwrcapWrite (reticle : Fin 48) (v : Word) : Statement (.pwrcapWrite reticle v) :=
  of_none rfl
theorem assayctlWrite (v : Word) : Statement (.assayctlWrite v) :=
  of_none rfl
theorem irqcauseClear (v : Word) : Statement (.irqcauseClear v) :=
  of_none rfl
theorem registerWrite (off : Nat) (v : Word) : Statement (.registerWrite off v) :=
  of_none rfl
theorem coalescedWindowEnd (unit : BitVec 8) (cause : BitVec 8) : Statement (.coalescedWindowEnd unit cause) :=
  of_none rfl

end Enc

end Sys2Proof.Laws
end

