-- ==== Sys2Proof/Tests/Slice0.lean ====
section
/-! SUPPORT. Tests of the decoder against words written out from the spec's encodings, ill-formed terms, single steps on a
small machine with results by hand, and for each statement states that meet its hypotheses. -/
namespace Sys2Proof.Tests

set_option Elab.async false

open Sys2Proof.Machine Sys2Proof.Claims

/-! ## Words -/

def decoded (ws : List Nat) : List (Option Instr) := ws.map fun w => decodeTableWord 64 w

/-- Words written out from the field tables of their formats. -/
theorem test_decode_control : decoded
    [0x00E0000000000000, 0x01870100FFFFFFFE, 0x0283000000000005, 0x03E0000000000000, 0x03E0100000000004, 0x04E0000000000006,
     0x04891000FFFFFFF8, 0x0581000000000000, 0x0682000000000000, 0x07E0008C00000000, 0x08E0E00000000003, 0x0984108500000000,
     0x0AE0000000000000, 0x0BE0000000000000, 0x0CE0000000000000, 0x0DE0000000000000, 0x0DE0010000000000, 0x0EE0038600000000,
     0x0FE00000000003E8, 0x0FE001000000FFFF] =
    [some .nop,
     some (.bra .any (.s 7) 0xFFFFFFFE),
     some (.brd (.s 3) 5),
     some .tokenIf,
     some (.tokenLoop 4),
     some (.joinIf 6),
     some (.joinLoop (.s 9) 0xFFFFFFF8),
     some (.brk (.s 1)),
     some (.cont (.s 2)),
     some (.brx (.s 12)),
     some (.call (.int 0) 14 3),
     some (.callx (.s 4) 1 (.s 5)),
     some .ret,
     some (.exit (.int 0)),
     some .yield,
     some .wsyncWait,
     some .wsyncWb,
     some (.winfo .room (.s 6)),
     some (.pauseTime 1000),
     some (.pauseRecv 0xFFFF)] := by decide +kernel

/-- Words written out from the field tables of their formats. -/
theorem test_decode_integer : decoded
    [0x10070800120002C8, 0x1107080012000000, 0x1207080012000000, 0x13040600100000C0, 0x1407080012002408, 0x1507080012000000,
     0x1607080012000000, 0x178384010A000001, 0x1807080012000000, 0x19020401CE0000C0, 0x1A07080012000000, 0x1B07080012000000,
     0x1C07080012000000, 0x1D07080012000000, 0x1E07080012000000, 0x1F04060010020C80, 0x2007080000000308, 0x2107080000000280,
     0x22070600000000C0, 0x2307080000000040, 0x2407080000000040, 0x2507080012039400, 0x260708001203A440, 0x27850801C6038800,
     0x280C0A0012038800, 0x2907032200000000, 0x2A830001FFFFFFFF, 0x2B07080000000010, 0x2C070800000000FF, 0x2D83840000000001,
     0x2E85081200000064, 0x2F07080012002B48] =
    [some (.add ⟨(.v 7), ⟨.v 8, .none, 0⟩, ⟨.v 9, .none, 0⟩, (.v 0), .n16x2, .rne, true, false, false⟩),
     some (.sub ⟨(.v 7), ⟨.v 8, .none, 0⟩, ⟨.v 9, .none, 0⟩, (.v 0), .i32, .rne, false, false, false⟩),
     some (.mul ⟨(.v 7), ⟨.v 8, .none, 0⟩, ⟨.v 9, .none, 0⟩, (.v 0), .i32, .rne, false, false, false⟩),
     some (.mulh ⟨(.v 4), ⟨.v 6, .none, 0⟩, ⟨.v 8, .none, 0⟩, (.v 0), .n64, .rne, false, false, false⟩),
     some (.mad ⟨(.v 7), ⟨.v 8, .none, 0⟩, ⟨.v 9, .none, 0⟩, (.v 9), .i32, .rne, true, false, false⟩),
     some (.and ⟨(.v 7), ⟨.v 8, .none, 0⟩, ⟨.v 9, .none, 0⟩, (.v 0), .i32, .rne, false, false, false⟩),
     some (.or ⟨(.v 7), ⟨.v 8, .none, 0⟩, ⟨.v 9, .none, 0⟩, (.v 0), .i32, .rne, false, false, false⟩),
     some (.xor ⟨(.s 3), ⟨.s 4, .none, 0⟩, ⟨.s 5, .none, 0⟩, (.v 0), .i32, .rne, false, false, true⟩),
     some (.andn ⟨(.v 7), ⟨.v 8, .none, 0⟩, ⟨.v 9, .none, 0⟩, (.v 0), .i32, .rne, false, false, false⟩),
     some (.shl ⟨(.v 2), ⟨.v 4, .none, 0⟩, ⟨.int 7, .none, 0⟩, (.v 0), .n64, .rne, false, false, false⟩),
     some (.shr ⟨(.v 7), ⟨.v 8, .none, 0⟩, ⟨.v 9, .none, 0⟩, (.v 0), .i32, .rne, false, false, false⟩),
     some (.sar ⟨(.v 7), ⟨.v 8, .none, 0⟩, ⟨.v 9, .none, 0⟩, (.v 0), .i32, .rne, false, false, false⟩),
     some (.rot ⟨(.v 7), ⟨.v 8, .none, 0⟩, ⟨.v 9, .none, 0⟩, (.v 0), .i32, .rne, false, false, false⟩),
     some (.min ⟨(.v 7), ⟨.v 8, .none, 0⟩, ⟨.v 9, .none, 0⟩, (.v 0), .i32, .rne, false, false, false⟩),
     some (.max ⟨(.v 7), ⟨.v 8, .none, 0⟩, ⟨.v 9, .none, 0⟩, (.v 0), .i32, .rne, false, false, false⟩),
     some (.sel ⟨(.v 4), ⟨.v 6, .none, 0⟩, ⟨.v 8, .none, 0⟩, (.s 3), .i64, .rne, false, false, false⟩),
     some (.abs ⟨(.v 7), ⟨.v 8, .none, 0⟩, ⟨.v 0, .none, 0⟩, (.v 0), .i8x4, .rne, true, false, false⟩),
     some (.neg ⟨(.v 7), ⟨.v 8, .none, 0⟩, ⟨.v 0, .none, 0⟩, (.v 0), .i16x2, .rne, false, false, false⟩),
     some (.clz ⟨(.v 7), ⟨.v 6, .none, 0⟩, ⟨.v 0, .none, 0⟩, (.v 0), .n64, .rne, false, false, false⟩),
     some (.popc ⟨(.v 7), ⟨.v 8, .none, 0⟩, ⟨.v 0, .none, 0⟩, (.v 0), .n32, .rne, false, false, false⟩),
     some (.brev ⟨(.v 7), ⟨.v 8, .none, 0⟩, ⟨.v 0, .none, 0⟩, (.v 0), .n32, .rne, false, false, false⟩),
     some (.bfe ⟨(.v 7), ⟨.v 8, .none, 0⟩, ⟨.v 9, .none, 0⟩, (.int 5), .i32, .rne, false, false, false⟩),
     some (.bfi ⟨(.v 7), ⟨.v 8, .none, 0⟩, ⟨.v 9, .none, 0⟩, (.int 9), .n32, .rne, false, false, false⟩),
     some (.cmp ⟨(.s 5), ⟨.v 8, .none, 0⟩, ⟨.int 3, .none, 0⟩, (.int 2), .i32, .rne, false, false, false⟩),
     some (.lea ⟨(.v 12), ⟨.v 10, .none, 0⟩, ⟨.v 9, .none, 0⟩, (.int 2), .i32, .rne, false, false, false⟩),
     some (.mov ⟨(.v 7), ⟨.v 3, .rot, 1⟩, ⟨.v 0, .none, 0⟩, (.v 0), .i32, .rne, false, false, false⟩),
     some (.movi ⟨(.s 3), ⟨.v 0, .none, 0⟩, true, 0xFFFFFFFF⟩),
     some (.addi ⟨(.v 7), ⟨.v 8, .none, 0⟩, false, 0x10⟩),
     some (.andi ⟨(.v 7), ⟨.v 8, .none, 0⟩, false, 0xFF⟩),
     some (.ori ⟨(.s 3), ⟨.s 4, .none, 0⟩, false, 0x1⟩),
     some (.cmpi ⟨(.s 5), ⟨.v 8, .none, 9⟩, false, 0x64⟩),
     some (.idot4 ⟨(.v 7), ⟨.v 8, .none, 0⟩, ⟨.v 9, .none, 0⟩, (.v 10), .n8x4, .rne, true, false, false⟩)] := by decide +kernel

/-- Words written out from the field tables of their formats. -/
theorem test_decode_floating : decoded
    [0x3007080012000244, 0x3107080012000100, 0x3207080012000128, 0x3307098212001500, 0x3407080012000100, 0x3507080012000100,
     0x3607080012000100, 0x3707080012000100, 0x3882080012039D00, 0x3907080000000100, 0x3A07080000000130, 0x3B06080014000140,
     0x3C06080000000140, 0x3D07080012001600, 0x3E07080000000100, 0x3F07080000000100, 0x4007080000000100, 0x4107080000000100,
     0x4207080000000100, 0x4307080000000100, 0x4407080000000100, 0x4507080000000100, 0x4607080012000100, 0x4707080000000100,
     0x4807080000000100, 0x49070801CA000190, 0x4A070801C2000120, 0x4B060801C8000084] =
    [some (.fadd ⟨(.v 7), ⟨.v 8, .none, 0⟩, ⟨.v 9, .none, 0⟩, (.v 0), .bf16x2, .rne, false, true, false⟩),
     some (.fsub ⟨(.v 7), ⟨.v 8, .none, 0⟩, ⟨.v 9, .none, 0⟩, (.v 0), .f32, .rne, false, false, false⟩),
     some (.fmul ⟨(.v 7), ⟨.v 8, .none, 0⟩, ⟨.v 9, .none, 0⟩, (.v 0), .f32, .rup, true, false, false⟩),
     some (.ffma ⟨(.v 7), ⟨.v 9, .bfly, 1⟩, ⟨.v 9, .none, 0⟩, (.v 5), .f32, .rne, false, false, false⟩),
     some (.fmin ⟨(.v 7), ⟨.v 8, .none, 0⟩, ⟨.v 9, .none, 0⟩, (.v 0), .f32, .rne, false, false, false⟩),
     some (.fmax ⟨(.v 7), ⟨.v 8, .none, 0⟩, ⟨.v 9, .none, 0⟩, (.v 0), .f32, .rne, false, false, false⟩),
     some (.fminnm ⟨(.v 7), ⟨.v 8, .none, 0⟩, ⟨.v 9, .none, 0⟩, (.v 0), .f32, .rne, false, false, false⟩),
     some (.fmaxnm ⟨(.v 7), ⟨.v 8, .none, 0⟩, ⟨.v 9, .none, 0⟩, (.v 0), .f32, .rne, false, false, false⟩),
     some (.fcmp ⟨(.s 2), ⟨.v 8, .none, 0⟩, ⟨.v 9, .none, 0⟩, (.int 7), .f32, .rne, false, false, false⟩),
     some (.fclass ⟨(.v 7), ⟨.v 8, .none, 0⟩, ⟨.v 0, .none, 0⟩, (.v 0), .f32, .rne, false, false, false⟩),
     some (.frnd ⟨(.v 7), ⟨.v 8, .none, 0⟩, ⟨.v 0, .none, 0⟩, (.v 0), .f32, .rdn, false, false, false⟩),
     some (.fdiv ⟨(.v 6), ⟨.v 8, .none, 0⟩, ⟨.v 10, .none, 0⟩, (.v 0), .f64, .rne, false, false, false⟩),
     some (.fsqrt ⟨(.v 6), ⟨.v 8, .none, 0⟩, ⟨.v 0, .none, 0⟩, (.v 0), .f64, .rne, false, false, false⟩),
     some (.fdot2 ⟨(.v 7), ⟨.v 8, .none, 0⟩, ⟨.v 9, .none, 0⟩, (.v 5), .f16x2, .rne, false, false, false⟩),
     some (.fabs ⟨(.v 7), ⟨.v 8, .none, 0⟩, ⟨.v 0, .none, 0⟩, (.v 0), .f32, .rne, false, false, false⟩),
     some (.fneg ⟨(.v 7), ⟨.v 8, .none, 0⟩, ⟨.v 0, .none, 0⟩, (.v 0), .f32, .rne, false, false, false⟩),
     some (.fexp2f ⟨(.v 7), ⟨.v 8, .none, 0⟩, ⟨.v 0, .none, 0⟩, (.v 0), .f32, .rne, false, false, false⟩),
     some (.flog2m ⟨(.v 7), ⟨.v 8, .none, 0⟩, ⟨.v 0, .none, 0⟩, (.v 0), .f32, .rne, false, false, false⟩),
     some (.frcp ⟨(.v 7), ⟨.v 8, .none, 0⟩, ⟨.v 0, .none, 0⟩, (.v 0), .f32, .rne, false, false, false⟩),
     some (.frsq ⟨(.v 7), ⟨.v 8, .none, 0⟩, ⟨.v 0, .none, 0⟩, (.v 0), .f32, .rne, false, false, false⟩),
     some (.fsinpi ⟨(.v 7), ⟨.v 8, .none, 0⟩, ⟨.v 0, .none, 0⟩, (.v 0), .f32, .rne, false, false, false⟩),
     some (.fcospi ⟨(.v 7), ⟨.v 8, .none, 0⟩, ⟨.v 0, .none, 0⟩, (.v 0), .f32, .rne, false, false, false⟩),
     some (.fldexp ⟨(.v 7), ⟨.v 8, .none, 0⟩, ⟨.v 9, .none, 0⟩, (.v 0), .f32, .rne, false, false, false⟩),
     some (.fgetexp ⟨(.v 7), ⟨.v 8, .none, 0⟩, ⟨.v 0, .none, 0⟩, (.v 0), .f32, .rne, false, false, false⟩),
     some (.fgetman ⟨(.v 7), ⟨.v 8, .none, 0⟩, ⟨.v 0, .none, 0⟩, (.v 0), .f32, .rne, false, false, false⟩),
     some (.fcvt ⟨(.v 7), ⟨.v 8, .none, 0⟩, ⟨.int 5, .none, 0⟩, (.v 0), .f16, .rtz, false, false, false⟩),
     some (.itof ⟨(.v 7), ⟨.v 8, .none, 0⟩, ⟨.int 1, .none, 0⟩, (.v 0), .f32, .rup, false, false, false⟩),
     some (.ftoi ⟨(.v 6), ⟨.v 8, .none, 0⟩, ⟨.int 4, .none, 0⟩, (.v 0), .i64, .rne, false, true, false⟩)] := by decide +kernel

/-- Words written out from the field tables of their formats. -/
theorem test_decode_quantise : decoded
    [0x4C07080012028118, 0x4D8384010A036105, 0x4E070801C4020100] =
    [some (.qcvt ⟨(.v 7), ⟨.v 8, .none, 0⟩, ⟨.v 9, .none, 0⟩, .e2m1s, .rtz, true, false, false⟩),
     some (.dqcvt ⟨(.s 3), ⟨.s 4, .none, 0⟩, ⟨.s 5, .none, 0⟩, .a4g32, .rne, false, true, true⟩),
     some (.qscale ⟨(.v 7), ⟨.v 8, .none, 0⟩, ⟨.int 2, .none, 0⟩, .e4m3s, .rne, false, false, false⟩)] := by decide +kernel

/-- Words written out from the field tables of their formats. -/
theorem test_decode_crossLane : decoded
    [0x5007080012020C00, 0x51850801C6034800, 0x52850801CC034924, 0x53070801D2034808, 0x5485000000034800, 0x55070801C2034800,
     0x560784010C034800] =
    [some (.shfl ⟨(.v 7), ⟨.v 8, .none, 0⟩, ⟨.v 9, .none, 0⟩, (.s 3), .i32, .rne, false, false, false⟩),
     some (.vote ⟨(.s 5), ⟨.v 8, .none, 0⟩, ⟨.int 3, .none, 0⟩, .exec, .i32, .rne, false, false, false⟩),
     some (.redux ⟨(.s 5), ⟨.v 8, .none, 0⟩, ⟨.int 6, .none, 0⟩, .exec, .f32, .rup, false, true, false⟩),
     some (.scan ⟨(.v 7), ⟨.v 8, .none, 0⟩, ⟨.int 9, .none, 0⟩, .exec, .i32, .rne, true, false, false⟩),
     some (.elect ⟨(.s 5), ⟨.v 0, .none, 0⟩, ⟨.v 0, .none, 0⟩, .exec, .i32, .rne, false, false, false⟩),
     some (.bcast ⟨(.v 7), ⟨.v 8, .none, 0⟩, ⟨.int 1, .none, 0⟩, .exec, .i32, .rne, false, false, false⟩),
     some (.setlane ⟨(.v 7), ⟨.s 4, .none, 0⟩, ⟨.s 6, .none, 0⟩, .exec, .i32, .rne, false, false, false⟩)] := by decide +kernel

/-- Words written out from the field tables of their formats. -/
theorem test_decode_memory : decoded
    [0x6009840004000008, 0x61080AFFFF816E8D, 0x62838400000011AE, 0x6383840000100000, 0x640C840012000088, 0x658684FFCE00CBAD,
     0x6608840000000012, 0x6708840000000008, 0x6800840000024000, 0x680084000000C002, 0x69000A0001002412, 0x6A0486000080300A,
     0x6B0486000000000A, 0x6C000000000003A2, 0x6D0084000000000A, 0x6E000AFFFFC00008, 0x6F000B000041D00A] =
    [some (.ld ⟨(.v 9), (.s 4), 0x40, 0, .i, .page, .relaxed, .none, .b4, false, false⟩),
     some (.st ⟨(.v 8), (.v 10), 0xFFFF8, 5, .w, .stream, .release, .device, .b8, false, true⟩),
     some (.ldu ⟨(.s 3), (.s 4), 0x0, 0, .o, .page, .acquire, .system, .b8, true, false⟩),
     some (.stu ⟨(.s 3), (.s 4), 0x1, 0, .i, .page, .relaxed, .none, .b1, false, false⟩),
     some (.atom ⟨(.v 12), (.s 4), 0x1, .add, 0, .i, .page, .relaxed, .device, .b4, false⟩),
     some (.atomu ⟨(.s 6), (.s 4), 0xFFC, .fmax, 3, .i, .pin, .acqRel, .system, .b8, true⟩),
     some (.ldfe ⟨(.v 8), (.s 4), 0x0, 0, .i, .page, .relaxed, .none, .b16, true, false⟩),
     some (.stfe ⟨(.v 8), (.s 4), 0x0, 0, .i, .page, .relaxed, .none, .b4, false, false⟩),
     some (.bufstRecord ⟨(.v 0), (.s 4), 0x0, 9, .i, .page, .relaxed, .none, .b1, false, false⟩),
     some (.bufstBuffer ⟨(.v 0), (.s 4), 0x0, 3, .i, .page, .relaxed, .none, .b1, true, false⟩),
     some (.pref ⟨(.v 0), (.v 10), 0x10, 0, .w, .replicate, .relaxed, .none, .b16, true, false⟩),
     some (.vdec ⟨(.v 4), (.s 6), 0x8, 0, .u, .page, .relaxed, .none, .b4, true, false⟩),
     some (.venc ⟨(.v 4), (.s 6), 0x0, 0, .i, .page, .relaxed, .none, .b4, true, false⟩),
     some (.fence ⟨(.v 0), (.v 0), 0x0, 0, .i, .page, .acqRel, .system, .b1, true, false⟩),
     some (.flushl ⟨(.v 0), (.s 4), 0x0, 0, .i, .page, .relaxed, .none, .b4, true, false⟩),
     some (.invl ⟨(.v 0), (.v 10), 0xFFFFC, 0, .i, .page, .relaxed, .none, .b4, false, false⟩),
     some (.subscr ⟨(.v 0), (.v 11), 0x4, 7, .o, .page, .relaxed, .none, .b4, true, false⟩)] := by decide +kernel

/-- Words written out from the field tables of their formats. -/
theorem test_decode_engines : decoded
    [0x70ABC838485FFF21, 0x7000083848500210, 0x71008401CE000002, 0x72000001C6000000, 0x73008401C0000000, 0x74838401C2000022,
     0x7500000000000002, 0x7600870000000000, 0x7782880000000003, 0x7883860000000ABC, 0x7883860010000005, 0x7883860020000000,
     0x7900000000000002, 0x7A00000000000000] =
    [some (.bcopy ⟨0xABC, (.s 3), (.s 4), (.s 5), 4095, true, false, true⟩),
     some (.bcopy ⟨0x0, (.s 3), (.s 4), (.s 5), 2, false, true, false⟩),
     some (.stream (.s 4) 7 true),
     some (.sclose 3 false),
     some (.barw (.s 4) (.int 0) .team false),
     some (.bara (.s 3) (.s 4) (.int 1) .device true),
     some (.tbar true),
     some (.coll (.s 7) false),
     some (.launch (.s 2) (.s 8) true),
     some (.mboxBind (.s 3) (.s 6) 0xABC),
     some (.mboxUnbind (.s 3) (.s 6) 5),
     some (.mboxCount (.s 3) (.s 6) 0),
     some (.depsig true),
     some (.waypt false)] := by decide +kernel

/-- Words written out from the field tables of their formats. -/
theorem test_decode_matrix : decoded
    [0x800088011402E002, 0x815C9122469F8871, 0x8110506000004786, 0x8200000108000002, 0x8306E301080001E8, 0x8400E30108001942,
     0x85EC86000000C008, 0x8600000108000000] =
    [some (.mldb (.s 8) (.s 10) .i4s true),
     some (.mma ⟨5, 100, (.s 9), 0x1234, 63, .plusTimes, .e4m3s, true, true, true, .f32, false, true⟩),
     some (.mma ⟨1, 2, (.s 3), 0, 0, .orAnd, .b1, false, false, false, .i32, true, false⟩),
     some (.mzero (.s 4) true),
     some (.mrd (.v 6) (.int 3) (.s 4) .bf16 .rup true false),
     some (.mwr (.int 3) (.s 4) (.v 6) .f64 true),
     some (.mst ⟨(.int 12), (.s 6), 0x0, 3, .i, .page, .relaxed, .none, .b4, false, false⟩),
     some (.mwait (.s 4) false)] := by decide +kernel

/-- Words written out from the field tables of their formats. -/
theorem test_decode_system : decoded
    [0x90B8000000001000, 0x9100850000006000, 0x920000000000002A, 0x93000001C0000000, 0x93000001C2000000, 0x93000001C4000000,
     0x94BBB90178000000, 0x95008401C0000002, 0x95008401C2000000, 0x9600870000000002] =
    [some (.sread (.s 56) 4),
     some (.swrite (.s 5) 24),
     some (.trap 0x2A),
     some .rftRetry,
     some .rftNext,
     some .rftAbort,
     some (.mappg (.s 59) (.s 57) (.s 60) false),
     some (.tlbinvPage (.s 4) true),
     some (.tlbinvContext (.s 4) false),
     some (.ctxsv (.s 7) true)] := by decide +kernel

/-! ## A small machine: one launch with one group of four lanes, in a clause of one word at address 0; a second clause at
16 ends in JOIN.LOOP -/

def hdr1 : Header := { cls := .alu, count := 0, wait := 0, setA := none, setB := none, yield := false }

def code1 : List Word := [BitVec.ofNat 64 hdr1.pack, 0x00E0000000000000, BitVec.ofNat 64 hdr1.pack, 0x04E01000FFFFFFFE]

def reg1 : Region := { ctx := 0, image := 0, origin := 0, rows := 1, cols := 1, map := [(0, 0)], code := code1, table := [16, 24], images := [] }

def launch1 : Launch :=
  { record := fetchRecord, origin := .child 0 0, queue := 0, seq := 0, ctx := 0, prio := 0, region := some 2, tablesRead := true,
    dispatched := [0], ran := true, table := some [16, 24] }

def team1 : Team := { launch := 1, index := 0, place := 0, logical := 0, spadSize := 65536, nslots := 128, ntiles := 16, segs := [0] }

/-- v8 holds 5, −1, the least integer and 7, v9 holds 3, 1, the least integer and 2; v10 and v11 hold floating values; s3 is a
lane mask, s4 a scratchpad pointer, s5 a plain value. -/
def group1 : Group :=
  { team := 3, slot := 0, width := 4, idx := 1, phase := .issuing, exec := 0xF, live := 0xF, ring := 128, wlim := 0x00E0000000008000,
    sregs := [(3, 0x5), (4, 0x00F0000000000040), (5, 0xFFFFFFFF00000002)],
    vfix := [(512, 5), (513, 0xFFFFFFFF), (514, 0x80000000), (515, 7), (576, 3), (577, 1), (578, 0x80000000), (579, 2),
             (640, 0x3F800000), (641, 0x7F7FFFFF), (642, 1), (643, 0xFF800000),
             (704, 0x40000000), (705, 0x7F7FFFFF), (706, 1), (707, 0x7F800000)] }

def machine (g : Group) (t : Team) (l : Launch) : State :=
  { State.reset with
    cur := 4, nextId := 5, dev := { powered := true, stage := 9 }, launches := [(1, l)], regions := [(2, reg1)], teams := [(3, t)],
    groups := [(4, g)] }

def frame (g : Group) (t : Team) (l : Launch) : Ctx := ⟨4, g, t, 1, l, reg1, hdr1⟩

theorem issues_machine {g : Group} {t : Team} {l : Launch} (h1 : g.team = 3) (h2 : t.launch = 1) (h3 : l.region = some 2)
    (h4 : g.hdr = 0) (h5 : g.phase = .issuing) : Issues (machine g t l) (frame g t l) := by
  refine ⟨?_, h5⟩
  have hc : codeAt reg1 0 = some (BitVec.ofNat 64 hdr1.pack) := by decide
  have hd : decodeHeader (BitVec.ofNat 64 hdr1.pack) = some hdr1 := by decide
  simp [State.ctx?, machine, frame, State.group?, State.team?, State.launch?, State.region?, SMap.entry?, h1, h2, h3, h4, hc, hd]

def s1 : State := machine group1 team1 launch1
def c1 : Ctx := frame group1 team1 launch1

/-- The same group in its handler, after a trap at the word. -/
def groupH : Group := { group1 with sup := true, trapCause := 0x14, trapPc := 0x100000000, trapExec := 0xF, handler := 16, su := [(2, 77)] }
def sH : State := machine groupH team1 launch1
def cH : Ctx := frame groupH team1 launch1

/-- The group after a step. -/
def groupOf (o : Host.Outcome State Fault Refusal) : Option Group :=
  match o with
  | .next t => t.group? 4
  | _ => none

/-- Lanes 0 to 3 of v7 after an instruction of the small machine. -/
def v7 (i : Instr) : Option (List Lane) := (groupOf (exec i s1)).map fun g => (List.range 4).map fun l => g.readV 7 l

/-- s6 after an instruction, and the flags raised. -/
def s6 (i : Instr) : Option Word := (groupOf (exec i s1)).map fun g => g.readS 6
def raised (i : Instr) : Option (BitVec 7) := (groupOf (exec i s1)).map (·.fpstat)

def op3 (d a b c : Spec) (ty : Ty) : OForm := ⟨d, ⟨a, .none, 0⟩, ⟨b, .none, 0⟩, c, ty, .rne, false, false, false⟩
def vv (ty : Ty) : OForm := op3 (.v 7) (.v 8) (.v 9) (.v 0) ty
def va (ty : Ty) : OForm := op3 (.v 7) (.v 8) (.v 0) (.v 0) ty
def ff : OForm := op3 (.v 7) (.v 10) (.v 11) (.v 0) .f32


/-! ## Ill-formed terms, one for each check of `Instr.wf`, and words that the decoder refuses -/

theorem test_ill_formed_operate :
    [Instr.call (.int 0) 0 0, .call (.int 0) 15 0, .callx (.int 0) 0 (.s 1),
     .add (vv .f32), .add { vv .i32 with c := .v 1 }, .mul { vv .i32 with rnd := .rtz }, .sub { vv .i32 with ftz := true },
     .mulh { vv .i32 with sat := true }, .and (vv .i16x2), .mad (vv .n16x2), .min { vv .i32 with sat := true }, .sel (vv .n32),
     .abs (vv .i32), .neg (va .n32), .clz (va .i32), .bfe (vv .f32), .bfi (vv .i32), .cmp { vv .i32 with c := .int 6 }, .cmp { vv .i32 with c := .v 0 },
     .lea { vv .i64 with c := .int 1 }, .lea { vv .i32 with c := .int 8 }, .mov (va .n32), .idot4 (vv .i32),
     .movi ⟨.v 7, ⟨.v 1, .none, 0⟩, false, 0⟩, .cmpi ⟨.s 5, ⟨.v 8, .rot, 0⟩, false, 0⟩, .cmpi ⟨.s 5, ⟨.v 8, .none, 10⟩, false, 0⟩,
     .fadd (vv .i32), .ffma (vv .n16x2), .fmin { ff with sat := true }, .fcmp { ff with c := .int 8 }, .fclass { vv .f32 with rnd := .rup },
     .frnd ff, .fdiv (vv .f16x2), .fsqrt ff, .fdot2 ff, .fabs { va .f32 with ftz := true }, .fexp2f (va .f64), .frcp (va .f16),
     .frsq { va .f32 with sat := true }, .fldexp (vv .f16x2), .fcvt { va .f32 with b := ⟨.int 3, .none, 0⟩ },
     .itof { va .f32 with b := ⟨.int 4, .none, 0⟩ }, .ftoi { va .f32 with b := ⟨.int 4, .none, 0⟩ }].all (fun i => !i.wf) = true := by decide +kernel

theorem test_ill_formed_others :
    [Instr.qcvt ⟨.v 7, ⟨.v 8, .none, 0⟩, ⟨.v 9, .none, 0⟩, .f32, .rne, false, false, false⟩,
     .qscale ⟨.v 7, ⟨.v 8, .none, 0⟩, ⟨.v 9, .none, 0⟩, .e4m3, .rne, false, false, false⟩,
     .shfl { vv .i32 with uni := true }, .vote { vv .i32 with b := ⟨.int 4, .none, 0⟩ }, .redux { vv .i32 with b := ⟨.int 9, .none, 0⟩ },
     .redux { vv .f32 with b := ⟨.int 0, .none, 0⟩ }, .scan { vv .i32 with b := ⟨.int 15, .none, 0⟩ }, .elect (vv .i32),
     .ld ⟨.v 8, .s 4, 0, 0, .i, .page, .release, .team, .b4, false, false⟩, .ld ⟨.v 8, .s 4, 0, 0, .i, .page, .acquire, .none, .b4, false, false⟩,
     .st ⟨.v 8, .s 4, 0, 0, .i, .page, .relaxed, .none, .b4, true, false⟩, .ldu ⟨.s 8, .s 4, 0, 0, .i, .page, .relaxed, .none, .b16, false, false⟩,
     .atom ⟨.v 8, .s 4, 0, .add, 0, .i, .page, .relaxed, .none, .b4, false⟩, .atomu ⟨.s 8, .s 4, 0, .add, 0, .i, .stream, .relaxed, .team, .b4, false⟩,
     .ldfe ⟨.v 8, .s 4, 0, 1, .i, .page, .relaxed, .none, .b4, false, false⟩, .stfe ⟨.v 8, .s 4, 0, 0, .i, .page, .relaxed, .none, .b2, false, false⟩,
     .bufstRecord ⟨.v 0, .s 4, 8, 1, .i, .page, .relaxed, .none, .b1, false, false⟩, .pref ⟨.v 1, .s 4, 0, 0, .i, .page, .relaxed, .none, .b1, false, false⟩,
     .vdec ⟨.v 8, .s 4, 0, 0, .w, .page, .relaxed, .none, .b4, false, false⟩, .venc ⟨.v 8, .s 4, 0, 0, .o, .page, .relaxed, .none, .b4, false, false⟩,
     .fence ⟨.v 0, .v 0, 0, 0, .i, .page, .relaxed, .team, .b1, false, false⟩, .fence ⟨.v 0, .v 0, 0, 0, .i, .page, .release, .team, .b1, true, false⟩,
     .invl ⟨.v 0, .s 4, 0, 0, .i, .page, .relaxed, .none, .b1, true, false⟩, .subscr ⟨.v 0, .s 4, 0, 0, .o, .page, .relaxed, .none, .b1, false, false⟩,
     .mma ⟨0, 0, .s 3, 0, 0, .minPlus, .e4m3s, false, true, false, .f32, false, false⟩, .mma ⟨0, 0, .s 3, 0, 0, .plusTimes, .i8, false, false, false, .f32, true, false⟩,
     .mrd (.v 6) (.int 1) (.s 4) .n32 .rne false false, .mrd (.v 6) (.int 1) (.s 4) .f32 .rtz false false, .mwr (.int 1) (.s 4) (.v 6) .i64 false,
     .mst ⟨.v 1, .s 4, 0, 1, .i, .page, .relaxed, .none, .b4, false, false⟩,
     .mst ⟨.int 4, .v 4, 0, 1, .i, .page, .relaxed, .none, .b4, false, false⟩, .sread (.v 3) 4, .swrite (.v 3) 4, .stream (.v 1) 0 false, .mboxBind (.s 1) (.s 3) 0,
     .mboxCount (.v 1) (.s 2) 0].all (fun i => !i.wf) = true := by decide +kernel

/-- A header's signature, an unassigned opcode, and a reserved bit, a reserved code or a fixed field at another value. -/
theorem test_words_refused :
    [decode 0xFC80001780000000, decode 0x4F00000000000000, decode 0x9700000000000000, decode 0x00E0000000000001, decode 0x03E0200000000000,
     decode 0x10070A1200240380, decode 0x6009840004000014, decode 0x7000000000000002, decode 0x7900000000000001].map
      (fun r => match r with | .ok _ => none | .error e => some e) =
    [some .headerSignature, some .unassignedOpcode, some .unassignedOpcode, some .illegalField, some .illegalField, some .illegalField,
     some .illegalField, some .illegalField, some .illegalField] := by decide +kernel

/-- Headers that the spec writes out decode with their fields (R119); a reserved bit makes a word no header. -/
theorem test_headers :
    (decodeHeader 0xFC80001780000000).map (fun h => (h.cls, h.count.val)) = some (.mem, 0) ∧ (decodeHeader 0xFC00027F80000000).isSome = true ∧
    (decodeHeader 0xFC80001780000001).isSome = false ∧ isHeaderWord 0xFC80001780000001 = true := by decide +kernel

/-! ## Arithmetic: values by hand from R203 to R224 -/

theorem test_integer_wraps :
    [v7 (.add (vv .i32)), v7 (.sub (vv .n32)), v7 (.mul (vv .i32)), v7 (.mulh (vv .i32)), v7 (.mulh (vv .n32)),
     v7 (.mad { vv .i32 with c := .v 9 })] =
    [some [8, 0, 0, 9], some [2, 0xFFFFFFFE, 0, 5], some [15, 0xFFFFFFFF, 0, 14], some [0, 0xFFFFFFFF, 0x40000000, 0],
     some [0, 0, 0x40000000, 0], some [18, 0, 0x80000000, 16]] := by decide +kernel

theorem test_integer_saturates :
    [v7 (.add { vv .i32 with sat := true }), v7 (.sub { vv .n32 with sat := true }), v7 (.abs { va .i32 with sat := true })] =
    [some [8, 0, 0x80000000, 9], some [2, 0xFFFFFFFE, 0, 5], some [5, 1, 0x7FFFFFFF, 7]] := by decide +kernel

theorem test_logic :
    [v7 (.and (vv .n32)), v7 (.or (vv .n32)), v7 (.xor (vv .n32)), v7 (.andn (vv .n32))] =
    [some [1, 1, 0x80000000, 2], some [7, 0xFFFFFFFF, 0x80000000, 7], some [6, 0xFFFFFFFE, 0, 5], some [4, 0xFFFFFFFE, 0, 5]] := by
  decide +kernel

/-- Shift counts at and past the width (R205): 0x8000_0000 in lane 2. -/
theorem test_shifts :
    [v7 (.shl (vv .n32)), v7 (.shr (vv .n32)), v7 (.sar (vv .i32)), v7 (.rot (vv .n32))] =
    [some [40, 0xFFFFFFFE, 0, 28], some [0, 0x7FFFFFFF, 0, 1], some [0, 0xFFFFFFFF, 0xFFFFFFFF, 1],
     some [40, 0xFFFFFFFF, 0x80000000, 28]] := by decide +kernel

theorem test_order_and_sign :
    [v7 (.min (vv .i32)), v7 (.max (vv .n32)), v7 (.abs (va .i32)), v7 (.neg (va .i32))] =
    [some [3, 0xFFFFFFFF, 0x80000000, 2], some [5, 0xFFFFFFFF, 0x80000000, 7], some [5, 1, 0x80000000, 7],
     some [0xFFFFFFFB, 1, 0x80000000, 0xFFFFFFF9]] := by decide +kernel

theorem test_bits :
    [v7 (.clz (va .n32)), v7 (.popc (va .n32)), v7 (.brev (va .n32)), v7 (.bfe { vv .n32 with b := ⟨.int 1, .none, 0⟩, c := .int 5 }),
     v7 (.bfe { vv .i32 with b := ⟨.int 1, .none, 0⟩, c := .int 2 }), v7 (.bfi { vv .n32 with b := ⟨.int 0, .none, 0⟩, c := .int 0 })] =
    [some [29, 0, 0, 29], some [2, 32, 1, 3], some [0xA0000000, 0xFFFFFFFF, 1, 0xE0000000], some [2, 31, 0, 3],
     some [0xFFFFFFFE, 0xFFFFFFFF, 0, 0xFFFFFFFF], some [5, 0xFFFFFFFF, 0x80000000, 7]] := by decide +kernel

theorem test_moves :
    [v7 (.mov (va .i32)), v7 (.mov { va .i32 with a := ⟨.v 8, .rot, 1⟩ }), v7 (.sel { vv .i32 with c := .s 3 }),
     v7 (.movi ⟨.v 7, ⟨.v 0, .none, 0⟩, true, 0xFFFFFFFE⟩), v7 (.addi ⟨.v 7, ⟨.v 8, .none, 0⟩, false, 1⟩),
     v7 (.andi ⟨.v 7, ⟨.v 8, .none, 0⟩, false, 4⟩), v7 (.ori ⟨.v 7, ⟨.v 8, .none, 0⟩, false, 2⟩)] =
    [some [5, 0xFFFFFFFF, 0x80000000, 7], some [7, 5, 0xFFFFFFFF, 0x80000000], some [5, 1, 0x80000000, 2],
     some [0xFFFFFFFE, 0xFFFFFFFE, 0xFFFFFFFE, 0xFFFFFFFE], some [6, 0, 0x80000001, 8], some [4, 4, 0, 4],
     some [7, 0xFFFFFFFF, 0x80000002, 7]] := by decide +kernel

/-- CMP.LT compares as its type says (R207); CMPI has its condition in A's parameter (R210). -/
theorem test_compare :
    [s6 (.cmp { vv .i32 with d := .s 6, c := .int 2 }), s6 (.cmp { vv .n32 with d := .s 6, c := .int 2 }),
     s6 (.cmp { vv .i32 with d := .s 6, c := .int 0 }), s6 (.cmpi ⟨.s 6, ⟨.s 5, .none, 0⟩, false, 2⟩)] =
    [some 2, some 0, some 4, some 0] := by decide +kernel

/-- Overflow to infinity, a subnormal sum and an invalid sum (R212). -/
theorem test_float_sums :
    [v7 (.fadd ff), v7 (.fsub ff), v7 (.fmul ff), v7 (.ffma { ff with c := .v 10 })] =
    [some [0x40400000, 0x7F800000, 2, 0x7FC00000], some [0xBF800000, 0, 0, 0xFF800000], some [0x40000000, 0x7F800000, 0, 0xFF800000],
     some [0x40400000, 0x7F800000, 1, 0xFF800000]] := by decide +kernel

theorem test_float_order :
    [v7 (.fmin ff), v7 (.fmax ff), v7 (.fabs { ff with b := ⟨.v 0, .none, 0⟩ }), v7 (.fneg { ff with b := ⟨.v 0, .none, 0⟩ })] =
    [some [0x3F800000, 0x7F7FFFFF, 1, 0xFF800000], some [0x40000000, 0x7F7FFFFF, 1, 0x7F800000], some [0x3F800000, 0x7F7FFFFF, 1, 0x7F800000],
     some [0xBF800000, 0xFF7FFFFF, 0x80000001, 0x7F800000]] := by decide +kernel

theorem test_float_quotients :
    [v7 (.fdiv ff), v7 (.fsqrt { ff with b := ⟨.v 0, .none, 0⟩ })] =
    [some [0x3F000000, 0x3F800000, 0x3F800000, 0x7FC00000], some [0x3F800000, 0x5F7FFFFF, 0x1A3504F3, 0x7FC00000]] := by decide +kernel

/-- FLDEXP by an integer, FGETEXP and FTOI of simple values (R219). -/
theorem test_float_parts :
    [v7 (.fldexp { ff with b := ⟨.int 3, .none, 0⟩ }), v7 (.itof { vv .f32 with b := ⟨.int 0, .none, 0⟩ }),
     v7 (.itof { vv .f32 with b := ⟨.int 1, .none, 0⟩ })].map (·.map (·.take 1)) =
    [some [0x41000000], some [0x40A00000], some [0x40A00000]] ∧
    (v7 (.itof { vv .f32 with b := ⟨.int 0, .none, 0⟩ })) = some [0x40A00000, 0xBF800000, 0xCF000000, 0x40E00000] ∧
    (v7 (.ftoi { vv .i32 with a := ⟨.v 11, .none, 0⟩, b := ⟨.int 4, .none, 0⟩ })).map (·.take 1) = some [2] := by decide +kernel

/-! ## Cross-lane instructions (R189 to R197) -/

theorem test_cross_lane :
    [v7 (.shfl { vv .i32 with c := .exec }), v7 (.scan { vv .i32 with b := ⟨.int 0, .none, 0⟩, c := .exec }),
     v7 (.bcast { vv .i32 with b := ⟨.int 1, .none, 0⟩, c := .exec }),
     v7 (.setlane { vv .i32 with a := ⟨.s 5, .none, 0⟩, b := ⟨.int 2, .none, 0⟩, c := .exec }),
     v7 (.redux { vv .i32 with b := ⟨.int 0, .none, 0⟩, c := .exec })] =
    [some [7, 0xFFFFFFFF, 0x80000000, 0x80000000], some [5, 4, 0x80000004, 0x8000000B], some [0xFFFFFFFF, 0xFFFFFFFF, 0xFFFFFFFF, 0xFFFFFFFF],
     some [0, 0, 2, 0], some [0x8000000B, 0x8000000B, 0x8000000B, 0x8000000B]] ∧
    [s6 (.vote { vv .i32 with d := .s 6, b := ⟨.int 0, .none, 0⟩, c := .exec }), s6 (.elect { vv .i32 with d := .s 6, c := .s 3 })] =
    [some 0xF, some 1] := by decide +kernel

/-! ## Control (R174 to R188) -/

/-- Where a group stands: header, index, EXEC, the token stack's length, depth, base. -/
def place (o : Host.Outcome State Fault Refusal) : Option (List Nat) :=
  (groupOf o).map fun g => [g.hdr.toNat, g.idx, g.exec.toNat, g.tokens.length, g.depth, g.base]

theorem test_control :
    [place (exec .nop s1), place (exec (.bra .all (.int 0) 2) s1), place (exec (.bra .none (.int 0) 2) s1),
     place (exec .tokenIf s1), place (exec (.tokenLoop 2) s1), place (exec (.brx (.s 6)) s1), place (exec (.call (.s 3) 2 2) s1),
     place (exec (.exit (.s 3)) s1)] =
    [some [16, 0, 15, 0, 0, 0], some [16, 0, 15, 0, 0, 0], some [16, 0, 15, 0, 0, 0], some [16, 0, 15, 1, 0, 0], some [16, 0, 15, 1, 0, 0],
     some [16, 0, 15, 0, 0, 0], some [16, 0, 5, 1, 1, 16], some [16, 0, 10, 0, 0, 0]] := by decide +kernel

def inIf (pending : Mask) : State := machine { group1 with tokens := [{ kind := .cond, pending, join := 0 }] } team1 launch1

theorem test_divergence :
    [place (exec (.brd (.s 3) 2) (inIf 0)), place (exec (.joinIf 2) (inIf 0)), place (exec (.joinIf 2) (inIf 0x5)),
     place (exec .yield (inIf 0x5))] =
    [some [16, 0, 10, 1, 0, 0], some [16, 0, 15, 0, 0, 0], some [0, 0, 5, 1, 0, 0], some [0, 0, 5, 1, 0, 0]] := by decide +kernel

/-- A second split of a used token traps as illegal-convergence (R177), and so does RET with no CALL token (R183). -/
theorem test_convergence_traps :
    [exec (.brd (.s 3) 2) (inIf 0xA), exec .ret s1].map (fun o => (groupOf o).map fun g => (g.trapCause, g.trapPc, g.phase)) =
    [some (0x04, 0x100000000, .stopped), some (0x04, 0x100000000, .stopped)] := by decide +kernel

/-! ## Traps and special registers (R352 to R358) -/

theorem test_trap_enters_handler :
    (groupOf (exec (.trap 0x2A) (machine { group1 with handler := 16 } team1 launch1))).map
      (fun g => (g.sup, g.hdr, g.idx, g.trapCause, g.trapAddr, g.trapPc)) = some (true, 16, 0, 0x14, 0x2A, 0x100000000) := by decide +kernel

/-- RETRY goes back to index 1 of the clause at 0; NEXT past its last word, to the clause at 16. -/
theorem test_return_from_trap :
    [exec .rftRetry sH, exec .rftNext sH].map (fun o => (groupOf o).map fun g => (g.sup, g.hdr.toNat, g.idx)) =
    [some (false, 0, 1), some (false, 16, 0)] := by decide +kernel

/-- s58 names SU2 in the handler; FPSTAT takes a written value; TRAPCAUSE is no register of the program's to write (R356). -/
theorem test_specials :
    (groupOf (exec (.sread (.s 6) 4) sH)).map (fun g => g.readS 6) = some 0x14 ∧ groupH.readS 58 = 77 ∧
    (groupOf (exec (.swrite (.s 3) 3) s1)).map (·.fpstat) = some 5 ∧
    (groupOf (exec (.swrite (.s 3) 24) s1)).map (·.trapCause) = some 0x02 := by decide +kernel

/-! ## Memory -/

/-- STFE with one address for the group writes lane l's word 4·l bytes on and marks the granule full (R264, R279). -/
theorem test_stfe :
    (match exec (.stfe ⟨.v 8, .s 4, 0, 0, .i, .page, .relaxed, .none, .b4, false, false⟩) s1 with
     | .next t => (t.team? 3).map fun (x : Team) => ([0, 1, 4, 11, 12].map fun i => x.spadByte (64 + i), SMap.get false x.fe 4, SMap.get false x.fe 5)
     | _ => none) = some ([5, 0, 0xFF, 0x80, 7], true, false) := by decide +kernel

/-- A load is counted on flag A of its clause, and its destination is untouched until it completes (R125, R270). -/
theorem test_load_issues :
    (match exec (.ld ⟨.v 8, .s 4, 0, 0, .i, .page, .relaxed, .none, .b4, false, false⟩) s1 with
     | .next t => some (t.ops.length, (t.group? 4).map fun g => g.readV 8 0)
     | _ => none) = some (1, some 5) := by decide +kernel

/-- The encoder and decoder of VDEC blocks (R284 to R286): 3, 5 and 4 as differences from 3 of two bits. -/
theorem test_block_codec :
    vHeader (leNat ((vEncode [3, 5, 4]).take 8)) = some (3, 0, 2, 3) ∧ vValues 3 0 2 3 (leNat ((vEncode [3, 5, 4]).drop 8)) = [3, 5, 4] := by
  decide +kernel

/-! ## Queues and the edge -/

theorem test_queue_restart :
    (match exec (.qtailWrite 3 100) State.reset with
     | .next t => some ((t.queue 3).ack, (t.queue 3).head, (t.queue 3).cack)
     | _ => none) = some (99, 100, 99) := by decide +kernel

theorem test_registers :
    (match exec (.registerWrite 0x30110 7) State.reset with | .next t => some (registerRead t 0x30110) | _ => none) = some 7 ∧
    (match exec (.pwrcapWrite 5 0x12345) State.reset with | .next t => some (registerRead t 0x30928) | _ => none) = some 0x2345 := by
  decide +kernel

/-- A host access where no memory is stops the run under its name (R232, R396). -/
theorem test_unbacked_host_access :
    (match exec (.hostBar2Access 0 8 none) { State.reset with dev := { powered := true, hwin := 0xFFFFFFFFF } } with
     | .fault x => some x
     | _ => none) = some Fault.unbackedAddress := by decide +kernel

/-- A word placed where the next step fetches runs: MOVI v7, −1 (R210). -/
theorem test_fetched_word_runs :
    groupOf (step (State.reset.withFetchWord 64 0x2A070001FFFFFFFF)) |>.map (fun g => (g.readV 7 0, g.hdr, g.idx)) |> (· = some (0xFFFFFFFF, 16, 0)) := by
  decide +kernel

/-! ## States that meet the hypotheses of the statements

Each theorem below names a statement and gives a state and operands that meet its hypotheses, case by case. -/

def isOk {ε α : Type} (x : Except ε α) : Bool := match x with | .ok _ => true | .error _ => false
def okOr {ε α : Type} (x : Except ε α) (d : α) : α := match x with | .ok a => a | .error _ => d

theorem eq_ok {ε α : Type} {x : Except ε α} (d : α) (h : isOk x = true) : x = .ok (okOr x d) := by
  cases x <;> simp_all [isOk, okOr]

/-- A step of a group looks at these parts of the state alone to find its instruction. -/
theorem issues_more {s t : State} {c : Ctx} (h : Issues s c) (h0 : t.cur = s.cur) (h1 : t.groups = s.groups) (h2 : t.teams = s.teams)
    (h3 : t.launches = s.launches) (h4 : t.regions = s.regions) : Issues t c := by
  simpa [Issues, State.ctx?, State.group?, State.team?, State.launch?, State.region?, h0, h1, h2, h3, h4] using h

theorem who_of {s : State} {gid : Nat} {c : Ctx} (h : s.ctx? gid = some c) : s.who? gid = some (c.who s) := by
  simp only [State.ctx?, Option.bind_eq_bind, Option.bind_eq_some_iff, Option.pure_def, Option.some.injEq] at h
  obtain ⟨g, h1, t, h2, l, h3, _, _, _, _, _, _, _, _, rfl⟩ := h
  simp [State.who?, h1, h2, h3, Ctx.who]

theorem no_target {c : Ctx} {x : Int} (n : Nat) (hx : x = (n : Int)) (h : isHeaderAt c.r n = false) : ∀ b, ¬ TargetAt c x b := by
  rintro b ⟨h1, h2⟩
  have : b.toNat = n := by omega
  rw [this] at h2
  simp_all

/-- The small machine with another group. -/
def sG (g : Group) : State := machine g team1 launch1
def cG (g : Group) : Ctx := frame g team1 launch1

theorem issuesG {g : Group} (h1 : g.team = 3) (h4 : g.hdr = 0) (h5 : g.phase = .issuing) : Issues (sG g) (cG g) :=
  issues_machine h1 rfl rfl h4 h5

theorem issues1 : Issues s1 c1 := issuesG rfl rfl rfl
theorem issuesH : Issues sH cH := issuesG rfl rfl rfl

/-- A clause of two words. -/
def hdr2 : Header := { hdr1 with count := 1 }
def code2 : List Word := [BitVec.ofNat 64 hdr2.pack, 0x00E0000000000000, 0x00E0000000000000]
def reg2 : Region := { reg1 with code := code2 }
def s2 : State := { s1 with regions := [(2, reg2)] }
def c2 : Ctx := { c1 with r := reg2, h := hdr2 }

theorem issues2 : Issues s2 c2 := by
  refine ⟨?_, rfl⟩
  have hc : codeAt reg2 0 = some (BitVec.ofNat 64 hdr2.pack) := by decide
  have hd : decodeHeader (BitVec.ofNat 64 hdr2.pack) = some hdr2 := by decide
  simp [State.ctx?, s2, c2, s1, c1, machine, frame, State.group?, State.team?, State.launch?, State.region?, SMap.entry?, group1, team1,
    launch1, hc, hd]

/-! ### A machine with memory

Context 0 has its entry at 0x10000, four levels of tables from 0x12000 on, its stacks from virtual 0x100000 on and a pool at
0x20000. Virtual page 1 is at physical 0x100000, and the first stack page at 0x110000. -/

def cellsAt (a n v : Nat) : List Host.Cell :=
  (List.range n).filterMap fun i => let b := BitVec.ofNat 8 (v / 256 ^ i); if b = 0 then none else some (a + i, b)

def leafOf (frame : Nat) : Nat := 0xF + frame * 256 + 2 ^ 52

def mem1 : List Host.Cell :=
  cellsAt 0x10000 32 (0x12001 + 0x100000 * 2 ^ 64 + 3 * 2 ^ 160 + 0x20000 * 2 ^ 192) ++ cellsAt 0x12000 8 0x14001 ++
    cellsAt 0x14000 8 0x16001 ++ cellsAt 0x16000 8 0x18001 ++ cellsAt 0x18008 8 (leafOf 0x10) ++ cellsAt 0x18080 8 (leafOf 0x11) ++
    cellsAt 0x20000 72 (2 + 4 * 2 ^ 64 + 2 ^ 96 + (0x12 + 2 ^ 36) * 2 ^ 512)

def fab1 : Fabric :=
  { tlb := [(0, ⟨0, 1, BitVec.ofNat 64 (leafOf 0x10), 0⟩), (0, ⟨0, 16, BitVec.ofNat 64 (leafOf 0x11), 0⟩)] }

/-- A machine with memory, its pages translated. -/
def withMem (s : State) : State := { s with mem := mem1, fab := fab1, dev := { s.dev with ctxtab := 0x10000 } }

/-- A memory access of width 4 through record 0 at s4 into v7. -/
def acc : MForm := ⟨.v 7, .s 4, 0, 0, .i, .page, .relaxed, .none, .b4, false, false⟩

theorem witness_memory : Memory.wf mem1 = true ∧ ctxValid (withMem s1) (ctxEntry (withMem s1) 0) = true ∧
    walkTables (withMem s1) 0 0x10000 = .found (BitVec.ofNat 64 (leafOf 0x10)) 0 ∧ walkTables (withMem s1) 0 0x20000 = .absent 0 ∧
    (poolOf (withMem s1) 0).isSome = true := by decide +kernel

/-! ### A side of a convoy -/

def teamLead : Team := { team1 with side := .lead, peer := 7 }
def teamEscort : Team := { team1 with side := .escort, peer := 3, place := 1 }

/-- The small machine's group on the lead, once CONVOY_MATCH has paired its operation. -/
def sLead (g : Group) : State := machine { g with matched := true } teamLead launch1
def cLead (g : Group) : Ctx := frame { g with matched := true } teamLead launch1

theorem issuesLead {g : Group} (h1 : g.team = 3) (h4 : g.hdr = 0) (h5 : g.phase = .issuing) : Issues (sLead g) (cLead g) :=
  issues_machine h1 rfl rfl h4 h5

/-! ### Words and the machine around an instruction -/

theorem witness_DecodeEncode : Instr.nop.wf = true ∧ encode .nop = some 0x00E0000000000000 ∧
    (Instr.ld acc).wf = true ∧ (encode (.ld acc)).isSome = true := by decide

theorem witness_CodeWordsRead : decode? 0x00E0000000000000 = some .nop := by decide

theorem witness_StepRunsDecoded : s1.ctx? 4 = some c1 ∧ c1.g.phase = .issuing ∧ frozen s1 c1.g = false ∧
    codeAt c1.r (c1.g.hdr.toNat + 8 * c1.g.idx) = some 0x00E0000000000000 ∧ decode? 0x00E0000000000000 = some .nop ∧ s1.inputs = [] ∧
    enabledRows s1 = [⟨some 4, .nop⟩] ∧ nextRow s1 = some ⟨some 4, .nop⟩ ∧ enabledRows State.reset = [] ∧
    (∀ i ∈ [Instr.powerOn, .nop], { State.reset with inputs := [i] }.inputs = i :: []) ∧ isOutside .powerOn = true ∧ isOutside .nop = false :=
  ⟨issues1.1, rfl, by decide, by decide, by decide, rfl, by decide +kernel, by decide +kernel, by decide +kernel, by decide, rfl, rfl⟩

theorem witness_StepStops : Issues s1 c1 ∧ encode .powerOn = none ∧
    (match step { State.reset with inputs := [.hostBar2Access 0 1 none], dev := { State.reset.dev with hwin := 0xFFFFFFFFF } } with
      | .fault x => decide (x = .unbackedAddress) | _ => false) = true :=
  ⟨issues1, rfl, by decide +kernel⟩

theorem witness_StepKeepsMemoryCanonical : (withMem s1).MemCanonical ∧ (match step (withMem s1) with | .next _ => true | _ => false) = true :=
  ⟨by unfold State.MemCanonical; decide +kernel, by decide +kernel⟩

/-! ### Operands and elementwise instructions -/

def f1 : OForm := vv .i32
def u1 : OForm := { op3 (.s 6) (.s 3) (.s 5) (.v 0) .i32 with uni := true }
def x1 : Sources := registerSources c1 f1 (shape2 .i32) s1
def xu : Sources := registerSources c1 u1 (shape2 .i32) s1

theorem ports_none {c : Ctx} {f : OForm} {sh : Shape} (h : (usedSources f sh).all
    (fun e => srcOk c.g f.uni e.2.is64 e.1 && !isPort e.1.spec) = true) :
    ∀ e ∈ usedSources f sh, srcOk c.g f.uni e.2.is64 e.1 = true ∧ isPort e.1.spec = false := by
  simpa using h

/-- The first clause for the boundary register v127 too, which lies past the end of a ring that is not filled. -/
theorem witness_OperandsRead :
    (∀ e ∈ usedSources f1 (shape2 .i32), srcOk c1.g f1.uni e.2.is64 e.1 = true ∧ isPort e.1.spec = false) ∧
    (∀ e ∈ usedSources (va .i32 |> fun f => { f with a := ⟨.v 127, .none, 0⟩ }) (shape1 .i32), srcOk c1.g false e.2.is64 e.1 = true ∧ isPort e.1.spec = false) ∧
    (∃ e ∈ usedSources { f1 with b := ⟨.txq 0, .none, 0⟩ } (shape2 .i32), srcOk c1.g false e.2.is64 e.1 = false) :=
  ⟨by decide, by decide, by decide⟩

/-- A stream of one element a vector with one vector fetched. -/
def stream1 : Stream :=
  { desc := 1, record := 0, ready := true, fetched := [{ lanes := [{ val := 7 }] }] }
def gStream : Group := { group1 with exec := 1, streams := [(0, stream1)] }

theorem witness_VectorFormCompletes : aluRow (.add f1) = some ⟨f1, shape2 .i32, fitted f1 fun a b => ival .i32 a + ival .i32 b⟩ ∧
    Issues s1 c1 ∧ f1.uni = false ∧ f1.d = .v 7 ∧ vOk c1.g (shape2 f1.ty).d 7 = true ∧ ∃ x, readSources c1 f1 (shape2 .i32) s1 = .ok x :=
  ⟨rfl, issues1, rfl, rfl, by decide, _, rfl⟩

theorem witness_UniformFormCompletes : (∃ r, aluRow (.add u1) = some r) ∧ Issues s1 c1 ∧ u1.uni = true ∧ u1.d = .s 6 ∧
    (∃ x, readSources c1 u1 (shape2 .i32) s1 = .ok x) ∧ (∃ x, readSources c1 { u1 with d := .txq 3 } (shape2 .i32) s1 = .ok x) :=
  ⟨⟨_, rfl⟩, issues1, rfl, rfl, ⟨_, rfl⟩, _, rfl⟩

def box1 : Mailbox := { ctx := 0, number := 0, line := 0x10000, phys := 0x100000, handler := 0, prio := 0, home := none, place := 0 }
def gBox : Group := { group1 with tx := [(3, { bind := 0x8000000000000000 })] }
def sBox : State := { sG gBox with boxes := [(7, box1)] }

/-- A send port bound to a mailbox of the context. -/
theorem witness_UniformSendCompletes : Issues sBox (cG gBox) ∧ gBox.sup = false ∧ team1.side = .solo ∧
    (∃ x, readSources (cG gBox) { u1 with d := .txq 3 } (shape2 .i32) sBox = .ok x) ∧
    sendFlit (cG gBox) 3 5 sBox = .ok (okOr (sendFlit (cG gBox) 3 5 sBox) sBox) :=
  ⟨issues_more (issuesG (g := gBox) rfl rfl rfl) rfl rfl rfl rfl rfl, rfl, rfl, ⟨_, rfl⟩, eq_ok _ (by decide +kernel)⟩

theorem witness_OperandsRead_stream : (sG gStream).group? (cG gStream).gid = some gStream ∧ (sG gStream).launch? (cG gStream).lid = some launch1 ∧
    SMap.entry? gStream.streams 0 = some stream1 ∧
    stream1.ready = true ∧ stream1.pos < streamCount stream1.desc ∧ stream1.fetched = { lanes := [{ val := 7 }] } :: [] ∧
    ∀ l ∈ lanes gStream.exec, ∀ x, [({ val := 7 } : StreamLane)][l]? = some x → x.trap = none := by
  refine ⟨rfl, rfl, rfl, rfl, by decide +kernel, rfl, ?_⟩
  intro l _ x hx
  match l, hx with
  | 0, hx => cases hx; rfl
  | n + 1, hx => simp at hx

theorem witness_ElementwiseFrame : Issues s1 c1 ∧ dstOk c1.g f1.uni (shape2 f1.ty).d f1.d = true ∧ (∀ n, f1.d ≠ .txq n) ∧
    (∀ e ∈ usedSources f1 (shape2 .i32), srcOk c1.g f1.uni e.2.is64 e.1 = true ∧ isPort e.1.spec = false) ∧ c1.g.popFp = 0 ∧ c1.g.popSubst = 0 ∧ ∃ t, exec (.add f1) s1 = .next t :=
  ⟨issues1, by decide, by decide, by decide, rfl, rfl, _, rfl⟩

theorem witness_RegisterOnlyKeepsMemory : RegisterOnly .nop ∧ RegisterOnly (.add f1) ∧
    (∀ c, s1.ctx? s1.cur = some c → ∀ e ∈ c.g.rx, e.2.hdr.getLsbD 16 = false) ∧ (∃ t, exec .nop s1 = .next t) ∧ ∃ t, exec (.add f1) s1 = .next t := by
  refine ⟨.inl rfl, .inr (.inl ⟨_, rfl, by decide⟩), ?_, ⟨_, rfl⟩, _, rfl⟩
  intro c h
  rw [issues1.1] at h
  cases h
  decide

/-! ### Control -/

/-- At the last instruction of a clause, and before it. -/
theorem witness_NopGoesOn : Issues s2 c2 ∧ c2.g.idx ≤ c2.h.count.val ∧ Issues s1 c1 ∧ c1.h.count.val < c1.g.idx ∧ c1.g.popFp = 0 ∧
    c1.g.popSubst = 0 :=
  ⟨issues2, by decide, issues1, by decide, rfl, rfl⟩

theorem target16 (c : Ctx) (h : c.r = reg1) (hc : c.target 2 = 16) : TargetAt c (c.target 2) 16 := ⟨hc, by rw [h]; decide⟩

theorem witness_BranchAll : Issues s1 c1 ∧ condMask c1 (.int 0) = .ok 0xF ∧ braTaken .all 0xF c1.g.exec = true ∧
    TargetAt c1 (c1.target 2) 16 ∧ (∀ b, ¬ TargetAt c1 (c1.target 1) b) ∧ braTaken .none 0xF c1.g.exec = false :=
  ⟨issues1, rfl, by decide, ⟨by decide, by decide⟩, no_target 8 (by decide) (by decide), by decide⟩

def inTok (t : Token) : Group := { group1 with tokens := [t] }
def ifTok : Token := { kind := .cond, depth := 0 }

/-- No lane, every lane and some lanes take the branch; the innermost token is an unused IF token, a LOOP token, or absent. -/
theorem witness_DivergentBranches : isSReg (.v 3) = false ∧ Issues (sG (inTok ifTok)) (cG (inTok ifTok)) ∧
    condMask (cG (inTok ifTok)) (.s 3) = .ok 5 ∧ condMask (cG (inTok ifTok)) (.s 6) = .ok 0 ∧ condMask (cG (inTok ifTok)) (.int 0) = .ok group1.exec ∧
    TargetAt (cG (inTok ifTok)) ((cG (inTok ifTok)).target 2) 16 ∧ (∀ b, ¬ TargetAt (cG (inTok ifTok)) ((cG (inTok ifTok)).target 1) b) ∧
    (inTok ifTok).sup = false ∧ (inTok ifTok).tokens = ifTok :: [] ∧ ifTok.kind = .cond ∧ ifTok.depth.toNat = (inTok ifTok).depth ∧
    ifTok.pending = 0 ∧ ifTok.cont = 0 ∧ Issues (sG (inTok { ifTok with kind := .loop })) (cG (inTok { ifTok with kind := .loop })) ∧
    Issues s1 c1 ∧ c1.g.tokens = [] ∧ c1.g.spilledTok = 0 ∧ condMask c1 (.s 3) = .ok 5 :=
  ⟨rfl, issuesG rfl rfl rfl, rfl, rfl, rfl, ⟨by decide, by decide⟩, no_target 8 (by decide) (by decide), rfl, rfl, rfl, rfl, rfl, rfl,
    issuesG rfl rfl rfl, issues1, rfl, rfl, rfl⟩

/-- The clause at 16 ends in JOIN.LOOP. Fifteen tokens leave one slot. -/
def tok15 : Group := { group1 with tokens := List.replicate 15 ifTok }

theorem witness_DivergentBranches_push : Issues (sG tok15) (cG tok15) ∧ tok15.sup = false ∧ tok15.tokens.length < 16 ∧
    tok15.tokens.length + tok15.spilledTok < 16 ∧
    (let g := { tok15 with spilledTok := 1 }; Issues (sG g) (cG g) ∧ g.wbp.toNat + 4 * g.width * (g.base + 112) + 32 * (15 + 1 + 1 - 16) ≤ g.wlim.toNat) ∧
    TargetAt (cG tok15) ((cG tok15).target 2) 16 ∧ (codeAt reg1 16).map (·.toNat) = some hdr1.pack ∧ 1 = fld hdr1.pack 51 4 + 1 ∧
    (codeAt reg1 24).bind decode? = some (.joinLoop (.int 0) 0xFFFFFFFE) :=
  ⟨issuesG rfl rfl rfl, rfl, by decide, by decide, ⟨issuesG rfl rfl rfl, by decide⟩, ⟨by decide, by decide⟩, by decide, by decide, by decide⟩

def half : Group := { inTok ifTok with exec := 3 }

/-- An IF token with lanes pending, with none pending, LOOP tokens whose lanes repeat, leave and have all ended, YIELD. -/
theorem witness_Joins :
    (Issues s1 c1 ∧ c1.g.sup = false ∧ c1.g.tokens = [] ∧ c1.g.spilledTok = 0) ∧
    (let g := { group1 with spilledTok := 1 }; Issues (sG g) (cG g) ∧ g.sup = false ∧ g.tokens = [] ∧ g.spilledTok ≠ 0 ∧ g.porterTrap = none) ∧
    (let t := { ifTok with pending := 0xC, join := 16 }; let g := { inTok t with exec := 3 }
     Issues (sG g) (cG g) ∧ g.sup = false ∧ g.tokens = t :: [] ∧ t.kind = .cond ∧ t.depth.toNat = g.depth ∧ t.pending ≠ 0 ∧ t.held = false) ∧
    (Issues (sG half) (cG half) ∧ ifTok.pending = 0 ∧ TargetAt (cG half) ((cG half).target 2) 16 ∧ ∀ b, ¬ TargetAt (cG half) ((cG half).target 1) b) ∧
    (let t := { ifTok with kind := .loop }; let g := inTok t
     Issues (sG g) (cG g) ∧ g.tokens = t :: [] ∧ t.kind = .loop ∧ t.depth.toNat = g.depth ∧
       (condMask (cG g) (.s 3) = .ok 5 ∧ (5 ||| t.cont) &&& g.live ≠ 0) ∧
       (condMask (cG g) (.s 6) = .ok 0 ∧ (0 ||| t.cont) &&& g.live = 0 ∧ (t.exited ||| (g.exec &&& ~~~0)) &&& g.live ≠ 0) ∧
       TargetAt (cG g) ((cG g).target 2) 16 ∧ ∀ b, ¬ TargetAt (cG g) ((cG g).target 1) b) ∧
    (let t := { ifTok with kind := .loop }; let g := { inTok t with exec := 0, live := 0 }
     Issues (sG g) (cG g) ∧ condMask (cG g) (.s 6) = .ok 0 ∧ (0 ||| t.cont) &&& g.live = 0 ∧ (t.exited ||| (g.exec &&& ~~~0)) &&& g.live = 0 ∧ g.spilledTok = 0) :=
  ⟨⟨issues1, rfl, rfl, rfl⟩, ⟨issuesG rfl rfl rfl, rfl, rfl, by decide, rfl⟩, ⟨issuesG rfl rfl rfl, rfl, rfl, rfl, rfl, by decide, rfl⟩,
    ⟨issuesG rfl rfl rfl, rfl, ⟨by decide, by decide⟩, no_target 8 (by decide) (by decide)⟩,
    ⟨issuesG rfl rfl rfl, rfl, rfl, rfl, ⟨rfl, by decide⟩, ⟨rfl, by decide, by decide⟩, ⟨by decide, by decide⟩, no_target 8 (by decide) (by decide)⟩,
    ⟨issuesG rfl rfl rfl, rfl, by decide, by decide, rfl⟩⟩

theorem witness_LanesLeave :
    (let t := { ifTok with kind := .loop }; let g := { group1 with tokens := [ifTok, t] }
     Issues (sG g) (cG g) ∧ g.sup = false ∧ g.tokens = [ifTok] ++ t :: [] ∧ (∀ x ∈ [ifTok], x.kind = .cond ∧ x.depth.toNat = g.depth) ∧
       t.kind = .loop ∧ t.depth.toNat = g.depth ∧ condMask (cG g) (.s 3) = .ok 5 ∧ g.exec &&& ~~~5 ≠ 0 ∧ g.live &&& ~~~5 ≠ 0) ∧
    (Issues s1 c1 ∧ c1.g.sup = false ∧ c1.g.tokens = [] ∧ c1.g.spilledTok = 0 ∧ condMask c1 (.int 0) = .ok 0xF ∧ c1.g.live &&& ~~~0xF = 0 ∧
      condMask c1 (.s 3) = .ok 5 ∧ c1.g.live &&& ~~~5 ≠ 0 ∧ c1.g.exec &&& ~~~5 ≠ 0) ∧
    (∃ g : Group, (g.returnEffect { kind := .call, pending := 1 } []).exec ≠ 0) :=
  ⟨⟨issuesG rfl rfl rfl, rfl, rfl, by decide, rfl, rfl, rfl, by decide, by decide⟩,
    ⟨issues1, rfl, rfl, rfl, rfl, by decide, rfl, by decide, by decide⟩, { group1 with exec := 0 }, by decide⟩

/-- s3 holds 5, past the table of two entries; s6 holds 0, its first entry; an entry that is no header's address. -/
theorem witness_IndexedBranch : Issues s1 c1 ∧ (c1.l.dispatch c1.r)[(c1.g.readS 6).toNat]? = some 16 ∧ TargetAt c1 (16 : Nat) 16 ∧
    (c1.l.dispatch c1.r).length ≤ (c1.g.readS 3).toNat ∧
    (let g := { group1 with sregs := [(3, 1)] }
     Issues (sG g) (cG g) ∧ (launch1.dispatch reg1)[(g.readS 3).toNat]? = some 24 ∧ ∀ a, ¬ TargetAt (cG g) (24 : Nat) a) :=
  ⟨issues1, by decide, ⟨rfl, by decide⟩, by decide, issuesG rfl rfl rfl, by decide, no_target 24 rfl (by decide)⟩

theorem witness_Calls : (Issues s1 c1 ∧ c1.g.sup = false ∧ condMask c1 (.int 0) = .ok 0xF ∧ condMask c1 (.s 6) = .ok 0 ∧
      TargetAt c1 (c1.target 2) 16 ∧ (c1.l.dispatch c1.r)[(c1.g.readS 6).toNat]? = some 16 ∧
      CallFits c1.g (8 * (1 : BitVec 4).toNat) ∧ c1.g.tokens.length ≠ 16 ∧ c1.g.occ + 8 * (1 : BitVec 4).toNat ≤ c1.g.ring) ∧
    (let g := { group1 with wlim := 0x00E0000000000000 }; Issues (sG g) (cG g) ∧ ¬ CallFits g (8 * (1 : BitVec 4).toNat)) ∧
    (let t : Token := { kind := .call, slide := 1, pending := 0xC, join := 16, depth := 0 }
     let g := { group1 with tokens := [t], depth := 1, base := 8, exec := 3 }
     Issues (sG g) (cG g) ∧ g.tokens = t :: [] ∧ t.kind = .call ∧ t.depth.toNat + 1 = g.depth ∧ (g.exec ||| t.pending) &&& g.live ≠ 0) ∧
    (Issues (sG half) (cG half) ∧ half.tokens = ifTok :: [] ∧ ifTok.kind ≠ .call) :=
  ⟨⟨issues1, rfl, rfl, rfl, ⟨by decide, by decide⟩, by decide, ⟨by decide, by decide⟩, by decide, by decide⟩, ⟨issuesG rfl rfl rfl, fun h => absurd h.2 (by decide)⟩,
    ⟨issuesG rfl rfl rfl, rfl, rfl, rfl, by decide⟩, issuesG rfl rfl rfl, rfl, by decide⟩

theorem witness_WindowInstructions : (Issues s1 c1 ∧ c1.g.sup = false ∧ c1.g.porterTrap = none ∧ (∀ m ∈ s1.porter, m.group ≠ c1.gid) ∧ c1.g.wb = none) ∧
    (let g := { group1 with wb := some 0 }; Issues (sG g) (cG g) ∧ g.wb ≠ none ∧ ∀ m ∈ (sG g).porter, m.group ≠ 4) ∧
    (let s := { s1 with porter := [{ group := 4, kind := .spill, off := 0, since := 5 }] }; Issues s c1 ∧ ∃ m ∈ s.porter, m.group = c1.gid) ∧
    (∀ p ∈ [(0, true), (1, true), (1, false)],
      let g : Group := { group1 with phase := .paused, pauseUntil := some p, rx := [(0, { hdr := 0, payload := 0, src := 0 })] }
      (sG g).ctx? 4 = some (cG g) ∧ g.phase = .paused ∧ g.pauseUntil = some p ∧ g.rx ≠ []) ∧
    (0 : Word) ≤ s1.cycle (reticleOf c1.t.place) ∧ s1.cycle (reticleOf c1.t.place) < 1 := by
  refine ⟨⟨issues1, rfl, rfl, by decide, rfl⟩, ⟨issuesG rfl rfl rfl, by decide, by decide⟩,
    ⟨issues_more issues1 rfl rfl rfl rfl rfl, _, .head _, rfl⟩, ?_, by decide, by decide⟩
  intro p hp
  refine ⟨?_, rfl, rfl, by simp⟩
  have hc : codeAt reg1 0 = some (BitVec.ofNat 64 hdr1.pack) := by decide
  have hd : decodeHeader (BitVec.ofNat 64 hdr1.pack) = some hdr1 := by decide
  simp [State.ctx?, sG, cG, machine, frame, State.group?, State.team?, State.launch?, State.region?, SMap.entry?, group1, team1, launch1, hc, hd]

/-! ### Control past the resident tokens, and what the outside presents -/

/-- A NOP of the group, a host access that waits for a copy of its line, and one that does not. -/
theorem witness_StepRunsDecoded_stage : s1.dev.stage = 9 ∧
    (∀ d ∈ [(0 : Nat), 128], let i := Instr.hostBar2Access d 8 none
      let o : Op := { group := 4, flag := none, instr := .bcopy ⟨0, .s 4, .s 4, .s 5, 0, false, false, false⟩, exec := 0xF, locs := [0] }
      let s := { s1 with inputs := [i], ops := [(9, o)] }
      nextInput s = some i ∧ isOutside i = true ∧ hostWaits s i = decide (d = 0)) ∧
    nextInput { s1 with inputs := [.nop] } = some .nop := by decide +kernel

/-- A send that performs. -/
theorem witness_UniformSendOnce : ∃ w t, performOnce (cG gBox) ((cG gBox).portSig [0x203, 5])
    (fun u => do let u ← sendFlit (cG gBox) 3 5 u; .ok ([], u)) sBox = .ok (w, t) :=
  ⟨_, _, rfl⟩

theorem witness_DivergentBranches_push_other :
    (let g := { group1 with tokens := List.replicate 16 ifTok }
     Issues (sG g) (cG g) ∧ g.sup = false ∧ 16 ≤ g.tokens.length ∧ g.porterTrap = none ∧
       g.wbp.toNat + 4 * g.width * (g.base + 112) + 32 * (g.tokens.length + g.spilledTok + 1 - 16) ≤ g.wlim.toNat) ∧
    (let g := { group1 with tokens := List.replicate 16 ifTok, wlim := 0x00E0000000000000 }
     Issues (sG g) (cG g) ∧ g.sup = false ∧ ¬ (g.tokens.length + g.spilledTok < 16 ∨
       g.wbp.toNat + 4 * g.width * (g.base + 112) + 32 * (g.tokens.length + g.spilledTok + 1 - 16) ≤ g.wlim.toNat)) ∧
    (∀ b, ¬ TargetAt c1 (c1.target 1) b) ∧ TargetAt c1 (c1.target 0) 0 ∧ (codeAt reg1 0).map (·.toNat) = some hdr1.pack ∧
    (∀ (cond : Spec) (back : BitVec 32), (codeAt reg1 8).bind decode? ≠ some (.joinLoop cond back)) :=
  ⟨⟨issuesG rfl rfl rfl, rfl, by decide, rfl, by decide⟩, ⟨issuesG rfl rfl rfl, rfl, by decide⟩, no_target 8 (by decide) (by decide),
    ⟨by decide, by decide⟩, by decide, fun cond back h => by
      have : (codeAt reg1 8).bind decode? = some .nop := by decide
      simp [this] at h⟩

/-- Every lane breaks, continues or exits; some lanes exit. -/
theorem witness_LanesLeave_all :
    (let t := { ifTok with kind := .loop }
     let g := { group1 with tokens := [ifTok, t] }
     Issues (sG g) (cG g) ∧ condMask (cG g) (.int 0) = .ok 0xF ∧ g.exec &&& ~~~0xF = 0 ∧ g.spilledTok = 0 ∧ g.live &&& ~~~0xF = 0) ∧
    (let t := { ifTok with kind := .loop }
     let g := { group1 with tokens := [t], exec := 5 }
     Issues (sG g) (cG g) ∧ condMask (cG g) (.int 0) = .ok 5 ∧ g.exec &&& ~~~5 = 0 ∧ g.spilledTok = 0 ∧ g.live &&& ~~~5 ≠ 0) ∧
    (let g := { group1 with tokens := [ifTok, { kind := .call, depth := 0 }], exec := 5 }
     Issues (sG g) (cG g) ∧ g.sup = false ∧ condMask (cG g) (.int 0) = .ok 5 ∧ OutOfLoops g ∧ g.live &&& ~~~5 ≠ 0 ∧ g.exec &&& ~~~5 = 0 ∧
       g.spilledTok = 0) ∧
    OutOfLoops group1 ∧ OutOfLoops { group1 with tokens := [ifTok, { ifTok with depth := 7 }], spilledTok := 3 } :=
  ⟨⟨issuesG rfl rfl rfl, rfl, by decide, rfl, by decide⟩, ⟨issuesG rfl rfl rfl, rfl, by decide, rfl, by decide⟩,
    ⟨issuesG rfl rfl rfl, rfl, rfl, ⟨[ifTok], [{ kind := .call, depth := 0 }], rfl, by decide, .inr ⟨_, rfl, .inl rfl⟩⟩, by decide, by decide, rfl⟩,
    ⟨[], [], rfl, by decide, .inl ⟨rfl, rfl⟩⟩, ⟨[ifTok], [{ ifTok with depth := 7 }], rfl, by decide, .inr ⟨_, rfl, .inr (by decide)⟩⟩⟩

/-- A group with two spilled tokens below its limit, the newer one a LOOP token of the current depth, the older one a CALL's. -/
def gSpilled : Group := { group1 with spilledTok := 2 }
def loopTok : Token := { kind := .loop, depth := 0 }
def callTok : Token := { kind := .call, depth := 0 }
def sSpilled : State :=
  { withMem (sG gSpilled) with mem := mem1 ++ cellsAt 0x117FC0 32 loopTok.image.toNat ++ cellsAt 0x117FE0 32 callTok.image.toNat }

def spilledAs (n : Nat) (t : Token) : Bool :=
  match readSpilled (cG gSpilled) true n sSpilled with | .ok (x, _) => decide (x = t) | .error _ => false

theorem witness_SpilledLoops : Issues sSpilled (cG gSpilled) ∧ gSpilled.sup = false ∧ condMask (cG gSpilled) (.s 3) = .ok 5 ∧
    gSpilled.tokens = [] ∧ gSpilled.live &&& ~~~5 ≠ 0 ∧
    (match seekSpilled (cG gSpilled) 2 sSpilled with | .ok (some (1, k), _) => decide (k = loopTok) | _ => false) = true ∧
    spilledAs 1 loopTok = true ∧ spilledAs 0 callTok = true ∧ callTok.kind = .call ∧
    loopTok.kind = .loop ∧ loopTok.depth.toNat = gSpilled.depth :=
  ⟨issues_more (issuesG (g := gSpilled) rfl rfl rfl) rfl rfl rfl rfl rfl, rfl, rfl, rfl, by decide, by decide +kernel, by decide +kernel,
    by decide +kernel, rfl, rfl, rfl⟩

/-- What is read and written of the spilled tokens lies away from address 0; a path that ends comes to the LOOP token. -/
theorem witness_SpilledTokenFrame :
    (∀ locs, porterLocs sSpilled ((cG gSpilled).who sSpilled) [.store] ((cG gSpilled).g.tokenPtr 1) 32 = .ok locs → ∀ p ∈ locs, ¬ Reaches sSpilled.fab p 0) ∧
    dirtyBytes sSpilled.fab (cG gSpilled).t.place = [] ∧
    isOk (settlePaths (cG gSpilled) none { gSpilled with exec := 0 } 16 sSpilled) = true ∧
    isOk (settlePaths (cG gSpilled) (some (1, { loopTok with exited := 0xF })) { gSpilled with exec := 0 } 16 sSpilled) = true ∧
    isOk (settlePaths (cG gSpilled) none gSpilled 16 sSpilled) = true ∧
    (pathEnd reg1 0 [loopTok] { group1 with exec := 0, tokens := [loopTok] }).1 = true ∧ (pathEnd reg1 0 [] { group1 with exec := 0 }).1 = false := by
  have hp : porterLocs sSpilled ((cG gSpilled).who sSpilled) [.store] ((cG gSpilled).g.tokenPtr 1) 32 = .ok ((List.range 32).map (0x117FC0 + ·)) := by
    decide +kernel
  refine ⟨fun locs h => ?_, by decide +kernel, by decide +kernel, by decide +kernel, by decide +kernel, by decide, by decide⟩
  rw [hp] at h
  cases h
  intro p h
  simp only [List.mem_map, List.mem_range] at h
  obtain ⟨i, _, rfl⟩ := h
  have hf : ∀ n, forwarded sSpilled.fab n = n := fun n => by simp [forwarded, sSpilled, withMem, fab1]
  simp only [Reaches, hf]
  omega

/-- RET with no token, with a spilled one, and with no lane to return. -/
theorem witness_Calls_ret :
    (Issues s1 c1 ∧ c1.g.sup = false ∧ c1.g.tokens = [] ∧ c1.g.spilledTok = 0) ∧
    (let g := { group1 with spilledTok := 1 }; Issues (sG g) (cG g) ∧ g.tokens = [] ∧ g.spilledTok ≠ 0 ∧ g.porterTrap = none) ∧
    (let t : Token := { kind := .call, slide := 1, pending := 0, join := 16, depth := 0 }
     let g := { group1 with tokens := [t], depth := 1, base := 8, exec := 3, live := 0xC }
     Issues (sG g) (cG g) ∧ g.tokens = t :: [] ∧ t.kind = .call ∧ t.depth.toNat + 1 = g.depth ∧ (g.exec ||| t.pending) &&& g.live = 0 ∧ g.spilledTok = 0) :=
  ⟨⟨issues1, rfl, rfl, rfl⟩, ⟨issuesG rfl rfl rfl, rfl, by decide, rfl⟩, issuesG rfl rfl rfl, rfl, rfl, rfl, by decide, rfl⟩

/-! ### Operand rules of their own, cross-lane instructions, traps, special registers -/

theorem ex_ok {ε α : Type} {x : Except ε α} (h : isOk x = true) : ∃ a, x = .ok a := by
  cases x <;> simp_all [isOk]

theorem ex_bind {ε α β : Type} {x : Except ε α} {f : α → Except ε β} (h : isOk (x >>= f) = true) : ∃ a, x = .ok a ∧ isOk (f a) = true := by
  cases x with
  | error e => simp [isOk, bind, Except.bind] at h
  | ok a => exact ⟨a, rfl, h⟩

theorem ok_unit {ε : Type} {x : Except ε Unit} (h : isOk x = true) : x = .ok () := by
  cases x <;> simp_all [isOk]

theorem guard_ok {b : Bool} (h : isOk (guardOp b) = true) : b = true := by
  cases b
  · simp [guardOp, isOk, illegal, trap] at h
  · rfl

def sel1 : OForm := { vv .i32 with c := .s 3 }
def lea1 : OForm := { vv .n32 with d := .v 12, a := ⟨.s 4, .none, 0⟩, c := .int 2 }

theorem witness_SelectsAndAddresses :
    (Issues s1 c1 ∧ dstOk c1.g sel1.uni sel1.ty.is64 sel1.d = true ∧ srcOk c1.g sel1.uni sel1.ty.is64 sel1.a = true ∧
      srcOk c1.g sel1.uni sel1.ty.is64 sel1.b = true ∧ selMask c1.g sel1.uni sel1.c = true ∧ sel1.uni = false ∧ sel1.d = .v 7 ∧
      ∃ x, readSources c1 sel1 ⟨sel1.ty.is64, some sel1.ty, some sel1.ty, some .n64⟩ s1 = .ok x) ∧
    (let f := { sel1 with d := .s 6, a := ⟨.s 3, .none, 0⟩, b := ⟨.s 5, .none, 0⟩, uni := true }
     dstOk c1.g f.uni f.ty.is64 f.d = true ∧ srcOk c1.g f.uni f.ty.is64 f.a = true ∧ selMask c1.g f.uni f.c = true ∧
       (∃ x, readSources c1 f ⟨f.ty.is64, some f.ty, some f.ty, some .n64⟩ s1 = .ok x) ∧ ∃ t, writeUniform c1 f.d 1 s1 = .ok t) ∧
    (dstOk c1.g lea1.uni true lea1.d = true ∧ isSReg lea1.a.spec = true ∧ lea1.uni = false ∧ lea1.d = .v 12 ∧
      ∃ x, readSources c1 lea1 ⟨true, some .n64, some .n32, none⟩ s1 = .ok x) ∧
    (let f := { lea1 with d := .s 6, b := ⟨.s 3, .none, 0⟩, uni := true }
     dstOk c1.g f.uni true f.d = true ∧ isSReg f.a.spec = true ∧
       (∃ x, readSources c1 f ⟨true, some .n64, some .n32, none⟩ s1 = .ok x) ∧ ∃ t, writeUniform c1 f.d 1 s1 = .ok t) :=
  ⟨⟨issues1, rfl, rfl, rfl, rfl, rfl, rfl, _, rfl⟩, ⟨rfl, rfl, rfl, ⟨_, rfl⟩, _, rfl⟩, ⟨rfl, rfl, rfl, rfl, _, rfl⟩, rfl, rfl, ⟨_, rfl⟩, _, rfl⟩

def cmp1 : OForm := { vv .i32 with d := .s 6, c := .int 2 }

theorem witness_ComparisonsWriteMasks : (∃ op, comparisonRow (.cmp cmp1) = some (cmp1, op)) ∧ Issues s1 c1 ∧ cmp1.d = .s 6 ∧
    (∃ x, readSources c1 cmp1 (shape2 cmp1.ty) s1 = .ok x) ∧
    ∃ x, readSources c1 { cmp1 with a := ⟨.s 3, .none, 0⟩, b := ⟨.s 5, .none, 0⟩, uni := true } (shape2 cmp1.ty) s1 = .ok x :=
  ⟨⟨_, rfl⟩, issues1, rfl, ⟨_, rfl⟩, _, rfl⟩

def q1 : QForm := { d := .v 7, a := ⟨.v 10, .none, 0⟩, b := ⟨.s 6, .none, 0⟩, fmt := .e4m3, rnd := .rne, sat := false, ftz := false, uni := false }
def gScale (v : Word) : Group := { group1 with sregs := [(6, v)] }
def xq (v : Word) : Sources := registerSources (cG (gScale v)) (quantForm q1) ⟨false, some .f32, some .n32, none⟩ (sG (gScale v))

/-- The last scale operand in range, and the first out of it. -/
theorem witness_BlocksQuantised : (∃ op, quantRow (.qcvt q1) = some (q1, op)) ∧ dstOk group1 q1.uni false q1.d = true ∧
    (∀ v ∈ [(127 : Word), 128], Issues (sG (gScale v)) (cG (gScale v)) ∧
      readSources (cG (gScale v)) (quantForm q1) ⟨false, some .f32, some .n32, none⟩ (sG (gScale v)) = .ok (xq v)) ∧
    (∀ l ∈ lanes group1.exec, scaleOperandOk q1.fmt ((xq 127).b l % 2 ^ 32) = true) ∧
    (∃ l ∈ lanes group1.exec, scaleOperandOk q1.fmt ((xq 128).b l % 2 ^ 32) = false) ∧
    (Issues s1 c1 ∧ srcOk c1.g q1.uni false q1.a = true ∧ srcOk c1.g q1.uni false q1.b = true ∧ isSReg q1.b.spec = true ∧
      srcVal c1.g .n32 q1.b .nothing 0 ≤ 31 ∧ ∃ x, readSources c1 (quantForm q1) ⟨false, some .f32, some .n32, none⟩ s1 = .ok x) ∧
    (let f := { q1 with d := .s 6, a := ⟨.s 3, .none, 0⟩, uni := true }
     dstOk c1.g f.uni false f.d = true ∧ srcOk c1.g f.uni false f.a = true ∧
       (∃ x, readSources c1 (quantForm f) ⟨false, some .f32, some .n32, none⟩ s1 = .ok x) ∧ ∃ t, writeUniform c1 f.d 1 s1 = .ok t) :=
  ⟨⟨_, rfl⟩, rfl, fun _ _ => ⟨issuesG rfl rfl rfl, rfl⟩, by decide +kernel, ⟨0, by decide, by decide +kernel⟩,
    ⟨issues1, rfl, rfl, rfl, by decide +kernel, _, rfl⟩, rfl, rfl, ⟨_, rfl⟩, _, rfl⟩

def shfl1 : OForm := { vv .i32 with c := .s 3 }

/-- s3 names lanes 0 and 2. They are active; one has exited; one is not active with no token; both are pending. -/
theorem witness_CrossLane :
    (∃ r, crossRow (.shfl shfl1) = some r ∧ r.f = shfl1 ∧ r.ok c1 = true ∧ (∃ e, r.effect c1 5 = some e) ∧ Issues s1 c1 ∧
      memberMask c1 shfl1.c = .ok 5 ∧ (c1.g.tokens ≠ [] ∨ c1.g.spilledTok = 0) ∧ (∀ t ∈ c1.g.tokens.head?, t.held = false) ∧
      5 &&& ~~~c1.g.live = 0 ∧ 5 &&& c1.g.exec = 5) ∧
    (∃ r, crossRow (.bcast { shfl1 with b := ⟨.int 1, .none, 0⟩ }) = some r ∧ r.ok c1 = true ∧ r.effect c1 5 = none) ∧
    (let g := { group1 with exec := 1, live := 1 }; Issues (sG g) (cG g) ∧ 5 &&& ~~~g.live ≠ 0) ∧
    (let g := { group1 with exec := 1 }; Issues (sG g) (cG g) ∧ 5 &&& ~~~g.live = 0 ∧ 5 &&& ~~~g.exec ≠ 0 ∧ g.tokens = []) ∧
    (let t := { ifTok with pending := 0xE }; let g := { inTok t with exec := 1 }
     Issues (sG g) (cG g) ∧ g.tokens = t :: [] ∧ t.kind = .cond ∧ t.depth.toNat = g.depth ∧ t.held = false ∧ 5 &&& ~~~g.live = 0 ∧
       5 &&& g.exec ≠ 5 ∧ 5 &&& ~~~(g.exec ||| t.pending) = 0) :=
  ⟨⟨_, rfl, rfl, by decide +kernel, ⟨_, rfl⟩, issues1, rfl, .inr rfl, by decide, by decide, by decide⟩, ⟨_, rfl, by decide +kernel, rfl⟩,
    ⟨issuesG rfl rfl rfl, by decide⟩, ⟨issuesG rfl rfl rfl, by decide, by decide, rfl⟩,
    issuesG rfl rfl rfl, rfl, rfl, rfl, rfl, by decide, by decide, by decide⟩

theorem witness_TrapsEnterHandler : s1.group? c1.gid = some c1.g ∧ c1.g.sup = false ∧ c1.g.handler = 0 ∧
    (let g := { group1 with handler := 16 }; (sG g).group? 4 = some g ∧ Issues (sG g) (cG g) ∧ g.sup = false ∧ g.handler ≠ 0 ∧
      isHeaderAt reg1 g.handler.toNat = true) ∧
    (sH.group? 4 = some groupH ∧ groupH.sup = true ∧ launch1.prot = false) ∧
    (let l := { launch1 with prot := true }; (machine groupH team1 l).group? 4 = some groupH ∧ l.prot = true ∧ (machine group1 team1 l).group? 4 = some group1) ∧
    (let g := { group1 with handler := 8 }; (sG g).group? 4 = some g ∧ g.handler ≠ 0 ∧ isHeaderAt reg1 g.handler.toNat = false) ∧
    ({ cause := 0x11 } : Trap).cause = 0x11 ∧ ({ cause := 0x0F } : Trap).cause = 0x0F :=
  ⟨rfl, rfl, rfl, ⟨rfl, issuesG rfl rfl rfl, rfl, by decide, by decide⟩, ⟨rfl, rfl, rfl⟩, ⟨rfl, rfl, rfl⟩, ⟨rfl, by decide, by decide⟩, rfl, rfl⟩

/-- In the program with a handler and without one, and in the handler. -/
theorem witness_UserTrap : Issues s1 c1 ∧ c1.g.sup = false ∧ c1.g.handler = 0 ∧ Issues sH cH ∧
    (let g := { group1 with handler := 16 }; Issues (sG g) (cG g) ∧ g.sup = false ∧ g.handler ≠ 0 ∧ isHeaderAt reg1 g.handler.toNat = true) :=
  ⟨issues1, rfl, rfl, issuesH, issuesG rfl rfl rfl, rfl, by decide, by decide⟩

/-- A trap at the last word of a clause, at its header, before its last word, and a position past it. -/
theorem witness_ReturnsFromTrap : Issues s1 c1 ∧ c1.g.sup = false ∧
    (Issues sH cH ∧ groupH.sup = true ∧ team1.side = .solo ∧ groupH.trapPc.extractLsb' 0 32 = 0 ∧ (groupH.trapPc.extractLsb' 32 5).toNat = 1 ∧
      codeAt cH.r 0 = some (BitVec.ofNat 64 hdr1.pack) ∧ 1 = fld hdr1.pack 51 4 + 1) ∧
    (let g := { groupH with trapPc := pcReg 0 2 }; Issues (sG g) (cG g) ∧ fld hdr1.pack 51 4 + 1 < (g.trapPc.extractLsb' 32 5).toNat) ∧
    (let g := { groupH with trapPc := 0 }; Issues (sG g) (cG g) ∧ (g.trapPc.extractLsb' 32 5).toNat = 0) ∧
    codeAt reg2 0 = some (BitVec.ofNat 64 hdr2.pack) ∧ 1 < fld hdr2.pack 51 4 + 1 :=
  ⟨issues1, rfl, ⟨issuesH, rfl, rfl, by decide, by decide, by decide, by decide⟩, ⟨issuesG rfl rfl rfl, by decide⟩, ⟨issuesG rfl rfl rfl, by decide⟩, by decide, by decide⟩

/-- In the handler over the memory image: s10 holds virtual page 1, which is present, and s11 page 2, which is not. -/
def gMap : Group := { groupH with sregs := [(10, 0x10000), (11, 0x20000), (12, 0x6)] }
def sMap : State := withMem (sG gMap)
def cMap : Ctx := cG gMap

theorem issuesMap : Issues sMap cMap := issues_more (issuesG (g := gMap) rfl rfl rfl) rfl rfl rfl rfl rfl

theorem witness_HandlerView : (groupH.sup = true ∧ group1.sup = false) ∧ (Issues s1 c1 ∧ c1.g.sup = false) ∧
    (Issues sMap cMap ∧ cMap.g.sup = true ∧ cMap.t.side = .solo) ∧
    (∀ i ∈ [Instr.mappg (.s 6) (.s 11) (.s 12) false, .tlbinvPage (.s 11) false, .tlbinvContext (.s 11) false, .ctxsv (.s 10) false],
      CounterFree cMap i) ∧ DestFree cMap (.mappg (.s 6) (.s 11) (.s 12) false) sMap ∧
    cMap.g.readS 12 &&& ~~~(0xC00FF0000000000E : Word) = 0 ∧ ptrRegion (cMap.g.readS 11) = 0 ∧
    (apertureOf (ptrAddr (cMap.g.readS 11))).kind = 2 ∧
    (let bs := contextImage sMap cMap.gid cMap.t cMap.l cMap.g
     ptrRegion (cMap.g.readS 10) = 0 ∧ (apertureOf (ptrAddr (cMap.g.readS 10))).kind = 2 ∧ (cMap.g.readS 10).toNat % 64 = 0 ∧
       ∃ locs, checkAccess sMap (cMap.who sMap) .store false [{ lane := 0, ptr := cMap.g.readS 10, len := bs.length }] = .ok locs ∧
         awaitCopies locs sMap = .ok () ∧ awaitMoves cMap locs true sMap = .ok ()) ∧
    leafSlot mem1 0x10000 3 (ctxRoot (ctxEntry sMap 0)) = .ok 0x18008 ∧ leafSlot mem1 0x20000 3 (ctxRoot (ctxEntry sMap 0)) = .ok 0x18010 ∧
    (BitVec.ofNat 64 (Memory.nat mem1 0x18008 8)).getLsbD 0 = true ∧ Leaf.wellFormed (BitVec.ofNat 64 (Memory.nat mem1 0x18008 8)) 0 = true ∧
    (BitVec.ofNat 64 (Memory.nat mem1 0x18010 8)).getLsbD 0 = false ∧ (poolOf sMap 0).map (fun p => (p.put, p.take)) = some (2, 0) ∧
    poolOf s1 0 = none := by
  refine ⟨⟨rfl, rfl⟩, ⟨issues1, rfl⟩, ⟨issuesMap, rfl, rfl⟩, ?_, by unfold DestFree; decide +kernel, by decide, by decide, by decide, ?_, by decide +kernel, by decide +kernel, by decide +kernel, by decide +kernel, by decide +kernel,
    by decide +kernel, by decide +kernel⟩
  · intro i _ k _
    exact (by decide : ∀ k < 12, cMap.g.flagCount k < 63) k.val k.isLt
  · refine ⟨by decide, by decide, by decide, ?_⟩
    obtain ⟨locs, h1, h⟩ := ex_bind (f := fun locs => awaitCopies locs sMap >>= fun _ => awaitMoves cMap locs true sMap)
      (show isOk (checkAccess sMap (cMap.who sMap) .store false
        [{ lane := 0, ptr := cMap.g.readS 10, len := (contextImage sMap cMap.gid cMap.t cMap.l cMap.g).length }] >>= _) = true by decide +kernel)
    obtain ⟨⟨⟩, h2, h⟩ := ex_bind h
    obtain ⟨⟨⟩, h3⟩ := ex_ok h
    exact ⟨locs, h1, h2, h3⟩

theorem witness_Specials : Issues s1 c1 ∧ specialReadable c1.g.sup (24 : BitVec 8).toNat = false ∧ specialReadable c1.g.sup (4 : BitVec 8).toNat = true ∧
    c1.t.side = .solo ∧ swriteValue c1 (.s 3) = .ok 5 ∧ swriteValue c1 (.neg 0) = .ok (-1) ∧ Issues sH cH ∧
    (specialWrite c1.g.sup 3 = .bits 0x7F ∧ (5 : Word) &&& ~~~0x7F = 0 ∧ (-1 : Word) &&& ~~~0x7F ≠ 0) ∧
    (∃ m, specialWrite true 33 = .bits m ∧ (5 : Word) &&& ~~~m = 0) ∧ (∃ m, specialWrite false 16 = .bits m ∧ (5 : Word) &&& ~~~m = 0) ∧ Port.legal 5 = true ∧ Port.legal (-1) = false ∧
    specialWrite false 0 = .ignored ∧ specialWrite false 11 = .protected_ ∧ specialWrite false 24 = .absent ∧ specialWrite true 34 = .absent :=
  ⟨issues1, by decide, by decide, rfl, rfl, rfl, issuesH, ⟨by decide, by decide, by decide⟩, ⟨_, rfl, by decide⟩, ⟨_, rfl, by decide⟩, by decide, by decide, by decide,
    by decide, by decide, by decide⟩

/-! ### Cross-lane traps, convoy sides, the statuses of MAPPG -/

/-- A lane that the innermost token does not account for: an IF token with other lanes pending, a LOOP token, a token of
another depth; an operand that names no member. -/
theorem witness_CrossLane_traps :
    (let t := { ifTok with pending := 0xA }; let g := { inTok t with exec := 1 }
     Issues (sG g) (cG g) ∧ g.tokens.head? = some t ∧ 5 &&& ~~~g.live = 0 ∧ t.kind = .cond ∧ t.depth.toNat = g.depth ∧ 5 &&& ~~~(g.exec ||| t.pending) ≠ 0) ∧
    (∀ t ∈ [{ ifTok with kind := .loop, pending := 0xE }, { ifTok with depth := 1, pending := 0xE }], let g := { inTok t with exec := 1 }
     g.tokens.head? = some t ∧ 5 &&& ~~~(g.exec ||| if t.kind = .cond ∧ t.depth.toNat = g.depth then t.pending else 0) ≠ 0) ∧
    (∃ r, crossRow (.bcast { shfl1 with b := ⟨.int 1, .none, 0⟩ }) = some r ∧ r.effect c1 5 = none) :=
  ⟨⟨issuesG rfl rfl rfl, rfl, by decide, rfl, rfl, by decide⟩, by decide, _, rfl, rfl⟩

/-- In a convoy's handler: the lead, whose operation is matched, and an escort that waits. -/
theorem witness_ReturnsFromTrap_convoy : Issues (sLead groupH) (cLead groupH) ∧ (cLead groupH).g.sup = true ∧
    (∀ i ∈ [Instr.rftRetry, .rftNext, .rftAbort], isOk (performOnce (cLead groupH) ((cLead groupH).sig i []) (fun u => .ok ([], u)) (sLead groupH)) = true) ∧
    isOk (returnFromTrap false (cLead groupH) (sLead groupH)) = true ∧ (sLead groupH).group? 4 = some (cLead groupH).g ∧
    (∀ i, ∃ t, performOnce (frame groupH teamEscort launch1) ((frame groupH teamEscort launch1).sig i []) (fun u => .ok ([], u))
      (machine groupH teamEscort launch1) = .error (.wait t)) :=
  ⟨issuesLead rfl rfl rfl, rfl, by decide +kernel, by decide +kernel, rfl, fun _ => ⟨_, rfl⟩⟩

def sMapLead : State := withMem (sLead gMap)
def cMapLead : Ctx := cLead gMap

theorem witness_HandlerView_convoy : Issues sMapLead cMapLead ∧ cMapLead.g.sup = true ∧ cMapLead.t.side ≠ .solo ∧
    (∃ u, completeAtOnce cMapLead (.mappg (.s 6) (.s 11) (.s 12) false) sMapLead = .ok u ∧
      isOk (performOnce cMapLead (cMapLead.sig (.mappg (.s 6) (.s 11) (.s 12) false) [0x20000, 6]) (fun w => .ok ([(0, 0)], w)) u) = true) ∧
    (∃ u, completeAtOnce cMapLead (.tlbinvPage (.s 11) false) sMapLead = .ok u ∧
      isOk (performOnce cMapLead (cMapLead.sig (.tlbinvPage (.s 11) false) [0x20000]) (fun w => .ok ([], w)) u) = true) ∧
    (let bs := contextImage sMapLead cMapLead.gid cMapLead.t cMapLead.l cMapLead.g
     isOk (checkAccess sMapLead (cMapLead.who sMapLead) .store false [{ lane := 0, ptr := cMapLead.g.readS 10, len := bs.length }]) = true ∧
     isOk (performOnce cMapLead (cMapLead.sig (.ctxsv (.s 10) false) (0x10000 :: imageData cMapLead.t cMapLead.l cMapLead.g)) (fun w => .ok ([], w)) sMapLead) = true) := by
  refine ⟨issues_more (issuesLead (g := gMap) rfl rfl rfl) rfl rfl rfl rfl rfl, rfl, by decide, ?_, ?_, by decide +kernel, by decide +kernel⟩
  · exact ⟨_, eq_ok sMapLead (by decide +kernel), by decide +kernel⟩
  · exact ⟨_, eq_ok sMapLead (by decide +kernel), by decide +kernel⟩

/-- The entry at a pool's take index: whether the pool holds one, and whether its frame can be mapped under template 6. -/
def poolEntry (s : State) : Option Bool :=
  (poolOf s 0).bind fun p =>
    let e : Word := BitVec.ofNat 64 (Memory.nat s.mem (p.at_ + 64 + 8 * (p.take % p.cap)) 8)
    let frame := (e.extractLsb' 0 32).toNat
    let leaf : Word := 6 ||| BitVec.ofNat 64 (1 + frame * 2 ^ 8 + (e.extractLsb' 36 1).toNat * 2 ^ 52 + (e.extractLsb' 32 4).toNat * 2 ^ 53)
    if p.put ≠ p.take ∧ p.low < 2 ^ 32 then
      some (e.extractLsb' 37 27 == 0 && Leaf.frameOk leaf frame && (pageRanges leaf).all fun r => !isReserved r.1 && !isReserved (r.1 + r.2 - 1))
    else none

/-- Page tables with a malformed entry, and without one; pool entries with a good frame and with a reserved bit. -/
theorem witness_HandlerView_statuses :
    (let s := { sMap with mem := cellsAt 0x10000 8 0x12001 ++ cellsAt 0x12000 8 0x81 }
     leafSlot s.mem 0x10000 3 (ctxRoot (ctxEntry s 0)) = .error .malformed) ∧
    (let s := { sMap with mem := cellsAt 0x10000 8 0x12001 }
     leafSlot s.mem 0x10000 3 (ctxRoot (ctxEntry s 0)) = .error (.absent 3)) ∧
    poolEntry sMap = some true ∧
    poolEntry { sMap with mem := mem1.filter (fun x => x.1 < 0x20040) ++ cellsAt 0x20040 8 (2 ^ 40) } = some false ∧
    inRanges (pageRanges (BitVec.ofNat 64 (leafOf 0x10))) 0x10FFFF = true := by decide +kernel

/-- A register whose value the lead takes from outside. -/
theorem witness_Specials_outside : ∀ k ∈ [(12 : BitVec 8), 20, 32],
    isOk (takeOutside (cLead group1) ((cLead group1).sig (.sread (.s 6) k) []) (fun u => .ok ([(0, 7)], u)) (sLead group1)) = true := by decide +kernel

/-! ### Memory -/

def whole (x : Except Trap LoadDone) : Res LoadDone :=
  match x with | .ok r => if r.trap = none then .ok r else illegal | .error t => .error (.trap t)

theorem whole_ok {x : Except Trap LoadDone} (h : isOk (whole x) = true) : ∃ r, x = .ok r ∧ r.trap = none := by
  unfold whole at h
  split at h
  · split at h
    · exact ⟨_, rfl, ‹_›⟩
    · simp [isOk, illegal, trap] at h
  · simp [isOk] at h

def ofTrap {α : Type} (x : Except Trap α) : Res α := match x with | .ok r => .ok r | .error t => .error (.trap t)

theorem ofTrap_ok {α : Type} {x : Except Trap α} {a : α} (h : ofTrap x = .ok a) : x = .ok a := by
  cases x <;> simp_all [ofTrap]

def accG : MForm := { acc with addr := .s 10 }
def gMem : Group := { group1 with sregs := [(3, 0x5), (4, 0x00F0000000000040), (5, 0xFFFFFFFF00000002), (10, 0x10000), (12, 1)] }
def sMem : State := withMem (sG gMem)
def cMem : Ctx := cG gMem

theorem issuesMem : Issues sMem cMem := issues_more (issuesG (g := gMem) rfl rfl rfl) rfl rfl rfl rfl rfl

theorem free1 {c : Ctx} {i : Instr} (h : c.flag i = none) : CounterFree c i := by
  intro k hk
  rw [h] at hk
  cases hk

/-- The frame with a flag to count on, whose counter stands at n. -/
def cCount (n : Nat) : Ctx := { cG { gMem with flags := [(2, n)] } with h := { hdr1 with setA := some 2 } }

theorem free2 : CounterFree (cCount 62) (.ld acc) := by
  intro k hk
  cases hk
  decide

/-- A load of the group that acquires, and a store that has bytes of the scratchpad to write. -/
def opLd : Op := { group := 4, flag := none, instr := .ld { acc with ord := .acquire, scope := .device }, exec := 0xF }
def opSt : Op := { group := 4, flag := none, instr := .st acc, exec := 0xF,
                   reqs := [{ lane := 0, kind := .store, bytes := [(0x00F0000000000040, spadLoc 0x40)], data := [(5, 0xFF)] }] }

/-- The last free value of a counter, and the first at which an instruction waits. -/
theorem witness_AccessesIssue_counter :
    ((sG (cCount 62).g).group? (cCount 62).gid = some (cCount 62).g ∧ (cCount 62).flag (.ld acc) = some 2 ∧ CounterFree (cCount 62) (.ld acc)) ∧
    ((sG (cCount 63).g).group? (cCount 63).gid = some (cCount 63).g ∧ (cCount 63).flag (.ld acc) = some 2 ∧ 63 ≤ (cCount 63).g.flagCount 2) ∧
    ((MForm.form acc false).strong && (MForm.form acc false).releases) = false ∧
    (acquirePending sMem 4 = false ∧ movesMeet sMem (cMem.who sMem) [0x110000] true = false) ∧
    acquirePending { sMem with ops := [(9, opLd)] } 4 = true ∧
    (let s := { sMem with porter := [{ group := 4, kind := .spill, off := 0, since := 5 }] }
     acquirePending s 4 = false ∧ movesMeet s (cMem.who s) [0x110000] false = true) ∧
    (let s := { sMem with ops := [(9, opSt)] }
     (9, opSt) ∈ s.groupOps 4 ∧ ∃ x ∈ opSt.reqs, spadLoc 0x40 ∈ x.locs) :=
  ⟨⟨rfl, rfl, free2⟩, ⟨rfl, rfl, by decide⟩, by decide, by decide +kernel, by decide, by decide +kernel, by decide, _, .head _, by decide⟩

/-- A counted load of v7 in flight: another load of v7 may not complete at issue. -/
theorem witness_AccessesIssue_register :
    let s := { sMem with ops := [(3, { opLd with instr := .ld acc })] }
    DestFree cMem (.ld acc) sMem ∧ ¬ DestFree cMem (.ld acc) s := by
  refine ⟨by unfold DestFree; decide +kernel, by unfold DestFree; decide +kernel⟩

def pLd (f : MForm) : Plan := okOr (planAccess cMem .load (MForm.form f false) (fun _ => .ok ()) sMem) ⟨MForm.form f false, 0, []⟩

/-- From the scratchpad and from memory. -/
theorem witness_AccessesIssue_load : Issues sMem cMem ∧ cMem.t.side = .solo ∧ ∀ f ∈ [acc, accG],
    loadRow (.ld f) = some (MForm.form f false, .v 7, false) ∧ dataOk cMem.g false 4 (.v 7) = true ∧ (MForm.form f false).addrOk cMem.g = true ∧
    (MForm.form f false).acting cMem.g ≠ [] ∧ (pLd f).precise = false ∧
    planAccess cMem .load (MForm.form f false) (fun _ => .ok ()) sMem = .ok (pLd f) ∧
    ∃ locs, checkAccess sMem (cMem.who sMem) .load false (cMem.split (pLd f).pieces).1 = .ok locs ∧
      ∃ s', orderWaits cMem (MForm.form f false) locs false sMem = .ok s' ∧
        ∃ t, issueOp cMem { cMem.op (.ld f) with record := (pLd f).record, vals := keepPlan (pLd f), reqs := loadReqs (pLd f) locs } s' = .ok t := by
  refine ⟨issuesMem, rfl, fun f hf => ?_⟩
  have key : ∀ f ∈ [acc, accG], dataOk cMem.g false 4 (.v 7) = true ∧ (MForm.form f false).addrOk cMem.g = true ∧
      (MForm.form f false).acting cMem.g ≠ [] ∧ (pLd f).precise = false ∧
      isOk (planAccess cMem .load (MForm.form f false) (fun _ => .ok ()) sMem) = true ∧
      isOk (checkAccess sMem (cMem.who sMem) .load false (cMem.split (pLd f).pieces).1 >>= fun locs => orderWaits cMem (MForm.form f false) locs false sMem >>=
        fun s' => issueOp cMem { cMem.op (.ld f) with record := (pLd f).record, vals := keepPlan (pLd f), reqs := loadReqs (pLd f) locs } s') = true := by
    decide +kernel
  obtain ⟨h1, h2, h3, h4, h5, h6⟩ := key f hf
  obtain ⟨locs, h7, h6⟩ := ex_bind h6
  obtain ⟨s', h8, h6⟩ := ex_bind h6
  refine ⟨?_, h1, h2, h3, h4, eq_ok _ h5, locs, h7, s', h8, ex_ok h6⟩
  simp only [List.mem_cons, List.not_mem_nil, or_false] at hf
  rcases hf with rfl | rfl <;> rfl

theorem witness_AccessesIssue_store : ∀ f ∈ [acc, accG], dataOk cMem.g false 4 f.data = true ∧ (MForm.form f false).addrOk cMem.g = true ∧
    (MForm.form f false).acting cMem.g ≠ [] ∧ ∃ p, planAccess cMem .store (MForm.form f false) (fun p => guardOp (wholeBlocks p)) sMem = .ok p ∧
      ∃ locs, checkAccess sMem (cMem.who sMem) .store (MForm.form f false).fires (cMem.split p.pieces).1 = .ok locs ∧
        ∃ st, storeData (cMem.who sMem) p (readData cMem.g f.data 4) = .ok st ∧ awaitCopies locs sMem = .ok () ∧
          ∃ s', orderWaits cMem (MForm.form f false) locs true sMem = .ok s' ∧
            ∃ t, issueOp cMem { cMem.op (.st f) with reqs := putReqs locs st.puts, rel := (MForm.form f false).relScope cMem.g, locs := globalLocs locs } s' = .ok t := by
  intro f hf
  have key : ∀ f ∈ [acc, accG], dataOk cMem.g false 4 f.data = true ∧ (MForm.form f false).addrOk cMem.g = true ∧
      (MForm.form f false).acting cMem.g ≠ [] ∧
      isOk (planAccess cMem .store (MForm.form f false) (fun p => guardOp (wholeBlocks p)) sMem >>= fun p =>
        checkAccess sMem (cMem.who sMem) .store (MForm.form f false).fires (cMem.split p.pieces).1 >>= fun locs =>
        ofTrap (storeData (cMem.who sMem) p (readData cMem.g f.data 4)) >>= fun st => awaitCopies locs sMem >>= fun _ =>
        orderWaits cMem (MForm.form f false) locs true sMem >>= fun s' =>
          issueOp cMem { cMem.op (.st f) with reqs := putReqs locs st.puts, rel := (MForm.form f false).relScope cMem.g, locs := globalLocs locs } s') = true := by
    decide +kernel
  obtain ⟨h1, h2, h3, h⟩ := key f hf
  obtain ⟨p, h4, h⟩ := ex_bind h
  obtain ⟨locs, h5, h⟩ := ex_bind h
  obtain ⟨st, h6, h⟩ := ex_bind h
  obtain ⟨⟨⟩, h7, h⟩ := ex_bind h
  obtain ⟨s', h8, h⟩ := ex_bind h
  exact ⟨h1, h2, h3, p, h4, locs, h5, st, ofTrap_ok h6, h7, s', h8, ex_ok h⟩

def atom1 : AForm :=
  { data := .v 8, addr := .s 10, off := 0, op := .add, recIx := 0, req := .i, hint := .page, ord := .relaxed, scope := .device, size := .b4, fb := false }

theorem witness_AccessesIssue_atomic : atomRow (.atom atom1) = some (atom1, false) ∧ atomDataOk cMem.g atom1 false = true ∧
    (AForm.form atom1 false).addrOk cMem.g = true ∧ (AForm.form atom1 false).acting cMem.g ≠ [] ∧
    ∃ p, planAccess cMem .atomic (AForm.form atom1 false) (fun _ => .ok ()) sMem = .ok p ∧
      ∃ locs, checkAccess sMem (cMem.who sMem) .atomic (AForm.form atom1 false).fires (cMem.split p.pieces).1 = .ok locs ∧ awaitCopies locs sMem = .ok () ∧
        ∃ s', orderWaits cMem (AForm.form atom1 false) locs true sMem = .ok s' ∧
          ∃ t, issueOp cMem { atomOp cMem (.atom atom1) atom1 false p with reqs := atomReqs cMem p locs s', locs := globalLocs locs } s' = .ok t := by
  obtain ⟨p, h4, h⟩ := ex_bind (show isOk (planAccess cMem .atomic (AForm.form atom1 false) (fun _ => .ok ()) sMem >>= fun p =>
      checkAccess sMem (cMem.who sMem) .atomic (AForm.form atom1 false).fires (cMem.split p.pieces).1 >>= fun locs => awaitCopies locs sMem >>= fun _ =>
      orderWaits cMem (AForm.form atom1 false) locs true sMem >>= fun s' =>
        issueOp cMem { atomOp cMem (.atom atom1) atom1 false p with reqs := atomReqs cMem p locs s', locs := globalLocs locs } s') = true by decide +kernel)
  obtain ⟨locs, h5, h⟩ := ex_bind h
  obtain ⟨⟨⟩, h7, h⟩ := ex_bind h
  obtain ⟨s', h8, h⟩ := ex_bind h
  exact ⟨rfl, by decide, by decide, by decide, p, h4, locs, h5, h7, s', h8, ex_ok h⟩

/-- With no active lane, and with an illegal data register: v127 has no pair. -/
theorem witness_AccessesIssue_rest : (let g := { gMem with exec := 0 }; Issues (sG g) (cG g) ∧ (MForm.form acc false).acting g = [] ∧
      (AForm.form atom1 false).acting g = [] ∧ dataOk g false 4 acc.data = true ∧ atomDataOk g atom1 false = true ∧ CounterFree (cG g) (.ld acc) ∧
      DestFree (cG g) (.ld acc) (sG g)) ∧
    dataOk cMem.g false 8 (.v 7) = false ∧ atomDataOk cMem.g { atom1 with data := .v 127 } false = false :=
  ⟨⟨issuesG rfl rfl rfl, by decide, by decide, by decide, by decide, free1 rfl, by unfold DestFree; decide +kernel⟩, by decide, by decide⟩

/-- A load through a record that traps on what it converts is served at its instruction. -/
def recF32 (base policy : Nat) : BitVec 320 := BitVec.ofNat 320 (base + 0x100 * 2 ^ 64 + 2 ^ 104 + 2 ^ 109 + policy * 2 ^ 206 + 3 * 2 ^ 242)
def accR : MForm := { acc with addr := .s 12, recIx := 1 }
def tRec (base policy : Nat) : Team := { team1 with records := [(1, recF32 base policy)] }
def sRec (base policy : Nat) : State := withMem (machine gMem (tRec base policy) launch1)
def cRec (base policy : Nat) : Ctx := frame gMem (tRec base policy) launch1

theorem issuesRec (a n : Nat) : Issues (sRec a n) (cRec a n) :=
  issues_more (issues_machine (g := gMem) (t := tRec a n) (l := launch1) rfl rfl rfl rfl rfl) rfl rfl rfl rfl rfl

theorem witness_AccessesIssue_precise : Issues (sRec 0x00F0000000000040 1) (cRec 0x00F0000000000040 1) ∧ loadRow (.ld accR) = some (MForm.form accR false, .v 7, false) ∧
    dataOk gMem false 4 (.v 7) = true ∧ (MForm.form accR false).addrOk gMem = true ∧ (MForm.form accR false).acting gMem ≠ [] ∧
    ∃ p, planAccess (cRec 0x00F0000000000040 1) .load (MForm.form accR false) (fun _ => .ok ()) (sRec 0x00F0000000000040 1) = .ok p ∧ p.precise = true ∧
      ∃ locs, checkAccess (sRec 0x00F0000000000040 1) ((cRec 0x00F0000000000040 1).who (sRec 0x00F0000000000040 1)) .load false ((cRec 0x00F0000000000040 1).split p.pieces).1 = .ok locs ∧
        ∃ s', orderWaits (cRec 0x00F0000000000040 1) (MForm.form accR false) locs false (sRec 0x00F0000000000040 1) = .ok s' ∧
          ∃ s'', completeAtOnce (cRec 0x00F0000000000040 1) (.ld accR) s' = .ok s'' ∧
            ∃ e, readOutside (cRec 0x00F0000000000040 1) (.ld accR) (MForm.form accR false) p locs
                { (cRec 0x00F0000000000040 1).op (.ld accR) with record := p.record, vals := keepPlan p, reqs := loadReqs p locs } s'' = .ok e ∧
              ∃ r, loadDone ((cRec 0x00F0000000000040 1).who (sRec 0x00F0000000000040 1)) (MForm.form accR false) e.1 = .ok r ∧ r.trap = none := by
  obtain ⟨p, h4, h⟩ := ex_bind (show isOk (planAccess (cRec 0x00F0000000000040 1) .load (MForm.form accR false) (fun _ => .ok ()) (sRec 0x00F0000000000040 1) >>= fun p =>
      guardOp p.precise >>= fun _ => checkAccess (sRec 0x00F0000000000040 1) ((cRec 0x00F0000000000040 1).who (sRec 0x00F0000000000040 1)) .load false ((cRec 0x00F0000000000040 1).split p.pieces).1 >>= fun locs =>
      orderWaits (cRec 0x00F0000000000040 1) (MForm.form accR false) locs false (sRec 0x00F0000000000040 1) >>= fun s' => completeAtOnce (cRec 0x00F0000000000040 1) (.ld accR) s' >>= fun s'' =>
      readOutside (cRec 0x00F0000000000040 1) (.ld accR) (MForm.form accR false) p locs
        { (cRec 0x00F0000000000040 1).op (.ld accR) with record := p.record, vals := keepPlan p, reqs := loadReqs p locs } s'' >>= fun e =>
      whole (loadDone ((cRec 0x00F0000000000040 1).who (sRec 0x00F0000000000040 1)) (MForm.form accR false) e.1)) = true by decide +kernel)
  obtain ⟨_, h5, h⟩ := ex_bind h
  obtain ⟨locs, h6, h⟩ := ex_bind h
  obtain ⟨s', h7, h⟩ := ex_bind h
  obtain ⟨s'', h8, h⟩ := ex_bind h
  obtain ⟨e, h9, h⟩ := ex_bind h
  exact ⟨issuesRec _ _, rfl, by decide, by decide, by decide, p, h4, guard_ok (by rw [h5]; rfl), locs, h6, s', h7, s'', h8, e, h9, whole_ok h⟩

/-- A load with its bytes fetched, a store and an atomic that are served, and a store with a request to a peer. -/
def opLoaded : Op := { group := 4, flag := none, instr := .ld acc, exec := 0xF, vals := keepPlan (pLd acc) }
def opAtom : Op := { group := 4, flag := none, instr := .atom atom1, exec := 0xF, res := [(0, 3)], locs := [0x100000] }
def opPeer : Op := { opSt with reqs := [{ lane := 0, kind := .store, bytes := [(0x20000, 2 ^ 46)], data := [(5, 0xFF)] }] }

theorem ctxMem (o : Op) : ({ sMem with ops := [(9, o)] }.ctx? 4) = some cMem :=
  (issues_more (t := { sMem with ops := [(9, o)] }) issuesMem rfl rfl rfl rfl rfl).1

def opVenc : Op := { group := 4, flag := none, instr := .venc { acc with aux := true }, exec := 0xF, vals := [(200, 0x00F0000000000050)] }

/-- A load, a store, an atomic without poison and with it, a VENC, and a store to a peer. -/
theorem witness_AccessesComplete :
    ((MForm.form acc false).recIx = 0 ∧ (MForm.form acc false).size = 4 ∧ (2 ^ 56 - 4) + 4 ≤ 2 ^ 56) ∧
    (∀ o ∈ [opLoaded, { opSt with reqs := [] }, opAtom, opVenc],
      { sMem with ops := [(9, o)] }.op? 9 = some o ∧ ({ sMem with ops := [(9, o)] }.who? o.group).isSome = true ∧ o.group = 4 ∧
      (formOf o.instr).isSome = true ∧ isPosted o = false ∧ o.reqs = [] ∧ o.posted = false ∧ destFree { sMem with ops := [(9, o)] } 9 o = true ∧
      anyBlocked { sMem with ops := [(9, o)] } o.locs = false) ∧
    (∀ o, { sMem with ops := [(9, o)] }.ctx? 4 = some cMem) ∧
    (∃ r, loadDone (cMem.who sMem) (MForm.form acc false) opLoaded = .ok r ∧ r.trap = none) ∧ opAtom.poison = [] ∧
    (poisonTrap (cMem.who sMem) [(0, 0x10000, 7)]).isSome = true ∧ (∀ f d sx, loadRow opVenc.instr ≠ some (f, d, sx)) ∧
    isPosted opPeer = true ∧ opPeer.posted = false := by
  have key : ∀ o ∈ [opLoaded, { opSt with reqs := [] }, opAtom, opVenc],
      { sMem with ops := [(9, o)] }.op? 9 = some o ∧ ({ sMem with ops := [(9, o)] }.who? o.group).isSome = true ∧ o.group = 4 ∧
      (formOf o.instr).isSome = true ∧ isPosted o = false ∧ o.reqs = [] ∧ o.posted = false ∧ destFree { sMem with ops := [(9, o)] } 9 o = true ∧
      anyBlocked { sMem with ops := [(9, o)] } o.locs = false := by
    decide +kernel
  exact ⟨⟨rfl, rfl, by decide⟩, key, ctxMem, whole_ok (by decide +kernel), rfl, rfl, fun _ _ _ h => by simp [loadRow, opVenc] at h, by decide, rfl⟩

/-- The load of a fetch whose element misses the format traps at completion: poison met by a lane. -/
theorem witness_AccessesComplete_poison :
    let o := { opLoaded with poison := [(0, 0x00F0000000000040, 7)] }
    ∃ r, loadDone (cMem.who sMem) (MForm.form acc false) o = .ok r ∧ r.trap ≠ none := by
  obtain ⟨r, h1, h⟩ := ex_bind (f := fun r => guardOp (r.trap.isSome))
    (show isOk (ofTrap (loadDone (cMem.who sMem) (MForm.form acc false) { opLoaded with poison := [(0, 0x00F0000000000040, 7)] }) >>= _) = true by
      decide +kernel)
  exact ⟨r, ofTrap_ok h1, by simpa using Option.ne_none_iff_isSome.mpr (guard_ok h)⟩

/-- A request for one byte: to the scratchpad, which is served; one that was refused; and a peer's load and store. -/
def reqOne (loc : Nat) : LaneReq := { lane := 0, kind := .load, bytes := [(0x00F0000000000040, loc)] }
def opReq (loc : Nat) : Op := { group := 4, flag := none, instr := .ld acc, exec := 1, reqs := [reqOne loc] }
def opRefused : Op := { opReq 0x100000 with reqs := [{ reqOne 0x100000 with refused := true }] }

theorem witness_RequestsServed : (∀ x ∈ [(0x100000, (5 : Byte), (0xFF : Byte))], forwarded sMem.fab x.1 ≠ 0x100001) ∧
    forwarded sMem.fab 0x100000 = 0x100000 ∧
    (let o := opReq (spadLoc 0x40); let s := { sMem with ops := [(9, o)] }
     s.op? 9 = some o ∧ isHolder o.instr = false ∧ o.reqs = [reqOne (spadLoc 0x40)] ∧ mayServe s (cMem.who sMem) 9 o (reqOne (spadLoc 0x40)) = true ∧
       s.who? o.group = some (cMem.who sMem) ∧ (reqOne (spadLoc 0x40)).bankLine { s with free := s.free + 2 } = none ∧
       (∃ e, serve { s with free := s.free + 2 } (cMem.who sMem) 9 o (reqOne (spadLoc 0x40)) = some e) ∧
       (∀ x ∈ dirtyBytes s.fab 0, forwarded s.fab x.1 ≠ 0x100001) ∧ (∃ t, exec (.requestAtHome 9) s = .next t)) ∧
    ((∀ r ∈ opRefused.reqs, r.refused = true) ∧ opRefused.reqs.find? (·.refused) = some { reqOne 0x100000 with refused := true }) ∧
    (let s := { sMem with ops := [(9, opReq 0x100000)] }
     let u := { s with free := 2, fab := { fab1 with waybills := [(0x2000, { home := 0 })], tickets := [(0, 9, 0)] } }
     (reqOne 0x100000).bankLine u = some (lineOf 0x100000) ∧ ((waybill u (lineOf 0x100000)).home, 9, 0) ∈ u.fab.tickets ∧
       ticketAhead u (waybill u (lineOf 0x100000)).home 9 0 = false) := by
  refine ⟨by decide, by decide, ⟨rfl, rfl, rfl, by decide +kernel, rfl, by decide +kernel, ⟨_, rfl⟩, by decide, _, rfl⟩, ⟨by decide, rfl⟩, ?_⟩
  refine ⟨by decide +kernel, .head _, by decide +kernel⟩

def peerReq (data : Option (List Byte)) : PeerReq := { peer := 15, loc := 0x100000, size := 8, data }

theorem witness_RequestsServed_peer : ∀ d ∈ [none, some (List.replicate 8 (0xAB : Byte))],
    let s := { sMem with fab := { fab1 with peerReqs := [(9, peerReq d)] } }
    let locs := (List.range 8).map (0x100000 + ·)
    s.op? 9 = none ∧ SMap.entry? s.fab.peerReqs 9 = some (peerReq d) ∧ (locs.map lineOf).any (lineWaits s .other) = false ∧
      (∀ p ∈ locs, p < 1536 * gib) ∧ blockedFor s 64 0 locs = false ∧ cowPages s locs = [] ∧ (peerReq d).atomic = none := by
  decide +kernel

/-- STFE on an empty granule, LDFE on an empty and on a full one. -/
def tFull : Team := { team1 with fe := [(4, true)] }
def fe1 : MForm := { acc with data := .v 7 }
theorem issuesFull : Issues (machine group1 tFull launch1) (frame group1 tFull launch1) := issues_machine rfl rfl rfl rfl rfl

theorem witness_FullEmptyAccess_load :
    ∀ x ∈ [(false, s1, c1), (true, machine group1 tFull launch1, frame group1 tFull launch1)],
      Issues x.2.1 x.2.2 ∧ dataOk x.2.2.g false (sizeBytes fe1.size) fe1.data = true ∧
      (MForm.form fe1 false).addrOk x.2.2.g = true ∧ (MForm.form fe1 false).acting x.2.2.g ≠ [] ∧
      ∃ p, planAccess x.2.2 .load (MForm.form fe1 false) spadOnly x.2.1 = .ok p ∧
        ∃ locs, checkAccess x.2.1 (x.2.2.who x.2.1) .load false p.pieces = .ok locs ∧
          ∃ s', orderWaits x.2.2 (MForm.form fe1 false) locs false x.2.1 = .ok s' ∧
            noOverlap x.2.2 locs false s' = .ok () ∧ ∃ s'', completeAtOnce x.2.2 (.ldfe fe1) s' = .ok s'' ∧
              ∃ e, serveNow { x.2.2.op (.ldfe fe1) with record := p.record, vals := keepPlan p, reqs := loadReqs p locs } s'' = .ok e ∧
                (∃ r, loadDone (x.2.2.who x.2.1) (MForm.form fe1 false) e.1 = .ok r ∧ r.trap = none) ∧
                (locs.map fun b => b.loc - 2 ^ 48).all (fun a => SMap.get false x.2.2.t.fe (a / 16)) = x.1 := by
  intro x hx
  have key : ∀ x ∈ [(false, s1, c1), (true, machine group1 tFull launch1, frame group1 tFull launch1)],
      dataOk x.2.2.g false (sizeBytes fe1.size) fe1.data = true ∧
      (MForm.form fe1 false).addrOk x.2.2.g = true ∧ (MForm.form fe1 false).acting x.2.2.g ≠ [] ∧
      isOk (planAccess x.2.2 .load (MForm.form fe1 false) spadOnly x.2.1 >>= fun p =>
        checkAccess x.2.1 (x.2.2.who x.2.1) .load false p.pieces >>= fun locs =>
        orderWaits x.2.2 (MForm.form fe1 false) locs false x.2.1 >>= fun s' => noOverlap x.2.2 locs false s' >>= fun _ => completeAtOnce x.2.2 (.ldfe fe1) s' >>= fun s'' =>
        serveNow { x.2.2.op (.ldfe fe1) with record := p.record, vals := keepPlan p, reqs := loadReqs p locs } s'' >>= fun e =>
        whole (loadDone (x.2.2.who x.2.1) (MForm.form fe1 false) e.1) >>= fun _ =>
          guardOp ((locs.map fun b => b.loc - 2 ^ 48).all (fun a => SMap.get false x.2.2.t.fe (a / 16)) == x.1)) = true := by
    decide +kernel
  have hi : Issues x.2.1 x.2.2 := by
    simp only [List.mem_cons, List.not_mem_nil, or_false] at hx
    rcases hx with rfl | rfl
    · exact issues1
    · exact issuesFull
  obtain ⟨h1, h2, h3, h⟩ := key x hx
  obtain ⟨p, h4, h⟩ := ex_bind h
  obtain ⟨locs, h5, h⟩ := ex_bind h
  obtain ⟨s', h6, h⟩ := ex_bind h
  obtain ⟨⟨⟩, h10, h⟩ := ex_bind h
  obtain ⟨s'', h7, h⟩ := ex_bind h
  obtain ⟨e, h8, h⟩ := ex_bind h
  obtain ⟨_, h9, h⟩ := ex_bind h
  refine ⟨hi, h1, h2, h3, p, h4, locs, h5, s', h6, h10, s'', h7, e, h8, whole_ok (by rw [h9]; rfl), ?_⟩
  simpa using guard_ok h

theorem witness_FullEmptyAccess_store : ∃ p, planAccess c1 .store (MForm.form fe1 false) spadOnly s1 = .ok p ∧
    ∃ locs, checkAccess s1 (c1.who s1) .store false p.pieces = .ok locs ∧
      ∃ s', orderWaits c1 (MForm.form fe1 false) locs true s1 = .ok s' ∧ noOverlap c1 locs true s' = .ok () ∧
        ∃ st, storeData (c1.who s1) p (readData c1.g fe1.data 4) = .ok st ∧
          ∃ s'', completeAtOnce c1 (.stfe fe1) s' = .ok s'' ∧ ∃ e, serveNow { c1.op (.stfe fe1) with reqs := putReqs locs st.puts } s'' = .ok e := by
  obtain ⟨p, h4, h⟩ := ex_bind (show isOk (planAccess c1 .store (MForm.form fe1 false) spadOnly s1 >>= fun p =>
      checkAccess s1 (c1.who s1) .store false p.pieces >>= fun locs => orderWaits c1 (MForm.form fe1 false) locs true s1 >>= fun s' => noOverlap c1 locs true s' >>= fun _ =>
      ofTrap (storeData (c1.who s1) p (readData c1.g fe1.data 4)) >>= fun st => completeAtOnce c1 (.stfe fe1) s' >>= fun s'' =>
        serveNow { c1.op (.stfe fe1) with reqs := putReqs locs st.puts } s'') = true by decide +kernel)
  obtain ⟨locs, h5, h⟩ := ex_bind h
  obtain ⟨s', h6, h⟩ := ex_bind h
  obtain ⟨⟨⟩, h9, h⟩ := ex_bind h
  obtain ⟨st, h7, h⟩ := ex_bind h
  obtain ⟨s'', h8, h⟩ := ex_bind h
  exact ⟨p, h4, locs, h5, s', h6, h9, st, ofTrap_ok h7, s'', h8, ex_ok h⟩

/-- A record and a buffer from the scratchpad: all zeros are a record and remove the buffer. A pointer off by one. -/
theorem witness_TablesLoaded : Issues s1 c1 ∧ acc.addr = .s 4 ∧ acquirePending s1 c1.gid = false ∧ (∀ here, engineOn s1 c1.g.team c1.t.place here = false) ∧
    (c1.g.readS 4).toNat % 16 = 0 ∧ ({ acc with recIx := 1 } : MForm).recIx ≠ 0 ∧ acc.recIx.toNat < 16 ∧ ({ acc with recIx := 15 } : MForm).recIx.toNat < 16 ∧
    (∃ s', completeAtOnce c1 (.bufstRecord { acc with recIx := 1 }) s1 = .ok s' ∧
      ∃ e, readStruct c1 (.bufstRecord { acc with recIx := 1 }) .i (c1.g.readS 4) 40 s' = .ok e) ∧
    (∃ s', completeAtOnce c1 (.bufstBuffer acc) s1 = .ok s' ∧ ∃ e, readStruct c1 (.bufstBuffer acc) .i (c1.g.readS 4) 16 s' = .ok e ∧
      bufOk c1.t acc.recIx.toNat (BitVec.ofNat 128 (leNat e.1)) = true) ∧
    (let g := { group1 with sregs := [(4, 0x00F0000000000041)] }; Issues (sG g) (cG g) ∧ (g.readS 4).toNat % 8 ≠ 0) := by
  refine ⟨issues1, rfl, by decide, fun _ => rfl, by decide, by decide, by decide, by decide, ?_, ?_, issuesG rfl rfl rfl, by decide⟩
  · obtain ⟨s', h1, h⟩ := ex_bind (f := fun s' => readStruct c1 (.bufstRecord { acc with recIx := 1 }) .i (c1.g.readS 4) 40 s')
      (show isOk (completeAtOnce c1 (.bufstRecord { acc with recIx := 1 }) s1 >>= _) = true by decide +kernel)
    exact ⟨s', h1, ex_ok h⟩
  · obtain ⟨s', h1, h⟩ := ex_bind (f := fun s' => readStruct c1 (.bufstBuffer acc) .i (c1.g.readS 4) 16 s' >>= fun e =>
        guardOp (bufOk c1.t acc.recIx.toNat (BitVec.ofNat 128 (leNat e.1))))
      (show isOk (completeAtOnce c1 (.bufstBuffer acc) s1 >>= _) = true by decide +kernel)
    obtain ⟨e, h2, h⟩ := ex_bind h
    refine ⟨s', h1, e, h2, ?_⟩
    exact guard_ok h

/-- The lines of virtual page 1, with lanes active and with none. -/
theorem witness_CacheInstructions : Issues sMem cMem ∧ (MForm.form accG false).addrOk cMem.g = true ∧ acquirePending sMem cMem.gid = false ∧
    (MForm.form accG false).acting cMem.g ≠ [] ∧ accG.recIx = 0 ∧ (∀ i ∈ [Instr.pref accG, .flushl accG, .invl accG, .subscr accG], CounterFree cMem i) ∧
    (∃ t, (MForm.form acc false).acting cMem.g ≠ [] ∧ prefLanes cMem (MForm.form acc false) false (countedOnce cMem (.pref acc) sMem) = .ok t) ∧
    (∃ p, planAccess cMem .flush (MForm.form accG false) (fun _ => .ok ()) sMem = .ok p ∧
      ∃ locs, checkAccess sMem (cMem.who sMem) .flush false p.pieces = .ok locs ∧ noOverlap cMem locs true sMem = .ok () ∧
        flushWaits sMem cMem.t.place cMem.gid (namedLines sMem.fab locs) = false) ∧
    (let g := { gMem with exec := 0 }; Issues (sG g) (cG g) ∧ (MForm.form accG false).addrOk g = true ∧ (MForm.form accG false).acting g = []) ∧
    (∃ x, recordChecks .load (cMem.t.fileRec 1) = .error (.trap x)) := by
  refine ⟨issuesMem, by decide, by decide, by decide, rfl, ?_, (ex_ok (by decide +kernel)).imp fun _ h => ⟨by decide, h⟩, ?_, ⟨issuesG rfl rfl rfl, by decide, by decide⟩, _, rfl⟩
  · intro i hi k hk
    simp only [List.mem_cons, List.not_mem_nil, or_false] at hi
    rcases hi with rfl | rfl | rfl | rfl <;> cases hk
  · obtain ⟨p, h1, h⟩ := ex_bind (show isOk (planAccess cMem .flush (MForm.form accG false) (fun _ => .ok ()) sMem >>= fun p =>
        checkAccess sMem (cMem.who sMem) .flush false p.pieces >>= fun locs => noOverlap cMem locs true sMem >>= fun _ =>
          guardOp (!flushWaits sMem cMem.t.place cMem.gid (namedLines sMem.fab locs))) = true by decide +kernel)
    obtain ⟨locs, h2, h⟩ := ex_bind h
    obtain ⟨⟨⟩, h3, h⟩ := ex_bind h
    exact ⟨p, h1, locs, h2, h3, by simpa using guard_ok h⟩

/-- SUBSCR through a record of F32, with its drop and without it: the core subscribes the line already. -/
def sSub : State :=
  let s := sRec 0x10000 0
  { s with fab := { fab1 with waybills := [(0x2000, { home := 0, subs := [{ core := 0, update := false, fmts := some (.f32, .f32) }] })] } }
def cSub : Ctx := cRec 0x10000 0

theorem issuesSub : Issues sSub cSub := issues_more (issuesRec 0x10000 0) rfl rfl rfl rfl rfl

def subscribed (s : State) (locs : List Located) : Option State :=
  (byLine (forwardAll s.fab ((locs.filter fun b => !isSpad b.loc && !isBypass s b.loc).map fun b => (b.ptr, b.loc)))).foldlM
    (fun s b => subscribeLine s (cSub.who sSub) (MForm.form accR false) ((.f32, .f32), false) b) s

theorem witness_CacheInstructions_subscr : Issues sSub cSub ∧ recordChecks .load (cSub.t.fileRec 1) = .ok () ∧ CounterFree cSub (.subscr accR) ∧
    subscription (some (Rec.ofBits 1 (cSub.t.fileRec 1))) = some (some (.f32, .f32), false) ∧ (MForm.form accR false).acting cSub.g ≠ [] ∧
    (∃ p, planAccess cSub .load (MForm.form accR false) (fun _ => .ok ()) sSub = .ok p ∧
      ∃ locs, checkAccess sSub (cSub.who sSub) .load false p.pieces = .ok locs ∧
        noOverlap cSub locs true sSub = .ok () ∧ noOverlap cSub locs false sSub = .ok () ∧
        flushWaits sSub cSub.t.place cSub.gid (namedLines sSub.fab locs) = false ∧
        (subscribed (countedOnce cSub (.subscr accR) sSub) locs).isSome = true) ∧
    (∀ u m, subscription (some (Rec.ofBits 1 (recF32 0x10000 0 ||| BitVec.ofNat 320 (2 ^ 114 + 4 * 2 ^ 118)))) ≠ some (some u, m)) := by
  refine ⟨issuesSub, rfl, free1 rfl, by decide +kernel, by decide, ?_, ?_⟩
  · obtain ⟨p, h1, h⟩ := ex_bind (show isOk (planAccess cSub .load (MForm.form accR false) (fun _ => .ok ()) sSub >>= fun p =>
        checkAccess sSub (cSub.who sSub) .load false p.pieces >>= fun locs => noOverlap cSub locs true sSub >>= fun _ =>
        noOverlap cSub locs false sSub >>= fun _ =>
        guardOp (!flushWaits sSub cSub.t.place cSub.gid (namedLines sSub.fab locs)) >>= fun _ =>
          guardOp (subscribed (countedOnce cSub (.subscr accR) sSub) locs).isSome) = true by decide +kernel)
    obtain ⟨locs, h2, h⟩ := ex_bind h
    obtain ⟨⟨⟩, h3, h⟩ := ex_bind h
    obtain ⟨⟨⟩, h4, h⟩ := ex_bind h
    obtain ⟨⟨⟩, h5, h⟩ := ex_bind h
    exact ⟨p, h1, locs, h2, h3, h4, (Bool.not_eq_true' _).mp (guard_ok (by rw [h5]; rfl)), guard_ok h⟩
  · intro u m h
    have : subscription (some (Rec.ofBits 1 (recF32 0x10000 0 ||| BitVec.ofNat 320 (2 ^ 114 + 4 * 2 ^ 118)))) = some (none, false) := by decide +kernel
    rw [this] at h
    cases h

/-- A block of one value at 0x40 of the scratchpad; the encoding of four values. -/
def venc1 : MForm := { acc with data := .v 8 }

theorem witness_BlockCodec : Issues s1 c1 ∧ venc1.addr = .s 4 ∧ dataOk c1.g false 4 venc1.data = true ∧ c1.t.side = .solo ∧ c1.g.exec ≠ 0 ∧
    (ptrAdd (c1.g.readS 4) venc1.off.toInt).toNat % 8 = 0 ∧ acquirePending s1 c1.gid = false ∧
    (∃ s', completeAtOnce c1 (.vdec venc1) s1 = .ok s' ∧ ∃ h, readBytes true c1 (.vdec venc1) venc1.req venc1.hint (c1.g.readS 4) 8 s' = .ok h ∧
      vHeader (leNat h.1) = some (1, 0, 0, 0) ∧ ∃ b, readBytes true c1 (.vdec venc1) venc1.req venc1.hint (c1.g.readS 4) (vSize 1 0) h.2 = .ok b) ∧
    vHeader (2 ^ 47) = none ∧
    (let bs := vEncode ((lanes c1.g.exec).map fun l => readData c1.g venc1.data 4 l)
     ∃ locs, checkAccess s1 (c1.who s1) .store false [{ lane := 0, ptr := c1.g.readS 4, len := bs.length }] = .ok locs ∧ awaitCopies locs s1 = .ok () ∧
       ∃ s', orderWaits c1 (MForm.form venc1 true) locs true s1 = .ok s' ∧
         ∃ t, issueOp c1 { c1.op (.venc venc1) with
           reqs := [storeReq locs 0 (bs.zipIdx.map fun (v, k) => ((ptrAdd (c1.g.readS 4) (k : Nat)).toNat, v, 0xFF))],
           vals := [(200, ptrAdd (c1.g.readS 4) bs.length)], locs := globalLocs locs } s' = .ok t) ∧
    (let g := { group1 with exec := 0 }; Issues (sG g) (cG g) ∧ CounterFree (cG g) (.vdec venc1) ∧ DestFree (cG g) (.vdec venc1) (sG g)) ∧
    (let g := { group1 with sregs := [(4, 0x00F0000000000044)] }
     Issues (sG g) (cG g) ∧ (ptrAdd (g.readS 4) venc1.off.toInt).toNat % 8 ≠ 0) ∧
    (∀ xs ∈ [[0], List.replicate 64 (2 ^ 32 - 1)], xs ≠ [] ∧ xs.length ≤ 64 ∧ ∀ x ∈ xs, x < 2 ^ 32) := by
  refine ⟨issues1, rfl, by decide, rfl, by decide, by decide, by decide, ?_, by decide, ?_, ⟨issuesG rfl rfl rfl, free1 rfl, by unfold DestFree; decide +kernel⟩,
    ⟨issuesG rfl rfl rfl, by decide⟩, by decide⟩
  · obtain ⟨s', h1, h⟩ := ex_bind (f := fun s' => readBytes true c1 (.vdec venc1) venc1.req venc1.hint (c1.g.readS 4) 8 s' >>= fun h =>
        guardOp (vHeader (leNat h.1) == some (1, 0, 0, 0)) >>= fun _ => readBytes true c1 (.vdec venc1) venc1.req venc1.hint (c1.g.readS 4) (vSize 1 0) h.2)
      (show isOk (completeAtOnce c1 (.vdec venc1) s1 >>= _) = true by decide +kernel)
    obtain ⟨b, h2, h⟩ := ex_bind h
    obtain ⟨_, h3, h⟩ := ex_bind h
    refine ⟨s', h1, b, h2, ?_, ex_ok h⟩
    exact eq_of_beq (guard_ok (by rw [h3]; rfl))
  · obtain ⟨locs, h1, h⟩ := ex_bind (f := fun locs => awaitCopies locs s1 >>= fun _ => orderWaits c1 (MForm.form venc1 true) locs true s1 >>= fun s' =>
        issueOp c1 { c1.op (.venc venc1) with
           reqs := [storeReq locs 0 ((vEncode ((lanes c1.g.exec).map fun l => readData c1.g venc1.data 4 l)).zipIdx.map fun (v, k) =>
             ((ptrAdd (c1.g.readS 4) (k : Nat)).toNat, v, 0xFF))],
           vals := [(200, ptrAdd (c1.g.readS 4) (vEncode ((lanes c1.g.exec).map fun l => readData c1.g venc1.data 4 l)).length)],
           locs := globalLocs locs } s')
      (show isOk (checkAccess s1 (c1.who s1) .store false
        [{ lane := 0, ptr := c1.g.readS 4, len := (vEncode ((lanes c1.g.exec).map fun l => readData c1.g venc1.data 4 l)).length }] >>= _) = true by decide +kernel)
    obtain ⟨⟨⟩, h2, h⟩ := ex_bind h
    obtain ⟨s', h3, h⟩ := ex_bind h
    exact ⟨locs, h1, h2, s', h3, ex_ok h⟩

/-- Every order and scope of a FENCE, with nothing in flight; a system fence with a write unacknowledged, and its time limit. -/
def fence1 (o : Order) (sc : Scope) : MForm := { acc with ord := o, scope := sc }
def sPosted : State := { sMem with ops := [(9, { opPeer with posted := true })] }

theorem witness_FencesComplete : Issues sMem cMem ∧ acquirePending sMem cMem.gid = false ∧ cMem.t.side = .solo ∧ unacknowledged sMem cMem.gid = 0 ∧
    (∀ sc, ∃ s', release cMem true sc (if sc = .system then startFence cMem sMem else sMem) = .ok s') ∧ (∃ s', release cMem true .system sMem = .ok s') ∧ sMem.pendingOps cMem.gid = [] ∧
    (∀ sc, releaseReady sMem cMem.t.place sc = true) ∧ { sMem with ops := [(9, opSt)] }.pendingOps 4 ≠ [] ∧
    (∀ sc, invalidationsPending (releaseAt sMem cMem.t.place sc) = false) ∧ (sMem.pendingOps cMem.gid).any (fun e => isLoadOp e.2.instr) = false ∧
    (∀ o sc, ∃ t, completeAtOnce cMem (.fence (fence1 o sc)) sMem = .ok t) ∧
    Issues sPosted cMem ∧ unacknowledged sPosted cMem.gid ≠ 0 ∧ acquirePending sPosted cMem.gid = false ∧
    unreachableWrite { sPosted with dev := { sPosted.dev with peers := [(0, 1)], links := [(0, .up)] } } cMem.gid = false ∧
    (let g := { gMem with phase := .waiting, fenceStart := some 0, linkFenceLim := 0 }
     g.fenceStart = some 0 ∧ (0 : Word) + g.linkFenceLim.zeroExtend 64 ≤ sPosted.cycle (reticleOf team1.place)) :=
  ⟨issuesMem, by decide, rfl, by decide, fun sc => by cases sc <;> exact ex_ok (by decide +kernel), ex_ok (by decide +kernel), by decide,
    fun sc => by cases sc <;> decide +kernel, by decide, fun sc => by cases sc <;> decide +kernel, by decide, fun o sc => by cases o <;> cases sc <;> exact ⟨_, rfl⟩,
    issues_more (t := sPosted) issuesMem rfl rfl rfl rfl rfl, by decide, by decide, by decide, rfl, by decide⟩

theorem witness_RepeatsAndTimeouts :
    (let r : LaneReq := { lane := 0, kind := .atomic, bytes := [(0x10000, 0x100000)], tag := some 0 }
     let o := { opAtom with reqs := [r] }
     let x : Served := { home := (waybill sMem (lineOf 0x100000)).home, line := lineOf 0x100000, core := 0, tag := 0, old := some 7, fp := 0, poison := [] }
     let s := { sMem with ops := [(9, o)], fab := { fab1 with served := [x] }, dev := { sMem.dev with cycles := [(0, 0x100000)] } }
     s.op? 9 = some o ∧ (s.who? o.group).isSome = true ∧ (s.group? o.group).bind (placeOfGroup s) = some 0 ∧
       isAtomic o.instr = true ∧ o.reqs ≠ [] ∧ o.sentAt + 0x100000 ≤ s.cycle (reticleOf 0) ∧ r.kind = .atomic ∧ r.tag = some 0 ∧
       heldTag s.fab 0 (lineOf 0x100000) 0 = some x) ∧
    (let o := { opLoaded with reqs := [{ lane := 0, kind := .load, bytes := [(0x10000, 2 ^ 46)] }] }
     let s := { sMem with ops := [(9, o)], dev := { sMem.dev with cycles := [(0, 4000000)] } }
     isLoadOp o.instr = true ∧ o.posted = false ∧
       (o.reqs.flatMap fun r => (if r.scales.isEmpty then r.bytes else r.scales).map (·.2)).any isPeer = true ∧
       o.sentAt + gMem.linkFenceLim.zeroExtend 64 ≤ s.cycle (reticleOf team1.place)) ∧
    (∀ i < 12, (SMap.get 0 sMem.dev.peers (peerOf (2 ^ 46))).getLsbD i = true → SMap.get .down sMem.dev.links i = .down) :=
  ⟨⟨rfl, rfl, rfl, rfl, by simp, by decide, rfl, rfl, rfl⟩, ⟨rfl, rfl, by decide, by decide⟩, by decide⟩

/-! ### Memory in a convoy, posted writes, peers -/

/-- The lead's group over memory, re-executing from the waypoint: the log covers its next operation. -/
def sMemLead (x : LoadValue) : State :=
  { withMem (sLead gMem) with convoys := [{ lead := 3, escort := 7, commits := [(0, x)], covered := [(0, 1)] }] }
def cMemLead : Ctx := cLead gMem

theorem issuesMemLead (x : LoadValue) : Issues (sMemLead x) cMemLead :=
  issues_more (issuesLead (g := gMem) rfl rfl rfl) rfl rfl rfl rfl rfl

theorem takes_logged {c : Ctx} {s : State} {sig : Word} {v : List (Nat × Word)} (h : c.logged s = some { sig, vals := v })
    (hs : c.t.side = .lead) (f : State → Res (List (Nat × Word) × State)) :
    takeOutside c sig f s = .ok (v, c.tookLogged s) ∧ performOnce c sig f s = .ok (v, c.tookLogged s) := by
  simp [takeOutside, performOnce, fromLog, hs, h]

def planLead (k : Access) (f : Form) : Plan := okOr (planAccess cMemLead k f (fun _ => .ok ()) (sMemLead { sig := 0 })) ⟨f, 0, []⟩

theorem reads_logged {c : Ctx} {i : Instr} {f : Form} {p : Plan} {o x : Op} {s u : State} {v : List (Nat × Word)}
    (hr : serveNow { o with reqs := loadReqs p [] } s = .ok (x, u))
    (hs : c.t.side = .lead) (hf : (p.pieces.filter fun x => sharedByte x.ptr.toNat).isEmpty = false)
    (hl : c.logged u = some { sig := c.sig i ((p.pieces.filter fun x => sharedByte x.ptr.toNat).flatMap Piece.bytes), vals := v }) :
    readOutside c i f p [] o s = .ok (withVals x v, c.tookLogged u) := by
  have h : (c.t.side == Side.solo) = false := by rw [hs]; rfl
  simp only [readOutside, hr, h, hf, (takes_logged hl hs _).1, bind, Except.bind]
  rfl

theorem stores_logged {c : Ctx} {i : Instr} {f : Form} {far : List Piece} {st : Stored} {o : Op} {s u : State} {v : List (Nat × Word)}
    (hu : completeAtOnce c i s = .ok u) (hs : c.t.side = .lead) (hf : far.isEmpty = false)
    (hl : c.logged u = some { sig := c.storeSig i (st.puts.map fun (l, x) => (l, x.filter fun y => sharedByte y.1)), vals := v })
    (hn : isOk (serveNow { o with reqs := putReqs [] (putsAt [] st.puts) } (c.tookLogged u)) = true) :
    ∃ t, storeOnce c i f far (.ok st) [] o s = .ok t := by
  simp only [storeOnce, hu, hf, (takes_logged hl hs _).2, bind, Except.bind]
  cases h : serveNow { o with reqs := putReqs [] (putsAt [] st.puts) } (c.tookLogged u) with
  | error e => rw [h] at hn; cases hn
  | ok x => exact ⟨x.2, by simp⟩

def farOf (k : Access) (f : Form) : List Piece := (planLead k f).pieces.filter fun x => sharedByte x.ptr.toNat
def sLoadLead : State := sMemLead { sig := cMemLead.sig (.ld accG) ((farOf .load (MForm.form accG false)).flatMap Piece.bytes) }

/-- A load of shared bytes by the lead. -/
theorem witness_AccessesIssue_shared_load : Issues sLoadLead cMemLead ∧ cMemLead.t.side ≠ .solo ∧
    (cMemLead.split (planLead .load (MForm.form accG false)).pieces).1 = [] ∧
    planAccess cMemLead .load (MForm.form accG false) (fun _ => .ok ()) sLoadLead = .ok (planLead .load (MForm.form accG false)) ∧
    ∃ s2, completeAtOnce cMemLead (.ld accG) sLoadLead = .ok s2 ∧ ∃ e,
      readOutside cMemLead (.ld accG) (MForm.form accG false) (planLead .load (MForm.form accG false)) []
        { cMemLead.op (.ld accG) with
          record := (planLead .load (MForm.form accG false)).record, vals := keepPlan (planLead .load (MForm.form accG false)), reqs := [] } s2 = .ok e ∧
      ∃ r, loadDone (cMemLead.who sLoadLead) (MForm.form accG false) e.1 = .ok r ∧ r.trap = none :=
  ⟨issuesMemLead _, by decide, by decide +kernel, eq_ok _ (by decide +kernel), countedOnce cMemLead (.ld accG) sLoadLead, rfl, _,
    reads_logged (eq_ok ({ cMemLead.op (.ld accG) with reqs := [] }, sLoadLead) (by decide +kernel)) rfl (by decide +kernel) rfl, whole_ok (by decide +kernel)⟩

def stLead : Stored := okOr (storeData (cMemLead.who (sMemLead { sig := 0 })) (planLead .store (MForm.form accG false)) (readData cMemLead.g accG.data 4)) { puts := [] }
def sigAtom : Word :=
  cMemLead.sig (.atom atom1) ((farOf .atomic (AForm.form atom1 false)).flatMap Piece.bytes ++
    (atomOp cMemLead (.atom atom1) atom1 false (planLead .atomic (AForm.form atom1 false))).vals.map fun e => e.2.toNat)

/-- A store and an atomic of shared bytes by the lead. -/
theorem witness_AccessesIssue_shared_store :
    storeData (cMemLead.who (sMemLead { sig := 0 })) (planLead .store (MForm.form accG false)) (readData cMemLead.g accG.data 4) = .ok stLead ∧
    cMemLead.split (planLead .store (MForm.form accG false)).pieces = ([], farOf .store (MForm.form accG false)) ∧
    (∃ t, storeOnce cMemLead (.st accG) (MForm.form accG false) (farOf .store (MForm.form accG false)) (.ok stLead) [] (cMemLead.op (.st accG))
      (sMemLead { sig := cMemLead.storeSig (.st accG) (stLead.puts.map fun (l, x) => (l, x.filter fun y => sharedByte y.1)) }) = .ok t) ∧
    cMemLead.split (planLead .atomic (AForm.form atom1 false)).pieces = ([], farOf .atomic (AForm.form atom1 false)) ∧
    farOf .atomic (AForm.form atom1 false) ≠ [] ∧
    (let s := sMemLead { sig := sigAtom, vals := [(0, 7)] }
     ∃ s2, completeAtOnce cMemLead (.atom atom1) s = .ok s2 ∧ ∀ f, performOnce cMemLead sigAtom f s2 = .ok ([(0, 7)], cMemLead.tookLogged s2)) :=
  ⟨eq_ok _ (by decide +kernel), by decide +kernel, stores_logged rfl rfl (by decide +kernel) rfl (by decide +kernel), by decide +kernel, by decide +kernel, _, rfl,
    fun f => (takes_logged rfl rfl f).2⟩

/-- A store through a record whose policy traps on what it meets: data that does not convert. -/
theorem witness_AccessesIssue_trapped_store : Issues (sRec 0x00F0000000000040 1) (cRec 0x00F0000000000040 1) ∧
    (cRec 0x00F0000000000040 1).t.side = .solo := ⟨issuesRec _ _, rfl⟩

/-- A block read by the lead, and one written by it. -/
def vencG : MForm := { venc1 with addr := .s 10 }
def block1 : List Byte := vEncode [5, 9, 5, 5]
def blockPuts : List (Nat × List Put) := [(0, block1.zipIdx.map fun (v, k) => ((ptrAdd 0x10000 (k : Nat)).toNat, v, 0xFF))]

theorem reads_shared {c : Ctx} {i : Instr} {a : Word} {n : Nat} {s : State} {v : List (Nat × Word)} {bs : List Byte}
    {f : State → Res (List Byte × State)} (hl : c.logged s = some { sig := c.sig i [a.toNat, n], vals := v }) (hs : c.t.side = .lead)
    (ha : sharedByte a.toNat = true) (hv : v.map (fun e => e.2.setWidth 8) = bs) : readShared c i a n f s = .ok (bs, c.tookLogged s) := by
  simp [readShared, ha, (takes_logged hl hs _).1, bind, Except.bind, hv]

theorem witness_BlockCodec_shared :
    (let s := sMemLead { sig := cMemLead.sig (.vdec vencG) [0x10000, 0], vals := block1.zipIdx.map fun (v, k) => (k, v.zeroExtend 64) }
     ∃ s1, completeAtOnce cMemLead (.vdec vencG) s = .ok s1 ∧
       ∃ u, readShared cMemLead (.vdec vencG) 0x10000 0 (vRead cMemLead vencG 0x10000) s1 = .ok (block1, u)) ∧
    (vHeader (leNat (block1.take 8))).isSome = true ∧
    (let far := [{ lane := 0, ptr := 0x10000, len := block1.length }]
     cMemLead.split far = ([], far) ∧
       (∃ t, storeOnce cMemLead (.venc vencG) (MForm.form vencG true) far (.ok { puts := blockPuts }) []
         { cMemLead.op (.venc vencG) with vals := [(200, ptrAdd 0x10000 block1.length)] }
         (sMemLead { sig := cMemLead.storeSig (.venc vencG) (blockPuts.map fun (l, x) => (l, x.filter fun y => sharedByte y.1)) }) = .ok t)) := by
  refine ⟨⟨_, rfl, ?_⟩, by decide +kernel, by decide +kernel, stores_logged rfl rfl (by decide +kernel) rfl (by decide +kernel)⟩
  exact ⟨_, reads_shared rfl rfl (by decide) (by decide +kernel)⟩

/-- A block read alone: the header's 8 bytes and the block, and a header that R284 does not allow. -/
theorem witness_BlockCodec_raw : isOk (completeAtOnce c1 (.vdec venc1) s1 >>= fun s1 => readRaw c1 (.vdec venc1) venc1.req venc1.hint (c1.g.readS 4) 8 s1 >>= fun h =>
      guardOp (decide (h.1.length = 8) && vHeader (leNat h.1) == some (1, 0, 0, 0)) >>= fun _ =>
        readRaw c1 (.vdec venc1) venc1.req venc1.hint (c1.g.readS 4) (vSize 1 0) h.2) = true ∧
    vHeader (2 ^ 47) = none := ⟨by decide +kernel, by decide⟩

/-- A posted write on a link that is up keeps a release waiting; one on a link that is down does not. -/
theorem witness_FencesComplete_posted :
    (let s := { sPosted with dev := { sPosted.dev with peers := [(0, 0x8001)], links := [(0, .up)] } }
     ∃ e ∈ s.groupOps 4, postedOpen s e.2 = true) ∧
    releaseReady sMem 0 .device = true ∧
    (let s := { sMem with ops := [(9, { opReq 0x100000 with group := 5 })],
                          fab := { lags := [{ word := 0x20000, sites := 2, old := [], wait := [9], own := 0, group := 5 }] } }
     s.pendingOps 4 = [] ∧ (∀ e ∈ s.groupOps 4, postedOpen s e.2 = false) ∧ releaseReady s 0 .device = false) ∧
    Scope.global .device = true ∧ (∃ t : State, invalidationsPending t = true) := by
  exact ⟨⟨(9, { opPeer with posted := true }), by decide, by decide +kernel⟩, by decide +kernel, by decide +kernel, rfl,
    { sMem with fab := { inval := [(0, 5, none)] } }, by decide +kernel⟩

def fenceS : MForm := { acc with data := .v 0, addr := .v 0, ord := .acqRel, scope := .system, size := .b1 }
def regF : Region := { reg1 with code := [BitVec.ofNat 64 hdr1.pack, (encode (.fence fenceS)).getD 0] }
def gFence (lim : BitVec 32) : Group := { gMem with phase := .waiting, fenceStart := some 0, linkFenceLim := lim }
def sFence (lim : BitVec 32) : State := { sPosted with groups := [(4, gFence lim)], regions := [(2, regF)] }
def cFence (lim : BitVec 32) : Ctx := { cG (gFence lim) with r := regF }

/-- A system fence at its limit, and before it. -/
theorem witness_FencesComplete_late : (∀ lim ∈ [(0 : BitVec 32), 1], (sFence lim).ctx? 4 = some (cFence lim) ∧ fenceLate (sFence lim) 4 = decide (lim = 0) ∧
      (gFence lim).phase = .waiting ∧ fenceS.scope = .system ∧ unacknowledged (startFence (cFence lim) (sFence lim)) 4 ≠ 0 ∧
      ((startFence (cFence lim) (sFence lim)).pendingOps 4).any (fun e => isLoadOp e.2.instr) = false ∧ acquirePending (sFence lim) 4 = false) ∧
    (codeAt regF 8).bind decode? = some (.fence fenceS) ∧
    (∃ x, performOnce cMemLead (cMemLead.sig (.fence fenceS) []) (fun x => .ok ([], x)) (sMemLead { sig := cMemLead.sig (.fence fenceS) [] }) = .ok x) := by
  refine ⟨fun lim h => ?_, by decide +kernel, _, (takes_logged rfl rfl _).2⟩
  simp only [List.mem_cons, List.not_mem_nil, or_false] at h
  have hc : ∀ lim, (sFence lim).ctx? 4 = some (cFence lim) := fun lim => by
    have hc : codeAt regF 0 = some (BitVec.ofNat 64 hdr1.pack) := by decide
    have hd : decodeHeader (BitVec.ofNat 64 hdr1.pack) = some hdr1 := by decide
    simp [State.ctx?, sFence, sPosted, sMem, withMem, sG, cFence, cG, machine, frame, State.group?, State.team?, State.launch?, State.region?,
      SMap.entry?, gFence, gMem, group1, team1, launch1, hc, hd]
  rcases h with rfl | rfl <;> exact ⟨hc _, by decide +kernel, rfl, rfl, by decide +kernel, by decide +kernel, by decide +kernel⟩

/-- A peer's atomic, new and answered before. -/
theorem witness_RequestsServed_peer_atomic : ∀ held ∈ [[], [({ home := 0, line := lineOf 0x100000, core := 65536, tag := 3, old := some 7, fp := 0, poison := [] } : Served)]],
    let r : PeerReq := { peer := 15, loc := 0x100000, size := 8, tag := some 3, atomic := some (.add, 5, 0) }
    let s := { sMem with fab := { fab1 with peerReqs := [(9, r)], served := held } }
    let locs := (List.range 8).map fun i => forwarded s.fab (0x100000 + i)
    s.op? 9 = none ∧ SMap.entry? s.fab.peerReqs 9 = some r ∧ (locs.map lineOf).any (lineWaits s .other) = false ∧ (∀ p ∈ locs, p < 1536 * gib) ∧
      blockedFor s 64 0 locs = false ∧ cowPages s locs = [] ∧ heldTag s.fab r.requester (lineOf r.loc) 3 = held.head? := by decide +kernel

/-- What a request and a write of the core name lies away from the next byte. -/
theorem witness_RequestsServed_reaches : ¬ Reaches sMem.fab 0x100000 0x100001 ∧ dirtyBytes sMem.fab 0 = [] ∧
    (let s := { sMem with ops := [(9, opReq 0x100000)] }
     let u := { s with free := 2, fab := { fab1 with waybills := [(0x2000, { home := 0 })], tickets := [(0, 9, 0)] } }
     (refuser u (lineOf 0x100000), 9, 0) ∈ u.fab.tickets ∧ ticketAhead u (refuser u (lineOf 0x100000)) 9 0 = false) := by
  refine ⟨by unfold Reaches; decide +kernel, by decide +kernel, ?_⟩
  decide +kernel

/-- PREF through record 0 of a page whose format has scales. -/
def sScaled : State :=
  { sMem with fab := { tlb := [(0, ⟨0, 1, BitVec.ofNat 64 (leafOf 0x10 + 2 ^ 44 + Fmt.code .i8s * 2 ^ 45), 0⟩)] } }

theorem witness_CacheInstructions_scaled :
    (match prefLanes cMem (MForm.form accG false) false sScaled with | .error (.trap x) => decide (x = { cause := 0x16 }) | _ => false) = true := by
  decide +kernel

/-- A repeat that its home answers, and a read of a peer whose links are down, up, or which has waited too long. -/
theorem witness_RepeatsAndTimeouts_peer :
    (let o := opReq (2 ^ 46)
     serveAll (2 * o.reqs.length) o sMem = none ∧ (∀ r ∈ o.reqs, r.kind = .load ∨ r.kind = .atomic) ∧ (askedBy o).any isPeer = true ∧
       (askedBy o).any (linkDown sMem) = true ∧
       (askedBy o).any (linkDown { sMem with dev := { sMem.dev with peers := [(0, 0x8001)], links := [(0, .up)] } }) = false) ∧
    (let g := { gMem with peerStart := some 0, linkFenceLim := 0 }
     g.peerStart.isSome = true ∧ g.peerStart.getD 0 + g.linkFenceLim.zeroExtend 64 ≤ (0 : Word)) := by
  refine ⟨⟨by decide +kernel, by decide, by decide +kernel, by decide +kernel, by decide +kernel⟩, rfl, by decide⟩

/-! ### Engines, barriers, collectives -/

/-- s10, s11 and s12 hold a source, a destination and a length; s13 a page that is absent. -/
def gCopy : Group :=
  { group1 with sregs := [(10, 0x00F0000000000040), (11, 0x10000), (12, 8), (13, 0x20000)] }
def sCopy : State := { withMem (sG gCopy) with fab := { fab1 with waybills := [(0x2000, { home := 0 })] } }
def cCopy : Ctx := cG gCopy
theorem issuesCopy : Issues sCopy cCopy := issues_more (issuesG (g := gCopy) rfl rfl rfl) rfl rfl rfl rfl rfl

def copyF : EForm := { place := 0, src := .s 10, dst := .s 11, len := .s 12, bar := 4, twoD := false, sig := false, fb := false }
def copyX : Copy := ⟨0x00F0000000000040, 0x10000, 1, 8, 0, 0⟩

/-- A dirty line of another core whose write home waits for an earlier load: no engine can hold it yet. -/
def sStuck : State :=
  { sCopy with
    ops := [(3, { group := 4, flag := none, instr := .ld acc, exec := 1, reqs := [{ lane := 0, kind := .load, bytes := [(0, 0)] }] })],
    fab := { sCopy.fab with
      l1 := [{ core := 1, line := 0x2000, data := List.replicate 128 0, valid := 1, dirty := 1 }],
      lags := [{ word := 0x20000, sites := 1, old := [], wait := [3] }] } }

def filled (s : State) : State := (cCopy.who s).fill s (copyX.pairs.map (·.2))

/-- The core named is one that no defect disables; that is what `usable` leaves open. No core has place 3,072. -/
theorem witness_Copies_issue (h : Config.disabledCore 0 0 = false) : Issues sCopy cCopy ∧ acquirePending sCopy cCopy.gid = false ∧ sCopy.nextId < 2 ^ 64 ∧
    cCopy.g.sup = false ∧ (apertureOf (ptrAddr (cCopy.g.readS 10))).kind ≠ 1 ∧ (apertureOf (ptrAddr (cCopy.g.readS 11))).kind ≠ 1 ∧
    copyOf copyF.twoD (cCopy.g.readS 10) (cCopy.g.readS 11) (cCopy.g.readS 12) = some copyX ∧
    usable sCopy.dev (3072 : BitVec 12).toNat = false ∧ usable sCopy.dev copyF.place.toNat = true ∧ cCopy.t.side = .solo ∧
    isSpadPtr (cCopy.g.readS 11).toNat = false ∧
    rangeCheck (cCopy.who sCopy) (copyX.rowsOf .load (cCopy.g.readS 10) copyX.sstride ++ copyX.rowsOf .store (cCopy.g.readS 11) copyX.dstride) = .ok () ∧
    CounterFree cCopy (.bcopy copyF) ∧
    (∃ v, holdLines (filled sCopy) (heldByCopy (filled sCopy) (cCopy.who sCopy) copyX) = some v ∧
      ∃ t, issueOp cCopy { cCopy.op (.bcopy copyF) with vals := [(0, cCopy.g.readS 10), (1, cCopy.g.readS 11), (2, cCopy.g.readS 12)],
                                                        locs := heldByCopy (filled sCopy) (cCopy.who sCopy) copyX }
        (assayLog cCopy (cCopy.sig (.bcopy copyF) [(cCopy.g.readS 10).toNat, (cCopy.g.readS 11).toNat, (cCopy.g.readS 12).toNat])
          [(0, BitVec.ofNat 64 v.nextId)] v) = .ok t) ∧
    (Issues sStuck cCopy ∧ acquirePending sStuck cCopy.gid = false ∧
      holdLines (filled sStuck) (heldByCopy (filled sStuck) (cCopy.who sStuck) copyX) = none) ∧ Issues sH cH ∧ cH.g.sup = true := by
  refine ⟨issuesCopy, by decide, by decide, rfl, by decide, by decide, rfl, by simp [usable], ?_, rfl, by decide, ok_unit (by decide +kernel), free1 rfl, ?_,
    ⟨issues_more issuesCopy rfl rfl rfl rfl rfl, by decide, by decide +kernel⟩, issuesH, rfl⟩
  · simp [usable, sCopy, withMem, sG, machine, copyF, disabledCores]
    exact fun h' => absurd (List.mem_of_mem_take h') (by simp [h])
  · obtain ⟨v, hv⟩ := Option.isSome_iff_exists.mp
      (show (holdLines (filled sCopy) (heldByCopy (filled sCopy) (cCopy.who sCopy) copyX)).isSome = true by decide +kernel)
    exact ⟨v, hv, _, rfl⟩

theorem issuesOp (o : Op) : Issues { sCopy with ops := [(9, o)] } cCopy := issues_more issuesCopy rfl rfl rfl rfl rfl

def opCopy (src : Word) : Op :=
  { group := 4, flag := none, instr := .bcopy copyF, exec := 0xF, vals := [(9, 3), (0, src), (1, 0x10000), (2, 8)] }
def sOp (o : Op) : State := { sCopy with ops := [(9, o)] }

theorem pair_of {α β : Type} {p : α × β} {b : β} (h : p.2 = b) : p = (p.1, b) := by rw [← h]

def opStarted : Op := { opCopy 0x00F0000000000040 with started := true }
def zsCopy : List (Site × Site) := (copySites (sOp opStarted) (cCopy.who sCopy) 3 copyX).1

/-- A copy to the scratchpad share of the team itself. -/
def opIn : Op := { opCopy 0x10000 with vals := [(9, 3), (0, 0x10000), (1, 0x00F0000000000040), (2, 8)] }
def inX : Copy := ⟨0x10000, 0x00F0000000000040, 1, 8, 0, 0⟩

/-- A copy that may start, to memory and to a share; one whose bytes all pass, one from past the share, and one from an absent
page; the object of a signal is the team's. -/
theorem witness_Copies_run :
    ((sOp (opCopy 0x00F0000000000040)).op? 9 = some (opCopy 0x00F0000000000040) ∧
      (sOp (opCopy 0x00F0000000000040)).who? 4 = some (cCopy.who (sOp (opCopy 0x00F0000000000040))) ∧ (opCopy 0x00F0000000000040).copy copyF = some copyX ∧
      (opCopy 0x00F0000000000040).started = false ∧ engineReady? (sOp (opCopy 0x00F0000000000040)) 9 (opCopy 0x00F0000000000040) 0 = true ∧
      spadRetained (sOp (opCopy 0x00F0000000000040)).fab copyF.place.toNat = false ∧ isSpadPtr copyX.dst.toNat = false ∧ copyF.sig = false) ∧
    (opIn.copy copyF = some inX ∧ isSpadPtr inX.dst.toNat = true ∧ inX.rows * inX.len ≠ 0 ∧ engineReady? (sOp opIn) 9 opIn 0 = true ∧
      (let u := inX.fill (cCopy.who (sOp opIn)) (writeBack (sOp opIn) 0)
       (teamAt u 1 0 .solo).map (·.1) = some 3 ∧ teamAt u 1 1 .solo = none) ∧ ptrRegion inX.dst = 0 ∧
      ∀ a ∈ inX.pairs.map fun p => p.2 % 2 ^ 56 - 0xF0000000000000, a < team1.spadSize ∧ engineBufOk team1 true a = true) ∧
    (opStarted.fault = none ∧ receivingTeam (sOp opStarted) opStarted = some 3 ∧ opStarted.doneAt = 0 ∧
      copySites (sOp opStarted) (cCopy.who sCopy) 3 copyX = (zsCopy, none) ∧
      (boxesAt (sOp opStarted) (siteLocs (zsCopy.map (·.2)))).all (boxHasRoom (sOp opStarted)) = true ∧ invalidationsPending (sOp opStarted) = false ∧
      sitesWait (sOp opStarted) 9 opStarted 0 ((zsCopy.drop opStarted.prog).flatMap fun z => [z.1, z.2]) = false ∧
      copiesDone (sOp opStarted) (siteLocs (zsCopy.map (·.2))) = true) ∧
    (let o := { opCopy 0x00F0000000010000 with started := true }
     (copySites (sOp o) (cCopy.who sCopy) 3 { copyX with src := 0x00F0000000010000 }).2 = some (2, 0x00F0000000010000) ∧
       isPageAbsent (sOp o) (cCopy.who sCopy) 2 0x00F0000000010000 = false) ∧
    (let o := { opCopy 0x20000 with started := true }
     (copySites (sOp o) (cCopy.who sCopy) 3 { copyX with src := 0x20000 }).2 = some (6, 0x20000) ∧
       isPageAbsent (sOp o) (cCopy.who sCopy) 6 0x20000 = true) ∧
    (∃ t, signalObject (machine group1 { team1 with spad := [(0x44, 2)] } launch1) 0 3 (16 * copyF.bar.toNat) = some t) :=
  ⟨⟨rfl, who_of (issuesOp _).1, rfl, rfl, by decide +kernel, by decide, by decide, rfl⟩,
    ⟨rfl, by decide, by decide, by decide +kernel, by decide +kernel, by decide, by decide +kernel⟩,
    ⟨rfl, by decide +kernel, rfl, pair_of (by decide +kernel), by decide +kernel, by decide +kernel, by decide +kernel, by decide +kernel⟩,
    by decide +kernel, by decide +kernel, Option.isSome_iff_exists.mp (by decide +kernel)⟩

/-- A descriptor of eight words ahead, at 0x40 of the scratchpad. -/
def tStream : Team := { team1 with spad := [(0x4D, 8)] }
def sStr : State := machine group1 tStream launch1
def cStr : Ctx := frame group1 tStream launch1
theorem issuesStr : Issues sStr cStr := issues_machine rfl rfl rfl rfl rfl
def streamOpen : Stream := { desc := BitVec.ofNat 512 (0x00F0000000000040 + 8 * 2 ^ 104), record := 0, ready := true }
def gOpen : Group := { group1 with streams := [(2, streamOpen)] }

theorem witness_StreamsOpen : Issues sStr cStr ∧ cStr.g.sup = false ∧ acquirePending sStr cStr.gid = false ∧
    SMap.entry? cStr.g.streams 2 = none ∧ (cStr.g.readS 4).toNat % 64 = 0 ∧
    (∃ s', completeAtOnce cStr (.stream (.s 4) 2 false) sStr = .ok s' ∧
      ∃ e, readStruct cStr (.stream (.s 4) 2 false) .i (cStr.g.readS 4) 64 s' = .ok e ∧
        streamOk (BitVec.ofNat 512 (leNat e.1)) (cStr.t.fileRec ((BitVec.ofNat 512 (leNat e.1)).extractLsb' 96 6).toNat) = .ok ()) ∧
    (Issues (sG gOpen) (cG gOpen) ∧ SMap.entry? gOpen.streams 2 = some streamOpen ∧ CounterFree (cG gOpen) (.sclose 2 false)) ∧
    (streamOpen.ready = true ∧ streamOpen.fetched.length < (streamOpen.desc.extractLsb' 104 7).toNat ∧
      streamOpen.pos + streamOpen.fetched.length < streamCount streamOpen.desc ∧ ((sG gOpen).groupOps 4).all (fun e => e.2.reqs.isEmpty) = true ∧
      (streamVec (sG gOpen) ((cG gOpen).who (sG gOpen)) streamOpen 0).isSome = true) := by
  refine ⟨issuesStr, rfl, by decide, rfl, by decide, ?_, ⟨issuesG rfl rfl rfl, rfl, free1 rfl⟩, rfl, by decide +kernel, by decide +kernel, by decide, by decide +kernel⟩
  obtain ⟨s', h1, h⟩ := ex_bind (f := fun s' => readStruct cStr (.stream (.s 4) 2 false) .i (cStr.g.readS 4) 64 s' >>= fun e =>
      streamOk (BitVec.ofNat 512 (leNat e.1)) (cStr.t.fileRec ((BitVec.ofNat 512 (leNat e.1)).extractLsb' 96 6).toNat))
    (show isOk (completeAtOnce cStr (.stream (.s 4) 2 false) sStr >>= _) = true by decide +kernel)
  obtain ⟨e, h2, h⟩ := ex_bind h
  obtain ⟨⟨⟩, h3⟩ := ex_ok h
  exact ⟨s', h1, e, h2, h3⟩

/-- An object at 0x40 with two arrivals expected and one made. -/
def object1 : BitVec 128 := BitVec.ofNat 128 (1 + 2 * 2 ^ 32)
def tBar : Team := { team1 with spad := [(0x40, 1), (0x44, 2)] }
def sBar : State := machine group1 tBar launch1
def cBar : Ctx := frame group1 tBar launch1
theorem issuesBar : Issues sBar cBar := issues_machine rfl rfl rfl rfl rfl

theorem witness_Barriers : (2 = (object1.extractLsb' 32 32).toNat ∧ 1 = (object1.extractLsb' 0 32).toNat ∧ objectBad object1 = false ∧ 1 + 0 < 2 ∧ 1 + 1 = 2) ∧
    (Issues sBar cBar ∧ cBar.g.sup = false ∧ acquirePending sBar cBar.gid = false ∧ arrivalCount cBar (.int 1) = .ok 1 ∧
      objectAt cBar (cBar.g.readS 4) sBar = .ok 0x40 ∧ objectBad (cBar.t.object 0x40) = false ∧ phaseBit cBar (.int 0) = .ok false ∧
      phaseBit cBar (.int 1) = .ok true ∧ (cBar.t.object 0x40).getLsbD 64 = false ∧ cBar.g.arrived = false ∧ cBar.t.side = .solo ∧
      cBar.convoy? sBar = none ∧ CounterFree cBar (.waypt false)) ∧
    (∀ i ∈ [Instr.bara (.s 6) (.s 4) (.int 1) .team false, .barw (.s 4) (.int 0) .team false, .tbar false, .depsig false],
      ∃ s', completeAtOnce cBar i sBar = .ok s' ∧ ∀ sc, ∃ s'', release cBar false sc s' = .ok s'') ∧
    (∀ e ∈ sBar.teamGroups cBar.g.team, e.2.phase = .ended ∨ cBar.g.tbars ≤ e.2.tbars) ∧
    (let t := { sBar with groups := [(4, { group1 with tbars := 1 }), (5, { group1 with slot := 1 })] }
     ∃ e ∈ t.teamGroups 3, e.2.phase ≠ .ended ∧ e.2.tbars < 1) := by
  refine ⟨by decide, ⟨issuesBar, rfl, by decide, rfl, rfl, by decide, rfl, rfl, by decide, rfl, rfl, by decide, free1 rfl⟩, ?_, by decide, by decide⟩
  intro i hi
  refine ⟨okOr (completeAtOnce cBar i sBar) sBar, ?_⟩
  have key : ∀ i ∈ [Instr.bara (.s 6) (.s 4) (.int 1) .team false, .barw (.s 4) (.int 0) .team false, .tbar false, .depsig false],
      isOk (completeAtOnce cBar i sBar) = true ∧ [Scope.none, .team, .reticle, .device, .system].all
        (fun sc => isOk (release cBar false sc (okOr (completeAtOnce cBar i sBar) sBar))) = true := by decide +kernel
  obtain ⟨h1, h2⟩ := key i hi
  refine ⟨eq_ok _ h1, fun sc => ex_ok ?_⟩
  simp only [List.all_cons, List.all_nil, Bool.and_true, Bool.and_eq_true] at h2
  cases sc <;> tauto

theorem witness_Collectives_slot : (let g := { group1 with slot := 1 }; Issues (sG g) (cG g) ∧ g.sup = false ∧ g.slot ≠ 0) ∧ Issues s1 c1 ∧ c1.g.slot = 0 ∧
    acquirePending s1 c1.gid = false ∧ (c1.g.readS 4).toNat % 64 = 0 ∧ CounterFree c1 (.coll (.s 4) false) :=
  ⟨⟨issuesG rfl rfl rfl, rfl, by decide⟩, issues1, rfl, by decide, by decide, free1 rfl⟩

/-- A group that has arrived at its team's barrier. -/
def gArr : Group := { group1 with tbars := 1, waypts := 1, arrived := true }

/-- The two sides of a convoy at a waypoint: taken already, and about to be. -/
def sWay (n : Nat) : State :=
  { sG gArr with
    teams := [(3, { team1 with side := .lead }), (7, { team1 with side := .escort, place := 1 })],
    groups := [(4, gArr), (8, { gArr with team := 7 })], convoys := [{ lead := 3, escort := 7, wayNo := n }] }
def cWay : Ctx := frame gArr { team1 with side := .lead } launch1
theorem issuesWay (n : Nat) : Issues (sWay n) cWay := by
  refine ⟨?_, rfl⟩
  have hc : codeAt reg1 0 = some (BitVec.ofNat 64 hdr1.pack) := by decide
  have hd : decodeHeader (BitVec.ofNat 64 hdr1.pack) = some hdr1 := by decide
  simp [State.ctx?, sWay, cWay, sG, gArr, group1, machine, frame, State.group?, State.team?, State.launch?, State.region?, SMap.entry?, launch1, team1, hc, hd]

theorem witness_Barriers_arrived : (Issues (sG gArr) (cG gArr) ∧ (cG gArr).g.arrived = true ∧ acquirePending (sG gArr) 4 = false ∧
    ∃ s', completeAtOnce (cG gArr) (.tbar false) (sG gArr) = .ok s' ∧ ∀ e ∈ s'.teamGroups 3, e.2.phase = .ended ∨ gArr.tbars ≤ e.2.tbars) ∧
    (∀ n ≤ 1, Issues (sWay n) cWay ∧ acquirePending (sWay n) 4 = false ∧ ∃ s', completeAtOnce cWay (.waypt false) (sWay n) = .ok s' ∧
      ∃ v, cWay.convoy? s' = some v ∧ v.wayNo = n ∧
        ∀ e ∈ s'.teamGroups v.lead ++ s'.teamGroups v.escort, (e.2.phase = .ended ∨ cWay.g.waypts ≤ e.2.waypts) ∧ s'.pendingOps e.1 = []) ∧
    ∃ t, takeWaypoint (sWay 0) { lead := 3, escort := 7 } cWay.g.waypts = some t := by
  refine ⟨⟨issuesG rfl rfl rfl, rfl, by decide, _, eq_ok (sG gArr) (by decide +kernel), by decide +kernel⟩, fun n hn => ⟨issuesWay n, ?_, ?_⟩,
    Option.isSome_iff_exists.mp (by decide +kernel)⟩
  · have : n = 0 ∨ n = 1 := by omega
    rcases this with rfl | rfl <;> decide
  · have : n = 0 ∨ n = 1 := by omega
    rcases this with rfl | rfl
    · exact ⟨_, eq_ok (sWay 0) (by decide +kernel), { lead := 3, escort := 7, wayNo := 0 }, by decide +kernel⟩
    · exact ⟨_, eq_ok (sWay 0) (by decide +kernel), { lead := 3, escort := 7, wayNo := 1 }, by decide +kernel⟩

/-- A command at 0x40: the bytes at 0x80 summed over one team, into memory. -/
def tCmd : Team := { team1 with spad := [(0x40, 0x80), (0x46, 0xF0), (0x4A, 1), (0x50, 1)] }
def sCmd : State := { withMem (machine group1 tCmd launch1) with fab := { fab1 with waybills := [(0x2000, { home := 0 })] } }
def cCmd : Ctx := frame group1 tCmd launch1
theorem issuesCmd : Issues sCmd cCmd := issues_more (issues_machine (g := group1) (t := tCmd) (l := launch1) rfl rfl rfl rfl rfl) rfl rfl rfl rfl rfl

def iColl : Instr := .coll (.s 4) false
def readCmd : List Byte × State := okOr (readStructIf false cCmd iColl .i (cCmd.g.readS 4) 64 sCmd) ([], sCmd)
def bitsCmd : BitVec 512 := BitVec.ofNat 512 (leNat readCmd.1)
def xCmd : Command := .ofBits (bitsCmd.setWidth 320)
def sLogged : State :=
  assayLog cCmd (cCmd.sig iColl [(cCmd.g.readS 4).toNat]) ((0, BitVec.ofNat 64 readCmd.2.nextId) ::
    (List.range 8).map fun k => (k + 1, bitsCmd.extractLsb' (64 * k) 64)) readCmd.2
def heldCmd : List Nat := collHeld sLogged (cCmd.who sCmd) cCmd.l.teams xCmd cCmd.t.index

theorem witness_Collectives_issue : Issues sCmd cCmd ∧ cCmd.g.sup = false ∧ cCmd.g.slot = 0 ∧ acquirePending sCmd 4 = false ∧ cCmd.t.side = .solo ∧
    (cCmd.g.readS 4).toNat % 64 = 0 ∧ CounterFree cCmd iColl ∧ readStructIf false cCmd iColl .i (cCmd.g.readS 4) 64 sCmd = .ok readCmd ∧
    (commandOk bitsCmd cCmd.l.teams = true ∧ (apertureOf (ptrAddr xCmd.src)).kind ≠ 1 ∧ (apertureOf (ptrAddr xCmd.dst)).kind ≠ 1 ∧ xCmd.devices = 1 ∧
      xCmd.src.toNat % xCmd.size = 0 ∧ xCmd.dst.toNat % xCmd.size = 0 ∧ readCmd.2.nextId < 2 ^ 64) ∧
    rangeCheck (cCmd.who sCmd) [(.load, xCmd.src, xCmd.srcCount cCmd.l.teams * xCmd.size), (.store, xCmd.dst, xCmd.dstCount cCmd.l.teams * xCmd.size)] =
      .ok () ∧
    holdLines readCmd.2 (collHeld readCmd.2 (cCmd.who sCmd) cCmd.l.teams xCmd cCmd.t.index) ≠ none ∧
    ∃ t, issueOp cCmd { cCmd.op iColl with record := bitsCmd.setWidth 320, prog := cCmd.g.colls + 1, locs := heldCmd }
      ((holdLines sLogged heldCmd).getD sLogged) = .ok t :=
  ⟨issuesCmd, rfl, rfl, by decide, rfl, by decide, free1 rfl, eq_ok _ (by decide +kernel), by decide +kernel, ok_unit (by decide +kernel),
    by decide +kernel, ex_ok (by decide +kernel)⟩

/-- A collective of two teams, as group 0 of each has issued it. -/
def launchTwo : Launch := { launch1 with record := fetchRecord ||| BitVec.ofNat 1024 (2 ^ 64) }
def opTwo (g opc : Nat) (started : Bool) : Op :=
  { group := g, flag := none, instr := iColl, exec := 0xF, prog := 1, started := started,
    record := BitVec.ofNat 320 (0x00F0000000000080 + 0x00F0000000000090 * 2 ^ 64 + (if g = 8 then 0x100 else 0) * 2 ^ 64 + 2 ^ 128 + opc * 2 ^ 168) }
def sTwo (opc : Nat) : State :=
  { machine group1 team1 launchTwo with
    teams := [(3, team1), (7, { team1 with index := 1, place := 1, segs := [8] })],
    groups := [(4, group1), (8, { group1 with team := 7 })], ops := [(9, opTwo 4 0 false), (10, opTwo 8 opc false)] }

theorem some_bind {α β : Type} {x : Option α} {f : α → Option β} (h : (x.bind f).isSome = true) : ∃ a b, x = some a ∧ f a = some b := by
  cases x with
  | none => cases h
  | some a => exact ⟨a, _, rfl, (Option.some_get h).symm⟩

theorem witness_Collectives_run : launchTwo.teams = 2 ∧ (∀ n ∈ [0, 3], ∃ o ∈ (sTwo n).op? 10, o.started = false ∧ o.fault = none ∧
      ∃ w ∈ (sTwo n).who? o.group, w.t.launch = 1 ∧ o.prog = 1) ∧ (opTwo 4 0 true).started = true ∧
    (∃ t o, runCollective (sTwo 0) 1 1 = some t ∧ t.op? 10 = some o) ∧
    ∃ q ∈ (participants (sTwo 3) 1 1).find? (fun p => p.1 == 0), (Command.ofBits q.2.2.record).opc ≠ (Command.ofBits (opTwo 8 3 false).record).opc := by
  refine ⟨by decide +kernel, ?_, rfl, some_bind (by decide +kernel), by decide +kernel⟩
  decide +kernel

/-! ### The matrix engine -/

/-- A slot that holds 32 rows of I8; s11 is a scratchpad pointer for scales, s12 a descriptor of lines of 32 bytes at 0x40,
s14 an MLDB's control word with lines of 32 bytes. -/
def gMat : Group :=
  { group1 with sregs := [(10, 0x00F0000000000040), (11, 0x00F0000000000040), (12, 0x0000002000000040), (14, 0x200000), (20, 0x10000), (22, 0x4000000000)] }
def recMst (base : Nat) : BitVec 320 :=
  BitVec.ofNat 320 (base + 4096 * 2 ^ 64 + Fmt.i8.code * 2 ^ 104 + Fmt.i32.code * 2 ^ 109 + 3 * 2 ^ 242)
def tMat : Team := { team1 with slotTags := [(0, Slot.tag false .i8 32)], records := [(1, recMst 0x00F0000000000000), (2, recMst 0x10000)] }
def sMat : State :=
  { withMem (machine gMat tMat launch1) with fab := { fab1 with waybills := (List.range 64).map fun i => (0x2000 + i, { home := 0 }) } }
def cMat : Ctx := frame gMat tMat launch1
theorem issuesMat : Issues sMat cMat :=
  issues_more (issues_machine (g := gMat) (t := tMat) (l := launch1) rfl rfl rfl rfl rfl) rfl rfl rfl rfl rfl

def opZero : Op := { group := 4, flag := none, instr := .mzero (.int 1) false, exec := 0xF, vals := naming 2 0 0 }

theorem witness_MatrixIssues_tiles : Issues sH cH ∧ cH.g.sup = true ∧ Issues sMat cMat ∧ cMat.g.sup = false ∧ acquirePending sMat cMat.gid = false ∧
    (tileOperand cMat (.s 6) false = .ok 0 ∧ tileOperand cMat (.int 15) false = .ok (2 ^ 15)) ∧ CounterFree cMat (.mzero (.int 15) false) ∧
    vDst cMat (.v 8) (Ty.i32).is64 = true ∧ tileSpec (.int 15) = .ok 15 ∧ position cMat (.int 0) = .ok (0, 0) ∧ tilePair cMat.t 15 false = some (2 ^ 15) ∧
    CounterFree cMat (.mrd (.v 8) (.int 15) (.int 0) .i32 .rne false false) ∧ CounterFree cMat (.mwr (.int 15) (.int 0) (.v 8) .i32 false) ∧
    tileOperand cMat (.int 1) true = .ok 2 ∧ ¬ (∃ e ∈ sMat.ops, True) ∧ CounterFree cMat (.mwait (.int 1) false) ∧
    (∃ e ∈ [((9 : Nat), opZero)], (e.2.group = 4 ∨ ∃ k, e.2.twin = some (4, k)) ∧ isMatrix e.2.instr = true ∧ e.2.tileMask &&& 2 ≠ 0) :=
  ⟨issuesH, rfl, issuesMat, rfl, by decide, ⟨rfl, rfl⟩, free1 rfl, by decide, rfl, rfl, rfl, free1 rfl, free1 rfl, rfl, by decide, free1 rfl,
    _, List.mem_singleton.mpr rfl, .inl rfl, rfl, by decide⟩

/-- From the scratchpad, and from memory. -/
theorem witness_MatrixIssues_mldb : (10 : Fin 64).val % 2 = 0 ∧ sVal cMat (.s 14) = .ok 0x200000 ∧
    (∀ k ∈ [(10 : Fin 64), 20], mldbChecks cMat .i8 (mldbOf .i8 (cMat.g.readS k.val) (cMat.g.readS (k.val + 1)) 0x200000) 0x200000 sMat = .ok ()) ∧
    isSpadPtr (cMat.g.readS 10).toNat = true ∧ isSpadPtr (cMat.g.readS 20).toNat = false ∧ Fmt.i8.hasScale = false ∧ cMat.t.side = .solo ∧
    CounterFree cMat (.mldb (.s 10) (.s 14) .i8 false) ∧ CounterFree cMat (.mldb (.s 20) (.s 14) .i8 false) := by
  refine ⟨rfl, rfl, ?_, by decide, by decide, by decide, rfl, free1 rfl, free1 rfl⟩
  have key : ∀ k ∈ [(10 : Fin 64), 20],
      isOk (mldbChecks cMat .i8 (mldbOf .i8 (cMat.g.readS k.val) (cMat.g.readS (k.val + 1)) 0x200000) 0x200000 sMat) = true := by decide +kernel
  intro k hk
  obtain ⟨⟨⟩, h⟩ := ex_ok (key k hk)
  exact h

def mma1 : XForm :=
  { acc := 0, slot := 0, abase := .s 12, aoff := 0, chunks := 0, sem := .plusTimes, afmt := .i8, col := false, skip := false, accum := true,
    accf := .i32, sat := false, fb := false }
def opMldb : Op := { group := 4, flag := none, instr := .mldb (.s 10) (.s 14) .i8 false, exec := 0xF,
                     vals := [(0, 0x00F0000000000040), (1, 0), (2, 0x200000)] ++ naming 0 0 1 }

theorem witness_MatrixIssues_mma : cMat.g.exec = fullMask cMat.g.width ∧ cMat.g.exec &&& ~~~cMat.g.live = 0 ∧ cMat.g.spilledTok = 0 ∧
    cMat.g.tokens.head? = none ∧ slotLoading { sMat with ops := [(9, opMldb)] } cMat.g.team 0 = true ∧ Slot.valid (cMat.t.slotTag 0) = true ∧
    (∀ q ∈ mma1.slot.toNat :: mmaSlots cMat mma1, slotLoading sMat cMat.g.team q = false) ∧ sVal cMat mma1.abase = .ok 0x0000002000000040 ∧
    tilePair cMat.t mma1.acc.toNat (isPair mma1) = some 1 ∧
    (slotsOwn cMat.t mma1.slot.toNat (mmaSlots cMat mma1).length = true ∧ ∀ x ∈ (mmaSlots cMat mma1).zipIdx,
      Slot.valid (cMat.t.slotTag x.1) = true ∧ Slot.poisoned (cMat.t.slotTag x.1) = false ∧ Slot.format (cMat.t.slotTag x.1) = .i8 ∧
        min (slotRows .i8) (32 * (mma1.chunks.toNat + 1) - x.2 * slotRows .i8) ≤ Slot.rows (cMat.t.slotTag x.1)) ∧
    combination mma1.sem mma1.accf mma1.afmt .i8 = true ∧ Fmt.i8.isAsym = false ∧ descriptorOk 0x0000002000000040 = true ∧
    ((aOperand mma1 0x0000002000000040).offsets.all fun o => decide (o < cMat.t.spadSize) && bufferAllows cMat.t .load o) = true ∧
    overlapping sMat cMat.gid ((aOperand mma1 0x0000002000000040).offsets.map spadLoc) = false ∧ CounterFree cMat (.mma mma1) :=
  ⟨by decide, by decide, rfl, rfl, by decide +kernel, by decide +kernel, by decide +kernel, rfl, rfl, by decide +kernel, by decide, by decide, by decide,
    by decide +kernel, by decide +kernel, free1 rfl⟩

/-- MST of tile 0 through record 1, to the scratchpad, and record 2, to memory; s22 holds the pitch 64 and element 0. -/
def mstF (r : BitVec 6) : MForm := { acc with data := .int 0, addr := .s 22, recIx := r }

/-- Lines that have waybills are held where no L1 holds dirty bytes. -/
theorem holdLines_room {s : State} {locs : List Nat} (hl : s.fab.l1 = []) (h : ∀ x ∈ locs, (waybill? s.fab (lineOf (forwarded s.fab x))).isSome = true) :
    (holdLines s locs).isSome = true := by
  have key : ∀ (ns : List Nat) (u : State), (∀ n ∈ ns, (waybill? u.fab n).isSome = true) → (ns.foldlM (fun s n =>
      let (s, ok) := changeWaybill s n fun w => { w with held := true }
      if ok then some s else none) u).isSome = true := by
    intro ns
    induction ns with
    | nil => intros; rfl
    | cons n ns ih =>
      intro u hu
      have hn := hu n (by simp)
      have hc : changeWaybill u n (fun w => { w with held := true }) = (setWaybill u n { waybill u n with held := true }, true) := by
        simp [changeWaybill, makeRoom, hn]
      simp only [List.foldlM_cons, hc, if_true]
      refine ih _ fun m hm => ?_
      simp only [setWaybill, Waybill.idle, Bool.not_true, Bool.and_false, Bool.false_and, State.setFab, waybill?, Bool.false_eq_true, if_false]
      by_cases e : m = n
      · simp [e, SMap.entry?_put_self]
      · rw [SMap.entry?_put_other _ _ e]; exact hu m (by simp [hm])
  have hr : recallReady s (locs.map fun p => lineOf (forwarded s.fab p)).dedup = true := by simp [recallReady, hl]
  have hd : recallDirty s (locs.map fun p => lineOf (forwarded s.fab p)).dedup = s := by simp [recallDirty, hl]
  simp only [holdLines, hr, hd, Bool.not_true, Bool.false_eq_true, if_false]
  refine key _ s fun n hn => ?_
  obtain ⟨x, hx, rfl⟩ := List.mem_map.mp (List.mem_dedup.mp hn)
  exact h x hx

theorem witness_MatrixIssues_mst : ∀ r ∈ [(1 : BitVec 6), 2],
    tileSpec (mstF r).data = .ok 0 ∧ sVal cMat (mstF r).addr = .ok 0x4000000000 ∧ tilePair cMat.t 0 ((mstF r).size == .b8) = some 1 ∧
    recordChecks .store (cMat.t.fileRec r.toNat) = .ok () ∧ (Rec.ofBits r.toNat (cMat.t.fileRec r.toNat)).reg = .i32 ∧
    64 ≤ (0x4000000000 : Word).toNat / 2 ^ 32 ∧ wholeBlocks (mstPlan (mstF r) (cMat.t.fileRec r.toNat) 0x4000000000) = true ∧
    ((mstPlan (mstF r) (cMat.t.fileRec r.toNat) 0x4000000000).elems.all fun e =>
      let q := Rec.ofBits r.toNat (cMat.t.fileRec r.toNat)
      decide (0 ≤ q.elemBit e.n) && decide (q.elemBit e.n + q.stored.bits ≤ 8 * (q.extent : Int))) = true ∧
    ∃ locs, checkAccess sMat (cMat.who sMat) .store false (mstPlan (mstF r) (cMat.t.fileRec r.toNat) 0x4000000000).pieces = .ok locs ∧
      awaitCopies locs sMat = .ok () ∧ ∃ s', orderWaits cMat (MForm.form (mstF r) true) locs true sMat = .ok s' ∧
        (globalLocs locs).isEmpty = (r == 1) ∧ noOverlap cMat locs true s' = .ok () ∧ (holdLines s' (globalLocs locs)).isSome = true ∧
        s'.nextId < 2 ^ 64 ∧ ∃ t, issueOp cMat { cMat.op (.mst (mstF r)) with locs := globalLocs locs } s' = .ok t := by
  intro r hr
  have key : ∀ r ∈ [(1 : BitVec 6), 2],
      tilePair cMat.t 0 ((mstF r).size == .b8) = some 1 ∧
      isOk (recordChecks .store (cMat.t.fileRec r.toNat)) = true ∧ (Rec.ofBits r.toNat (cMat.t.fileRec r.toNat)).reg = .i32 ∧
      64 ≤ (0x4000000000 : Word).toNat / 2 ^ 32 ∧ wholeBlocks (mstPlan (mstF r) (cMat.t.fileRec r.toNat) 0x4000000000) = true ∧
      ((mstPlan (mstF r) (cMat.t.fileRec r.toNat) 0x4000000000).elems.all fun e =>
        let q := Rec.ofBits r.toNat (cMat.t.fileRec r.toNat)
        decide (0 ≤ q.elemBit e.n) && decide (q.elemBit e.n + q.stored.bits ≤ 8 * (q.extent : Int))) = true ∧
      isOk (checkAccess sMat (cMat.who sMat) .store false (mstPlan (mstF r) (cMat.t.fileRec r.toNat) 0x4000000000).pieces >>= fun locs =>
        awaitCopies locs sMat >>= fun _ => orderWaits cMat (MForm.form (mstF r) true) locs true sMat >>= fun s' =>
        guardOp ((globalLocs locs).isEmpty == (r == 1)) >>= fun _ => noOverlap cMat locs true s' >>= fun _ =>
        guardOp (s'.fab.l1.isEmpty && (globalLocs locs).all fun x => (waybill? s'.fab (lineOf (forwarded s'.fab x))).isSome) >>= fun _ => guardOp (decide (s'.nextId < 2 ^ 64)) >>= fun _ =>
          issueOp cMat { cMat.op (.mst (mstF r)) with locs := globalLocs locs } s') = true := by decide +kernel
  obtain ⟨h1, h2, h3, h4, h5, h6, h⟩ := key r hr
  obtain ⟨locs, h7, h⟩ := ex_bind h
  obtain ⟨⟨⟩, h8, h⟩ := ex_bind h
  obtain ⟨s', h9, h⟩ := ex_bind h
  obtain ⟨⟨⟩, h10, h⟩ := ex_bind h
  obtain ⟨⟨⟩, h11, h⟩ := ex_bind h
  obtain ⟨⟨⟩, h12, h⟩ := ex_bind h
  obtain ⟨⟨⟩, h13, h⟩ := ex_bind h
  exact ⟨rfl, rfl, h1, ok_unit h2, h3, h4, h5, h6, locs, h7, h8, s', h9, eq_of_beq (guard_ok (by rw [h10]; rfl)), h11,
    (by obtain ⟨a, b⟩ := Bool.and_eq_true_iff.mp (guard_ok (show isOk (guardOp _) = true by rw [h12]; rfl))
        exact holdLines_room (List.isEmpty_iff.mp a) fun x hx => List.all_eq_true.mp b x hx), of_decide_eq_true (guard_ok (by rw [h13]; rfl)), ex_ok h⟩

/-- A record of policy 1, so that MST judges its values at issue: nothing earlier names the tile. -/
theorem witness_MatrixIssues_mst_policy : let r := recMst 0x00F0000000000000 ||| BitVec.ofNat 320 (2 ^ 206)
    (Rec.ofBits 1 r).policy = 1 ∧ earlierNaming sMat cMat.g.team sMat.nextId { cMat.op (.mst (mstF 1)) with vals := naming 1 0 0 } = false ∧
    ∃ st, storeData (cMat.who sMat) (mstPlan (mstF 1) r 0x4000000000) (fun l => cMat.t.tileVal 0 false (l / 64) (l % 64)) = .ok st :=
  ⟨by decide +kernel, by decide, ex_ok (by decide +kernel)⟩

/-- One operation of each kind in its turn. -/
def opMx (i : Instr) (vals : List (Nat × Word)) : Op := { group := 4, flag := none, instr := i, exec := 0xF, vals }
def sMx (o : Op) : State := { sMat with ops := [(9, o)] }

theorem witness_MatrixCompletes_tiles : ∀ o ∈ [opMx (.mzero (.int 1) false) (naming 2 0 0),
      opMx (.mrd (.v 8) (.int 15) (.int 0) .i32 .rne false false) (naming (2 ^ 15) 0 0 ++ [(0, 15), (1, 31), (2, 60)]),
      opMx (.mwr (.int 15) (.int 0) (.v 8) .i32 false) (naming (2 ^ 15) 0 0 ++ [(0, 15), (1, 31), (2, 60)])],
    (sMx o).op? 9 = some o ∧ (sMx o).who? 4 = some (cMat.who (sMx o)) ∧ matrixReady (sMx o) 9 o = true ∧ destFree (sMx o) 9 o = true := by
  intro o ho
  refine ⟨rfl, who_of (issues_more (t := sMx o) issuesMat rfl rfl rfl rfl rfl).1, ?_⟩
  revert o
  decide +kernel

def opMst : Op := { opMx (.mst (mstF 1)) (naming 1 0 0 ++ [(0, 0x4000000000), (1, 0)]) with record := recMst 0x00F0000000000000 }
/-- An operation with no byte still to write. -/
theorem witness_MatrixCompletes_mst : (sMx opMst).op? 9 = some opMst ∧ matrixReady (sMx opMst) 9 opMst = true ∧
    writeBackReady (sMx opMst) 0 = true ∧ (∃ ws st, mstWrites (cMat.who (sMx opMst)) opMst (mstF 1) = .ok (ws, st) ∧
      sitesWait (sMx opMst) 9 opMst 0 (ws.map fun e => e.2.1) = false ∧ copiesDone (sMx opMst) (linesOf ws) = true) := by
  obtain ⟨⟨ws, st⟩, h⟩ := ex_ok (show isOk (mstWrites (cMat.who (sMx opMst)) opMst (mstF 1)) = true by decide +kernel)
  refine ⟨rfl, by decide +kernel, by decide +kernel, ws, st, h, ?_⟩
  have hw : ws = [] := by
    unfold mstWrites at h
    dsimp only at h
    split at h
    · cases h
    · simp [opMst, opMx, Op.unwritten] at h
      exact h.1
  simp [hw, sitesWait, siteLocs, blockedFor, linesOf, copiesDone, cowPages, show (sMx opMst).snaps = [] from rfl]

/-- A load of slots from the scratchpad; one from an absent page; one from past the share. -/
def opLoad (src : Word) : Op := { opMldb with vals := [(0, src), (1, 0), (2, 0x200000)] ++ naming 0 0 1 }

theorem witness_MatrixCompletes_mldb : (sMx opMldb).op? 9 = some opMldb ∧ matrixReady (sMx opMldb) 9 opMldb = true ∧
    mldbReady (sMx opMldb) 9 opMldb (cMat.who (sMx opMldb)) (opMldb.mldb .i8) = true ∧
    (∃ sites, mldbSites (sMx opMldb) (cMat.who (sMx opMldb)) (opMldb.mldb .i8) = .ok sites ∧ sitesWait (sMx opMldb) 9 opMldb 0 sites = false ∧
      (opMldb.mldb .i8).badScale (engineRead (writeBack (sMx opMldb) 0) 0 4 sites).1 = none) ∧
    (mldbOf .a8g32 0x00F0000000000040 0x00F0000000000040 0x200000).badScale (List.replicate 2304 { val := 0xFF }) = some 0 ∧
    (let s := sMx (opLoad 0x20000)
     matrixReady s 9 (opLoad 0x20000) = true ∧ mldbReady s 9 (opLoad 0x20000) (cMat.who s) ((opLoad 0x20000).mldb .i8) = true ∧
       ∃ e, mldbSites s (cMat.who s) ((opLoad 0x20000).mldb .i8) = .error e ∧ isPageAbsent s (cMat.who s) e.1 e.2 = true) ∧
    (let s := sMx (opLoad 0x00F0000000010000)
     ∃ e, mldbSites s (cMat.who s) ((opLoad 0x00F0000000010000).mldb .i8) = .error e ∧ isPageAbsent s (cMat.who s) e.1 e.2 = false) := by
  have failed {α β : Type} {x : Except α β} {p : α → Bool} {b : Bool} (h : (match x with | .error e => p e == b | .ok _ => false) = true) :
      ∃ e, x = .error e ∧ p e = b := by
    cases x with
    | error e => exact ⟨e, rfl, eq_of_beq h⟩
    | ok _ => cases h
  have key : isOk (mldbSites (sMx opMldb) (cMat.who (sMx opMldb)) (opMldb.mldb .i8) >>= fun sites =>
      if !sitesWait (sMx opMldb) 9 opMldb 0 sites && ((opMldb.mldb .i8).badScale (engineRead (writeBack (sMx opMldb) 0) 0 4 sites).1).isNone
      then .ok () else .error (0, 0)) = true := by decide +kernel
  obtain ⟨sites, h, h'⟩ := ex_bind key
  refine ⟨rfl, by decide +kernel, by decide +kernel, ⟨sites, h, ?_⟩, by decide +kernel, ⟨by decide +kernel, by decide +kernel,
    failed (by decide +kernel)⟩, failed (by decide +kernel)⟩
  split at h'
  · rename_i h2
    simpa using h2
  · cases h'

def opMma : Op := opMx (.mma mma1) ((0, 0x0000002000000040) :: naming 1 0 1)

/-- An MMA of two chunks whose A operand is poisoned from row 0, or from row 32 of K; its lines are 64 bytes apart. -/
def mma2 : XForm := { mma1 with chunks := 1 }
def opMma2 : Op := opMx (.mma mma2) ((0, 0x0000004000000040) :: naming 1 0 1)
def tPoison (sector : Nat) : Team := { tMat with spadPoison := [(sector, 7)], slotTags := [(0, Slot.tag false .i8 64)] }

theorem witness_MatrixCompletes_mma : (sMx opMma).op? 9 = some opMma ∧ mmaReady (sMx opMma) 9 opMma 0 = true ∧
    (mmaData (sMx opMma) tMat opMma mma1).fault.isSome = false ∧
    (mmaData (sMx opMma2) (tPoison 2) opMma2 mma2).fault.map (·.1) = some 0 ∧
    (mmaData (sMx opMma2) (tPoison 3) opMma2 mma2).fault.map (·.1) = some 32 := by decide +kernel

/-! ### Child grids and mailboxes -/

/-- A child's record at 0x40 of the scratchpad: its image at 0x100, its completion record at 0x200, eight lanes of 8, a ring of 24. -/
def childRecord : Nat := 0x100 + 7 * 2 ^ 128 + 3 * 2 ^ 152 + 0x200 * 2 ^ 448
def tChild : Team := { team1 with spad := cellsAt 0x40 128 childRecord }
def gChild : Group := { group1 with sregs := [(4, 0x00F0000000000040), (5, 0x00F0000000000041)] }
def lChild : Launch := { launch1 with origin := .queue }
def sChild : State := machine gChild tChild lChild
def cChild : Ctx := frame gChild tChild lChild
theorem issuesChild : Issues sChild cChild := issues_machine rfl rfl rfl rfl rfl

/-- A launch that waits with the record it has read. -/
def gWaits : Group := { gChild with launchRec := some (BitVec.ofNat 1024 childRecord) }
def iLaunch : Instr := .launch (.s 6) (.s 4) false

theorem witness_LaunchesMade : (let g := { group1 with slot := 1 }; Issues (sG g) (cG g) ∧ g.slot ≠ 0) ∧
    (let l := { launch1 with depth := 10 }; Issues (machine group1 team1 l) (frame group1 team1 l) ∧ l.depth = 10) ∧
    (Issues sChild cChild ∧ cChild.g.sup = false ∧ acquirePending sChild cChild.gid = false ∧ cChild.g.slot = 0 ∧ cChild.l.depth ≠ 10 ∧
      (cChild.g.readS 4).toNat % 64 = 0 ∧ (cChild.g.readS 5).toNat % 64 ≠ 0 ∧ cChild.t.side = .solo ∧ cChild.l.prot = false) ∧
    (∃ s', completeAtOnce cChild iLaunch sChild = .ok s' ∧ ∃ s'', release cChild false .device s' = .ok s'' ∧ cChild.g.launchRec = none ∧
      ∃ e, readStructIf false cChild iLaunch .i (cChild.g.readS 4) 128 s'' = .ok e ∧
        launchRecordOk false (recordOf e.1) = true ∧ (e.2.launch? (e.2.root cChild.lid)).isSome = true ∧ childrenAlive e.2 < 4096) ∧
    gWaits.launchRec = some (BitVec.ofNat 1024 childRecord) ∧
    ∃ s : State, s.launches = List.replicate 4096 (1, launch1) ∧ 4096 ≤ childrenAlive s := by
  refine ⟨⟨issuesG rfl rfl rfl, by decide⟩, ⟨issues_machine rfl rfl rfl rfl rfl, rfl⟩, ⟨issuesChild, rfl, by decide, rfl, by decide, by decide, by decide, rfl, rfl⟩,
    ?_, rfl, { State.reset with launches := List.replicate 4096 (1, launch1) }, rfl, ?_⟩
  · obtain ⟨s', h1, h⟩ := ex_bind (f := fun s' => release cChild false .device s' >>= fun s'' =>
        readStructIf false cChild iLaunch .i (cChild.g.readS 4) 128 s'' >>= fun e =>
          guardOp (launchRecordOk false (recordOf e.1) && ((e.2.launch? (e.2.root cChild.lid)).isSome && decide (childrenAlive e.2 < 4096))))
      (show isOk (completeAtOnce cChild iLaunch sChild >>= _) = true by decide +kernel)
    obtain ⟨s'', h2, h⟩ := ex_bind h
    obtain ⟨e, h3, h⟩ := ex_bind h
    obtain ⟨h4, h⟩ := Bool.and_eq_true_iff.mp (guard_ok h)
    obtain ⟨h5, h⟩ := Bool.and_eq_true_iff.mp h
    exact ⟨s', h1, s'', h2, rfl, e, h3, h4, h5, of_decide_eq_true h⟩
  · have h : ∀ n, childrenAlive { State.reset with launches := List.replicate n (1, launch1) } = n := fun n => by
      simp [childrenAlive, launch1]
    exact (h 4096).ge

/-- s10 names the line of virtual page 1 and s11 a handler record at 0x40 of the scratchpad, whose image is that of warm
slot 0. -/
def handlerRecord : Nat := 0x100 + 7 * 2 ^ 128 + 2 ^ 148 + 3 * 2 ^ 152
def gBox2 : Group := { group1 with sregs := [(10, 0x10000), (11, 0x00F0000000000040)] }
def tBox2 : Team := { team1 with spad := cellsAt 0x40 128 handlerRecord }
def warm1 : WarmSlot := { ready := true, pointer := 0x100, region := some 2 }
def sBind (bs : SMap Mailbox) : State := { withMem (machine gBox2 tBox2 launch1) with boxes := bs, warm := [(0, warm1)] }
def cBind : Ctx := frame gBox2 tBox2 launch1
theorem issuesBind (bs : SMap Mailbox) : Issues (sBind bs) cBind :=
  issues_more (t := sBind bs) (issues_machine (g := gBox2) (t := tBox2) (l := launch1) rfl rfl rfl rfl rfl) rfl rfl rfl rfl rfl

/-- No mailbox bound, and one bound at the line. -/
theorem witness_MailboxesServe_line : ∀ bs ∈ [[], [(7, box1)]], Issues (sBind bs) cBind ∧ acquirePending (sBind bs) cBind.gid = false ∧
    cBind.g.sup = false ∧ cBind.t.side = .solo ∧ cBind.l.prot = false ∧ (10 : Fin 64).val % 2 = 0 ∧ (cBind.g.readS 10).toNat % 128 = 0 ∧
    (apertureOf (ptrAddr (cBind.g.readS 10))).kind = 2 ∧
    ((cBind.who (sBind bs)).leafOf (sBind bs) .load (cBind.g.readS 10).toNat).all (fun f => !Leaf.biased (sBind bs).dev f) = true ∧
    (∃ locs, checkAccess (sBind bs) (cBind.who (sBind bs)) .load false [{ lane := 0, ptr := cBind.g.readS 10, len := 128 }] = .ok locs ∧
      ((locs.head?).map (·.loc)).getD 0 = 0x100000) ∧
    boundBox (sBind bs) cBind.l.ctx 0x100000 = bs.head? := by
  intro bs hb
  have key : ∀ bs ∈ [[], [(7, box1)]], acquirePending (sBind bs) cBind.gid = false ∧
      ((cBind.who (sBind bs)).leafOf (sBind bs) .load (cBind.g.readS 10).toNat).all (fun f => !Leaf.biased (sBind bs).dev f) = true ∧
      isOk (checkAccess (sBind bs) (cBind.who (sBind bs)) .load false [{ lane := 0, ptr := cBind.g.readS 10, len := 128 }] >>= fun locs =>
        guardOp (((locs.head?).map (·.loc)).getD 0 == 0x100000)) = true ∧ boundBox (sBind bs) cBind.l.ctx 0x100000 = bs.head? := by decide +kernel
  obtain ⟨h1, h2, h3, h4⟩ := key bs hb
  obtain ⟨locs, h5, h3⟩ := ex_bind h3
  exact ⟨issuesBind bs, h1, rfl, rfl, rfl, rfl, by decide, by decide, h2, ⟨locs, h5, eq_of_beq (guard_ok h3)⟩, h4⟩

theorem witness_MailboxesServe_bind : (cBind.g.readS 11).toNat % 64 = 0 ∧
    (∃ e, readStructIf false cBind (.mboxBind (.s 6) (.s 10) 0) .i (cBind.g.readS 11) 128 (sBind []) = .ok e ∧
      launchRecordOk true (recordOf e.1) = true) ∧
    freeNumbers (sBind []) 0 ≠ [] ∧ (∃ n, (freeNumbers (sBind []) 0)[Config.freeChoice 0 % (freeNumbers (sBind []) 0).length]? = some n) ∧
    0 ∈ reg1.cores := by
  have hf : freeNumbers (sBind []) 0 ≠ [] := by
    have : 0 ∈ freeNumbers (sBind []) 0 := by simp [freeNumbers, sBind, withMem, machine]
    exact List.ne_nil_of_mem this
  refine ⟨by decide, ?_, hf, ⟨_, List.getElem?_eq_getElem (Nat.mod_lt _ (List.length_pos_of_ne_nil hf))⟩, by decide⟩
  obtain ⟨e, h1, h⟩ := ex_bind (f := fun e => guardOp (launchRecordOk true (recordOf e.1)))
    (show isOk (readStructIf false cBind (.mboxBind (.s 6) (.s 10) 0) .i (cBind.g.readS 11) 128 (sBind []) >>= _) = true by decide +kernel)
  exact ⟨e, h1, guard_ok h⟩


def boxW : Mailbox := { box1 with handler := BitVec.ofNat 1024 handlerRecord, home := some 2 }

/-- The handler's image is warm on a core that could hold its team, whatever its defects. -/
theorem witness_MailboxesServe_warm : warmRegion (sBind []) 0 (handlerLaunchOf 0 boxW) = some 2 := by
  have hn : (handlerLaunchOf 0 boxW).need = ⟨8, [128], 0, 0, 0⟩ := by decide +kernel
  have hw : (handlerLaunchOf 0 boxW).warmHint = some 0 := by decide +kernel
  have hi : (handlerLaunchOf 0 boxW).image = 0x100 := by decide +kernel
  have hl : ∀ c, 176 ≤ liveRows (sBind []).dev 0 c := fun c => by unfold liveRows; omega
  have hc : couldHold (sBind []) 0 ⟨8, [128], 0, 0, 0⟩ = true := by
    simp [couldHold, fitsWith, findSegs, findSeg, freeRows, rowsOf, List.range, List.range.loop, hl]
  have h0 : SMap.entry? (sBind []).warm 0 = some warm1 := rfl
  have hr : (sBind []).region? 2 = some reg1 := rfl
  have hk : reg1.cores = [0] := rfl
  have hb : boundTo (handlerLaunchOf 0 boxW) 2 = true := rfl
  have hp : placeLost (sBind []).dev 0 = false := rfl
  simp [warmRegion, hn, hw, hi, hr, hk, h0, warm1, hc, hb, hp]

/-- A firing at the count's limit, a handler due for a bound mailbox, and for one unbound with its last. -/
theorem witness_MailboxesServe_fire : (let x := { box1 with total := 65534 }; SMap.entry? (sBind [(7, x)]).boxes 7 = some x ∧ x.bound = true ∧ x.total - x.launched < 65535) ∧
    (let x := { box1 with total := 2 }; (sBind [(7, x)]).dev.stage = 9 ∧ x.launched ≠ x.total ∧ (x.bound = true ∨ x.launched + 1 ≠ x.total)) ∧
    (let x := { box1 with total := 1, bound := false }; x.launched ≠ x.total ∧ x.bound = false ∧ x.launched + 1 = x.total) :=
  ⟨⟨rfl, rfl, by decide⟩, ⟨rfl, by decide, .inl rfl⟩, by decide, rfl, rfl⟩

/-! ### Messages -/

/-- Port 0 binds queue 1 of slot 0 on core 0 (the group itself); it holds a credit. -/
def flit1 : Flit := { hdr := 0, payload := 7 }
def gPort (n : Nat) (req : Bool) : Group := { group1 with tx := [(0, { bind := 1, credits := [(17, n)], request := req })], rx := [(0, flit1)] }

/-- What the names leave open of a core is whether a defect disables it. -/
theorem witness_MessagesMove (h : Config.disabledCore 0 0 = false) :
    (let c := cG (gPort 1 false)
     let p := c.g.port 0
     Port.kind p.bind = 0 ∧ Port.release p.bind = false ∧ usable (sG (gPort 1 false)).dev (Port.place p.bind) = true ∧
       receiver (sG (gPort 1 false)) c (Port.place p.bind) (Port.slot p.bind) = some 4 ∧ 0 < SMap.get 0 p.credits (4 * 4 + Port.queue p.bind)) ∧
    Port.kind (c1.g.port 0).bind = 3 ∧
    (let s := { s1 with flits := [(9, 4, 1, flit1), (11, 4, 1, { flit1 with src := 16 })] }
     SMap.entry? s.flits 9 = some (4, 1, flit1) ∧ SMap.entry? s.flits 11 = some (4, 1, { flit1 with src := 16 }) ∧ s.group? 4 = some group1 ∧
       group1.phase ≠ .ended ∧ ∀ f ∈ [(9, flit1), (11, { flit1 with src := 16 })],
         ∀ e ∈ s.flits, e.1 < f.1 → e.2.1 = 4 → e.2.2.1 = 1 → e.2.2.2.src ≠ f.2.src) ∧
    (let s := { sG { group1 with phase := .ended } with flits := [(9, 4, 1, flit1)] }; s.group? 4 = some { group1 with phase := .ended }) ∧
    (let g := gPort 0 true
     (sG g).group? 4 = some g ∧ g.rx.find? (fun e => e.1 = 0) = some (0, flit1) ∧ flit1.tag = none ∧ flit1.hdr.getLsbD 16 = false ∧ team1.side = .solo) ∧
    (∀ n ∈ [0, 3], let g := gPort n true
     (sG g).ctx? 4 = some (cG g) ∧ (g.port 0).request = true ∧ Port.kind (g.port 0).bind = 0 ∧ receiver (sG g) (cG g) 0 0 = some 4 ∧
       SMap.get 0 (g.port 0).credits 17 < 4 ∧ 0 < freeSlots (sG g) 4 1 ∧ oldestAsk (sG g) 17 (g.port 0).asked 16 = true ∧
       SMap.set 0 (g.port 0).credits 17 (n + 1) ≠ (g.port 0).credits) := by
  refine ⟨⟨by decide, by decide, ?_, by decide, by decide⟩, by decide, ⟨rfl, rfl, rfl, by decide, by decide⟩, rfl, ⟨rfl, by decide, rfl, by decide, rfl⟩,
    fun n hn => ⟨(issuesG rfl rfl rfl).1, rfl, ?_⟩⟩
  · have : Port.place ((cG (gPort 1 false)).g.port 0).bind = 0 := by decide
    simp [this, usable, sG, machine, disabledCores]
    exact fun h' => absurd (List.mem_of_mem_take h') (by simp [h])
  · revert n
    decide
/-! ### Clauses and the porter -/

def gAt (k : Nat) : Group := { group1 with phase := .boundary, idx := k }
/-- A fault held for a flag, and a group that the porter has stopped in a restore's copy. -/
def gHeld : Group := { gAt 0 with heldFaults := [({ cause := Cause.pageFault }, some 0)], flags := [(0, 1)] }
def gCopying : Group := { group1 with phase := .waiting, copying := true, base := 120, porterTrap := some { cause := Cause.porterFault } }

theorem witness_ClausesStart :
    (∀ g ∈ [gAt 0, gAt 1, gHeld, { gAt 0 with hdr := 8 }, { gAt 0 with flags := [(11, 1)] }, { group1 with phase := .waiting }, gCopying],
      (sG g).group? 4 = some g ∧ (sG g).team? 3 = some team1 ∧ (sG g).launch? 1 = some launch1 ∧ launch1.region = some 2 ∧ (sG g).region? 2 = some reg1) ∧
    (let r := { reg1 with code := [BitVec.ofNat 64 { hdr1 with wait := 0x800 }.pack, 0x00E0000000000000] }
     let g := ({ gAt 0 with flags := [(11, 1)] }).keepWants r
     g.phase = .boundary ∧ nextHeld g = none ∧ (waitMask r g).getLsbD 11 = true ∧ g.flagCount 11 ≠ 0) ∧
    ((gHeld.keepWants reg1).phase = .boundary ∧ (nextHeld (gHeld.keepWants reg1)).isSome = true) ∧
    (∀ k ∈ [0, 1], let g := (gAt k).keepWants reg1
     launch1.status = none ∧ nextHeld g = none ∧ clauseReady reg1 g = true ∧ portBusy (sG (gAt k)) 4 0 (groupPort (sG (gAt k)) g) = false ∧
       stoppedForWaypoint (sG (gAt k)) g team1 = false ∧ (match checkClause reg1 g with | .ok _ => true | _ => false) = true) ∧
    (let g := ({ gAt 0 with hdr := 8 } : Group).keepWants reg1
     (match checkClause reg1 g with | .error _ => true | _ => false) = true ∧ clauseReady reg1 g = true) ∧
    (let g := { group1 with phase := .waiting }
     ((sG g).ctx? 4).isSome = true ∧ portBusy (sG g) 4 0 (groupPort (sG g) g) = false ∧ frameCopied g = true) ∧
    (let g := { group1 with phase := .waiting, flags := [(11, 1)] }
     let r := { reg1 with code := [BitVec.ofNat 64 { hdr1 with wait := 0x800 }.pack, 0x00E0000000000000] }
     frameCopied g = true ∧ (waitMask r g).getLsbD 11 = true ∧ g.unheld.flagCount 11 ≠ 0 ∧
       ∀ f < 12, (waitMask reg1 g).getLsbD f = false ∨ g.unheld.flagCount f = 0) ∧
    (((sG gCopying).ctx? 4).isSome = true ∧ frameCopied gCopying = false ∧ gCopying.porterTrap.isSome = true) := by
  decide +kernel
/-- A ring that is nearly full spills; a frame on its way to its backing bytes is copied; a token stack that is full gives one
up; a granule and a token come back. The stack slot's page is present. -/
def gSpill : Group := { group1 with base := 16, wlim := 0x00E0000000008000 }
def gRefill : Group := { group1 with base := 0, resLo := 8 }
def gTok (n k : Nat) : Group := { group1 with tokens := List.replicate n ifTok, spilledTok := k }
def sMove (g : Group) (k : PorterMove) (off : Nat) (f : Fabric) : State :=
  { withMem (sG g) with fab := f, porter := [{ group := 4, kind := k, off, since := 5 }] }
def moves1 : List (Group × PorterMove × Nat) :=
  [(gSpill, .spill, 0), (gSpill, .writeBack, 0), (gRefill, .refill, 0), (gTok 16 0, .tokenSpill, 0), (gTok 0 1, .tokenReadback, 0)]

theorem whoP (g : Group) (k : PorterMove) (off : Nat) (f : Fabric) (h1 : g.team = 3) (h4 : g.hdr = 0) (h5 : g.phase = .issuing) :
    (sMove g k off f).who? 4 = some ((cG g).who (sMove g k off f)) :=
  who_of (issues_more (t := sMove g k off f) (issuesG h1 h4 h5) rfl rfl rfl rfl rfl).1

/-- Locations of the move, or none where its checks fail. -/
def locsOf (s : State) (g : Group) (m : Move) : Except Trap (List Nat) :=
  porterLocs s ((cG g).who s) [if m.writes then .store else .load] (m.range g).1 (m.range g).2

def found {ε α : Type} (x : Except ε α) (p : α → Bool) : Bool := match x with | .ok a => p a | .error _ => false
theorem found_ok {ε α : Type} {x : Except ε α} {p : α → Bool} (h : found x p = true) : ∃ a, x = .ok a ∧ p a = true := by
  cases x with
  | ok a => exact ⟨a, rfl, h⟩
  | error e => cases h

/-- Every kind of move in its turn, with nothing in its way, and with a page that is absent; a refill that would read
poison. -/
theorem witness_PorterMoves_poison : (∃ p ∈ [0x110000], byteTag ({ fab1 with poison := [(0x8800, 7)] } : Fabric) 0 false p ≠ none) ∧
    (∀ p ∈ [0x110000], byteTag fab1 0 false (forwarded fab1 p) = none) ∧ Token.ofImage 3 = none := by decide +kernel

theorem witness_PorterMoves :
    (∀ x ∈ moves1, let s := sMove x.1 x.2.1 x.2.2 fab1
      let m : Move := { group := 4, kind := x.2.1, off := x.2.2, since := 5 }
      nextMove s 4 = some m ∧ s.who? 4 = some ((cG x.1).who s) ∧ Movable s x.1 m ∧ ((cG x.1).who s).fill s (Piece.bytes { lane := 0, ptr := (m.range x.1).1, len := (m.range x.1).2 }) = s ∧
        ∃ locs, locsOf s x.1 m = .ok locs ∧ (∀ p ∈ locs, p ∉ busyLocs s 4 5) ∧ coreWaits s 0 4 locs = false ∧
          cowPages s locs = [] ∧ poisonAt s.fab locs = []) ∧
    (∀ x ∈ moves1, let s := { sMove x.1 x.2.1 x.2.2 { } with mem := cellsAt 0x10000 32 (0x12001 + 0x100000 * 2 ^ 64 + 3 * 2 ^ 160 + 0x20000 * 2 ^ 192) }
      (match locsOf (((cG x.1).who s).fill s (Piece.bytes { lane := 0, ptr := (Move.range ⟨4, x.2.1, x.2.2, 5⟩ x.1).1, len := (Move.range ⟨4, x.2.1, x.2.2, 5⟩ x.1).2 }))
        x.1 ⟨4, x.2.1, x.2.2, 5⟩ with | .error _ => true | .ok _ => false) = true) ∧
    ((gTok 16 0).tokens.getLast? = some ifTok ∧ Token.ofImage ifTok.image = some ifTok) ∧
    (let s := sMove gRefill .refill 0 { fab1 with poison := [(0x8800, 7)] }
     ∃ l, locsOf s gRefill ⟨4, .refill, 0, 5⟩ = .ok l ∧ (poisonAt s.fab l).isEmpty = false) := by
  refine ⟨fun x hx => ?_, by decide +kernel, by decide +kernel, ?_⟩
  · have key : ∀ x ∈ moves1, let s := sMove x.1 x.2.1 x.2.2 fab1
        let m : Move := { group := 4, kind := x.2.1, off := x.2.2, since := 5 }
        nextMove s 4 = some m ∧ granuleAwaited s 4 m.off = false ∧ (x.2.1 = .tokenSpill → x.1.tokens ≠ []) ∧
          ((cG x.1).who s).fill s (Piece.bytes { lane := 0, ptr := (m.range x.1).1, len := (m.range x.1).2 }) = s ∧
          found (locsOf s x.1 m) (fun l => !coreWaits s 0 4 l && (cowPages s l).isEmpty && (poisonAt s.fab l).isEmpty && (busyLocs s 4 5).isEmpty) = true := by
      decide +kernel
    have hw : ∀ x ∈ moves1, x.1.team = 3 ∧ x.1.hdr = 0 ∧ x.1.phase = .issuing := by decide
    obtain ⟨h1, h2, h3, h4, h5⟩ := key x hx
    obtain ⟨w1, w2, w3⟩ := hw x hx
    obtain ⟨l, h6, h7⟩ := found_ok h5
    simp only [Bool.and_eq_true, Bool.not_eq_true', List.isEmpty_iff] at h7
    obtain ⟨⟨⟨h7, h8⟩, h9⟩, h10⟩ := h7
    exact ⟨h1, whoP _ _ _ _ w1 w2 w3, ⟨fun _ => h2, h3⟩, h4, l, h6, by simp [h10], h7, h8, h9⟩
  · obtain ⟨l, h1, h2⟩ := found_ok (p := fun l => !(poisonAt (sMove gRefill .refill 0 { fab1 with poison := [(0x8800, 7)] }).fab l).isEmpty)
      (x := locsOf (sMove gRefill .refill 0 { fab1 with poison := [(0x8800, 7)] }) gRefill ⟨4, .refill, 0, 5⟩) (by decide +kernel)
    exact ⟨l, h1, by simpa using h2⟩

/-! ### The memory hierarchy -/

def line1 : L1Line := { core := 0, line := 0x2000, data := List.replicate 128 0, valid := -1, dirty := 1 }
def sFab (f : Fabric) : State := { sMem with fab := f }

theorem witness_HierarchySteps_lines : (∀ b ∈ [none, some (List.replicate 128 (7 : Byte))], ∀ owned ∈ [false, true],
      let s := sFab { l1 := [{ line1 with owned }], inval := [(0, 0x2000, b)] }
      l1Find s.fab 0 0x2000 = some { line1 with owned } ∧ (0, 0x2000, b) ∈ s.fab.inval ∧ lineStuck s 0 0x2000 = false ∧ sentLine s.fab 0 0x2000 = b) ∧
    lineBackWaits (sFab { l1 := [line1] }) 0 0x2000 = false ∧
    (∀ p ∈ [1, 2], let w : Walk := ⟨0, 0, p, [4]⟩
      (sFab { walks := [w] }).fab.walks.find? (fun w => w.reticle == (0 : Fin 48).val) = some w) ∧
    (sMem.group? 4 = some gMem ∧ sMem.team? 3 = some team1) ∧
    walkTables sMem 0 (1 * 65536) = .found (BitVec.ofNat 64 (leafOf 0x10)) 0 ∧ (∀ leaf level, walkTables sMem 0 (2 * 65536) ≠ .found leaf level) ∧
    (∀ x ∈ dirtyBytes (sFab { l1 := [line1] }).fab 0, forwarded (sFab { l1 := [line1] }).fab x.1 ≠ 0) ∧
    (s1.dev.retctl ≠ 0 ∧ (∀ a ∈ [Array_.bank 0 0, .scratchpad 1], a ∉ s1.fab.retained ∧ a ∈ ({ retained := [a] } : Fabric).retained) ∧
      (∀ e ∈ s1.teams, e.2.place ≠ 1)) ∧ Part.link 0 ∉ s1.dev.lost := by
  have h : walkTables sMem 0 (2 * 65536) = .absent 0 := by decide +kernel
  exact ⟨by decide +kernel, by decide +kernel, by decide +kernel, ⟨rfl, rfl⟩, by decide +kernel, fun _ _ => by rw [h]; exact WalkResult.noConfusion, by decide +kernel,
    by decide, by decide⟩

/-- A count at the threshold: for a line that is pinned, one that has moved 15 times, one whose page flips or is of host
bias, and one that may move, to a core whose bank no defect kills. -/
def counted1 : Counted := { reticle := 0, line := 0x2000, count := 8, core := 0, ctx := 0, page := 1 }
def sDrover (w : Waybill) (flip : Bool) : State :=
  sFab { fab1 with drover := [counted1], waybills := [(0x2000, w)], flip := if flip then some (0, 1, true) else none }

def sBiased : State :=
  let s := sDrover { home := 0 } false
  { s with mem := cellsAt 0x10000 32 (0x12001 + 0x100000 * 2 ^ 64 + 3 * 2 ^ 160) ++ cellsAt 0x12000 8 0x14001 ++ cellsAt 0x14000 8 0x16001 ++
             cellsAt 0x16000 8 0x18001 ++ cellsAt 0x18008 8 (leafOf 0x10 + 2 ^ 57), dev := { s.dev with jibueg := true } }

theorem witness_HierarchySteps_drover (h : Config.deadBank 0 0 = false) :
    (∀ w ∈ [{ home := 0, pin := true }, { home := 0, counter := 15 }, ({ home := 0 } : Waybill)],
      let s := sDrover w false
      s.fab.drover.find? (fun e => e.reticle == (0 : Fin 48).val && e.line == 0x2000) = some counted1 ∧ (SMap.get 8 s.dev.drovthr 0).toNat ≠ 0 ∧
        (SMap.get 8 s.dev.drovthr 0).toNat ≤ counted1.count ∧ waybill s 0x2000 = w ∧ w.held = false ∧ w.inFlight = false ∧
        inFlip s (128 * 0x2000) = false ∧ pageStays s counted1 = false ∧ (makeRoom (s.setFab { s.fab with drover := [] }) 0x2000).2 = true) ∧
    inFlip (sDrover { home := 0 } true) (128 * 0x2000) = true ∧ pageStays sBiased counted1 = true ∧
    bankLive (sDrover { home := 0 } false).dev 0 = true := by
  refine ⟨by decide +kernel, by decide +kernel, by decide +kernel, ?_⟩
  simp [bankLive, sDrover, sFab, sMem, withMem, sG, machine, deadBanks]
  exact fun h' => absurd (List.mem_of_mem_take h') (by simp [h])

/-- A line 2⁶⁴ further on has the same anchor. -/
theorem anchor_far (d : Device) (n : Nat) : anchor d (n + 2 ^ 64) = anchor d n := by
  simp only [anchor, anchorIn, Nat.add_mul, Nat.add_mul_mod_self_left]

/-- A bank all of whose 32,768 waybills are pinned has no room for another line. -/
def fullFab (n : Nat) : Fabric := { waybills := List.replicate n (0x2000 + 2 ^ 64, { home := 0, pin := true }) }
theorem full_none (s : State) (n : Nat) (hn : waybillLimit ≤ n) : (makeRoom { s with fab := fullFab n } 0x2000).2 = false := by
  have hw : waybill? (fullFab n) 0x2000 = none := by
    have hz : ∀ m : SMap Waybill, (∀ e ∈ m, e.1 ≠ 0x2000) → SMap.entry? m 0x2000 = none := by
      intro m hm
      induction m with
      | nil => rfl
      | cons e m ih =>
        have ha : e.1 ≠ 0x2000 := hm e (by simp)
        simp only [SMap.entry?, ha.symm, if_false]
        exact ih fun e he => hm e (by simp [he])
    exact hz _ fun e he => by rw [List.eq_of_mem_replicate he]; decide
  have hf : (fullFab n).waybills.filter (fun e => anchor s.dev e.1 == anchor s.dev 0x2000) = (fullFab n).waybills := by
    refine List.filter_eq_self.mpr fun e he => ?_
    rw [List.eq_of_mem_replicate he, anchor_far]
    exact beq_self_eq_true _
  have hl : (fullFab n).waybills.length = n := by simp [fullFab]
  have hp : ∀ (r : Reclaim) (xs : List (Nat × Waybill)), (∀ e ∈ xs, e.2.pin = true) → xs.filter (fun e => r.applies e.2 (anchor s.dev 0x2000)) = [] := by
    intro r xs hx
    exact List.filter_eq_nil_iff.mpr fun e he => by simp [Reclaim.applies, hx e he]
  have ho : ∀ e ∈ (fullFab n).waybills.insertionSort (fun a b => a.2.since ≤ b.2.since), e.2.pin = true := by
    intro e he
    rw [List.eq_of_mem_replicate ((List.mem_insertionSort _).mp he)]
  simp only [makeRoom, hw, hf, hl, hp _ _ ho, Option.isSome_none, Nat.not_lt.mpr hn, Bool.false_or, decide_false, Bool.false_eq_true, if_false]
  rfl

theorem witness_HierarchySteps_full : (makeRoom { sFab {} with fab := fullFab 32768 } 0x2000).2 = false ∧
    ({ fullFab 32768 with drover := [counted1] } : Fabric).drover.find? (fun e => e.reticle == (0 : Fin 48).val && e.line == 0x2000) = some counted1 ∧
    counted1 ∉ ({ fullFab 32768 with drover := [counted1].erase counted1 } : Fabric).drover ∧ pageStays (sFab {}) counted1 = false :=
  ⟨full_none _ _ (Nat.le_refl _), by decide, by decide, by decide +kernel⟩

/-! ### The queues, the dispatcher -/

def sQueue (q : Queue) : State := { s1 with queues := [(3, q)] }

theorem witness_QueuesAccept_registers :
    (let q : Queue := {}; (sQueue q).queue (3 : Fin 64).val = q ∧ q.enable = false ∧ q.journal = [] ∧ q.held = []) ∧
    (let q : Queue := { enable := true }; (sQueue q).queue (3 : Fin 64).val = q ∧ q.enable = true) ∧
    ((0x80000000 : Word).getLsbD 33 = false ∧ (0x80000000 : Word).getLsbD 32 = false ∧ (0x80000000 : Word).getLsbD 31 = true) ∧
    (let q : Queue := { base := 1, enable := true }; q.baseOk = false) ∧
    (let l := { launch1 with ran := false }
     let s := { machine group1 team1 l with queues := [(3, { journal := [1] })] }
     (s.queue 3).journal = [] ++ 1 :: [] ∧ s.launch? 1 = some l ∧ l.ran = false ∧ l.status = none) ∧
    (let q : Queue := { journal := [1], held := [(5, 0, 0, 0)] }; (sQueue q).queue 3 = q ∧ q.enable = false ∧ (q.journal ≠ [] ∨ q.held ≠ [])) := by
  decide +kernel

/-- A device queue whose slot holds a record of sequence 5: the next one, the last one, an old one at the end of the
window, one beyond it, and a ring that is poisoned. -/
def slotQueue (ack : BitVec 32) : Queue := { base := 0x30000, enable := true, inDevice := true, n := 5, tail := 1, ack, cack := ack }
def sSlot (ack : BitVec 32) (f : Fabric) : State := { sQueue (slotQueue ack) with mem := cellsAt 0x3001C 4 5, fab := f }

theorem witness_QueuesAccept_slot : ([(4 : BitVec 32), 5, 0x80000004, 0x80000005].all fun a => nextQueue (sSlot a {}) == some 3 && (sSlot a {}).queue 3 == slotQueue a &&
      readSlot ((sSlot a {}).setDev { (sSlot a {}).dev with rrobin := SMap.set 0 (sSlot a {}).dev.rrobin 0 4 }) (slotQueue a) == some (BitVec.ofNat 1024 (5 * 2 ^ 224))) = true ∧ nextQueue s1 ≠ some 3 ∧
    (5 : BitVec 32) = 4 + 1 ∧ ((5 : BitVec 32) ≠ 5 + 1 ∧ ((5 : BitVec 32) - 5).toNat < 2 ^ 31) ∧
    ((5 : BitVec 32) ≠ 0x80000004 + 1 ∧ ((0x80000004 : BitVec 32) - 5).toNat < 2 ^ 31) ∧
    ((5 : BitVec 32) ≠ 0x80000005 + 1 ∧ 2 ^ 31 ≤ ((0x80000005 : BitVec 32) - 5).toNat) ∧
    readSlot (sSlot 4 { poison := [(0x1800, 1)] }) (slotQueue 4) = none ∧
    (queueLaunch 3 (slotQueue 4) (BitVec.ofNat 1024 (5 * 2 ^ 224))).bitmapPtr = 0 ∧
    (queueLaunch 3 (slotQueue 4) (BitVec.ofNat 1024 (5 * 2 ^ 224))).prot = false := by decide +kernel

/-- An image of two words at virtual 0x10400, a launch of it with one team of eight lanes, and a machine that holds no team. -/
def imageRecord : Nat := 0x10400 + 7 * 2 ^ 128 + 3 * 2 ^ 152 + 0x10200 * 2 ^ 448
def launch2 : Launch := { launch1 with record := BitVec.ofNat 1024 imageRecord, origin := .queue, region := none, tablesRead := false, dispatched := [], ran := false, table := none }
def memImage : List Host.Cell := mem1 ++ cellsAt 0x100400 80 (0x38345742 + 2 ^ 32 + 64 * 2 ^ 64 + 16 * 2 ^ 96 + hdr1.pack * 2 ^ 512 + 0x00E0000000000000 * 2 ^ 576)
def sImage (l : Launch) (rs : SMap Region) : State :=
  { withMem (machine group1 team1 l) with mem := memImage, groups := [], teams := [], regions := rs }

theorem wfImage : ctxValid (sImage launch2 []) (ctxEntry (sImage launch2 []) 0) = true ∧ Memory.wf memImage = true := by decide +kernel

def loadedReg : Region := { ctx := 0, image := 0x10400, origin := 0, rows := 1, cols := 1, map := [(0, 0)], code := code1.take 2, table := [], images := [] }

theorem range_rect : rectangle 0 1 1 = some [0] := by decide +kernel

theorem usable0 (h : Config.disabledCore 0 0 = false) {d : Device} (hd : d.defects = 0) : usable d 0 = true := by
  simp [usable, disabledCores, hd]
  exact fun h' => absurd (List.mem_of_mem_take h') (by simp [h])

theorem free0 (h : Config.disabledCore 0 0 = false) {s : State} (h1 : s.regions = []) (h2 : s.dev.lost = []) (h3 : s.dev.defects = 0) : 0 ∈ freeCores s := by
  have h' := usable0 h h3
  simp [usable] at h'
  simp [freeCores, enabledCores, heldCores, placeLost, h1, h2, h']

theorem loads (h : Config.disabledCore 0 0 = false) (s : State) (h1 : s.regions = []) (h2 : s.dev.lost = []) (h3 : s.dev.defects = 0) (ctx : BitVec 16) (p : Word) (w : Option Nat) :
    loadRegion s ctx p 0 1 1 w = loadOn s ctx p 0 1 1 w [(0, 0)] := by
  have hf := List.contains_iff_mem.mpr (free0 h h1 h2 h3)
  simp only [loadRegion, range_rect, Option.bind_some, mapCores, hf, if_true, Option.bind_eq_bind, Option.pure_def, Option.bind_some]

/-- With the dispatcher's choice the rectangle of place 0: an image that loads, one that is rejected, and no core left. -/
theorem witness_RegionsLoaded_load (h : Config.disabledCore 0 0 = false) (hc : Config.regionChoice 0 = 0) :
    ((sImage launch2 []).launch? 1 = some launch2 ∧ mayDispatch (sImage launch2 []) 1 launch2 = true ∧ launch2.region = none ∧
      warmRegion (sImage launch2 []) launch2.ctx launch2 = none ∧ ctxValid (sImage launch2 []) (ctxEntry (sImage launch2 []) launch2.ctx) = true ∧
      Config.regionChoice (sImage launch2 []).tick % 3072 = 0 ∧ launch2.status = none) ∧
    (∃ r, loadRegion (sImage launch2 []) 0 launch2.image 0 1 1 none = .loaded r) ∧
    loadRegion (sImage launch2 []) 0 0x10000 0 1 1 none = .rejected ∧
    (∃ r, loadRegion (sImage launch2 []) 0 launch2.image 0 1 1 (some 0) = .loaded r) ∧
    loadRegion { sImage launch2 [] with dev := { (sImage launch2 []).dev with lost := (List.finRange 48).map .reticle } } 0 launch2.image 0 1 1 none = .noCores := by
  refine ⟨⟨rfl, by decide +kernel, rfl, by decide +kernel, by decide +kernel, ?_, rfl⟩, ?_, ?_, ?_, ?_⟩
  · simp [sImage, withMem, machine, State.reset, hc]
  · rw [loads h _ rfl rfl rfl]
    have : (match loadOn (sImage launch2 []) 0 launch2.image 0 1 1 none [(0, 0)] with | .loaded _ => true | _ => false) = true := by decide +kernel
    revert this
    cases loadOn (sImage launch2 []) 0 launch2.image 0 1 1 none [(0, 0)] <;> simp
  · rw [loads h _ rfl rfl rfl]
    decide +kernel
  · rw [loads h _ rfl rfl rfl]
    have : (match loadOn (sImage launch2 []) 0 launch2.image 0 1 1 (some 0) [(0, 0)] with | .loaded _ => true | _ => false) = true := by decide +kernel
    revert this
    cases loadOn (sImage launch2 []) 0 launch2.image 0 1 1 (some 0) [(0, 0)] <;> simp
  · have hf : freeCores { sImage launch2 [] with dev := { (sImage launch2 []).dev with lost := (List.finRange 48).map .reticle } } = [] := by
      simp only [freeCores, List.filter_eq_nil_iff]
      intro p hp
      have hp : p < 3072 := by simp [enabledCores] at hp; exact hp.1
      have hl : placeLost { (sImage launch2 []).dev with lost := (List.finRange 48).map .reticle } p = true := by
        simp only [placeLost, List.any_map, List.any_eq_true]
        exact ⟨⟨reticleOf p, by simp only [reticleOf]; omega⟩, List.mem_finRange _, beq_self_eq_true _⟩
      simp [hl]
    simp [loadRegion, range_rect, hf, mapCores, nearest]

/-- A region that no launch uses, one in use; a warm slot with and without a region, and one being staged. -/
theorem witness_RegionsLoaded_slots :
    (let s := sImage launch2 [(2, reg1)]; s.region? 2 = some reg1 ∧ (∀ e ∈ s.launches, e.2.region ≠ some 2) ∧ reg1.warm = none) ∧
    ({ reg1 with warm := some 0, releasing := true } : Region).releasing = true ∧
    (∃ e ∈ s1.launches, e.2.region = some 2) ∧ s1.warmSlot 0 = {} ∧ ({} : WarmSlot).region = none ∧
    (let s := { s1 with warm := [(0, warm1)] }; s.warmSlot 0 = warm1 ∧ warm1.region = some 2 ∧ s.region? 2 = some reg1) ∧
    (let w : WarmSlot := { pointer := 0x10400, staging := true }
     let s := { sImage launch2 [] with warm := [(0, w)] }
     s.warmSlot 0 = w ∧ SMap.entry? s.warm 0 = some w ∧ w.staging = true ∧ w.region = none ∧ ∀ e ∈ s.regions, e.2.warm ≠ some 0) := by decide +kernel

/-- A slot that stages its image again on the region it kept. -/
def warmKept : WarmSlot := { pointer := 0x10400, staging := true, region := some 2 }
def sKept : State := { sImage launch2 [(2, loadedReg)] with warm := [(0, warmKept)] }
theorem witness_RegionsLoaded_kept (h : Config.disabledCore 0 0 = false) : SMap.entry? sKept.warm 0 = some warmKept ∧ sKept.warmSlot 0 = warmKept ∧
    sKept.region? 2 = some loadedReg ∧ keptMap sKept 2 loadedReg = some [(0, 0)] ∧
    ∃ r, loadOn sKept 0 0x10400 loadedReg.origin loadedReg.rows loadedReg.cols (some 0) [(0, 0)] = .loaded r := by
  refine ⟨rfl, rfl, rfl, ?_, ?_⟩
  · simp [keptMap, Region.cores, loadedReg, usable0 h (d := sKept.dev) rfl]
  · have : (match loadOn sKept 0 0x10400 loadedReg.origin loadedReg.rows loadedReg.cols (some 0) [(0, 0)] with | .loaded _ => true | _ => false) = true := by
      decide +kernel
    revert this
    cases loadOn sKept 0 0x10400 loadedReg.origin loadedReg.rows loadedReg.cols (some 0) [(0, 0)] <;> simp

/-- A launch whose region is loaded, in a machine that holds no team. The machine's tables are absent, a table's page is; a
team that no core could hold; dependences on a producer that failed, that has not begun, and none. -/
def lDisp (rec : Nat) (read : Bool) : Launch := { launch2 with record := BitVec.ofNat 1024 rec, region := some 2, tablesRead := read }
def sDisp (l : Launch) : State := sImage l [(2, reg1)]

theorem witness_TeamsDispatched_tables :
    (let l := lDisp imageRecord false
     let s := { sDisp l with dev := { (sDisp l).dev with ctxtab := 0 } }
     s.launch? 1 = some l ∧ mayDispatch s 1 l = true ∧ l.tablesRead = false ∧ ctxValid s (ctxEntry s l.ctx) = false) ∧
    (let l := lDisp (imageRecord + 0x20000 * 2 ^ 256) false
     (sDisp l).launch? 1 = some l ∧ mayDispatch (sDisp l) 1 l = true ∧ l.region = some 2 ∧ (sDisp l).region? 2 = some reg1 ∧
       ctxValid (sDisp l) (ctxEntry (sDisp l) l.ctx) = true ∧ readTables (sDisp l) l reg1 = none) := by decide +kernel

def lBig : Launch := lDisp (imageRecord + 1023 * 2 ^ 170) true

theorem witness_TeamsDispatched_ready :
    (mayDispatch (sDisp lBig) 1 lBig = true ∧ lBig.tablesRead = true ∧ lBig.dispatched.length ≠ lBig.teams ∧
      placeable (sDisp lBig) lBig reg1 = false) ∧
    (let l := lDisp (imageRecord + 0x10800 / 64 * 2 ^ 576) true
     snapshotHeld (sDisp l) 1 l = false ∧ readyTeam (sDisp l) l = .none ∧
       readyTeam { sDisp l with mem := memImage ++ cellsAt 0x100800 1 3 } l = .failed) ∧
    (let l := lDisp imageRecord true
     readyTeam (sDisp l) l = .team 0 ∧ l.convoy = false ∧ samples (sDisp l).dev l 0 = false ∧
       (lowestFree (stackUsed (sDisp l) l.ctx) (ctxStackSlots (ctxEntry (sDisp l) l.ctx)) l.groups).length = l.groups ∧
       (let t := { sDisp l with teams := [(3, { team1 with place := 1 })],
                                groups := (List.range 4).map fun i => (i + 10, { group1 with stackSlot := i }) }
        (lowestFree (stackUsed t l.ctx) (ctxStackSlots (ctxEntry t l.ctx)) l.groups).length < l.groups)) := by
  refine ⟨⟨by decide +kernel, rfl, by decide +kernel, ?_⟩, by decide +kernel, by decide +kernel⟩
  have hn : lBig.need = ⟨8, [128], 1047552, 0, 0⟩ := by decide +kernel
  have hc : lBig.convoy = false := rfl
  have hk : reg1.cores = [0] := rfl
  simp [placeable, hk, hn, hc, couldHold, fitsWith]

theorem coreUp0 (h : Config.disabledCore 0 0 = false) {d : Device} (hd : d.defects = 0) (hl : d.lost = []) : coreUp d 0 = true := by
  simp [coreUp, usable0 h hd, placeLost, hl]

/-- Whatever the defects of the core's rows, a team of one group of eight lanes fits an empty core; the core itself must be
one that no defect disables. -/
theorem witness_TeamsDispatched_place (h : Config.disabledCore 0 0 = false) :
    let l := lDisp imageRecord true
    placeable (sDisp l) l reg1 = true ∧ coreFor (sDisp l) l reg1 0 = some 0 ∧ fits (sDisp l) 0 l.need = some [0] := by
  have hn : (lDisp imageRecord true).need = ⟨8, [128], 0, 0, 0⟩ := by decide +kernel
  have hl : ∀ (d : Device) (c : Nat), 176 ≤ liveRows d 0 c := fun d c => by unfold liveRows; omega
  have hk : reg1.cores = [0] := rfl
  have hw : ∀ s, fitsWith s 0 [] ⟨8, [128], 0, 0, 0⟩ = some [0] := by
    intro s
    simp [fitsWith, findSegs, findSeg, freeRows, rowsOf, List.range, List.range.loop, hl]
  have ht : teamsOn (sDisp (lDisp imageRecord true)) 0 = [] := rfl
  have hf : fits (sDisp (lDisp imageRecord true)) 0 ⟨8, [128], 0, 0, 0⟩ = some [0] := by rw [fits, ht]; exact hw _
  have hu : coreUp (sDisp (lDisp imageRecord true)).dev 0 = true := coreUp0 h rfl rfl
  have hm : reg1.warm.isSome = false := rfl
  refine ⟨?_, ?_, by rw [hn]; exact hf⟩
  · simp [placeable, hk, hn, couldHold, hw, show (lDisp imageRecord true).convoy = false from rfl]
  · have hq : freeFirst (sDisp (lDisp imageRecord true)) [0] = [0] := by simp [freeFirst, ht]
    simp [coreFor, fitting, hk, hn, hf, hu, hm, choose, hq, Nat.mod_one]

theorem witness_TeamsDispatched_group : ∀ b n line, launch2.origin ≠ .mailbox b n line := fun _ _ _ h => Origin.noConfusion h

/-! ### The end of a launch, saving, recovery -/

/-- A launch whose one team has retired, from a queue and as a child, with its completion record at virtual 0x10200. -/
def lDone (o : Origin) : Launch := { lDisp imageRecord true with origin := o, dispatched := [0], retired := [0], ran := true }
def sDone (o : Origin) : State := { sDisp (lDone o) with queues := [(0, { journal := [1] })] }

theorem witness_LaunchesEnd : ((sDone .queue).launch? 1 = some (lDone .queue)) ∧
    (let l := { launch1 with requests := [(2, 1, 0, 0)] }; (machine group1 team1 l).launch? 1 = some l ∧ l.status = none) ∧
    (let l := { launch1 with requests := [(2, 1, 0, 0)], status := some 2 }; l.status ≠ none) ∧
    (let l := { launch1 with status := some 2, children := [5] }
     let s := { machine { group1 with phase := .boundary } team1 l with launches := [(1, l), (5, launch1)] }
     s.launch? 1 = some l ∧ stillRuns s 1 l = true ∧ 4 ∈ launchGroups s 1 ∧ s.launch? 5 = some launch1 ∧ launch1.status = none ∧ (5 : Nat) ≠ 1) ∧
    (∀ o ∈ [Origin.queue, .child 7 0],
      let s := { sDone o with dev := { (sDone o).dev with devrseq := (sDone o).dev.devrseq + 1 } }
      mayRetire (sDone o) 1 (lDone o) = true ∧ (sDone o).snaps.all (fun x => x.launch != 1) = true ∧ (lDone o).bitmapPtr = 0 ∧ recordPlace (lDone o) ≠ 0 ∧
        (writeRecord s (lDone o).ctx (recordPlace (lDone o)) (completionRecord (lDone o) s.dev.devrseq)).isSome = true) ∧
    mayRetire s1 1 launch1 = false := by decide +kernel

/-- A record written by the device leaves the snapshots as they are. -/
theorem witness_LaunchesEnd_snaps : ((writeRecord (sDone .queue) 0 0x10200 0).map fun t => t.snaps.isEmpty) = some true := by decide +kernel

def gBound : Group := { group1 with phase := .boundary }
def savedTeam : SavedTeam :=
  { id := 3, team := { team1 with spadSize := 0, nslots := 0, ntiles := 0 }, groups := [(4, { gBound with width := 8, ring := 128 })], ops := [] }

theorem witness_SavesAndErrors_save : ((0 : BitVec 16) ∉ s1.dev.suspended) ∧
    (let s := { sG gBound with dev := { (sG gBound).dev with suspended := [0] } }
     s.team? 3 = some team1 ∧ s.launch? 1 = some launch1 ∧ team1.side = .solo ∧ launch1.status = none ∧ launch1.rollback = false ∧
       (∀ v ∈ s.convoys, v.lead ≠ 3 ∧ v.escort ≠ 3) ∧ team1.both 3 = [3] ∧ mayStand s 3 = true ∧ launch1.ctx ∈ s.dev.suspended) ∧
    mayStand s1 3 = false := by decide +kernel

theorem witness_SavesAndErrors_restore (h : Config.disabledCore 0 0 = false) :
    let s := { sDisp launch1 with saved := [(3, savedTeam)] }
    SMap.entry? s.saved 3 = some savedTeam ∧ s.launch? savedTeam.team.launch = some launch1 ∧ s.dev.stage = 9 ∧ launch1.status = none ∧
      launch1.rollback = false ∧ launch1.ctx ∉ s.dev.suspended ∧ savedTeam.team.side = .solo ∧ restoreFit s savedTeam 0 = some [(0, 128)] ∧
      choose (freeFirst s (restoreCores s savedTeam [])) (Config.coreChoice s.tick) = some 0 ∧ launch1.requests = [] ∧
      (∀ e ∈ savedTeam.groups, e.2.imageOk 8 = true) ∧ (lDisp imageRecord true).width = 8 ∧ ({ gBound with width := 8, ring := 2048 } : Group).imageOk 8 = false ∧
      (putBack s savedTeam 0 [(0, 128)]).isSome = true ∧
      (∃ f os, putBack { s with fab := f, ops := os } savedTeam 0 [(0, 128)] = none) := by
  intro s
  have hl : ∀ (d : Device) (c : Nat), 176 ≤ liveRows d 0 c := fun d c => by unfold liveRows; omega
  have hs : findSeg (freeRows s 0 []) 1 (rowsOf 128) = some 0 := by
    simp [findSeg, freeRows, rowsOf, List.range, List.range.loop, hl]
  have hf : restoreFit s savedTeam 0 = some [(0, 128)] := by
    have ht : teamsOn s 0 = [] := rfl
    have hp : spadRetained s.fab 0 = false := rfl
    have hw : savedTeam.groups = [(4, { gBound with width := 8, ring := 128 })] := rfl
    have hn : savedTeam.need = ⟨8, [128], 0, 0, 0⟩ := rfl
    simp only [restoreFit, hw, hn, List.map_cons, List.map_nil, fits, ht]
    simp [fitsWith, findSegs, ringsFor, hs, hp, List.range, List.range.loop]
  have hu : coreUp s.dev 0 = true := coreUp0 h rfl rfl
  refine ⟨by decide +kernel, rfl, rfl, rfl, rfl, by decide +kernel, rfl, hf, ?_, rfl, by decide +kernel, by decide +kernel, by decide +kernel, by decide +kernel, { sStuck.fab with l1 := [{ core := 0, line := 0x2000, data := List.replicate 128 0, valid := 1, dirty := 1 }] }, sStuck.ops, by decide +kernel⟩
  have hr : restoreCores s savedTeam [] = [0] := by
    have hp : savedCores s savedTeam = [0] := by decide +kernel
    simp only [restoreCores, hp]
    simp [hu, hf]
  have hq : freeFirst s [0] = [0] := by
    have ht : teamsOn s 0 = [] := rfl
    simp [freeFirst, ht]
  rw [hr, hq]; simp [choose, Nat.mod_one]

/-- The last byte of stack 0 is reserved. -/
theorem witness_SavesAndErrors_errors : isBacked 0x100000 = true ∧ isReserved 0x100000 = false ∧ s1.team? 3 = some team1 ∧ 65535 < team1.spadSize ∧
    127 < team1.nslots ∧ isBacked (96 * gib - 1) = true ∧ isReserved (96 * gib - 1) = true ∧ isBacked (1536 * gib) = false ∧
    ((4 : BitVec 8).toNat < 5 ∧ (∃ n : Fin 16, partPlace (.stack 15) = partPlace (.stack n)) ∧ 5 < (6 : BitVec 8).toNat ∧
      ∀ n : Fin 16, (0xFFF : BitVec 12) ≠ partPlace (.stack n)) ∧
    (s1.group? 4 = some group1 ∧ vOk group1 false (7 : Fin 256).val = true ∧ (3 : Fin 64).val < group1.width) ∧
    ∀ b ∈ [false, true], let l := { launch1 with prot := b }
      (machine group1 team1 l).launch? 1 = some l ∧ l.status = none ∧ l.prot = b := by decide +kernel

/-- A page that a write waits for, and a store of copies that has no frame left. -/
def snapWant : Snapshot := { launch := 1, ctx := 0, page := 1, wanted := true }
def snapFull (n : Nat) : List Snapshot := snapWant :: List.replicate n { launch := 5, ctx := 0, page := 7, copied := true }

theorem snap_full (n : Nat) : (snapFull n).find? (fun x => x.page == 1 && x.wanted && !x.copied) = some snapWant ∧
    ((snapFull n).filter (·.copied)).length = n := by
  refine ⟨by simp [snapFull, snapWant], ?_⟩
  rw [snapFull, List.filter_cons, List.filter_replicate]
  simp [snapWant]

theorem snap_leaf (x : List Snapshot) : (snapshotLeaf { sMem with snaps := x } snapWant).isSome = true := by
  have h : (snapshotLeaf sMem snapWant).isSome = true := by decide +kernel
  exact h

theorem witness_SavesAndErrors_snapshots :
    (∀ n ∈ [65535, 65536], ({ sMem with snaps := snapFull n } : State).snaps.find? (fun x => x.page == 1 && x.wanted && !x.copied) = some snapWant ∧
      ((snapFull n).filter (·.copied)).length = n) ∧
    (∀ x, (snapshotLeaf { sMem with snaps := x } snapWant).isSome = true) ∧ ∀ a, forwarded sMem.fab a = a :=
  ⟨fun n _ => snap_full n, snap_leaf, fun a => by simp [forwarded, sMem, withMem, fab1]⟩

def lRoot : Launch := { launch1 with origin := .queue, children := [5] }
def lLeaf : Launch := { launch1 with origin := .child 1 0 }

/-- A launch and its child; the child alone asks for a roll-back. -/
def sTree (l x : Launch) : State := { machine group1 team1 l with launches := [(1, l), (5, x)] }

theorem witness_SavesAndErrors_rollback :
    (∀ st ∈ [none, some 0x0B, some 2], ∀ n ∈ [1, 2], let l := { lRoot with replays := n, status := st }
      let x := { lLeaf with rollback := true }
      let s := sTree l x
      s.root 5 = 1 ∧ s.root 1 = 1 ∧ s.launch? 1 = some l ∧ s.tree 1 = [1, 5] ∧ s.launch? 5 = some x ∧ x.rollback = true) ∧
    (let s := sTree lRoot lLeaf; s.launch? 1 = some lRoot ∧ ∀ j ∈ s.tree 1, ∀ y ∈ s.launch? j, y.rollback = false) := by decide +kernel

/-- A page that was copied before the launch wrote it, and one that its child mapped. -/
def snapCopied : Snapshot := { launch := 1, ctx := 0, page := 1, copied := true, bytes := [(0, 9), (65535, 8)] }
def sUndo (snaps : List Snapshot) (first : List (Nat × BitVec 16 × Nat)) : State :=
  { withMem (sTree { lRoot with rollback := true } lLeaf) with snaps := snaps, firstTouch := first }
def undone (snaps : List Snapshot) (first : List (Nat × BitVec 16 × Nat)) : State := ((sUndo snaps first).tree 1).foldl discardRun (sUndo snaps first)

theorem page_apart {parts : List (Nat × Nat)}
    (h : ∀ i < 16, ((parts[i]?).map (·.1)).getD 0 % 4096 = 0 ∧ ∀ j < 16, ((parts[i]?).map (·.1)).getD 0 = ((parts[j]?).map (·.1)).getD 0 → i = j)
    (o o' : Nat) (ho : o < 65536) (ho' : o' < 65536) (he : pageByte parts o = pageByte parts o') : o = o' := by
  unfold pageByte at he
  obtain ⟨h1, h2⟩ := h (o / 4096) (by omega)
  obtain ⟨h3, -⟩ := h (o' / 4096) (by omega)
  have := h2 (o' / 4096) (by omega) (by omega)
  rw [this] at he
  omega

def apart (x : Option LeafAt) : Bool :=
  match x with
  | some a => decide (∀ i < 16, (((pageParts a.leaf a.level 1)[i]?).map (·.1)).getD 0 % 4096 = 0 ∧
      ∀ j < 16, (((pageParts a.leaf a.level 1)[i]?).map (·.1)).getD 0 = (((pageParts a.leaf a.level 1)[j]?).map (·.1)).getD 0 → i = j)
  | none => false

theorem leaf_apart {x : Option LeafAt} (h : apart x = true) : ∃ a, x = some a ∧
    ∀ i < 16, (((pageParts a.leaf a.level 1)[i]?).map (·.1)).getD 0 % 4096 = 0 ∧
      ∀ j < 16, (((pageParts a.leaf a.level 1)[i]?).map (·.1)).getD 0 = (((pageParts a.leaf a.level 1)[j]?).map (·.1)).getD 0 → i = j := by
  cases x with
  | none => cases h
  | some a => exact ⟨a, rfl, of_decide_eq_true h⟩

theorem witness_SavesAndErrors_restored :
    (∃ a, snapshotLeaf (undone [snapCopied] []) snapCopied = some a ∧
      ∀ o o', o < 65536 → o' < 65536 → pageByte (pageParts a.leaf a.level 1) o = pageByte (pageParts a.leaf a.level 1) o' → o = o') ∧
    ((undone [snapCopied] []).snaps.filter (fun y => y.launch == 1 && y.copied) = [snapCopied] ∧
      (undone [snapCopied] []).firstTouch.filter (fun e => [1, 5].contains e.1) = [] ∧ (snapCopied.bytes.map (·.1)).Nodup ∧
      ∀ e ∈ snapCopied.bytes, e.1 < 65536) ∧
    ((undone [] [(5, 0, 1)]).snaps.filter (fun y => y.launch == 1 && y.copied) = [] ∧
      (undone [] [(5, 0, 1)]).firstTouch.filter (fun e => [1, 5].contains e.1) = [(5, 0, 1)] ∧
      walkTables (undone [] [(5, 0, 1)]) 0 (1 * 65536) = .found (BitVec.ofNat 64 (leafOf 0x10)) 0) := by
  refine ⟨?_, by decide +kernel, by decide +kernel⟩
  obtain ⟨a, ha, h⟩ := leaf_apart (x := snapshotLeaf (undone [snapCopied] []) snapCopied) (by decide +kernel)
  exact ⟨a, ha, page_apart h⟩

/-- A saved team that its stack's loss damaged, or whose launch asks to end; the sides of a saved convoy. -/
def savedLead : SavedTeam := { savedTeam with team := { savedTeam.team with side := .lead, peer := 7 } }
def savedEscort : SavedTeam :=
  { id := 7, team := { savedTeam.team with side := .escort, peer := 3, place := 1 }, groups := [(8, { gBound with team := 7, width := 8, ring := 128 })], ops := [] }
def sBoth : State := { sDisp launch1 with saved := [(3, savedLead), (7, savedEscort)] }
def sFirst : State := (putBack sBoth savedLead 0 [(0, 128)]).getD sBoth

theorem witness_SavesAndErrors_damaged : ({ savedTeam with damaged := true } : SavedTeam).sound 8 = false ∧ savedTeam.sound 8 = true ∧
    (∀ r ∈ [(2, Cause.illegalOperand, (0 : BitVec 12), (0 : Word))], r.2.1 ≠ Cause.doubleFault) ∧
    (∃ r ∈ [(2, Cause.doubleFault, (0 : BitVec 12), (0 : Word))], r.2.1 = Cause.doubleFault) := by decide +kernel

theorem fit_empty (s : State) (p : Nat) (x : SavedTeam) (h0 : teamsOn s p = []) (h1 : spadRetained s.fab p = false) (h2 : x.need = ⟨8, [128], 0, 0, 0⟩)
    (h3 : x.groups.map (fun e => e.2.ring) = [128]) : restoreFit s x p = some [(0, 128)] := by
  have hl : ∀ (d : Device) (c : Nat), 176 ≤ liveRows d p c := fun d c => by unfold liveRows; omega
  have hs : findSeg (freeRows s p []) 1 (rowsOf 128) = some 0 := by
    simp [findSeg, freeRows, rowsOf, List.range, List.range.loop, hl]
  simp only [restoreFit, h2, h3, fits, h0]
  simp [fitsWith, findSegs, ringsFor, hs, h1, List.range, List.range.loop]

theorem witness_SavesAndErrors_convoy (h0 : Config.disabledCore 0 0 = false) (h1 : Config.disabledCore 0 1 = false) :
    SMap.entry? sBoth.saved savedLead.team.peer = some savedEscort ∧ savedLead.sound 8 = true ∧ savedEscort.sound 8 = true ∧
    choose (freeFirst sBoth (restoreCores sBoth savedLead [])) (Config.coreChoice sBoth.tick) = some 0 ∧
    restoreFit sBoth savedLead 0 = some [(0, 128)] ∧ putBack sBoth savedLead 0 [(0, 128)] = some sFirst ∧ launch1.apart = false ∧
    choose (freeFirst sFirst ((restoreCores sFirst savedEscort [0]).filter fun q => !launch1.apart || reticleOf q != reticleOf 0))
      (Config.coreChoice (sBoth.tick + 1)) = some 1 ∧
    restoreFit sFirst savedEscort 1 = some [(0, 128)] ∧ (putBack sFirst savedEscort 1 [(0, 128)]).isSome = true := by
  have hs : (putBack sBoth savedLead 0 [(0, 128)]).isSome = true := by decide +kernel
  have hd : sFirst.dev = sBoth.dev ∧ teamsOn sFirst 1 = [] ∧ spadRetained sFirst.fab 1 = false := by decide +kernel
  have hf : restoreFit sBoth savedLead 0 = some [(0, 128)] := fit_empty _ _ _ rfl rfl rfl rfl
  have hg : restoreFit sFirst savedEscort 1 = some [(0, 128)] := fit_empty _ _ _ hd.2.1 hd.2.2 rfl rfl
  have hu0 : coreUp sBoth.dev 0 = true := coreUp0 h0 rfl rfl
  have hu1 : coreUp sBoth.dev 1 = true := by
    have hd : sBoth.dev.defects = 0 ∧ sBoth.dev.lost = [] := ⟨rfl, rfl⟩
    simp [coreUp, usable, placeLost, hd, disabledCores]
    exact fun h' => absurd (List.mem_of_mem_take h') (by simp [h1])
  have hr : restoreCores sBoth savedLead [] = [0] := by
    have hp : savedCores sBoth savedLead = [0] := by decide +kernel
    simp [restoreCores, hp, hu0, hf]
  have hq : restoreCores sFirst savedEscort [0] = [1] := by
    have hp : savedCores sFirst savedEscort = [0, 1] := by decide +kernel
    simp [restoreCores, hp, hd.1, hu1, hg]
  refine ⟨rfl, by decide +kernel, by decide +kernel, ?_, hf, ?_, by decide +kernel, ?_, hg, by decide +kernel⟩
  · have hq : freeFirst sBoth [0] = [0] := by
      have ht : teamsOn sBoth 0 = [] := rfl
      simp [freeFirst, ht]
    rw [hr, hq]; simp [choose, Nat.mod_one]
  · unfold sFirst
    obtain ⟨t, ht⟩ := Option.isSome_iff_exists.mp hs
    rw [ht]; rfl
  · have hz : freeFirst sFirst [1] = [1] := by simp [freeFirst, hd.2.1]
    rw [hq]
    simp [show launch1.apart = false from by decide +kernel, hz, choose, Nat.mod_one]

/-! ### Convoys -/

def convoy1 : Convoy := { lead := 3, escort := 7 }
def gSide (t : Nat) (o : Option Word) : Group := { gBound with team := t, offer := o, phase := .waiting }
def sConvoy (a b : Option Word) (v : Convoy) : State :=
  { machine group1 team1 launch1 with teams := [(3, teamLead), (7, teamEscort)], groups := [(4, gSide 3 a), (8, gSide 7 b)], convoys := [v] }

theorem witness_ConvoysRecover_match : ∀ b : Word, let s := sConvoy (some 5) (some b) convoy1
    s.group? 4 = some (gSide 3 (some 5)) ∧ s.team? 3 = some teamLead ∧ teamLead.side = .lead ∧ (gSide 3 (some 5)).matched = false ∧
      s.groups.find? (fun e => e.2.team == teamLead.peer && e.2.slot == (gSide 3 (some 5)).slot) = some (8, gSide 7 (some b)) :=
  fun _ => ⟨rfl, rfl, rfl, rfl, rfl⟩

/-- One side offers and the other has ended; neither offers; the other has yet to come. -/
theorem witness_ConvoysRecover_alone : (let e := { gSide 7 none with phase := .ended }; e.offer = none ∧ e.phase = .ended) ∧
    (let g := { gSide 3 none with phase := .ended }; g.offer = none ∧ g.phase = .ended) ∧ (gSide 3 none).offer = none ∧ (gSide 3 none).phase ≠ .ended ∧
    (gSide 7 none).phase ≠ .ended ∧ (gSide 3 (some 5)).offer ≠ none := by decide

theorem witness_ConvoysRecover_mismatch : ∀ b ∈ [false, true], let v := { convoy1 with mismatched := true, warned := b }
    let s := sConvoy none none v
    s.convoys.find? (fun v => (v.lead == 3 || v.escort == 3) && v.mismatched) = some v ∧ s.team? v.lead = some teamLead ∧
      s.team? v.escort = some teamEscort ∧ s.launch? teamLead.launch = some launch1 ∧ launch1.status = none := by decide +kernel

/-- A first mismatch of a convoy whose waypoint has been taken. -/
def sideOf (t k : Nat) (side : Side) : SavedTeam :=
  { id := t, team := { team1 with side, peer := 10 - t }, groups := [(k, gSide t none)], ops := [] }
theorem witness_ConvoysRecover_way_saved : let v := { convoy1 with mismatched := true, way := [sideOf 3 4 .lead, sideOf 7 8 .escort], commits := [(0, { sig := 5 })] }
    let s := sConvoy none none v
    s.convoys.find? (fun v => (v.lead == 3 || v.escort == 3) && v.mismatched) = some v ∧ v.warned = false ∧ v.lead ≠ v.escort ∧ s.ops = [] ∧
      (((sideOf 3 4 .lead).groups ++ (sideOf 7 8 .escort).groups).map (·.1)).Nodup ∧ (∀ e ∈ (sideOf 3 4 .lead).groups, e.2.team = 3) ∧
      (∀ e ∈ (sideOf 7 8 .escort).groups, e.2.team = 7) ∧ s.group? 4 = some (gSide 3 none) ∧ s.group? 8 = some (gSide 7 none) := by decide +kernel

def vFull (n : Nat) : Convoy := { convoy1 with commits := List.replicate n (0, { sig := 0 }) }

theorem witness_ConvoysRecover_way : (takeWaypoint (sConvoy none none (vFull 4096)) (vFull 4096) 0).isSome = true ∧
    (takeWaypoint { sConvoy none none (vFull 4096) with groups := [(4, gSide 3 none)] } (vFull 4096) 0).isSome = false := by decide +kernel

theorem witness_ConvoysRecover_full : (∀ n, let s := sConvoy none none (vFull n)
      s.convoys.find? (fun v => v.lead == 3 || v.escort == 3) = some (vFull n) ∧ (vFull n).mismatched = false ∧ (vFull n).commits.length = n) ∧
    (∀ v, let s := sConvoy none none v
      ∀ e ∈ s.teamGroups 3 ++ s.teamGroups 7, (e.2.phase = .waiting ∨ e.2.phase = .paused ∨ e.2.phase = .ended) ∧ s.pendingOps e.1 = []) := by
  refine ⟨fun n => ⟨by simp [sConvoy, vFull, convoy1], rfl, by simp [vFull]⟩, fun v => ?_⟩
  have h : ∀ e ∈ (sConvoy none none convoy1).teamGroups 3 ++ (sConvoy none none convoy1).teamGroups 7,
      (e.2.phase = .waiting ∨ e.2.phase = .paused ∨ e.2.phase = .ended) ∧ (sConvoy none none convoy1).pendingOps e.1 = [] := by decide +kernel
  exact h

theorem witness_ConvoysRecover_assay : let x : AssayStream := { team := 3, launch := 1, index := 0, ended := true }
    ∀ st ∈ [none, some 0x02], let l := { launch1 with replaying := [3], status := st }; let s := { machine group1 team1 l with assay := [x] }
    s.assay.find? (fun x => x.team == 3 && x.ended) = some x ∧ s.launch? x.launch = some l ∧ 3 ∈ l.replaying := by decide +kernel

/-! ### The log -/

def sLog (n : Nat) (g : Log) : State := { s1 with log := { g with next := n } }
def window1 (n : Nat) : ErrWindow := { unit := 1, cause := 0x01, place := 64, count := n, since := 3 }

def sCycles (n : Word) : State := { s1 with dev := { s1.dev with cycles := [(1, n)] } }

theorem witness_LogWritten :
    (let x : Report := { cls := 1, unit := 3, cause := 0x10, place := 4, detail := 9 }
     let s := sLog 8191 { reports := [x], limit := 8192 }
     s.log.reports = x :: [] ∧ 7 ≤ s.dev.stage.toNat ∧ s.dev.failure = 0 ∧ s.log.next < s.log.limit ∧
       ({ s with log := { s.log with next := 8192 } } : State).log.limit ≤ 8192) ∧
    (∀ n ∈ [256, 257], (sLog 0 { windows := [window1 n] }).log.windows = [window1 n]) ∧
    (window1 1).since + 0x100000 ≤ (sCycles (3 + 0x100000)).cycle (reticleOf (window1 1).place.toNat) ∧
    ¬ (window1 1).since + 0x100000 ≤ (sCycles (3 + 0xFFFFF)).cycle (reticleOf (window1 1).place.toNat) ∧
    (sLog 0 {}).log.windows = [] ∧
    (let s := sLog 1 { records := [0] }; s.log.records.head?.map recordSeq = some (s.log.next - 1) ∧ 7 ≤ s.dev.stage.toNat ∧ s.dev.failure = 0) ∧
    (let s := sLog 4097 { stored := some (0, 0), records := [BitVec.ofNat 512 (4096 * 2 ^ 192)] }
     ckptDue s = true ∧ s.log.records.head?.map recordSeq = some (s.log.next - 1)) ∧
    (sLog 1 {}).log.records.head?.map recordSeq ≠ some 0 ∧ ckptDue (sLog 1 {}) = false ∧
    s1.dev.attBusy = false ∧ ({ s1.dev with attBusy := true } : Device).attBusy = true := by decide +kernel

/-! ### The host's acts -/

def leaf1 : Word := BitVec.ofNat 64 (leafOf 0x10)
def leafHost : Word := BitVec.ofNat 64 (leafOf 0x10 + 2 ^ 57)

/-- Virtual page 1 with host bias. -/
def memHost : List Host.Cell :=
  cellsAt 0x10000 32 (0x12001 + 0x100000 * 2 ^ 64 + 3 * 2 ^ 160 + 0x20000 * 2 ^ 192) ++ cellsAt 0x12000 8 0x14001 ++
    cellsAt 0x14000 8 0x16001 ++ cellsAt 0x16000 8 0x18001 ++ cellsAt 0x18008 8 (leafOf 0x10 + 2 ^ 57)

/-- A machine whose registers name page p for a flip and a move to frame 0x30. -/
def sPage (p : Nat) (d : Device) : State :=
  { sMem with dev := { d with powered := true, stage := 9, ctxtab := 0x10000, biasPg := BitVec.ofNat 64 p, migPg := BitVec.ofNat 64 p,
                               migDst := BitVec.ofNat 64 (0x30 + 2 ^ 36) } }

theorem witness_PagesChange_start : (sPage 1 {}).fab.flip = none ∧ (sPage 1 {}).fab.move = none ∧ (1 : Word).getLsbD 0 = true ∧
    flipError (sPage 1 {}) 0 1 = 0 ∧ flipError (sPage 2 {}) 0 2 = 0 + 1 ∧ moveError (sPage 1 {}) 0 1 = 0 ∧ moveError (sPage 2 {}) 0 2 = 0 + 1 ∧
    walkTables (sPage 1 {}) 0 (1 * 65536) = .found leaf1 0 ∧ pageSlot (sPage 1 {}) 0 1 = some 0x18008 := by decide +kernel

/-- A flip of page 1 under way towards the host, one of its lines held by an engine or not, and towards the device, with
Jibueg up or down. -/
def sFlip (host : Bool) (mem : List Host.Cell) (w : SMap Waybill) (d : Device) : State :=
  { sPage 1 d with mem := mem, fab := { flip := some (0, 1, host), waybills := w } }

/-- An engine that has yet to write a line of the page. -/
def heldOp : Op := { opMx (.mst (mstF 2)) [] with locs := [0x100000] }

theorem witness_PagesChange_flip :
    ([true, false].all fun h =>
      let s := sFlip h mem1 [] {}
      s.fab.flip == some (0, 1, h) && walkTables s 0 (1 * 65536) == .found leaf1 0 && pageSlot s 0 1 == some 0x18008 &&
        Leaf.hostBias leaf1 == false) = true ∧
    recallWaits (sFlip true mem1 [] {}) (pageLines leaf1) = false ∧
    recallWaits { sFlip true mem1 [] {} with ops := [(9, heldOp)] } (pageLines leaf1) = true ∧
    ([true, false].all fun up =>
      let s := sFlip false memHost [] { jibueg := up, hostUp := true }
      walkTables s 0 (1 * 65536) == .found leafHost 0 && pageSlot s 0 1 == some 0x18008 && Leaf.hostBias leafHost &&
        !s.dev.lost.contains .hostPort && s.dev.jibueg == up && s.dev.hostUp) = true := by decide +kernel

def sPageMove (n : Nat) : State := { sPage 1 {} with fab := { move := some (0, 1, leaf1, movedLeaf leaf1 (sPage 1 {}).dev.migDst, n) } }

theorem witness_PagesChange_move : (∀ n, (sPageMove n).fab.move = some (0, 1, leaf1, movedLeaf leaf1 (sPage 1 {}).dev.migDst, n)) ∧
    recallWaits (sPageMove 511) [Leaf.phys leaf1 0 (1 * 65536 + 128 * 511) / 128, Leaf.phys (movedLeaf leaf1 (sPage 1 {}).dev.migDst) 0 (1 * 65536 + 128 * 511) / 128] = false ∧
    (sPageMove 512).ops = [] ∧ recallWaits (sPageMove 512) (pageLines leaf1) = false :=
  ⟨fun _ => rfl, by decide +kernel, rfl, by decide +kernel⟩

theorem witness_HostActs_bar2 :
    (let s := sPage 1 { hwin := 0x10 }
     let locs := (List.range 8).map fun i => s.dev.hwin.toNat * 65536 + 0xFFF8 + i
     (locs.all fun p => isBacked p && !isReserved p) = true ∧ cowPages s locs = [] ∧
       hostWaits s (.hostBar2Access 0xFFF8 8 none) = false ∧ hostWaits s (.hostBar2Access 0xFFF8 8 (some 0)) = false ∧
       hostWaits { s with ops := [(9, { heldOp with locs := [0x10FFF8] })] } (.hostBar2Access 0xFFF8 8 none) = true) ∧
    (let s := sPage 1 { hwin := 0x1800000 }; isBacked (s.dev.hwin.toNat * 65536 + 0 + 0) = false) ∧
    (let s := sPage 1 { hwin := 0x17E000 }; (List.range 8).any (fun i => isReserved (s.dev.hwin.toNat * 65536 + i)) = true) := by decide +kernel

/-- The last line of a moving page, its copies, and an access that still names the old frame. -/
theorem witness_PagesChange_lines :
    (∀ n ∈ [0, 511], let a := Leaf.phys leaf1 0 (1 * 65536 + 128 * n); let b := Leaf.phys (movedLeaf leaf1 (sPage 1 {}).dev.migDst) 0 (1 * 65536 + 128 * n)
      recallWaits (sPageMove n) [a / 128, b / 128] = false ∧
        (let u := dropWaybills (recallLines (sPageMove n) [a / 128, b / 128]) [a / 128, b / 128]
         let v := writeHome u 48 true ((Memory.bytes u.mem a 128).zipIdx.map fun x => (b + x.2, x.1, (0xFF : Byte)))
         pageSlot v 0 1 = some 0x18008 ∧ ∀ i < 128, forwarded u.fab (b + i) = b + i)) ∧
    (let u := recallLines (sPageMove 512) (pageLines leaf1)
     pageSlot { u with boxes := u.boxes.map fun (e : Nat × Mailbox) => (e.1, { e.2 with phys := forwarded u.fab e.2.phys }) } 0 1 = some 0x18008) ∧
    (∃ r : LaneReq, ∃ b ∈ r.bytes, inRanges (pageRanges leaf1) b.2 = true) := by
  refine ⟨by decide +kernel, by decide +kernel, { lane := 0, kind := .load, bytes := [(0, 0x100000)] }, (0, 0x100000), by simp, by decide +kernel⟩

/-- Jibueg up; the last byte of the window and one past it; what the host acknowledges makes the log crowded or not. -/
theorem witness_HostActs_window :
    (let s := sPage 1 { hwin := 0x10, jibueg := true }
     hostWaits s (.hostBar2Access 0xFFF8 8 none) = false ∧ s.dev.jibueg = true) ∧ (2 ^ 36 - 8) + 8 ≤ 2 ^ 36 ∧ 2 ^ 36 < (2 ^ 36 - 7) + 8 ∧
    (let g : Log := { next := 3 * 2 ^ 18 + 2, records := [0] }
     logCrowded g 1 = false ∧ logCrowded g 0 = true) ∧ recallWaits (sPage 1 { hostUp := false }) [0x2000] = false := by decide +kernel

theorem witness_HostActs_edge : recallWaits (sPage 1 { hostUp := true, jibueg := true }) [0x2000] = false ∧ (sPage 1 { hostUp := true, jibueg := true }).dev.hostUp = true ∧ (sPage 1 { hostUp := true, jibueg := true }).dev.jibueg = true ∧
    (sPage 1 {}).dev.jibueg = false ∧ 16 < ((17 : Word).extractLsb' 0 5).toNat ∧ ((16 : Word).extractLsb' 0 5).toNat ≤ 16 ∧
    0x30401 % 8 ≠ 0 ∧ (0x30440 ≤ 0x304FF ∧ 0x304FF < 0x30500) ∧ (s1.queue 63).enable = false := by decide +kernel

/-! ### Power -/

theorem witness_PowerCycles : State.reset.dev.powered = false ∧ State.reset.fab.flip = none ∧ State.reset.fab.move = none ∧
    s1.dev.powered = true ∧ (47 : Fin 48) ∉ s1.dev.throttled ∧
    (47 : Fin 48) ∈ { s1 with dev := { s1.dev with throttled := [47] } }.dev.throttled ∧
    (∀ p ∈ [Part.link 11, .stack 15, .reticle 47, .hostPort], p ∉ s1.dev.lost ∧ p ∈ { s1 with dev := { s1.dev with lost := [p] } }.dev.lost) := by
  decide +kernel

theorem stages_end (first : Report) (m : Bool) (s : State) (h : ∀ k t, stageFailed k t = false) : (bringUp first m s).dev.stage = 9 := by
  have hs : ∀ s, (stages first m 9 1 s).dev.stage = 9 := fun s => by
    simp only [stages, h, Bool.and_false, Bool.false_eq_true, if_false]
    rfl
  have hr : ∀ d n, (raiseCause d n).stage = d.stage := fun d n => by unfold raiseCause; split <;> rfl
  exact (hr _ _).trans (hs _)

/-- A device whose stages do not fail is ready after a reset: a launch that has run, with what R80 asks of it, and one that has not. -/
theorem witness_PowerCycles_reset (h : ∀ k t, stageFailed k t = false) : EnginesIdle s1 ∧ s1.fab.flip = none ∧ s1.fab.move = none ∧
    (∀ e ∈ s1.launches, e.2.prot = false) ∧
    (∀ s, (deviceReset s).dev.stage = 9) ∧ (∀ a b, Origin.queue ≠ .child a b) ∧
    ∀ b ∈ [false, true], ∀ n ∈ [1, 2], ∀ r ∈ [false, true], let l := { launch1 with origin := .queue, prot := b, replays := n, ran := r }
      (machine group1 team1 l).launches = [(1, l)] ∧ l.children = [] ∧ l.status = none ∧ l.prot = b ∧ l.ran = r := by
  refine ⟨?_, rfl, rfl, by decide, fun _ => stages_end _ _ _ h, fun _ _ h => Origin.noConfusion h, by decide +kernel⟩
  intro k o ho
  cases (show (none : Option Op) = some o from ho)

/-! ### Engines and services of a convoy, and the cases that hold a unit back -/

theorem engine_logged {c : Ctx} {i : Instr} {o : Op} {sig : Word} {s : State} {v : List (Nat × Word)} (hs : c.t.side = .lead)
    (hl : c.logged s = some { sig, vals := v }) (hh : holdLines s o.locs = some s) (hf : isOk (countFlag (c.flag i) c.gid s) = true)
    (hj : isOk (joinEngine c i o v (c.tookLogged s)) = true) : ∃ t, issueHolder c i o sig s = .ok t := by
  obtain ⟨u, hu⟩ := ex_ok hf
  obtain ⟨t, ht⟩ := ex_ok hj
  have he : (c.t.side == Side.escort) = false := by rw [hs]; rfl
  exact ⟨t, by simp [issueHolder, startEngine, he, hh, hu, (takes_logged hl hs _).2, ht, bind, Except.bind]⟩

def sEngine (sig : Word) : State := sMemLead { sig, vals := [namedOp 99] }

theorem witness_Engines_shared : ∀ sig, ∀ i ∈ [Instr.bcopy copyF, .mst (mstF 2)], ∃ t, issueHolder cMemLead i (cMemLead.op i) sig (sEngine sig) = .ok t := by
  intro sig i hi
  have key : ∀ i ∈ [Instr.bcopy copyF, .mst (mstF 2)], isOk (countFlag (cMemLead.flag i) cMemLead.gid (sEngine sig)) = true ∧
      isOk (joinEngine cMemLead i (cMemLead.op i) [namedOp 99] (cMemLead.tookLogged (sEngine sig))) = true := by
    intro i hi
    simp only [List.mem_cons, List.not_mem_nil, or_false] at hi
    rcases hi with rfl | rfl <;> exact ⟨rfl, rfl⟩
  exact engine_logged rfl rfl rfl (key i hi).1 (key i hi).2

/-- A copy of a length that no copy has; one whose team has gone for good; a signal to an object that is none. -/
theorem witness_Copies_corners : copyOf false 0 0 (2 ^ 40) = none ∧ copyOf true 0 0 0 = none ∧
    (let o := { opStarted with vals := (9, 5) :: opStarted.vals }
     o.started = true ∧ o.fault = none ∧ receiverGone (sOp o) o = true) ∧
    (let s := machine group1 { team1 with spad := [(0x44, 2)] } launch1
     signalWaits s 0 3 (16 * copyF.bar.toNat) = false ∧ signalObject s 0 3 0x80 = none) := by decide +kernel

/-- A stream of both sides, of which the lead's or the escort's is behind or level. -/
def gSideStream (t got : Nat) : Group :=
  { group1 with team := t, streams := [(2, { streamOpen with fetched := List.replicate got ⟨[], 0, false⟩ })] }
def sStreams (a b : Nat) : State :=
  { machine group1 team1 launch1 with teams := [(3, teamLead), (7, teamEscort)], groups := [(4, gSideStream 3 a), (8, gSideStream 7 b)],
                                      convoys := [{ lead := 3, escort := 7 }] }

theorem witness_StreamsOpen_convoy : ∀ x ∈ [(0, 0), (0, 1)], let s := sStreams x.1 x.2
    let c := frame (gSideStream 3 x.1) teamLead launch1
    s.ctx? 4 = some c ∧ c.t.side ≠ .solo ∧ c.g.phase ≠ .ended ∧ c.g.phase ≠ .stopped ∧ c.peer? s = some 8 ∧ s.group? 8 = some (gSideStream 7 x.2) ∧
      (streamVec s (c.who s) { streamOpen with fetched := List.replicate x.1 ⟨[], 0, false⟩ } x.1).isSome = true ∧
      SMap.entry? (gSideStream 7 x.2).streams 2 = some { streamOpen with fetched := List.replicate x.2 ⟨[], 0, false⟩ } := by
  intro x hx
  simp only [List.mem_cons, List.not_mem_nil, or_false] at hx
  have hc : codeAt reg1 0 = some (BitVec.ofNat 64 hdr1.pack) := by decide
  have hd : decodeHeader (BitVec.ofNat 64 hdr1.pack) = some hdr1 := by decide
  refine ⟨?_, ?_⟩
  · rcases hx with rfl | rfl <;>
      simp [State.ctx?, sStreams, gSideStream, group1, machine, frame, State.group?, State.team?, State.launch?, State.region?, SMap.entry?, launch1, teamLead, team1, hc, hd]
  · rcases hx with rfl | rfl <;> decide +kernel

/-- The waypoint that some group has not reached, and the one at which the sides differ. -/
theorem witness_Barriers_waypoint : (∃ e ∈ (sWay 0).teamGroups 3 ++ (sWay 0).teamGroups 7, e.2.phase ≠ .ended ∧ e.2.waypts < 2) ∧
    takeWaypoint { sWay 0 with groups := [(4, gArr)] } { lead := 3, escort := 7 } 1 = none ∧
    (∀ sig f, ∃ v t, performOnce cMemLead sig f (sMemLead { sig }) = .ok (v, t)) := by
  refine ⟨by decide +kernel, ?_, fun sig f => ⟨_, _, (takes_logged (s := sMemLead { sig }) (v := []) rfl rfl f).2⟩⟩
  have : (takeWaypoint { sWay 0 with groups := [(4, gArr)] } { lead := 3, escort := 7 } 1).isNone = true := by decide +kernel
  exact Option.isNone_iff_eq_none.mp this

theorem witness_Collectives_shared : ∀ sig, (∀ f, ∃ v t, performOnce cMemLead sig f (sEngine sig) = .ok (v, t)) ∧
    isOk (joinEngine cMemLead iColl (cMemLead.op iColl) [namedOp 99] (cMemLead.tookLogged (sEngine sig))) = true :=
  fun sig => ⟨fun f => ⟨_, _, (takes_logged (s := sEngine sig) (v := [namedOp 99]) rfl rfl f).2⟩, rfl⟩

theorem same_self (x : Command) : sameCollective x x := by simp [sameCollective]

/-- A collective that differed before; a team that has retired without it; a destination past the share, and an absent page. -/
def sColl (l : Launch) (src : Word) : State :=
  { machine group1 team1 l with ops := [(9, { opTwo 4 0 false with record := BitVec.ofNat 320 (src.toNat + 0x00F0000000000090 * 2 ^ 64 + 2 ^ 128) })] }

theorem witness_Collectives_faults :
    (1 ∈ ({ launchTwo with differed := [1] } : Launch).differed) ∧
    (let l := { launchTwo with retired := [1] }; ∃ t ∈ l.retired, ∀ p ∈ participants (sColl l 0) 1 1, p.1 ≠ t) ∧
    (∀ src ∈ [(0x00F0000000010000 : Word), 0x20000], let s := sColl launchTwo src
      ¬ (∃ t ∈ launchTwo.retired, ∀ p ∈ participants s 1 1, p.1 ≠ t) ∧ 1 ∉ launchTwo.differed ∧
      ¬ ∃ q, (participants s 1 1).find? (fun p => p.1 == 0) = some q ∧
        ¬ sameCollective (Command.ofBits q.2.2.record) (Command.ofBits ((s.op? 9).getD opZero).record)) := by
  refine ⟨by decide, by decide +kernel, fun src hs => ⟨?_, ?_, ?_⟩⟩
  · rintro ⟨t, ht, -⟩
    have : launchTwo.retired = [] := rfl
    rw [this] at ht
    cases ht
  · decide +kernel
  · rintro ⟨q, h1, h2⟩
    have h3 : (participants (sColl launchTwo src) 1 1).find? (fun p => p.1 == 0) =
        some (0, 9, { opTwo 4 0 false with record := BitVec.ofNat 320 (src.toNat + 0x00F0000000000090 * 2 ^ 64 + 2 ^ 128) }) := by
      simp only [List.mem_cons, List.not_mem_nil, or_false] at hs
      rcases hs with rfl | rfl <;> decide +kernel
    rw [h3] at h1
    cases h1
    exact h2 (by simp only [List.mem_cons, List.not_mem_nil, or_false] at hs; rcases hs with rfl | rfl <;> exact same_self _)

/-- An operation that names what a later one names, and none; a replayed MLDB. -/
theorem witness_MatrixIssues_named :
    (let s := { sMat with ops := [(9, opMldb)], nextId := 10 }
     let o : Op := { opMldb with instr := .mldb (.s 10) (.s 14) .i8 false }
     earlierNaming s 3 10 o = true ∧ earlierNaming { s with ops := [] } 3 10 o = false) ∧
    (∀ sig f, ∃ v t, takeOutside cMemLead sig f (sMemLead { sig, vals := [namedOp 99, (2 ^ 33, 7)] }) = .ok (v, t) ∧ v.drop 1 ≠ []) := by
  refine ⟨by decide +kernel, fun sig f => ⟨_, _, (takes_logged (s := sMemLead { sig, vals := [namedOp 99, (2 ^ 33, 7)] }) rfl rfl f).1, by simp⟩⟩

/-- A tile element that a record of policy 1 cannot convert. -/
def recNaN : BitVec 320 := BitVec.ofNat 320 (0x00F0000000000000 + 4096 * 2 ^ 64 + Fmt.i8.code * 2 ^ 104 + Fmt.f32.code * 2 ^ 109 + 2 ^ 206 + 3 * 2 ^ 242)

theorem witness_MatrixCompletes_mst_trap : let t := tMat.setTileVal 0 false 0 0 0x7FC00000
    let w := { cMat.who sMat with t }
    let o : Op := { opMst with record := recNaN }
    ∃ x, mstWrites w o (mstF 1) = .error x := by
  have : isOk (mstWrites { cMat.who sMat with t := tMat.setTileVal 0 false 0 0 0x7FC00000 } { opMst with record := recNaN } (mstF 1)) = false := by
    decide +kernel
  intro t w o
  cases h : mstWrites w o (mstF 1) with
  | error x => exact ⟨x, rfl⟩
  | ok x => rw [show mstWrites _ _ _ = _ from h] at this; cases this

/-- LAUNCH and the mailbox instructions of a convoy, and a flit taken from the log. -/
theorem witness_Services_shared : ∀ sig v f, (∃ t, performOnce cMemLead sig f (sMemLead { sig, vals := v }) = .ok (v, t)) ∧
    ∃ t, takeOutside cMemLead sig f (sMemLead { sig, vals := v }) = .ok (v, t) := fun sig v f =>
  ⟨⟨_, (takes_logged (s := sMemLead { sig, vals := v }) rfl rfl f).2⟩, _, (takes_logged (s := sMemLead { sig, vals := v }) rfl rfl f).1⟩

/-- A launch that ended before any of its instructions ran. -/
theorem witness_LaunchesEnd_unissued : launch1.issued = false ∧
    (let s := { machine { group1 with phase := .boundary } team1 { launch1 with status := some 2 } with ops := [] }
     ∀ e ∈ s.ops, e.2.group ∈ launchGroups s 1 → isEngineOp e.2.instr = false) := by decide +kernel

end Sys2Proof.Tests
end

