-- ==== Sys2Proof/Proofs/Schedule.lean ====
section
/-! Which row a step takes: what each function of the schedule answers, and how the clock goes on (R24, R123, R151). -/
namespace Sys2Proof.Machine

/-! ## The instruction of a group in its clause -/

/-- A group has an instruction exactly where it is in a clause and the word at its position decodes to it. -/
theorem fetched_eq_some_iff {s : State} {gid : Nat} {i : Instr} :
    fetched s gid = some i ↔ ∃ c w, s.ctx? gid = some c ∧ c.g.phase = .issuing ∧
      codeAt c.r (c.g.hdr.toNat + 8 * c.g.idx) = some w ∧ decode? w = some i := by
  cases hc : s.ctx? gid with
  | none => simp [fetched, hc]
  | some c => by_cases hp : c.g.phase = .issuing <;> simp [fetched, hc, hp, Option.bind_eq_some_iff]

/-- A group in a clause that no roll-back or convoy holds is on its port. -/
theorem mem_issuers_of_ctx? {s : State} {gid : Nat} {c : Ctx} (hc : s.ctx? gid = some c) (hp : c.g.phase = .issuing)
    (hf : frozen s c.g = false) : (gid, c.g) ∈ issuers s := by
  obtain ⟨-, hg, -⟩ := State.ctx?_spec hc
  exact List.mem_filter.2 ⟨SMap.mem_of_entry? hg, by simp [hp, hf]⟩

/-! ## Enabled rows -/

/-- The instruction of a group on its port is an enabled row of a device that is ready. -/
theorem groupRow_mem_enabledRows {s : State} {e : Nat × Group} {i : Instr} (hs : s.dev.stage = 9) (he : e ∈ issuers s)
    (hi : fetched s e.1 = some i) : ⟨some e.1, i⟩ ∈ enabledRows s := by
  have hrow : (⟨some e.1, i⟩ : Row) ∈ (issuers s).filterMap fun e => (fetched s e.1).map fun i => ⟨some e.1, i⟩ :=
    List.mem_filterMap.2 ⟨e, he, by simp [hi]⟩
  simp only [enabledRows, hs, ne_eq, not_true_eq_false, if_false, List.mem_append]
  exact .inl (.inl hrow)

/-- An enabled row of a group is the instruction at that group's position; clause starts and device steps are no group's. -/
theorem fetched_of_mem_enabledRows {s : State} {r : Row} {gid : Nat} (hr : r ∈ enabledRows s) (hg : r.group = some gid) :
    fetched s gid = some r.instr := by
  unfold enabledRows at hr
  split at hr
  · cases hr
  · simp only [List.mem_append, List.mem_filterMap, List.mem_map, Option.map_eq_some_iff] at hr
    obtain (⟨e, -, i, hi, rfl⟩ | ⟨e, -, i, -, rfl⟩) | ⟨i, -, rfl⟩ := hr
    · cases hg
      exact hi
    · cases hg
    · cases hg

/-! ## The choice among enabled rows -/

theorem nextRow_of_nil {s : State} (h : enabledRows s = []) : nextRow s = none := by simp [nextRow, h]

theorem nextRow_of_singleton {s : State} {r : Row} (h : enabledRows s = [r]) : nextRow s = some r := by simp [nextRow, h]

theorem nextRow_mem {s : State} {r : Row} (h : nextRow s = some r) : r ∈ enabledRows s := by
  unfold nextRow at h
  split at h
  case h_1 => cases h
  case h_2 a he =>
    cases h
    simp [he]
  case h_3 => exact List.mem_of_getElem? h

/-- The choice, read modulo the number of enabled rows, always names one of them. -/
theorem exists_nextRow {s : State} (h : enabledRows s ≠ []) : ∃ r, nextRow s = some r := by
  unfold nextRow
  split
  case h_1 he => exact absurd he h
  case h_2 r he => exact ⟨r, rfl⟩
  case h_3 =>
    exact ⟨_, List.getElem?_eq_getElem (Nat.mod_lt _ (List.length_pos_iff.2 h))⟩

/-! ## The step -/

theorem ownStep_of_nextRow {s : State} {r : Row} (h : nextRow s = some r) : ownStep s = finishRow s (r.run s) := by
  simp [ownStep, h]

theorem ownStep_of_no_row {s : State} (h : enabledRows s = []) : ownStep s = .next (afterRow s s) := by
  simp [ownStep, nextRow_of_nil h, finishRow]

theorem step_of_no_inputs {s : State} (h : s.inputs = []) : step s = ownStep s := by
  simp [step, nextStep, nextInput, h]

/-- With an input to take, a step that need not wait takes it off the inputs and runs it where it is the outside's. -/
theorem step_of_nextInput {s : State} {i : Instr} (h : nextInput s = some i) :
    step s = if isOutside i && hostWaits s i then ownStep s
      else finishRow { s with inputs := s.inputs.erase i }
        (if isOutside i then exec i { s with inputs := s.inputs.erase i } else .next { s with inputs := s.inputs.erase i }) := by
  simp only [step, nextStep, h]

/-- With nothing presented, a step that takes a group's row is the instruction's effect for that group. -/
theorem step_of_groupRow {s : State} {gid : Nat} {i : Instr} (hin : s.inputs = []) (h : nextRow s = some ⟨some gid, i⟩) :
    step s = finishRow s (exec i (s.select gid)) :=
  (step_of_no_inputs hin).trans (ownStep_of_nextRow h)

/-! ## The clock -/

/-- Writing keys in turn, each once, leaves at every key written its own value. -/
theorem SMap.get_foldl_put {α : Type} (d : α) (f : Nat → α) (ks : List Nat) (m : SMap α) (k : Nat) :
    SMap.get d (ks.foldl (fun m r => SMap.put m r (f r)) m) k = if k ∈ ks then f k else SMap.get d m k := by
  induction ks generalizing m with
  | nil => simp
  | cons a ks ih =>
    rw [List.foldl_cons, ih]
    by_cases hk : k = a
    · subst hk; simp
    · simp [hk, SMap.get_put_other d m (f a) hk]

theorem advanceClock_tick (t : State) : (advanceClock t).tick = t.tick + 1 := rfl

/-- R24: the counter of every reticle of a powered device goes on, by one cycle and as many more as the device takes. -/
theorem advanceClock_cycle {t : State} (hp : t.dev.powered = true) {r : Nat} (hr : r < 48) :
    (advanceClock t).cycle r = t.cycle r + 1 + BitVec.ofNat 64 (Config.cycles t.tick r) := by
  simp only [advanceClock, State.cycle, hp, if_true]
  exact (SMap.get_foldl_put 0 _ (List.range 48) t.dev.cycles r).trans (if_pos (List.mem_range.2 hr))

theorem advanceClock_dev_of_unpowered {t : State} (hp : t.dev.powered = false) : (advanceClock t).dev = t.dev := by
  simp [advanceClock, hp]

/-! ## The obligation -/

/-- Settles O4: each clause is what the schedule's functions answer, a group's row by way of `fetched`, the clock by the
fold over the reticles. -/
theorem stepRunsDecoded : Obligations.StepRunsDecoded := by
  intro s
  refine ⟨fun gid c w i hc hp hf hw hd hs => ?_, fun r hr gid hg => fetched_eq_some_iff.1 (fetched_of_mem_enabledRows hr hg),
    fun r hin hr => ⟨nextRow_mem hr, (step_of_no_inputs hin).trans (ownStep_of_nextRow hr)⟩, fun _ h => exists_nextRow h,
    fun hin h => (step_of_no_inputs hin).trans (ownStep_of_no_row h), fun i hi => ?_,
    fun t => ⟨rfl, advanceClock_tick t, fun hp r => advanceClock_cycle hp r.isLt, advanceClock_dev_of_unpowered⟩⟩
  · -- a group in a clause
    have hfetch : fetched s gid = some i := fetched_eq_some_iff.2 ⟨c, w, hc, hp, hw, hd⟩
    exact ⟨groupRow_mem_enabledRows hs (mem_issuers_of_ctx? hc hp hf) hfetch, step_of_groupRow,
      fun hin h => step_of_groupRow hin (nextRow_of_singleton h)⟩
  · -- an input
    have hstep := step_of_nextInput hi
    exact ⟨fun ho hw => by simpa [ho, hw] using hstep, fun ho hw => by simpa [ho, hw] using hstep,
      fun ho => by simpa [ho] using hstep⟩

end Sys2Proof.Machine
end

