-- ==== Sys2Proof/Proofs/Regions.lean ====
section
/-! Regions and warm slots: how an image's rectangle is mapped to free cores, and what each of the four device steps on regions
does in the states it is ready in (R43, R82, R96, R107 to R109). -/
namespace Sys2Proof.Machine

/-! ## Mapping a rectangle to cores (R107, R108) -/

/-- The nearest of some places is one of them. -/
theorem mem_of_nearest_eq_some {p q : Nat} {ps : List Nat} (h : nearest p ps = some q) : q ∈ ps := by
  refine List.foldlRecOn (motive := fun best => ∀ x, best = some x → x ∈ ps) ps _ (fun _ hx => by cases hx)
    (fun best hbest a ha x hx => ?_) q h
  cases best with
  | none =>
    cases hx
    exact ha
  | some b =>
    dsimp only at hx
    split at hx
    · cases hx
      exact ha
    · exact hbest x hx

/-- A place is mapped to a free core: itself or the nearest. -/
theorem mem_of_core_choice {p q : Nat} {free : List Nat} (h : (if free.contains p then some p else nearest p free) = some q) :
    q ∈ free := by
  split at h
  · cases h
    exact List.contains_iff_mem.1 ‹_›
  · exact mem_of_nearest_eq_some h

theorem mapCores_cons (p : Nat) (ps free : List Nat) :
    mapCores (p :: ps) free = (if free.contains p then some p else nearest p free).bind fun q =>
      (mapCores ps (free.erase q)).bind fun rest => some ((p, q) :: rest) := by
  simp only [mapCores]
  split <;> rfl

/-- A map of places onto cores free once each takes free cores, no core twice, for just these places in their order. -/
theorem mapCores_spec {ps free : List Nat} {m : List (Nat × Nat)} (hfree : free.Nodup) (h : mapCores ps free = some m) :
    (∀ e ∈ m, e.2 ∈ free) ∧ (m.map (·.2)).Nodup ∧ m.map (·.1) = ps := by
  induction ps generalizing free m with
  | nil =>
    cases h
    simp
  | cons p ps ih =>
    simp only [mapCores_cons, Option.bind_eq_some_iff, Option.some.injEq] at h
    obtain ⟨q, hq, rest, hrest, rfl⟩ := h
    obtain ⟨hmem, hnodup, hplaces⟩ := ih (hfree.erase q) hrest
    have hq' : q ∉ rest.map (·.2) := fun hin => by
      obtain ⟨e, he, rfl⟩ := List.mem_map.1 hin
      exact hfree.not_mem_erase (hmem e he)
    refine ⟨?_, List.nodup_cons.2 ⟨hq', hnodup⟩, congrArg (p :: ·) hplaces⟩
    simp only [List.forall_mem_cons]
    exact ⟨mem_of_core_choice hq, fun e he => List.mem_of_mem_erase (hmem e he)⟩

theorem nodup_enabledCores (d : Device) : (enabledCores d).Nodup := by
  unfold enabledCores
  exact List.nodup_range.filter _

theorem nodup_freeCores (s : State) : (freeCores s).Nodup := by
  unfold freeCores
  exact (nodup_enabledCores s.dev).filter _

/-- An image loaded for a map gives a region with that map. The definition enters as an equation between functions: between
applications, the kernel would evaluate the reading of the image before it compared the two sides. -/
theorem map_of_loadOn_eq_loaded {s : State} {ctx : BitVec 16} {image : Word} {origin rows cols : Nat} {warm : Option Nat}
    {m : List (Nat × Nat)} {r : Region} (h : loadOn s ctx image origin rows cols warm m = .loaded r) : r.map = m := by
  have hdef : @loadOn = @loadOn := rfl
  conv_rhs at hdef => delta loadOn
  rw [hdef] at h
  beta_reduce at h
  split at h
  · cases h
  · split at h
    · cases h
    · cases h
      rfl

/-- A loaded image stands on a map of its whole rectangle onto the free cores. -/
theorem mapCores_of_loadRegion_eq_loaded {s : State} {ctx : BitVec 16} {image : Word} {origin rows cols : Nat} {warm : Option Nat}
    {r : Region} (h : loadRegion s ctx image origin rows cols warm = .loaded r) :
    ∃ ps, rectangle origin rows cols = some ps ∧ mapCores ps (freeCores s) = some r.map := by
  unfold loadRegion at h
  split at h
  case h_1 => cases h
  case h_2 m hm =>
    rw [map_of_loadOn_eq_loaded h]
    exact Option.bind_eq_some_iff.1 hm

/-! ## Changes of a table's entry -/

/-- Changing an entry that is there writes it. -/
theorem SMap.adjust_of_some {α : Type} {m : SMap α} {k : Nat} {v : α} (f : α → α) (h : entry? m k = some v) :
    adjust m k f = put m k (f v) := by
  simp [adjust, h]

theorem State.modLaunch_of_some {s : State} {lid : Nat} {l : Launch} (f : Launch → Launch) (h : s.launch? lid = some l) :
    s.modLaunch lid f = s.setLaunch lid (f l) :=
  congrArg (fun m => { s with launches := m }) (SMap.adjust_of_some f h)

/-- The first status of a launch stands. -/
theorem fixStatus_of_unfixed {s : State} {lid : Nat} {l : Launch} {v : BitVec 8} (h : s.launch? lid = some l)
    (hst : l.status = none) : fixStatus s lid v = s.setLaunch lid { l with status := some v } := by
  rw [fixStatus, State.modLaunch_of_some _ h, hst, Option.none_or]

/-- A launch whose teams may be dispatched has no status. -/
theorem status_of_mayDispatch {s : State} {lid : Nat} {l : Launch} (h : mayDispatch s lid l = true) : l.status = none := by
  simp only [mayDispatch, Bool.and_eq_true, Option.isNone_iff_eq_none] at h
  tauto

/-- No mailbox is bound to no region. -/
@[simp] theorem coldBoxes_none (s : State) : coldBoxes s none = s := by simp [coldBoxes]

/-! ## The device steps -/

theorem exec_regionLoad (lid : Nat) (s : State) : exec (.regionLoad lid) s = event (regionLoad lid) s := rfl
theorem exec_regionRelease (k : Nat) (s : State) : exec (.regionRelease k) s = event (regionRelease k) s := rfl
theorem exec_warmSlotImageWrite (n : BitVec 8) (p : Word) (s : State) :
    exec (.warmSlotImageWrite n p) s = execWarmSlotImageWrite n p s := rfl
theorem exec_warmSlotStaged (n : BitVec 8) (s : State) : exec (.warmSlotStaged n) s = event (warmSlotStaged n.toNat) s := rfl

/-- R107: what the load of a launch's image comes to, where the launch may be dispatched, is not warm and has no region. -/
theorem exec_regionLoad_of_ready {s : State} {lid : Nat} {l : Launch} (hl : s.launch? lid = some l)
    (hd : mayDispatch s lid l = true) (hr : l.region = none) (hw : warmRegion s l.ctx l = none)
    (hc : ctxValid s (ctxEntry s l.ctx) = true) :
    let v := Config.regionChoice s.tick
    let origin := v % 3072
    let rows := v / 3072 % (48 - waferRow origin) + 1
    let cols := v / (3072 * 48) % (64 - waferCol origin) + 1
    exec (.regionLoad lid) s = .next (match loadRegion s l.ctx l.image origin rows cols none with
      | .loaded r =>
        { s.setLaunch lid { l with region := some s.nextId } with regions := SMap.put s.regions s.nextId r, nextId := s.nextId + 1 }
      | .rejected => s.setLaunch lid { l with status := some 0x03 }
      | .noCores => s) := by
  intro v origin rows cols
  rw [exec_regionLoad]
  cases hx : loadRegion s l.ctx l.image origin rows cols none with
  | loaded r => exact event_some (by simp [regionLoad, hl, hd, hr, hw, hc, v, origin, rows, cols, hx, State.modLaunch_of_some _ hl])
  | rejected => exact event_some (by simp [regionLoad, hl, hd, hr, hw, hc, v, origin, rows, cols, hx,
      fixStatus_of_unfixed hl (status_of_mayDispatch hd)])
  | noCores => exact event_none (by simp [regionLoad, hl, hd, hr, hw, hc, v, origin, rows, cols, hx])

theorem regionRelease_of_unused {s : State} {k : Nat} {r : Region} (hr : s.region? k = some r)
    (hu : ∀ e ∈ s.launches, e.2.region ≠ some k) (hw : r.warm = none ∨ r.releasing = true) :
    regionRelease k s = some { s with regions := SMap.del s.regions k } := by
  have hany : (s.launches.any fun e => e.2.region == some k) = false := by simpa using hu
  rcases hw with hw | hw <;> simp [regionRelease, hr, hany, hw]

theorem regionRelease_of_used {s : State} {k : Nat} (hu : ∃ e ∈ s.launches, e.2.region = some k) : regionRelease k s = none := by
  have hany : (s.launches.any fun e => e.2.region == some k) = true := by simpa using hu
  cases hr : s.region? k with
  | none => simp [regionRelease, hr]
  | some r => simp [regionRelease, hr, hany]

/-- Staging of a slot without a region, whose former region has gone. -/
theorem warmSlotStaged_of_no_region {s : State} {n : Nat} {w : WarmSlot} (hw : SMap.entry? s.warm n = some w)
    (hst : w.staging = true) (hr : w.region = none) (hn : ∀ e ∈ s.regions, e.2.warm ≠ some n) :
    warmSlotStaged n s = some (match loadRegion s w.ctx w.pointer w.origin.toNat (w.rows.toNat + 1) (w.cols.toNat + 1) (some n) with
      | .loaded r => { s with regions := SMap.put s.regions s.nextId r, nextId := s.nextId + 1 }.setWarm n
          { w with staging := false, ready := true, failed := false, region := some s.nextId }
      | _ => s.setWarm n { w with staging := false, ready := false, failed := true, region := none }) := by
  have hany : (s.regions.any fun e => e.2.warm == some n) = false := by simpa using hn
  cases hx : loadRegion s w.ctx w.pointer w.origin.toNat (w.rows.toNat + 1) (w.cols.toNat + 1) (some n) <;>
    simp [warmSlotStaged, hw, hst, hr, hany, hx]

/-- Staging of a slot again on the region it kept over a device reset. -/
theorem warmSlotStaged_of_kept_region {s : State} {n k : Nat} {w : WarmSlot} {r r' : Region} {m : List (Nat × Nat)}
    (hw : SMap.entry? s.warm n = some w) (hst : w.staging = true) (hk : w.region = some k) (hr : s.region? k = some r)
    (hm : keptMap s k r = some m) (hl : loadOn s w.ctx w.pointer r.origin r.rows r.cols (some n) m = .loaded r') :
    warmSlotStaged n s = some ({ s with regions := SMap.put s.regions k r' }.setWarm n
      { w with staging := false, ready := true, failed := false }) := by
  simp [warmSlotStaged, hw, hst, hk, hr, hm, hl]

/-! ## The obligation -/

/-- Settles O53: each clause is what the step's function answers in the states of that clause, the map's by induction over the
places of the rectangle. -/
theorem regionsLoaded : Obligations.RegionsLoaded := by
  refine ⟨fun s lid l hl hd hr hw hc => ?_, fun s ctx image origin rows cols warm r h => ?_, fun s k r hr => ⟨fun hu hw => ?_, fun hu => ?_⟩,
    fun s n p w hw => ⟨fun hr => ?_, fun k r hk hr => ?_, fun he hst hr hn => ?_, fun k r m r' he hst hk hr hm hl => ?_⟩⟩
  · exact exec_regionLoad_of_ready hl hd hr hw hc
  · -- the map of a loaded region
    obtain ⟨ps, hps, hm⟩ := mapCores_of_loadRegion_eq_loaded h
    obtain ⟨hfree, hnodup, hplaces⟩ := mapCores_spec (nodup_freeCores s) hm
    exact ⟨hfree, hnodup, by rw [hplaces, hps]⟩
  · -- REGION_RELEASE
    exact (exec_regionRelease k s).trans (event_some (regionRelease_of_unused hr hu hw))
  · exact (exec_regionRelease k s).trans (event_none (regionRelease_of_used hu))
  · -- WARM_SLOT_IMAGE_WRITE
    simp [exec_warmSlotImageWrite, execWarmSlotImageWrite, event, hw, hr]
  · simp [exec_warmSlotImageWrite, execWarmSlotImageWrite, event, hw, hk, SMap.adjust_of_some _ hr]
  · -- WARM_SLOT_STAGED
    exact (exec_warmSlotStaged n s).trans (event_some (warmSlotStaged_of_no_region he hst hr hn))
  · exact (exec_warmSlotStaged n s).trans (event_some (warmSlotStaged_of_kept_region he hst hk hr hm hl))

end Sys2Proof.Machine
end

