-- ==== Sys2Proof/Proofs/Registers.lean ====
section
/-! The device's registers as the host reads them after reset (R72, R81, R226, R262, R356, R388, R393, R396, R402, R403). -/
namespace Sys2Proof.Machine

/-! ## Where the host reads a register -/

/-- The eight registers of queue q stand from 0x10000 + 64·q on (R72). -/
theorem registerRead_queue (s : State) {q k : Nat} (hq : q < 64) (hk : k < 8) :
    registerRead s (0x10000 + 64 * q + 8 * k) = BitVec.ofNat 64 (queueRead (s.queue q) (8 * k)) := by
  have haligned : (0x10000 + 64 * q + 8 * k) % 8 = 0 := by omega
  have hrange : 0x10000 ≤ 0x10000 + 64 * q + 8 * k ∧ 0x10000 + 64 * q + 8 * k < 0x11000 := by omega
  have hqueue : (0x10000 + 64 * q + 8 * k - 0x10000) / 64 = q := by omega
  have hreg : (0x10000 + 64 * q + 8 * k) % 64 = 8 * k := by omega
  simp only [registerRead, haligned, hrange, hqueue, hreg, ne_eq, not_true_eq_false, if_false, and_self, if_true]

/-- The two registers of warm slot n stand from 0x20000 + 16·n on (R81); a slot at its reset values reads as 0 in both. -/
theorem registerRead_warm_of_reset {s : State} {n : Nat} (hn : n < 512) (hw : s.warmSlot (n / 2) = {}) :
    registerRead s (0x20000 + 8 * n) = 0 := by
  have haligned : (0x20000 + 8 * n) % 8 = 0 := by omega
  have hqueue : ¬(0x10000 ≤ 0x20000 + 8 * n ∧ 0x20000 + 8 * n < 0x11000) := by omega
  have hrange : 0x20000 ≤ 0x20000 + 8 * n ∧ 0x20000 + 8 * n < 0x21000 := by omega
  have hslot : (0x20000 + 8 * n - 0x20000) / 16 = n / 2 := by omega
  simp only [registerRead, haligned, hqueue, hrange, hslot, hw, ne_eq, not_true_eq_false, if_false, and_self, if_true]
  split <;> rfl

/-- The power cap of reticle r stands at 0x30900 + 8·r (R396). -/
theorem registerRead_pwrcap (s : State) {r : Nat} (hr : r < 48) :
    registerRead s (0x30900 + 8 * r) = BitVec.ofNat 64 (SMap.get 500 s.dev.pwrcap r).toNat := by
  have haligned : (0x30900 + 8 * r) % 8 = 0 := by omega
  have hrange : 0x30900 ≤ 0x30900 + 8 * r ∧ 0x30900 + 8 * r < 0x30900 + 8 * 48 := by omega
  have hreg : (0x30900 + 8 * r - 0x30900) / 8 = r := by omega
  have hbelow : ∀ lo hi, hi ≤ 0x30900 → ¬(lo ≤ 0x30900 + 8 * r ∧ 0x30900 + 8 * r < hi) := by omega
  simp only [registerRead, haligned, hrange, hreg, hbelow, ne_eq, not_true_eq_false, if_false, and_self, if_true, Nat.reduceLeDiff]

/-! ## The obligation -/

/-- Settles O6: the tables of the reset state are empty, so that each register reads its default. -/
theorem resetValues : Obligations.ResetValues := by
  refine ⟨fun q => ⟨fun k hk => ?_, fun k hk => ?_⟩, fun n => registerRead_warm_of_reset n.isLt rfl, by decide, by decide,
    fun r => registerRead_pwrcap State.reset r.isLt, fun r => ⟨rfl, rfl⟩, rfl⟩
  all_goals
    have hk8 : k < 8 := by simp at hk; omega
    rw [registerRead_queue _ q.isLt hk8]
  · exact (by decide : ∀ k ∈ [0, 1, 2, 3, 7], BitVec.ofNat 64 (queueRead {} (8 * k)) = 0) k hk
  · exact (by decide : ∀ k ∈ [4, 5, 6], BitVec.ofNat 64 (queueRead {} (8 * k)) = 0xFFFFFFFF) k hk

end Sys2Proof.Machine
end

