-- ==== Sys2Proof/Proofs/Queues.lean ====
section
/-! Submission queues: what a write of a queue's registers does, which queue is read next, and what becomes of the record at its
head (R72 to R75, R77, R78). -/
namespace Sys2Proof.Machine

/-! ## The acceptance of a launch (R78) -/

theorem writeBitmapGrid_of_absent {l : Launch} (h : l.bitmapPtr = 0) (s : State) : writeBitmapGrid l s = s := if_pos h

theorem writeBitmapStatus_of_absent {l : Launch} (h : l.bitmapPtr = 0) (v : Nat) (s : State) : writeBitmapStatus l v s = s := if_pos h

theorem takeSnapshots_of_unprotected {l : Launch} (h : l.prot = false) (s : State) (lid : Nat) : takeSnapshots s lid l = s := by
  simp [takeSnapshots, h]

/-- A queue's launch with neither a bitmap nor replay protection enters the table and does nothing else; an invalid record is
accepted with its status. -/
theorem acceptLaunch_of_plain {l : Launch} (ho : l.origin = .queue) (hb : l.bitmapPtr = 0) (hp : l.prot = false) (s : State) :
    acceptLaunch s l = { s with
      launches := SMap.put s.launches s.nextId (if launchRecordOk false l.record then l else { l with status := some 0x04 }),
      nextId := s.nextId + 1 } := by
  have hb' : (if launchRecordOk false l.record then l else { l with status := some 0x04 }).bitmapPtr = 0 := by split <;> exact hb
  have hp' : (if launchRecordOk false l.record then l else { l with status := some 0x04 }).prot = false := by split <;> exact hp
  unfold acceptLaunch
  dsimp only
  split
  case h_1 hm => rw [ho] at hm; cases hm
  case h_2 => rw [writeBitmapGrid_of_absent hb', writeBitmapStatus_of_absent hb', takeSnapshots_of_unprotected hp']

/-! ## The queue read next (R75) -/

/-- The queue read next may be read, and no queue that may be read has a higher priority. -/
theorem exists_of_nextQueue {s : State} {k : Nat} (h : nextQueue s = some k) :
    ∃ e ∈ s.queues, e.1 = k ∧ e.2.reads s.dev = true ∧ ∀ x ∈ s.queues, x.2.reads s.dev = true → x.2.prio.toNat ≤ e.2.prio.toNat := by
  unfold nextQueue at h
  dsimp only at h
  split at h
  case h_1 => cases h
  case h_2 p hp =>
    have hbest := (List.max?_eq_some_iff.1 hp).2
    have hmem : k ∈ ((s.queues.filter fun e => e.2.reads s.dev).filter fun e => e.2.prio.toNat == p).map (·.1) := by
      rcases Option.or_eq_some_iff.1 h with hf | ⟨-, hf⟩
      · exact List.mem_of_find?_eq_some hf
      · exact List.mem_of_head? hf
    simp only [List.mem_map, List.mem_filter, beq_iff_eq] at hmem hbest
    obtain ⟨e, ⟨⟨he, hreads⟩, rfl⟩, hk⟩ := hmem
    exact ⟨e, he, hk, hreads, fun x hx hxr => hbest _ ⟨x, ⟨hx, hxr⟩, rfl⟩⟩

/-! ## The record at the head (R73, R75, R78) -/

section Head

variable {s : State} {k : Nat}

/-- The state in which a queue's head is read: the round robin goes on to the queue after it. -/
def readingFrom (s : State) (k : Nat) : State :=
  s.setDev { s.dev with rrobin := SMap.set 0 s.dev.rrobin (s.queue k).prio.toNat (k + 1) }

theorem queueSlotAccept_of_other (h : nextQueue s ≠ some k) : queueSlotAccept k s = none := if_pos h

theorem queueSlotAccept_of_unreadable (h : nextQueue s = some k) (hr : readSlot (readingFrom s k) (s.queue k) = none) :
    queueSlotAccept k s = some ((readingFrom s k).setQueue k { s.queue k with stopped := true, cause := 2 }) := by
  rw [readingFrom] at hr ⊢
  simp [queueSlotAccept, h, hr]

variable {r : BitVec 1024} (h : nextQueue s = some k) (hr : readSlot (readingFrom s k) (s.queue k) = some r)
include h hr

theorem queueSlotAccept_of_following (hn : r.extractLsb' 224 32 = (s.queue k).ack + 1) :
    queueSlotAccept k s = some (acceptLaunch ((readingFrom s k).setQueue k { s.queue k with
      ack := r.extractLsb' 224 32, head := (s.queue k).head + 1, journal := (s.queue k).journal ++ [s.nextId] })
      (queueLaunch k (s.queue k) r)) := by
  rw [readingFrom] at hr ⊢
  simp [queueSlotAccept, h, hr, hn]

theorem queueSlotAccept_of_duplicate (hn : r.extractLsb' 224 32 ≠ (s.queue k).ack + 1)
    (hc : ((s.queue k).ack - r.extractLsb' 224 32).toNat < 2 ^ 31) :
    queueSlotAccept k s = some ((readingFrom s k).setQueue k { s.queue k with
      head := (s.queue k).head + 1, dups := (s.queue k).dups + 1 }) := by
  have hcov : Queue.covers (s.queue k).ack (r.extractLsb' 224 32) = true := decide_eq_true hc
  rw [readingFrom] at hr ⊢
  simp only [queueSlotAccept, h, hr, hn, hcov, ne_eq, not_true_eq_false, if_false, if_true]

theorem queueSlotAccept_of_gap (hn : r.extractLsb' 224 32 ≠ (s.queue k).ack + 1)
    (hc : 2 ^ 31 ≤ ((s.queue k).ack - r.extractLsb' 224 32).toNat) :
    queueSlotAccept k s = some ((readingFrom s k).setQueue k { s.queue k with stopped := true, cause := 1 }) := by
  have hcov : Queue.covers (s.queue k).ack (r.extractLsb' 224 32) = false := decide_eq_false (by omega)
  rw [readingFrom] at hr ⊢
  simp only [queueSlotAccept, h, hr, hn, hcov, ne_eq, not_true_eq_false, if_false, Bool.false_eq_true]

end Head

/-! ## Writes of a queue's registers (R72, R74) -/

theorem qtailWrite_of_idle {s : State} {k : Nat} (v : BitVec 32)
    (h : (s.queue k).enable = false ∧ (s.queue k).journal = [] ∧ (s.queue k).held = []) :
    qtailWrite k v s = s.setQueue k { s.queue k with ack := v - 1, ret := v - 1, cack := v - 1, head := v, tail := v } := by
  simp [qtailWrite, h]

theorem qtailWrite_of_busy {s : State} {k : Nat} (v : BitVec 32)
    (h : (s.queue k).enable = true ∨ (s.queue k).journal ≠ [] ∨ (s.queue k).held ≠ []) :
    qtailWrite k v s = s.setQueue k { s.queue k with tail := v } := by
  have hbusy : ¬((!(s.queue k).enable && (s.queue k).journal.isEmpty && (s.queue k).held.isEmpty) = true) := by
    rcases h with h | h | h <;> simp [h]
  simp only [qtailWrite, if_neg hbusy]

/-- A write of QCTL without either control: n and the context stay while the queue is enabled. -/
theorem qctlWrite_of_enabled {s : State} {k : Nat} {v : Word} (ha : v.getLsbD 33 = false) (hw : v.getLsbD 32 = false)
    (he : (s.queue k).enable = true) :
    qctlWrite k v s = s.setQueue k { s.queue k with enable := v.getLsbD 31, prio := v.extractLsb' 29 2, inDevice := v.getLsbD 28 } := by
  simp only [qctlWrite, ha, hw, he, if_true, if_false, Bool.not_true, Bool.and_false, Bool.false_and, Bool.false_eq_true]

/-- A disabled queue takes them, and stops where it is enabled over an invalid base. -/
theorem qctlWrite_of_disabled {s : State} {k : Nat} {v : Word} (ha : v.getLsbD 33 = false) (hw : v.getLsbD 32 = false)
    (he : (s.queue k).enable = false) :
    qctlWrite k v s =
      let q := { s.queue k with ctx := v.extractLsb' 48 16, n := v.extractLsb' 23 5, enable := v.getLsbD 31, prio := v.extractLsb' 29 2,
                                inDevice := v.getLsbD 28 }
      s.setQueue k (if v.getLsbD 31 = true ∧ q.baseOk = false then { q with stopped := true, cause := 3 } else q) := by
  simp only [qctlWrite, ha, hw, he, if_false, Bool.not_false, Bool.and_true, Bool.and_eq_true, Bool.not_eq_true', Bool.false_eq_true]

/-- The abort fixes the status of the oldest launch that has run no team and has no status. -/
theorem abortHead_of_oldest {s : State} {k lid : Nat} {before after : List Nat} {l : Launch}
    (hj : (s.queue k).journal = before ++ lid :: after) (hl : s.launch? lid = some l) (hran : l.ran = false) (hst : l.status = none)
    (hb : ∀ j ∈ before, ∀ y, s.launch? j = some y → y.ran = true ∨ y.status ≠ none) :
    abortHead k s = s.setLaunch lid { l with status := some 0x06 } := by
  have hpassed : before.find? (fun i => match s.launch? i with | some l => !l.ran && l.status.isNone | none => false) = none := by
    refine List.find?_eq_none.2 fun j hj => ?_
    cases hy : s.launch? j with
    | none => simp
    | some y => rcases hb j hj y hy with h | h <;> simp [h]
  have hfound : (s.queue k).journal.find? (fun i => match s.launch? i with | some l => !l.ran && l.status.isNone | none => false)
      = some lid := by
    rw [hj, List.find?_append, hpassed, Option.none_or, List.find?_cons_of_pos]
    simp [hl, hran, hst]
  unfold abortHead
  dsimp only
  split
  case h_1 i hi =>
    cases hfound.symm.trans hi
    exact fixStatus_of_unfixed hl hst
  case h_2 hi => cases hfound.symm.trans hi

/-- REWRITE passes over the held records that name no pointer. -/
theorem rewriteHeld_eq_foldl_filter (k : Nat) (s : State) :
    rewriteHeld k s = ((s.queue k).held.filter fun e => e.2.2.1 != 0).foldl
      (fun s e => (writeRecord s e.2.1 e.2.2.1 e.2.2.2).getD s) s := by
  rw [rewriteHeld, List.foldl_filter]
  refine congrArg (fun f => (s.queue k).held.foldl f s) (funext fun s => funext fun e => ?_)
  by_cases hp : e.2.2.1 = 0 <;> simp [hp]

/-! ## The device steps -/

theorem exec_qtailWrite (k : Fin 64) (v : BitVec 32) (s : State) : exec (.qtailWrite k v) s = .next (qtailWrite k.val v s) := rfl
theorem exec_qctlEnable (k : Fin 64) (v : Word) (s : State) : exec (.qctlEnable k v) s = .next (qctlWrite k.val v s) := rfl
theorem exec_abortHead (k : Fin 64) (s : State) : exec (.abortHead k) s = .next (abortHead k.val s) := rfl
theorem exec_rewrite (k : Fin 64) (s : State) : exec (.rewrite k) s = .next (rewriteHeld k.val s) := rfl
theorem exec_queueSlotAccept (k : Fin 64) (s : State) : exec (.queueSlotAccept k) s = event (queueSlotAccept k.val) s := rfl

/-! ## The obligation -/

/-- Settles O52: each clause is the lemma about the step's function in the states of that clause; the queue read next is found
among those of the greatest priority. -/
theorem queuesAccept : Obligations.QueuesAccept := by
  refine ⟨fun s k v x => ⟨fun h => ?_, fun h => ?_, fun ha hw => ⟨fun he => ?_, fun he => ?_⟩,
      fun before after lid l hj hl hran hst hb => ?_, ?_, rfl, rfl⟩,
    fun s k => ⟨fun h => ?_, fun h => ⟨exists_of_nextQueue h, fun hr => ?_, fun r hr => ⟨fun hn => ?_, fun hn hc => ?_, fun hn hc => ?_⟩⟩⟩,
    fun s k q r hb hp => ?_⟩
  · -- the registers
    rw [exec_qtailWrite, qtailWrite_of_idle v h]
  · rw [exec_qtailWrite, qtailWrite_of_busy v h]
  · rw [exec_qctlEnable, qctlWrite_of_enabled ha hw he]
  · rw [exec_qctlEnable, qctlWrite_of_disabled ha hw he]
  · rw [exec_abortHead, abortHead_of_oldest hj hl hran hst hb]
  · rw [exec_rewrite, rewriteHeld_eq_foldl_filter]
  · -- the record at the head
    exact (exec_queueSlotAccept k s).trans (event_none (queueSlotAccept_of_other h))
  · exact (exec_queueSlotAccept k s).trans (event_some (queueSlotAccept_of_unreadable h hr))
  · exact (exec_queueSlotAccept k s).trans (event_some (queueSlotAccept_of_following h hr hn))
  · exact (exec_queueSlotAccept k s).trans (event_some (queueSlotAccept_of_duplicate h hr hn hc))
  · exact (exec_queueSlotAccept k s).trans (event_some (queueSlotAccept_of_gap h hr hn hc))
  · -- the launch's entry
    rw [acceptLaunch_of_plain rfl hb hp]
    by_cases hok : launchRecordOk false r = true <;> simp [queueLaunch, hok]

end Sys2Proof.Machine
end

