-- ==== Sys2Proof/Proofs/Launching.lean ====
section
/-! LAUNCH: the reading of its record, the child that it enters, and the operation that a convoy makes once (R91 to R93, R376). -/
namespace Sys2Proof.Machine

/-! ## Operations made once (R376) -/

/-- A team on its own makes the operation, and the assayer logs it. -/
theorem performOnce_of_solo {c : Ctx} (h : c.t.side = .solo) (sig : Word) (f : State → Res (List (Nat × Word) × State)) (s : State) :
    performOnce c sig f s = (f s >>= fun r => .ok (r.1, assayLog c sig r.1 r.2)) := by
  simp only [performOnce, h]

/-! ## Before an engine's or a launch's instruction (R269, R354) -/

theorem engineReady_of_ready {c : Ctx} {s : State} (hs : c.g.sup = false) (ha : acquirePending s c.gid = false) :
    engineReady c s = .ok () := by
  simp [engineReady, notInHandler, afterAcquire, hs, ha]

/-! ## The record (R77, R93) -/

/-- A LAUNCH that has waited has its record. -/
theorem launchRead_of_kept {c : Ctx} {r : BitVec 1024} (h : c.g.launchRec = some r) (i : Instr) (p : Word) (s : State) :
    launchRead c i p s = .ok (r, s) := by
  simp only [launchRead, h]

/-- A record that is read is taken where it is valid and, under replay protection, names its root's bounds table. -/
theorem launchRead_of_read {c : Ctx} {i : Instr} {p : Word} {s t : State} {bs : List Byte} (h : c.g.launchRec = none)
    (hb : readStructIf false c i .i p 128 s = .ok (bs, t)) (hok : launchRecordOk false (recordOf bs) = true)
    (hp : c.l.prot = true → (t.launch? (t.root c.lid)).map (·.boundsPtr) = some ((recordOf bs).extractLsb' 384 64)) :
    launchRead c i p s = .ok (recordOf bs, t) := by
  have hbounds : ¬(c.l.prot = true ∧ (recordOf bs).extractLsb' 384 64 ≠ ((t.launch? (t.root c.lid)).map (·.boundsPtr)).getD 0) := by
    rintro ⟨hprot, hne⟩
    rw [hp hprot] at hne
    exact hne rfl
  simp only [launchRead, h, hb, hok, hbounds, Res.ok_bind, guardOp_true, if_false]

/-! ## The child (R91, R92) -/

/-- The root of a launch depends on the table of launches alone. -/
theorem rootOf_congr {s t : State} (h : t.launches = s.launches) (n lid : Nat) : rootOf t n lid = rootOf s n lid := by
  have hlaunch : ∀ k, t.launch? k = s.launch? k := fun k => by rw [State.launch?, h, State.launch?]
  induction n generalizing lid with
  | zero => rfl
  | succ n ih =>
    simp only [rootOf, hlaunch]
    split
    · exact ih _
    · rfl

@[simp] theorem State.root_modGroup (s : State) (k : Nat) (f : Group → Group) (lid : Nat) : (s.modGroup k f).root lid = s.root lid :=
  rootOf_congr rfl 10 lid

/-- The child that a launch enters: the ordinal is its root's count of children, the rest its parent's. -/
def childOf (c : Ctx) (r : BitVec 1024) (ordinal : Nat) : Launch :=
  { record := r, origin := .child c.lid ordinal, queue := c.l.queue, seq := c.l.seq, ctx := c.l.ctx, prio := c.l.prio,
    depth := c.l.depth + 1, prot := c.l.prot, convoy := c.l.convoy }

theorem addChild_eq {c : Ctx} {s : State} {x : Launch} (hx : s.launch? (s.root c.lid) = some x) (r : BitVec 1024) :
    addChild c r s = (x.childCount, acceptLaunch ((s.modLaunch (s.root c.lid) fun y => { y with childCount := x.childCount + 1 }).modLaunch
      c.lid fun y => { y with children := s.nextId :: y.children }) (childOf c r x.childCount)) := by
  simp only [addChild, hx, Option.map_some, Option.getD_some]
  rfl

section

variable {c : Ctx} {i : Instr} {p : Word} {s t : State} {r : BitVec 1024} (hr : launchRead c i p s = .ok (r, t))
include hr

/-- With the most children alive the launch waits, its record kept. -/
theorem launchAt_of_full (hn : 4096 ≤ childrenAlive t) :
    launchAt c i p s = .error (.wait (t.modGroup c.gid fun g => { g with launchRec := some r })) := by
  have hn' : childLimit ≤ childrenAlive t := hn
  simp only [launchAt, hr, Res.ok_bind, hn', if_true]

theorem launchAt_of_room {x : Launch} (hx : t.launch? (t.root c.lid) = some x) (hn : childrenAlive t < 4096) :
    launchAt c i p s = .ok ([(0, BitVec.ofNat 64 (x.childCount % 2 ^ 32 + (c.l.depth + 1) * 2 ^ 32))],
      (addChild c r (t.modGroup c.gid fun g => { g with launchRec := none })).2) := by
  have hn' : ¬ childLimit ≤ childrenAlive t := Nat.not_le.2 hn
  have hx' : (t.modGroup c.gid fun g => { g with launchRec := none }).launch?
      ((t.modGroup c.gid fun g => { g with launchRec := none }).root c.lid) = some x := by simpa using hx
  simp only [launchAt, hr, Res.ok_bind, hn', if_false, addChild_eq hx']

end

/-! ## LAUNCH -/

theorem exec_launch (d a : Spec) (fb : Bool) (s : State) : exec (.launch d a fb) s = runInstr (launchBody d a fb) s := rfl

section

variable {c : Ctx} {s : State} {d a : Fin 64} {fb : Bool} (hs : c.g.sup = false) (ha : acquirePending s c.gid = false)
include hs ha

theorem launchBody_of_other_group (hg : c.g.slot ≠ 0) : launchBody (.s d) (.s a) fb c s = .error (.trap { cause := 0x02 }) := by
  have hslot : (c.g.slot == 0) = false := by simp [hg]
  simp [launchBody, engineReady_of_ready hs ha, isSReg, hslot]

theorem launchBody_of_deepest (hg : c.g.slot = 0) (hd : c.l.depth = 10) :
    launchBody (.s d) (.s a) fb c s = .error (.trap { cause := 0x17 }) := by
  simp [launchBody, engineReady_of_ready hs ha, isSReg, hg, hd, Cause.launchDepth]

variable {s1 s2 : State} (hg : c.g.slot = 0) (hd : c.l.depth ≠ 10)
  (h1 : completeAtOnce c (.launch (.s d) (.s a) fb) s = .ok s1) (h2 : release c false .device s1 = .ok s2)
include hg hd h1 h2

theorem launchBody_of_misaligned (hp : (c.g.readS a.val).toNat % 64 ≠ 0) : launchBody (.s d) (.s a) fb c s =
    .error (.trap { cause := 0x0E, addr := reportAddr (c.who s2).stackBase c.g.stackSlot (c.g.readS a.val).toNat }) := by
  simp [launchBody, engineReady_of_ready hs ha, isSReg, hg, hd, h1, h2, sVal, addrS, hp, Cause.alignment]

/-- The launch proper is made once for both sides of a convoy. -/
theorem launchBody_of_aligned (hp : (c.g.readS a.val).toNat % 64 = 0) : launchBody (.s d) (.s a) fb c s =
    (performOnce c (c.sig (.launch (.s d) (.s a) fb) [(c.g.readS a.val).toNat]) (launchAt c (.launch (.s d) (.s a) fb) (c.g.readS a.val)) s2
      >>= fun r => .ok (r.2.modGroup c.gid fun g => g.writeS d.val (firstVal r.1))) := by
  simp [launchBody, engineReady_of_ready hs ha, isSReg, hg, hd, h1, h2, sVal, addrS, hp]

end

/-! ## The obligation -/

/-- Settles O46: `launchBody` is cut at each of its checks, and the operation that it makes once at what `launchRead` answers. -/
theorem launchesMade : Obligations.LaunchesMade := by
  intro s s1 s2 s3 c d a fb r hi hs ha i p
  refine ⟨fun hg => runInstr_trap hi (launchBody_of_other_group hs ha hg),
    fun hg hd => runInstr_trap hi (launchBody_of_deepest hs ha hg hd), fun hg hd h1 h2 =>
      ⟨fun hp => runInstr_trap hi (launchBody_of_misaligned hs ha hg hd h1 h2 hp), fun hp => ?_⟩⟩
  have hbody := launchBody_of_aligned hs ha hg hd h1 h2 hp
  refine ⟨fun v t hv => runInstr_ok hi (by rw [hbody, hv]; rfl), fun hrec => ?_⟩
  have hread : launchRead c i p s2 = .ok (r, s3) := by
    rcases hrec with ⟨hk, rfl⟩ | ⟨hk, bs, hb, rfl, hok, hp⟩
    · exact launchRead_of_kept hk i p s3
    · exact launchRead_of_read hk hb hok hp
  refine ⟨fun hn => ?_, fun x hx hn => ?_⟩
  · -- the limit of children
    have hwait := launchAt_of_full hread hn
    exact ⟨hwait, fun hsolo => runInstr_wait hi (by rw [hbody, performOnce_of_solo hsolo, hwait]; rfl)⟩
  · -- a child
    intro v child entered
    have henter : launchAt c i p s2 = .ok ([(0, v)], entered) := by
      rw [launchAt_of_room hread hx hn, addChild_eq (by simpa using hx)]
      simp only [State.root_modGroup]
      rfl
    exact ⟨henter, fun hsolo => runInstr_ok hi (by rw [hbody, performOnce_of_solo hsolo, henter]; rfl)⟩

end Sys2Proof.Machine
end

