-- ==== Sys2Proof/Proofs/Mailboxes.lean ====
section
/-! Mailboxes: what BIND, UNBIND and COUNT ask of the device, the firing of a mailbox and the launch of its handler (R94 to R97,
R376). -/
namespace Sys2Proof.Machine

open Sys2Proof.Claims

/-! ## The line of a mailbox (R94, R256) -/

/-- A line that passes a load's checks outside apertures and host-bias pages is where its first byte lies. -/
theorem boxLine_of_device_page {c : Ctx} {p : Word} {s : State} {locs : List Located}
    (hc : checkAccess s (c.who s) .load false [{ lane := 0, ptr := p, len := 128 }] = .ok locs) (hk : (apertureOf (ptrAddr p)).kind = 2)
    (hb : ∀ f, (c.who s).leafOf s .load p.toNat = some f → Leaf.biased s.dev f = false) :
    boxLine c p s = .ok (((locs.head?).map (·.loc)).getD 0) := by
  have hbias : (((c.who s).leafOf s .load p.toNat).map (Leaf.biased s.dev)).getD false = false := by
    cases hf : (c.who s).leafOf s .load p.toNat with
    | none => rfl
    | some f => exact hb f hf
  simp [boxLine, hc, hk, hbias]

section

variable {c : Ctx} {line : Word} {s : State} {phys : Nat} (hl : boxLine c line s = .ok phys)
include hl

theorem namedBox_of_unbound (hn : boundBox s c.l.ctx phys = none) : namedBox c line s = .error (.trap { cause := 0x18 }) := by
  simp [namedBox, hl, hn, Cause.mailboxMisuse]

theorem namedBox_of_bound {b : Nat × Mailbox} (hn : boundBox s c.l.ctx phys = some b) (hp : c.l.prot = false) :
    namedBox c line s = .ok b := by
  simp [namedBox, hl, hn, hp]

end

/-! ## The mailbox that BIND enters (R94, R96) -/

theorem boxFits_of_bound_line {x : Mailbox} {s : State} (h : ∃ e ∈ s.boxes, e.2.bound = true ∧ e.2.phys = x.phys) :
    boxFits x s = false := by
  have hany : (s.boxes.any fun e => e.2.bound && e.2.phys == x.phys) = true := by simpa using h
  simp [boxFits, hany]

theorem boxFits_of_free {x : Mailbox} {s : State} {q : Nat} {g : Region} (hline : ∀ e ∈ s.boxes, e.2.bound = true → e.2.phys ≠ x.phys)
    (hnum : freeNumbers s x.ctx ≠ []) (hrec : launchRecordOk true x.handler = true)
    (hwarm : warmRegion s x.ctx (handlerLaunchOf 0 x) = some q) (hg : s.region? q = some g) (hplace : x.place ∈ g.cores) :
    boxFits x s = true := by
  have hany : (s.boxes.any fun e => e.2.bound && e.2.phys == x.phys) = false := by simpa using hline
  simp [boxFits, hany, hnum, hrec, hwarm, hg, hplace]

theorem enterBox_of_misfit {x : Mailbox} {s : State} (h : boxFits x s = false) (c : Ctx) :
    enterBox c x s = .error (.trap { cause := 0x18 }) := by
  simp [enterBox, h, Cause.mailboxMisuse]

/-- A mailbox that fits takes one of its context's free numbers. -/
theorem enterBox_of_fit {c : Ctx} {x : Mailbox} {s : State} {n : Nat} (h : boxFits x s = true) (hp : c.l.prot = false)
    (hn : (freeNumbers s x.ctx)[Config.freeChoice s.free % (freeNumbers s x.ctx).length]? = some n) :
    enterBox c x s = .ok ([(0, BitVec.ofNat 64 n)],
      { s with free := s.free + 1, boxes := SMap.put s.boxes s.nextId { x with number := n }, nextId := s.nextId + 1 }) := by
  simp [enterBox, h, hp, hn]

/-- BIND whose accesses pass enters the mailbox of the record it reads. -/
theorem bindAsked_eq_enterBox {c : Ctx} {i : Instr} {line rec : Word} {place phys : Nat} {s t : State} {bs : List Byte} {locs : List Located}
    (ha : rec.toNat % 64 = 0) (hc : checkAccess s (c.who s) .load false [{ lane := 0, ptr := line, len := 128 }] = .ok locs)
    (hr : readStructIf false c i .i rec 128 s = .ok (bs, t)) (hl : boxLine c line t = .ok phys) :
    bindAsked c i line rec place s = enterBox c (newBox c line place phys (recordOf bs) t) t := by
  have haligned : boxAligned c rec 64 s = .ok () := if_neg (not_not.2 ha)
  unfold bindAsked bindAt
  rw [haligned, Res.ok_bind, hc, Res.ok_bind, hr, Res.ok_bind]
  dsimp only
  rw [hl, Res.ok_bind]

/-! ## MBOX -/

section

variable {c : Ctx} {s : State} {i : Instr} {d a : Fin 64} {perform : Ctx → Word → Word → State → Res (List (Nat × Word) × State)}
  (hi : Issues s c) (hs : c.g.sup = false) (hq : acquirePending s c.gid = false) (ha : a.val % 2 = 0)
  (hl : (c.g.readS a.val).toNat % 128 = 0)
include hs hq ha hl

/-- The instruction's operation is made once for both sides of a convoy, and its first value goes to the destination. -/
theorem mboxBody_eq : mboxBody i (.s d) (.s a) perform c s =
    (performOnce c (c.sig i [(c.g.readS a.val).toNat, (c.g.readS (a.val + 1)).toNat])
      (perform c (c.g.readS a.val) (c.g.readS (a.val + 1))) s
      >>= fun r => .ok (r.2.modGroup c.gid fun g => g.writeS d.val (firstVal r.1))) := by
  simp [mboxBody, engineReady_of_ready hs hq, ha, boxAligned, hl]

include hi

theorem runInstr_mboxBody_of_performed {v : List (Nat × Word)} {t : State}
    (h : performOnce c (c.sig i [(c.g.readS a.val).toNat, (c.g.readS (a.val + 1)).toNat])
      (perform c (c.g.readS a.val) (c.g.readS (a.val + 1))) s = .ok (v, t)) :
    runInstr (mboxBody i (.s d) (.s a) perform) s = .next (c.done (t.modGroup c.gid fun g => g.writeS d.val (firstVal v))) :=
  runInstr_ok hi (by rw [mboxBody_eq hs hq ha hl, h]; rfl)

variable (hsolo : c.t.side = .solo)
include hsolo

theorem runInstr_mboxBody_of_trap {x : Trap} (h : perform c (c.g.readS a.val) (c.g.readS (a.val + 1)) s = .error (.trap x)) :
    runInstr (mboxBody i (.s d) (.s a) perform) s = .next (c.takeTrap x (c.settled s)) :=
  runInstr_trap hi (by rw [mboxBody_eq hs hq ha hl, performOnce_of_solo hsolo, h]; rfl)

theorem runInstr_mboxBody_of_answer {v : Word} {t : State}
    (h : perform c (c.g.readS a.val) (c.g.readS (a.val + 1)) s = .ok ([(0, v)], t)) :
    runInstr (mboxBody i (.s d) (.s a) perform) s = .next (c.done ((assayLog c
      (c.sig i [(c.g.readS a.val).toNat, (c.g.readS (a.val + 1)).toNat]) [(0, v)] t).modGroup c.gid fun g => g.writeS d.val v)) :=
  runInstr_ok hi (by rw [mboxBody_eq hs hq ha hl, performOnce_of_solo hsolo, h]; rfl)

end

theorem exec_mboxCount (d a : Spec) (place : BitVec 12) (s : State) :
    exec (.mboxCount d a place) s = runInstr (mboxBody (.mboxCount d a place) d a fun c line _ => countAsked c line) s := rfl

theorem exec_mboxBind (d a : Spec) (place : BitVec 12) (s : State) : exec (.mboxBind d a place) s =
    runInstr (mboxBody (.mboxBind d a place) d a fun c line rec => bindAsked c (.mboxBind d a place) line rec place.toNat) s := rfl

/-- UNBIND's operation, which the instruction writes with the choice around the whole state. -/
theorem exec_mboxUnbind (d a : Spec) (place : BitVec 12) (s : State) :
    exec (.mboxUnbind d a place) s = runInstr (mboxBody (.mboxUnbind d a place) d a fun c line _ => unbindAsked c line) s := by
  have hop : (fun (c : Ctx) (line _ : Word) (s : State) => (do
      let (k, x) ← namedBox c line s
      let s := if x.launched = x.total then { s with boxes := SMap.del s.boxes k }
        else { s with boxes := SMap.put s.boxes k { x with bound := false } }
      .ok ([(0, BitVec.ofNat 64 x.total)], s) : Res (List (Nat × Word) × State))) = fun c line _ => unbindAsked c line := by
    funext c line _ s
    unfold unbindAsked
    refine congrArg _ (funext fun b => ?_)
    dsimp only
    split <;> rfl
  exact congrArg (fun f => runInstr (mboxBody (.mboxUnbind d a place) d a f) s) hop

/-! ## Firings and handlers (R94, R95, R97) -/

theorem exec_mailboxFiring (k : Nat) (s : State) : exec (.mailboxFiring k) s = event (mailboxFiring k) s := rfl
theorem exec_handlerLaunch (k : Nat) (s : State) : exec (.handlerLaunch k) s = event (handlerLaunch k) s := rfl

theorem mailboxFiring_of_room {s : State} {k : Nat} {x : Mailbox} (hx : SMap.entry? s.boxes k = some x) (hb : x.bound = true)
    (hr : x.total - x.launched < 65535) : mailboxFiring k s = some (fireBox s k) := by
  simp [mailboxFiring, boxHasRoom, hx, hb, hr]

section

variable {s : State} {k : Nat} {x : Mailbox} (hx : SMap.entry? s.boxes k = some x) (hs : s.dev.stage = 9) (hn : x.launched ≠ x.total)
include hx hs hn

theorem handlerLaunch_of_kept (h : x.bound = true ∨ x.launched + 1 ≠ x.total) : handlerLaunch k s =
    some (acceptLaunch { s with boxes := SMap.put s.boxes k { x with launched := x.launched + 1 } } (handlerLaunchOf k x)) := by
  rcases h with h | h <;> simp [handlerLaunch, hx, hs, hn, h]

/-- The last handler of a mailbox that is no longer bound takes the mailbox with it. -/
theorem handlerLaunch_of_last (hb : x.bound = false) (hl : x.launched + 1 = x.total) : handlerLaunch k s =
    some (acceptLaunch { s with boxes := SMap.del s.boxes k } (handlerLaunchOf k x)) := by
  simp [handlerLaunch, hx, hs, hn, hb, hl]

end

/-! ## The obligation -/

/-- Settles O47: an MBOX is the operation that `mboxBody` makes once, which is `namedBox` or `enterBox` where the line's checks pass. -/
theorem mailboxesServe : Obligations.MailboxesServe := by
  refine ⟨?_, fun s k x hx => ⟨fun hb hr => ?_, fun hst hn h => ?_, fun hst hn hb hlast => ?_⟩⟩
  · intro s c d a place locs hi hs hq ha line rec_ hl
    refine ⟨?_, fun hsolo hc hk hb => ?_⟩
    · -- both sides of a convoy
      intro v t asked
      refine ⟨fun h => ?_, fun h => ?_, fun h => ?_⟩
      · exact (exec_mboxUnbind _ _ _ s).trans (runInstr_mboxBody_of_performed hi hs hq ha hl h)
      · exact (exec_mboxCount _ _ _ s).trans (runInstr_mboxBody_of_performed hi hs hq ha hl h)
      · exact (exec_mboxBind _ _ _ s).trans (runInstr_mboxBody_of_performed hi hs hq ha hl h)
    · have hline := boxLine_of_device_page hc hk hb
      intro phys answer
      refine ⟨fun hn i hin => ?_, fun k x hn hp => ⟨?_, ?_⟩, fun bs s1 locs' hr64 hr hc' hb' => ?_⟩
      · -- a line that names no mailbox
        have hnone := namedBox_of_unbound hline hn
        simp only [List.mem_cons, List.not_mem_nil, or_false] at hin
        rcases hin with rfl | rfl
        · exact (exec_mboxUnbind _ _ _ s).trans (runInstr_mboxBody_of_trap hi hs hq ha hl hsolo (by rw [unbindAsked, hnone]; rfl))
        · exact (exec_mboxCount _ _ _ s).trans (runInstr_mboxBody_of_trap hi hs hq ha hl hsolo (by rw [countAsked, hnone]; rfl))
      · -- a bound mailbox
        exact (exec_mboxCount _ _ _ s).trans (runInstr_mboxBody_of_answer hi hs hq ha hl hsolo
          (by rw [countAsked, namedBox_of_bound hline hn hp]; rfl))
      · exact (exec_mboxUnbind _ _ _ s).trans (runInstr_mboxBody_of_answer hi hs hq ha hl hsolo
          (by rw [unbindAsked, namedBox_of_bound hline hn hp]; rfl))
      · -- BIND, whose record has been read
        have hbind := bindAsked_eq_enterBox (place := place.toNat) hr64 hc hr (boxLine_of_device_page hc' hk hb')
        refine ⟨fun hbound => ?_, fun q g hfree hnum hrec hwarm hg hplace hp n hn => ?_⟩
        · exact (exec_mboxBind _ _ _ s).trans (runInstr_mboxBody_of_trap hi hs hq ha hl hsolo
            (hbind.trans (enterBox_of_misfit (boxFits_of_bound_line hbound) c)))
        · exact (exec_mboxBind _ _ _ s).trans (runInstr_mboxBody_of_answer hi hs hq ha hl hsolo
            (hbind.trans (enterBox_of_fit (boxFits_of_free hfree hnum hrec hwarm hg hplace) hp hn)))
  · -- firings
    exact (exec_mailboxFiring k s).trans (event_some (mailboxFiring_of_room hx hb hr))
  · exact (exec_handlerLaunch k s).trans (event_some (handlerLaunch_of_kept hx hst hn h))
  · exact (exec_handlerLaunch k s).trans (event_some (handlerLaunch_of_last hx hst hn hb hlast))

end Sys2Proof.Machine
end

