-- ==== Sys2Proof/Proofs/Dispatching.lean ====
section
/-! The dispatch of teams: what TEAM_DISPATCH does with a launch in each state it may be in, the core it takes, and the group that
a team is loaded with (R44, R83 to R88, R99, R104, R115, R227, R355). -/
namespace Sys2Proof.Machine

/-! ## The core of a team (R104) -/

theorem mem_of_choose_eq_some {ps : List Nat} {k p : Nat} (h : choose ps k = some p) : p ∈ ps := by
  unfold choose at h
  split at h
  · cases h
  · exact List.mem_of_getElem? h

/-- Of some cores one without a team is taken, unless each of them has teams. -/
theorem of_mem_freeFirst {s : State} {ps : List Nat} {p : Nat} (h : p ∈ freeFirst s ps) :
    p ∈ ps ∧ (teamsOn s p = [] ∨ ∀ q ∈ ps, teamsOn s q ≠ []) := by
  unfold freeFirst at h
  dsimp only at h
  split at h
  case isTrue hnone =>
    rw [List.isEmpty_iff, List.filter_eq_nil_iff] at hnone
    exact ⟨h, .inr fun q hq => by simpa using hnone q hq⟩
  case isFalse =>
    obtain ⟨hp, hfree⟩ := List.mem_filter.1 h
    exact ⟨hp, .inl (List.isEmpty_iff.1 hfree)⟩

/-- The core of a team, the mailbox's place or a chosen one, is one of those taken first. -/
theorem mem_freeFirst_of_coreFor {s : State} {l : Launch} {r : Region} {n p : Nat} (h : coreFor s l r n = some p) :
    p ∈ freeFirst s (fitting s r.cores l.need) := by
  unfold coreFor at h
  dsimp only at h
  split at h
  case h_1 q hq =>
    split at h
    case isTrue hin =>
      cases h
      simp only [Bool.and_eq_true, List.contains_iff_mem] at hin
      exact hin.1
    case isFalse => exact mem_of_choose_eq_some h
  case h_2 => exact mem_of_choose_eq_some h

theorem coreFor_spec {s : State} {l : Launch} {r : Region} {n p : Nat} (h : coreFor s l r n = some p) :
    p ∈ r.cores ∧ (teamsOn s p = [] ∨ ∀ q ∈ fitting s r.cores l.need, teamsOn s q ≠ []) := by
  obtain ⟨hp, hteams⟩ := of_mem_freeFirst (mem_freeFirst_of_coreFor h)
  exact ⟨List.mem_of_mem_filter hp, hteams⟩

/-! ## A team that is placed (R99, R227) -/

section Place

variable {s : State} {lid n p : Nat} {l : Launch} {r : Region} (hp : coreFor s l r n = some p) (hc : l.convoy = false)
include hp hc

/-- A team without stack slots for its groups is not placed. -/
theorem placeTeam_of_few_slots (hk : (lowestFree (stackUsed s l.ctx) (ctxStackSlots (ctxEntry s l.ctx)) l.groups).length < l.groups) :
    placeTeam s lid l r n = none := by
  simp [placeTeam, hp, hc, hk]

/-- A team that the assayer does not sample is loaded on its core. -/
theorem placeTeam_of_slots {segs : List Nat} (hf : fits s p l.need = some segs)
    (hk : (lowestFree (stackUsed s l.ctx) (ctxStackSlots (ctxEntry s l.ctx)) l.groups).length = l.groups)
    (hs : samples s.dev l n = false) :
    placeTeam s lid l r n = some (loadTeam (s.modLaunch lid fun y => { y with dispatched := n :: y.dispatched, ran := true }) lid l r
      (newTeam l r n p segs) (lowestFree (stackUsed s l.ctx) (ctxStackSlots (ctxEntry s l.ctx)) l.groups)) := by
  have hsampled : { newTeam l r n p segs with sampled := false } = newTeam l r n p segs := rfl
  simp only [placeTeam, hp, hf, hc, hs, hk, hsampled, Option.bind_eq_bind, Option.bind_some, Option.pure_def, Bool.false_eq_true,
    if_false, Bool.not_false, if_true, Nat.mul_one, Nat.lt_irrefl]

end Place

/-! ## A launch whose tables are read (R77, R86, R104) -/

theorem dispatchReady_of_unplaceable {s : State} {l : Launch} {r : Region} (lid : Nat) (hd : l.dispatched = [])
    (hp : placeable s l r = false) : dispatchReady s lid l r = some (fixStatus s lid 0x05) := by
  simp [dispatchReady, hd, hp]

section Ready

variable {s : State} {lid : Nat} {l : Launch} {r : Region} (hp : l.dispatched ≠ [] ∨ placeable s l r = true)
  (hs : snapshotHeld s lid l = false)
include hp hs

theorem dispatchReady_of_failed (h : readyTeam s l = .failed) :
    dispatchReady s lid l r = some (s.modLaunch lid fun y => { y with depFailed := true }) := by
  rcases hp with hp | hp <;> simp [dispatchReady, hp, hs, h]

theorem dispatchReady_of_none (h : readyTeam s l = .none) : dispatchReady s lid l r = none := by
  rcases hp with hp | hp <;> simp [dispatchReady, hp, hs, h]

theorem dispatchReady_of_team {n : Nat} (h : readyTeam s l = .team n) : dispatchReady s lid l r = placeTeam s lid l r n := by
  rcases hp with hp | hp <;> simp [dispatchReady, hp, hs, h]

end Ready

/-! ## TEAM_DISPATCH (R83 to R88) -/

/-- A launch whose context is valid until its first team goes passes the check of the entry. -/
theorem contextPasses {s : State} {l : Launch} (hc : l.dispatched = [] → ctxValid s (ctxEntry s l.ctx) = true) :
    ¬(l.dispatched = [] ∧ ctxValid s (ctxEntry s l.ctx) = false) := fun h => by simp [hc h.1] at h

section Dispatch

variable {s : State} {lid : Nat} {l : Launch} (hl : s.launch? lid = some l) (hd : mayDispatch s lid l = true)
include hl hd

/-- A launch of a context whose entry is invalid runs no team. -/
theorem teamDispatch_of_invalid_context (hn : l.dispatched = []) (ht : l.tablesRead = false ∨ l.teams ≠ 0)
    (hc : ctxValid s (ctxEntry s l.ctx) = false) : teamDispatch lid s = some (fixStatus s lid 0x04) := by
  have hleft : ¬(l.tablesRead = true ∧ 0 = l.teams) := by
    rintro ⟨hread, hteams⟩
    rcases ht with ht | ht
    · rw [ht] at hread; cases hread
    · exact ht hteams.symm
  simp [teamDispatch, hl, hd, hn, hc, hleft]

variable {k : Nat} {r : Region} (hk : l.region.or (warmRegion s l.ctx l) = some k) (hr : s.region? k = some r)
  (hc : l.dispatched = [] → ctxValid s (ctxEntry s l.ctx) = true)
include hk hr hc

theorem teamDispatch_of_invalid_tables (ht : l.tablesRead = false) (hn : readTables s l r = none) :
    teamDispatch lid s = some (fixStatus s lid 0x03) := by
  simp [teamDispatch, hl, hd, ht, contextPasses hc, hk, hr, hn]

theorem teamDispatch_of_tables {l' : Launch} (ht : l.tablesRead = false) (hn : readTables s l r = some l') :
    teamDispatch lid s = some ((dispatchReady (s.setLaunch lid { l' with region := some k }) lid { l' with region := some k } r).getD
      (s.setLaunch lid { l' with region := some k })) := by
  simp [teamDispatch, hl, hd, ht, contextPasses hc, hk, hr, hn]

theorem teamDispatch_of_read (ht : l.tablesRead = true) (hm : l.dispatched.length ≠ l.teams) :
    teamDispatch lid s = dispatchReady (s.setLaunch lid { l with region := some k }) lid { l with region := some k } r := by
  simp [teamDispatch, hl, hd, ht, hm, contextPasses hc, hk, hr]

end Dispatch

theorem exec_teamDispatch (lid : Nat) (s : State) : exec (.teamDispatch lid) s = event (teamDispatch lid) s := rfl

/-! ## The group that is loaded (R44, R115, R355) -/

/-- s0 holds the argument pointer of a launch that no mailbox fired. -/
theorem loadGroup_s0 {l : Launch} (ho : ∀ b n line, l.origin ≠ .mailbox b n line) (r : Region) (team j stack core tick : Nat) :
    SMap.get 0 (loadGroup l r team j stack core tick).sregs 0 = l.argument := by
  unfold loadGroup
  dsimp only
  split
  case h_1 b n line hm => exact absurd hm (ho b n line)
  case h_2 => exact SMap.get_set_self _ _ _ _

/-- Without a register image the special registers have the Reset column of R355. -/
theorem loadGroup_of_no_image {l : Launch} {r : Region} (hi : r.images = []) (team j stack core tick : Nat) :
    (loadGroup l r team j stack core tick).handler = 0 ∧ (loadGroup l r team j stack core tick).linkFenceLim = 4000000 ∧
      ∀ n, n < 4 → ((loadGroup l r team j stack core tick).port n).bind = 0xC000000000000000 := by
  have him : (r.images[min j (r.images.length - 1)]?).getD defaultImage = defaultImage := by rw [hi]; rfl
  have hports : ∀ n < 4, (SMap.get {} ((List.range 4).foldl (fun m i =>
      SMap.set {} m i { bind := Port.named ((defaultImage.specials[16 + i]?).getD 0) }) []) n : TxPort).bind = 0xC000000000000000 := by decide
  unfold loadGroup Group.port
  simp only [him]
  exact ⟨rfl, rfl, hports⟩

/-! ## The obligation -/

/-- Settles O54: each clause is what `teamDispatch` answers in the states of that clause, by way of `dispatchReady` and `placeTeam`. -/
theorem teamsDispatched : Obligations.TeamsDispatched := by
  refine ⟨fun s lid k l r hl hd => ⟨fun hn ht hc => ?_, fun hk hr hc => ⟨fun ht hn => ?_, fun l' ht hn => ?_, fun ht hm =>
      ⟨fun hn hp => ?_, fun hp hs => ⟨fun h => ?_, fun h => ?_, fun n p segs h hcore hf hcv hsam =>
        ⟨(coreFor_spec hcore).1, (coreFor_spec hcore).2, fun hfew => ?_, fun hall => ?_⟩⟩⟩⟩⟩,
    fun l r team j stack core tick ho => ⟨rfl, rfl, rfl, rfl, rfl, rfl, rfl, rfl, rfl, rfl, rfl, loadGroup_s0 ho r team j stack core tick,
      rfl, rfl, fun hi => loadGroup_of_no_image hi team j stack core tick⟩⟩
  all_goals rw [exec_teamDispatch]
  · exact event_some (teamDispatch_of_invalid_context hl hd hn ht hc)
  · -- the tables
    exact event_some (teamDispatch_of_invalid_tables hl hd hk hr hc ht hn)
  · exact event_some (teamDispatch_of_tables hl hd hk hr hc ht hn)
  · -- a launch with its tables read
    exact event_some ((teamDispatch_of_read hl hd hk hr hc ht hm).trans (dispatchReady_of_unplaceable lid hn hp))
  · exact event_some ((teamDispatch_of_read hl hd hk hr hc ht hm).trans (dispatchReady_of_failed hp hs h))
  · exact event_none ((teamDispatch_of_read hl hd hk hr hc ht hm).trans (dispatchReady_of_none hp hs h))
  · -- a ready team
    exact event_none (((teamDispatch_of_read hl hd hk hr hc ht hm).trans (dispatchReady_of_team hp hs h)).trans
      (placeTeam_of_few_slots hcore hcv hfew))
  · exact event_some (((teamDispatch_of_read hl hd hk hr hc ht hm).trans (dispatchReady_of_team hp hs h)).trans
      (placeTeam_of_slots hcore hcv hf hall hsam))

end Sys2Proof.Machine
end

