-- ==== Sys2Proof/Proofs/Power.lean ====
section
/-! Bring-up over a launch that is in the table (R80, R402, R415): its stage 8 discards the launch's run. -/
namespace Sys2Proof.Machine

/-! ## What the stages before stage 8 change -/

/-- Two states that differ in the registers of the edge, the log and the free values taken alone. -/
def State.SameButEdge (s t : State) : Prop := { t with dev := s.dev, log := s.log, free := s.free } = s

namespace State.SameButEdge

variable {s t u : State}

theorem eq (h : s.SameButEdge t) : { t with dev := s.dev, log := s.log, free := s.free } = s := h

theorem trans (h : s.SameButEdge t) (h' : t.SameButEdge u) : s.SameButEdge u :=
  ((congrArg (fun x : State => { x with dev := s.dev, log := s.log, free := s.free }) h'.eq :) :
    _ = { t with dev := s.dev, log := s.log, free := s.free }).trans h.eq

end State.SameButEdge

theorem trainHost_sameButEdge (s : State) : s.SameButEdge (trainHost s) := rfl

theorem trainLinks_sameButEdge (s : State) : s.SameButEdge (trainLinks s) := by
  refine State.SameButEdge.trans ?_ (trainHost_sameButEdge _)
  refine List.foldlRecOn (motive := s.SameButEdge) (List.range 12) _ rfl fun t ht k _ => ht.trans ?_
  split <;> rfl

theorem writeLog_sameButEdge (s : State) (x : Report) : s.SameButEdge (writeLog s x) := by
  unfold writeLog
  dsimp only
  split <;> rfl

theorem openLog_sameButEdge (first : Report) (measure : Bool) (s : State) : s.SameButEdge (openLog first measure s) := by
  unfold openLog reopenLog
  dsimp only
  split
  · exact (State.SameButEdge.trans (t := _) (by exact rfl) (writeLog_sameButEdge _ first)).trans rfl
  · rfl

theorem stageEffect_sameButEdge (first : Report) (measure : Bool) {k : Nat} (hk : k ≠ 8) (s : State) :
    s.SameButEdge (stageEffect first measure k s) := by
  unfold stageEffect
  split
  · split <;> rfl
  · rfl
  · exact trainLinks_sameButEdge s
  · exact openLog_sameButEdge first measure s
  · exact absurd rfl hk
  · rfl

/-! ## A launch whose run was cut -/

/-- The launch alone is in the table, a root without children and without replay protection; no engine, page work or warm slot is left. -/
structure CutRun (s : State) (lid : Nat) (l : Launch) : Prop where
  launches : s.launches = [(lid, l)]
  root : ∀ a b, l.origin ≠ .child a b
  childless : l.children = []
  unprotected : l.prot = false
  ops : s.ops = []
  warm : s.warm = []
  flip : s.fab.flip = none
  move : s.fab.move = none

theorem CutRun.of_sameButEdge {s t : State} {lid : Nat} {l : Launch} (h : CutRun s lid l) (ht : s.SameButEdge t) : CutRun t lid l where
  launches := (congrArg State.launches ht.eq :).trans h.launches
  root := h.root
  childless := h.childless
  unprotected := h.unprotected
  ops := (congrArg State.ops ht.eq :).trans h.ops
  warm := (congrArg State.warm ht.eq :).trans h.warm
  flip := (congrArg (·.fab.flip) ht.eq :).trans h.flip
  move := (congrArg (·.fab.move) ht.eq :).trans h.move

/-! ## Stage 8 (R80, R81, R415) -/

theorem stopEngines_of_no_ops {s : State} (h : s.ops = []) (gids : List Nat) (all : Bool) : stopEngines s gids all = s := by
  simp [stopEngines, haltEngines, dropEngines, h]

/-- Where no operation is in flight, discarding a launch's run takes its teams and leaves warm slots and page engines alone. -/
theorem discardRun_of_no_ops {s : State} (h : s.ops = []) (lid : Nat) :
    (discardRun s lid).teams = s.teams.filter (fun e => e.2.launch != lid) ∧ (discardRun s lid).warm = s.warm ∧
      (discardRun s lid).fab = s.fab := by
  have hstop : ∀ gs gids all, stopEngines (noteIssued s lid gs) gids all = noteIssued s lid gs := fun _ => stopEngines_of_no_ops h
  unfold discardRun
  dsimp only
  rw [hstop]
  exact ⟨rfl, rfl, rfl⟩

theorem runSome_of_none {f : State → Option State} {s : State} (h : f s = none) (n : Nat) : runSome f n s = s := by
  cases n with
  | zero => rfl
  | succ n => simp only [runSome, h]

theorem finishPageWork_of_idle {s : State} (hf : s.fab.flip = none) (hm : s.fab.move = none) : finishPageWork s = s := by
  have hcopy : migrationLineCopy s = none := by simp [migrationLineCopy, hm]
  have hcomplete : migrationComplete s = none := by simp [migrationComplete, hm]
  have hflip : biasFlipComplete s = none := by simp [biasFlipComplete, hf]
  simp [finishPageWork, runSome_of_none hcopy, runSome_of_none hcomplete, runSome_of_none hflip, hf]

section

variable {s : State} {lid : Nat} {l : Launch} (h : CutRun s lid l)
include h

theorem CutRun.launch? : s.launch? lid = some l := by simp [State.launch?, h.launches, SMap.entry?]

theorem CutRun.tree : s.tree lid = [lid] := by simp [State.tree, treeOf, h.launch?, h.childless]

theorem CutRun.roots : roots s = [(lid, l)] := by
  unfold Machine.roots
  rw [h.launches, List.filter_cons_of_pos]
  · rfl
  · split
    case h_1 a b ho => exact absurd ho (h.root a b)
    case h_2 => rfl

theorem CutRun.settleAtReset : (settleAtReset s lid).teams = s.teams.filter (fun e => e.2.launch != lid) ∧
    (settleAtReset s lid).warm = [] ∧ (settleAtReset s lid).fab.flip = none ∧ (settleAtReset s lid).fab.move = none := by
  obtain ⟨hteams, hwarm, hfab⟩ := discardRun_of_no_ops (s := foldFpstat s lid (groupsOf s lid)) h.ops lid
  have hmove := (congrArg Fabric.move hfab).trans h.move
  have hflip := (congrArg Fabric.flip hfab).trans h.flip
  simp only [Machine.settleAtReset, h.launch?, h.unprotected, Bool.false_and, Bool.false_eq_true, if_false, h.tree, List.foldl_cons, List.foldl_nil]
  split <;> exact ⟨hteams, hwarm.trans h.warm, hflip, hmove⟩

theorem CutRun.stage8_teams (first : Report) (measure : Bool) :
    (stageEffect first measure 8 s).teams = s.teams.filter (fun e => e.2.launch != lid) := by
  obtain ⟨hteams, hwarm, hflip, hmove⟩ := h.settleAtReset
  have hrestage : restageAll (Machine.settleAtReset s lid) = Machine.settleAtReset s lid := by simp [restageAll, hwarm]
  simp only [stageEffect, h.roots, List.foldl_cons, List.foldl_nil, finishPageWork_of_idle hflip hmove, hrestage, hteams]

end

/-! ## The stages in turn (R402) -/

/-- A bring-up that gets ready from stage k on has run that stage. -/
theorem stages_of_ready {first : Report} {measure : Bool} {n k : Nat} {s : State} (hk : k < 9)
    (hr : (stages first measure (n + 1) k s).dev.stage = 9) : stages first measure (n + 1) k s =
      stages first measure n (k + 1) (stageEffect first measure k (s.setDev { s.dev with stage := BitVec.ofNat 4 k })) := by
  rw [stages] at hr ⊢
  split at hr
  case isTrue hfails =>
    have hstage : BitVec.ofNat 4 k = 9 := hr
    exact absurd hstage (by interval_cases k <;> decide)
  case isFalse hpasses => rw [if_neg hpasses]

/-- A bring-up that gets ready leaves no team of a launch whose run was cut. -/
theorem CutRun.teams_of_ready {first : Report} {measure : Bool} {lid : Nat} {l : Launch} : ∀ {n k : Nat} {s : State}, k + n = 9 → k ≤ 8 →
    CutRun s lid l → (stages first measure (n + 1) k s).dev.stage = 9 →
      (stages first measure (n + 1) k s).teams = s.teams.filter fun e => e.2.launch != lid := by
  intro n
  induction n with
  | zero => intros; omega
  | succ n ih =>
    intro k s hn hk h hr
    have hset : s.SameButEdge (s.setDev { s.dev with stage := BitVec.ofNat 4 k }) := rfl
    have hrun := stages_of_ready (Nat.lt_succ_of_le hk) hr
    rw [hrun] at hr ⊢
    by_cases h8 : k = 8
    · subst h8
      obtain rfl : n = 0 := by omega
      refine Eq.trans ?_ ((h.of_sameButEdge hset).stage8_teams first measure)
      simp only [stages]
      split <;> rfl
    · have heff := hset.trans (stageEffect_sameButEdge first measure h8 _)
      refine (ih (by omega) (by omega) (h.of_sameButEdge heff) hr).trans ?_
      rw [show (stageEffect first measure k _).teams = s.teams from (congrArg State.teams heff.eq :)]

/-- POWER_ON that gets ready takes the teams of a launch whose run was cut. -/
theorem CutRun.powerOn_teams {s t : State} {lid : Nat} {l : Launch} (h : CutRun s lid l) (hp : s.dev.powered = false)
    (hx : exec .powerOn s = .next t) (hr : t.dev.stage = 9) : t.teams = s.teams.filter fun e => e.2.launch != lid := by
  have hstage : ∀ d n, (raiseCause d n).stage = d.stage := fun d n => by unfold raiseCause; split <;> rfl
  have hon : exec .powerOn s = .next (bringUp _ true _) := event_some (by rw [powerOn, hp]; rfl)
  cases hx.symm.trans hon
  exact CutRun.teams_of_ready (by rfl) (by decide) (h.of_sameButEdge rfl) ((hstage _ _).symm.trans hr)

/-! ## What `PowerCycles` asks of such a state -/

/-- `PowerCycles` (O60) asks that POWER_ON keep the teams of every state without power, whatever its launches. It therefore holds only of
a device that never gets ready over a launch whose run was cut; whether a stage of bring-up fails is opaque (log entry 17). -/
theorem powerOn_not_ready_of_powerCycles (ho : Obligations.PowerCycles) {s t : State} {lid : Nat} {l : Launch} (h : CutRun s lid l)
    (hp : s.dev.powered = false) (ht : ∃ e ∈ s.teams, e.2.launch = lid) (hx : exec .powerOn s = .next t) : t.dev.stage ≠ 9 := by
  intro hr
  obtain ⟨u, hu, -, hkept, -⟩ := (ho.1 s).1 hp
  cases hx.symm.trans hu
  obtain ⟨e, he, hlid⟩ := ht
  rw [← hkept, h.powerOn_teams hp hx hr, List.mem_filter] at he
  simp [hlid] at he

/-- A queue's launch that has run, and the state without power in which one team of it is left. -/
def ranLaunch : Launch := { record := 0, origin := .queue, queue := 0, seq := 0, ctx := 0, prio := 0, ran := true }

def leftoverTeam : State :=
  { State.reset with
    launches := [(1, ranLaunch)],
    teams := [(2, { launch := 1, index := 0, place := 0, logical := 0, spadSize := 0, nslots := 0, ntiles := 0 })] }

/-- The theorem's hypotheses on the state are met by `leftoverTeam`. -/
theorem leftoverTeam_cutRun : CutRun leftoverTeam 1 ranLaunch ∧ leftoverTeam.dev.powered = false ∧ ∃ e ∈ leftoverTeam.teams, e.2.launch = 1 :=
  ⟨⟨rfl, fun _ _ h => Origin.noConfusion h, rfl, rfl, rfl, rfl, rfl, rfl⟩, rfl, _, List.mem_singleton_self _, rfl⟩

end Sys2Proof.Machine
end

