-- ==== Sys2Proof/Proofs/Losses.lean ====
section
/-! Lost parts and the return of the host port (R80, R371, R415): what becomes of the launches in flight changes no register of the
edge, and a lost reticle keeps no team. -/
namespace Sys2Proof.Machine

/-! ## What the end or the replay of a run changes -/

/-- Two states that differ by what ends or replays runs of launches alone. -/
def State.SameButRuns (s t : State) : Prop :=
  { t with launches := s.launches, teams := s.teams, groups := s.groups, ops := s.ops, saved := s.saved, mem := s.mem, fab := s.fab,
           flits := s.flits, assay := s.assay, convoys := s.convoys, log := s.log, free := s.free } = s

namespace State.SameButRuns

variable {s t u : State}

theorem rfl' (s : State) : s.SameButRuns s := rfl

theorem eq (h : s.SameButRuns t) :
    { t with launches := s.launches, teams := s.teams, groups := s.groups, ops := s.ops, saved := s.saved, mem := s.mem, fab := s.fab,
             flits := s.flits, assay := s.assay, convoys := s.convoys, log := s.log, free := s.free } = s := h

theorem trans (h : s.SameButRuns t) (h' : t.SameButRuns u) : s.SameButRuns u :=
  ((congrArg (fun x : State => { x with
      launches := s.launches, teams := s.teams, groups := s.groups, ops := s.ops, saved := s.saved, mem := s.mem, fab := s.fab,
      flits := s.flits, assay := s.assay, convoys := s.convoys, log := s.log, free := s.free }) h'.eq :) :
    _ = { t with launches := s.launches, teams := s.teams, groups := s.groups, ops := s.ops, saved := s.saved, mem := s.mem, fab := s.fab,
                 flits := s.flits, assay := s.assay, convoys := s.convoys, log := s.log, free := s.free }).trans h.eq

theorem foldl {α : Type} {f : State → α → State} (hf : ∀ (s : State) (a : α), s.SameButRuns (f s a)) (l : List α) (s : State) :
    s.SameButRuns (l.foldl f s) :=
  List.foldlRecOn (motive := s.SameButRuns) l f (rfl' s) fun _ h a _ => h.trans (hf _ a)

theorem ofEngines (h : s.SameButEngines t) : s.SameButRuns t :=
  (congrArg (fun x : State => { x with
    launches := s.launches, groups := s.groups, saved := s.saved, flits := s.flits, assay := s.assay, convoys := s.convoys, log := s.log }) h.eq :)

/-- A root that is as it was accepted, alone of its tree, with the record of its roll-back. -/
theorem then_restart (h : s.SameButRuns t) (launches : SMap Launch) (r : Report) (k : Nat) (l : Launch) :
    s.SameButRuns ((State.report { t with launches } r).setLaunch k l) := h.trans rfl

theorem dev (h : s.SameButRuns t) : t.dev = s.dev := (congrArg State.dev h.eq :)
theorem boxes (h : s.SameButRuns t) : t.boxes = s.boxes := (congrArg State.boxes h.eq :)
theorem warm (h : s.SameButRuns t) : t.warm = s.warm := (congrArg State.warm h.eq :)

end State.SameButRuns

theorem stopEngines_sameButRuns (s : State) (gids : List Nat) (all : Bool) : s.SameButRuns (stopEngines s gids all) :=
  .ofEngines (sameButEngines_engineRel.stopEngines s gids all)

theorem discardRun_sameButRuns (s : State) (lid : Nat) : s.SameButRuns (discardRun s lid) :=
  State.SameButRuns.trans (t := noteIssued s lid _) rfl ((stopEngines_sameButRuns _ _ true).trans rfl)

theorem putPage_sameButRuns (s : State) (ctx : BitVec 16) (page : Nat) (parts : List (Nat × Nat)) (bytes : List (Nat × Byte))
    (tags : List (Nat × BitVec 12)) : s.SameButRuns (putPage s ctx page parts bytes tags) :=
  .ofEngines (.ofStore (putPage_sameButStore s ctx page parts bytes tags))

theorem rollback_sameButRuns {lid : Nat} {s t : State} (h : rollback lid s = some t) : s.SameButRuns t := by
  simp only [rollback, Option.bind_eq_bind, Option.bind_eq_some_iff, Option.pure_def] at h
  obtain ⟨l, -, h⟩ := h
  split at h
  · cases h
  · split at h
    · cases h
      refine State.SameButRuns.foldl (fun s k => ?_) _ s
      exact State.SameButRuns.rfl' s
    · cases h
      refine State.SameButRuns.then_restart ?_ _ _ _ _
      refine State.SameButRuns.trans ?_ (State.SameButRuns.foldl (fun s e => ?_) _ _)
      · refine State.SameButRuns.trans (State.SameButRuns.foldl discardRun_sameButRuns _ s) (State.SameButRuns.foldl (fun s x => ?_) _ _)
        split
        · exact putPage_sameButRuns _ _ _ _ _ _
        · exact State.SameButRuns.rfl' s
      · split
        · exact putPage_sameButRuns _ _ _ _ _ _
        · exact State.SameButRuns.rfl' s

theorem getD_rollback_sameButRuns (lid : Nat) (s : State) : s.SameButRuns ((rollback lid (s.requestRollback lid)).getD s) := by
  cases h : rollback lid (s.requestRollback lid) with
  | none => exact State.SameButRuns.rfl' s
  | some t => exact State.SameButRuns.trans (t := s.requestRollback lid) rfl (rollback_sameButRuns h)

theorem savedOnPart_sameButRuns (p : Part) (x : SavedTeam) (s : State) : s.SameButRuns (savedOnPart p x s).2 := by
  unfold savedOnPart
  split <;> rfl

theorem settleAtLoss_sameButRuns (p : Part) (s : State) (root : Nat) : s.SameButRuns (settleAtLoss p s root) := by
  have hsaved (l : List (Nat × SavedTeam)) (b : Bool) (s : State) : s.SameButRuns (l.foldl
      (fun (acc : Bool × State) e => let (b, s) := savedOnPart p e.2 acc.2; (acc.1 || b, s)) (b, s)).2 := by
    refine List.foldlRecOn (motive := fun acc : Bool × State => s.SameButRuns acc.2) l _ (State.SameButRuns.rfl' s) fun acc h e _ =>
      h.trans (savedOnPart_sameButRuns p e.2 acc.2)
  unfold settleAtLoss
  split
  · rfl
  · dsimp only
    split
    · rfl
    · split
      · split
        · exact getD_rollback_sameButRuns root s
        · rfl
      · split
        · refine (hsaved _ _ _).trans (State.SameButRuns.foldl (fun s k => ?_) _ _)
          exact State.SameButRuns.rfl' s
        · exact hsaved _ _ _

theorem dropTeams_sameButRuns (p : Part) (s : State) : s.SameButRuns (dropTeams p s) := by
  refine State.SameButRuns.trans (State.SameButRuns.foldl (fun s e => ?_) _ s) ((stopEngines_sameButRuns _ _ true).trans rfl)
  split <;> rfl

/-! ## A lost reticle (R80, R402) -/

/-- No team is left on a lost reticle. -/
theorem place_of_mem_dropTeams {s : State} {n : Fin 48} {e : Nat × Team} (he : e ∈ (dropTeams (.reticle n) s).teams) :
    e.2.place / 64 ≠ n.val := by
  intro hn
  obtain ⟨hold, hkept⟩ := List.mem_filter.1 he
  obtain ⟨e', he', hk, hshare⟩ := teamsFrom_engineRel.stopEngines _ _ _ e hold
  have hteams : ∀ (l : List (Nat × Group)) (u : State), (l.foldl (fun s e => match s.team? e.2.team with
      | some t => foldFpstat s t.launch [e]
      | none => s) u).teams = u.teams := fun l u =>
    List.foldlRecOn (motive := fun v : State => v.teams = u.teams) l _ rfl fun v h e _ => by split <;> exact h
  replace he' : e' ∈ s.teams := (congrArg (e' ∈ ·) (hteams _ s)).mp he'
  have hon : onReticle (.reticle n) e'.2 = true := by
    rw [onReticle, reticleOf, ← hshare.place, hn]
    exact beq_self_eq_true _
  have hid : e.1 ∈ (s.teams.filter fun e => onReticle (.reticle n) e.2).map (·.1) :=
    List.mem_map.2 ⟨e', List.mem_filter.2 ⟨he', hon⟩, hk⟩
  simp only [Bool.not_eq_true', List.contains_eq_mem, decide_eq_false_iff_not] at hkept
  exact hkept hid

theorem lostReticle_dev (old : Device) (n : Fin 48) (s : State) : (leaveRegions (dropReticle old n s)).dev = s.dev :=
  List.foldlRecOn (motive := fun v : State => v.dev = s.dev) _
    (fun v (x : L1Line) => v.setFab (l1Drop (unsubscribe v x.core x.line).fab x.core x.line)) rfl fun _ h _ _ => h

theorem lostReticle_teams (old : Device) (n : Fin 48) (s : State) : (leaveRegions (dropReticle old n s)).teams = s.teams :=
  List.foldlRecOn (motive := fun v : State => v.teams = s.teams) _
    (fun v (x : L1Line) => v.setFab (l1Drop (unsubscribe v x.core x.line).fab x.core x.line)) rfl fun _ h _ _ => h

/-! ## PART_LOST (R80, R415) -/

theorem lost_raiseCause (d : Device) (n : Nat) : (raiseCause d n).lost = d.lost := by
  unfold raiseCause
  split <;> rfl

theorem irqcause_raiseCause (d : Device) {n : Nat} (hn : n < 4) : (raiseCause d n).irqcause.getLsbD n = true := by
  unfold raiseCause
  split
  · assumption
  · dsimp only
    interval_cases n <;> simp

/-- A state in which a part has just been lost and the launches in flight have been settled. -/
def settledLoss (p : Part) (s : State) : State :=
  let r : Report := { cls := 1, unit := (match p with | .reticle _ => 0 | .stack _ => 5 | .link _ => 6 | .hostPort => 7), cause := 0x13,
                      tag := (match p with | .stack _ => nextTag s | _ => 0), place := partPlace p,
                      cycle := (match p with | .reticle n => s.cycle n.val | _ => 0) }
  let u := (s.report r).setDev (raiseCause { s.dev with lost := p :: s.dev.lost } 2)
  (roots u).foldl (fun s e => settleAtLoss p s e.1) u

theorem settledLoss_dev (p : Part) (s : State) : (settledLoss p s).dev = raiseCause { s.dev with lost := p :: s.dev.lost } 2 := by
  unfold settledLoss
  exact (State.SameButRuns.foldl (fun s (e : Nat × Launch) => settleAtLoss_sameButRuns p s e.1) _ _).dev

theorem partLost_of_powered {p : Part} {s : State} (hp : s.dev.powered = true) (hl : p ∉ s.dev.lost) :
    partLost p s = some (match p with
      | .reticle n => leaveRegions (dropReticle s.dev n (dropTeams p (settledLoss p s)))
      | .stack n => (settledLoss p s).setFab { (settledLoss p s).fab with gone := (n, nextTag s) :: (settledLoss p s).fab.gone }
      | .link n => (settledLoss p s).setDev { (settledLoss p s).dev with links := SMap.set .down (settledLoss p s).dev.links n.val .down }
      | .hostPort => (settledLoss p s).setDev { (settledLoss p s).dev with hostUp := false, jibueg := false }) := by
  have hno : (s.dev.lost.contains p || !s.dev.powered) = false := by simp [hp, hl]
  unfold partLost
  rw [hno]
  cases p <;> rfl

theorem partLost_of_lost {p : Part} {s : State} (h : p ∈ s.dev.lost) : partLost p s = none := by simp [partLost, h]

theorem exec_partLost (p : Part) (s : State) : exec (.partLost p) s = event (partLost p) s := rfl

theorem exec_partLost_of_lost {p : Part} {s : State} (h : p ∈ s.dev.lost) : exec (.partLost p) s = .next s :=
  (exec_partLost p s).trans (event_none (partLost_of_lost h))

/-- What the loss of each part leaves. -/
theorem exec_partLost_of_powered {p : Part} {s : State} (hp : s.dev.powered = true) (hl : p ∉ s.dev.lost) :
    ∃ t, exec (.partLost p) s = .next t ∧ p ∈ t.dev.lost ∧ t.dev.irqcause.getLsbD 2 = true ∧
      (∀ n, p = .link n → SMap.get .down t.dev.links n.val = .down) ∧
      (∀ n, p = .stack n → t.fab.gone.head? = some (n, BitVec.ofNat 12 (s.log.next + s.log.reports.length))) ∧
      (∀ n, p = .reticle n → ∀ e ∈ t.teams, e.2.place / 64 ≠ n.val) ∧
      (p = .hostPort → t.dev.hostUp = false ∧ t.dev.jibueg = false) := by
  have hlost : p ∈ (settledLoss p s).dev.lost := by rw [settledLoss_dev, lost_raiseCause]; exact List.mem_cons_self
  have hirq : (settledLoss p s).dev.irqcause.getLsbD 2 = true := by rw [settledLoss_dev]; exact irqcause_raiseCause _ (by decide)
  refine ⟨_, (exec_partLost p s).trans (event_some (partLost_of_powered hp hl)), ?_⟩
  generalize settledLoss p s = u at hlost hirq
  cases p with
  | reticle n =>
    have hdev := (lostReticle_dev s.dev n (dropTeams (.reticle n) u)).trans (dropTeams_sameButRuns (.reticle n) u).dev
    have hteams := lostReticle_teams s.dev n (dropTeams (.reticle n) u)
    dsimp only
    rw [hdev, hteams]
    refine ⟨hlost, hirq, by simp, by simp, fun m hm e he => ?_, by simp⟩
    cases hm
    exact place_of_mem_dropTeams he
  | stack n => exact ⟨hlost, hirq, by simp, fun m hm => by cases hm; rfl, by simp, by simp⟩
  | link n => exact ⟨hlost, hirq, fun m hm => by cases hm; exact SMap.get_set_self LinkState.down u.dev.links n.val .down, by simp, by simp, by simp⟩
  | hostPort => exact ⟨hlost, hirq, by simp, by simp, by simp, fun _ => ⟨rfl, rfl⟩⟩

/-! ## HOST_PORT_RETURN (R397, R415) -/

theorem exec_hostPortReturn (s : State) : exec .hostPortReturn s = event (fun s =>
    if s.dev.lost.contains .hostPort then some (trainHost (s.setDev { s.dev with lost := s.dev.lost.erase .hostPort })) else none) s := rfl

theorem exec_hostPortReturn_of_lost {s : State} (h : .hostPort ∈ s.dev.lost) (hr : .hostPort ∉ s.dev.lost.erase .hostPort) :
    exec .hostPortReturn s = .next (s.freeBit.2.setDev
      { s.dev with lost := s.dev.lost.erase .hostPort, hostUp := true, jibueg := s.freeBit.1 }) := by
  refine (exec_hostPortReturn s).trans (event_some ?_)
  simp [h, hr, trainHost, State.freeBit, State.setDev]

theorem exec_hostPortReturn_of_present {s : State} (h : .hostPort ∉ s.dev.lost) : exec .hostPortReturn s = .next s :=
  (exec_hostPortReturn s).trans (event_none (by simp [h]))

end Sys2Proof.Machine
end

