-- ==== Sys2Proof/Proofs/PowerStages.lean ====
section
/-! O60 follows where every stage of bring-up fails, and fails where none does: the model leaves open which stages fail (log entry 17). -/
namespace Sys2Proof.Machine

/-! ## Bring-up whose stages fail (R402) -/

/-- The device as it stands at the stage that failed. -/
def haltedAt (k : Nat) (s : State) : State :=
  s.setDev (raiseCause { s.dev with stage := BitVec.ofNat 4 k, failure := BitVec.ofNat 8 k, cycles := [] } 2)

/-- Stage 1 fails, or stage 2 where stage 1 is not run. -/
theorem bringUp_of_stages_fail (h : ∀ k s, stageFailed k s = true) (first : Report) (measure : Bool) (s : State) :
    bringUp first measure s = haltedAt (if measure then 1 else 2) s := by
  cases measure <;> simp [bringUp, stages, h, haltedAt, stageEffect, State.setDev]

/-- Stages of which none fails end at stage 9. -/
theorem stages_pass (h : ∀ k s, stageFailed k s = false) (first : Report) (measure : Bool) (s : State) :
    (stages first measure 9 1 s).dev.stage = 9 := by
  simp only [stages, h, Bool.and_false, Bool.false_eq_true, if_false]
  rfl

theorem bringUp_of_stages_pass (h : ∀ k s, stageFailed k s = false) (first : Report) (measure : Bool) (s : State) :
    (bringUp first measure s).dev.stage = 9 := by
  refine Eq.trans ?_ (stages_pass h first measure (s.setDev { s.dev with stage := 0, failure := 0, cycles := [] }))
  dsimp only [bringUp, State.setDev, raiseCause]
  split <;> rfl

theorem haltedAt_dev (k : Nat) (s : State) : (haltedAt k s).dev.powered = s.dev.powered ∧ (haltedAt k s).dev.jibueg = s.dev.jibueg ∧
    (haltedAt k s).dev.stage = BitVec.ofNat 4 k := by
  dsimp only [haltedAt, State.setDev, raiseCause]
  split <;> exact ⟨rfl, rfl, rfl⟩

/-! ## The events of power -/

theorem exec_powerOn_of_stages_fail (h : ∀ k s, stageFailed k s = true) {s : State} (hp : s.dev.powered = false) :
    ∃ t, exec .powerOn s = .next t ∧ t.dev.powered = true ∧ t.teams = s.teams ∧ t.mem = s.mem := by
  have hon : powerOn s = some (haltedAt 1 (s.setDev { s.dev with powered := true, firmwareKnown := true })) := by
    simp [powerOn, hp, bringUp_of_stages_fail h]
  exact ⟨_, event_some hon, (haltedAt_dev _ _).1, rfl, rfl⟩

theorem exec_powerOn_of_powered {s : State} (hp : s.dev.powered = true) : exec .powerOn s = .next s :=
  event_none (f := powerOn) (by simp [powerOn, hp])

theorem exec_powerLoss_of_powered {s : State} (hp : s.dev.powered = true) : ∀ i ∈ [Instr.powerLoss, .thermalShutdown],
    exec i s = .next (unpowered s) := by
  have hloss : event (fun s : State => if s.dev.powered then some (unpowered s) else none) s = .next (unpowered s) :=
    event_some (by rw [hp]; rfl)
  intro i hi
  rcases List.mem_pair.1 hi with rfl | rfl <;> exact hloss

theorem exec_thermalThrottle (r : Fin 48) (s : State) : exec (.thermalThrottle r) s = event (fun s : State =>
    if s.dev.throttled.contains r then none else some (s.setDev { s.dev with throttled := r :: s.dev.throttled })) s := rfl

theorem exec_thermalThrottle_of_not_mem {r : Fin 48} {s : State} (h : r ∉ s.dev.throttled) :
    exec (.thermalThrottle r) s = .next (s.setDev { s.dev with throttled := r :: s.dev.throttled }) :=
  (exec_thermalThrottle r s).trans (event_some (by simp [h]))

theorem exec_thermalThrottle_of_mem {r : Fin 48} {s : State} (h : r ∈ s.dev.throttled) : exec (.thermalThrottle r) s = .next s :=
  (exec_thermalThrottle r s).trans (event_none (by simp [h]))

theorem exec_devrstReset_of_powered {s : State} (hp : s.dev.powered = true) : exec .devrstReset s = .next (deviceReset s) :=
  event_some (f := fun s : State => if s.dev.powered then some (deviceReset s) else none) (by rw [hp]; rfl)

/-- What a reset hands to bring-up. -/
def resetEngines (s : State) : State :=
  let s := haltEngines s (s.groups.map (·.1))
  let s := { s with launches := s.launches.map fun (e : Nat × Launch) => (e.1, e.2.afterReset), ops := [],
                    regions := s.regions.filter (fun e => e.2.warm.isSome && !e.2.releasing), boxes := [], flits := [], porter := [] }
  let fab : Fabric := { poison := s.fab.poison, gone := s.fab.gone, flip := s.fab.flip, move := s.fab.move, atomTag := s.fab.atomTag }
  (s.setFab fab).setDev { s.dev with jibueg := false, attBusy := false, throttled := [], links := [], hostUp := false,
                                     msix := s.dev.msix, biasCode := 0, biasErr := false, migCode := 0, migErr := false }

theorem deviceReset_eq (s : State) : deviceReset s =
    bringUp { cls := 2, unit := 12, cause := 0x22 } (Config.firmwareChanged s.tick || !s.dev.firmwareKnown) (resetEngines s) := by
  have heng := sameButEngines_engineRel.haltEngines s (s.groups.map (·.1))
  have htick : (haltEngines s (s.groups.map (·.1))).tick = s.tick := (congrArg State.tick heng.eq :)
  have hdev : (haltEngines s (s.groups.map (·.1))).dev = s.dev := (congrArg State.dev heng.eq :)
  unfold deviceReset resetEngines
  dsimp only [State.setFab, State.setDev]
  rw [htick, hdev]

theorem resetEngines_powered (s : State) : (resetEngines s).dev.powered = s.dev.powered :=
  (congrArg (·.dev.powered) (sameButEngines_engineRel.haltEngines s (s.groups.map (·.1))).eq :)

/-- Where no engine works, what a reset empties is no memory. -/
theorem resetEngines_mem {s : State} (h : Claims.EnginesIdle s) : (resetEngines s).mem = s.mem :=
  (congrArg State.mem (haltEngines_of_idle h (s.groups.map (·.1))) :)

/-- A reset whose bring-up fails leaves the engines stopped and all that was on its way gone. -/
theorem deviceReset_of_stages_fail (h : ∀ k s, stageFailed k s = true) (s : State) : ∃ k ∈ [1, 2], deviceReset s = haltedAt k (resetEngines s) := by
  rw [deviceReset_eq, bringUp_of_stages_fail h]
  cases Config.firmwareChanged s.tick || !s.dev.firmwareKnown
  · exact ⟨2, by decide, rfl⟩
  · exact ⟨1, by decide, rfl⟩

/-! ## O60 and the stages that fail -/

/-- O60 where every stage of bring-up fails. -/
theorem powerCycles_of_stages_fail (h : ∀ k s, stageFailed k s = true) : Obligations.PowerCycles := by
  refine ⟨fun s => ⟨fun hp => ?_, fun hp => ⟨exec_powerOn_of_powered hp, fun i hi => ?_, ?_⟩, fun r =>
      ⟨exec_thermalThrottle_of_not_mem, exec_thermalThrottle_of_mem⟩⟩,
    fun s p => ⟨exec_partLost_of_powered, exec_partLost_of_lost, exec_hostPortReturn_of_lost, exec_hostPortReturn_of_present⟩⟩
  · obtain ⟨t, hx, hpow, hteams, hmem⟩ := exec_powerOn_of_stages_fail h hp
    exact ⟨t, hx, hpow, hteams, fun _ _ => hmem⟩
  · exact ⟨_, exec_powerLoss_of_powered hp i hi, rfl, rfl, rfl, rfl, rfl, rfl, rfl, rfl, rfl, rfl, rfl⟩
  · obtain ⟨k, hk, hreset⟩ := deviceReset_of_stages_fail h s
    obtain ⟨hpow, hjibueg, hstage⟩ := haltedAt_dev k (resetEngines s)
    refine ⟨_, (exec_devrstReset_of_powered hp).trans (congrArg _ hreset), hpow.trans ((resetEngines_powered s).trans hp), rfl, rfl, rfl,
      fun _ => hjibueg, fun hidle _ _ _ => resetEngines_mem hidle, fun _ _ _ _ _ h9 => ?_⟩
    rw [hstage] at h9
    rcases List.mem_pair.1 hk with rfl | rfl <;> exact absurd h9 (by decide)

/-- O60 does not hold where no stage of bring-up fails: stage 8 takes the team that is left of a launch. -/
theorem not_powerCycles_of_stages_pass (h : ∀ k s, stageFailed k s = false) : ¬ Obligations.PowerCycles := by
  intro ho
  obtain ⟨hcut, hp, hteam⟩ := leftoverTeam_cutRun
  have hx : exec .powerOn leftoverTeam = .next (bringUp _ true _) := event_some (f := powerOn) (by rw [powerOn, hp]; rfl)
  exact powerOn_not_ready_of_powerCycles ho hcut hp hteam hx (bringUp_of_stages_pass h _ _ _)

end Sys2Proof.Machine
end

