-- ==== Sys2Proof/Proofs/Words.lean ====
section
/-! The words of instructions and headers: each format's fields are cut out of its word again (R119, R128 to R134, R141). -/
namespace Sys2Proof.Laws

/-! ## Codes read back -/

@[simp] theorem Spec.ofCode_code (x : Spec) : Spec.ofCode x.code = x := by
  cases x with
  | laneid | grouplanes | exec => decide
  | _ n => revert n; decide
@[simp] theorem Pat.ofCode_code (x : Pat) : Pat.ofCode x.code = x := by cases x <;> rfl
@[simp] theorem Ty.ofCode_code (x : Ty) : Ty.ofCode x.code = some x := by cases x <;> rfl
@[simp] theorem Rnd.ofCode_code (x : Rnd) : Rnd.ofCode x.code = x := by cases x <;> rfl
@[simp] theorem Fmt.ofCode_code (x : Fmt) : Fmt.ofCode x.code = x := by cases x <;> rfl
@[simp] theorem Req.ofCode_code (x : Req) : Req.ofCode x.code = x := by cases x <;> rfl
@[simp] theorem Hint.ofCode_code (x : Hint) : Hint.ofCode x.code = x := by cases x <;> rfl
@[simp] theorem Order.ofCode_code (x : Order) : Order.ofCode x.code = x := by cases x <;> rfl
@[simp] theorem Scope.ofCode_code (x : Scope) : Scope.ofCode x.code = some x := by cases x <;> rfl
@[simp] theorem Size.ofCode_code (x : Size) : Size.ofCode x.code = some x := by cases x <;> rfl
@[simp] theorem AtomOp.ofCode_code (x : AtomOp) : AtomOp.ofCode x.code = some x := by cases x <;> rfl
@[simp] theorem BScope.ofCode_code (x : BScope) : BScope.ofCode x.code = x := by cases x <;> rfl
@[simp] theorem Semiring.ofCode_code (x : Semiring) : Semiring.ofCode x.code = some x := by cases x <;> rfl
@[simp] theorem AccFmt.ofCode_code (x : AccFmt) : AccFmt.ofCode x.code = some x := by cases x <;> rfl
@[simp] theorem WItem.ofCode_code (x : WItem) : WItem.ofCode x.code = some x := by cases x <;> rfl
@[simp] theorem BraSub.ofCode_code (x : BraSub) : BraSub.ofCode x.code = some x := by cases x <;> rfl
@[simp] theorem Class.ofCode_code (x : Class) : Class.ofCode x.code = some x := by cases x <;> rfl

@[simp] theorem Header.setOf_setCode (x : Option (Fin 12)) : Header.setOf (Header.setCode x) = some x := by
  revert x; decide

/-- A bit as a field of one bit. -/
theorem bitAt_of_fld {w lo : Nat} {b : Bool} (h : fld w lo 1 = b2n b) : bitAt w lo = b := by
  have hb : fld w lo 1 = w / 2 ^ lo % 2 := rfl
  rw [bitAt, ← hb, h]
  cases b <;> rfl

/-! ## Words as lists of fields (R11) -/

/-- The fields of a word from its highest to its lowest, each with its lowest bit, its width and its value. -/
abbrev Layout := List (Nat × Nat × Nat)

namespace Layout

/-- The word that the fields make. -/
def word : Layout → Nat
  | [] => 0
  | (lo, _, x) :: fs => x * 2 ^ lo + word fs

/-- Each field lies below the one before it, the first below bit `top`, and each value has its field's width. -/
def Fits : Layout → Nat → Prop
  | [], _ => True
  | (lo, n, x) :: fs, top => lo + n ≤ top ∧ x < 2 ^ n ∧ Fits fs lo

/-- A word holds the fields of a layout. -/
def ReadIn (fs : Layout) (w : Nat) : Prop := ∀ e ∈ fs, fld w e.1 e.2.1 = e.2.2

theorem word_lt {fs : Layout} {top : Nat} (h : fs.Fits top) : fs.word < 2 ^ top := by
  induction fs generalizing top with
  | nil => exact Nat.two_pow_pos top
  | cons e fs ih =>
    obtain ⟨lo, n, x⟩ := e
    obtain ⟨htop, hx, hfs⟩ := h
    calc x * 2 ^ lo + word fs < (x + 1) * 2 ^ lo := by have := ih hfs; rw [Nat.add_mul]; omega
      _ ≤ 2 ^ n * 2 ^ lo := Nat.mul_le_mul_right _ hx
      _ = 2 ^ (lo + n) := by rw [← Nat.pow_add, Nat.add_comm]
      _ ≤ 2 ^ top := Nat.pow_le_pow_right (by decide) htop

theorem top_le_of_mem {fs : Layout} {top : Nat} (h : fs.Fits top) {e : Nat × Nat × Nat} (he : e ∈ fs) : e.1 + e.2.1 ≤ top := by
  induction fs generalizing top with
  | nil => cases he
  | cons a fs ih =>
    obtain ⟨lo, n, x⟩ := a
    obtain ⟨htop, -, hfs⟩ := h
    rcases List.mem_cons.1 he with rfl | he
    · exact htop
    · have := ih hfs he; omega

/-- What lies above a field does not change it. -/
theorem fld_add_mul {w x hi lo n : Nat} (h : lo + n ≤ hi) : fld (x * 2 ^ hi + w) lo n = fld w lo n := by
  obtain ⟨k, rfl⟩ := Nat.exists_eq_add_of_le h
  have e : x * 2 ^ (lo + n + k) + w = w + 2 ^ lo * (2 ^ n * (x * 2 ^ k)) := by rw [Nat.pow_add, Nat.pow_add]; ring
  rw [fld, fld, e, Nat.add_mul_div_left _ _ (Nat.two_pow_pos lo), Nat.add_mul_mod_self_left]

theorem readIn_word {fs : Layout} {top : Nat} (h : fs.Fits top) : fs.ReadIn fs.word := by
  induction fs generalizing top with
  | nil => intro e he; cases he
  | cons a fs ih =>
    obtain ⟨lo, n, x⟩ := a
    obtain ⟨-, hx, hfs⟩ := h
    intro e he
    rcases List.mem_cons.1 he with rfl | he
    · show fld (x * 2 ^ lo + word fs) lo n = x
      rw [fld, Nat.add_comm, Nat.mul_comm, Nat.add_mul_div_left _ _ (Nat.two_pow_pos lo), Nat.div_eq_of_lt (word_lt hfs),
        Nat.zero_add, Nat.mod_eq_of_lt hx]
    · exact (fld_add_mul (top_le_of_mem hfs he)).trans (ih hfs e he)

end Layout

/-! ## The formats (R128 to R134) -/

theorem Src.code_eq (x : Src) : x.code = Layout.word [(7, 8, x.spec.code), (4, 3, x.pat.code), (0, 4, x.par.toNat)] := by
  simp only [Src.code, Layout.word]; omega

theorem Pat.code_lt (x : Pat) : x.code < 8 := by cases x <;> decide

@[simp] theorem Src.ofCode_code (x : Src) : Src.ofCode x.code = x := by
  have h : Layout.ReadIn [(7, 8, x.spec.code), (4, 3, x.pat.code), (0, 4, x.par.toNat)] x.code := by
    rw [Src.code_eq]
    exact Layout.readIn_word (top := 15) (by simp [Layout.Fits, Spec.code_lt, Pat.code_lt, x.par.isLt])
  simp only [Layout.ReadIn, List.forall_mem_cons] at h
  obtain ⟨h7, h4, h0, -⟩ := h
  simp [Src.ofCode, h7, h4, h0]

/-- An opcode that R141 assigns fits its field. -/
theorem lt_of_opcodeAssigned {op : Nat} (h : opcodeAssigned op = true) : op < 0x97 := by
  simp only [opcodeAssigned, Bool.or_eq_true, Bool.and_eq_true, decide_eq_true_eq] at h
  omega

/-- The word of an instruction has 64 bits, an assigned opcode and the fields of that instruction. -/
def Reads (i : Instr) : Prop := Opcoded (encodeRow i) ∧ parseRow (encodeRow i) = some i

/-- An instruction is read from its word where its row of the decoder takes its fields back from the layout of the word. -/
theorem reads_of_layout {i : Instr} {op : Nat} (fs : Layout) (ho : opcodeAssigned op = true) (hfit : fs.Fits 56)
    (hw : encodeRow i = op * 2 ^ 56 + fs.word) (hp : ∀ w, fld w 56 8 = op → fs.ReadIn w → parseRow w = some i) : Reads i := by
  have h8 := lt_of_opcodeAssigned ho
  have hall : Layout.Fits ((56, 8, op) :: fs) 64 := ⟨by decide, by omega, hfit⟩
  have hread := Layout.readIn_word hall
  have hop : fld (op * 2 ^ 56 + fs.word) 56 8 = op := hread _ (List.mem_cons_self ..)
  refine ⟨?_, ?_⟩ <;> rw [hw]
  · exact ⟨Layout.word_lt hall, by rw [hop]; exact ho⟩
  · exact hp _ hop fun e he => hread e (List.mem_cons_of_mem _ he)

theorem BScope.code_lt_four (x : BScope) : x.code < 4 := by cases x <;> decide

theorem b2n_le (b : Bool) : b2n b ≤ 1 := Nat.le_of_lt_succ (b2n_lt b)

/-! ### The operate format and the two that share its word (R128, R129, R221) -/

def OForm.layout (f : OForm) : Layout :=
  [(48, 8, f.d.code), (33, 15, f.a.code), (18, 15, f.b.code), (10, 8, f.c.code), (6, 4, f.ty.code), (4, 2, f.rnd.code),
   (3, 1, b2n f.sat), (2, 1, b2n f.ftz), (0, 1, b2n f.uni)]

theorem OForm.layout_fits (f : OForm) : (OForm.layout f).Fits 56 := by
  have hsrc (x : Src) : x.code < 32768 := Src.code_lt x
  simp [OForm.layout, Layout.Fits, Spec.code_lt, hsrc, Ty.code_lt, Rnd.code_lt, b2n_le]

theorem OForm.parse_of_readIn {f : OForm} {w : Nat} (h : (OForm.layout f).ReadIn w) : OForm.parse w = some f := by
  simp only [Layout.ReadIn, OForm.layout, List.forall_mem_cons] at h
  obtain ⟨hd, ha, hb, hc, hty, hrnd, hsat, hftz, huni, -⟩ := h
  simp [OForm.parse, hd, ha, hb, hc, hty, hrnd, bitAt_of_fld hsat, bitAt_of_fld hftz, bitAt_of_fld huni]

theorem OForm.reads {i : Instr} {f : OForm} {op : Nat} (hw : encodeRow i = f.pack op) (ho : opcodeAssigned op = true)
    (hp : ∀ w, fld w 56 8 = op → OForm.parse w = some f → parseRow w = some i) : Reads i :=
  reads_of_layout (OForm.layout f) ho (OForm.layout_fits f)
    (hw.trans (by simp only [OForm.pack, OForm.layout, Layout.word]; omega)) fun w h hf => hp w h (OForm.parse_of_readIn hf)

def QForm.layout (f : QForm) : Layout :=
  [(48, 8, f.d.code), (33, 15, f.a.code), (18, 15, f.b.code), (13, 5, f.fmt.code), (6, 4, 4), (4, 2, f.rnd.code),
   (3, 1, b2n f.sat), (2, 1, b2n f.ftz), (0, 1, b2n f.uni)]

theorem QForm.layout_fits (f : QForm) : (QForm.layout f).Fits 56 := by
  have hsrc (x : Src) : x.code < 32768 := Src.code_lt x
  simp [QForm.layout, Layout.Fits, Spec.code_lt, hsrc, Fmt.code_lt, Rnd.code_lt, b2n_le]

theorem QForm.parse_of_readIn {f : QForm} {w : Nat} (h : (QForm.layout f).ReadIn w) : QForm.parse w = f := by
  simp only [Layout.ReadIn, QForm.layout, List.forall_mem_cons] at h
  obtain ⟨hd, ha, hb, hfmt, -, hrnd, hsat, hftz, huni, -⟩ := h
  simp [QForm.parse, hd, ha, hb, hfmt, hrnd, bitAt_of_fld hsat, bitAt_of_fld hftz, bitAt_of_fld huni]

theorem QForm.reads {i : Instr} {f : QForm} {op : Nat} (hw : encodeRow i = f.pack op) (ho : opcodeAssigned op = true)
    (hp : ∀ w, fld w 56 8 = op → QForm.parse w = f → parseRow w = some i) : Reads i :=
  reads_of_layout (QForm.layout f) ho (QForm.layout_fits f)
    (hw.trans (by simp only [QForm.pack, QForm.layout, Layout.word]; omega)) fun w h hf => hp w h (QForm.parse_of_readIn hf)

def IForm.layout (f : IForm) : Layout := [(48, 8, f.d.code), (33, 15, f.a.code), (32, 1, b2n f.fill), (0, 32, f.imm.toNat)]

theorem IForm.layout_fits (f : IForm) : (IForm.layout f).Fits 56 := by
  have hsrc (x : Src) : x.code < 32768 := Src.code_lt x
  simp [IForm.layout, Layout.Fits, Spec.code_lt, hsrc, b2n_le, f.imm.isLt]

theorem IForm.parse_of_readIn {f : IForm} {w : Nat} (h : (IForm.layout f).ReadIn w) : IForm.parse w = f := by
  simp only [Layout.ReadIn, IForm.layout, List.forall_mem_cons] at h
  obtain ⟨hd, ha, hfill, himm, -⟩ := h
  simp [IForm.parse, hd, ha, bitAt_of_fld hfill, himm]

theorem IForm.reads {i : Instr} {f : IForm} {op : Nat} (hw : encodeRow i = f.pack op) (ho : opcodeAssigned op = true)
    (hp : ∀ w, fld w 56 8 = op → IForm.parse w = f → parseRow w = some i) : Reads i :=
  reads_of_layout (IForm.layout f) ho (IForm.layout_fits f)
    (hw.trans (by simp only [IForm.pack, IForm.layout, Layout.word]; omega)) fun w h hf => hp w h (IForm.parse_of_readIn hf)

/-! ### The memory format and its use by atomics (R130, R131) -/

def MForm.layout (f : MForm) : Layout :=
  [(48, 8, f.data.code), (40, 8, f.addr.code), (20, 20, f.off.toNat), (14, 6, f.recIx.toNat), (12, 2, f.req.code),
   (10, 2, f.hint.code), (8, 2, f.ord.code), (5, 3, f.scope.code), (2, 3, f.size.code), (1, 1, b2n f.aux), (0, 1, b2n f.fb)]

theorem MForm.layout_fits (f : MForm) : (MForm.layout f).Fits 56 := by
  simp [MForm.layout, Layout.Fits, Spec.code_lt, f.off.isLt, f.recIx.isLt, Req.code_lt, Hint.code_lt, Order.code_lt,
    Scope.code_lt, Size.code_lt, b2n_le]

theorem MForm.parse_of_readIn {f : MForm} {w : Nat} (h : (MForm.layout f).ReadIn w) : MForm.parse w = some f := by
  simp only [Layout.ReadIn, MForm.layout, List.forall_mem_cons] at h
  obtain ⟨hdata, haddr, hoff, hrec, hreq, hhint, hord, hscope, hsize, haux, hfb, -⟩ := h
  simp [MForm.parse, hdata, haddr, hoff, hrec, hreq, hhint, hord, hscope, hsize, bitAt_of_fld haux, bitAt_of_fld hfb]

theorem MForm.reads {i : Instr} {f : MForm} {op : Nat} (hw : encodeRow i = f.pack op) (ho : opcodeAssigned op = true)
    (hp : ∀ w, fld w 56 8 = op → MForm.parse w = some f → parseRow w = some i) : Reads i :=
  reads_of_layout (MForm.layout f) ho (MForm.layout_fits f)
    (hw.trans (by simp only [MForm.pack, MForm.layout, Layout.word]; omega)) fun w h hf => hp w h (MForm.parse_of_readIn hf)

def AForm.layout (f : AForm) : Layout :=
  [(48, 8, f.data.code), (40, 8, f.addr.code), (28, 12, f.off.toNat), (24, 4, f.op.code), (14, 6, f.recIx.toNat),
   (12, 2, f.req.code), (10, 2, f.hint.code), (8, 2, f.ord.code), (5, 3, f.scope.code), (2, 3, f.size.code), (0, 1, b2n f.fb)]

theorem AForm.layout_fits (f : AForm) : (AForm.layout f).Fits 56 := by
  simp [AForm.layout, Layout.Fits, Spec.code_lt, f.off.isLt, AtomOp.code_lt, f.recIx.isLt, Req.code_lt, Hint.code_lt,
    Order.code_lt, Scope.code_lt, Size.code_lt, b2n_le]

theorem AForm.parse_of_readIn {f : AForm} {w : Nat} (h : (AForm.layout f).ReadIn w) : AForm.parse w = some f := by
  simp only [Layout.ReadIn, AForm.layout, List.forall_mem_cons] at h
  obtain ⟨hdata, haddr, hoff, hop, hrec, hreq, hhint, hord, hscope, hsize, hfb, -⟩ := h
  simp [AForm.parse, hdata, haddr, hoff, hop, hrec, hreq, hhint, hord, hscope, hsize, bitAt_of_fld hfb]

theorem AForm.reads {i : Instr} {f : AForm} {op : Nat} (hw : encodeRow i = f.pack op) (ho : opcodeAssigned op = true)
    (hp : ∀ w, fld w 56 8 = op → AForm.parse w = some f → parseRow w = some i) : Reads i :=
  reads_of_layout (AForm.layout f) ho (AForm.layout_fits f)
    (hw.trans (by simp only [AForm.pack, AForm.layout, Layout.word]; omega)) fun w h hf => hp w h (AForm.parse_of_readIn hf)

/-! ### The matrix and engine formats (R133, R134) -/

def XForm.layout (f : XForm) : Layout :=
  [(52, 4, f.acc.toNat), (45, 7, f.slot.toNat), (37, 8, f.abase.code), (21, 16, f.aoff.toNat), (15, 6, f.chunks.toNat),
   (12, 3, f.sem.code), (7, 5, f.afmt.code), (6, 1, b2n f.col), (5, 1, b2n f.skip), (4, 1, b2n f.accum), (2, 2, f.accf.code),
   (1, 1, b2n f.sat), (0, 1, b2n f.fb)]

theorem XForm.layout_fits (f : XForm) : (XForm.layout f).Fits 56 := by
  simp [XForm.layout, Layout.Fits, f.acc.isLt, f.slot.isLt, Spec.code_lt, f.aoff.isLt, f.chunks.isLt, Semiring.code_lt,
    Fmt.code_lt, AccFmt.code_lt, b2n_le]

theorem XForm.parse_of_readIn {f : XForm} {w : Nat} (h : (XForm.layout f).ReadIn w) : XForm.parse w = some f := by
  simp only [Layout.ReadIn, XForm.layout, List.forall_mem_cons] at h
  obtain ⟨hacc, hslot, hbase, hoff, hch, hsem, hfmt, hcol, hskip, haccum, haccf, hsat, hfb, -⟩ := h
  simp [XForm.parse, hacc, hslot, hbase, hoff, hch, hsem, hfmt, haccf, bitAt_of_fld hcol, bitAt_of_fld hskip,
    bitAt_of_fld haccum, bitAt_of_fld hsat, bitAt_of_fld hfb]

def EForm.layout (f : EForm) : Layout :=
  [(44, 12, f.place.toNat), (36, 8, f.src.code), (28, 8, f.dst.code), (20, 8, f.len.code), (8, 12, f.bar.toNat),
   (5, 1, b2n f.twoD), (4, 1, b2n f.sig), (0, 1, b2n f.fb)]

theorem EForm.layout_fits (f : EForm) : (EForm.layout f).Fits 56 := by
  simp [EForm.layout, Layout.Fits, f.place.isLt, Spec.code_lt, f.bar.isLt, b2n_le]

theorem EForm.parse_of_readIn {f : EForm} {w : Nat} (h : (EForm.layout f).ReadIn w) : EForm.parse w = f := by
  simp only [Layout.ReadIn, EForm.layout, List.forall_mem_cons] at h
  obtain ⟨hplace, hsrc, hdst, hlen, hbar, h2d, hsig, hfb, -⟩ := h
  simp [EForm.parse, hplace, hsrc, hdst, hlen, hbar, bitAt_of_fld h2d, bitAt_of_fld hsig, bitAt_of_fld hfb]

/-! ### The control format and the words of plain specifiers (R132, R134) -/

theorem packC_reads {i : Instr} {op kind sub index : Nat} {cond : Spec} {t : BitVec 32}
    (hw : encodeRow i = packC op cond kind sub index t) (ho : opcodeAssigned op = true) (hk : kind < 16) (hs : sub < 16) (hx : index < 256)
    (hp : ∀ w, fld w 56 8 = op → Spec.ofCode (fld w 48 8) = cond → fld w 44 4 = kind → fld w 40 4 = sub → fld w 32 8 = index →
      BitVec.ofNat 32 (fld w 0 32) = t → parseRow w = some i) : Reads i := by
  refine reads_of_layout [(48, 8, cond.code), (44, 4, kind), (40, 4, sub), (32, 8, index), (0, 32, t.toNat)] ho ?_
    (hw.trans ?_) fun w h hf => ?_
  · simp [Layout.Fits, Spec.code_lt, t.isLt, hk, hs, hx]
  · simp only [packC, Layout.word]; omega
  · simp only [Layout.ReadIn, List.forall_mem_cons] at hf
    obtain ⟨hc, hk, hs, hx, ht, -⟩ := hf
    exact hp w h (by simp [hc]) hk hs hx (by simp [ht])

/-- A word of plain specifiers D, A and B, with the fields `fs` in its low 25 bits. -/
theorem packP_reads {i : Instr} {op d a b c low : Nat} (fs : Layout) (hw : encodeRow i = packP op d a b c low)
    (ho : opcodeAssigned op = true) (hd : d < 256) (ha : a < 256) (hb : b < 256) (hfit : fs.Fits 25) (hlow : c * 2 ^ 10 + low = fs.word)
    (hp : ∀ w, fld w 56 8 = op → fld w 48 8 = d → fld w 40 8 = a → fld w 25 8 = b → fs.ReadIn w → parseRow w = some i) : Reads i := by
  refine reads_of_layout ((48, 8, d) :: (40, 8, a) :: (25, 8, b) :: fs) ho
    ⟨by decide, hd, by decide, ha, by decide, hb, hfit⟩ (hw.trans ?_) fun w h hf => ?_
  · simp only [packP, Layout.word, ← hlow, Nat.add_assoc]
  · simp only [Layout.ReadIn, List.forall_mem_cons] at hf
    obtain ⟨hd, ha, hb, hf⟩ := hf
    exact hp w h hd ha hb hf

/-- Such a word with nothing but its flag-select bit below the specifiers. -/
theorem packP_flag_reads {i : Instr} {op d a b : Nat} {fb : Bool} (hw : encodeRow i = packP op d a b 0 (b2n fb * 2))
    (ho : opcodeAssigned op = true) (hd : d < 256) (ha : a < 256) (hb : b < 256)
    (hp : ∀ w, fld w 56 8 = op → fld w 48 8 = d → fld w 40 8 = a → fld w 25 8 = b → bitAt w 1 = fb → parseRow w = some i) : Reads i :=
  packP_reads [(1, 1, b2n fb)] hw ho hd ha hb ⟨by decide, b2n_lt fb, trivial⟩ (by simp only [Layout.word]; omega)
    fun w h hd ha hb hf => hp w h hd ha hb (bitAt_of_fld (hf _ (List.mem_singleton.2 rfl)))

/-- MBOX: its kind in bits [31:28] and its place in bits [11:0]. -/
theorem box_reads {i : Instr} {k : Nat} {d a : Spec} {p : BitVec 12}
    (hw : encodeRow i = 0x78 * 2 ^ 56 + d.code * 2 ^ 48 + a.code * 2 ^ 40 + k * 2 ^ 28 + p.toNat) (hk : k < 16)
    (hp : ∀ w, fld w 56 8 = 0x78 → Spec.ofCode (fld w 48 8) = d → Spec.ofCode (fld w 40 8) = a → fld w 28 4 = k →
      BitVec.ofNat 12 (fld w 0 12) = p → parseRow w = some i) : Reads i := by
  refine reads_of_layout (op := 0x78) [(48, 8, d.code), (40, 8, a.code), (28, 4, k), (0, 12, p.toNat)] rfl ?_ (hw.trans ?_) fun w h hf => ?_
  · simp [Layout.Fits, Spec.code_lt, p.isLt, hk]
  · simp only [Layout.word]; omega
  · simp only [Layout.ReadIn, List.forall_mem_cons] at hf
    obtain ⟨hd, ha, hk, hpl, -⟩ := hf
    exact hp w h (by simp [hd]) (by simp [ha]) hk (by simp [hpl])

/-! ## Every instruction -/

/-- The low half of a target field that holds a count of 16 bits. -/
theorem setWidth_zeroExtend (n : BitVec 16) : (n.zeroExtend 32).setWidth 16 = n := by simp

/-- Each instruction that has a word is read back from it, format by format. -/
theorem reads_of_wf (i : Instr) (hwf : i.wf = true) (h : encodeRow i ≠ 0) : Reads i := by
  cases i with
  -- the control format
  | nop | ret | yield =>
    exact packC_reads rfl rfl (by decide) (by decide) (by decide) fun w h _ _ _ _ _ => by unfold parseRow; rw [h]; rfl
  | wsyncWait | wsyncWb =>
    exact packC_reads rfl rfl (by decide) (by decide) (by decide) fun w h _ _ hs _ _ => by unfold parseRow; rw [h, hs]; rfl
  | bra sub cond t =>
    exact packC_reads rfl rfl (by decide) (BraSub.code_lt sub) (by decide) fun w h hc _ hs _ ht => by
      unfold parseRow; rw [h, hc, hs, ht, BraSub.ofCode_code]; rfl
  | brd cond t =>
    exact packC_reads rfl rfl (by decide) (by decide) (by decide) fun w h hc _ _ _ ht => by unfold parseRow; rw [h, hc, ht]; rfl
  | brk cond | cont cond | exit cond =>
    exact packC_reads rfl rfl (by decide) (by decide) (by decide) fun w h hc _ _ _ _ => by unfold parseRow; rw [h, hc]; rfl
  | tokenIf =>
    exact packC_reads rfl rfl (by decide) (by decide) (by decide) fun w h _ hk _ _ _ => by unfold parseRow; rw [h, hk]; rfl
  | tokenLoop t | joinIf t =>
    exact packC_reads rfl rfl (by decide) (by decide) (by decide) fun w h _ hk _ _ ht => by unfold parseRow; rw [h, hk, ht]; rfl
  | joinLoop cond t =>
    exact packC_reads rfl rfl (by decide) (by decide) (by decide) fun w h hc hk _ _ ht => by
      unfold parseRow; rw [h, hc, hk, ht]; rfl
  | brx x =>
    exact packC_reads rfl rfl (by decide) (by decide) (Spec.code_lt x) fun w h _ _ _ hx _ => by
      unfold parseRow; rw [h, hx, Spec.ofCode_code]; rfl
  | call cond k t =>
    exact packC_reads rfl rfl k.isLt (by decide) (by decide) fun w h hc hk _ _ ht => by
      unfold parseRow; rw [h, hc, hk, ht, BitVec.ofNat_toNat, BitVec.setWidth_eq]; rfl
  | callx cond k x =>
    exact packC_reads rfl rfl k.isLt (by decide) (Spec.code_lt x) fun w h hc hk _ hx _ => by
      unfold parseRow; rw [h, hc, hk, hx, BitVec.ofNat_toNat, BitVec.setWidth_eq, Spec.ofCode_code]; rfl
  | winfo k d =>
    exact packC_reads rfl rfl (Nat.zero_lt_succ _) (WItem.code_lt k) (Spec.code_lt d) fun w h _ _ hs hx _ => by
      unfold parseRow; rw [h, hs, hx, WItem.ofCode_code, Spec.ofCode_code]; rfl
  | pauseTime n =>
    exact packC_reads rfl rfl (by decide) (by decide) (by decide) fun w h _ _ hs _ ht => by
      unfold parseRow; rw [h, hs, ht]; exact congrArg (some <| Instr.pauseTime ·) (setWidth_zeroExtend n)
  | pauseRecv n =>
    exact packC_reads rfl rfl (by decide) (by decide) (by decide) fun w h _ _ hs _ ht => by
      unfold parseRow; rw [h, hs, ht]; exact congrArg (some <| Instr.pauseRecv ·) (setWidth_zeroExtend n)
  -- the operate format and its relatives
  | add f | sub f | mul f | mulh f | mad f | and f | or f | xor f | andn f | shl f | shr f | sar f | rot f | min f
  | max f | sel f | abs f | neg f | clz f | popc f | brev f | bfe f | bfi f | cmp f | lea f | mov f | idot4 f | fadd f
  | fsub f | fmul f | ffma f | fmin f | fmax f | fminnm f | fmaxnm f | fcmp f | fclass f | frnd f | fdiv f | fsqrt f
  | fdot2 f | fabs f | fneg f | fexp2f f | flog2m f | frcp f | frsq f | fsinpi f | fcospi f | fldexp f | fgetexp f
  | fgetman f | fcvt f | itof f | ftoi f | shfl f | vote f | redux f | scan f | elect f | bcast f | setlane f =>
    exact OForm.reads rfl rfl fun w h hf => by unfold parseRow; rw [h, hf]; rfl
  | qcvt f | dqcvt f | qscale f => exact QForm.reads rfl rfl fun w h hf => by unfold parseRow; rw [h, hf]; rfl
  | movi f | addi f | andi f | ori f | cmpi f => exact IForm.reads rfl rfl fun w h hf => by unfold parseRow; rw [h, hf]; rfl
  -- the memory format
  | ld f | st f | ldu f | stu f | ldfe f | stfe f | pref f | vdec f | venc f | fence f | flushl f | invl f | subscr f
  | mst f =>
    exact MForm.reads rfl rfl fun w h hf => by unfold parseRow; rw [h, hf]; rfl
  | bufstRecord f =>
    have ha : f.aux = false := by simp [Instr.wf] at hwf; simp [hwf]
    exact MForm.reads rfl rfl fun w h hf => by unfold parseRow; rw [h, hf]; exact congrArg some (if_neg (by simp [ha]))
  | bufstBuffer f =>
    have ha : f.aux = true := by simp [Instr.wf] at hwf; simp [hwf]
    exact MForm.reads rfl rfl fun w h hf => by unfold parseRow; rw [h, hf]; exact congrArg some (if_pos ha)
  | atom f | atomu f => exact AForm.reads rfl rfl fun w h hf => by unfold parseRow; rw [h, hf]; rfl
  -- the matrix and engine formats
  | mma f =>
    exact reads_of_layout (op := 0x81) (XForm.layout f) rfl (XForm.layout_fits f)
      (by change XForm.pack f = _; simp only [XForm.pack, XForm.layout, Layout.word]; omega)
      fun w h hf => by unfold parseRow; rw [h, XForm.parse_of_readIn hf]; rfl
  | bcopy f =>
    exact reads_of_layout (op := 0x70) (EForm.layout f) rfl (EForm.layout_fits f)
      (by change EForm.pack f = _; simp only [EForm.pack, EForm.layout, Layout.word]; omega)
      fun w h hf => by unfold parseRow; rw [h, EForm.parse_of_readIn hf]; rfl
  -- plain specifiers
  | stream a n fb =>
    exact packP_flag_reads rfl rfl (by decide) (Spec.code_lt a) (by omega) fun w h _ ha hb hf => by
      have h3 : Fin.ofNat 8 (fld w 25 3) = n := by apply Fin.ext; simp [fld] at hb ⊢; omega
      unfold parseRow; rw [h, ha, hf, h3, Spec.ofCode_code]; rfl
  | sclose n fb =>
    exact packP_flag_reads rfl rfl (by decide) (by decide) (by omega) fun w h _ _ hb hf => by
      have h3 : Fin.ofNat 8 (fld w 25 3) = n := by apply Fin.ext; simp [fld] at hb ⊢; omega
      unfold parseRow; rw [h, hf, h3]; rfl
  | tbar fb | depsig fb | waypt fb =>
    exact packP_flag_reads rfl rfl (by decide) (by decide) (by decide) fun w h _ _ _ hf => by unfold parseRow; rw [h, hf]; rfl
  | coll a fb | ctxsv a fb =>
    exact packP_flag_reads rfl rfl (by decide) (Spec.code_lt a) (by decide) fun w h _ ha _ hf => by
      unfold parseRow; rw [h, ha, hf, Spec.ofCode_code]; rfl
  | tlbinvPage a fb | tlbinvContext a fb =>
    exact packP_flag_reads rfl rfl (by decide) (Spec.code_lt a) (by decide) fun w h _ ha hb hf => by
      unfold parseRow; rw [h, ha, hb, hf, Spec.ofCode_code]; rfl
  | mzero b fb | mwait b fb =>
    exact packP_flag_reads rfl rfl (by decide) (by decide) (Spec.code_lt b) fun w h _ _ hb hf => by
      unfold parseRow; rw [h, hb, hf, Spec.ofCode_code]; rfl
  | mappg d a b fb =>
    exact packP_flag_reads rfl rfl (Spec.code_lt d) (Spec.code_lt a) (Spec.code_lt b) fun w h hd ha hb hf => by
      unfold parseRow; rw [h, hd, ha, hb, hf, Spec.ofCode_code, Spec.ofCode_code, Spec.ofCode_code]; rfl
  | launch d a fb =>
    exact packP_reads [(1, 1, b2n fb), (0, 1, 1)] rfl rfl (Spec.code_lt d) (Spec.code_lt a) (by decide)
      ⟨by decide, b2n_lt fb, by decide, by decide, trivial⟩ (by simp only [Layout.word]; omega) fun w h hd ha _ hf => by
        have h1 := bitAt_of_fld (hf _ (List.mem_cons_self ..))
        unfold parseRow; rw [h, hd, ha, h1, Spec.ofCode_code, Spec.ofCode_code]; rfl
  | barw a p sc fb =>
    exact packP_reads [(4, 2, sc.code), (1, 1, b2n fb)] rfl rfl (by decide) (Spec.code_lt a) (Spec.code_lt p)
      (by simp [Layout.Fits, BScope.code_lt_four, b2n_le]) (by simp only [Layout.word]; omega) fun w h _ ha hb hf => by
        simp only [Layout.ReadIn, List.forall_mem_cons] at hf
        obtain ⟨hsc, hfb, -⟩ := hf
        unfold parseRow
        rw [h, ha, hb, hsc, bitAt_of_fld hfb, Spec.ofCode_code, Spec.ofCode_code, BScope.ofCode_code]; rfl
  | bara d a n sc fb =>
    exact packP_reads [(4, 2, sc.code), (1, 1, b2n fb)] rfl rfl (Spec.code_lt d) (Spec.code_lt a) (Spec.code_lt n)
      (by simp [Layout.Fits, BScope.code_lt_four, b2n_le]) (by simp only [Layout.word]; omega) fun w h hd ha hb hf => by
        simp only [Layout.ReadIn, List.forall_mem_cons] at hf
        obtain ⟨hsc, hfb, -⟩ := hf
        unfold parseRow
        rw [h, hd, ha, hb, hsc, bitAt_of_fld hfb, Spec.ofCode_code, Spec.ofCode_code, Spec.ofCode_code, BScope.ofCode_code]; rfl
  | mldb a b fmt fb =>
    exact packP_reads [(13, 5, fmt.code), (1, 1, b2n fb)] rfl rfl (by decide) (Spec.code_lt a) (Spec.code_lt b)
      (by simp [Layout.Fits, Fmt.code_lt, b2n_le]) (by simp only [Layout.word]; omega) fun w h _ ha hb hf => by
        simp only [Layout.ReadIn, List.forall_mem_cons] at hf
        obtain ⟨hfmt, hfb, -⟩ := hf
        unfold parseRow
        rw [h, ha, hb, hfmt, bitAt_of_fld hfb, Spec.ofCode_code, Spec.ofCode_code, Fmt.ofCode_code]; rfl
  | mrd d a b ty rnd sat fb =>
    exact packP_reads [(6, 4, ty.code), (4, 2, rnd.code), (3, 1, b2n sat), (1, 1, b2n fb)] rfl rfl (Spec.code_lt d)
      (Spec.code_lt a) (Spec.code_lt b) (by simp [Layout.Fits, Ty.code_lt, Rnd.code_lt, b2n_le])
      (by simp only [Layout.word]; omega) fun w h hd ha hb hf => by
        simp only [Layout.ReadIn, List.forall_mem_cons] at hf
        obtain ⟨hty, hrnd, hsat, hfb, -⟩ := hf
        unfold parseRow
        rw [h, hd, ha, hb, hty, hrnd, bitAt_of_fld hsat, bitAt_of_fld hfb, Spec.ofCode_code, Spec.ofCode_code,
          Spec.ofCode_code, Ty.ofCode_code, Rnd.ofCode_code]; rfl
  | mwr a b c ty fb =>
    exact packP_reads [(10, 8, c.code), (6, 4, ty.code), (1, 1, b2n fb)] rfl rfl (by decide) (Spec.code_lt a) (Spec.code_lt b)
      (by simp [Layout.Fits, Spec.code_lt, Ty.code_lt, b2n_le]) (by simp only [Layout.word]; omega) fun w h _ ha hb hf => by
        simp only [Layout.ReadIn, List.forall_mem_cons] at hf
        obtain ⟨hc, hty, hfb, -⟩ := hf
        unfold parseRow
        rw [h, ha, hb, hc, hty, bitAt_of_fld hfb, Spec.ofCode_code, Spec.ofCode_code, Spec.ofCode_code, Ty.ofCode_code]; rfl
  | sread d n =>
    exact packP_reads [(10, 8, n.toNat)] rfl rfl (Spec.code_lt d) (by decide) (by decide) (by simp [Layout.Fits, n.isLt])
      rfl fun w h hd _ _ hf => by
        have h10 := hf _ (List.mem_cons_self ..)
        unfold parseRow; rw [h, hd, h10, Spec.ofCode_code, BitVec.ofNat_toNat, BitVec.setWidth_eq]; rfl
  | swrite a n =>
    exact packP_reads [(10, 8, n.toNat)] rfl rfl (by decide) (Spec.code_lt a) (by decide) (by simp [Layout.Fits, n.isLt])
      rfl fun w h _ ha _ hf => by
        have h10 := hf _ (List.mem_cons_self ..)
        unfold parseRow; rw [h, ha, h10, Spec.ofCode_code, BitVec.ofNat_toNat, BitVec.setWidth_eq]; rfl
  | rftRetry | rftNext | rftAbort =>
    exact packP_reads [] rfl rfl (by decide) (by decide) (by decide) trivial rfl fun w h _ _ hb _ => by
      unfold parseRow; rw [h, hb]; rfl
  | trap imm =>
    exact reads_of_layout (op := 0x92) [(0, 32, imm.toNat)] rfl (by simp [Layout.Fits, imm.isLt])
      (by change 0x92 * 2 ^ 56 + imm.toNat = _; simp only [Layout.word]; omega) fun w h hf => by
        have h0 := hf _ (List.mem_cons_self ..)
        unfold parseRow; rw [h, h0, BitVec.ofNat_toNat, BitVec.setWidth_eq]; rfl
  | mboxBind d a p =>
    exact box_reads (k := 0) (d := d) (a := a) (p := p)
      (show 0x78 * 2 ^ 56 + d.code * 2 ^ 48 + a.code * 2 ^ 40 + p.toNat = _ by omega) (by decide)
      fun w h hd ha hk hp => by unfold parseRow; rw [h, hd, ha, hk, hp]; rfl
  | mboxUnbind d a p | mboxCount d a p =>
    exact box_reads rfl (by decide) fun w h hd ha hk hp => by unfold parseRow; rw [h, hd, ha, hk, hp]; rfl
  -- a step of the device has no word
  | _ => exact absurd rfl h

/-! ## The decoder -/

theorem encode_eq_some_iff {i : Instr} {n : Nat} : encode i = some n ↔ encodeRow i ≠ 0 ∧ encodeRow i = n := by
  unfold encode
  split <;> simp [*]

/-- A word of an assigned opcode holds no header's signature. -/
theorem isHeaderWord_of_opcoded {n : Nat} (h : Opcoded n) : isHeaderWord (BitVec.ofNat 64 n) = false := by
  obtain ⟨hlt, ho⟩ := h
  have hop := lt_of_opcodeAssigned ho
  simp only [isHeaderWord, BitVec.toNat_ofNat, Nat.mod_eq_of_lt hlt, fld, beq_eq_false_iff_ne] at hop ⊢
  omega

/-- R121: what the decoder's checks ask of a word. -/
theorem decode?_eq_some_iff {w : Word} {i : Instr} : decode? w = some i ↔ isHeaderWord w = false ∧
    opcodeAssigned (fld w.toNat 56 8) = true ∧ parseRow w.toNat = some i ∧ i.wf = true ∧ encode i = some w.toNat := by
  cases hh : isHeaderWord w with
  | true => simp [decode?, decode, hh]
  | false =>
    cases ho : opcodeAssigned (fld w.toNat 56 8) with
    | false => simp [decode?, decode, hh, ho]
    | true =>
      cases hr : parseRow w.toNat with
      | none => simp [decode?, decode, hh, ho, hr]
      | some j =>
        by_cases hj : (j.wf && encode j == some w.toNat) = true
        · have hd : decode? w = some j := by simp only [decode?, decode, hh, ho, hr, hj]; rfl
          simp only [hd, Option.some.injEq, true_and]
          simp only [Bool.and_eq_true, beq_iff_eq] at hj
          exact ⟨fun h => ⟨h, h ▸ hj⟩, fun h => h.1⟩
        · have hd : decode? w = none := by simp only [decode?, decode, hh, ho, hr, hj]; rfl
          simp only [hd, reduceCtorEq, Option.some.injEq, true_and, false_iff]
          rintro ⟨rfl, h⟩
          exact hj (by simp [h])

/-! ## The header (R119) -/

theorem Class.code_lt (x : Class) : x.code < 8 := by cases x <;> decide

theorem Header.setCode_lt (x : Option (Fin 12)) : Header.setCode x < 16 := by revert x; decide

def Header.layout (h : Header) : Layout :=
  [(58, 6, 0b111111), (55, 3, h.cls.code), (51, 4, h.count.val), (39, 12, h.wait.toNat), (35, 4, Header.setCode h.setA),
   (31, 4, Header.setCode h.setB), (30, 1, b2n h.yield), (0, 30, 0)]

theorem Header.layout_fits (h : Header) : (Header.layout h).Fits 64 := by
  simp [Header.layout, Layout.Fits, Class.code_lt, h.count.isLt, h.wait.isLt, Header.setCode_lt, b2n_le]

theorem Header.pack_eq (h : Header) : h.pack = (Header.layout h).word := by
  simp only [Header.pack, Header.layout, Layout.word]; omega

theorem Header.toNat_pack (h : Header) : (BitVec.ofNat 64 h.pack).toNat = h.pack := by
  rw [BitVec.toNat_ofNat, Header.pack_eq]
  exact Nat.mod_eq_of_lt (Layout.word_lt (Header.layout_fits h))

/-- The fields of a header are read back from its word. -/
theorem Header.readIn_pack (h : Header) : (Header.layout h).ReadIn h.pack := by
  rw [Header.pack_eq]; exact Layout.readIn_word (Header.layout_fits h)

theorem isHeaderWord_pack (h : Header) : isHeaderWord (BitVec.ofNat 64 h.pack) = true := by
  have hsig : fld h.pack 58 6 = 63 := Header.readIn_pack h _ (List.mem_cons_self ..)
  rw [isHeaderWord, Header.toNat_pack, hsig]; rfl

theorem decodeHeader_of_readIn {h : Header} {w : Word} (hr : (Header.layout h).ReadIn w.toNat) : decodeHeader w = some h := by
  simp only [Layout.ReadIn, Header.layout, List.forall_mem_cons] at hr
  obtain ⟨hsig, hcls, hcount, hwait, ha, hb, hy, hz, -⟩ := hr
  have hc : Fin.ofNat 16 h.count.val = h.count := by simp
  simp only [decodeHeader, hsig, hcls, hcount, hwait, ha, hb, hz, bitAt_of_fld hy, Class.ofCode_code, Header.setOf_setCode,
    and_self, if_true, hc, BitVec.ofNat_toNat, BitVec.setWidth_eq]

theorem decodeHeader_pack (h : Header) : decodeHeader (BitVec.ofNat 64 h.pack) = some h :=
  decodeHeader_of_readIn (by rw [Header.toNat_pack]; exact Header.readIn_pack h)

end Sys2Proof.Laws

namespace Sys2Proof
open Laws

/-- Settles O1: each format's fields are cut out of its words, and the decoder's row of the opcode puts them together again. -/
theorem decodeEncode : Obligations.DecodeEncode := by
  intro i n hwf hn
  obtain ⟨h0, rfl⟩ := encode_eq_some_iff.1 hn
  obtain ⟨hop, hparse⟩ := reads_of_wf i hwf h0
  have hh := isHeaderWord_of_opcoded hop
  have hw : (BitVec.ofNat 64 (encodeRow i)).toNat = encodeRow i := by
    rw [BitVec.toNat_ofNat]; exact Nat.mod_eq_of_lt hop.1
  exact ⟨hop.1, hh, decode?_eq_some_iff.2 ⟨hh, by rw [hw]; exact hop.2, by rw [hw]; exact hparse, hwf, by rw [hw]; exact hn⟩⟩

/-- Settles O2: a header's fields are cut out of its word, and the decoder compares what it reads with the word again. -/
theorem codeWordsRead : Obligations.CodeWordsRead := by
  refine ⟨fun h => ⟨isHeaderWord_pack h, decodeHeader_pack h⟩, fun w i h => ?_⟩
  obtain ⟨hh, ho, -, hwf, henc⟩ := decode?_eq_some_iff.1 h
  exact ⟨hwf, henc, hh, ho⟩

/-- Settles O3, by evaluating the decoder on each word. -/
theorem wordsOfSpec : Obligations.WordsOfSpec :=
  ⟨rfl, rfl, rfl, rfl, rfl, rfl, rfl, rfl, rfl, rfl, rfl, rfl, rfl, rfl, rfl, rfl, rfl⟩

end Sys2Proof
end

