-- ==== Sys2Proof/Proofs/Stops.lean ====
section
/-! Where the machine stops (R123, R232): an instruction that a group issues and a step of the device always answer a next state, but
a host access to an address that R232 leaves unbacked. The claim of the family is settled here from the split of the rows into
those a group runs and those the device steps by itself. -/
namespace Sys2Proof.Machine
open Sys2Proof.Laws

/-! ## Instructions of a group and steps of the device -/

/-- A group runs the instruction: it takes its effect, traps or waits for the group `State.cur`. -/
def RunsForGroup (i : Instr) : Prop := (∃ body, ∀ s, exec i s = runInstr body s) ∨ ∃ body, ∀ s, exec i s = runControl body s

/-- A step of the device with no word, and no access of the host through BAR2. -/
def DeviceStep (i : Instr) : Prop := encodeRow i = 0 ∧ ∀ off size d, i ≠ .hostBar2Access off size d

theorem OForm.pack_ne_zero (f : OForm) {op : Nat} (h : 0 < op) : f.pack op ≠ 0 := by unfold OForm.pack; omega
theorem QForm.pack_ne_zero (f : QForm) {op : Nat} (h : 0 < op) : f.pack op ≠ 0 := by unfold QForm.pack; omega
theorem IForm.pack_ne_zero (f : IForm) {op : Nat} (h : 0 < op) : f.pack op ≠ 0 := by unfold IForm.pack; omega
theorem MForm.pack_ne_zero (f : MForm) {op : Nat} (h : 0 < op) : f.pack op ≠ 0 := by unfold MForm.pack; omega
theorem AForm.pack_ne_zero (f : AForm) {op : Nat} (h : 0 < op) : f.pack op ≠ 0 := by unfold AForm.pack; omega
theorem XForm.pack_ne_zero (f : XForm) : f.pack ≠ 0 := by unfold XForm.pack; omega
theorem EForm.pack_ne_zero (f : EForm) : f.pack ≠ 0 := by unfold EForm.pack; omega
theorem packC_ne_zero {op kind sub index : Nat} {cond : Spec} {t : BitVec 32} (h : 0 < op) : packC op cond kind sub index t ≠ 0 := by
  unfold packC; omega
theorem packP_ne_zero {op d a b c low : Nat} (h : 0 < op) : packP op d a b c low ≠ 0 := by unfold packP; omega
theorem trap_ne_zero {imm : BitVec 32} : 0x92 * 2 ^ 56 + imm.toNat ≠ 0 := by omega

/-- Each row of the table is an instruction that a group runs, with a word, or a step of the device without one. -/
theorem runsForGroup_or_device (i : Instr) : (encodeRow i ≠ 0 ∧ RunsForGroup i) ∨
    (encodeRow i = 0 ∧ ∃ f, ∀ s, exec i s = event f s) ∨ ∃ off size d, i = .hostBar2Access off size d := by
  cases i with
  | hostBar2Access off size d => exact .inr (.inr ⟨off, size, d, rfl⟩)
  | nop => exact .inl ⟨by decide, .inl ⟨fun _ s => .ok s, fun _ => rfl⟩⟩
  | bra | brd | brk | cont | exit | tokenIf | tokenLoop | joinIf | joinLoop | brx | call | callx | ret | yield =>
    exact .inl ⟨packC_ne_zero (by decide), .inr ⟨_, fun _ => rfl⟩⟩
  | add f | sub f | mul f | mulh f | mad f | and f | or f | xor f | andn f | shl f | shr f | sar f | rot f | min f
  | max f | sel f | abs f | neg f | clz f | popc f | brev f | bfe f | bfi f | cmp f | lea f | mov f | idot4 f | fadd f
  | fsub f | fmul f | ffma f | fmin f | fmax f | fminnm f | fmaxnm f | fcmp f | fclass f | frnd f | fdiv f | fsqrt f
  | fdot2 f | fabs f | fneg f | fexp2f f | flog2m f | frcp f | frsq f | fsinpi f | fcospi f | fldexp f | fgetexp f
  | fgetman f | fcvt f | itof f | ftoi f | shfl f | vote f | redux f | scan f | elect f | bcast f | setlane f =>
    exact .inl ⟨OForm.pack_ne_zero f (by decide), .inl ⟨_, fun _ => rfl⟩⟩
  | qcvt f | dqcvt f | qscale f => exact .inl ⟨QForm.pack_ne_zero f (by decide), .inl ⟨_, fun _ => rfl⟩⟩
  | movi f | addi f | andi f | ori f | cmpi f => exact .inl ⟨IForm.pack_ne_zero f (by decide), .inl ⟨_, fun _ => rfl⟩⟩
  | ld f | st f | ldu f | stu f | ldfe f | stfe f | bufstRecord f | bufstBuffer f | pref f | vdec f | venc f | fence f
  | flushl f | invl f | subscr f | mst f =>
    exact .inl ⟨MForm.pack_ne_zero f (by decide), .inl ⟨_, fun _ => rfl⟩⟩
  | atom f | atomu f => exact .inl ⟨AForm.pack_ne_zero f (by decide), .inl ⟨_, fun _ => rfl⟩⟩
  | mma f => exact .inl ⟨XForm.pack_ne_zero f, .inl ⟨_, fun _ => rfl⟩⟩
  | bcopy f => exact .inl ⟨EForm.pack_ne_zero f, .inl ⟨_, fun _ => rfl⟩⟩
  | stream | sclose | tbar | depsig | waypt | coll | ctxsv | tlbinvPage | tlbinvContext | mzero | mwait | mappg
  | launch | barw | bara | mldb | mrd | mwr | sread | swrite =>
    exact .inl ⟨packP_ne_zero (by decide), .inl ⟨_, fun _ => rfl⟩⟩
  | pauseTime n => exact .inl ⟨packC_ne_zero (by decide), .inr ⟨pauseFor n false, fun _ => rfl⟩⟩
  | pauseRecv n => exact .inl ⟨packC_ne_zero (by decide), .inr ⟨pauseFor n true, fun _ => rfl⟩⟩
  | wsyncWait | wsyncWb | winfo => exact .inl ⟨packC_ne_zero (by decide), .inl ⟨_, fun _ => rfl⟩⟩
  | rftRetry | rftNext | rftAbort => exact .inl ⟨packP_ne_zero (by decide), .inr ⟨_, fun _ => rfl⟩⟩
  | trap imm => exact .inl ⟨trap_ne_zero, .inl ⟨fun _ _ => trap Cause.userTrap (imm.zeroExtend 64), fun _ => rfl⟩⟩
  | mboxBind | mboxUnbind | mboxCount => exact .inl ⟨by intro h; change _ + _ = 0 at h; omega, .inl ⟨_, fun _ => rfl⟩⟩
  | _ => exact .inr (.inl ⟨rfl, _, fun _ => rfl⟩)

/-! ## Where an instruction stops -/

theorem RunsForGroup.next {i : Instr} (h : RunsForGroup i) {s : State} {c : Ctx} (hi : Issues s c) : ∃ t, exec i s = .next t := by
  obtain ⟨body, hb⟩ | ⟨body, hb⟩ := h <;> rw [hb] <;> exact runWith_next hi

theorem RunsForGroup.not_refused {i : Instr} (h : RunsForGroup i) (s : State) (x : Refusal) : exec i s ≠ .refused x := by
  have key (done : Ctx → State → State) (body : Ctx → State → Res State) : runWith done body s ≠ .refused x := by
    obtain ⟨t, ht⟩ | hf := runWith_cases done body s <;> simp [*]
  obtain ⟨body, hb⟩ | ⟨body, hb⟩ := h <;> rw [hb] <;> exact key _ body

/-- A step of the device always goes on. -/
theorem DeviceStep.next {i : Instr} (h : DeviceStep i) (s : State) : ∃ t, exec i s = .next t := by
  obtain ⟨h0, hb⟩ := h
  obtain ⟨hn, -⟩ | ⟨-, f, hf⟩ | ⟨off, size, d, rfl⟩ := runsForGroup_or_device i
  · exact absurd h0 hn
  · rw [hf]; exact event_next f s
  · exact absurd rfl (hb off size d)

theorem deviceStep_of_encode {i : Instr} (h : encode i = none) (hb : ∀ off size d, i ≠ .hostBar2Access off size d) : DeviceStep i :=
  ⟨by simpa [encode] using h, hb⟩

theorem exec_next_of_issues {i : Instr} {s : State} {c : Ctx} (hi : Issues s c) (hb : ∀ off size d, i ≠ .hostBar2Access off size d) :
    ∃ t, exec i s = .next t := by
  obtain ⟨-, h⟩ | ⟨h0, -⟩ | ⟨off, size, d, rfl⟩ := runsForGroup_or_device i
  · exact h.next hi
  · exact DeviceStep.next ⟨h0, hb⟩ s
  · exact absurd rfl (hb off size d)

/-- R232: an access through BAR2 goes on, or meets an unbacked address. -/
theorem execHostBar2Access_cases (off size : Nat) (d : Option Word) (s : State) :
    (∃ t, exec (.hostBar2Access off size d) s = .next t) ∨ exec (.hostBar2Access off size d) s = .fault .unbackedAddress := by
  change (∃ t, execHostBar2Access off size d s = .next t) ∨ execHostBar2Access off size d s = .fault .unbackedAddress
  unfold execHostBar2Access
  dsimp only
  split
  · exact .inl ⟨_, rfl⟩
  · split
    · exact .inr rfl
    · split
      · exact .inl ⟨_, rfl⟩
      · split <;> exact .inl ⟨_, rfl⟩

theorem exec_not_refused (i : Instr) (s : State) (x : Refusal) : exec i s ≠ .refused x := by
  obtain ⟨-, h⟩ | ⟨-, f, hf⟩ | ⟨off, size, d, rfl⟩ := runsForGroup_or_device i
  · exact h.not_refused s x
  · rw [hf]; simp [event]
  · obtain ⟨t, ht⟩ | hf := execHostBar2Access_cases off size d s <;> simp [*]

/-! ## The rows that a step may take -/

theorem deviceStep_of_mem_launchRows {s : State} {i : Instr} (h : i ∈ launchRows s) : DeviceStep i := by
  simp only [launchRows, List.mem_flatMap, List.mem_append, List.mem_cons, List.not_mem_nil, or_false, List.mem_ite_nil_right] at h
  obtain ⟨e, -, (rfl | rfl | rfl | rfl | rfl) | ⟨-, rfl⟩⟩ := h <;> exact ⟨rfl, nofun⟩

theorem deviceStep_of_mem_dispatcherRows {s : State} {i : Instr} (h : i ∈ dispatcherRows s) : DeviceStep i := by
  simp only [dispatcherRows, List.mem_append, List.mem_map] at h
  obtain ((⟨e, -, rfl⟩ | ⟨e, -, rfl⟩) | ⟨e, -, rfl⟩) | ⟨e, -, rfl⟩ := h <;> exact ⟨rfl, nofun⟩

theorem deviceStep_of_mem_groupRows {e : Nat × Group} {i : Instr} (h : i ∈ groupRows e) : DeviceStep i := by
  simp only [groupRows, List.mem_append, List.mem_cons, List.not_mem_nil, or_false, List.mem_map] at h
  obtain ((rfl | rfl | rfl | rfl | rfl | rfl | rfl) | ⟨x, -, rfl⟩) | ⟨x, -, rfl⟩ := h <;> exact ⟨rfl, nofun⟩

theorem deviceStep_of_mem_opRows {e : Nat × Op} {i : Instr} (h : i ∈ opRows e) : DeviceStep i := by
  unfold opRows at h
  split at h <;> simp only [List.mem_cons, List.not_mem_nil, or_false] at h
  case h_1 => obtain rfl | rfl | rfl := h <;> exact ⟨rfl, nofun⟩
  case h_5 | h_6 => obtain rfl | rfl | rfl | rfl | rfl := h <;> exact ⟨rfl, nofun⟩
  case h_7 => obtain rfl | rfl | rfl | rfl := h <;> exact ⟨rfl, nofun⟩
  all_goals obtain rfl | rfl := h <;> exact ⟨rfl, nofun⟩

theorem deviceStep_of_mem_fabricRows {f : Fabric} {i : Instr} (h : i ∈ fabricRows f) : DeviceStep i := by
  simp only [fabricRows, List.mem_append, List.mem_map] at h
  obtain (((⟨w, -, rfl⟩ | ⟨e, -, rfl⟩) | ⟨e, -, rfl⟩) | ⟨e, -, rfl⟩) | ⟨a, -, rfl⟩ := h
  case inl.inl.inl.inr => split <;> exact ⟨rfl, nofun⟩
  all_goals exact ⟨rfl, nofun⟩

theorem deviceStep_of_mem_recoveryRows {s : State} {i : Instr} (h : i ∈ recoveryRows s) : DeviceStep i := by
  simp only [recoveryRows, List.mem_append, List.mem_map, List.mem_flatMap, List.mem_cons, List.not_mem_nil, or_false,
    List.mem_ite_nil_right] at h
  obtain ((((((⟨e, -, rfl⟩ | ⟨e, -, rfl⟩) | ⟨x, -, rfl⟩) | ⟨v, -, rfl | rfl⟩) | ⟨x, -, rfl⟩) | ⟨w, -, rfl⟩) | ⟨-, rfl⟩) |
    rfl | rfl | rfl | rfl | rfl := h <;> exact ⟨rfl, nofun⟩

theorem deviceStep_of_mem_deviceRows {s : State} {i : Instr} (h : i ∈ deviceRows s) : DeviceStep i := by
  simp only [deviceRows, List.mem_append, List.mem_flatMap, List.mem_map] at h
  obtain (((((h | h) | ⟨e, -, h⟩) | ⟨e, -, h⟩) | ⟨e, -, rfl⟩) | h) | h := h
  · exact deviceStep_of_mem_launchRows h
  · exact deviceStep_of_mem_dispatcherRows h
  · exact deviceStep_of_mem_groupRows h
  · exact deviceStep_of_mem_opRows h
  · exact ⟨rfl, nofun⟩
  · exact deviceStep_of_mem_fabricRows h
  · exact deviceStep_of_mem_recoveryRows h

theorem deviceStep_of_clauseRow {gid : Nat} {g : Group} {i : Instr} (h : clauseRow gid g = some i) : DeviceStep i := by
  unfold clauseRow at h
  split at h
  · cases h
    split <;> exact ⟨rfl, nofun⟩
  · cases h; exact ⟨rfl, nofun⟩
  · cases h

/-- What the outside world presents is a step of the device, or an access through BAR2. -/
theorem encodeRow_of_isOutside {i : Instr} (h : isOutside i = true) : encodeRow i = 0 := by
  cases i with
  | qtailWrite | qctlEnable | abortHead | rewrite | qcackWrite | qstatClearStopped | warmSlotImageWrite | mailboxFiring
  | atomicRepeatPathLost | l1WriteBack | retentionEntry | linkRetry | linkStateChange | ctxsuspSuspend | ctxsuspResume
  | uncorrectableError | ckptcmdCheckpoint | attcmdQuote | biasFlipStart | migrationStart | devrstReset | powerOn
  | powerLoss | partLost | hostPortReturn | thermalThrottle | thermalShutdown | hostBar2Access | jibuegHostSnoop
  | jibuegNegotiation | pwrcapWrite | assayctlWrite | irqcauseClear | registerWrite => rfl
  | _ => cases h

/-! ## The step -/

/-- An enabled row goes on: a group's row has the issuing group whose word it is, every other is a step of the device. -/
theorem run_next_of_mem_enabledRows {s : State} {r : Row} (h : r ∈ enabledRows s) : ∃ t, r.run s = .next t := by
  obtain ⟨group, i⟩ := r
  cases group with
  | some gid =>
    obtain ⟨c, w, hc, hp, -, hd⟩ := fetched_eq_some_iff.1 (fetched_of_mem_enabledRows h rfl)
    have hi : Issues (s.select gid) c := ⟨hc, hp⟩
    refine exec_next_of_issues hi ?_
    rintro off size d rfl
    obtain ⟨-, -, -, -, henc⟩ := decode?_eq_some_iff.1 hd
    exact nomatch (show (none : Option Nat) = some w.toNat from henc)
  | none =>
    have hdev : DeviceStep i := by
      unfold enabledRows at h
      split at h
      · cases h
      · simp only [List.mem_append, List.mem_filterMap, List.mem_map, List.mem_filter, Option.map_eq_some_iff, Row.mk.injEq,
          true_and, reduceCtorEq, false_and, and_false, exists_false, false_or, exists_eq_right] at h
        obtain ⟨e, -, hrow⟩ | ⟨hrow, -⟩ := h
        · exact deviceStep_of_clauseRow hrow
        · exact deviceStep_of_mem_deviceRows hrow
    exact hdev.next s

theorem finishRow_next {s : State} {o : Host.Outcome State Fault Refusal} (h : ∃ t, o = .next t) : ∃ t, finishRow s o = .next t := by
  obtain ⟨t, rfl⟩ := h
  exact ⟨_, rfl⟩

/-- A step of the device's own always goes on. -/
theorem ownStep_next (s : State) : ∃ t, ownStep s = .next t := by
  cases hr : nextRow s with
  | none => simp [ownStep, hr, finishRow]
  | some r => rw [ownStep_of_nextRow hr]; exact finishRow_next (run_next_of_mem_enabledRows (nextRow_mem hr))

/-- A step goes on, or it takes an access of the host to an unbacked address. -/
theorem step_cases (s : State) : (∃ t, step s = .next t) ∨
    step s = .fault .unbackedAddress ∧ ∃ off size d, nextInput s = some (.hostBar2Access off size d) := by
  cases hi : nextInput s with
  | none => rw [step, nextStep, hi]; exact .inl (ownStep_next s)
  | some i =>
    rw [step_of_nextInput hi]
    split
    · exact .inl (ownStep_next s)
    · cases ho : isOutside i with
      | false => exact .inl (finishRow_next ⟨_, rfl⟩)
      | true =>
        rw [if_pos rfl]
        by_cases hb : ∃ off size d, i = .hostBar2Access off size d
        · obtain ⟨off, size, d, rfl⟩ := hb
          obtain hn | hf := execHostBar2Access_cases off size d { s with inputs := s.inputs.erase (.hostBar2Access off size d) }
          · exact .inl (finishRow_next hn)
          · exact .inr ⟨by rw [hf]; rfl, off, size, d, rfl⟩
        · have hdev : DeviceStep i := ⟨encodeRow_of_isOutside ho, fun off size d h => hb ⟨off, size, d, h⟩⟩
          exact .inl (finishRow_next (hdev.next _))

/-- Settles O5: every row is an instruction that a group runs or a step of the device, and a step takes the former only for a
group that issues. -/
theorem stepStops : Obligations.StepStops := by
  refine ⟨fun i s c hi hb => exec_next_of_issues hi hb, fun i s he hb => (deviceStep_of_encode he hb).next s, exec_not_refused,
    fun s x h => ?_, fun s x h => ?_⟩
  · obtain ⟨t, ht⟩ | ⟨hf, -⟩ := step_cases s <;> simp [h] at *
  · obtain ⟨t, ht⟩ | ⟨hf, hb⟩ := step_cases s
    · simp [h] at ht
    · exact ⟨by simpa [h] using hf, hb⟩

end Sys2Proof.Machine
end

