-- ==== Sys2Proof/Proofs/UniformForm.lean ====
section
/-! Elementwise instructions in the uniform form (R139, R199) and as sends (R335, R376, R377): the row of an elementwise
instruction is what it runs, computed once and handed to its destination. -/
namespace Sys2Proof.Machine
open Sys2Proof.Claims

/-! ## What an elementwise row runs -/

/-- A mask of n ones or 0 fits n bits. -/
theorem ite_ones_mod (n : Nat) (p : Prop) [Decidable p] :
    (if p then 2 ^ n - 1 else 0) % 2 ^ n = if p then 2 ^ n - 1 else 0 := by
  have := Nat.two_pow_pos n
  exact Nat.mod_eq_of_lt (by split <;> omega)

/-- The operation of an elementwise instruction counts by its values alone. -/
theorem runInstr_elementwise_congr {sh : Shape} {f : OForm} {op op' : Nat → Nat → Nat → Flagged Nat}
    (h : ∀ a b c, op a b c = op' a b c) :
    runInstr (elementwise sh f op) = runInstr (elementwise sh f op') := by
  rw [funext fun a => funext fun b => funext (h a b)]

theorem tyBits_immForm (f : IForm) : tyBits (immForm f).ty = if immUni f then 64 else 32 := by
  cases hu : immUni f <;> simp [immForm, hu, tyBits]

/-- IDOT4 adds the products of the four bytes to C, in the order of the bytes. -/
theorem execIdot4_of_aluRow {f : OForm} {r : AluRow} (h : aluRow (.idot4 f) = some r) :
    execIdot4 f = runInstr (elementwise r.sh r.f r.op) := by
  simp only [aluRow, Option.some.injEq] at h
  subst h
  exact runInstr_elementwise_congr fun a b c => by simp [List.range_succ]

theorem execMovi_of_aluRow {f : IForm} {r : AluRow} (h : aluRow (.movi f) = some r) :
    execMovi f = runInstr (elementwise r.sh r.f r.op) := by
  simp only [aluRow, Option.some.injEq] at h
  subst h
  unfold execMovi immediate
  exact runInstr_elementwise_congr fun a b c => by rw [Nat.mod_mod]

theorem execCmpi_of_aluRow {f : IForm} {r : AluRow} (h : aluRow (.cmpi f) = some r) :
    execCmpi f = runInstr (elementwise r.sh r.f r.op) := by
  have hn : tyBits (immForm { f with a := ⟨f.a.spec, .none, 0⟩ }).ty = if immUni f then 64 else 32 := tyBits_immForm _
  simp only [aluRow, Option.some.injEq] at h
  subst h
  unfold execCmpi immediate
  exact runInstr_elementwise_congr fun a b c => by rw [hn, ite_ones_mod]; rfl

/-- R203, R210, R211, R219: an elementwise instruction runs `elementwise` with the fields, widths and operation of its row. -/
theorem exec_of_aluRow {i : Instr} {r : AluRow} (h : aluRow i = some r) : exec i = runInstr (elementwise r.sh r.f r.op) := by
  cases i with
  | add f | sub f | mul f | mulh f | mad f | and f | or f | xor f | andn f | shl f | shr f | sar f | rot f | min f
  | max f | abs f | neg f | clz f | popc f | brev f | bfe f | bfi f | mov f | addi f | andi f | ori f | fadd f | fsub f
  | fmul f | ffma f | fmin f | fmax f | fminnm f | fmaxnm f | fclass f | frnd f | fabs f | fneg f | fdiv f | fsqrt f
  | fdot2 f | fexp2f f | flog2m f | frcp f | frsq f | fsinpi f | fcospi f | fldexp f | fgetexp f | fgetman f | fcvt f
  | itof f | ftoi f =>
    cases h; rfl
  | idot4 f => exact execIdot4_of_aluRow h
  | movi f => exact execMovi_of_aluRow h
  | cmpi f => exact execCmpi_of_aluRow h
  | _ => cases h

/-! ## Destinations of the uniform form (R199, R335) -/

@[simp] theorem writeUniform_s (c : Ctx) (n : Fin 64) (v : Nat) (s : State) :
    writeUniform c (.s n) v s = .ok (s.modGroup c.gid fun g => g.writeS n.val (BitVec.ofNat 64 v)) := rfl

/-- An elementwise instruction in its uniform form computes once and hands the result to its destination. -/
theorem elementwise_uniform {sh : Shape} {f : OForm} {op : Nat → Nat → Nat → Flagged Nat} {c : Ctx} {s : State} {x : Sources}
    (hu : f.uni = true) (hd : dstOk c.g true sh.d f.d = true) (hx : readSources c f sh s = .ok x) :
    elementwise sh f op c s =
      (writeUniform c f.d (op (x.a 0) (x.b 0) (x.c 0)).val x.s).map fun t => t.raiseFp c.gid (op (x.a 0) (x.b 0) (x.c 0)).fp := by
  simp only [elementwise, hu, hd, hx, guardOp_true, Res.ok_bind, if_true]
  cases writeUniform c f.d (op (x.a 0) (x.b 0) (x.c 0)).val x.s <;> rfl

theorem writeUniform_txq_of_performOnce {c : Ctx} {n : Fin 4} {v : Nat} {s t : State} {w : List (Nat × Word)}
    (h : performOnce c (c.portSig [0x200 + n.val, v])
      (fun u => do let u ← sendFlit c n.val (BitVec.ofNat 64 v) u; .ok ([], u)) s = .ok (w, t)) :
    writeUniform c (.txq n) v s = .ok t := by
  simp only [writeUniform, h, Res.ok_bind]

/-- Settles O11: the uniform form of `elementwise`, at an s register and at a send port. -/
theorem uniformFormCompletes : Obligations.UniformFormCompletes := by
  refine ⟨fun i r hr s c n x hi hu hd hx => ?_, fun i r hr s t c n x hi hu hd hsup hx => ⟨fun w hw => ?_, fun hs ht => ?_⟩⟩
  · rw [exec_of_aluRow hr]
    refine runInstr_ok hi ?_
    rw [elementwise_uniform hu (by simp [dstOk, hd]) hx, hd]
    rfl
  · rw [exec_of_aluRow hr]
    refine runInstr_ok hi ?_
    rw [elementwise_uniform hu (by simp [dstOk, hd, hsup]) hx, hd, writeUniform_txq_of_performOnce hw]
    rfl
  · rw [exec_of_aluRow hr]
    refine runInstr_ok hi ?_
    rw [elementwise_uniform hu (by simp [dstOk, hd, hsup]) hx, hd,
      writeUniform_txq_of_performOnce (by rw [performOnce_of_solo hs, ht]; rfl)]
    rfl

end Sys2Proof.Machine
end

