-- ==== Sys2Proof/Proofs/HandlerWrites.lean ====
section
/-! The frame of an elementwise instruction fails in the handler (R353): there s56 to s63 name the supervisor registers, and an
instruction in the uniform form may write one of them. -/
namespace Sys2Proof.Machine
open Sys2Proof.Claims

/-! ## A group in its handler whose MOV writes s60 -/

/-- A header whose clause holds one ALU instruction. -/
def soloHeader : Header := { cls := .alu, count := 0, wait := 0, setA := none, setB := none, yield := false }

def soloRegion : Region :=
  { ctx := 0, image := 0, origin := 0, rows := 1, cols := 1, map := [(0, 0)], code := [BitVec.ofNat 64 soloHeader.pack], table := [],
    images := [] }

def soloLaunch : Launch :=
  { record := 0, origin := .child 0 0, queue := 0, seq := 0, ctx := 0, prio := 0, region := some 2, tablesRead := true,
    dispatched := [0], ran := true, table := some [] }

def soloTeam : Team := { launch := 1, index := 0, place := 0, logical := 0, spadSize := 65536, nslots := 128, ntiles := 16, segs := [0] }

/-- Four lanes in the handler, where s56 to s63 are the supervisor registers. -/
def handlerGroup : Group :=
  { team := 3, slot := 0, width := 4, idx := 1, phase := .issuing, exec := 0xF, live := 0xF, ring := 128, wlim := 0x8000, sup := true }

def handlerState : State :=
  { State.reset with
    cur := 4, nextId := 5, launches := [(1, soloLaunch)], regions := [(2, soloRegion)], teams := [(3, soloTeam)],
    groups := [(4, handlerGroup)] }

def handlerCtx : Ctx := ⟨4, handlerGroup, soloTeam, 1, soloLaunch, soloRegion, soloHeader⟩

/-- MOV s60, 5 in the uniform form. -/
def movToSupervisor : OForm := ⟨.s 60, ⟨.int 5, .none, 0⟩, ⟨.v 0, .none, 0⟩, .v 0, .i32, .rne, false, false, true⟩

theorem issues_handler : Issues handlerState handlerCtx := by
  refine ⟨?_, rfl⟩
  have hc : codeAt soloRegion 0 = some (BitVec.ofNat 64 soloHeader.pack) := by decide
  have hd : decodeHeader (BitVec.ofNat 64 soloHeader.pack) = some soloHeader := by decide
  simp [State.ctx?, handlerState, handlerCtx, State.group?, State.team?, State.launch?, State.region?, SMap.entry?, handlerGroup, soloTeam,
    soloLaunch, hc, hd]

/-- The supervisor registers of the group after a step. -/
def supervisorAfter (o : Host.Outcome State Fault Refusal) : Option (SMap Word) :=
  match o with
  | .next t => (t.group? 4).map (·.su)
  | _ => none

/-- R353: in the handler the write of s60 goes to the group's supervisor registers. -/
theorem supervisorAfter_mov : supervisorAfter (exec (.mov movToSupervisor) handlerState) = some [(4, 5)] := by decide +kernel

/-- Refutes O12: in the handler an elementwise instruction in the uniform form may name s56 to s63, which are then the supervisor
registers, so the frame that keeps these whatever the destination does not hold. -/
theorem not_elementwiseFrame : ¬ Obligations.ElementwiseFrame := by
  intro h
  obtain ⟨t, ht⟩ : ∃ t, exec (.mov movToSupervisor) handlerState = .next t := ⟨_, rfl⟩
  obtain ⟨-, -, g, hg, -, hsu, -⟩ := h (.mov movToSupervisor) _ rfl handlerState t handlerCtx issues_handler (by decide) (by decide)
    (by decide) ht
  have hw := supervisorAfter_mov
  rw [ht, supervisorAfter, show t.group? 4 = some g from hg, Option.map_some, hsu] at hw
  exact absurd hw (by decide)

end Sys2Proof.Machine
end

