-- ==== Sys2Proof/Proofs/StreamPops.lean ====
section
/-! A pop of a stream (R69, R261) by the lead of a convoy also enters the vector in the convoy's log (R378), on the small machine of
HandlerWrites with its group outside the handler. -/
namespace Sys2Proof.Machine
open Sys2Proof.Claims

/-! ## The lead of a convoy pops a stream -/

/-- A stream of one element a vector, with its first vector fetched. -/
def leadStream : Stream := { desc := 1, record := 0, ready := true, fetched := [{ lanes := [{ val := 7 }] }] }

def leadGroup : Group := { handlerGroup with sup := false, exec := 1, streams := [(0, leadStream)] }

def leadState : State := { handlerState with groups := [(4, leadGroup)], convoys := [{ lead := 3, escort := 7 }] }

def leadCtx : Ctx := ⟨4, leadGroup, { soloTeam with side := .lead }, 1, soloLaunch, soloRegion, soloHeader⟩

/-- The number of operations that the convoys have logged. -/
def commitsAfter (r : Res (List Lane × State)) : List Nat :=
  match r with
  | .ok (_, t) => t.convoys.map (·.commits.length)
  | .error _ => []

/-- R378: the lead enters the vector that it pops in the log of its convoy. -/
theorem commitsAfter_popStream_lead : commitsAfter (popStream leadCtx 0 leadState) = [1] := by decide +kernel

theorem leadStream_no_traps : ∀ l ∈ lanes leadGroup.exec, ∀ x, [({ val := 7 } : StreamLane)][l]? = some x → x.trap = none := by
  intro l _ x hx
  match l, hx with
  | 0, hx => cases hx; rfl
  | n + 1, hx => simp at hx

/-- Refutes O9: of the next state of a pop the statement names the group alone, but the lead of a convoy also enters the vector in
the convoy's log (R378). -/
theorem not_operandsRead : ¬ Obligations.OperandsRead := by
  intro ⟨_, _, _, h⟩
  have hp := h leadState leadCtx 0 leadGroup leadStream { lanes := [{ val := 7 }] } [] rfl rfl rfl (by decide +kernel) rfl
    leadStream_no_traps
  have hc := commitsAfter_popStream_lead
  rw [hp] at hc
  exact absurd hc (by decide +kernel)

end Sys2Proof.Machine
end

