-- ==== Sys2Proof/Proofs/Divergence.lean ====
section
/-! Divergent branches: condition masks and targets (R132, R171), BRD on its token (R177), and the pushes of TOKEN.IF and TOKEN.LOOP
(R167, R176). -/
namespace Sys2Proof.Machine
open Sys2Proof.Claims

/-! ## Control instructions that wait -/

/-- A control instruction that waits leaves its port. -/
theorem runControl_wait {s s' : State} {c : Ctx} {body : Ctx → State → Res State} (h : Issues s c)
    (hb : body c s = .error (.wait s')) : runControl body s = .next (c.waitHere s') := by
  simp [runControl, runWith, h.1, h.2, hb]

/-! ## Condition masks (R132, R171) -/

@[simp] theorem condMask_zero (c : Ctx) : condMask c (.int 0) = .ok c.g.exec := rfl

@[simp] theorem condMask_s (c : Ctx) (n : Fin 64) : condMask c (.s n) = .ok (c.g.readS n.val &&& c.g.exec) := rfl

theorem condMask_of_other {c : Ctx} {x : Spec} (h0 : x ≠ .int 0) (hs : isSReg x = false) :
    condMask c x = .error (.trap { cause := 0x02 }) := by
  unfold condMask
  split
  · exact absurd rfl h0
  · cases hs
  · rfl

/-! ## Targets (R171) -/

theorem checkTarget_of_targetAt {c : Ctx} {x : Int} {a : BitVec 32} (h : TargetAt c x a) : checkTarget c x = .ok a := by
  obtain ⟨rfl, hh⟩ := h
  have hf : (0 : Int) ≤ a.toNat ∧ (a.toNat : Int).toNat < 2 ^ 32 ∧ isHeaderAt c.r (a.toNat : Int).toNat :=
    ⟨by omega, by simpa using a.isLt, by simpa using hh⟩
  rw [checkTarget, if_pos hf]
  simp

theorem checkTarget_of_no_target {c : Ctx} {x : Int} (h : ∀ a, ¬ TargetAt c x a) :
    checkTarget c x = .error (.trap { cause := 0x03, addr := BitVec.ofInt 64 x }) := by
  rw [checkTarget, if_neg]
  · rfl
  · rintro ⟨h0, hlt, hh⟩
    have hn : (BitVec.ofNat 32 x.toNat).toNat = x.toNat := by simpa using Nat.mod_eq_of_lt hlt
    exact h (BitVec.ofNat 32 x.toNat) ⟨by rw [hn]; omega, by rwa [hn]⟩

/-! ## The innermost token -/

theorem innermost_cons {c : Ctx} {t : Token} {rest : List Token} (s : State) (h : c.g.tokens = t :: rest) :
    innermost c s = .ok (some t) := by
  simp [innermost, h]

theorem topOf_of_match {c : Ctx} {k : TokKind} {t : Token} {rest : List Token} (s : State) (h : c.g.tokens = t :: rest)
    (hk : t.kind = k) (hd : t.depth.toNat = c.g.depth) : topOf c k s = .ok (t, rest) := by
  simp [topOf, innermost_cons s h, h, hk, hd]

theorem topOf_of_mismatch {c : Ctx} {k : TokKind} {t : Token} {rest : List Token} (s : State) (h : c.g.tokens = t :: rest)
    (hk : t.kind ≠ k ∨ t.depth.toNat ≠ c.g.depth) : topOf c k s = .error (.trap { cause := 0x04 }) := by
  have hn : ¬ (t.kind = k ∧ t.depth.toNat = c.g.depth) := fun ⟨hk', hd⟩ => hk.elim (· hk') (· hd)
  simp [topOf, innermost_cons s h, hn, Cause.illegalConvergence]

theorem topOf_of_absent {c : Ctx} {k : TokKind} (s : State) (h : c.g.tokens = []) (hs : c.g.spilledTok = 0) :
    topOf c k s = .error (.trap { cause := 0x04 }) := by
  simp [topOf, innermost, h, hs, Cause.illegalConvergence]

/-! ## BRD (R177) -/

section
variable {s : State} {c : Ctx} {cond : Spec} {target : BitVec 32} {m : Mask}

theorem brdTo_none (hm : condMask c cond = .ok 0) : brdTo cond target c s = .ok (c.jump c.g c.nextClause s) := by
  simp [brdTo, hm]

theorem brdTo_no_target (hm : condMask c cond = .ok m) (h0 : m ≠ 0) (ht : ∀ a, ¬ TargetAt c (c.target target) a) :
    brdTo cond target c s = .error (.trap { cause := 0x03, addr := BitVec.ofInt 64 (c.target target) }) := by
  simp only [brdTo, hm, Res.ok_bind, if_neg h0, checkTarget_of_no_target ht, Res.error_bind]

variable {a : BitVec 32} (ht : TargetAt c (c.target target) a)
include ht

theorem brdTo_all (hm : condMask c cond = .ok c.g.exec) (h0 : c.g.exec ≠ 0) : brdTo cond target c s = .ok (c.jump c.g a s) := by
  simp only [brdTo, hm, Res.ok_bind, if_neg h0, checkTarget_of_targetAt ht, if_true]

/-- A mixed mask outside the handler goes by the innermost token. -/
theorem brdTo_mixed (hm : condMask c cond = .ok m) (h0 : m ≠ 0) (hx : m ≠ c.g.exec) (hs : c.g.sup = false) :
    brdTo cond target c s = (topOf c .cond s >>= fun p =>
      if p.1.pending ≠ 0 ∨ p.1.cont ≠ 0 then trap Cause.illegalConvergence
      else .ok (c.jump { c.g with tokens := { p.1 with pending := m, join := a } :: p.2, exec := c.g.exec &&& ~~~m } c.nextClause s)) := by
  simp only [brdTo, hm, Res.ok_bind, if_neg h0, checkTarget_of_targetAt ht, if_neg hx, hs, Bool.false_eq_true, if_false]

theorem brdTo_records {t : Token} {rest : List Token} (hm : condMask c cond = .ok m) (h0 : m ≠ 0) (hx : m ≠ c.g.exec)
    (hs : c.g.sup = false) (h : c.g.tokens = t :: rest) (hk : t.kind = .cond) (hd : t.depth.toNat = c.g.depth) (hp : t.pending = 0)
    (hc : t.cont = 0) : brdTo cond target c s =
      .ok (c.jump { c.g with tokens := { t with pending := m, join := a } :: rest, exec := c.g.exec &&& ~~~m } c.nextClause s) := by
  rw [brdTo_mixed ht hm h0 hx hs, topOf_of_match s h hk hd]
  simp [hp, hc]

theorem brdTo_bad_token {t : Token} {rest : List Token} (hm : condMask c cond = .ok m) (h0 : m ≠ 0) (hx : m ≠ c.g.exec)
    (hs : c.g.sup = false) (h : c.g.tokens = t :: rest)
    (hb : t.kind ≠ .cond ∨ t.depth.toNat ≠ c.g.depth ∨ t.pending ≠ 0 ∨ t.cont ≠ 0) :
    brdTo cond target c s = .error (.trap { cause := 0x04 }) := by
  rw [brdTo_mixed ht hm h0 hx hs]
  by_cases hm : t.kind = .cond ∧ t.depth.toNat = c.g.depth
  · rw [topOf_of_match s h hm.1 hm.2, Res.ok_bind, if_pos (by tauto)]
    rfl
  · rw [topOf_of_mismatch s h (by tauto)]
    rfl

theorem brdTo_no_token (hm : condMask c cond = .ok m) (h0 : m ≠ 0) (hx : m ≠ c.g.exec) (hs : c.g.sup = false)
    (h : c.g.tokens = []) (hz : c.g.spilledTok = 0) : brdTo cond target c s = .error (.trap { cause := 0x04 }) := by
  rw [brdTo_mixed ht hm h0 hx hs, topOf_of_absent s h hz]
  rfl

end

/-! ## Pushes (R167, R176) -/

/-- The tokens spilled once a push has settled fit above the window stack. -/
def Group.PushFits (g : Group) : Prop :=
  g.tokens.length + g.spilledTok < 16 ∨
    g.wbp.toNat + 4 * g.width * (g.base + 112) + 32 * (g.tokens.length + g.spilledTok + 1 - 16) ≤ g.wlim.toNat

theorem Group.pushFits_iff (g : Group) : g.PushFits ↔
    ¬ (0 < g.spilledAfterPush ∧ g.wlim.toNat < g.wbp.toNat + 4 * g.width * g.top + 32 * g.spilledAfterPush) := by
  unfold PushFits spilledAfterPush top
  omega

section
variable {s : State} {c : Ctx} {i : Instr} {t : Token} {body : Ctx → State → Res State} (hi : Issues s c)
  (he : ∀ s, exec i s = runControl body s) (hb : body c s = tokenThen t c s)
include hi he hb

/-- An instruction that pushes a token and goes on. -/
theorem exec_of_push : (c.g.PushFits → c.g.tokens.length < 16 → exec i s = .next (c.ended (pushed c t s))) ∧
    (c.g.PushFits → 16 ≤ c.g.tokens.length → c.g.porterTrap = none →
      exec i s = .next (c.waitHere (s.setGroup c.gid { c.g with wantTok := true }))) ∧
    (¬ c.g.PushFits → exec i s = .next (c.takeTrap { cause := 0x07 } (c.settled s))) := by
  rw [he, c.g.pushFits_iff]
  refine ⟨fun hf hl => runControl_ok hi ?_, fun hf hl hp => runControl_wait hi ?_, fun hf => runControl_trap hi ?_⟩ <;> rw [hb]
  · simp only [tokenThen, pushToken, hf, hl, if_false, if_true, Res.ok_bind]
    rfl
  · simp only [tokenThen, pushToken, hf, Nat.not_lt.mpr hl, if_false, waitPorter, hp, Res.error_bind]
  · simp only [tokenThen, pushToken, not_not.mp hf, and_self, if_true, trap_eq, Res.error_bind, Cause.windowOverflow]

end

/-! ## TOKEN.LOOP (R176) -/

section
variable {s : State} {c : Ctx} {target : BitVec 32} (hs : c.g.sup = false)
include hs

theorem tokenLoop_no_target (ht : ∀ a, ¬ TargetAt c (c.target target) a) :
    tokenLoop target c s = .error (.trap { cause := 0x03, addr := BitVec.ofInt 64 (c.target target) }) := by
  simp [tokenLoop, notInHandler, hs, checkTarget_of_no_target ht]

variable {a : BitVec 32} {w : Nat} (ht : TargetAt c (c.target target) a) (hw : (codeAt c.r a.toNat).map (·.toNat) = some w)
include ht hw

/-- The last word of the clause at the target is a JOIN.LOOP. -/
theorem tokenLoop_pushes {cond : Spec} {back : BitVec 32}
    (hl : (codeAt c.r (a.toNat + 8 * (fld w 51 4 + 1))).bind decode? = some (.joinLoop cond back)) : tokenLoop target c s =
      tokenThen { kind := .loop, join := BitVec.ofNat 32 (a.toNat + 8 * (fld w 51 4 + 1)), depth := BitVec.ofNat 16 c.g.depth } c s := by
  obtain ⟨v, hv, rfl⟩ := Option.map_eq_some_iff.mp hw
  simp only [tokenLoop, notInHandler, hs, Bool.not_false, guardOp_true, Res.ok_bind, checkTarget_of_targetAt ht, hv, hl]

theorem tokenLoop_no_join
    (hl : ∀ (cond : Spec) (back : BitVec 32), (codeAt c.r (a.toNat + 8 * (fld w 51 4 + 1))).bind decode? ≠ some (.joinLoop cond back)) :
    tokenLoop target c s = .error (.trap { cause := 0x03, addr := BitVec.ofInt 64 (c.target target) }) := by
  obtain ⟨v, hv, rfl⟩ := Option.map_eq_some_iff.mp hw
  simp only [tokenLoop, notInHandler, hs, Bool.not_false, guardOp_true, Res.ok_bind, checkTarget_of_targetAt ht, hv]
  exact trap_eq _ _

end

/-- Settles O16, by the outcomes of `condMask`, `brdTo` and the pushes. -/
theorem divergentBranches : Obligations.DivergentBranches := by
  refine ⟨fun c => ⟨rfl, fun _ => rfl, fun x h0 hs => condMask_of_other h0 hs⟩,
    fun s c cond target m hi hm => ?_, fun s c hi hs => ?_⟩
  · refine ⟨fun h0 => runControl_ok hi (brdTo_none (h0 ▸ hm)), fun h0 ht => runControl_trap hi (brdTo_no_target hm h0 ht),
      fun a h0 ht => ⟨fun hx => ?_, fun hx hs => ⟨fun t rest h => ⟨fun hk hd hp hc => ?_, fun hb => ?_⟩, fun h hz => ?_⟩⟩⟩
    · subst hx
      exact runControl_ok hi (brdTo_all ht hm h0)
    · exact runControl_ok hi (brdTo_records ht hm h0 hx hs h hk hd hp hc)
    · exact runControl_trap hi (brdTo_bad_token ht hm h0 hx hs h hb)
    · exact runControl_trap hi (brdTo_no_token ht hm h0 hx hs h hz)
  · refine ⟨exec_of_push hi (fun _ => rfl) (by simp [notInHandler, hs]), fun target => ⟨fun ht => ?_, ?_⟩⟩
    · exact runControl_trap hi (tokenLoop_no_target hs ht)
    · rintro a w x n ht hw rfl rfl
      exact ⟨fun cond back hl => exec_of_push hi (fun _ => rfl) (tokenLoop_pushes hs ht hw hl),
        fun hl => runControl_trap hi (tokenLoop_no_join hs ht hw hl)⟩

end Sys2Proof.Machine
end

