-- ==== Sys2Proof/Proofs/Clauses.lean ====
section
/-! The start and the resumption of a clause (R119 to R125, R151, R152, R414), and a clause that waits: the outcomes of the scheduler's
two rows. -/
namespace Sys2Proof.Machine
open Sys2Proof.Claims

/-! ## Flags (R152) -/

theorem flagsClear_iff (g : Group) (w : BitVec 12) : flagsClear g w = true ↔ ∀ f, f < 12 → w.getLsbD f = true → g.flagCount f = 0 := by
  simp only [flagsClear, List.all_eq_true, List.mem_range, Bool.or_eq_true, Bool.not_eq_true', beq_iff_eq]
  refine forall₂_congr fun f _ => ?_
  cases w.getLsbD f <;> simp

theorem flagsClear_eq_false {g : Group} {w : BitVec 12} (h : ∃ f, f < 12 ∧ w.getLsbD f = true ∧ g.flagCount f ≠ 0) :
    flagsClear g w = false := by
  obtain ⟨f, hf, hw, hn⟩ := h
  exact Bool.eq_false_iff.mpr fun hc => hn ((flagsClear_iff g w).mp hc f hf hw)

/-! ## The start of a clause -/

section
variable {s : State} {gid : Nat} {g : Group} {t : Team} {l : Launch} {n : Nat} {r : Region} (hg : s.group? gid = some g)
  (ht : s.team? g.team = some t) (hl : s.launch? t.launch = some l) (hn : l.region = some n) (hr : s.region? n = some r)
include hg

/-- A row of the table names the start of the group's clause: at its first word, or at its index. -/
theorem exec_clauseRow (hp : g.phase = .boundary) :
    exec (if g.idx = 0 then Instr.clauseIssue gid else .clauseResume gid) s =
      event (startClause gid (if g.idx = 0 then 1 else g.idx)) s := by
  split
  · next h0 =>
    change event (clauseIssue gid) s = _
    simp [event, clauseIssue, hg, h0]
  · next h0 =>
    change event (clauseResume gid) s = _
    simp [event, clauseResume, hg, hp, h0]

include ht hl hn hr

section
variable (hp : g.phase = .boundary) (hs : l.status = none) (k : Nat)
include hp hs

theorem startClause_held {x : Trap} {h' : Group} (hh : nextHeld (g.keepWants r) = some (x, h')) :
    startClause gid k s = some (takeTrap gid h' t l r (pcReg g.hdr g.idx) x (s.setGroup gid h')) := by
  obtain ⟨hhdr, hidx, -, -⟩ := g.keepWants_spec r
  simp [startClause, hg, ht, hl, hn, hr, hp, hs, hh, hhdr, hidx]

variable (hh : nextHeld (g.keepWants r) = none)
include hh

theorem startClause_flag_set (hf : flagsClear (g.keepWants r) (waitMask r (g.keepWants r)) = false) : startClause gid k s = none := by
  simp [startClause, hg, ht, hl, hn, hr, hp, hs, hh, clauseReady, hf]

variable (hc : clauseReady r (g.keepWants r) = true) (hb : portBusy s gid t.place (groupPort s (g.keepWants r)) = false)
  (hw : stoppedForWaypoint s (g.keepWants r) t = false)
include hc hb hw

theorem startClause_ok {w : Header} (hk : checkClause r (g.keepWants r) = .ok w) : startClause gid k s =
    some (s.setGroup gid { g.keepWants r with
      phase := .issuing, idx := k, clauses := if k = 1 then (g.keepWants r).clauses + 1 else (g.keepWants r).clauses }) := by
  simp [startClause, hg, ht, hl, hn, hr, hp, hs, hh, hc, hb, hw, hk]

theorem startClause_error {pos : BitVec 37} {x : Trap} (hk : checkClause r (g.keepWants r) = .error (pos, x)) :
    startClause gid k s = some (takeTrap gid (g.keepWants r) t l r pos x s) := by
  simp [startClause, hg, ht, hl, hn, hr, hp, hs, hh, hc, hb, hw, hk]

end

/-! ## A clause that waits -/

/-- The frame of a group is of its own team, launch and region. -/
theorem ctx?_eq {c : Ctx} (hc : s.ctx? gid = some c) : c.gid = gid ∧ c.g = g ∧ c.t = t ∧ c.l = l ∧ c.r = r := by
  obtain ⟨hgid, hg', ht', -, hl', hr', -⟩ := State.ctx?_spec hc
  obtain rfl : c.g = g := Option.some.inj (hg'.symm.trans hg)
  obtain rfl : c.t = t := Option.some.inj (ht'.symm.trans ht)
  obtain rfl : c.l = l := Option.some.inj (hl'.symm.trans hl)
  exact ⟨hgid, rfl, rfl, rfl, Option.some.inj (hr'.symm.trans (by simp [hn, hr]))⟩

variable (hp : g.phase = .waiting) (hc : (s.ctx? gid).isSome = true)
include hp hc

theorem clauseResume_flag_set (hf : frameCopied g = true) (hx : flagsClear g.unheld (waitMask r g) = false) : clauseResume gid s = none := by
  obtain ⟨c, hc⟩ := Option.isSome_iff_exists.mp hc
  obtain ⟨-, -, rfl, -, rfl⟩ := ctx?_eq hg ht hl hn hr hc
  simp [clauseResume, hg, hp, hc, hf, hx]

theorem clauseResume_waiting (hf : frameCopied g = true) (hx : flagsClear g.unheld (waitMask r g) = true)
    (hb : portBusy s gid t.place (groupPort s g) = false) : clauseResume gid s = some (s.setGroup gid { g with phase := .issuing }) := by
  obtain ⟨c, hc⟩ := Option.isSome_iff_exists.mp hc
  obtain ⟨-, -, rfl, -, rfl⟩ := ctx?_eq hg ht hl hn hr hc
  simp [clauseResume, hg, hp, hc, hf, hx, hb]

theorem clauseResume_porterTrap {x : Trap} (hf : frameCopied g = false) (hx : g.porterTrap = some x) : clauseResume gid s =
    some (takeTrap gid { g with porterTrap := none } t l r (pcReg g.hdr g.idx) x (s.setGroup gid { g with porterTrap := none })) := by
  obtain ⟨c, hc⟩ := Option.isSome_iff_exists.mp hc
  obtain ⟨hgid, -, rfl, rfl, rfl⟩ := ctx?_eq hg ht hl hn hr hc
  simp [clauseResume, hg, hp, hc, hf, hx, Ctx.takeTrap, hgid]

end

/-- Settles O49, by the outcomes of `startClause` and of `clauseResume` for a clause that waits. -/
theorem clausesStart : Obligations.ClausesStart := by
  intro s gid g t l n r hg ht hl hn hr
  refine ⟨fun hp hs => ?_, fun hp hc => ⟨fun hf hx => ?_, fun hf hx hb => ?_, fun x hf hx => ?_⟩⟩
  · dsimp only
    rw [exec_clauseRow hg hp]
    refine ⟨fun x h' hh => ?_, fun hh => ⟨fun hf => ?_, fun hc hb hw => ⟨fun w hk => ?_, fun pos x hk => ?_⟩⟩⟩
    · exact event_some (startClause_held hg ht hl hn hr hp hs _ hh)
    · exact event_none (startClause_flag_set hg ht hl hn hr hp hs _ hh (flagsClear_eq_false hf))
    · exact event_some (startClause_ok hg ht hl hn hr hp hs _ hh hc hb hw hk)
    · exact event_some (startClause_error hg ht hl hn hr hp hs _ hh hc hb hw hk)
  · exact event_none (clauseResume_flag_set hg ht hl hn hr hp hc hf (flagsClear_eq_false hx))
  · exact event_some (clauseResume_waiting hg ht hl hn hr hp hc hf ((flagsClear_iff _ _).mpr hx) hb)
  · exact event_some (clauseResume_porterTrap hg ht hl hn hr hp hc hf hx)

end Sys2Proof.Machine
end

