-- ==== Sys2Proof/Proofs/Accesses.lean ====
section
/-! The issue of memory instructions: counting on a flag (R125), the waits before an access (R127, R168, R269), and what LD, ST, ATOM and
their uniform forms issue, alone and in a convoy (R264 to R278, R376, R381). -/
namespace Sys2Proof.Machine
open Sys2Proof.Claims

/-! ## Counting on a flag (R125) and the writers of a register (R127) -/

@[simp] theorem counted_dev (c : Ctx) (i : Instr) (s : State) : (counted c i s).dev = s.dev := by unfold counted; split <;> rfl
@[simp] theorem counted_ops (c : Ctx) (i : Instr) (s : State) : (counted c i s).ops = s.ops := by unfold counted; split <;> rfl
@[simp] theorem counted_nextId (c : Ctx) (i : Instr) (s : State) : (counted c i s).nextId = s.nextId := by unfold counted; split <;> rfl

section
variable {s : State} {c : Ctx} {i : Instr} (hg : s.group? c.gid = some c.g)
include hg

theorem countFlag_free (h : CounterFree c i) : countFlag (c.flag i) c.gid s = .ok (counted c i s) := by
  cases hf : c.flag i with
  | none => simp [countFlag, counted, hf]
  | some k => simp [countFlag, counted, hf, hg, Nat.not_le.mpr (h k hf)]

theorem countFlag_full {k : Fin 12} (hf : c.flag i = some k) (h : 63 ≤ c.g.flagCount k.val) :
    countFlag (c.flag i) c.gid s = .error (.wait s) := by
  simp [countFlag, hf, hg, h]

theorem issueOp_free {o : Op} (ho : o.flag = c.flag i) (h : CounterFree c i) : issueOp c o s = .ok (inFlight c i o s) := by
  simp [issueOp, ho, countFlag_free hg h, inFlight, State.cycle]

theorem issueOp_full {o : Op} {k : Fin 12} (ho : o.flag = c.flag i) (hf : c.flag i = some k) (h : 63 ≤ c.g.flagCount k.val) :
    issueOp c o s = .error (.wait s) := by
  simp [issueOp, ho, countFlag_full hg hf h]

theorem completeAtOnce_free (h : CounterFree c i) (hd : DestFree c i s) : completeAtOnce c i s = .ok (countedOnce c i s) := by
  rw [DestFree] at hd
  simp [completeAtOnce, countFlag_free hg h, hd, countedOnce]

theorem completeAtOnce_busy (h : CounterFree c i) (hd : ¬ DestFree c i s) : completeAtOnce c i s = .error (.wait s) := by
  rw [DestFree, Bool.not_eq_false] at hd
  simp [completeAtOnce, countFlag_free hg h, hd]

theorem completeAtOnce_full {k : Fin 12} (hf : c.flag i = some k) (h : 63 ≤ c.g.flagCount k.val) :
    completeAtOnce c i s = .error (.wait s) := by
  simp [completeAtOnce, countFlag_full hg hf h]

end

/-! ## Waits at issue (R168, R269) -/

section
variable {s : State} {c : Ctx} {f : Form} {locs : List Located} {w : Bool}

theorem orderWaits_acquire (ha : acquirePending s c.gid = true) : orderWaits c f locs w s = .error (.wait s) := by
  simp [orderWaits, afterAcquire, ha]

variable (hf : (f.strong && f.releases) = false) (ha : acquirePending s c.gid = false)
include hf ha

theorem orderWaits_pass (hm : movesMeet s (c.who s) (locs.map (·.loc)) w = false) : orderWaits c f locs w s = .ok s := by
  simp [orderWaits, afterAcquire, awaitMoves, ha, hf, hm]

theorem orderWaits_move (hm : movesMeet s (c.who s) (locs.map (·.loc)) w = true) : orderWaits c f locs w s = .error (.wait s) := by
  simp [orderWaits, afterAcquire, awaitMoves, ha, hf, hm]

end

/-- A request is not served before an earlier request of its group to one of its bytes. -/
theorem mayServe_eq_false_of_earlier {s : State} {o e : Op} {w : Who} {j k p : Nat} {r x : LaneReq} (he : (j, e) ∈ s.groupOps o.group)
    (hj : j < k) (hx : x ∈ e.reqs) (hp : p ∈ x.locs) (hr : p ∈ r.locs) : mayServe s w k o r = false := by
  rw [mayServe, (?_ : (s.groupOps o.group).all _ = false)]
  · simp
  · refine List.all_eq_false.mpr ⟨(j, e), he, ?_⟩
    have hne : e.reqs.isEmpty = false := by simpa using List.ne_nil_of_mem hx
    have hmeet : (e.reqs.any fun x => x.locs.any r.locs.contains) = true :=
      List.any_eq_true.mpr ⟨x, hx, List.any_eq_true.mpr ⟨p, hp, List.contains_iff_mem.mpr hr⟩⟩
    simp [hj, hne, hmeet]

/-! ## What a row runs, and where its operands are illegal or no lane is active -/

theorem exec_of_loadRow {i : Instr} {f : Form} {d : Spec} {sx : Bool} (h : loadRow i = some (f, d, sx)) :
    exec i = runInstr (loadBody i f d sx) := by
  cases i with
  | ld m | ldu m => cases h; rfl
  | _ => cases h

theorem exec_of_storeRow {i : Instr} {f : Form} {d : Spec} (h : storeRow i = some (f, d)) : exec i = runInstr (storeBody i f d) := by
  cases i with
  | st m | stu m => cases h; rfl
  | _ => cases h

/-- A store writes no register. -/
theorem destFree_of_storeRow {i : Instr} {f : Form} {d : Spec} (h : storeRow i = some (f, d)) (c : Ctx) (s : State) : DestFree c i s := by
  have hk : destKeys c.g.base c.g.sup i = [] := by
    cases i with
    | st m | stu m => rfl
    | _ => cases h
  simp [DestFree, State.destBusy, hk]

theorem exec_of_atomRow {i : Instr} {f : AForm} {once : Bool} (h : atomRow i = some (f, once)) :
    exec i = runInstr (atomBody i f once) := by
  cases i with
  | atom m | atomu m => cases h; rfl
  | _ => cases h

section
variable {s : State} {c : Ctx} {i : Instr} {f : Form} {d : Spec} {sx : Bool}

theorem loadBody_illegal (h : dataOk c.g f.once f.size d = false ∨ f.addrOk c.g = false) :
    loadBody i f d sx c s = .error (.trap { cause := 0x02 }) := by
  simp [loadBody, Bool.and_eq_false_iff.mpr h]

theorem storeBody_illegal (h : dataOk c.g f.once f.size d = false ∨ f.addrOk c.g = false) :
    storeBody i f d c s = .error (.trap { cause := 0x02 }) := by
  simp [storeBody, Bool.and_eq_false_iff.mpr h]

variable (hd : dataOk c.g f.once f.size d = true) (ha : f.addrOk c.g = true)
include hd ha

theorem loadBody_no_lane (hn : f.acting c.g = []) : loadBody i f d sx c s = completeAtOnce c i s := by
  simp [loadBody, hd, ha, hn]

theorem storeBody_no_lane (hn : f.acting c.g = []) : storeBody i f d c s = completeAtOnce c i s := by
  simp [storeBody, hd, ha, hn]

variable (hn : f.acting c.g ≠ []) {p : Plan} {locs : List Located}
include hn

/-! ## Loads -/

section
variable (hp : planAccess c .load f (fun _ => .ok ()) s = .ok p)
  (hc : checkAccess s (c.who s) .load false (c.split p.pieces).1 = .ok locs) {s1 : State} (ho : orderWaits c f locs false s = .ok s1)
include hp hc ho

/-- A load alone, whose conversion cannot trap, issues its operation. -/
theorem loadBody_issues (hpr : p.precise = false) (hs : c.t.side = .solo) : loadBody i f d sx c s =
    issueOp c { c.op i with record := p.record, vals := keepPlan p, reqs := loadReqs p locs } s1 := by
  simp [loadBody, hd, ha, hn, hp, hc, ho, hpr, hs]

/-- Another load is served at its instruction. -/
theorem loadBody_served {s2 t : State} {o : Op} {r : LoadDone} (hpr : p.precise = true ∨ c.t.side ≠ .solo)
    (h2 : completeAtOnce c i s1 = .ok s2)
    (hr : readOutside c i f p locs { c.op i with record := p.record, vals := keepPlan p, reqs := loadReqs p locs } s2 = .ok (o, t))
    (hl : loadDone (c.who s) f o = .ok r) (ht : r.trap = none) :
    loadBody i f d sx c s = .ok (acquired f c.gid c.t.place (writeLoad t o c.lid f d sx r)) := by
  simp [loadBody, hd, ha, hn, hp, hc, ho, hpr, h2, hr, hl, ht, acquired]

end

/-! ## Stores -/

section
variable {near far : List Piece} (hsp : c.split p.pieces = (near, far))
  (hp : planAccess c .store f (fun p => guardOp (wholeBlocks p)) s = .ok p) (hc : checkAccess s (c.who s) .store f.fires near = .ok locs)
include hsp hp hc

/-- A store whose data do not convert takes their trap before anything of it issues. -/
theorem storeBody_data_trap {x : Trap} (hst : storeData (c.who s) p (readData c.g d f.size) = .error x) (hf : far = []) :
    storeBody i f d c s = .error (.trap x) := by
  simp [storeBody, hd, ha, hn, hsp, hp, hc, hst, hf, orTrap]

variable {st : Stored} {s1 : State} (hst : storeData (c.who s) p (readData c.g d f.size) = .ok st) (hw : awaitCopies locs s = .ok ())
  (ho : orderWaits c f locs true s = .ok s1)
include hst hw ho

/-- A store goes on with what `issueStore` makes of it. -/
theorem storeBody_issues {t : State} (hi : issueStore c i f far (.ok st) locs { c.op i with rel := f.relScope c.g } s1 = .ok t) :
    storeBody i f d c s = .ok (stored c f st t) := by
  cases far <;> simp [storeBody, hd, ha, hn, hsp, hp, hc, hst, hw, ho, orTrap, hi, stored]

end

end

theorem issueStore_solo {s t : State} {c : Ctx} {i : Instr} {f : Form} {far : List Piece} {st : Stored} {locs : List Located} {o : Op}
    (hs : c.t.side = .solo) (ht : issueOp c { o with reqs := putReqs locs st.puts, locs := globalLocs locs } s = .ok t) :
    issueStore c i f far (.ok st) locs o s =
      .ok (if globalLocs locs = [] then t else assayLog c (c.storeSig i st.puts) [] t) := by
  simp [issueStore, hs, ht]

theorem issueStore_convoy {s : State} {c : Ctx} (i : Instr) (f : Form) (far : List Piece) (st : Res Stored) (locs : List Located) (o : Op)
    (hs : c.t.side ≠ .solo) : issueStore c i f far st locs o s = storeOnce c i f far st locs o s := by
  simp [issueStore, hs]

/-! ## Atomics -/

/-- Where a performance succeeds, another that succeeds alike stands for it. -/
theorem fromLog_ok_mono {c : Ctx} {sig : Word} {s : State} {f g : Unit → Res (List (Nat × Word) × State)}
    {r : List (Nat × Word) × State}
    (h : ∀ r, f () = .ok r → g () = .ok r) (hr : fromLog c sig s f = .ok r) : fromLog c sig s g = .ok r := by
  unfold fromLog at hr ⊢
  cases hl : c.logged s with
  | none => rw [hl] at hr; exact h r hr
  | some e =>
    rw [hl] at hr
    dsimp only at hr ⊢
    split at hr
    · cases hr
    · next hsig =>
      rw [if_neg hsig]
      split at hr
      · next hu =>
        rw [if_pos hu]
        cases hf : f () with
        | ok v => rw [hf] at hr; rw [h v hf]; exact hr
        | error x => rw [hf] at hr; cases x <;> cases hr
      · next hu => rwa [if_neg hu]

theorem performOnce_ok_mono {c : Ctx} {sig : Word} {s : State} {f g : State → Res (List (Nat × Word) × State)}
    {r : List (Nat × Word) × State} (h : ∀ s r, f s = .ok r → g s = .ok r) (hr : performOnce c sig f s = .ok r) :
    performOnce c sig g s = .ok r := by
  unfold performOnce at hr ⊢
  dsimp only at hr ⊢
  split at hr
  · cases hf : f s with
    | ok v => rw [hf] at hr; rw [h s v hf]; exact hr
    | error x => rw [hf] at hr; cases hr
  · refine fromLog_ok_mono (fun r hr => ?_) hr
    split at hr
    · cases hr
    · next hst =>
      rw [if_neg hst]
      split at hr
      · next hm =>
        rw [if_pos hm]
        cases hf : f s with
        | ok v => rw [hf] at hr; rw [h s v hf]; exact hr
        | error x => rw [hf] at hr; cases x <;> cases hr
      · cases hr
  · exact hr

theorem poisonTrap_eq_none_iff {w : Who} {l : List (Nat × Nat × BitVec 12)} : poisonTrap w l = none ↔ l = [] := by
  cases l <;> simp [poisonTrap]

/-- No bytes, no checks that fail. -/
theorem checkAccess_nil (s : State) (w : Who) (k : Access) (fires : Bool) : checkAccess s w k fires [] = .ok [] := by
  simp [checkAccess, checkTrap]

/-- Without bytes of its own a side has no request to make. -/
theorem atomReqs_nil_own (c : Ctx) (p : Plan) (s : State) : ((atomReqs c p [] s).filter fun r => !r.bytes.isEmpty) = [] := by
  refine List.filter_eq_nil_iff.mpr fun r hr => ?_
  obtain ⟨⟨q, n⟩, hq, rfl⟩ := List.mem_map.mp hr
  obtain ⟨x, -, rfl⟩ := List.mem_map.mp (List.fst_mem_of_mem_zipIdx hq)
  simp

theorem serveNow_nil {o : Op} (s : State) (h : o.reqs = []) : serveNow o s = .ok (o, s) := by
  simp [serveNow, h, serveAll]

/-- The performance of an atomic on shared bytes as the instruction makes it: poison is reported by the frame of the issue. -/
def atomPerform (w : Who) (c : Ctx) (f : AForm) (once : Bool) (far : List Piece) (o : Op)
    (reqs : List Located → List LaneReq) (s : State) : Res (List (Nat × Word) × State) := do
  let locs ← checkAccess s (c.who s) .atomic (AForm.form f once).fires far
  awaitCopies locs s
  if anyBlocked s (globalLocs locs) then .error (.wait s)
  let (x, s) ← serveNow { o with reqs := (reqs locs).filter fun r => !r.bytes.isEmpty } s
  match poisonTrap w x.poison with
  | some t => .error (.trap t)
  | none => .ok (x.res ++ [(1000, x.fp.zeroExtend 64)], settleEverywhere s (globalLocs locs))

theorem atomPerform_of_atomShared (w : Who) {c : Ctx} {f : AForm} {once : Bool} {far : List Piece} {o : Op}
    {reqs : List Located → List LaneReq} (s : State) (r : List (Nat × Word) × State) (h : atomShared c f once far o reqs s = .ok r) :
    atomPerform w c f once far o reqs s = .ok r := by
  unfold atomShared at h
  unfold atomPerform
  cases hc : checkAccess s (c.who s) .atomic (AForm.form f once).fires far with
  | error x => rw [hc] at h; cases h
  | ok locs =>
    simp only [hc, Res.ok_bind] at h ⊢
    cases hw : awaitCopies locs s with
    | error x => rw [hw] at h; cases h
    | ok _ =>
      simp only [hw, Res.ok_bind] at h ⊢
      split at h
      · cases h
      · next hb =>
        rw [if_neg hb]
        cases hx : serveNow { o with reqs := (reqs locs).filter fun r => !r.bytes.isEmpty } s with
        | error x => rw [hx] at h; cases h
        | ok y =>
          simp only [hx, Res.ok_bind] at h ⊢
          split at h
          · cases h
          · next hq => rwa [poisonTrap_eq_none_iff.mpr (poisonTrap_eq_none_iff.mp hq)]

section
variable {s : State} {c : Ctx} {i : Instr} {f : AForm} {once : Bool}

theorem atomBody_illegal (h : atomDataOk c.g f once = false ∨ (AForm.form f once).addrOk c.g = false) :
    atomBody i f once c s = .error (.trap { cause := 0x02 }) := by
  simp [atomBody, Bool.and_eq_false_iff.mpr h]

variable (hd : atomDataOk c.g f once = true) (ha : (AForm.form f once).addrOk c.g = true)
include hd ha

theorem atomBody_no_lane (hn : (AForm.form f once).acting c.g = []) : atomBody i f once c s = completeAtOnce c i s := by
  simp [atomBody, hd, ha, hn]

variable (hn : (AForm.form f once).acting c.g ≠ []) {p : Plan} {locs : List Located} {s1 : State}
  (hp : planAccess c .atomic (AForm.form f once) (fun _ => .ok ()) s = .ok p)
  (hc : checkAccess s (c.who s) .atomic (AForm.form f once).fires (c.split p.pieces).1 = .ok locs)
  (hw : awaitCopies locs s = .ok ()) (ho : orderWaits c (AForm.form f once) locs true s = .ok s1)
include hn hp hc hw ho

/-- An atomic alone issues its operation. -/
theorem atomBody_issues {t : State} (hs : c.t.side = .solo)
    (ht : issueOp c { atomOp c i f once p with reqs := atomReqs c p locs s1, locs := globalLocs locs } s1 = .ok t) :
    atomBody i f once c s = .ok (tagsTaken c f once p s1 t) := by
  simp only [atomBody, hd, ha, Bool.and_self, guardOp_true, Res.ok_bind, List.isEmpty_eq_false_iff.mpr hn, Bool.false_eq_true, if_false,
    hp, hc, hw, ho, hs, beq_self_eq_true, if_true]
  exact congrArg (· >>= fun t => Except.ok (tagsTaken c f once p s1 t)) ht

/-- In a convoy an atomic whose bytes are all shared is performed once, and each side takes the results (R376, R381). -/
theorem atomBody_shared {far : List Piece} {s2 s3 : State} {v : List (Nat × Word)} (hs : c.t.side ≠ .solo)
    (hsp : c.split p.pieces = ([], far)) (hf : far ≠ []) (h2 : completeAtOnce c i s1 = .ok s2)
    (hv : performOnce c (c.sig i (far.flatMap Piece.bytes ++ (atomVals c f once p).map fun e => e.2.toNat))
      (atomShared c f once far (atomOp c i f once p) fun l => atomReqs c p l s1) s2 = .ok (v, s3)) :
    atomBody i f once c s =
      let u := tagsTaken c f once p s1 ((s3.modGroup c.gid fun g =>
        (v.filter fun e => e.1 < 64).foldl (fun g e => writeData g f.data (AForm.form f once).size e.1 false e.2.toNat) g).raiseFp c.gid
          (((v.find? fun e => e.1 == 1000).map fun e => e.2.setWidth 7).getD 0))
      .ok (if (AForm.form f once).acquires then acquireAt u c.gid c.t.place (AForm.form f once).scope else u) := by
  obtain rfl : locs = [] := by
    rw [hsp, checkAccess_nil] at hc
    exact (Except.ok.inj hc).symm
  have hm := performOnce_ok_mono (atomPerform_of_atomShared (c.who s)) hv
  have hown := atomReqs_nil_own c p s1
  simp only [atomReqs] at hown
  simp only [atomBody, hd, ha, Bool.and_self, guardOp_true, Res.ok_bind, List.isEmpty_eq_false_iff.mpr hn, Bool.false_eq_true, if_false,
    hp, hsp, checkAccess_nil, hw, ho, beq_eq_false_iff_ne.mpr hs, h2, List.isEmpty_eq_false_iff.mpr hf, hown, List.flatMap_nil, poisonTrap]
  refine (congrArg (· >>= _) hm).trans ?_
  simp only [Res.ok_bind, serveNow_nil, Ctx.op, List.append_nil, BitVec.ofNat_eq_ofNat, BitVec.or_zero]
  rfl

end

/-! ## The instructions -/

section
variable {s : State} {c : Ctx} {i : Instr} {body : Ctx → State → Res State} (hi : Issues s c) (he : exec i = runInstr body)
include hi he

theorem exec_next_done {t : State} (h : body c s = .ok t) : exec i s = .next (c.done t) := by rw [he]; exact runInstr_ok hi h

theorem exec_next_trap {x : Trap} (h : body c s = .error (.trap x)) : exec i s = .next (c.takeTrap x (c.settled s)) := by
  rw [he]; exact runInstr_trap hi h

/-- An instruction with no active lane completes at once. -/
theorem exec_completeAtOnce (h : body c s = completeAtOnce c i s) (hf : CounterFree c i) (hd : DestFree c i s) :
    exec i s = .next (c.done (countedOnce c i s)) := by
  obtain ⟨hgid, hg, -⟩ := State.ctx?_spec hi.1
  exact exec_next_done hi he (h.trans (completeAtOnce_free (hgid ▸ hg) hf hd))

end

/-- Settles O31, by the waits and the outcomes of the three bodies. -/
theorem accessesIssue : Obligations.AccessesIssue := by
  refine ⟨fun s c i o hg ho => ⟨fun hf => ⟨issueOp_free hg ho hf, completeAtOnce_free hg hf, completeAtOnce_busy hg hf⟩,
    fun k hk h => ⟨issueOp_full hg ho hk h, completeAtOnce_full hg hk h⟩,
    fun f locs w hf => ⟨orderWaits_acquire, orderWaits_pass hf, orderWaits_move hf⟩,
    fun w k j r x e p he hj hx hp hr => mayServe_eq_false_of_earlier he hj hx hp hr⟩,
    fun s s1 t c i p locs hi => ⟨fun f d sx hr => ?load, fun f d st near far hr hsp => ?store, fun f once hr => ?atom⟩⟩
  case load =>
    have he := exec_of_loadRow hr
    refine ⟨fun hd ha hn hp hc ho => ⟨fun hpr hs ht => ?_, fun s2 o' r hpr h2 hro hl ht => ?_⟩, fun hd ha hn hf hf' => ?_, fun h => ?_⟩
    · exact exec_next_done hi he ((loadBody_issues hd ha hn hp hc ho hpr hs).trans ht)
    · exact exec_next_done hi he (loadBody_served hd ha hn hp hc ho hpr h2 hro hl ht)
    · exact exec_completeAtOnce hi he (loadBody_no_lane hd ha hn) hf hf'
    · exact exec_next_trap hi he (loadBody_illegal h)
  case store =>
    have he := exec_of_storeRow hr
    refine ⟨fun hd ha hn hp hc => ⟨fun hst hw ho => ⟨fun hs ht => ?_, fun hs ht => ?_⟩, fun x hst hf => ?_⟩, fun hd ha hn hf => ?_, fun h => ?_⟩
    · exact exec_next_done hi he (storeBody_issues hd ha hn hsp hp hc hst hw ho (issueStore_solo hs ht))
    · exact exec_next_done hi he (storeBody_issues hd ha hn hsp hp hc hst hw ho ((issueStore_convoy _ _ _ _ _ _ hs).trans ht))
    · exact exec_next_trap hi he (storeBody_data_trap hd ha hn hsp hp hc hst hf)
    · exact exec_completeAtOnce hi he (storeBody_no_lane hd ha hn) hf (destFree_of_storeRow hr c s)
    · exact exec_next_trap hi he (storeBody_illegal h)
  case atom =>
    have he := exec_of_atomRow hr
    refine ⟨fun hd ha hn hp hc hw ho => ⟨fun hs ht => ?_, fun far s2 v s3 hs hsp hf h2 hv => ?_⟩, fun hd ha hn hf hf' => ?_, fun h => ?_⟩
    · exact exec_next_done hi he (atomBody_issues hd ha hn hp hc hw ho hs ht)
    · exact exec_next_done hi he (atomBody_shared hd ha hn hp hc hw ho hs hsp hf h2 hv)
    · exact exec_completeAtOnce hi he (atomBody_no_lane hd ha hn) hf hf'
    · exact exec_next_trap hi he (atomBody_illegal h)

end Sys2Proof.Machine
end

