-- ==== Sys2Proof/Proofs/Porter.lean ====
section
/-! The moves of the porter (R161, R163 to R169): a fault, poison in what a move reads, and the effect of each kind on its backing
bytes. -/
namespace Sys2Proof.Machine
open Sys2Proof.Claims

/-! ## The subject of a move -/

theorem group_of_nextMove {s : State} {gid : Nat} {m : Move} (h : nextMove s gid = some m) : m.group = gid := by
  simp only [nextMove, Option.bind_eq_bind, Option.bind_eq_some_iff] at h
  obtain ⟨place, -, x, -, hx⟩ := h
  split at hx
  · next hg => exact Option.some.inj hx ▸ hg
  · cases hx

theorem State.gid_of_who? {s : State} {gid : Nat} {w : Who} (h : s.who? gid = some w) : w.gid = gid := by
  simp only [State.who?, Option.bind_eq_bind, Option.pure_def, Option.bind_eq_some_iff, Option.some.injEq] at h
  obtain ⟨g, -, t, -, l, -, rfl⟩ := h
  rfl

@[simp] theorem length_leBytes (n v : Nat) : (leBytes n v).length = n := by
  induction n generalizing v with
  | zero => rfl
  | succ n ih => simp [leBytes, ih]

/-- Registers of a window have four bytes for each lane. -/
@[simp] theorem Group.length_windowBytes (g : Group) (o n : Nat) : (g.windowBytes o n).length = 4 * n * g.width := by
  simp [Group.windowBytes, List.length_flatMap, Nat.mul_comm, Nat.mul_left_comm]

/-! ## Poison in backing bytes (R370, R407) -/

theorem cause_of_poisonTrap {w : Who} {l : List (Nat × Nat × BitVec 12)} {x : Trap} (h : poisonTrap w l = some x) :
    x.cause = Cause.poisonConsumed := by
  cases l with
  | nil => cases h
  | cons => cases h; rfl

section
variable {s : State} {w : Who} {window : Bool} {ptr : Word} {locs : List Nat}

theorem backingPoison_eq_none_iff : backingPoison s w window ptr locs = none ↔
    ∀ p ∈ locs, byteTag s.fab w.t.place false (forwarded s.fab p) = none := by
  simp only [backingPoison, Option.map_eq_none_iff, poisonTrap_eq_none_iff, List.filterMap_eq_nil_iff, List.forall_mem_zipIdx']
  exact (List.forall_mem_iff_getElem (p := fun p => byteTag s.fab w.t.place false (forwarded s.fab p) = none)).symm

theorem backingPoison_eq_some {x : Trap} (h : backingPoison s w window ptr locs = some x) :
    x.cause = Cause.poisonConsumed ∧ x.info.getLsbD 14 = true ∧ (window = false → x.mask = none) := by
  obtain ⟨y, hy, rfl⟩ := Option.map_eq_some_iff.mp h
  have hcause : y.cause = Cause.poisonConsumed := cause_of_poisonTrap hy
  exact ⟨hcause, by simp, fun hw => by simp [hw]⟩

end

/-! ## The effect of a move -/

/-- A write of a move: its bytes go to their locations, and the group changes. -/
def writeEffect (w : Who) (ptr : Word) (bytes : List Byte) (f : Group → Group) (t : State) (locs : List Nat) : Option State :=
  some ((coreWrite t w.t.place w.gid locs bytes).modGroup w.gid fun g => (f g).markStack ptr bytes.length)

/-- A read of a move: the fault of poison that the state at its start holds, or the use of its bytes. -/
def readEffect (s : State) (w : Who) (m : Move) (ptr : Word) (use : List Byte → State → State) (t : State) (locs : List Nat) : Option State :=
  match backingPoison s w (m.kind == .refill) ptr locs with
  | some x => some (s.setGroup w.gid { w.g with porterTrap := some x, porterFault := some (m.kind, m.off) })
  | none => some (use (coreRead t w.t.place w.gid locs).1 (coreRead t w.t.place w.gid locs).2)

/-- A token read back joins the stack at its outer end; bytes that are no token end the launch. -/
def takeToken (w : Who) (m : Move) (bytes : List Byte) (t : State) : State :=
  match Token.ofImage (BitVec.ofNat 256 (leNat bytes)) with
  | some k => t.modGroup w.gid fun g => { g with tokens := g.tokens ++ [k], spilledTok := m.off }
  | none => doubleFault w.gid w.g w.t w.l 0 t

/-- What a move does to its backing bytes once nothing stands in its way. -/
def moveEffect (s : State) (w : Who) (m : Move) : State → List Nat → Option State :=
  match m.kind with
  | .spill => writeEffect w (w.g.backing m.off) (w.g.windowBytes m.off 8) fun g => { g.forget m.off 8 with resLo := m.off + 8 }
  | .writeBack => writeEffect w (w.g.backing m.off) (w.g.windowBytes m.off 8) fun g => { g with wb := some (m.off + 8) }
  | .tokenSpill => fun t locs => w.g.tokens.getLast?.bind fun k => writeEffect w (w.g.tokenPtr m.off) (leBytes 32 k.image.toNat)
      (fun g => { g with tokens := g.tokens.dropLast, spilledTok := g.spilledTok + 1 }) t locs
  | .refill => readEffect s w m (w.g.backing m.off) fun bytes t => t.modGroup w.gid fun g => { g.setWindow m.off 8 bytes with resLo := m.off }
  | .tokenReadback => readEffect s w m (w.g.tokenPtr m.off) (takeToken w m)

section
variable {s : State} {m : Move} {w : Who}

theorem porterWrite_eq (ptr : Word) (bytes : List Byte) (f : Group → Group) :
    porterWrite s w m ptr bytes f = porterMoveAt s w m true ptr bytes.length (writeEffect w ptr bytes f) := rfl

theorem porterRead_eq (ptr : Word) (len : Nat) (use : List Byte → State → State) :
    porterRead s w m ptr len use = porterMoveAt s w m false ptr len (readEffect s w m ptr use) := rfl

theorem exec_porterSpill (gid : Nat) (s : State) : exec (.porterSpill gid) s = event (porterSpill gid) s := rfl
theorem exec_porterRefill (gid : Nat) (s : State) : exec (.porterRefill gid) s = event (porterRefill gid) s := rfl
theorem exec_tokenSpill (gid : Nat) (s : State) : exec (.tokenSpill gid) s = event (tokenSpill gid) s := rfl
theorem exec_tokenReadback (gid : Nat) (s : State) : exec (.tokenReadback gid) s = event (tokenReadback gid) s := rfl

/-- The row of a move in its turn does the move over its backing bytes. -/
theorem exec_moveRow (hm : nextMove s w.gid = some m) (hw : s.who? w.gid = some w) (hmov : Movable s w.g m) :
    exec (moveRow w.gid m.kind) s = .next ((porterMoveAt s w m m.writes (m.range w.g).1 (m.range w.g).2 (moveEffect s w m)).getD s) := by
  obtain ⟨hawait, htok⟩ := hmov
  rw [group_of_nextMove hm] at hawait
  cases hk : m.kind with
  | spill =>
    simp [moveRow, exec_porterSpill, event, porterSpill, hm, hw, hk, hawait hk, porterWrite_eq, moveEffect, Move.writes, Move.range]
  | writeBack =>
    simp [moveRow, exec_porterSpill, event, porterSpill, hm, hw, hk, porterWrite_eq, moveEffect, Move.writes, Move.range]
  | refill =>
    simp [moveRow, exec_porterRefill, event, porterRefill, hm, hw, hk, porterRead_eq, moveEffect, Move.writes, Move.range]
  | tokenSpill =>
    obtain ⟨k, hl⟩ := Option.isSome_iff_exists.mp (List.getLast?_isSome.mpr (htok hk))
    simp [moveRow, exec_tokenSpill, event, tokenSpill, hm, hw, hk, hl, porterWrite_eq, moveEffect, Move.writes, Move.range]
  | tokenReadback =>
    simp [moveRow, exec_tokenReadback, event, tokenReadback, hm, hw, hk, porterRead_eq, moveEffect, Move.writes, Move.range] <;> rfl

section
variable {s' : State} {write : Bool} {ptr : Word} {len : Nat} {act : State → List Nat → Option State}
  (hs : w.fill s (Piece.bytes { lane := 0, ptr, len }) = s')
include hs

theorem porterMoveAt_fault {x : Trap} (h : porterLocs s' w [if write then .store else .load] ptr len = .error x) :
    porterMoveAt s w m write ptr len act = some (s'.setGroup w.gid { w.g with porterTrap := some x, porterFault := some (m.kind, m.off) }) := by
  simp [porterMoveAt, hs, h]

theorem porterMoveAt_clear {locs : List Nat} (h : porterLocs s' w [if write then .store else .load] ptr len = .ok locs)
    (hb : ∀ p ∈ locs, p ∉ busyLocs s' w.gid m.since) (hc : coreWaits s' w.t.place w.gid locs = false)
    (hp : write = true → cowPages s' locs = []) : porterMoveAt s w m write ptr len act = act (s'.served m) locs := by
  have hbusy : locs.any (busyLocs s' w.gid m.since).contains = false := by simpa using hb
  have hcow : (if write then cowPages s' locs else []) = [] := by simpa using hp
  simp [porterMoveAt, hs, h, hbusy, hc, hcow]

end

theorem readEffect_of_clean {locs : List Nat} (h : ∀ p ∈ locs, byteTag s.fab w.t.place false (forwarded s.fab p) = none)
    (ptr : Word) (use : List Byte → State → State) (t : State) :
    readEffect s w m ptr use t locs = some (use (coreRead t w.t.place w.gid locs).1 (coreRead t w.t.place w.gid locs).2) := by
  simp [readEffect, backingPoison_eq_none_iff.mpr h]

theorem readEffect_of_poison {x : Trap} {ptr : Word} {locs : List Nat} (h : backingPoison s w (m.kind == .refill) ptr locs = some x)
    (use : List Byte → State → State) (t : State) :
    readEffect s w m ptr use t locs = some (s.setGroup w.gid { w.g with porterTrap := some x, porterFault := some (m.kind, m.off) }) := by
  simp [readEffect, h]

/-- A move that does not write has the effect of a read. -/
theorem moveEffect_of_read (hr : m.writes = false) : ∃ ptr use, moveEffect s w m = readEffect s w m ptr use := by
  cases hk : m.kind with
  | spill | writeBack | tokenSpill => simp [Move.writes, hk] at hr
  | refill | tokenReadback => exact ⟨_, _, by rw [moveEffect, hk]⟩

theorem moveEffect_of_poison {locs : List Nat} (hr : m.writes = false)
    (h : ∃ p ∈ locs, byteTag s.fab w.t.place false (forwarded s.fab p) ≠ none) (t : State) :
    ∃ x : Trap, x.cause = Cause.poisonConsumed ∧ x.info.getLsbD 14 = true ∧ (m.kind = .tokenReadback → x.mask = none) ∧
      moveEffect s w m t locs = some (s.setGroup w.gid { w.g with porterTrap := some x, porterFault := some (m.kind, m.off) }) := by
  obtain ⟨p, hp, ht⟩ := h
  obtain ⟨ptr, use, huse⟩ := moveEffect_of_read (s := s) (w := w) hr
  obtain ⟨x, hx⟩ := Option.ne_none_iff_exists'.mp fun hn : backingPoison s w (m.kind == .refill) ptr locs = none =>
    ht (backingPoison_eq_none_iff.mp hn p hp)
  obtain ⟨hcause, hbit, hmask⟩ := backingPoison_eq_some hx
  exact ⟨x, hcause, hbit, fun hk => hmask (by simp [hk]), by rw [huse, readEffect_of_poison hx]⟩

end

/-- Settles O50, by the outcomes of `porterMoveAt` and the effect of each kind of move. -/
theorem porterMoves : Obligations.PorterMoves := by
  intro s gid m w hm hw hmov
  obtain rfl := State.gid_of_who? hw
  dsimp only
  rw [exec_moveRow hm hw hmov]
  refine ⟨fun x hx => by rw [porterMoveAt_fault rfl hx]; rfl, fun locs hl hb hc hp => ?_⟩
  rw [porterMoveAt_clear rfl hl hb hc hp]
  refine ⟨fun hk => ?spill, fun hk => ?writeBack, fun k hk ht => ?tokenSpill, fun hr hpoison => ?poison, fun hclean =>
    ⟨fun hk => ?refill, fun hk => ⟨fun k hi => ?readBack, fun hi => ?malformed⟩⟩⟩
  case spill => simp [moveEffect, hk, writeEffect, Move.range]
  case writeBack => simp [moveEffect, hk, writeEffect, Move.range]
  case tokenSpill => simp [moveEffect, hk, ht, writeEffect, Move.range]
  case poison =>
    obtain ⟨x, hcause, hbit, hmask, he⟩ := moveEffect_of_poison hr hpoison _
    exact ⟨x, hcause, hbit, hmask, by rw [he]; rfl⟩
  case refill => simp [moveEffect, hk, readEffect_of_clean hclean]
  case readBack => simp [moveEffect, hk, readEffect_of_clean hclean, takeToken, hi]
  case malformed => simp [moveEffect, hk, readEffect_of_clean hclean, takeToken, hi]

end Sys2Proof.Machine
end

