-- ==== Sys2Proof/Proofs/ControlFlow.lean ====
section
/-! Control instructions outside the token stack: NOP (R174), BRA (R175), BRX (R181), WSYNC (R186), WINFO (R187) and PAUSE (R188), with
what an instruction leaves unchanged as its group goes on (R123, R124). -/
namespace Sys2Proof.Machine
open Sys2Proof.Claims

/-! ## Ends of an instruction, by its body -/

section
variable {s : State} {c : Ctx} {i : Instr} {body : Ctx → State → Res State} (hi : Issues s c)
include hi

theorem exec_next_wait {t : State} (he : exec i = runInstr body) (h : body c s = .error (.wait t)) : exec i s = .next (c.waitHere t) := by
  rw [he]; exact runInstr_wait hi h

variable (he : exec i = runControl body)
include he

theorem exec_control_ended {t : State} (h : body c s = .ok t) : exec i s = .next (c.ended t) := by rw [he]; exact runControl_ok hi h

theorem exec_control_trap {x : Trap} (h : body c s = .error (.trap x)) : exec i s = .next (c.takeTrap x (c.settled s)) := by
  rw [he]; exact runControl_trap hi h

theorem exec_control_wait {t : State} (h : body c s = .error (.wait t)) : exec i s = .next (c.waitHere t) := by
  rw [he]; exact runControl_wait hi h

end

/-! ## A group goes on (R123, R124) -/

theorem SMap.entry?_adjust_other {α : Type} (m : SMap α) {k j : Nat} (f : α → α) (hj : j ≠ k) :
    entry? (adjust m k f) j = entry? m j := by
  unfold adjust
  split
  · exact entry?_put_other m _ hj
  · rfl

theorem othersKept_modGroup (s : State) (k : Nat) (f : Group → Group) : OthersKept s (s.modGroup k f) k :=
  fun _ hj => SMap.entry?_adjust_other s.groups f hj

theorem OthersKept.trans {s t u : State} {k : Nat} (h : OthersKept s t k) (h' : OthersKept t u k) : OthersKept s u k :=
  fun j hj => (h' j hj).trans (h j hj)

section
variable (c : Ctx) (s : State)

theorem Ctx.othersKept_raisePopped : OthersKept s (c.raisePopped s) c.gid := by
  unfold Ctx.raisePopped
  split
  · exact fun _ _ => rfl
  · split
    · exact fun _ _ => rfl
    · exact othersKept_modGroup (s.modLaunch c.lid _) c.gid _

theorem Ctx.othersKept_done : OthersKept s (c.done s) c.gid :=
  ((c.othersKept_raisePopped s).trans (othersKept_modGroup _ _ _)).trans (othersKept_modGroup _ _ _)

@[simp] theorem Ctx.raisePopped_tick : (c.raisePopped s).tick = s.tick := by
  unfold Ctx.raisePopped
  split
  · rfl
  · split <;> rfl

variable {c s}

theorem Ctx.sameButGroups_done (h : c.raisePopped s = s) : SameButGroups s (c.done s) := by
  rw [Ctx.done, Ctx.ended, h]
  rfl

variable (hg : s.group? c.gid = some c.g)
include hg

theorem Ctx.group?_raisePopped : (c.raisePopped s).group? c.gid = some { c.g with fpstat := c.g.fpstat ||| c.g.popFp } := by
  simp only [Ctx.raisePopped, hg]
  split
  · next h =>
    have hfp : c.g.fpstat ||| c.g.popFp = c.g.fpstat := by simp [h.1]
    rw [hfp]
    exact hg
  · exact (State.group?_modGroup_self _ _ _).trans (congrArg (Option.map _) hg)

theorem Ctx.group?_ended : (c.ended s).group? c.gid = some (freed c.g) := by
  simp [Ctx.ended, Ctx.settled, Ctx.group?_raisePopped hg, freed]

theorem Ctx.group?_done : (c.done s).group? c.gid = some (if c.g.idx < c.h.count.val + 1 then
    { freed c.g with idx := c.g.idx + 1, phase := .issuing } else (freed c.g).goto c.nextClause s.tick) := by
  have htick : (c.ended s).tick = s.tick := c.raisePopped_tick s
  rw [Ctx.done, Ctx.advance, State.group?_modGroup_self, Ctx.group?_ended hg, htick]
  rfl

end

theorem Group.settleWants_eq (g : Group) : g.settleWants =
    { g with wantRing := if g.sup = true then g.wantRing else 0, wantTok := g.sup && g.wantTok,
             wb := if g.sup = true then g.wb else none } := by
  unfold Group.settleWants
  cases g with
  | mk => split <;> simp_all [Group.wantNothing]

/-- Settles O14, by what remains of the state and of the group after an instruction that goes on. -/
theorem nopGoesOn : Obligations.NopGoesOn := by
  intro s c hi
  obtain ⟨hgid, hg, -⟩ := State.ctx?_spec hi.1
  rw [← hgid] at hg
  refine ⟨exec_next_done hi (body := fun _ s => .ok s) rfl rfl, c.othersKept_done s,
    fun hf hs => Ctx.sameButGroups_done (Ctx.raisePopped_of_none ?_), fun h => ?_, fun h => ?_⟩
  · intro g hg'
    obtain rfl : c.g = g := Option.some.inj (hg.symm.trans hg')
    exact ⟨hf, hs⟩
  · rw [Ctx.group?_done hg, if_pos (by omega)]
  · rw [Ctx.group?_done hg, if_neg (by omega), Group.goto, Group.settleWants_eq]
    rfl

/-! ## BRA (R175) and BRX (R181) -/

section
variable {s : State} {c : Ctx} {sub : BraSub} {cond : Spec} {target : BitVec 32} {m : Mask} (hm : condMask c cond = .ok m)
include hm

/-- BRA by the outcome of its condition. -/
theorem braTo_eq : braTo sub cond target c s = if braTaken sub m c.g.exec = true then
    checkTarget c (c.target target) >>= fun a => .ok (c.jump c.g a s) else .ok (c.jump c.g c.nextClause s) := by
  cases sub <;> simp [braTo, hm, braTaken]

theorem braTo_jumps {a : BitVec 32} (h : braTaken sub m c.g.exec = true) (ht : TargetAt c (c.target target) a) :
    braTo sub cond target c s = .ok (c.jump c.g a s) := by
  rw [braTo_eq hm, if_pos h, checkTarget_of_targetAt ht, Res.ok_bind]

theorem braTo_no_target (h : braTaken sub m c.g.exec = true) (ht : ∀ a, ¬ TargetAt c (c.target target) a) :
    braTo sub cond target c s = .error (.trap { cause := 0x03, addr := BitVec.ofInt 64 (c.target target) }) := by
  rw [braTo_eq hm, if_pos h, checkTarget_of_no_target ht, Res.error_bind]

theorem braTo_falls (h : braTaken sub m c.g.exec = false) : braTo sub cond target c s = .ok (c.jump c.g c.nextClause s) := by
  rw [braTo_eq hm, if_neg (by simp [h])]

end

/-- Settles O15, by the outcomes of `braTo`. -/
theorem branchAll : Obligations.BranchAll := by
  intro s c sub cond target a m hi hm
  exact ⟨fun h ht => runControl_ok hi (braTo_jumps hm h ht), fun h ht => runControl_trap hi (braTo_no_target hm h ht),
    fun h => runControl_ok hi (braTo_falls hm h)⟩

section
variable {c : Ctx} {n : Fin 64}

theorem dispatchEntry_of_entry {x : Nat} (h : (c.l.dispatch c.r)[(c.g.readS n.val).toNat]? = some x) :
    dispatchEntry c (.s n) = .ok (x : Int) := by
  simp [dispatchEntry, h]

theorem dispatchEntry_past_end (h : (c.l.dispatch c.r).length ≤ (c.g.readS n.val).toNat) :
    dispatchEntry c (.s n) = .error (.trap { cause := 0x06, addr := c.g.readS n.val }) := by
  simp [dispatchEntry, List.getElem?_eq_none h, Cause.dispatchRange]

end

/-- Settles O19, by the dispatch table's entry and the check of its target. -/
theorem indexedBranch : Obligations.IndexedBranch := by
  intro s c n hi
  refine ⟨fun x a hx ht => exec_control_ended hi rfl ?_, fun x hx ht => exec_control_trap hi rfl ?_, fun hl => exec_control_trap hi rfl ?_⟩
  · rw [dispatchEntry_of_entry hx, Res.ok_bind, checkTarget_of_targetAt ht, Res.ok_bind]
  · rw [dispatchEntry_of_entry hx, Res.ok_bind, checkTarget_of_no_target ht, Res.error_bind, BitVec.ofInt_natCast]
  · rw [dispatchEntry_past_end hl, Res.error_bind]

/-! ## WSYNC (R186) -/

theorem notInHandler_of_program {c : Ctx} (hs : c.g.sup = false) : notInHandler c = .ok () := by simp [notInHandler, hs]

theorem waitPorter_of_no_trap {α : Type} {c : Ctx} (hp : c.g.porterTrap = none) (s : State) :
    (waitPorter c s : Res α) = .error (.wait s) := by
  simp [waitPorter, hp]

theorem porterAwaited_eq_true_iff {s : State} {gid : Nat} : porterAwaited s gid = true ↔ ∃ m ∈ s.porter, m.group = gid := by
  simp [porterAwaited]

theorem porterAwaited_eq_false_iff {s : State} {gid : Nat} : porterAwaited s gid = false ↔ ∀ m ∈ s.porter, m.group ≠ gid := by
  simp [porterAwaited]

section
variable {s : State} {c : Ctx} (hi : Issues s c) (hs : c.g.sup = false) (hp : c.g.porterTrap = none)
include hi hs hp

theorem exec_wsyncWait_passes (h : ∀ m ∈ s.porter, m.group ≠ c.gid) : exec .wsyncWait s = .next (c.done s) :=
  exec_next_done hi rfl (by simp [notInHandler_of_program hs, hp, porterAwaited_eq_false_iff.mpr h])

theorem exec_wsyncWait_waits (h : ∃ m ∈ s.porter, m.group = c.gid) : exec .wsyncWait s = .next (c.waitHere s) :=
  exec_next_wait hi rfl (by simp [notInHandler_of_program hs, waitPorter_of_no_trap hp, porterAwaited_eq_true_iff.mpr h])

theorem exec_wsyncWb_marks (h : c.g.wb = none) :
    exec .wsyncWb s = .next (c.waitHere (s.setGroup c.gid { c.g with wb := some c.g.resLo })) :=
  exec_next_wait hi rfl (by simp [notInHandler_of_program hs, waitPorter_of_no_trap hp, h])

theorem exec_wsyncWb_passes (hw : c.g.wb ≠ none) (h : ∀ m ∈ s.porter, m.group ≠ c.gid) :
    exec .wsyncWb s = .next (c.done (s.setGroup c.gid { c.g with wb := none })) := by
  obtain ⟨o, hw⟩ := Option.ne_none_iff_exists'.mp hw
  exact exec_next_done hi rfl (by simp [notInHandler_of_program hs, hp, hw, porterAwaited_eq_false_iff.mpr h])

end

/-! ## WINFO (R187) and PAUSE (R188) -/

theorem exec_winfo {s : State} {c : Ctx} (hi : Issues s c) (item : WItem) (n : Fin 64) :
    exec (.winfo item (.s n)) s = .next (c.done (s.setGroup c.gid (c.g.writeS n.val (winfo c.g item)))) :=
  exec_next_done hi rfl (by rfl)

section
variable {s : State} {c : Ctx} {gid : Nat} {u : Word} {recv : Bool} (hc : s.ctx? gid = some c)
  (hu : c.g.pauseUntil = some (u, recv))
include hc hu

theorem pauseExpiry_ends (hp : c.g.phase = .paused) (h : u ≤ s.cycle (reticleOf c.t.place) ∨ recv = true ∧ c.g.rx ≠ []) :
    pauseExpiry gid s = some (c.jump { c.g with pauseUntil := none } c.nextClause s) := by
  simp [pauseExpiry, hc, hu, hp, h]

theorem pauseExpiry_goes_on (h : s.cycle (reticleOf c.t.place) < u) (hr : recv = false) : pauseExpiry gid s = none := by
  simp [pauseExpiry, hc, hu, hr, h]

end

/-- Settles O21: WSYNC by the porter's moves for the group, WINFO by its item, PAUSE by its counter and its expiry. -/
theorem windowInstructions : Obligations.WindowInstructions := by
  refine ⟨fun s c hi hs hp => ⟨exec_wsyncWait_passes hi hs hp, exec_wsyncWait_waits hi hs hp, exec_wsyncWb_marks hi hs hp,
    exec_wsyncWb_passes hi hs hp⟩, fun s c item n hi => ?_, fun s c n => ⟨fun hi => ⟨exec_control_ended hi (body := pauseFor n false) rfl rfl,
    exec_control_ended hi (body := pauseFor n true) rfl rfl⟩,
    fun gid u recv hc hp hu => ⟨fun h => event_some (pauseExpiry_ends hc hu hp h),
      fun h hr => event_none (pauseExpiry_goes_on hc hu h hr)⟩⟩⟩
  cases item <;> exact exec_winfo hi _ n

end Sys2Proof.Machine
end

