-- ==== Sys2Proof/Proofs/TokenStack.lean ====
section
/-! Joins (R178, R179), YIELD (R185), the lanes that leave a loop (R161, R180, R184), the end of a path (R158), and calls (R182, R183):
what each does with the innermost token, the nearest LOOP token, or the tokens past the resident ones. -/
namespace Sys2Proof.Machine
open Sys2Proof.Claims

/-! ## The end of a path over resident tokens (R158) -/

section
variable {r : Region} {tick : Nat} {t : Token} {rest : List Token} {g : Group}

theorem pathEnd_nil : pathEnd r tick [] g = (false, { g with tokens := [] }) := rfl

theorem pathEnd_pending (hk : t.kind = .cond) (hp : t.pending ≠ 0) : pathEnd r tick (t :: rest) g =
    (true, { g with exec := t.pending, tokens := (if t.held = true
      then { t with pending := 0, join := t.saved, saved := 0, held := false } else { t with pending := 0 }) :: rest }.resume
        r t.join tick) := by
  simp only [pathEnd, hk, if_pos hp]

theorem pathEnd_arrived (hk : t.kind = .cond) (hp : t.pending = 0) (hc : t.cont ≠ 0) :
    pathEnd r tick (t :: rest) g = (true, { g with tokens := t :: rest }.resume r t.join tick) := by
  simp only [pathEnd, hk, hp, ne_eq, not_true_eq_false, if_false, if_pos hc]

theorem pathEnd_unused (hk : t.kind = .cond) (hp : t.pending = 0) (hc : t.cont = 0) :
    pathEnd r tick (t :: rest) g = pathEnd r tick rest { g with tokens := rest } := by
  simp only [pathEnd, hk, hp, hc, ne_eq, not_true_eq_false, if_false]

theorem pathEnd_loop (hk : t.kind = .loop) :
    pathEnd r tick (t :: rest) g = (true, { g with tokens := t :: rest }.resume r t.join tick) := by
  simp only [pathEnd, hk]

theorem pathEnd_returns (hk : t.kind = .call) (he : (g.returnEffect t rest).exec ≠ 0) :
    pathEnd r tick (t :: rest) g = (true, (g.returnEffect t rest).resume r t.join tick) := by
  simp only [pathEnd, hk, if_pos he]

theorem pathEnd_returns_none (hk : t.kind = .call) (he : (g.returnEffect t rest).exec = 0) :
    pathEnd r tick (t :: rest) g = pathEnd r tick rest (g.returnEffect t rest) := by
  simp only [pathEnd, hk, he, ne_eq, not_true_eq_false, if_false]

end

/-! ## The end of a path past the resident tokens (R158, R161) -/

section
variable {s s1 : State} {c : Ctx} {g h : Group} {n : Nat} {new : Option (Nat × Token)}

theorem endPath_found (hf : pathEnd c.r s.tick g.tokens g = (true, h)) :
    endPath c new n g s = .ok (s.setGroup c.gid { h with spilledTok := n }) := by
  cases n <;> simp only [endPath, hf]

/-- With no spilled token left the path found is the one that the resident tokens give, or the group ends. -/
theorem endPath_zero : endPath c new 0 g s = .ok (s.setGroup c.gid (pathEnded (pathEnd c.r s.tick g.tokens g))) := by
  cases hf : pathEnd c.r s.tick g.tokens g with
  | mk found h => cases found <;> simp [endPath, hf, pathEnded]

variable (hf : pathEnd c.r s.tick g.tokens g = (false, h))
include hf

theorem endPath_changed {t : Token} (hn : new = some (n, t)) :
    endPath c new (n + 1) g s = endPath c new n { h with tokens := [t] } s := by
  have hsome : (new.filter fun x => x.1 == n) = some (n, t) := by simp [hn]
  rw [endPath, hf]
  simp only [hsome, Res.ok_bind]

theorem endPath_reads {t : Token} (hn : ∀ x ∈ new, x.1 ≠ n) (hr : readSpilled c false n s = .ok (t, s1)) :
    endPath c new (n + 1) g s = endPath c new n { h with tokens := [t] } s1 := by
  have hnone : (new.filter fun x => x.1 == n) = none := by simpa [Option.filter_eq_none_iff] using hn
  rw [endPath, hf]
  simp only [hnone, hr, Res.ok_bind]

end

section
variable {s : State} {c : Ctx} {g : Group} {a : BitVec 32} {new : Option (Nat × Token)}

theorem settlePaths_goes_on (h : g.exec ≠ 0) : settlePaths c new g a s = .ok (c.jump g a s) := by
  rw [settlePaths, if_pos h]
  rfl

theorem settlePaths_no_lane (h : g.exec = 0) : settlePaths c new g a s = endPath c new g.spilledTok g s := by
  rw [settlePaths, if_neg (not_not.mpr h)]

theorem settlePaths_ends (h : g.exec = 0) (hz : g.spilledTok = 0) :
    settlePaths c new g a s = .ok (s.setGroup c.gid (pathEnded (pathEnd c.r s.tick g.tokens g))) := by
  rw [settlePaths_no_lane h, hz, endPath_zero]

end

/-! ## The innermost token where it is spilled -/

theorem innermost_absent {c : Ctx} (s : State) (h : c.g.tokens = []) (hz : c.g.spilledTok = 0) : innermost c s = .ok none := by
  simp [innermost, h, hz]

theorem innermost_spilled {c : Ctx} (s : State) (h : c.g.tokens = []) (hz : c.g.spilledTok ≠ 0) (hp : c.g.porterTrap = none) :
    innermost c s = .error (.wait s) := by
  simp [innermost, h, hz, waitPorter_of_no_trap hp]

theorem topOf_spilled {c : Ctx} {k : TokKind} (s : State) (h : c.g.tokens = []) (hz : c.g.spilledTok ≠ 0) (hp : c.g.porterTrap = none) :
    topOf c k s = .error (.wait s) := by
  rw [topOf, innermost_spilled s h hz hp, Res.error_bind]

theorem innerIf_spilled {c : Ctx} (s : State) (h : c.g.tokens = []) (hz : c.g.spilledTok ≠ 0) (hp : c.g.porterTrap = none) :
    innerIf c s = .error (.wait s) := by
  rw [innerIf, innermost_spilled s h hz hp, Res.error_bind]

theorem innerIf_absent {c : Ctx} (s : State) (h : c.g.tokens = []) (hz : c.g.spilledTok = 0) : innerIf c s = .ok none := by
  rw [innerIf, innermost_absent s h hz]
  rfl

theorem innerIf_of_match {c : Ctx} {t : Token} {rest : List Token} (s : State) (h : c.g.tokens = t :: rest) (hk : t.kind = .cond)
    (hd : t.depth.toNat = c.g.depth) : innerIf c s = .ok (some t) := by
  rw [innerIf, innermost_cons s h, Res.ok_bind, Option.filter_some, if_pos (by simp [hk, hd])]

theorem innerIf_of_mismatch {c : Ctx} {t : Token} {rest : List Token} (s : State) (h : c.g.tokens = t :: rest)
    (hn : t.kind ≠ .cond ∨ t.depth.toNat ≠ c.g.depth) : innerIf c s = .ok none := by
  rw [innerIf, innermost_cons s h, Res.ok_bind, Option.filter_some, if_neg]
  simpa [imp_iff_not_or] using hn

/-! ## Joins (R178, R179) -/

section
variable {s : State} {c : Ctx} {cond : Spec} {target : BitVec 32} (hs : c.g.sup = false)
include hs

theorem joinIf_stops {e : Stop} (h : topOf c .cond s = .error e) : joinIf target c s = .error e := by
  rw [joinIf, notInHandler_of_program hs, Res.ok_bind, h, Res.error_bind]

theorem joinLoop_stops {e : Stop} (h : topOf c .loop s = .error e) : joinLoop cond target c s = .error e := by
  rw [joinLoop, notInHandler_of_program hs, Res.ok_bind, h, Res.error_bind]

section
variable {t : Token} {rest : List Token} (h : topOf c .cond s = .ok (t, rest))
include h

theorem joinIf_switches (hp : t.pending ≠ 0) : joinIf target c s = .ok (s.setGroup c.gid
    ({ c.g with exec := t.pending,
                tokens := { t with cont := t.cont ||| c.g.exec, pending := 0, join := c.here, saved := 0, held := false } :: rest }.resume
      c.r t.join s.tick)) := by
  simp only [joinIf, notInHandler_of_program hs, Res.ok_bind, h, if_pos hp]

/-- With nothing pending a JOIN.IF goes by its target. -/
theorem joinIf_merges (hp : t.pending = 0) : joinIf target c s = (checkTarget c (c.target target) >>= fun a =>
    .ok (c.jump { c.g with exec := (c.g.exec ||| t.cont) &&& c.g.live, tokens := rest } a s)) := by
  simp only [joinIf, notInHandler_of_program hs, Res.ok_bind, h, hp, ne_eq, not_true_eq_false, if_false]

end

variable {t : Token} {rest : List Token} {m : Mask} (h : topOf c .loop s = .ok (t, rest)) (hm : condMask c cond = .ok m)
include h hm

/-- With lanes left in the loop a JOIN.LOOP goes by its target. -/
theorem joinLoop_repeats (hn : (m ||| t.cont) &&& c.g.live ≠ 0) : joinLoop cond target c s =
    (checkTarget c (c.target target) >>= fun a => .ok (c.jump { c.g with
      exec := (m ||| t.cont) &&& c.g.live, tokens := { t with exited := t.exited ||| (c.g.exec &&& ~~~m), cont := 0 } :: rest } a s)) := by
  simp only [joinLoop, notInHandler_of_program hs, Res.ok_bind, h, hm, if_pos hn]

theorem joinLoop_leaves (hn : (m ||| t.cont) &&& c.g.live = 0) : joinLoop cond target c s =
    settlePaths c none { c.g with exec := (t.exited ||| (c.g.exec &&& ~~~m)) &&& c.g.live, tokens := rest } c.nextClause s := by
  simp only [joinLoop, notInHandler_of_program hs, Res.ok_bind, h, hm, if_neg (not_not.mpr hn)]

end

/-! ## YIELD (R185) -/

section
variable {s : State} {c : Ctx} (hi : Issues s c) (hs : c.g.sup = false)
include hi hs

theorem exec_yield_waits (h : innerIf c s = .error (.wait s)) : exec .yield s = .next (c.waitHere s) := by
  refine exec_control_wait hi rfl ?_
  simp only [notInHandler_of_program hs, Res.ok_bind, h, Res.error_bind]

theorem exec_yield_rotates {t : Token} (h : innerIf c s = .ok (some t)) (hp : t.pending ≠ 0) (hh : t.held = false) :
    exec .yield s = .next (c.ended (s.setGroup c.gid (rotateTo c.g c.r t c.nextClause s.tick))) := by
  refine exec_control_ended hi rfl ?_
  have ht : t.pending ≠ 0 ∧ (!t.held) = true := ⟨hp, by simp [hh]⟩
  simp only [notInHandler_of_program hs, Res.ok_bind, h, if_pos ht]

theorem exec_yield_goes_on {t : Option Token} (h : innerIf c s = .ok t) (hn : ∀ x ∈ t, x.pending = 0 ∨ x.held = true) :
    exec .yield s = .next (c.ended (c.jump c.g c.nextClause s)) := by
  refine exec_control_ended hi rfl ?_
  cases t with
  | none => simp only [notInHandler_of_program hs, Res.ok_bind, h]
  | some t =>
    have ht : ¬ (t.pending ≠ 0 ∧ (!t.held) = true) := fun ⟨hp, hh⟩ => (hn t rfl).elim hp fun hheld => by simp [hheld] at hh
    simp only [notInHandler_of_program hs, Res.ok_bind, h, if_neg ht]

end

/-- Settles O17, by what the innermost token is for each of the three. -/
theorem joins : Obligations.Joins := by
  refine ⟨fun s c cond target hi hs => ⟨fun h hz i h' => ?absent, fun h hz hp i h' => ?spilled,
      fun t rest h => ⟨fun hn => ?notIf, fun hn => ?notLoop⟩⟩,
    fun s c t rest target hi hs h hk hd => ?joinIf, fun s c t rest cond m target hi hs h hk hd hm => ?joinLoop,
    fun s c hi hs => ⟨fun t rest h hk hd hp hh => ?rotates, fun t rest h hn => ?stays, fun h hz => ?noToken⟩⟩
  case absent =>
    simp only [List.mem_cons, List.not_mem_nil, or_false] at h'
    obtain rfl | rfl := h'
    · exact exec_control_trap hi rfl (joinIf_stops hs (topOf_of_absent s h hz))
    · exact exec_control_trap hi rfl (joinLoop_stops hs (topOf_of_absent s h hz))
  case spilled =>
    simp only [List.mem_cons, List.not_mem_nil, or_false] at h'
    obtain rfl | rfl | rfl := h'
    · exact exec_control_wait hi rfl (joinIf_stops hs (topOf_spilled s h hz hp))
    · exact exec_control_wait hi rfl (joinLoop_stops hs (topOf_spilled s h hz hp))
    · exact exec_yield_waits hi hs (innerIf_spilled s h hz hp)
  case notIf => exact exec_control_trap hi rfl (joinIf_stops hs (topOf_of_mismatch s h hn))
  case notLoop => exact exec_control_trap hi rfl (joinLoop_stops hs (topOf_of_mismatch s h hn))
  case joinIf =>
    have htop := topOf_of_match s h hk hd
    refine ⟨fun hp => ?_, fun a hp ht => ?_, fun hp ht => ?_⟩
    · exact exec_control_ended hi rfl (joinIf_switches hs htop hp)
    · refine exec_control_ended hi rfl ((joinIf_merges hs htop hp).trans ?_)
      rw [checkTarget_of_targetAt ht, Res.ok_bind]
    · refine exec_control_trap hi rfl ((joinIf_merges hs htop hp).trans ?_)
      rw [checkTarget_of_no_target ht, Res.error_bind]
  case joinLoop =>
    have htop := topOf_of_match s h hk hd
    refine ⟨fun hn => ⟨fun a ht => ?_, fun ht => ?_⟩, fun hn => ⟨fun hl => ?_, fun hl hz => ?_⟩⟩
    · refine exec_control_ended hi rfl ((joinLoop_repeats hs htop hm hn).trans ?_)
      rw [checkTarget_of_targetAt ht, Res.ok_bind]
    · refine exec_control_trap hi rfl ((joinLoop_repeats hs htop hm hn).trans ?_)
      rw [checkTarget_of_no_target ht, Res.error_bind]
    · exact exec_control_ended hi rfl ((joinLoop_leaves hs htop hm hn).trans (settlePaths_goes_on hl))
    · refine exec_control_ended hi rfl ((joinLoop_leaves hs htop hm hn).trans ?_)
      rw [hl]
      exact settlePaths_ends rfl hz
  case rotates =>
    refine (exec_yield_rotates hi hs (innerIf_of_match s h hk hd) hp hh).trans ?_
    rw [rotateTo, h]
    rfl
  case stays =>
    by_cases hm : t.kind = .cond ∧ t.depth.toNat = c.g.depth
    · refine exec_yield_goes_on hi hs (innerIf_of_match s h hm.1 hm.2) fun x hx => ?_
      obtain rfl := Option.mem_some_iff.mp hx
      tauto
    · exact exec_yield_goes_on hi hs (innerIf_of_mismatch s h (by tauto)) nofun
  case noToken => exact exec_yield_goes_on hi hs (innerIf_absent s h hz) nofun

/-! ## The search for a loop (R161) -/

section
variable {d : Nat} {t : Token}

theorem seekLoop_cond (hk : t.kind = .cond) (hd : t.depth.toNat = d) : seekLoop d t = .pass := by simp [seekLoop, hk, hd]

theorem seekLoop_loop (hk : t.kind = .loop) (hd : t.depth.toNat = d) : seekLoop d t = .found := by simp [seekLoop, hk, hd]

theorem seekLoop_ends (h : t.kind = .call ∨ t.depth.toNat ≠ d) : seekLoop d t = .stop := by rw [seekLoop, if_pos h.symm]

theorem seekResident_append {inner : List Token} (h : ∀ x ∈ inner, x.kind = .cond ∧ x.depth.toNat = d) (outer : List Token) (i : Nat) :
    seekResident d (inner ++ outer) i = seekResident d outer (i + inner.length) := by
  induction inner generalizing i with
  | nil => rfl
  | cons x xs ih =>
    obtain ⟨hx, hxs⟩ := List.forall_mem_cons.mp h
    simp only [List.cons_append, seekResident, seekLoop_cond hx.1 hx.2, ih hxs, List.length_cons]
    congr 1
    omega

end

section
variable {s s1 : State} {c : Ctx} {n : Nat} {t : Token} (hr : readSpilled c true n s = .ok (t, s1))
include hr

theorem seekSpilled_found (hk : t.kind = .loop) (hd : t.depth.toNat = c.g.depth) :
    seekSpilled c (n + 1) s = .ok (some (n, t), s1) := by
  simp only [seekSpilled, hr, Res.ok_bind, seekLoop_loop hk hd]

theorem seekSpilled_ends (h : t.kind = .call ∨ t.depth.toNat ≠ c.g.depth) : seekSpilled c (n + 1) s = .ok (none, s1) := by
  simp only [seekSpilled, hr, Res.ok_bind, seekLoop_ends h]

theorem seekSpilled_passes (hk : t.kind = .cond) (hd : t.depth.toNat = c.g.depth) :
    seekSpilled c (n + 1) s = seekSpilled c n s1 := by
  simp only [seekSpilled, hr, Res.ok_bind, seekLoop_cond hk hd]

end

/-- A spilled token is read where its bytes pass the checks, and nothing earlier stands in the way. -/
theorem readSpilled_ok {s u : State} {c : Ctx} {both : Bool} {j : Nat} {locs : List Nat} {t : Token}
    (hu : (c.who s).fill s (Piece.bytes { lane := 0, ptr := c.g.tokenPtr j, len := 32 }) = u)
    (hl : porterLocs u (c.who s) (if both = true then [.load, .store] else [.load]) (c.g.tokenPtr j) 32 = .ok locs)
    (hb : ∀ p ∈ locs, p ∉ busyLocs u c.gid u.nextId) (hw : coreWaits u c.t.place c.gid locs = false)
    (hc : both = true → cowPages u locs = []) (hp : backingPoison u (c.who s) false (c.g.tokenPtr j) locs = none)
    (ht : Token.ofImage (BitVec.ofNat 256 (leNat (coreRead u c.t.place c.gid locs).1)) = some t) :
    readSpilled c both j s = .ok (t, (coreRead u c.t.place c.gid locs).2) := by
  have hfree : (locs.any (busyLocs u c.gid u.nextId).contains || coreWaits u c.t.place c.gid locs) = false := by simpa [hw] using hb
  have hcow : (if both = true then cowPages u locs else []) = [] := by simpa using hc
  simp only [readSpilled, hu, hl, hfree, hcow, hp, ht, Bool.false_eq_true, if_false, List.isEmpty_nil, Bool.not_true]

/-! ## The change of the nearest LOOP token -/

section
variable {s : State} {c : Ctx} {f : Token → Token}

theorem onLoop_resident {inner outer : List Token} {t : Token} (h : c.g.tokens = inner ++ t :: outer)
    (hp : ∀ x ∈ inner, x.kind = .cond ∧ x.depth.toNat = c.g.depth) (hk : t.kind = .loop) (hd : t.depth.toNat = c.g.depth) :
    onLoop c f s = .ok (some ({ c.g with tokens := inner ++ f t :: outer }, none), s) := by
  have hseek : seekResident c.g.depth c.g.tokens 0 = (some inner.length, true) := by
    rw [h, seekResident_append hp, seekResident, seekLoop_loop hk hd, Nat.zero_add]
  have hmod : c.g.tokens.modify inner.length f = inner ++ f t :: outer := by simp [h, List.modify_eq_take_drop]
  simp only [onLoop, hseek, hmod]

theorem onLoop_outside (h : OutOfLoops c.g) : onLoop c f s = .ok (none, s) := by
  obtain ⟨inner, outer, hout, hp, hend⟩ := h
  rw [onLoop, hout, seekResident_append hp]
  obtain ⟨rfl, hz⟩ | ⟨t, ht, hstop⟩ := hend
  · simp only [seekResident, hz, seekSpilled, Res.ok_bind, Option.map_none]
  · cases outer with
    | nil => cases ht
    | cons x xs =>
      cases ht
      simp only [seekResident, seekLoop_ends hstop]

theorem onLoop_spilled (hp : ∀ x ∈ c.g.tokens, x.kind = .cond ∧ x.depth.toNat = c.g.depth) :
    onLoop c f s = (seekSpilled c c.g.spilledTok s >>= fun x => .ok (x.1.map fun (j, t) => (c.g, some (j, f t)), x.2)) := by
  have hseek : seekResident c.g.depth c.g.tokens 0 = (none, false) := by
    simpa [seekResident] using seekResident_append hp [] 0
  simp only [onLoop, hseek]

end

/-! ## BRK, CONT and EXIT (R180, R184) -/

/-- What BRK and EXIT record in a LOOP token. -/
def Token.exitedBy (m : Mask) (t : Token) : Token := { t with exited := t.exited ||| m }

/-- What CONT records in a LOOP token. -/
def Token.repeatedBy (m : Mask) (t : Token) : Token := { t with cont := t.cont ||| m }

theorem exec_brk (cond : Spec) : exec (.brk cond) = runControl (leaveLoop cond Token.exitedBy) := rfl
theorem exec_cont (cond : Spec) : exec (.cont cond) = runControl (leaveLoop cond Token.repeatedBy) := rfl
theorem exec_exit (cond : Spec) : exec (.exit cond) = runControl (exitLanes cond) := rfl

/-- A group without the lanes of a mask, in LIVE and in EXEC. -/
def Group.without (m : Mask) (g : Group) : Group := { g with live := g.live &&& ~~~m, exec := g.exec &&& ~~~m }

section
variable {s s1 : State} {c : Ctx} {cond : Spec} {m : Mask} {f : Mask → Token → Token} (hs : c.g.sup = false)
  (hm : condMask c cond = .ok m)
include hs hm

theorem leaveLoop_outside (h : onLoop c (f m) s = .ok (none, s1)) : leaveLoop cond f c s = .error (.trap { cause := 0x04 }) := by
  simp only [leaveLoop, notInHandler_of_program hs, Res.ok_bind, hm, h]
  rfl

theorem leaveLoop_inside {g : Group} {x : Option (Nat × Token)} (h : onLoop c (f m) s = .ok (some (g, x), s1)) :
    leaveLoop cond f c s =
      (settlePaths c x { g with exec := g.exec &&& ~~~m } c.nextClause s1 >>= fun u => .ok (writeChanged c x u)) := by
  simp only [leaveLoop, notInHandler_of_program hs, Res.ok_bind, hm, h]

/-- EXIT leaves by the group that the search changed, or by its own. -/
theorem exitLanes_eq : exitLanes cond c s = (onLoop c (Token.exitedBy m) s >>= fun r =>
    let (g, x) := r.1.getD (c.g, none)
    if (g.without m).live = 0 then .ok (writeChanged c x (r.2.setGroup c.gid (g.without m).finish))
    else settlePaths c x (g.without m) c.nextClause r.2 >>= fun u => .ok (writeChanged c x u)) := by
  rw [exitLanes, notInHandler_of_program hs, Res.ok_bind, hm, Res.ok_bind]
  rfl

end

section
variable {s s1 s2 : State} {c : Ctx} {cond : Spec} {m : Mask} {g : Group} {x : Option (Nat × Token)} (hi : Issues s c)
  (hs : c.g.sup = false) (hm : condMask c cond = .ok m)
include hi hs hm

/-! ### BRK and CONT -/

section
variable {i : Instr} {f : Mask → Token → Token} (he : exec i = runControl (leaveLoop cond f))
include he

theorem exec_leave_outside (h : onLoop c (f m) s = .ok (none, s1)) : exec i s = .next (c.takeTrap { cause := 0x04 } (c.settled s)) :=
  exec_control_trap hi he (leaveLoop_outside hs hm h)

theorem exec_leave_inside (h : onLoop c (f m) s = .ok (some (g, x), s1))
    (h2 : settlePaths c x { g with exec := g.exec &&& ~~~m } c.nextClause s1 = .ok s2) :
    exec i s = .next (c.ended (writeChanged c x s2)) :=
  exec_control_ended hi he ((leaveLoop_inside hs hm h).trans (by rw [h2, Res.ok_bind]))

variable (h : onLoop c (f m) s = .ok (some (g, none), s))
include h

theorem exec_leave_goes_on (hn : g.exec &&& ~~~m ≠ 0) :
    exec i s = .next (c.ended (c.jump { g with exec := g.exec &&& ~~~m } c.nextClause s)) :=
  exec_leave_inside hi hs hm he h (settlePaths_goes_on hn)

theorem exec_leave_ends (h0 : g.exec &&& ~~~m = 0) (hz : g.spilledTok = 0) :
    exec i s = .next (c.ended (s.setGroup c.gid (pathEnded (pathEnd c.r s.tick g.tokens { g with exec := 0 })))) :=
  exec_leave_inside hi hs hm he h (by rw [h0]; exact settlePaths_ends rfl hz)

end

/-! ### EXIT -/

variable {r : Option (Group × Option (Nat × Token))}

section
variable (h : onLoop c (Token.exitedBy m) s = .ok (r, s1)) (hr : r.getD (c.g, none) = (g, x))
include h hr

theorem exec_exit_all (hl : g.live &&& ~~~m = 0) : exec (.exit cond) s = .next (c.ended (writeChanged c x (s1.setGroup c.gid
    { g with live := 0, exec := 0, phase := .ended, rx := [], tx := [], streams := [] }))) := by
  refine exec_control_ended hi (exec_exit cond) ?_
  rw [exitLanes_eq hs hm, h, Res.ok_bind]
  simp only [hr, if_pos (show (g.without m).live = 0 from hl)]
  rw [Group.finish, Group.without, hl]

theorem exec_exit_some (hl : g.live &&& ~~~m ≠ 0) (h2 : settlePaths c x (g.without m) c.nextClause s1 = .ok s2) :
    exec (.exit cond) s = .next (c.ended (writeChanged c x s2)) := by
  refine exec_control_ended hi (exec_exit cond) ?_
  rw [exitLanes_eq hs hm, h, Res.ok_bind]
  simp only [hr, if_neg (show (g.without m).live ≠ 0 from hl), h2, Res.ok_bind]

end

variable (h : onLoop c (Token.exitedBy m) s = .ok (r, s)) (hr : r.getD (c.g, none) = (g, none)) (hl : g.live &&& ~~~m ≠ 0)
include h hr hl

theorem exec_exit_goes_on (hn : g.exec &&& ~~~m ≠ 0) :
    exec (.exit cond) s = .next (c.ended (c.jump (g.without m) c.nextClause s)) :=
  exec_exit_some hi hs hm h hr hl (settlePaths_goes_on hn)

theorem exec_exit_ends (h0 : g.exec &&& ~~~m = 0) (hz : g.spilledTok = 0) : exec (.exit cond) s = .next (c.ended (s.setGroup c.gid
    (pathEnded (pathEnd c.r s.tick g.tokens { g with live := g.live &&& ~~~m, exec := 0 })))) :=
  exec_exit_some hi hs hm h hr hl (by rw [Group.without, h0]; exact settlePaths_ends rfl hz)

end

/-- Settles O18: the search's outcome gives the group and the token that change, and `settlePaths` where the lanes left go. -/
theorem lanesLeave : Obligations.LanesLeave := by
  refine ⟨fun s c inner outer t cond m hi hs h hp hk hd hm => ?resident, fun s c cond m hi hs hm hout => ?outside,
    ⟨fun s s1 s2 c cond m j k hi hs hm hp => ?spilled, fun s s1 c n t => ⟨rfl, fun hr => ⟨seekSpilled_found hr, seekSpilled_ends hr,
      seekSpilled_passes hr⟩⟩, fun s c both j locs t hl hb hw hc hpo ht => readSpilled_ok rfl hl hb hw hc hpo ht⟩,
    fun r tick t rest g => ⟨pathEnd_nil, pathEnd_pending, pathEnd_arrived, pathEnd_unused, pathEnd_loop, pathEnd_returns,
      pathEnd_returns_none⟩, fun s c g a new => ⟨settlePaths_goes_on, settlePaths_no_lane, settlePaths_ends⟩,
    fun s s1 c g h n t new => ⟨endPath_found, fun hf => endPath_changed hf, fun hf => endPath_reads hf⟩⟩
  case resident =>
    have hgone := onLoop_resident (s := s) (f := Token.exitedBy m) h hp hk hd
    have hagain := onLoop_resident (s := s) (f := Token.repeatedBy m) h hp hk hd
    refine ⟨fun h0 hz => ⟨?_, ?_, fun hl => ?_⟩, fun hl => ?_, fun hn => ⟨?_, ?_, fun hl => ?_⟩⟩
    · exact (exec_leave_ends hi hs hm (exec_brk cond) hgone h0 hz :)
    · exact (exec_leave_ends hi hs hm (exec_cont cond) hagain h0 hz :)
    · exact (exec_exit_ends hi hs hm hgone rfl hl h0 hz :)
    · exact exec_exit_all hi hs hm hgone rfl hl
    · exact (exec_leave_goes_on hi hs hm (exec_brk cond) hgone hn :)
    · exact (exec_leave_goes_on hi hs hm (exec_cont cond) hagain hn :)
    · exact exec_exit_goes_on hi hs hm hgone rfl hl hn
  case outside =>
    have hon (f : Token → Token) := onLoop_outside (s := s) (f := f) hout
    refine ⟨fun i h => ?_, fun hl => ?_, fun hl hn => ?_, fun hl h0 hz => ?_⟩
    · simp only [List.mem_cons, List.not_mem_nil, or_false] at h
      obtain rfl | rfl := h
      · exact exec_leave_outside hi hs hm (exec_brk cond) (hon _)
      · exact exec_leave_outside hi hs hm (exec_cont cond) (hon _)
    · exact exec_exit_all hi hs hm (hon _) rfl hl
    · exact exec_exit_goes_on hi hs hm (hon _) rfl hl hn
    · exact (exec_exit_ends hi hs hm (hon _) rfl hl h0 hz :)
  case spilled =>
    refine ⟨fun hseek => ?_, fun hseek i h => ?_⟩
    · have hon (f : Token → Token) : onLoop c f s = .ok (some (c.g, some (j, f k)), s1) := by
        rw [onLoop_spilled hp, hseek]
        rfl
      exact ⟨exec_leave_inside hi hs hm (exec_brk cond) (hon _), exec_leave_inside hi hs hm (exec_cont cond) (hon _),
        exec_exit_some hi hs hm (hon _) rfl, exec_exit_all hi hs hm (hon _) rfl⟩
    · have hon (f : Token → Token) : onLoop c f s = .ok (none, s1) := by
        rw [onLoop_spilled hp, hseek]
        rfl
      simp only [List.mem_cons, List.not_mem_nil, or_false] at h
      obtain rfl | rfl := h
      · exact exec_leave_outside hi hs hm (exec_brk cond) (hon _)
      · exact exec_leave_outside hi hs hm (exec_cont cond) (hon _)

end Sys2Proof.Machine
end

