-- ==== Sys2Proof/Proofs/Calls.lean ====
section
/-! Calls: CALL and CALLX under the limit of R167 (R182), and RET on the innermost token (R183). -/
namespace Sys2Proof.Machine
open Sys2Proof.Claims

/-! ## CALL and CALLX (R167, R182) -/

theorem callFits_iff {g : Group} {k : Nat} : CallFits g k ↔ callOverflows g k = false := by
  rw [callOverflows, Bool.or_eq_false_iff, beq_eq_false_iff_ne, decide_eq_false_iff_not, not_lt]
  rfl

theorem exec_call (cond : Spec) (slide : BitVec 4) (target : BitVec 32) :
    exec (.call cond slide target) = runControl (callTo cond slide fun c => .ok (c.target target)) := rfl

/-- CALLX at an s register is a call to the dispatch table's entry. -/
theorem exec_callx (cond : Spec) (slide : BitVec 4) (n : Fin 64) :
    exec (.callx cond slide (.s n)) = runControl (callTo cond slide fun c => dispatchEntry c (.s n)) := rfl

section
variable {s : State} {c : Ctx} {cond : Spec} {slide : BitVec 4} {target : Ctx → Res Int} {m : Mask} (hs : c.g.sup = false)
  (hm : condMask c cond = .ok m)
include hs hm

theorem callTo_no_lane (h0 : m = 0) : callTo cond slide target c s = .ok (c.jump c.g c.nextClause s) := by
  simp only [callTo, notInHandler_of_program hs, Res.ok_bind, hm, if_pos h0]

variable {x : Int} {a : BitVec 32} (h0 : m ≠ 0) (hx : target c = .ok x) (ht : TargetAt c x a)
include h0 hx ht

theorem callTo_overflows (hf : ¬ CallFits c.g (8 * slide.toNat)) : callTo cond slide target c s = .error (.trap { cause := 0x07 }) := by
  have hover : callOverflows c.g (8 * slide.toNat) = true := by simpa [callFits_iff] using hf
  simp only [callTo, notInHandler_of_program hs, Res.ok_bind, hm, if_neg h0, hx, checkTarget_of_targetAt ht, hover, if_true]
  rfl

theorem callTo_enters (hf : CallFits c.g (8 * slide.toNat)) (hl : c.g.tokens.length ≠ 16) (hr : c.g.occ + 8 * slide.toNat ≤ c.g.ring) :
    callTo cond slide target c s = .ok (c.jump { c.g with
      tokens := { kind := .call, slide, pending := c.g.exec &&& ~~~m, join := c.nextClause, depth := BitVec.ofNat 16 c.g.depth } ::
        c.g.tokens,
      depth := c.g.depth + 1, base := c.g.base + 8 * slide.toNat, exec := m, wantRing := 0, wantTok := false } a s) := by
  have hroom : ¬ (c.g.tokens.length = 16 ∨ c.g.ring < c.g.occ + 8 * slide.toNat) := by omega
  simp only [callTo, notInHandler_of_program hs, Res.ok_bind, hm, if_neg h0, hx, checkTarget_of_targetAt ht, callFits_iff.mp hf,
    Bool.false_eq_true, if_false, if_neg hroom]

end

/-! ## RET (R183) -/

section
variable {s : State} {c : Ctx} (hi : Issues s c) (hs : c.g.sup = false)
include hi hs

theorem exec_ret_absent (h : c.g.tokens = []) (hz : c.g.spilledTok = 0) :
    exec .ret s = .next (c.takeTrap { cause := 0x04 } (c.settled s)) := by
  refine exec_control_trap hi rfl ?_
  simp only [notInHandler_of_program hs, Res.ok_bind, innermost_absent s h hz]
  rfl

theorem exec_ret_waits (h : c.g.tokens = []) (hz : c.g.spilledTok ≠ 0) (hp : c.g.porterTrap = none) :
    exec .ret s = .next (c.waitHere s) := by
  refine exec_control_wait hi rfl ?_
  simp only [notInHandler_of_program hs, Res.ok_bind, innermost_spilled s h hz hp, Res.error_bind]

variable {t : Token} {rest : List Token} (h : c.g.tokens = t :: rest)
include h

theorem exec_ret_mismatch (hn : t.kind ≠ .call ∨ t.depth.toNat + 1 ≠ c.g.depth) :
    exec .ret s = .next (c.takeTrap { cause := 0x04 } (c.settled s)) := by
  have hcall : ¬ (t.kind = .call ∧ t.depth.toNat + 1 = c.g.depth) := by tauto
  refine exec_control_trap hi rfl ?_
  simp only [notInHandler_of_program hs, Res.ok_bind, innermost_cons s h, if_neg hcall]
  rfl

/-- RET on its CALL token goes where the lanes of its return effect go. -/
theorem exec_ret_returns {u : State} (hk : t.kind = .call) (hd : t.depth.toNat + 1 = c.g.depth)
    (hu : settlePaths c none (c.g.returnEffect t rest) t.join s = .ok u) : exec .ret s = .next (c.ended u) := by
  have hcall : t.kind = .call ∧ t.depth.toNat + 1 = c.g.depth := ⟨hk, hd⟩
  have hrest : c.g.tokens.drop 1 = rest := by rw [h]; rfl
  refine exec_control_ended hi rfl ?_
  simp only [notInHandler_of_program hs, Res.ok_bind, innermost_cons s h, if_pos hcall, hrest, hu]

end

/-- Settles O20, by the outcomes of `callTo` and of RET. -/
theorem calls : Obligations.Calls := by
  refine ⟨fun s c i cond m slide target a n hi hs hm hcall => ?call, fun s c t rest hi hs => ⟨exec_ret_absent hi hs,
    exec_ret_waits hi hs, fun h => ⟨fun hk hd he => ?_, fun hk hd he hz => ?_, exec_ret_mismatch hi hs h⟩⟩⟩
  case call =>
    obtain ⟨tgt, hexec, x, hx, ht⟩ : ∃ tgt, exec i = runControl (callTo cond slide tgt) ∧ ∃ x, tgt c = .ok x ∧ TargetAt c x a := by
      obtain ⟨rfl, ht⟩ | ⟨rfl, x, hx, ht⟩ := hcall
      · exact ⟨_, exec_call cond slide target, _, rfl, ht⟩
      · exact ⟨_, exec_callx cond slide n, _, dispatchEntry_of_entry hx, ht⟩
    exact ⟨fun h0 => exec_control_ended hi hexec (callTo_no_lane hs hm h0),
      fun h0 hf => exec_control_trap hi hexec (callTo_overflows hs hm h0 hx ht hf),
      fun h0 hf hl hr => exec_control_ended hi hexec (callTo_enters hs hm h0 hx ht hf hl hr)⟩
  · exact exec_ret_returns hi hs h hk hd (settlePaths_goes_on he)
  · exact exec_ret_returns hi hs h hk hd (settlePaths_ends he hz)

end Sys2Proof.Machine
end

