-- ==== Sys2Proof/Proofs/CrossLane.lean ====
section
/-! Cross-lane instructions (R189 to R197): the row of each is what it runs, and the member-masked arrival (R162) says whether, and in
which frame, its operation is performed. -/
namespace Sys2Proof.Machine
open Sys2Proof.Claims

/-! ## Ends of an instruction that has moved its group, or traps with a state of its own -/

theorem runInstr_moved {s s' : State} {c : Ctx} {body : Ctx → State → Res State} (h : Issues s c)
    (hb : body c s = .error (.moved s')) : runInstr body s = .next (c.settled s') := by
  simp [runInstr, runWith, h.1, h.2, hb]

theorem runInstr_trapIn {s s' : State} {c : Ctx} {x : Trap} {body : Ctx → State → Res State} (h : Issues s c)
    (hb : body c s = .error (.trapIn x s')) : runInstr body s = .next (c.takeTrap x (c.settled s')) := by
  simp [runInstr, runWith, h.1, h.2, hb]

/-! ## What a cross-lane row runs -/

/-- The operation of a row: its effect, or an illegal operand where the lane it names is not a member. -/
def crossOp (r : CrossRow) (c : Ctx) (m : Mask) (s : State) : Res State :=
  match r.effect c m with
  | some e => .ok (e s)
  | none => illegal

/-- The operation of a cross-lane instruction counts by its values alone. -/
theorem runInstr_crossLane_congr {f : OForm} {ok : Ctx → Bool} {op op' : Ctx → Mask → State → Res State}
    (h : ∀ c m s, op c m s = op' c m s) :
    runInstr (fun c s => crossLane f (ok c) op c s) = runInstr (fun c s => crossLane f (ok c) op' c s) := by
  rw [funext fun c => funext fun m => funext (h c m)]

theorem execShfl_of_crossRow {f : OForm} {r : CrossRow} (h : crossRow (.shfl f) = some r) :
    execShfl f = runInstr fun c s => crossLane r.f (r.ok c) (crossOp r) c s := by
  cases h
  refine runInstr_crossLane_congr fun c m s => ?_
  simp only [crossOp, apply_ite (laneOf c.g f.ty f.a)]

theorem execRedux_of_crossRow {f : OForm} {r : CrossRow} (h : crossRow (.redux f) = some r) :
    execRedux f = runInstr fun c s => crossLane r.f (r.ok c) (crossOp r) c s := by
  cases h
  refine runInstr_crossLane_congr fun c m s => ?_
  cases hl : lanes m <;> simp [crossOp, hl, foldEffect]

theorem execScan_of_crossRow {f : OForm} {r : CrossRow} (h : crossRow (.scan f) = some r) :
    execScan f = runInstr fun c s => crossLane r.f (r.ok c) (crossOp r) c s := by
  cases h
  refine runInstr_crossLane_congr fun c m s => ?_
  cases hl : lanes m <;> simp [crossOp, hl, foldEffect]

theorem execBcast_of_crossRow {f : OForm} {r : CrossRow} (h : crossRow (.bcast f) = some r) :
    execBcast f = runInstr fun c s => crossLane r.f (r.ok c) (crossOp r) c s := by
  cases h
  refine runInstr_crossLane_congr fun c m s => ?_
  simp only [crossOp, namedLane]
  split
  · rfl
  · split <;> rfl

theorem execSetlane_of_crossRow {f : OForm} {r : CrossRow} (h : crossRow (.setlane f) = some r) :
    execSetlane f = runInstr fun c s => crossLane r.f (r.ok c) (crossOp r) c s := by
  cases h
  refine runInstr_crossLane_congr fun c m s => ?_
  simp only [crossOp, namedLane]
  split
  · rfl
  · split <;> rfl

/-- R189: a cross-lane instruction runs `crossLane` with the fields, operand check and operation of its row. -/
theorem exec_of_crossRow {i : Instr} {r : CrossRow} (h : crossRow i = some r) :
    exec i = runInstr fun c s => crossLane r.f (r.ok c) (crossOp r) c s := by
  cases i with
  | shfl f => exact execShfl_of_crossRow h
  | vote f | elect f => cases h; rfl
  | redux f => exact execRedux_of_crossRow h
  | scan f => exact execScan_of_crossRow h
  | bcast f => exact execBcast_of_crossRow h
  | setlane f => exact execSetlane_of_crossRow h
  | _ => cases h

/-! ## Arrival (R162) -/

/-- Lanes that are all active are neither exited nor elsewhere. -/
theorem and_not_or_eq_zero {m e : Mask} (h : m &&& e = m) (p : Mask) : m &&& ~~~(e ||| p) = 0 := by
  rw [← h]
  ext i hi
  cases hm : m[i] <;> cases he : e[i] <;> simp [hm, he]

/-- With the innermost token resident, what counts for an arrival is that token or none. -/
theorem innerIf_resident {c : Ctx} (s : State) (h : c.g.tokens ≠ [] ∨ c.g.spilledTok = 0) :
    ∃ x, innerIf c s = .ok x ∧ ∀ y ∈ x, y ∈ c.g.tokens.head? := by
  cases ht : c.g.tokens with
  | nil => exact ⟨none, innerIf_absent s ht (h.resolve_left (not_not.mpr ht)), nofun⟩
  | cons t rest =>
    by_cases hm : t.kind = .cond ∧ t.depth.toNat = c.g.depth
    · exact ⟨some t, innerIf_of_match s ht hm.1 hm.2, fun y hy => hy⟩
    · exact ⟨none, innerIf_of_mismatch s ht (by tauto), nofun⟩

/-- The frame of a group whose held lanes have arrived at the instruction. -/
def Ctx.merged (c : Ctx) (t : Token) (rest : List Token) : Ctx :=
  { c with g := { c.g with exec := c.g.exec ||| t.pending,
                           tokens := { t with pending := 0, join := t.saved, saved := 0, held := false } :: rest } }

section
variable {c : Ctx} {m : Mask} {s : State}

section
variable {x : Option Token} (hx : innerIf c s = .ok x)
include hx

theorem arrive_exited (hl : m &&& ~~~c.g.live ≠ 0) : arrive c false m s = .error (.trap { cause := 0x05 }) := by
  simp only [arrive, hx, Res.ok_bind, if_pos hl]
  rfl

variable (hl : m &&& ~~~c.g.live = 0)
include hl

/-- A lane that is neither active nor pending on the innermost IF token of the current depth. -/
theorem arrive_away (hp : m &&& ~~~(c.g.exec ||| (x.map Token.pending).getD 0) ≠ 0) :
    arrive c false m s = .error (.trap { cause := 0x04 }) := by
  have hstop (p : Mask) (h : m &&& ~~~(c.g.exec ||| p) ≠ 0) : ¬ m &&& ~~~(c.g.exec ||| p) = 0#64 := h
  cases x with
  | none => simp [arrive, hx, hl, Cause.illegalConvergence, by simpa using hstop 0 hp]
  | some t => simp [arrive, hx, hl, Cause.illegalConvergence, hstop t.pending hp]

theorem arrive_active (hh : ∀ t ∈ x, t.held = false) (ha : m &&& c.g.exec = m) : arrive c false m s = .ok (c, s) := by
  cases x with
  | none => simp [arrive, hx, hl, ha, and_not_or_eq_zero ha]
  | some t => simp [arrive, hx, hl, ha, and_not_or_eq_zero ha, hh t rfl]

end

variable {t : Token} {rest : List Token} (hx : innerIf c s = .ok (some t)) (ht : c.g.tokens = t :: rest)
  (hl : m &&& ~~~c.g.live = 0) (hp : m &&& ~~~(c.g.exec ||| t.pending) = 0)
include hx hl hp

theorem arrive_elsewhere (hh : t.held = true) (hj : t.join ≠ c.here) : arrive c false m s = .error (.trap { cause := 0x04 }) := by
  simp [arrive, hx, hl, hp, hh, hj, Cause.illegalConvergence]

include ht

theorem arrive_merges (hh : t.held = true) (hj : t.join = c.here) :
    arrive c false m s = .ok (c.merged t rest, s.setGroup c.gid (c.merged t rest).g) := by
  simp [arrive, hx, hl, hp, hh, hj, ht, Ctx.merged]

theorem arrive_rotates (hh : t.held = false) (ha : m &&& c.g.exec ≠ m) : arrive c false m s = .error (.moved (s.setGroup c.gid
    ({ c.g with exec := t.pending,
                tokens := { t with pending := c.g.exec, join := c.here, saved := t.join, held := true } :: rest }.resume
      c.r t.join s.tick))) := by
  simp [arrive, hx, hl, hp, hh, Ne.symm ha, ht, rotateTo]

end

/-! ## What follows an arrival -/

section
variable {s : State} {c : Ctx} {i : Instr} {r : CrossRow} {m : Mask} (hi : Issues s c) (hr : crossRow i = some r)
  (hm : memberMask c r.f.c = .ok m) (hok : r.ok c = true)
include hi hr hm hok

theorem exec_cross_trap {x : Trap} (h : arrive c false m s = .error (.trap x)) : exec i s = .next (c.takeTrap x (c.settled s)) :=
  exec_next_trap hi (exec_of_crossRow hr) (by simp only [crossLane, hm, hok, guardOp_true, Res.ok_bind, h, Res.error_bind])

theorem exec_cross_moved {t : State} (h : arrive c false m s = .error (.moved t)) : exec i s = .next (c.settled t) := by
  rw [exec_of_crossRow hr]
  exact runInstr_moved hi (by simp only [crossLane, hm, hok, guardOp_true, Res.ok_bind, h, Res.error_bind])

variable {c' : Ctx} {s' : State} (h : arrive c false m s = .ok (c', s'))
include h

theorem exec_cross_performs {e : State → State} (he : r.effect c' m = some e) : exec i s = .next (c.done (e s')) :=
  exec_next_done hi (exec_of_crossRow hr) (by simp only [crossLane, hm, hok, guardOp_true, Res.ok_bind, h, crossOp, he])

theorem exec_cross_illegal (he : r.effect c' m = none) : exec i s = .next (c.takeTrap { cause := 0x02 } (c.settled s)) := by
  rw [exec_of_crossRow hr]
  exact runInstr_trapIn hi (by simp only [crossLane, hm, hok, guardOp_true, Res.ok_bind, h, crossOp, he, illegal_eq])

end

end Sys2Proof.Machine

namespace Sys2Proof
open Sys2Proof.Machine Sys2Proof.Claims

/-- Settles O25, by the outcomes of `arrive`. -/
theorem crossLane : Obligations.CrossLane := by
  refine ⟨fun i r hr s c m hi hm hok hres hheld hl ha => ?active,
    fun i r hr s c m hi hm hok hres => ⟨fun hl => ?exited, fun hl hn h => ?absent, fun t ht hl hn => ?away,
    fun t rest h hk hd hh hl ha hp => ?first, fun t rest h hk hd hh hl hp => ⟨fun hj => ?elsewhere, fun hj => ?second⟩⟩⟩
  case active =>
    obtain ⟨x, hx, hhead⟩ := innerIf_resident s hres
    have harr : arrive c false m s = .ok (c, s) := arrive_active hx hl (fun t ht => hheld t (hhead t ht)) ha
    exact ⟨fun e => exec_cross_performs hi hr hm hok harr, exec_cross_illegal hi hr hm hok harr⟩
  case exited =>
    obtain ⟨x, hx, -⟩ := innerIf_resident s hres
    exact exec_cross_trap hi hr hm hok (arrive_exited hx hl)
  case absent =>
    have hx := innerIf_absent s h (hres.resolve_left (not_not.mpr h))
    exact exec_cross_trap hi hr hm hok (arrive_away hx hl (by simpa using hn))
  case away =>
    obtain ⟨rest, h⟩ := List.head?_eq_some_iff.mp ht
    by_cases hkd : t.kind = .cond ∧ t.depth.toNat = c.g.depth
    · exact exec_cross_trap hi hr hm hok (arrive_away (innerIf_of_match s h hkd.1 hkd.2) hl (by simpa [hkd] using hn))
    · exact exec_cross_trap hi hr hm hok (arrive_away (innerIf_of_mismatch s h (by tauto)) hl (by simpa [hkd] using hn))
  case first =>
    exact exec_cross_moved hi hr hm hok (arrive_rotates (innerIf_of_match s h hk hd) h hl hp hh ha)
  case elsewhere =>
    exact exec_cross_trap hi hr hm hok (arrive_elsewhere (innerIf_of_match s h hk hd) hl hp hh hj)
  case second =>
    have harr := arrive_merges (innerIf_of_match s h hk hd) h hl hp hh hj
    exact ⟨fun e => exec_cross_performs hi hr hm hok harr, exec_cross_illegal hi hr hm hok harr⟩

end Sys2Proof
end

