-- ==== Sys2Proof/Proofs/VectorForm.lean ====
section
/-! Arithmetic instructions in the vector form (R139, R199), the comparisons' masks in both forms (R207, R214), and SEL and LEA, whose
operands have rules of their own (R206, R208). -/
namespace Sys2Proof.Machine
open Sys2Proof.Claims

/-! ## Destinations (R135, R139) -/

/-- A v register is a destination of the vector form alone. -/
theorem dstOk_v (g : Group) (uni wide : Bool) (n : Fin 128) : dstOk g uni wide (.v n) = (!uni && vOk g wide n.val) := rfl

theorem dstOk_uni_ne_v {g : Group} {uni wide : Bool} {d : Spec} (hu : uni = true) (h : dstOk g uni wide d = true) (n : Fin 128) :
    d ≠ .v n := by
  rintro rfl
  simp [dstOk_v, hu] at h

/-! ## Elementwise instructions in the vector form -/

theorem elementwise_vector {sh : Shape} {f : OForm} {op : Nat → Nat → Nat → Flagged Nat} {c : Ctx} {s : State} {x : Sources}
    {n : Fin 128} (hu : f.uni = false) (hn : f.d = .v n) (hv : vOk c.g sh.d n.val = true) (hx : readSources c f sh s = .ok x) :
    elementwise sh f op c s = .ok (x.s.modGroup c.gid fun g => g.withLanes sh.d n.val (laneResults c x op)) := by
  simp only [elementwise, hu, hn, dstOk_v, hv, hx, Bool.not_false, Bool.and_self, guardOp_true, Res.ok_bind, Bool.false_eq_true, if_false]
  rfl

/-- Settles O10, by the row of the instruction and the vector form of `elementwise`. -/
theorem vectorFormCompletes : Obligations.VectorFormCompletes :=
  fun _ _ hr _ _ _ _ hi hu hn hv hx => exec_next_done hi (exec_of_aluRow hr) (elementwise_vector hu hn hv hx)

/-! ## SEL (R206) -/

section
variable {f : OForm} {c : Ctx} {s : State} {x : Sources} (hd : dstOk c.g f.uni f.ty.is64 f.d = true)
  (ha : srcOk c.g f.uni f.ty.is64 f.a = true) (hb : srcOk c.g f.uni f.ty.is64 f.b = true) (hm : selMask c.g f.uni f.c = true)
  (hx : readSources c f ⟨f.ty.is64, some f.ty, some f.ty, some .n64⟩ s = .ok x)
include hd ha hb hm hx

theorem selBody_vector {n : Fin 128} (hu : f.uni = false) (hn : f.d = .v n) :
    selBody f c s = .ok (x.s.modGroup c.gid fun g =>
      g.writeLanes f.ty.is64 n.val (lanes c.g.exec) fun l => if (x.c 0).testBit l then x.a l else x.b l) := by
  rw [hu] at hd ha hb hm
  rw [hn] at hd
  simp only [selBody, hu, hn, hd, ha, hb, hm, hx, Bool.and_self, guardOp_true, Res.ok_bind, Bool.false_eq_true, if_false,
    Nat.testBit_eq_decide_div_mod_eq, decide_eq_true_eq]

theorem selBody_uniform (hu : f.uni = true) :
    selBody f c s = writeUniform c f.d (if x.c 0 = 0 then x.b 0 else x.a 0) x.s := by
  rw [hu] at hd ha hb hm
  simp only [selBody, hu, hd, ha, hb, hm, hx, Bool.and_self, guardOp_true, Res.ok_bind, if_true, ite_not]

end

/-! ## LEA (R208) -/

theorem isSReg_iff {x : Spec} : isSReg x = true ↔ ∃ n, x = .s n := by
  cases x <;> simp [isSReg]

/-- LEA on one lane: the scaled index added to the offset of a pointer. -/
def leaOp (f : OForm) (a b _ : Nat) : Flagged Nat :=
  .pure (ptrAdd (BitVec.ofNat 64 a) (ival f.ty b * (2 ^ constNat f.c : Nat))).toNat

/-- LEA whose A is a pair or an s register is elementwise, with a destination and an A of 64 bits. -/
theorem leaBody_eq_elementwise {f : OForm} {c : Ctx} (s : State) (hd : dstOk c.g f.uni true f.d = true)
    (ha : isSReg f.a.spec = true ∨ f.uni = false ∧ ∃ k, f.a.spec = .v k) :
    leaBody f c s = elementwise ⟨true, some .n64, some .n32, none⟩ f (leaOp f) c s := by
  obtain ⟨k, hk⟩ | ⟨hu, k, hk⟩ := ha.imp_left isSReg_iff.mp
  · simp only [leaBody, hk, hd, Bool.and_self, guardOp_true, Res.ok_bind]
    rfl
  · rw [hu] at hd
    simp only [leaBody, hu, hk, hd, Bool.not_false, Bool.and_self, guardOp_true, Res.ok_bind]
    rfl

/-- Settles O22, by SEL's body in its two forms and LEA as an elementwise instruction. -/
theorem selectsAndAddresses : Obligations.SelectsAndAddresses := by
  refine ⟨fun s t c f n x hi hd ha hb hm hx => ⟨fun hu hn => ?_, fun hu ht => ?_⟩,
    fun s t c f n x hi hd ha hx => ⟨fun hu hn => ?_, fun hu ht => ?_⟩⟩
  · exact exec_next_done hi rfl (selBody_vector hd ha hb hm hx hu hn)
  · exact exec_next_done hi rfl ((selBody_uniform hd ha hb hm hx hu).trans ht)
  · have hv : vOk c.g true n.val = true := by simpa [hu, hn, dstOk_v] using hd
    exact exec_next_done hi rfl ((leaBody_eq_elementwise s hd ha).trans (elementwise_vector hu hn hv hx))
  · refine exec_next_done hi rfl ((leaBody_eq_elementwise s hd ha).trans ?_)
    rw [hu] at hd
    rw [elementwise_uniform hu hd hx, leaOp, Flagged.pure, ht]
    rfl

/-! ## Comparisons (R207, R214) -/

/-- R207, R214: a comparison runs `comparison` with the fields and the condition of its row. -/
theorem exec_of_comparisonRow {i : Instr} {f : OForm} {op : Nat → Nat → Flagged Bool} (h : comparisonRow i = some (f, op)) :
    exec i = runInstr (comparison (shape2 f.ty) f op) := by
  cases i with
  | cmp f | fcmp f => cases h; rfl
  | _ => cases h

section
variable {sh : Shape} {f : OForm} {op : Nat → Nat → Flagged Bool} {c : Ctx} {s : State} {x : Sources} {n : Fin 64}
  (hn : f.d = .s n) (hx : readSources c f sh s = .ok x)
include hn hx

theorem comparison_vector (hu : f.uni = false) : comparison sh f op c s =
    .ok ((x.s.modGroup c.gid fun g => g.writeS n.val (maskWhere c x op)).raiseFp c.gid (flagsWhere c x op)) := by
  simp [comparison, hn, hx, hu, isSReg, maskWhere, flagsWhere, List.filter_map, Function.comp_def]

theorem comparison_uniform (hu : f.uni = true) : comparison sh f op c s =
    .ok ((x.s.modGroup c.gid fun g => g.writeS n.val (if (op (x.a 0) (x.b 0)).val then -1 else 0)).raiseFp c.gid
      (op (x.a 0) (x.b 0)).fp) := by
  have hones : BitVec.ofNat 64 (2 ^ 64 - 1) = -1 := by decide
  simp only [comparison, hn, hx, hu, isSReg, guardOp_true, Res.ok_bind, if_true, writeUniform_s, apply_ite (BitVec.ofNat 64), hones]
  rfl

end

/-- Settles O23, by the row of the comparison and its two forms. -/
theorem comparisonsWriteMasks : Obligations.ComparisonsWriteMasks :=
  fun _ _ _ hr _ _ _ _ hi hn hx =>
    ⟨fun hu => exec_next_done hi (exec_of_comparisonRow hr) (comparison_vector hn hx hu),
      fun hu => exec_next_done hi (exec_of_comparisonRow hr) (comparison_uniform hn hx hu)⟩

end Sys2Proof.Machine
end

