-- ==== Sys2Proof/Proofs/Quantising.lean ====
section
/-! Conversions under a scale operand, with the trap of one that is out of range (R223, R224), and the scales of blocks (R222). -/
namespace Sys2Proof.Machine
open Sys2Proof.Claims

@[simp] theorem quantForm_d (f : QForm) : (quantForm f).d = f.d := rfl
@[simp] theorem quantForm_uni (f : QForm) : (quantForm f).uni = f.uni := rfl

/-! ## QCVT and DQCVT (R223, R224) -/

/-- R223, R224: a conversion runs `quantise` with the fields and the operation of its row. -/
theorem exec_of_quantRow {i : Instr} {f : QForm} {op : Nat → Nat → Flagged Nat} (h : quantRow i = some (f, op)) :
    exec i = runInstr (quantise f op) := by
  cases i with
  | qcvt f | dqcvt f => cases h; rfl
  | _ => cases h

/-- The lanes that a quantising instruction converts: the active ones, or the single lane of the uniform form. -/
def quantLanes (f : QForm) (c : Ctx) : List Nat := if f.uni then [0] else lanes c.g.exec

theorem quantLanes_def (f : QForm) (c : Ctx) : (if f.uni = true then [0] else lanes c.g.exec) = quantLanes f c := rfl

theorem quantLanes_uniform {f : QForm} (c : Ctx) (hu : f.uni = true) : quantLanes f c = [0] := if_pos hu

/-- The flags that those lanes raise under their scale operands. -/
def quantFlags (f : QForm) (op : Nat → Nat → Flagged Nat) (c : Ctx) (x : Sources) : BitVec 7 :=
  orFp ((quantLanes f c).map fun l => (op (x.a l) (x.b l % 2 ^ 32)).fp)

section
variable {f : QForm} {op : Nat → Nat → Flagged Nat} {c : Ctx} {s : State} {x : Sources} (hd : dstOk c.g f.uni false f.d = true)
  (hx : readSources c (quantForm f) ⟨false, some .f32, some .n32, none⟩ s = .ok x)
include hd hx

/-- A scale operand out of range traps after the pops. -/
theorem quantise_scale_trap (h : ∃ l ∈ quantLanes f c, scaleOperandOk f.fmt (x.b l % 2 ^ 32) = false) :
    quantise f op c s = .error (.trapIn { cause := 0x02 } x.s) := by
  have hall : ((quantLanes f c).all fun l => scaleOperandOk f.fmt (x.b l % 2 ^ 32)) = false := by simpa using h
  simp only [quantise, quantForm_d, quantForm_uni, hd, hx, guardOp_true, Res.ok_bind, quantLanes_def, hall, Bool.not_false, if_true,
    Res.error_bind]
  rfl

variable (hs : ∀ l ∈ quantLanes f c, scaleOperandOk f.fmt (x.b l % 2 ^ 32) = true)
include hs

theorem quantise_vector {n : Fin 128} (hn : f.d = .v n) : quantise f op c s =
    .ok ((x.s.modGroup c.gid fun g => g.writeLanes false n.val (quantLanes f c) fun l => (op (x.a l) (x.b l % 2 ^ 32)).val).raiseFp c.gid
      (quantFlags f op c x)) := by
  have hall := List.all_eq_true.mpr hs
  rw [hn] at hd
  simp only [quantise, quantForm_d, quantForm_uni, hn, hd, hx, guardOp_true, Res.ok_bind, quantLanes_def, hall, Bool.not_true,
    Bool.false_eq_true, if_false, List.foldl_map, List.map_map]
  rfl

theorem quantise_uniform (hu : f.uni = true) : quantise f op c s =
    (writeUniform c f.d (op (x.a 0) (x.b 0 % 2 ^ 32)).val x.s).map fun t => t.raiseFp c.gid (quantFlags f op c x) := by
  have hall := List.all_eq_true.mpr hs
  simp only [quantise, quantForm_d, quantForm_uni, hd, hx, guardOp_true, Res.ok_bind, quantLanes_def, hall, Bool.not_true,
    Bool.false_eq_true, if_false, quantFlags]
  split
  · next heq => exact absurd heq (dstOk_uni_ne_v hu hd _)
  · rw [quantLanes_uniform c hu]
    exact bind_pure_comp (m := Except Stop) _ _

end

/-! ## QSCALE (R222) -/

/-- The scale that QSCALE gives a list of active lanes of one block. -/
def blockScale (f : QForm) (c : Ctx) (x : Sources) (ls : List Nat) : Nat :=
  qscaleOf f (ls.map fun l => fsrc .f32 f.ftz (x.a l % 2 ^ 32)) (srcVal c.g .n32 f.b .nothing 0)

section
variable {f : QForm} {c : Ctx} {s : State} {x : Sources} (hd : dstOk c.g f.uni false f.d = true)
  (ha : srcOk c.g f.uni false f.a = true) (hb : srcOk c.g f.uni false f.b = true)
  (hk : isSReg f.b.spec = true ∨ (∃ k, f.b.spec = .int k) ∨ ∃ k, f.b.spec = .neg k)
  (hc : srcVal c.g .n32 f.b .nothing 0 ≤ 31) (hx : readSources c (quantForm f) ⟨false, some .f32, some .n32, none⟩ s = .ok x)
include hd ha hb hk hc hx

theorem qscaleBody_vector {n : Fin 128} (hn : f.d = .v n) : qscaleBody f c s =
    .ok (x.s.modGroup c.gid fun g => g.writeLanes false n.val (lanes c.g.exec) fun l =>
      blockScale f c x ((lanes c.g.exec).filter fun m => m / f.fmt.block = l / f.fmt.block)) := by
  rw [hn] at hd
  obtain ⟨k, hsp⟩ | ⟨k, hsp⟩ | ⟨k, hsp⟩ := hk.imp_left isSReg_iff.mp <;>
  · simp only [qscaleBody, quantForm_d, quantForm_uni, hn, hd, ha, hb, hsp, hc, hx, Bool.and_self, decide_true, guardOp_true, Res.ok_bind]
    rfl

theorem qscaleBody_uniform (hu : f.uni = true) : qscaleBody f c s = writeUniform c f.d (blockScale f c x [0]) x.s := by
  -- excludes the arm of a v register below
  have hv := dstOk_uni_ne_v hu hd
  obtain ⟨k, hsp⟩ | ⟨k, hsp⟩ | ⟨k, hsp⟩ := hk.imp_left isSReg_iff.mp <;>
  · simp only [qscaleBody, quantForm_d, quantForm_uni, hd, ha, hb, hsp, hc, hx, Bool.and_self, decide_true, guardOp_true, Res.ok_bind]
    rfl

end

/-- Settles O24, by the outcomes of `quantise` and QSCALE's body in its two forms. -/
theorem blocksQuantised : Obligations.BlocksQuantised := by
  refine ⟨fun i f op hr s t c n x hi hd hx => ⟨fun hs => ⟨fun hn => ?_, fun hu ht => ?_⟩, fun h => ?_⟩,
    fun s t c f n x hi hd ha hb hk hc hx => ⟨fun hu hn => ?_, fun hu ht => ?_⟩⟩
  · exact exec_next_done hi (exec_of_quantRow hr) (quantise_vector hd hx hs hn)
  · refine exec_next_done hi (exec_of_quantRow hr) ((quantise_uniform hd hx hs hu).trans ?_)
    rw [ht]
    rfl
  · rw [exec_of_quantRow hr]
    exact runInstr_trapIn hi (quantise_scale_trap hd hx h)
  · exact exec_next_done hi rfl (qscaleBody_vector hd ha hb hk hc hx hn)
  · exact exec_next_done hi rfl ((qscaleBody_uniform hd ha hb hk hc hx hu).trans ht)

end Sys2Proof.Machine
end

