-- ==== Sys2Proof/Proofs/CanonicalOps.lean ====
section
/-! The canonical form of memory (R232, R242, log entry 1), as every operation of the model keeps it: what a computation that may
stop, or may answer nothing, says of the states it hands on, and then the operations in the order of the model. -/
namespace Sys2Proof.Machine

/-- Settles O7: the memory of the reset state lists no byte. -/
theorem resetInv : Obligations.ResetInv := rfl

/-! ## What computations hand on -/

/-- The state that a stop hands on, if any, has canonical memory. -/
def Stop.Canonical : Stop → Prop
  | .trap _ => True
  | .trapIn _ s | .wait s | .moved s => s.MemCanonical

/-- A result that meets P, or a stop with canonical memory. -/
def Res.All {α : Type} (P : α → Prop) : Res α → Prop
  | .ok a => P a
  | .error e => e.Canonical

namespace Res.All

variable {α β : Type} {P : α → Prop} {Q : β → Prop}

theorem bind {x : Res α} {f : α → Res β} (hx : x.All P) (hf : ∀ a, P a → (f a).All Q) : (x >>= f).All Q := by
  cases x with
  | ok a => exact hf a hx
  | error e => exact hx

theorem mono {P' : α → Prop} {x : Res α} (hx : x.All P) (h : ∀ a, P a → P' a) : x.All P' := by
  cases x with
  | ok a => exact h a hx
  | error e => exact hx

/-- A result that depends on no state at all. -/
theorem of_traps {x : Res α} (h : ∀ e, x = .error e → ∃ t, e = .trap t) : x.All fun _ => True := by
  cases x with
  | ok a => trivial
  | error e => obtain ⟨t, rfl⟩ := h e rfl; trivial

end Res.All

/-- Whatever an optional result is, it meets P. -/
def Gives {α : Type} (P : α → Prop) (o : Option α) : Prop := ∀ a, o = some a → P a

namespace Gives

variable {α β : Type} {P : α → Prop} {Q : β → Prop}

theorem none : Gives P none := nofun

theorem some {a : α} (h : P a) : Gives P (some a) := fun _ e => Option.some.inj e ▸ h

theorem bind {x : Option α} {f : α → Option β} (hx : Gives P x) (hf : ∀ a, P a → Gives Q (f a)) : Gives Q (x >>= f) := by
  cases x with
  | none => exact .none
  | some a => exact hf a (hx a rfl)

/-- A value of which nothing is known. -/
theorem bind_any {x : Option α} {f : α → Option β} (hf : ∀ a, Gives Q (f a)) : Gives Q (x >>= f) :=
  bind (P := fun _ => True) (fun _ _ => trivial) fun a _ => hf a

theorem getD {o : Option α} {a : α} (ho : Gives P o) (ha : P a) : P (o.getD a) := by
  cases o with
  | none => exact ha
  | some b => exact ho b rfl

end Gives

/-- A fold that carries a state besides what it collects. -/
theorem foldl_snd_canonical {α β : Type} {f : β × State → α → β × State}
    (hf : ∀ x a, x.2.MemCanonical → (f x a).2.MemCanonical) (l : List α) {x : β × State} (h : x.2.MemCanonical) :
    (l.foldl f x).2.MemCanonical := by
  induction l generalizing x with
  | nil => exact h
  | cons a l ih => exact ih (hf x a h)

/-! ## Ends of launches and traps -/

section Ops
variable {s : State} (h : s.MemCanonical)
include h

theorem modGroup_canonical (k : Nat) (f : Group → Group) : (s.modGroup k f).MemCanonical := h

theorem setGroup_canonical (k : Nat) (g : Group) : (s.setGroup k g).MemCanonical := h

theorem requestEnd_canonical (l : Nat) (a b : BitVec 8) (p : BitVec 12) (w : Word) : (s.requestEnd l a b p w).MemCanonical := h

theorem closeWindow_canonical (w : ErrWindow) : (s.closeWindow w).MemCanonical := by
  unfold State.closeWindow
  dsimp only
  split <;> exact h

theorem reportCorrected_canonical (p : Nat) (r : Report) : (s.reportCorrected p r).MemCanonical := by
  have hw : ∀ o : Option ErrWindow, (match o with | some w => s.closeWindow w | none => s).MemCanonical := by
    rintro (_ | w)
    · exact h
    · exact closeWindow_canonical h w
  unfold State.reportCorrected
  dsimp only
  split <;> exact hw _

theorem doubleFault_canonical (gid : Nat) (g : Group) (t : Team) (l : Launch) (a : Word) : (doubleFault gid g t l a s).MemCanonical := by
  unfold doubleFault
  dsimp only
  split <;> exact h

theorem reportTag_canonical (lid : Nat) (i : BitVec 23) : (reportTag lid i s).MemCanonical := by
  unfold reportTag
  split <;> exact h

theorem takeTrap_canonical (gid : Nat) (g : Group) (t : Team) (l : Launch) (r : Region) (pos : BitVec 37) (x : Trap) :
    (takeTrap gid g t l r pos x s).MemCanonical := by
  have ht : (if x.cause = Cause.poisonConsumed then reportTag t.launch x.info s else s).MemCanonical := by
    split
    · exact reportTag_canonical h _ _
    · exact h
  unfold takeTrap
  generalize (if x.cause = Cause.poisonConsumed then reportTag t.launch x.info s else s) = u at ht ⊢
  dsimp only
  split
  · exact ht
  · split
    · exact doubleFault_canonical ht _ _ _ _ _
    · split
      · exact ht
      · split
        · exact ht
        · split
          · exact ht
          · exact doubleFault_canonical ht _ _ _ _ _

theorem Ctx.takeTrap_canonical (c : Ctx) (x : Trap) : (c.takeTrap x s).MemCanonical := by
  unfold Ctx.takeTrap
  split
  · exact Machine.takeTrap_canonical h _ _ _ _ _ _ _
  · exact h

theorem raisePopped_canonical (c : Ctx) : (c.raisePopped s).MemCanonical := by
  unfold Ctx.raisePopped
  split
  · exact h
  · split <;> exact h

end Ops

/-- An instruction of a group hands on canonical memory where its body does. -/
theorem runWith_canonical {done : Ctx → State → State} {body : Ctx → State → Res State} {s t : State} (h : s.MemCanonical)
    (hd : ∀ c u, u.MemCanonical → (done c u).MemCanonical) (hb : ∀ c, (body c s).All State.MemCanonical)
    (ht : runWith done body s = .next t) : t.MemCanonical := by
  unfold runWith at ht
  split at ht
  · cases ht
  next c _ =>
    split at ht
    · cases ht
    · have hc := hb c
      cases hr : body c s with
      | ok u =>
        simp only [hr] at ht hc
        cases ht
        exact hd c _ (raisePopped_canonical hc c)
      | error e =>
        cases e <;> simp only [hr] at ht hc <;> cases ht
        · exact Ctx.takeTrap_canonical (s := c.settled s) h c _
        · exact Ctx.takeTrap_canonical (s := c.settled _) hc c _
        · exact hc
        · exact hc

theorem event_canonical {f : State → Option State} {s t : State} (h : s.MemCanonical) (hf : Gives State.MemCanonical (f s))
    (ht : event f s = .next t) : t.MemCanonical := by
  cases ht
  exact hf.getD h

/-! ## Counted operations -/

theorem guardOp_canonical (b : Bool) : (guardOp b).All fun _ => True := by cases b <;> trivial

theorem orTrap_canonical {α : Type} (x : Except Trap α) : (orTrap x).All fun _ => True := by cases x <;> trivial

section Ops
variable {s : State} (h : s.MemCanonical)
include h

theorem returnFromTrap_canonical (next : Bool) (c : Ctx) : (returnFromTrap next c s).All State.MemCanonical := by
  unfold returnFromTrap
  split
  · trivial
  · exact h

theorem countFlag_canonical (f : Option (Fin 12)) (gid : Nat) : (countFlag f gid s).All State.MemCanonical := by
  unfold countFlag
  split
  · split <;> exact h
  · exact h

theorem issueOp_canonical (c : Ctx) (o : Op) : (issueOp c o s).All State.MemCanonical :=
  (countFlag_canonical h _ _).bind fun _ hs => hs

theorem completeAtOnce_canonical (c : Ctx) (i : Instr) : (completeAtOnce c i s).All State.MemCanonical := by
  refine (countFlag_canonical h _ _).bind fun u hu => ?_
  split
  · exact h
  · exact hu

theorem finishOp_canonical (k : Nat) (o : Op) : (s.finishOp k o).MemCanonical := by
  unfold State.finishOp
  dsimp only
  split <;> split <;> exact h

theorem faultOp_canonical (k : Nat) (o : Op) (x : Trap) : (s.faultOp k o x).MemCanonical := by
  unfold State.faultOp
  dsimp only
  split <;> exact h

theorem stallOp_canonical (k : Nat) (o : Op) (x : Trap) : (s.stallOp k o x).MemCanonical := by
  unfold State.stallOp
  dsimp only
  split <;> exact h

/-! ## Translation -/

theorem joinWalk_canonical (gid place : Nat) (c : BitVec 16) (page : Nat) : (joinWalk s gid place c page).MemCanonical := by
  unfold joinWalk
  dsimp only
  split
  · exact h
  · split
    · exact h
    · split <;> exact h

theorem tlbWalk_canonical (r : Fin 48) : Gives State.MemCanonical (tlbWalk r s) := by
  refine .bind_any fun w => ?_
  dsimp only
  split
  · exact .some h
  · refine .some ?_
    refine foldl_canonical (fun u g hu => ?_) _ ?_
    · exact hu
    · exact h

theorem fillTlb_canonical (place : Nat) (c : BitVec 16) (vas : List Nat) : (fillTlb s place c vas).MemCanonical := by
  refine foldl_canonical (fun u page hu => ?_) _ h
  split
  · exact hu
  · split <;> exact hu

theorem Who.fill_canonical (w : Who) (ps : List Nat) : (w.fill s ps).MemCanonical := fillTlb_canonical h _ _ _

theorem checkAccess_canonical (w : Who) (k : Access) (fires : Bool) (ps : List Piece) : (checkAccess s w k fires ps).All fun _ => True := by
  unfold checkAccess
  dsimp only
  split
  · trivial
  · split
    · exact foldl_canonical (fun _ _ hs => joinWalk_canonical hs _ _ _ _) _ h
    · split
      · trivial
      · split <;> trivial


/-! ## The caches -/

theorem readWord_canonical (t gid w : Nat) : (readWord s t gid w).2.MemCanonical := by
  unfold readWord
  dsimp only
  split
  · exact h
  · split
    · split
      · exact h
      · split <;> exact h
    · split <;> exact h

theorem readLocs_canonical (t gid : Nat) (locs : List Nat) : (readLocs s t gid locs).2.MemCanonical := by
  refine foldl_snd_canonical (fun x w hx => ?_) _ ?_
  · exact readWord_canonical hx _ _ _
  · exact h

theorem reclaimOne_canonical (bank line : Nat) (r : Reclaim) : (reclaimOne s bank line r).MemCanonical := by cases r <;> exact h

omit h in
theorem reclaimFrom_canonical (bank : Nat) (xs : List (Nat × Reclaim)) : ∀ {s : State}, s.MemCanonical →
    (reclaimFrom bank xs s).1.MemCanonical := by
  induction xs with
  | nil => exact fun h => h
  | cons x xs ih =>
    intro s h
    unfold reclaimFrom
    dsimp only
    split
    · exact reclaimOne_canonical h _ _ _
    · exact ih (reclaimOne_canonical h _ _ _)

theorem makeRoom_canonical (line : Nat) : (makeRoom s line).1.MemCanonical := by
  unfold makeRoom
  dsimp only
  split
  · exact h
  · exact reclaimFrom_canonical _ _ h

theorem changeWaybill_canonical (line : Nat) (f : Waybill → Waybill) : (changeWaybill s line f).1.MemCanonical := by
  unfold changeWaybill
  dsimp only
  split <;> exact makeRoom_canonical h line

theorem countDrover_canonical (core line : Nat) (ctx : BitVec 16) (page : Nat) (req : Req) (x : Hint) :
    (countDrover s core line ctx page req x).MemCanonical := by
  unfold State.MemCanonical
  rw [countDrover_mem]
  exact h

theorem unsubscribe_canonical (core line : Nat) : (unsubscribe s core line).MemCanonical := by
  unfold unsubscribe
  split <;> exact h

theorem coreRead_canonical (core gid : Nat) (locs : List Nat) : (coreRead s core gid locs).2.MemCanonical :=
  readLocs_canonical (settleWeak_canonical h _ _) _ _ _

theorem coreWrite_canonical (core gid : Nat) (locs : List Nat) (bytes : List Byte) : (coreWrite s core gid locs bytes).MemCanonical :=
  writeHomeBy_canonical (writeBackLines_canonical (settleWeak_canonical h _ _) _ _) _ _ _ _ _

/-! ## Convoys and the assayer -/

theorem wantCopies_canonical (xs : List Snapshot) : (wantCopies s xs).MemCanonical := h

theorem assayPut_canonical (tid : Nat) (t : Team) (n : Nat) (put : List (Word × List (Nat × Word)) → List (Word × List (Nat × Word))) :
    (assayPut tid t n put s).MemCanonical := by
  unfold assayPut
  split
  · dsimp only
    split <;> exact h
  · exact h

theorem assayLog_canonical (c : Ctx) (sig : Word) (vals : List (Nat × Word)) : (assayLog c sig vals s).MemCanonical :=
  assayPut_canonical h _ _ _ _

theorem fromLog_canonical (c : Ctx) (sig : Word) {f : Unit → Res (List (Nat × Word) × State)}
    (hf : (f ()).All fun x => x.2.MemCanonical) : (fromLog c sig s f).All fun x => x.2.MemCanonical := by
  unfold fromLog
  split
  · split
    · trivial
    · split
      · split
        · simp_all only [Res.All]
          exact hf
        · simp_all only [Res.All]
          exact hf
        · simp_all only [Res.All]
      · split <;> exact h
  · exact hf

theorem takeOutside_canonical (c : Ctx) (sig : Word) {perform : State → Res (List (Nat × Word) × State)}
    (hp : ∀ {s : State}, s.MemCanonical → (perform s).All fun x => x.2.MemCanonical) :
    (takeOutside c sig perform s).All fun x => x.2.MemCanonical := by
  have hs := hp h
  have send (v : LoadValue) {u : State} (hu : u.MemCanonical) : (match c.peer? u with
      | some p => u.modGroup p fun g => { g with lvq := g.lvq ++ [v] }
      | none => u).MemCanonical := by split <;> exact hu
  unfold takeOutside
  dsimp only
  split
  · exact hs.bind fun x hx => assayLog_canonical hx _ _ _
  · refine fromLog_canonical h c sig ?_
    split
    · exact h
    · split <;> simp_all only [Res.All]
      · exact send _ (assayLog_canonical hs _ _ _)
      · exact send _ h
      · exact send _ hs
  · refine fromLog_canonical h c sig ?_
    split
    · exact h
    · split
      · split <;> exact h
      · trivial

theorem performOnce_canonical (c : Ctx) (sig : Word) {perform : State → Res (List (Nat × Word) × State)}
    (hp : ∀ {s : State}, s.MemCanonical → (perform s).All fun x => x.2.MemCanonical) :
    (performOnce c sig perform s).All fun x => x.2.MemCanonical := by
  have hs := hp h
  have tell (f : Group → Group) {u : State} (hu : u.MemCanonical) : (match c.peer? u with
      | some p => u.modGroup p f
      | none => u).MemCanonical := by split <;> exact hu
  unfold performOnce
  dsimp only
  split
  · exact hs.bind fun x hx => assayLog_canonical hx _ _ _
  · refine fromLog_canonical h c sig ?_
    split
    · exact h
    · split
      · split <;> simp_all only [Res.All]
        · exact tell _ (u := State.modGroup _ _ _) (assayLog_canonical hs _ _ _)
        · exact tell _ (u := s.modGroup _ _) h
        · exact tell _ (u := State.modGroup _ _ _) hs
      · exact h
  · refine fromLog_canonical h c sig ?_
    split <;> exact h

/-! ## Ports and streams -/

theorem fireBox_canonical (b : Nat) : (fireBox s b).MemCanonical := h

theorem mailboxWrite_canonical (core gid b : Nat) (x : Mailbox) (f : Flit) : (mailboxWrite s core gid b x f).MemCanonical :=
  fireBox_canonical (coreWrite_canonical h _ _ _ _) b

theorem sendFlit_canonical (c : Ctx) (n : Nat) (v : Word) : (sendFlit c n v s).All State.MemCanonical := by
  unfold sendFlit
  extract_lets p b places hdr sent u bad dsts keys credits f u' asked send afterRelease afterChecks
  have hu : u.MemCanonical := by
    dsimp only [u]
    split
    · exact releaseAt_canonical h _ _
    · exact h
  clear_value u bad dsts keys
  have hsend : (send ()).All State.MemCanonical := by
    dsimp only [send]
    split
    · split
      · trivial
      · split
        · exact hu
        · split
          · exact modGroup_canonical (mailboxWrite_canonical hu _ _ _ _ _) _ _
          · exact hu
    · split
      · trivial
      · split
        · trivial
        · split
          · refine foldl_canonical (s := u) (fun w k hw => ?_) _ hu
            exact hw
          · exact hu
  have hrelease : (afterRelease ()).All State.MemCanonical := by
    dsimp only [afterRelease]
    split
    · exact hu
    · exact hsend
  have hchecks : (afterChecks ()).All State.MemCanonical := by
    dsimp only [afterChecks]
    split
    · exact h
    · exact hrelease
  split
  · trivial
  · exact hchecks

theorem creditGrant_canonical (gid : Nat) (n : Fin 4) : Gives State.MemCanonical (creditGrant gid n s) := by
  refine .bind_any fun c => ?_
  dsimp only
  split
  · exact .none
  · split
    · exact .none
    · exact .some h

theorem flitDelivery_canonical (k : Nat) : Gives State.MemCanonical (flitDelivery k s) := by
  refine .bind_any fun x => ?_
  dsimp only
  split
  · exact .none
  · split <;> exact .some h

theorem popFlit_canonical (c : Ctx) (n : Nat) : (popFlit c n s).All fun x => x.2.MemCanonical := by
  refine (takeOutside_canonical h c _ fun {u} hu => ?_).bind fun x hx => ?_
  case refine_2 => exact hx
  split
  · exact hu
  · split
    · exact hu
    · split
      · trivial
      · dsimp only
        split
        · exact acquireAt_canonical (s := u.setGroup _ _) hu _ _ _
        · exact hu

theorem commitEntry_canonical (c : Ctx) (x : LoadValue) : (c.commitEntry x s).MemCanonical := h

theorem popStream_canonical (c : Ctx) (n : Nat) : (popStream c n s).All fun x => x.2.MemCanonical := by
  unfold popStream
  dsimp only
  split
  · exact h
  · split
    · trivial
    · split
      · exact h
      · split
        · trivial
        · split
          · refine (fromLog_canonical h c _ ?_).bind fun x hx => ?_
            · exact h
            · exact hx
          · split
            · exact h
            · split
              · split
                · exact h
                · trivial
              · split <;> exact h

theorem popSrc_canonical (c : Ctx) (x : Spec) : (popSrc c x s).All fun x => x.2.MemCanonical := by
  unfold popSrc
  split
  · refine (popFlit_canonical h c _).bind fun x hx => ?_
    exact hx
  · refine (popStream_canonical h c _).bind fun x hx => ?_
    exact hx
  · exact h

theorem readSources_canonical (c : Ctx) (f : OForm) (sh : Shape) : (readSources c f sh s).All fun x => x.s.MemCanonical := by
  refine (guardOp_canonical _).bind fun _ _ => ?_
  dsimp only
  split
  · exact h
  · refine .bind (P := fun x : Popped × State => x.2.MemCanonical) ?_ fun x hx =>
      .bind (P := fun x : Popped × State => x.2.MemCanonical) ?_ fun y hy =>
      .bind (P := fun x : Popped × State => x.2.MemCanonical) ?_ fun z hz => ?_
    case refine_1 | refine_2 | refine_3 =>
      split
      · exact h
      · split
        · assumption
        · exact popSrc_canonical ‹_› c _
    change State.MemCanonical (ite _ _ _)
    split <;> exact hz

theorem writeUniform_canonical (c : Ctx) (d : Spec) (v : Nat) : (writeUniform c d v s).All State.MemCanonical := by
  unfold writeUniform
  split
  · exact h
  · refine (performOnce_canonical h c _ fun hu => (sendFlit_canonical hu c _ _).bind fun w hw => ?_).bind fun x hx => ?_
    · exact hw
    · exact hx
  · trivial

theorem elementwise_canonical (sh : Shape) (f : OForm) (op : Nat → Nat → Nat → Flagged Nat) (c : Ctx) :
    (elementwise sh f op c s).All State.MemCanonical := by
  refine (guardOp_canonical _).bind fun _ _ => (readSources_canonical h c f sh).bind fun x hx => ?_
  split
  · exact (writeUniform_canonical hx c _ _).bind fun _ hu => hu
  · split
    · exact hx
    · trivial

theorem comparison_canonical (sh : Shape) (f : OForm) (op : Nat → Nat → Flagged Bool) (c : Ctx) :
    (comparison sh f op c s).All State.MemCanonical := by
  refine (guardOp_canonical _).bind fun _ _ => (readSources_canonical h c f sh).bind fun x hx => ?_
  split <;> exact (writeUniform_canonical hx c _ _).bind fun _ hu => hu

/-! ## The porter -/

theorem retrigger_canonical : (retrigger s).MemCanonical := h

theorem served_canonical (m : Move) : (s.served m).MemCanonical := h

theorem porterMoveAt_canonical (w : Who) (m : Move) (write : Bool) (ptr : Word) (len : Nat) {act : State → List Nat → Option State}
    (ha : ∀ u locs, u.MemCanonical → Gives State.MemCanonical (act u locs)) :
    Gives State.MemCanonical (porterMoveAt s w m write ptr len act) := by
  have hf := Who.fill_canonical h w (Piece.bytes { lane := 0, ptr, len })
  unfold porterMoveAt
  dsimp only
  split
  · exact .some hf
  · split
    · exact .none
    · split
      · exact ha _ _ hf
      · exact .some hf

theorem porterRead_canonical (w : Who) (m : Move) (ptr : Word) (len : Nat) {use : List Byte → State → State}
    (hu : ∀ bs u, u.MemCanonical → (use bs u).MemCanonical) : Gives State.MemCanonical (porterRead s w m ptr len use) := by
  refine porterMoveAt_canonical h w m false ptr len fun u locs hs => ?_
  split
  · exact .some h
  · exact .some (hu _ _ (coreRead_canonical hs _ _ _))

theorem porterWrite_canonical (w : Who) (m : Move) (ptr : Word) (bytes : List Byte) (after : Group → Group) :
    Gives State.MemCanonical (porterWrite s w m ptr bytes after) :=
  porterMoveAt_canonical h w m true ptr _ fun _ _ hs => .some (coreWrite_canonical hs _ _ _ _)

theorem porterSpill_canonical (gid : Nat) : Gives State.MemCanonical (porterSpill gid s) := by
  refine .bind_any fun m => .bind_any fun w => ?_
  dsimp only
  split
  · split
    · exact .none
    · exact porterWrite_canonical h _ _ _ _ _
  · exact porterWrite_canonical h _ _ _ _ _
  · exact .none

theorem porterRefill_canonical (gid : Nat) : Gives State.MemCanonical (porterRefill gid s) := by
  refine .bind_any fun m => .bind_any fun w => ?_
  dsimp only
  split
  · exact porterRead_canonical h _ _ _ _ fun _ _ hu => hu
  · exact .none

theorem tokenSpill_canonical (gid : Nat) : Gives State.MemCanonical (tokenSpill gid s) := by
  refine .bind_any fun m => .bind_any fun w => .bind_any fun t => ?_
  split
  · exact porterWrite_canonical h _ _ _ _ _
  · exact .none

theorem tokenReadback_canonical (gid : Nat) : Gives State.MemCanonical (tokenReadback gid s) := by
  refine .bind_any fun m => .bind_any fun w => ?_
  split
  · refine porterRead_canonical h _ _ _ _ fun bs u hu => ?_
    split
    · exact hu
    · exact doubleFault_canonical hu _ _ _ _ _
  · exact .none

omit h in
theorem waitPorter_canonical {α : Type} {P : α → Prop} (h : s.MemCanonical) (c : Ctx) : (waitPorter c s : Res α).All P := by
  unfold waitPorter
  split <;> exact h

theorem innermost_canonical (c : Ctx) : (innermost c s).All fun _ => True := by
  unfold innermost
  split
  · trivial
  · split
    · trivial
    · exact waitPorter_canonical h c

/-- The locations of a token's bytes are kept folded: the definition is opened before it is applied, since to evaluate its match is
to walk the tables for 32 bytes. -/
theorem readSpilled_canonical (c : Ctx) (both : Bool) (j : Nat) : (readSpilled c both j s).All fun x => x.2.MemCanonical := by
  have key : ∀ f, f = readSpilled → (f c both j s).All fun x => x.2.MemCanonical := by
    rintro f hf
    delta readSpilled at hf
    subst hf
    beta_reduce
    extract_lets w ptr u
    have hu : u.MemCanonical := Who.fill_canonical h w _
    clear_value u w ptr
    generalize porterLocs u _ _ _ _ = r
    cases r with
    | error x => trivial
    | ok locs =>
      have hr := coreRead_canonical hu c.t.place c.gid locs
      dsimp only
      generalize coreRead u c.t.place c.gid locs = x at hr ⊢
      generalize (if both = true then cowPages u locs else []) = copies
      split
      · exact hu
      · split
        · exact wantCopies_canonical hu _
        · split
          · trivial
          · split
            · exact hr
            · exact doubleFault_canonical hr _ _ _ _ _
  exact key _ rfl

theorem writeSpilled_canonical (c : Ctx) (j : Nat) (t : Token) : (writeSpilled c j t s).MemCanonical := by
  have key : ∀ f, f = writeSpilled → (f c j t s).MemCanonical := by
    rintro f hf
    delta writeSpilled at hf
    subst hf
    dsimp only
    generalize porterLocs s _ _ _ _ = r
    cases r with
    | error x => exact h
    | ok locs => exact coreWrite_canonical h _ _ _ _
  exact key _ rfl

theorem pushToken_canonical (c : Ctx) (t : Token) : (pushToken c t s).All State.MemCanonical := by
  unfold pushToken
  dsimp only
  split
  · trivial
  · split
    · exact h
    · exact waitPorter_canonical (s := s.setGroup _ _) h c

omit h in
theorem endPath_canonical (c : Ctx) (new : Option (Nat × Token)) (n : Nat) : ∀ (g : Group) {s : State}, s.MemCanonical →
    (endPath c new n g s).All State.MemCanonical := by
  induction n with
  | zero =>
    intro g s h
    unfold endPath
    split <;> exact h
  | succ k ih =>
    intro g s h
    unfold endPath
    split
    · exact h
    · dsimp only
      split
      · exact ih _ h
      · exact (readSpilled_canonical h c _ _).bind fun x hx => ih _ hx

theorem settlePaths_canonical (c : Ctx) (new : Option (Nat × Token)) (g : Group) (a : BitVec 32) :
    (settlePaths c new g a s).All State.MemCanonical := by
  unfold settlePaths
  split
  · exact h
  · exact endPath_canonical c new _ _ h

end Ops
end Sys2Proof.Machine
end

