-- ==== Sys2Proof/Proofs/CanonicalService.lean ====
section
/-! Requests, the device's own accesses and the control instructions keep the canonical form of memory. -/
namespace Sys2Proof.Machine

section Service
variable {s : State} (h : s.MemCanonical)
include h

/-! ## Hints and loads -/

theorem subscribe_canonical (core line : Nat) (sub : Option (Fmt × Fmt) × Bool) : Gives State.MemCanonical (subscribe s core line sub) := by
  have hc := changeWaybill_canonical h line fun w => w.subscribed core sub
  unfold subscribe
  dsimp only
  split
  · exact .some hc
  · exact .none

theorem applyHint_canonical (core line : Nat) (x : Hint) (load biased : Bool) :
    Gives State.MemCanonical (applyHint s core line x load biased) := by
  have change (f : Waybill → Waybill) : Gives State.MemCanonical
      (if (changeWaybill s line f).2 = true then some (changeWaybill s line f).1 else none) := by
    split
    · exact .some (changeWaybill_canonical h line f)
    · exact .none
  unfold applyHint
  dsimp only
  split
  · split
    · exact change _
    · exact .some h
  · split
    · exact change _
    · exact .some h
  · exact .some h

theorem hintAt_canonical (w : Who) (f : Form) (p line : Nat) (load : Bool) : Gives State.MemCanonical (hintAt s w f p line load) :=
  applyHint_canonical h _ _ _ _ _

theorem noteHome_canonical (t line : Nat) : (noteHome s t line).MemCanonical := by
  unfold noteHome
  dsimp only
  split
  · split <;> exact h
  · exact h

theorem countAt_canonical (w : Who) (f : Form) (p line : Nat) (r : Req) : (countAt s w f p line r).MemCanonical :=
  countDrover_canonical (noteHome_canonical h _ _) _ _ _ _ _ _

theorem freeStack_canonical (w : Who) (bytes : List (Nat × Byte)) : (freeStack w bytes s).2.MemCanonical := by
  refine foldl_snd_canonical (fun x b hx => ?_) _ ?_
  · dsimp only
    split <;> exact hx
  · exact h

theorem noteForwarded_canonical (core : Nat) (locs : List Nat) : (noteForwarded s core locs).MemCanonical := by
  unfold noteForwarded
  dsimp only
  split <;> exact h

theorem l1Refresh_canonical (core line : Nat) (ws : List (Nat × Byte)) : (l1Refresh s core line ws).MemCanonical := by
  unfold l1Refresh
  split <;> exact h

theorem l1Fill_canonical (core line : Nat) (all : List Byte) : (l1Fill s core line all).MemCanonical := by
  unfold l1Fill
  split
  · exact l1Refresh_canonical h _ _ _
  · exact h

theorem setFab_canonical (f : Fabric) : (s.setFab f).MemCanonical := h

theorem readOwned_canonical (t line : Nat) : (readOwned s t line).2.MemCanonical := by
  unfold readOwned
  exact setFab_canonical h _

theorem readLine_canonical (w : Who) (k : Nat) (f : Form) (sub : Option (Option (Fmt × Fmt) × Bool)) (bytes : List (Nat × Nat)) :
    Gives (fun r => r.s.MemCanonical) (readLine s w k f sub bytes) := by
  unfold readLine
  split
  · exact .some h
  · extract_lets line core t req0 req locs inL1 x owned coming mine hit tags result keep
    split
    · exact .none
    · split
      · exact .some (noteForwarded_canonical h _ _)
      · split
        · exact .none
        · refine (hintAt_canonical h _ _ _ _ _).bind fun u hu => ?_
          extract_lets v v'
          have hv : v'.MemCanonical := by
            have hv : v.MemCanonical := countAt_canonical (settleWeak_canonical hu _ _) _ _ _ _ _
            clear_value v
            dsimp only [v']
            split
            · exact noteForwarded_canonical hv _ _
            · exact writeBackLines_canonical hv _ _
          clear_value v v'
          split
          · split
            · exact .none
            · have ho := readOwned_canonical hv t line
              generalize readOwned v' t line = y at ho ⊢
              obtain ⟨all, z⟩ := y
              dsimp only
              split
              · refine (subscribe_canonical ho _ _ _).bind fun z' hz => .some ?_
                exact setFab_canonical hz _
              · refine .some ?_
                exact setFab_canonical ho _
          · split
            · have hr := readLocs_canonical hv t w.gid ((List.range 128).map fun i => 128 * line + i)
              generalize readLocs v' t w.gid _ = y at hr ⊢
              exact .some (l1Fill_canonical hr _ _ _)
            · refine .some (l1Refresh_canonical (s := Prod.snd _) ?_ _ _ _)
              exact readLocs_canonical hv _ _ _

omit h in
/-- A fold of steps that may answer nothing. -/
theorem foldlM_gives {α β : Type} {P : β → Prop} {f : β → α → Option β} (hf : ∀ b a, P b → Gives P (f b a)) (l : List α) :
    ∀ {b : β}, P b → Gives P (l.foldlM f b) := by
  induction l with
  | nil => exact fun hb => .some hb
  | cons a l ih =>
    intro b hb
    rw [List.foldlM_cons]
    exact (hf b a hb).bind fun c hc => ih hc

theorem serveLoad_canonical (w : Who) (k : Nat) (f : Form) (sub : Option (Option (Fmt × Fmt) × Bool)) (bytes : List (Nat × Nat)) :
    Gives (fun r => r.s.MemCanonical) (serveLoad s w k f sub bytes) := by
  unfold serveLoad
  dsimp only
  refine .bind (P := fun r : Read => r.s.MemCanonical) (foldlM_gives (fun r line hr => ?_) _ h) fun r hr => ?_
  · exact (readLine_canonical hr _ _ _ _ _).bind fun x hx => .some hx
  · exact .some (freeStack_canonical hr _ _)

/-! ## Stores and atomics -/

theorem beforeWrite_canonical (w : Who) (o : WriteOrder) (locs : List Nat) : Gives State.MemCanonical (beforeWrite s w o locs) := by
  have hb := writeBackLines_canonical (settleWeak_canonical h w.t.place o.op) w.t.place ((locs.map lineOf).dedup)
  unfold beforeWrite
  dsimp only
  generalize writeBackLines (settleWeak s w.t.place o.op) w.t.place ((locs.map lineOf).dedup) = u at hb ⊢
  split
  · exact .none
  · refine .some ?_
    split <;> exact hb

theorem afterWrite_canonical (core : Nat) (wait : List Nat) (ws : List (Nat × Byte × Byte)) : (afterWrite s core wait ws).MemCanonical := by
  unfold afterWrite
  split
  · exact h
  · refine foldl_canonical (fun u n hu => ?_) _ h
    exact setFab_canonical (unsubscribe_canonical hu core n) _

theorem storeL1_canonical (w : Who) (o : WriteOrder) (fm : Form) (ws : List (Nat × Nat × Byte × Byte)) :
    Gives State.MemCanonical (storeL1 s w o fm ws) := by
  unfold storeL1
  extract_lets core locs older u
  have hu : u.MemCanonical := by
    dsimp only [u]
    split
    · exact settleWeak_canonical h _ _
    · exact h
  clear_value u
  split
  · exact .none
  · exact .some hu

theorem fireBoxes_canonical (boxes : List Nat) : (boxes.foldl fireBox s).MemCanonical :=
  foldl_canonical (fun _ b hu => fireBox_canonical hu b) boxes h

theorem serveStore_canonical (w : Who) (o : WriteOrder) (f : Form) (ws : List (Nat × Nat × Byte × Byte)) :
    Gives State.MemCanonical (serveStore s w o f ws) := by
  unfold serveStore
  extract_lets ws spad glob boxes inL1 home core pages store jp
  have hjp : Gives State.MemCanonical (jp ()) := by
    dsimp only [jp]
    refine .bind (P := State.MemCanonical) (foldlM_gives (fun u x hu => hintAt_canonical hu _ _ _ _ _) _ h) fun u hu => ?_
    have hstore : ∀ v : State, v.MemCanonical → Gives State.MemCanonical (store v) := fun v hv =>
      (storeL1_canonical hv _ _ _ _).bind fun v' hv' => .some (modGroup_canonical (fireBoxes_canonical (s := v'.modTeam _ _) hv' _) _ _)
    clear_value store
    split
    · exact hstore _ hu
    · refine (beforeWrite_canonical hu _ _ _).bind fun v hv => hstore _ (afterWrite_canonical (writeHomeBy_canonical ?_ _ _ _ _ _) _ _ _)
      exact foldl_canonical (fun v' x hv' => countAt_canonical hv' _ _ _ _ _) _ hv
  split
  · exact .none
  · exact hjp

theorem serveAtomic_canonical (w : Who) (o : WriteOrder) (f : Form) (op : AtomOp) (spoiled : Bool) (a b : Nat) (bytes : List (Nat × Nat)) :
    Gives (fun r => r.s.MemCanonical) (serveAtomic s w o f op spoiled a b bytes) := by
  unfold serveAtomic
  extract_lets n core bytes' locs offs old boxes
  split
  · split
    · exact .some h
    · exact .some h
  · split
    · exact .none
    · refine (beforeWrite_canonical h _ _ _).bind fun u hu => ?_
      split
      · refine .bind (P := State.MemCanonical) ?_ fun v hv => ?_
        · cases (bytes'.map fun x => (x.1, lineOf x.2)).head? with
          | none => exact .some hu
          | some x => exact (hintAt_canonical hu _ _ _ _ _).bind fun v hv => .some (countAt_canonical hv _ _ _ _ _)
        · refine .some ?_
          exact modGroup_canonical (fireBoxes_canonical (afterWrite_canonical (writeHomeBy_canonical hv _ _ _ _ _) _ _ _) _) _ _
      · exact .some hu

theorem serve_canonical (w : Who) (k : Nat) (o : Op) (r : LaneReq) : Gives (fun x => x.2.MemCanonical) (serve s w k o r) := by
  unfold serve
  refine .bind_any fun f => ?_
  extract_lets o' sub done line home spoiled jp
  split
  · dsimp only
    split
    · exact (serveLoad_canonical h _ _ _ _ _).bind fun x hx => .some hx
    · exact (serveLoad_canonical h _ _ _ _ _).bind fun x hx => .some hx
  · exact (serveStore_canonical h _ _ _ _).bind fun x hx => .some hx
  · have hjp : ∀ op, Gives (fun x => x.2.MemCanonical) (jp op) := by
      intro op
      dsimp only [jp]
      split
      · exact .some h
      · refine (serveAtomic_canonical h _ _ _ _ _ _ _ _).bind fun x hx => .some ?_
        dsimp only [done]
        split <;> exact hx
    clear_value jp
    split
    · exact hjp _
    · exact hjp _
    · exact .none
  · exact .some h

omit h in
theorem serveAll_canonical (n : Nat) : ∀ {s : State}, s.MemCanonical → ∀ o, Gives (fun x => x.2.MemCanonical) (serveAll n o s) := by
  induction n with
  | zero => exact fun h o => .some h
  | succ n ih =>
    intro s h o
    unfold serveAll
    split
    · exact .some h
    · refine .bind_any fun w => ?_
      split
      · exact (serve_canonical h _ _ _ _).bind fun x hx => ih hx _
      · exact .none

/-! ## Requests at the home -/

theorem refuse_canonical (k : Nat) (o : Op) (r : LaneReq) (bank line : Nat) : (refuse s k o r bank line).MemCanonical := by
  have hm := makeRoom_canonical h line
  unfold refuse
  dsimp only
  generalize makeRoom s line = u at hm ⊢
  split <;> exact hm

theorem afterServe_canonical (k : Nat) (o : Op) (r : LaneReq) : (afterServe s k o r).MemCanonical := by
  unfold afterServe
  extract_lets u v
  have hv : v.MemCanonical := by
    dsimp only [v]
    split <;> exact h
  clear_value v
  split
  · exact finishOp_canonical hv _ _
  · exact hv

theorem servePeer_canonical (k : Nat) (r : PeerReq) : Gives State.MemCanonical (servePeer k r s) := by
  unfold servePeer
  extract_lets t locs fab u reply copies
  have hu : u.MemCanonical := h
  clear_value u
  split
  · exact .none
  · split
    · exact .some h
    · split
      · exact .some (writeHome_canonical hu _ _ _)
      · exact .some (setFab_canonical (readLocs_canonical hu _ _ _) _)
      · extract_lets answer
        split
        · exact .some hu
        · refine .some (setFab_canonical (s := ite _ _ _) ?_ _)
          split <;> exact writeHome_canonical hu _ _ _

theorem freeBit_canonical {b : Bool} {u : State} (e : s.freeBit = (b, u)) : u.MemCanonical := by
  cases e
  exact h

theorem requestOf_canonical (k : Nat) (o : Op) : Gives State.MemCanonical (requestOf k o s) := by
  unfold requestOf
  refine .bind_any fun w => ?_
  extract_lets ready u
  refine .bind_any fun r => ?_
  have hu : u.MemCanonical := h
  clear_value u
  split
  next full v heq =>
  have hv := freeBit_canonical hu heq
  extract_lets line bank ticket ahead jp
  have hjp : Gives State.MemCanonical (jp ()) := by
    dsimp only [jp]
    split
    · exact .some (refuse_canonical hv _ _ _ _ _)
    · split
      next o' s' heq =>
        have hs := serve_canonical hv _ _ _ _ _ heq
        have hs' : s'.freeBit.2.MemCanonical := freeBit_canonical (s := s') hs rfl
        split
        · exact .some hs'
        · exact .some (afterServe_canonical hs' _ _ _)
      · split
        · exact .none
        · exact .some (refuse_canonical hv _ _ _ _ _)
  split
  · exact .none
  · exact hjp

theorem requestAtHome_canonical (k : Nat) : Gives State.MemCanonical (requestAtHome k s) := by
  unfold requestAtHome
  split
  · split
    · exact .none
    · exact requestOf_canonical h _ _
  · exact .bind_any fun r => servePeer_canonical h _ _

theorem refusalRetry_canonical (k : Nat) : Gives State.MemCanonical (refusalRetry k s) :=
  .bind_any fun _ => .bind_any fun _ => .some h

/-! ## Snapshots and the device's own accesses -/

theorem markLeaf_canonical (slot : Nat) (leaf : Word) (cow snap : Bool) : (markLeaf s slot leaf cow snap).MemCanonical :=
  writePhys_canonical h _ _ _

theorem remarkLeaf_canonical (ctx : BitVec 16) (a : LeafAt) : (remarkLeaf s ctx a).MemCanonical := markLeaf_canonical h _ _ _ _

theorem setSnaps_canonical (xs : List Snapshot) : ({ s with snaps := xs } : State).MemCanonical := h

theorem copySnapshot_canonical (x : Snapshot) : (copySnapshot x s).MemCanonical := by
  unfold copySnapshot
  split
  · exact h
  · split
    · exact h
    · exact remarkLeaf_canonical (setSnaps_canonical h _) _ _

theorem copyFor_canonical (locs : List Nat) : (copyFor s locs).MemCanonical :=
  foldl_canonical (fun _ x hu => copySnapshot_canonical hu x) _ h

theorem devWrite_canonical (ctx : BitVec 16) (p : Word) (bytes : List Byte) : Gives State.MemCanonical (devWrite s ctx p bytes) :=
  .bind_any fun _ => .some (writeHome_canonical (copyFor_canonical h _) _ _ _)

theorem writeBitmapGrid_canonical (l : Launch) : (writeBitmapGrid l s).MemCanonical := by
  unfold writeBitmapGrid
  split
  · exact h
  · exact (devWrite_canonical h _ _ _).getD h

theorem writeBitmapStatus_canonical (l : Launch) (v : Nat) : (writeBitmapStatus l v s).MemCanonical := by
  unfold writeBitmapStatus
  split
  · exact h
  · exact (devWrite_canonical h _ _ _).getD h

theorem setBitmapBit_canonical (l : Launch) (team : Nat) : (setBitmapBit l team s).MemCanonical := by
  unfold setBitmapBit
  split
  · exact h
  · dsimp only
    split
    · exact writeHome_canonical (copyFor_canonical h _) _ _ _
    · exact h

end Service

/-! ## Control instructions -/

theorem condMask_canonical (c : Ctx) (x : Spec) : (condMask c x).All fun _ => True := by unfold condMask; split <;> trivial

theorem checkTarget_canonical (c : Ctx) (a : Int) : (checkTarget c a).All fun _ => True := by unfold checkTarget; split <;> trivial

theorem dispatchEntry_canonical (c : Ctx) (x : Spec) : (dispatchEntry c x).All fun _ => True := by
  unfold dispatchEntry
  split
  · dsimp only
    split <;> trivial
  · trivial

theorem notInHandler_canonical (c : Ctx) : (notInHandler c).All fun _ => True := guardOp_canonical _

section Control
variable {s : State} (h : s.MemCanonical) (c : Ctx)
include h

theorem topOf_canonical (k : TokKind) : (topOf c k s).All fun _ => True := by
  refine (innermost_canonical h c).bind fun t _ => ?_
  split
  · split <;> trivial
  · trivial

theorem braTo_canonical (sub : BraSub) (cond : Spec) (t : BitVec 32) : (braTo sub cond t c s).All State.MemCanonical := by
  refine (condMask_canonical c cond).bind fun m _ => ?_
  extract_lets taken
  split
  · exact (checkTarget_canonical c _).bind fun _ _ => h
  · exact h

theorem brdTo_canonical (cond : Spec) (t : BitVec 32) : (brdTo cond t c s).All State.MemCanonical := by
  refine (condMask_canonical c cond).bind fun m _ => ?_
  split
  · exact h
  · refine (checkTarget_canonical c _).bind fun a _ => ?_
    split
    · exact h
    · split
      · trivial
      · refine (topOf_canonical h c _).bind fun x _ => ?_
        dsimp only
        split
        · trivial
        · exact h

theorem tokenThen_canonical (t : Token) : (tokenThen t c s).All State.MemCanonical :=
  (pushToken_canonical h c t).bind fun _ hu => hu

theorem tokenLoop_canonical (t : BitVec 32) : (tokenLoop t c s).All State.MemCanonical := by
  refine (notInHandler_canonical c).bind fun _ _ => (checkTarget_canonical c _).bind fun a _ => ?_
  dsimp only
  split
  · exact tokenThen_canonical h c _
  · trivial

theorem joinIf_canonical (t : BitVec 32) : (joinIf t c s).All State.MemCanonical := by
  refine (notInHandler_canonical c).bind fun _ _ => (topOf_canonical h c _).bind fun x _ => ?_
  dsimp only
  split
  · exact h
  · exact (checkTarget_canonical c _).bind fun _ _ => h

theorem joinLoop_canonical (cond : Spec) (t : BitVec 32) : (joinLoop cond t c s).All State.MemCanonical := by
  refine (notInHandler_canonical c).bind fun _ _ => (topOf_canonical h c _).bind fun x _ => (condMask_canonical c cond).bind fun m _ => ?_
  dsimp only
  split
  · exact (checkTarget_canonical c _).bind fun _ _ => h
  · exact settlePaths_canonical h c _ _ _

omit h in
theorem seekSpilled_canonical (n : Nat) : ∀ {s : State}, s.MemCanonical → (seekSpilled c n s).All fun x => x.2.MemCanonical := by
  induction n with
  | zero => exact fun h => h
  | succ n ih =>
    intro s h
    refine (readSpilled_canonical h c _ _).bind fun x hx => ?_
    dsimp only
    split
    · exact hx
    · exact hx
    · exact ih hx

theorem onLoop_canonical (f : Token → Token) : (onLoop c f s).All fun x => x.2.MemCanonical := by
  unfold onLoop
  split
  · exact h
  · exact h
  · exact (seekSpilled_canonical c _ h).bind fun _ hx => hx

theorem writeChanged_canonical (x : Option (Nat × Token)) : (writeChanged c x s).MemCanonical := by
  unfold writeChanged
  split
  · exact writeSpilled_canonical h c _ _
  · exact h

theorem leaveLoop_canonical (cond : Spec) (f : Mask → Token → Token) : (leaveLoop cond f c s).All State.MemCanonical := by
  refine (notInHandler_canonical c).bind fun _ _ => (condMask_canonical c cond).bind fun m _ => (onLoop_canonical h c _).bind fun x hx => ?_
  dsimp only
  split
  · trivial
  · exact (settlePaths_canonical hx c _ _ _).bind fun u hu => writeChanged_canonical hu c _

theorem exitLanes_canonical (cond : Spec) : (exitLanes cond c s).All State.MemCanonical := by
  refine (notInHandler_canonical c).bind fun _ _ => (condMask_canonical c cond).bind fun m _ => (onLoop_canonical h c _).bind fun x hx => ?_
  dsimp only
  split
  · exact writeChanged_canonical (s := State.setGroup _ _ _) hx c _
  · exact (settlePaths_canonical hx c _ _ _).bind fun u hu => writeChanged_canonical hu c _

theorem callTo_canonical (cond : Spec) (n : BitVec 4) {target : Ctx → Res Int} (ht : (target c).All fun _ => True) :
    (callTo cond n target c s).All State.MemCanonical := by
  refine (notInHandler_canonical c).bind fun _ _ => (condMask_canonical c cond).bind fun m _ => ?_
  split
  · exact h
  · refine ht.bind fun i _ => (checkTarget_canonical c _).bind fun a _ => ?_
    dsimp only
    split
    · trivial
    · split
      · exact waitPorter_canonical (s := s.setGroup _ _) h c
      · exact h

theorem pauseExpiry_canonical (gid : Nat) : Gives State.MemCanonical (pauseExpiry gid s) := by
  refine .bind_any fun c => .bind_any fun x => ?_
  dsimp only
  split
  · exact .some h
  · exact .none

end Control
end Sys2Proof.Machine
end

