-- ==== Sys2Proof/Proofs/CanonicalMemory.lean ====
section
/-! The memory instructions keep the canonical form of memory. -/
namespace Sys2Proof.Machine

theorem Ctx.advance_canonical (c : Ctx) {u : State} (hu : u.MemCanonical) : (c.advance u).MemCanonical := hu

section Memory
variable {s : State} (h : s.MemCanonical)
include h

theorem runInstr_canonical {body : Ctx → State → Res State} {t : State} (hb : ∀ c, (body c s).All State.MemCanonical)
    (ht : runInstr body s = .next t) : t.MemCanonical :=
  runWith_canonical h (fun c _ hu => c.advance_canonical hu) hb ht

theorem runControl_canonical {body : Ctx → State → Res State} {t : State} (hb : ∀ c, (body c s).All State.MemCanonical)
    (ht : runControl body s = .next t) : t.MemCanonical :=
  runWith_canonical h (fun _ _ hu => hu) hb ht

/-! ## Waits at issue -/

theorem afterAcquire_canonical (c : Ctx) : (afterAcquire c s).All fun _ => True := by
  unfold afterAcquire
  split
  · exact h
  · trivial

theorem release_canonical (c : Ctx) (fence : Bool) (sc : Scope) : (release c fence sc s).All State.MemCanonical := by
  have hr := releaseAt_canonical h c.t.place sc
  unfold release
  dsimp only
  split
  · exact h
  · split <;> exact hr

theorem awaitMoves_canonical (c : Ctx) (locs : List Located) (write : Bool) : (awaitMoves c locs write s).All fun _ => True := by
  unfold awaitMoves
  split
  · exact h
  · trivial

theorem noOverlap_canonical (c : Ctx) (locs : List Located) (write : Bool) : (noOverlap c locs write s).All fun _ => True := by
  refine (awaitMoves_canonical h c locs write).bind fun _ _ => ?_
  split
  · exact h
  · trivial

theorem orderWaits_canonical (c : Ctx) (f : Form) (locs : List Located) (write : Bool) :
    (orderWaits c f locs write s).All State.MemCanonical := by
  refine (afterAcquire_canonical h c).bind fun _ _ => ?_
  extract_lets jp
  have hjp : ∀ u : State, u.MemCanonical → (jp u).All State.MemCanonical := fun u hu =>
    (awaitMoves_canonical hu c locs write).bind fun _ _ => hu
  clear_value jp
  split
  · exact (release_canonical h c false f.scope).bind hjp
  · exact hjp _ h

theorem endFenceRel_canonical (c : Ctx) (f : Form) : (endFenceRel c f s).MemCanonical := by
  unfold endFenceRel
  split <;> exact h

omit h in
theorem recordChecks_canonical (k : Access) (b : BitVec 320) : (recordChecks k b).All fun _ => True := by
  unfold recordChecks
  dsimp only
  split
  · trivial
  · split
    · trivial
    · split <;> trivial

omit h in
theorem scalesPresent_canonical (fmts : List (Option Fmt)) : (scalesPresent fmts).All fun _ => True := by
  unfold scalesPresent
  split <;> trivial

omit h in
theorem planAccess_canonical (c : Ctx) (k : Access) (f : Form) {own : Plan → Res Unit} (ho : ∀ p, (own p).All fun _ => True) :
    (planAccess c k f own s).All fun _ => True := by
  refine (guardOp_canonical _).bind fun _ _ => ?_
  extract_lets record r w starts pages ls p fmts off ended out bounds aligned sized known
  clear_value off out
  have hb : (bounds ()).All fun _ => True := by
    dsimp only [bounds]
    split
    · split <;> trivial
    · trivial
  have ha : (aligned ()).All fun _ => True := (ho p).bind fun _ _ => by
    split
    · trivial
    · exact hb
  have hs : (sized ()).All fun _ => True :=
    (scalesPresent_canonical pages).bind fun _ _ => (guardOp_canonical _).bind fun _ _ => by
      split
      · trivial
      · exact ha
  have hk : (known ()).All fun _ => True := by
    dsimp only [known]
    split
    · trivial
    · exact hs
  clear_value known
  split
  · exact (recordChecks_canonical k record).bind fun _ _ => hk
  · exact hk

/-! ## Loads -/

theorem writeLoad_canonical (o : Op) (lid : Nat) (f : Form) (d : Spec) (sx : Bool) (r : LoadDone) :
    (writeLoad s o lid f d sx r).MemCanonical := by
  unfold writeLoad
  dsimp only
  split <;> exact h

theorem unanswered_canonical (o : Op) : (unanswered o s).Canonical := by
  unfold unanswered
  extract_lets asked
  split
  · exact h
  · dsimp only
    split
    · trivial
    · exact h

theorem serveNow_canonical (o : Op) : (serveNow o s).All fun x => x.2.MemCanonical := by
  unfold serveNow
  split
  next heq => exact serveAll_canonical _ h _ _ heq
  · exact unanswered_canonical h o

theorem readOutside_canonical (c : Ctx) (i : Instr) (f : Form) (p : Plan) (near : List Located) (o : Op) :
    (readOutside c i f p near o s).All fun x => x.2.MemCanonical := by
  refine (serveNow_canonical h _).bind fun x hx => ?_
  dsimp only
  split
  · dsimp only [Res.All]
    split
    · exact hx
    · exact assayLog_canonical hx _ _ _
  · split
    · exact hx
    · refine (takeOutside_canonical hx c _ fun hu => ?_).bind fun y hy => ?_
      · refine (checkAccess_canonical hu _ _ _ _).bind fun locs _ => ?_
        refine (serveNow_canonical hu _).bind fun z hz => ?_
        exact hz
      · exact hy

theorem readRaw_canonical (c : Ctx) (i : Instr) (req : Req) (hint : Hint) (ptr : Word) (len : Nat) :
    (readRaw c i req hint ptr len s).All fun x => x.2.MemCanonical := by
  refine (checkAccess_canonical h _ _ _ _).bind fun locs _ => (noOverlap_canonical h _ _ _).bind fun _ _ => ?_
  dsimp only
  split
  · exact unanswered_canonical h _
  next y heq =>
    have hy : y.s.MemCanonical := by
      split at heq
      · exact serveLoad_canonical h _ _ _ _ _ _ heq
      · cases heq
    split
    · trivial
    · exact hy

theorem readShared_canonical (c : Ctx) (i : Instr) (ptr : Word) (len : Nat) {read : State → Res (List Byte × State)}
    (hr : ∀ {u : State}, u.MemCanonical → (read u).All fun x => x.2.MemCanonical) :
    (readShared c i ptr len read s).All fun x => x.2.MemCanonical := by
  unfold readShared
  split
  · refine (takeOutside_canonical h c _ fun hu => ?_).bind fun y hy => ?_
    · exact (hr hu).bind fun x hx => hx
    · exact hy
  · exact hr h

theorem readBytes_canonical (share : Bool) (c : Ctx) (i : Instr) (req : Req) (hint : Hint) (ptr : Word) (len : Nat) :
    (readBytes share c i req hint ptr len s).All fun x => x.2.MemCanonical := by
  unfold readBytes
  split
  · exact readShared_canonical h _ _ _ _ fun hu => readRaw_canonical hu _ _ _ _ _ _
  · exact readRaw_canonical h _ _ _ _ _ _

theorem readStructIf_canonical (share : Bool) (c : Ctx) (i : Instr) (req : Req) (ptr : Word) (len : Nat) :
    (readStructIf share c i req ptr len s).All fun x => x.2.MemCanonical := readBytes_canonical h _ _ _ _ _ _ _

theorem readStruct_canonical (c : Ctx) (i : Instr) (req : Req) (ptr : Word) (len : Nat) :
    (readStruct c i req ptr len s).All fun x => x.2.MemCanonical := readStructIf_canonical h _ _ _ _ _ _

theorem acquired_canonical (b : Bool) (gid core : Nat) (sc : Scope) :
    (if b = true then acquireAt s gid core sc else s).MemCanonical := by
  split
  · exact acquireAt_canonical h _ _ _
  · exact h

theorem loadBody_canonical (i : Instr) (f : Form) (d : Spec) (sx : Bool) (c : Ctx) : (loadBody i f d sx c s).All State.MemCanonical := by
  refine (guardOp_canonical _).bind fun _ _ => ?_
  split
  · exact completeAtOnce_canonical h _ _
  · refine (planAccess_canonical (s := s) c _ f (own := fun _ => .ok ()) fun _ => trivial).bind fun p _ =>
      (checkAccess_canonical h _ _ _ _).bind fun locs _ =>
      (orderWaits_canonical h c f locs false).bind fun u hu => ?_
    dsimp only
    split
    · refine (completeAtOnce_canonical hu c i).bind fun v hv => (readOutside_canonical hv c i f p locs _).bind fun x hx => ?_
      split
      · trivial
      · split
        · trivial
        · exact acquired_canonical (writeLoad_canonical hx _ _ _ _ _ _) _ _ _ _
    · exact issueOp_canonical hu _ _

/-! ## Stores -/

theorem awaitCopies_canonical (locs : List Located) : (awaitCopies locs s).All fun _ => True := by
  unfold awaitCopies
  split
  · trivial
  · exact wantCopies_canonical h _

theorem settleEverywhere_canonical (locs : List Nat) : (settleEverywhere s locs).MemCanonical := h

theorem storeOnce_canonical (c : Ctx) (i : Instr) (f : Form) (far : List Piece) {st : Res Stored} (hst : st.All fun _ => True)
    (near : List Located) (o : Op) : (storeOnce c i f far st near o s).All State.MemCanonical := by
  refine (completeAtOnce_canonical h c i).bind fun u hu => ?_
  extract_lets jp
  have hjp : ∀ v : State, v.MemCanonical → (jp v).All State.MemCanonical := fun v hv =>
    hst.bind fun _ _ => (serveNow_canonical hv _).bind fun x hx => hx
  clear_value jp
  split
  · exact hjp _ hu
  · refine (performOnce_canonical hu c _ fun {v} hv => ?_).bind fun x hx => hjp _ hx
    refine (checkAccess_canonical hv _ _ _ _).bind fun locs _ => hst.bind fun x _ => (awaitCopies_canonical hv _).bind fun _ _ => ?_
    dsimp only
    split
    · exact hv
    · split
      · exact hv
      · refine (serveNow_canonical hv _).bind fun y hy => ?_
        exact settleEverywhere_canonical hy _

theorem issueStore_canonical (c : Ctx) (i : Instr) (f : Form) (far : List Piece) {st : Res Stored} (hst : st.All fun _ => True)
    (near : List Located) (o : Op) : (issueStore c i f far st near o s).All State.MemCanonical := by
  unfold issueStore
  split
  · refine hst.bind fun x _ => (issueOp_canonical h c _).bind fun u hu => ?_
    dsimp only [Res.All]
    split
    · exact hu
    · exact assayLog_canonical hu _ _ _
  · exact storeOnce_canonical h c i f far hst near o

theorem raiseSubst_canonical (lid i : Nat) : (s.raiseSubst lid i).MemCanonical := h

theorem raiseFp_canonical (gid : Nat) (f : BitVec 7) : (s.raiseFp gid f).MemCanonical := h

theorem storeBody_canonical (i : Instr) (f : Form) (d : Spec) (c : Ctx) : (storeBody i f d c s).All State.MemCanonical := by
  refine (guardOp_canonical _).bind fun _ _ => ?_
  split
  · exact completeAtOnce_canonical h _ _
  · refine (planAccess_canonical c _ f fun _ => guardOp_canonical _).bind fun p _ => ?_
    extract_lets w st
    split
    next near far _ =>
    refine (checkAccess_canonical h _ _ _ _).bind fun locs _ => ?_
    extract_lets jp
    have hst : st.All fun _ => True := orTrap_canonical _
    have hjp : (jp ()).All State.MemCanonical := by
      refine (awaitCopies_canonical h _).bind fun _ _ => (orderWaits_canonical h c f locs true).bind fun u hu =>
        (issueStore_canonical hu c i f _ hst locs _).bind fun v hv => hst.bind fun x _ => ?_
      have he := raiseFp_canonical (endFenceRel_canonical hv c f) c.gid x.fp
      dsimp only [Res.All]
      split
      · exact raiseSubst_canonical he _ _
      · exact he
    clear_value st jp
    split
    · exact hst.bind fun _ _ => hjp
    · exact hjp

/-! ## Atomics -/

theorem atomBody_canonical (i : Instr) (f : AForm) (once : Bool) (c : Ctx) : (atomBody i f once c s).All State.MemCanonical := by
  refine (guardOp_canonical _).bind fun _ _ => ?_
  split
  · exact completeAtOnce_canonical h _ _
  · refine (planAccess_canonical (s := s) c _ _ (own := fun _ => .ok ()) fun _ => trivial).bind fun p _ => ?_
    extract_lets w ls vals src o
    split
    next near far _ =>
    refine (checkAccess_canonical h _ _ _ _).bind fun locs _ => (awaitCopies_canonical h _).bind fun _ _ =>
      (orderWaits_canonical h c _ locs true).bind fun u hu => ?_
    extract_lets tag drawn reqs own addrs wrote
    have hd : ∀ v : State, v.MemCanonical → (drawn v).MemCanonical := fun v hv => endFenceRel_canonical (setFab_canonical hv _) c _
    have hw : ∀ x : List (Nat × Word) × State, x.2.MemCanonical → (wrote x).All State.MemCanonical := by
      rintro ⟨vs, t⟩ ht
      refine (serveNow_canonical ht _).bind fun y hy => ?_
      exact acquired_canonical (hd _ (raiseFp_canonical (modGroup_canonical hy _ _) _ _)) _ _ _ _
    clear_value drawn reqs o wrote
    split
    · exact (issueOp_canonical hu c _).bind fun v hv => hd v hv
    · refine (completeAtOnce_canonical hu c i).bind fun v hv => ?_
      extract_lets served
      have hs : (served ()).All State.MemCanonical := by
        dsimp only [served]
        split
        · exact hw _ hv
        · refine (performOnce_canonical hv c _ fun {t} ht => ?_).bind fun x hx => hw x hx
          refine (checkAccess_canonical ht _ _ _ _).bind fun locs _ => (awaitCopies_canonical ht _).bind fun _ _ => ?_
          split
          · exact ht
          · refine (serveNow_canonical ht _).bind fun y hy => ?_
            split
            · trivial
            · exact settleEverywhere_canonical hy _
      split
      · trivial
      · exact hs

/-! ## The scratchpad's granules and the team's tables -/

omit h in
theorem guardSpad_canonical (p : Plan) : (spadOnly p).All fun _ => True := guardOp_canonical _

theorem modTeam_canonical (t : Nat) (f : Team → Team) : (s.modTeam t f).MemCanonical := h

theorem ldfe_canonical {f : MForm} {t : State} (ht : execLdfe f s = .next t) : t.MemCanonical := by
  refine runInstr_canonical h (fun c => ?_) ht
  extract_lets fm
  refine (guardOp_canonical _).bind fun _ _ => ?_
  split
  · exact completeAtOnce_canonical h _ _
  · refine (planAccess_canonical c _ _ guardSpad_canonical).bind fun p _ => ?_
    extract_lets
    refine (checkAccess_canonical h _ _ _ _).bind fun locs _ => (orderWaits_canonical h c _ _ _).bind fun u hu =>
      (noOverlap_canonical hu _ _ _).bind fun _ _ => ?_
    dsimp only
    split
    · exact hu
    · refine (completeAtOnce_canonical hu c _).bind fun v hv => (serveNow_canonical hv _).bind fun x hx => ?_
      split
      · trivial
      · split
        · trivial
        · have hw := writeLoad_canonical hx x.1 c.lid fm f.data false ‹_›
          dsimp only [Res.All]
          split
          · exact modTeam_canonical hw _ _
          · exact hw

theorem stfe_canonical {f : MForm} {t : State} (ht : execStfe f s = .next t) : t.MemCanonical := by
  refine runInstr_canonical h (fun c => ?_) ht
  extract_lets fm
  refine (guardOp_canonical _).bind fun _ _ => ?_
  split
  · exact completeAtOnce_canonical h _ _
  · refine (planAccess_canonical c _ _ guardSpad_canonical).bind fun p _ => ?_
    extract_lets
    refine (checkAccess_canonical h _ _ _ _).bind fun locs _ => (orderWaits_canonical h c _ _ _).bind fun u hu =>
      (noOverlap_canonical hu _ _ _).bind fun _ _ => ?_
    split
    · trivial
    · refine (completeAtOnce_canonical hu c _).bind fun v hv => (serveNow_canonical hv _).bind fun x hx => ?_
      exact modTeam_canonical hx _ _

omit h in
theorem addrS_canonical (c : Ctx) (x : Spec) : (addrS c x).All fun _ => True := by unfold addrS; split <;> trivial

theorem bufstRecord_canonical {f : MForm} {t : State} (ht : execBufstRecord f s = .next t) : t.MemCanonical := by
  refine runInstr_canonical h (fun c => ?_) ht
  refine (addrS_canonical c _).bind fun p _ => (guardOp_canonical _).bind fun _ _ => ?_
  dsimp only
  split
  · trivial
  · refine (afterAcquire_canonical h c).bind fun _ _ => (completeAtOnce_canonical h c _).bind fun u hu =>
      (readStruct_canonical hu c _ _ _ _).bind fun x hx => ?_
    exact modTeam_canonical hx _ _

/-! ## Prefetches -/

theorem prefLane_canonical (w : Who) (f : Form) (sub : Option (Option (Fmt × Fmt) × Bool)) (bankOnly : Bool) (bytes : List (Nat × Nat)) :
    Gives State.MemCanonical (prefLane s w f sub bankOnly bytes) := by
  refine foldlM_gives (fun u line hu => ?_) _ h
  split
  · exact .some hu
  · split
    · split
      · exact .none
      · intro v hv
        obtain ⟨v', hv', rfl⟩ := Option.map_eq_some_iff.mp hv
        exact countAt_canonical (hintAt_canonical hu _ _ _ _ _ _ hv') _ _ _ _ _
    · intro v hv
      obtain ⟨r, hr, rfl⟩ := Option.map_eq_some_iff.mp hv
      exact readLine_canonical hu _ _ _ _ _ _ hr

theorem prefLanes_canonical (c : Ctx) (f : Form) (bankOnly : Bool) : (prefLanes c f bankOnly s).All State.MemCanonical := by
  unfold prefLanes
  extract_lets record r w starts fmts plans u
  have hu : u.MemCanonical := Who.fill_canonical h _ _
  clear_value u plans
  split
  · exact h
  · refine (scalesPresent_canonical fmts).bind fun _ _ => ?_
    split
    next heq =>
      refine foldlM_gives (P := State.MemCanonical) (fun v x hv => ?_) _ hu _ heq
      split
      · exact prefLane_canonical hv _ _ _ _ _
      · exact .some hv
    · exact hu

theorem pref_canonical {f : MForm} {t : State} (ht : execPref f s = .next t) : t.MemCanonical := by
  refine runInstr_canonical h (fun c => ?_) ht
  extract_lets fm jp
  refine (guardOp_canonical _).bind fun _ _ => ?_
  split
  · exact completeAtOnce_canonical h _ _
  · have hjp : (jp ()).All State.MemCanonical :=
      (afterAcquire_canonical h c).bind fun _ _ => (completeAtOnce_canonical h c _).bind fun u hu => prefLanes_canonical hu c fm f.aux
    clear_value jp
    split
    · exact (recordChecks_canonical _ _).bind fun _ _ => hjp
    · exact hjp

/-! ## Packed vectors -/

omit h in
theorem vAddr_canonical (c : Ctx) (f : MForm) : (vAddr c f).All fun _ => True := (addrS_canonical c _).bind fun _ _ => trivial

theorem advanceAddr_canonical (c : Ctx) (f : MForm) (a : Word) (n : Nat) : (advanceAddr c f a n s).MemCanonical := by
  unfold advanceAddr
  split
  · split <;> exact h
  · exact h

omit h in
theorem vAligned_canonical (c : Ctx) (a : Word) : (vAligned c a s).All fun _ => True := by unfold vAligned; split <;> trivial

theorem vRead_canonical (c : Ctx) (f : MForm) (a : Word) : (vRead c f a s).All fun x => x.2.MemCanonical := by
  refine (readRaw_canonical h c _ _ _ _ _).bind fun x hx => ?_
  dsimp only
  split
  · trivial
  · refine (readRaw_canonical hx c _ _ _ _ _).bind fun y hy => ?_
    exact hy

theorem vdec_canonical {f : MForm} {t : State} (ht : execVdec f s = .next t) : t.MemCanonical := by
  refine runInstr_canonical h (fun c => ?_) ht
  refine (guardOp_canonical _).bind fun _ _ => (vAddr_canonical c f).bind fun a _ => ?_
  dsimp only
  split
  · exact completeAtOnce_canonical h _ _
  · refine (vAligned_canonical c a).bind fun _ _ => (afterAcquire_canonical h c).bind fun _ _ =>
      (completeAtOnce_canonical h c _).bind fun u hu => (readShared_canonical hu c _ _ _ fun hv => vRead_canonical hv c f a).bind fun x hx => ?_
    split
    · trivial
    · exact advanceAddr_canonical (modGroup_canonical hx _ _) _ _ _ _

theorem venc_canonical {f : MForm} {t : State} (ht : execVenc f s = .next t) : t.MemCanonical := by
  refine runInstr_canonical h (fun c => ?_) ht
  refine (guardOp_canonical _).bind fun _ _ => (vAddr_canonical c f).bind fun a _ => ?_
  dsimp only
  split
  · exact completeAtOnce_canonical h _ _
  · refine (vAligned_canonical c a).bind fun _ _ => (checkAccess_canonical h _ _ _ _).bind fun locs _ =>
      (awaitCopies_canonical h _).bind fun _ _ => (orderWaits_canonical h c _ _ _).bind fun u hu =>
      (issueStore_canonical hu c _ _ _ (st := .ok _) trivial _ _).bind fun v hv => ?_
    dsimp only [Res.All]
    split
    · exact hv
    · exact advanceAddr_canonical hv _ _ _ _

/-! ## Fences and flushes -/

theorem startFence_canonical (c : Ctx) : (startFence c s).MemCanonical := by
  unfold startFence
  split <;> exact h

theorem fenceBody_canonical (f : MForm) (c : Ctx) : (fenceBody f c s).All State.MemCanonical := by
  unfold fenceBody
  extract_lets rel acq u ended finish more
  have hu : u.MemCanonical := by
    dsimp only [u]
    split
    · exact startFence_canonical h c
    · exact h
  have he : ∀ v : State, v.MemCanonical → (ended v).MemCanonical := fun v hv => modGroup_canonical hv _ _
  clear_value u ended
  have hf : ∀ v : State, v.MemCanonical → (finish v).All State.MemCanonical := by
    intro v hv
    dsimp only [finish]
    have ha : (if acq = true then acquireAt v c.gid c.t.place f.scope else v).MemCanonical := acquired_canonical hv _ _ _ _
    generalize (if acq = true then acquireAt v c.gid c.t.place f.scope else v) = x at ha ⊢
    split
    · split
      · split
        · exact he _ ha
        · exact ha
      · refine (performOnce_canonical ha c _ (perform := fun v => .ok ([], v)) fun ht => ht).bind fun y hy => ?_
        exact completeAtOnce_canonical (he _ hy) c _
    · exact completeAtOnce_canonical (he _ ha) c _
  clear_value finish
  have hm : ∀ v : State, v.MemCanonical → (more v).All State.MemCanonical := by
    intro v hv
    dsimp only [more]
    split
    · exact (release_canonical hv c _ _).bind hf
    · exact hf v hv
  clear_value more
  refine (afterAcquire_canonical hu c).bind fun _ _ => ?_
  split
  · exact (release_canonical hu c _ _).bind hm
  · split
    · exact hu
    · exact hm u hu

theorem fenceLinkTimeout_canonical (gid : Nat) : Gives State.MemCanonical (fenceLinkTimeout gid s) := by
  refine .bind_any fun c => ?_
  dsimp only
  split
  · exact .none
  · split
    next f _ =>
      have hf := fenceBody_canonical h f c
      split
      next heq =>
        rw [heq] at hf
        exact .some (Ctx.takeTrap_canonical (modGroup_canonical hf _ _) _ _)
      · exact .none
    · exact .none

theorem dropLine_canonical (core n : Nat) : (dropLine core s n).MemCanonical := setFab_canonical (unsubscribe_canonical h core n) _

theorem dropLineAll_canonical (core : Nat) (lines : List Nat) : (lines.foldl (dropLine core) s).MemCanonical :=
  foldl_canonical (fun _ n hu => dropLine_canonical hu core n) lines h

theorem hbmWritten_canonical (drop : Bool) (lines : List Nat) : (hbmWritten s drop lines).MemCanonical := by
  refine foldl_canonical (fun u q hu => ?_) _ h
  dsimp only
  split
  · exact hu
  · exact hu

theorem flushBody_canonical (i : Instr) (fm : Form) (drop toHbm : Bool) (c : Ctx) : (flushBody i fm drop toHbm c s).All State.MemCanonical := by
  refine (guardOp_canonical _).bind fun _ _ => ?_
  split
  · exact completeAtOnce_canonical h _ _
  · refine (planAccess_canonical (s := s) c _ _ (own := fun _ => .ok ()) fun _ => trivial).bind fun p _ =>
      (checkAccess_canonical h _ _ _ _).bind fun locs _ => (afterAcquire_canonical h c).bind fun _ _ =>
      (noOverlap_canonical h _ _ _).bind fun _ _ => ?_
    extract_lets lines
    split
    · exact h
    · refine (completeAtOnce_canonical h c _).bind fun u hu => ?_
      have hw := writeBackLines_canonical hu c.t.place lines
      extract_lets v v'
      have hv : v'.MemCanonical := by
        dsimp only [v']
        split
        · exact hbmWritten_canonical hw _ _
        · exact hw
      clear_value v'
      dsimp only [Res.All]
      split
      · exact dropLineAll_canonical hv _ _
      · exact hv

theorem subscribeLine_canonical (w : Who) (f : Form) (sub : (Fmt × Fmt) × Bool) (bytes : List (Nat × Nat)) :
    Gives State.MemCanonical (subscribeLine s w f sub bytes) := by
  unfold subscribeLine
  split
  · exact .some h
  · extract_lets line core
    split
    · intro v hv
      obtain ⟨r, hr, rfl⟩ := Option.map_eq_some_iff.mp hv
      exact readLine_canonical h _ _ _ _ _ _ hr
    · split
      · exact .none
      · refine (subscribe_canonical h _ _ _).bind fun u hu => ?_
        extract_lets coarser
        split
        · exact .some hu
        · have ho := readOwned_canonical hu (reticleOf core) line
          exact .some (setFab_canonical ho _)

theorem subscr_canonical {f : MForm} {t : State} (ht : execSubscr f s = .next t) : t.MemCanonical := by
  refine runInstr_canonical h (fun c => ?_) ht
  extract_lets fm record
  refine (guardOp_canonical _).bind fun _ _ => ?_
  split
  · exact completeAtOnce_canonical h _ _
  · refine (recordChecks_canonical _ _).bind fun _ _ => ?_
    split
    · refine (planAccess_canonical (s := s) c _ _ (own := fun _ => .ok ()) fun _ => trivial).bind fun p _ =>
        (checkAccess_canonical h _ _ _ _).bind fun locs _ => (afterAcquire_canonical h c).bind fun _ _ =>
        (noOverlap_canonical h _ _ _).bind fun _ _ => (completeAtOnce_canonical h c _).bind fun u hu => ?_
      split
      next heq => exact foldlM_gives (P := State.MemCanonical) (fun v x hv => subscribeLine_canonical hv _ _ _ _) _ hu _ heq
      · exact hu
    · exact (afterAcquire_canonical h c).bind fun _ _ => (completeAtOnce_canonical h c _).bind fun u hu => prefLanes_canonical hu c _ _
    · refine (planAccess_canonical (s := s) c _ _ (own := fun _ => .ok ()) fun _ => trivial).bind fun p _ =>
        (checkAccess_canonical h _ _ _ _).bind fun locs _ => (afterAcquire_canonical h c).bind fun _ _ =>
        (noOverlap_canonical h _ _ _).bind fun _ _ => ?_
      dsimp only
      split
      · exact h
      · exact (completeAtOnce_canonical h c _).bind fun u hu => dropLineAll_canonical (writeBackLines_canonical hu _ _) _ _

/-! ## Repeats and completions -/

theorem atomicRepeatTimeout_canonical (k : Nat) : Gives State.MemCanonical (atomicRepeatTimeout k s) := by
  refine .bind_any fun o => .bind_any fun core => ?_
  split
  · exact .some h
  · exact .none

theorem atomicRepeatPathLost_canonical (k : Nat) : Gives State.MemCanonical (atomicRepeatPathLost k s) := by
  refine .bind_any fun o => ?_
  split
  · exact .some h
  · exact .none

theorem peerAccessTimeout_canonical (k : Nat) : Gives State.MemCanonical (peerAccessTimeout k s) := by
  refine .bind_any fun o => ?_
  dsimp only
  split
  · exact .none
  · refine .bind_any fun w => ?_
    split
    · exact .some (faultOp_canonical h _ _ _)
    · exact .none

theorem completeStore_canonical (core : Nat) (locs : List Nat) : (completeStore s core locs).MemCanonical := by
  unfold completeStore
  generalize locs.partition (isDirty s.fab core) = x
  dsimp only
  split
  · exact settleEverywhere_canonical h _
  · exact setFab_canonical (settleEverywhere_canonical h _) _

theorem vencAdvance_canonical (o : Op) : (vencAdvance o s).MemCanonical := by
  unfold vencAdvance
  split
  · split
    · split <;> exact h
    · exact h
  · exact h

theorem completeMemory_canonical (k : Nat) (o : Op) : Gives State.MemCanonical (completeMemory k o s) := by
  refine .bind_any fun w => .bind_any fun c => .bind_any fun f => ?_
  split
  · split
    · exact .none
    · exact .some (modGroup_canonical (vencAdvance_canonical (s := s.setOp _ _) h _) _ _)
  · split
    · exact .none
    · extract_lets core acquire
      have ha : ∀ u : State, u.MemCanonical → (acquire u).MemCanonical := fun u hu => acquired_canonical hu _ _ _ _
      clear_value acquire
      split
      case h_1 m _ | h_2 m _ =>
        split
        · exact .some (faultOp_canonical h _ _ _)
        · have hw := writeLoad_canonical h o w.t.launch f m.data m.aux ‹_›
          extract_lets v u
          have hu : u.MemCanonical := by
            dsimp only [u]
            split
            · exact assayLog_canonical hw _ _ _
            · exact hw
          split
          · exact .some (faultOp_canonical hu _ _ _)
          · exact .some (ha _ (finishOp_canonical hu _ _))
      case h_3 | h_4 | h_5 | h_6 => exact .some (vencAdvance_canonical (finishOp_canonical (completeStore_canonical h _ _) _ _) o)
      case h_7 a _ | h_8 a _ =>
        have hs : (settleEverywhere ((s.modGroup o.group fun g => o.inFrame g fun g =>
            o.res.foldl (fun g e => writeData g a.data f.size e.1 false e.2.toNat) g).raiseFp o.group o.fp) o.locs).MemCanonical :=
          settleEverywhere_canonical (raiseFp_canonical (modGroup_canonical h _ _) _ _) _
        extract_lets v v' u
        have hl : u.MemCanonical := by
          dsimp only [u]
          split
          · exact hs
          · exact assayLog_canonical hs _ _ _
        split
        · exact .some (faultOp_canonical hl _ _ _)
        · exact .some (ha _ (finishOp_canonical hl _ _))
      · exact .none

end Memory
end Sys2Proof.Machine
end

