-- ==== Sys2Proof/Proofs/CanonicalEngines.lean ====
section
/-! Engines, streams, barriers and collectives keep the canonical form of memory. -/
namespace Sys2Proof.Machine

section Engines
variable {s : State} (h : s.MemCanonical)
include h

/-! ## What engines read and write -/

theorem engineReady_canonical (c : Ctx) : (engineReady c s).All fun _ => True :=
  (notInHandler_canonical c).bind fun _ _ => afterAcquire_canonical h c

omit h in
theorem rangeCheck_canonical (w : Who) (runs : List (Access × Word × Nat)) : (rangeCheck w runs).All fun _ => True := by
  unfold rangeCheck
  split <;> trivial

theorem engineRead_canonical (core gid : Nat) (xs : List Site) : (engineRead s core gid xs).2.MemCanonical :=
  readLocs_canonical h _ _ _

theorem engineWrite_canonical (core : Nat) (ws : List (Site × Carried)) : (engineWrite s core ws).MemCanonical := by
  unfold engineWrite
  extract_lets teams u glob puts v v'
  have hu : u.MemCanonical := foldl_canonical (fun w t hw => modTeam_canonical hw _ _) _ h
  have hv : v.MemCanonical := writeHome_canonical hu _ _ _
  clear_value u v
  split
  · exact hu
  · exact setFab_canonical (setFab_canonical hv _) _

theorem holdLines_canonical (locs : List Nat) : Gives State.MemCanonical (holdLines s locs) := by
  unfold holdLines
  extract_lets lines
  split
  · exact .none
  · refine foldlM_gives (P := State.MemCanonical) (fun u n hu => ?_) _ (recallDirty_canonical h _)
    have hc := changeWaybill_canonical hu n fun w => { w with held := true }
    dsimp only
    split
    · exact .some hc
    · exact .none

theorem freeLines_canonical (k : Nat) (locs : List Nat) : (freeLines s k locs).MemCanonical := by
  refine foldl_canonical (fun u n hu => ?_) _ h
  split <;> exact hu

theorem freeWritten_canonical (k : Nat) (o : Op) (done rest : List Nat) : (freeWritten s k o done rest).1.MemCanonical :=
  freeLines_canonical h _ _

theorem linesDone_canonical {α : Type} (ws : List (Nat × α)) : (linesDone s ws).2.MemCanonical := h

/-! ## Copies at issue -/

theorem modConvoy_canonical (t : Nat) (f : Convoy → Convoy) : (s.modConvoy t f).MemCanonical := h

theorem noteResult_canonical (team k : Nat) (vals : List (Nat × Word)) : (noteResult s team k vals).MemCanonical := by
  unfold noteResult
  dsimp only
  split
  · exact assayPut_canonical (modConvoy_canonical h _ _) _ _ _ _
  · exact modConvoy_canonical h _ _

theorem noteShare_canonical (team k : Nat) (offs : List Nat) : (noteShare s team k offs).MemCanonical := by
  unfold noteShare
  split
  · exact noteResult_canonical h _ _ _
  · exact h

theorem noteFault_canonical (team k : Nat) (x : Trap) : (noteFault s team k x).MemCanonical := noteResult_canonical h _ _ _

theorem replayEngine_canonical (c : Ctx) (o : Op) (v : List (Nat × Word)) : (replayEngine c o v s).MemCanonical := by
  unfold replayEngine
  extract_lets ws s1 s2 s3 s4
  have h1 : s1.MemCanonical := by
    dsimp only [s1]
    split
    · split <;> exact h
    · exact h
  have h2 : s2.MemCanonical := by
    dsimp only [s2]
    split
    · exact h1
    · exact engineWrite_canonical h1 _ _
  have h3 : s3.MemCanonical := foldl_canonical (fun u e hu => modTeam_canonical hu _ _) _ h2
  have h4 : s4.MemCanonical := foldl_canonical (fun u e hu => raiseFp_canonical hu _ _) _ h3
  exact foldl_canonical (fun u e hu => modGroup_canonical hu _ _) _ h4

theorem joinEngine_canonical (c : Ctx) (i : Instr) (o : Op) (v : List (Nat × Word)) : (joinEngine c i o v s).All State.MemCanonical := by
  unfold joinEngine
  dsimp only
  split
  · exact issueOp_canonical h c o
  · split
    · refine (completeAtOnce_canonical h c i).bind fun u hu => ?_
      dsimp only [Res.All]
      split
      · exact hu
      · exact replayEngine_canonical hu _ _ _
    · refine (countFlag_canonical h _ _).bind fun u hu => ?_
      split <;> exact hu

theorem startEngine_canonical (c : Ctx) (i : Instr) (o : Op) (sig : Word) : (startEngine c i o sig s).All State.MemCanonical := by
  refine (countFlag_canonical h _ _).bind fun _ _ =>
    (performOnce_canonical h c sig (perform := fun u => .ok ([namedOp u.nextId], u)) fun hu => hu).bind fun x hx => ?_
  exact joinEngine_canonical hx c i o _

theorem issueHolder_canonical (c : Ctx) (i : Instr) (o : Op) (sig : Word) : (issueHolder c i o sig s).All State.MemCanonical := by
  unfold issueHolder
  split
  · exact startEngine_canonical h c i o sig
  · split
    · exact h
    next heq =>
      have hs := startEngine_canonical h c i o sig
      split
      next he =>
        rw [he] at hs
        exact hs
      · exact startEngine_canonical (holdLines_canonical h _ _ heq) c i o sig

theorem noteWritten_canonical (k : Nat) (o : Op) (ls : List Nat) (done rest : List Nat) : (noteWritten s k o ls done rest).MemCanonical :=
  freeWritten_canonical h k o done rest

theorem bcopy_canonical {f : EForm} {t : State} (ht : execBcopy f s = .next t) : t.MemCanonical := by
  refine runInstr_canonical h (fun c => ?_) ht
  refine (engineReady_canonical h c).bind fun _ _ => (addrS_canonical c _).bind fun src _ => (addrS_canonical c _).bind fun dst _ =>
    (addrS_canonical c _).bind fun len _ => ?_
  split
  · trivial
  · dsimp only
    split
    · trivial
    · exact (rangeCheck_canonical _ _).bind fun _ _ => issueHolder_canonical (Who.fill_canonical h _ _) c _ _ _

/-! ## Copies in flight -/

theorem copyBytes_canonical (core gid tid : Nat) (zs : List (Site × Site)) : (copyBytes s core gid tid zs).MemCanonical := by
  have hr := engineRead_canonical h core gid (zs.map (·.1))
  unfold copyBytes
  dsimp only
  refine engineWrite_canonical (foldl_snd_canonical (fun x z hx => ?_) _ ?_) _ _
  · split
    · exact hx
    · exact hx
  · exact hr

theorem copyUpTo_canonical (k : Nat) (o : Op) (w : Who) (tid : Nat) (zs : List (Site × Site)) (n : Nat) :
    (copyUpTo s k o w tid zs n).1.MemCanonical := freeWritten_canonical (copyBytes_canonical h _ _ _ _) _ _ _ _

theorem markCopied_canonical (gid : Nat) (x : Copy) : (markCopied gid x s).MemCanonical := by
  unfold markCopied
  split <;> exact h

theorem endReads_canonical (o : Op) (w : Who) (x : Copy) : (endReads s o w x).MemCanonical := by
  unfold endReads
  split <;> exact h

theorem endEngine_canonical (k : Nat) (o : Op) (x : Trap) : (endEngine s k o x).MemCanonical :=
  faultOp_canonical (freeLines_canonical (noteFault_canonical h _ _ _) _ _) _ _ _

theorem stallEngine_canonical (k : Nat) (o : Op) (x : Trap) : (stallEngine s k o x).MemCanonical :=
  stallOp_canonical (noteFault_canonical h _ _ _) _ _ _

theorem Copy.fill_canonical (x : Copy) (w : Who) : (x.fill w s).MemCanonical := Who.fill_canonical h _ _

theorem setOp_canonical (k : Nat) (o : Op) : (s.setOp k o).MemCanonical := h

theorem copySome_canonical (k : Nat) (o : Op) (w : Who) (x : Copy) (tid : Nat) : (copySome s k o w x tid).MemCanonical := by
  unfold copySome
  extract_lets zs n u now
  have hu : u.MemCanonical := h
  clear_value u zs
  split
  · exact hu
  · exact setOp_canonical (copyUpTo_canonical hu _ _ _ _ _ _) _ _

theorem startCopy_canonical (k : Nat) (o : Op) (w : Who) (x : Copy) (tid : Nat) : (startCopy s k o w x tid).MemCanonical :=
  copySome_canonical (setOp_canonical (markCopied_canonical (modTeam_canonical h _ _) _ _) _ _) _ _ _ _ _

theorem bcopyFirstBeat_canonical (k : Nat) : Gives State.MemCanonical (bcopyFirstBeat k s) := by
  refine .bind_any fun o => ?_
  extract_lets ap ofCopy
  have hc : ∀ f, Gives State.MemCanonical (ofCopy f) := by
    intro f
    refine .bind_any fun w => ?_
    extract_lets go
    have hg : Gives State.MemCanonical (go ()) := by
      refine .bind_any fun x => ?_
      extract_lets u toSpad offs
      have hu : u.MemCanonical := Copy.fill_canonical (writeBack_canonical h _) x w
      clear_value u
      split
      · exact .some (startCopy_canonical hu _ _ _ _ _)
      · split
        · exact .some (endEngine_canonical hu _ _ _)
        · split
          · exact .some (endEngine_canonical hu _ _ _)
          · split
            · exact .some (endEngine_canonical hu _ _ _)
            · split
              · exact .some (endEngine_canonical hu _ _ _)
              · split
                · exact .some (endEngine_canonical hu _ _ _)
                · exact .some (startCopy_canonical hu _ _ _ _ _)
    clear_value go
    split
    · exact .none
    · exact hg
  clear_value ofCopy
  split
  · exact hc _
  · exact .none

theorem signalObject_canonical (core tid off : Nat) : Gives State.MemCanonical (signalObject s core tid off) := by
  refine .bind_any fun t => ?_
  extract_lets v sc s1 s2 jp
  have h1 : s1.MemCanonical := by
    dsimp only [s1]
    split
    · exact h
    · exact h
  split
  · exact .none
  · refine .some ?_
    split <;> exact h1

theorem stopCopy_canonical (k : Nat) : (stopCopy s k).MemCanonical := by
  refine Gives.getD ?_ h
  refine .bind_any fun o => ?_
  extract_lets ofCopy
  have hc : ∀ f, Gives State.MemCanonical (ofCopy f) := by
    intro f
    refine .bind_any fun w => .bind_any fun x => .bind_any fun tid => ?_
    split
    · exact .none
    · exact .some (copySome_canonical h _ _ _ _ _)
  clear_value ofCopy
  split
  · exact hc _
  · exact .none

/-- What an engine reads from now on comes after every write before it: dirty bytes go home first. -/
theorem resumed_canonical {b c : Prop} [Decidable b] [Decidable c] (core : Nat) {go : State → Option State}
    (hg : ∀ u, u.MemCanonical → Gives State.MemCanonical (go u)) : Gives State.MemCanonical
      (if b then (do let u ← some s; go u) else if c then (do let u ← some (writeBack s core); go u) else (do let u ← none; go u)) := by
  split
  · exact hg _ h
  · split
    · exact hg _ (writeBack_canonical h core)
    · exact .none

theorem bcopyComplete_canonical (k : Nat) : Gives State.MemCanonical (bcopyComplete k s) := by
  refine .bind_any fun o => ?_
  extract_lets ofCopy
  have hc : ∀ f, Gives State.MemCanonical (ofCopy f) := by
    intro f
    refine .bind_any fun w => ?_
    extract_lets go
    have hg : Gives State.MemCanonical (go ()) := by
      refine .bind_any fun x => .bind_any fun tid => resumed_canonical h w.t.place fun u hu => ?_
      extract_lets v
      have hf : v.MemCanonical := Copy.fill_canonical hu x w
      clear_value v
      split
      next zs bad _ =>
      extract_lets locs boxes s1 s2 s3 s4
      have h4 : s4.MemCanonical := by
        have h3 : s3.MemCanonical := endReads_canonical (fireBoxes_canonical (freeLines_canonical
          (settleEverywhere_canonical (copyBytes_canonical hf _ _ _ _) _) _ _) _) _ _ _
        dsimp only [s4]
        split
        · exact noteShare_canonical h3 _ _ _
        · exact h3
      clear_value s4
      split
      · exact .none
      · split
        · exact .some (wantCopies_canonical hf _)
        · split
          · split
            next heq =>
              have h5 := signalObject_canonical h4 _ _ _ _ heq
              refine .some (finishOp_canonical ?_ _ _)
              split
              · exact noteResult_canonical h5 _ _ _
              · exact h5
            · exact .some (endEngine_canonical h4 _ _ _)
          · exact .some (finishOp_canonical h4 _ _)
    clear_value go
    split
    · exact .none
    · exact hg
  clear_value ofCopy
  split
  · exact hc _
  · exact .none

theorem bcopyFault_canonical (k : Nat) : Gives State.MemCanonical (bcopyFault k s) := by
  refine .bind_any fun o => ?_
  extract_lets ofCopy
  have hc : ∀ f, Gives State.MemCanonical (ofCopy f) := by
    intro f
    refine .bind_any fun w => ?_
    extract_lets go
    have hg : Gives State.MemCanonical (go ()) := by
      refine .bind_any fun x => ?_
      split
      · exact .some (endEngine_canonical (endReads_canonical h _ _ _) _ _ _)
      · refine .bind_any fun tid => resumed_canonical h w.t.place fun u hu => ?_
        split
        next zs bad _ =>
        refine .bind_any fun e => ?_
        split
        next n p =>
        extract_lets absent zs' locs
        clear_value zs' absent
        split
        · exact .none
        · split
          · exact .some (wantCopies_canonical hu _)
          · have hw := copyUpTo_canonical hu k o w tid zs' zs'.length
            split
            next v o' heq =>
            rw [heq] at hw
            split
            · exact .some (stallEngine_canonical hw _ _ _)
            · exact .some (endEngine_canonical (endReads_canonical hw _ _ _) _ _ _)
    clear_value go
    split
    · exact .none
    · exact hg
  clear_value ofCopy
  split
  · exact hc _
  · exact .none

theorem resumeEngines_canonical (gid : Nat) : (resumeEngines gid s).MemCanonical := by
  unfold resumeEngines
  split <;> exact h

/-! ## Streams -/

omit h in
theorem streamOk_canonical (d : BitVec 512) (record : BitVec 320) : (streamOk d record).All fun _ => True := by
  unfold streamOk
  extract_lets depth ix r ended
  refine (guardOp_canonical _).bind fun _ _ => ?_
  split
  · exact (recordChecks_canonical _ _).bind fun _ _ => (guardOp_canonical _).bind fun _ _ => trivial
  · trivial

theorem stream_canonical {a : Spec} {n : Fin 8} {fb : Bool} {t : State} (ht : execStream a n fb s = .next t) : t.MemCanonical := by
  refine runInstr_canonical h (fun c => ?_) ht
  refine (engineReady_canonical h c).bind fun _ _ => (addrS_canonical c a).bind fun p _ => ?_
  dsimp only
  split
  · trivial
  · split
    · trivial
    · refine (completeAtOnce_canonical h c _).bind fun u hu => (readStruct_canonical hu c _ _ _ _).bind fun x hx =>
        (streamOk_canonical _ _).bind fun _ _ => ?_
      exact modGroup_canonical hx _ _

theorem sclose_canonical {n : Fin 8} {fb : Bool} {t : State} (ht : execSclose n fb s = .next t) : t.MemCanonical := by
  refine runInstr_canonical h (fun c => ?_) ht
  refine (engineReady_canonical h c).bind fun _ _ => ?_
  dsimp only
  split
  · trivial
  · exact (completeAtOnce_canonical h c _).bind fun u hu => modGroup_canonical hu _ _

theorem streamLane_canonical (w : Who) (st : Stream) (i l : Nat) : Gives (fun x => x.s.MemCanonical) (streamLane s w st i l) := by
  unfold streamLane
  extract_lets f p fmt x r? bad e out odd use data scale early
  have he : ∀ k t, Gives (fun x => x.s.MemCanonical) (early k t) := fun _ _ => .some h
  clear_value early odd out r?
  split
  · exact he _ _
  · split
    · exact he _ _
    · split
      · exact he _ _
      · split
        · exact he _ _
        · refine (serveLoad_canonical (Who.fill_canonical h _ _) _ _ _ _ _).bind fun rd hrd => ?_
          extract_lets get1 got
          have hg : ∀ r : Read, r.s.MemCanonical → Gives (fun x => x.s.MemCanonical) (got r) := by
            intro r hr
            dsimp only [got]
            split
            · exact .some hr
            · split
              · exact .some hr
              · split
                · exact .some hr
                · split
                  · exact .some hr
                  · split <;> exact .some hr
          clear_value got
          split
          · exact hg _ hrd
          · exact (serveLoad_canonical hrd _ _ _ _ _).bind hg

theorem streamVec_canonical (w : Who) (st : Stream) (i : Nat) : Gives (fun x => x.2.MemCanonical) (streamVec s w st i) := by
  refine foldlM_gives (P := fun x : StreamVec × State => x.2.MemCanonical) (fun x l hx => ?_) _ h
  exact (streamLane_canonical hx w st i l).bind fun y hy => .some hy

theorem outriderFetch_canonical (gid : Nat) (n : Fin 8) : Gives State.MemCanonical (outriderFetch gid n s) := by
  refine .bind_any fun c => .bind_any fun st => ?_
  extract_lets i depth fetch known
  have hf : Gives State.MemCanonical (fetch ()) := by
    refine (streamVec_canonical h _ _ _).bind fun x hx => ?_
    split
    next v u =>
    extract_lets push add logged
    have hl : ∀ w, w.MemCanonical → (logged w).MemCanonical := fun w hw => assayLog_canonical hw _ _ _
    have ha : ∀ g w, w.MemCanonical → (add g w).MemCanonical := fun g w hw => modGroup_canonical hw _ _
    clear_value logged add
    split
    · exact .some (hl _ (ha _ _ hx))
    · refine .bind_any fun p => .bind_any fun other => ?_
      split
      · exact .some (hl _ (ha _ _ (ha _ _ hx)))
      · split
        · exact .some (ha _ _ hx)
        · exact .none
    · refine .bind_any fun p => .bind_any fun other => ?_
      split
      · exact .some (ha _ _ hx)
      · exact .none
  clear_value fetch
  split
  · exact .none
  · dsimp only [known]
    split
    · exact .none
    · exact hf

/-! ## Saved teams -/

theorem takeWaypoint_canonical (v : Convoy) (n : Nat) : Gives State.MemCanonical (takeWaypoint s v n) := by
  refine .bind_any fun a => .bind_any fun b => ?_
  dsimp only
  split
  · exact .none
  · exact .some h

theorem restoreFrames_canonical (x : SavedTeam) : (restoreFrames s x).MemCanonical := by
  refine foldl_canonical (fun u f hu => ?_) _ h
  split
  · split
    · exact coreWrite_canonical hu _ _ _ _
    · exact hu
  · exact hu

theorem putTeam_canonical (x : SavedTeam) : (putTeam s x).MemCanonical :=
  restoreFrames_canonical (s := { s.setTeam _ _ with groups := _, ops := _ }) h x

/-! ## Barriers -/

theorem objectAt_canonical (c : Ctx) (p : Word) : (objectAt c p s).All fun _ => True := by
  unfold objectAt
  dsimp only
  split
  · refine (checkAccess_canonical h _ _ _ _).bind fun _ _ => ?_
    split <;> trivial
  · trivial

omit h in
theorem phaseBit_canonical (c : Ctx) (x : Spec) : (phaseBit c x).All fun _ => True := by
  unfold phaseBit
  split
  · trivial
  · split <;> trivial
  · trivial

omit h in
theorem arrivalCount_canonical (c : Ctx) (x : Spec) : (arrivalCount c x).All fun _ => True := by
  unfold arrivalCount
  split <;> trivial

theorem bara_canonical {d a count : Spec} {scope : BScope} {fb : Bool} {t : State} (ht : execBara d a count scope fb s = .next t) :
    t.MemCanonical := by
  refine runInstr_canonical h (fun c => ?_) ht
  refine (engineReady_canonical h c).bind fun _ _ => (guardOp_canonical _).bind fun _ _ => (addrS_canonical c a).bind fun p _ =>
    (arrivalCount_canonical c count).bind fun n _ => (objectAt_canonical h c p).bind fun off _ => ?_
  dsimp only
  split
  · trivial
  · refine (completeAtOnce_canonical h c _).bind fun u hu => (release_canonical hu c _ _).bind fun v hv => ?_
    split
    · trivial
    · split
      · exact modGroup_canonical (modTeam_canonical hv _ _) _ _
      · trivial

theorem barw_canonical {a phase : Spec} {scope : BScope} {fb : Bool} {t : State} (ht : execBarw a phase scope fb s = .next t) :
    t.MemCanonical := by
  refine runInstr_canonical h (fun c => ?_) ht
  refine (engineReady_canonical h c).bind fun _ _ => (addrS_canonical c a).bind fun p _ => (phaseBit_canonical c phase).bind fun ph _ =>
    (objectAt_canonical h c p).bind fun off _ => ?_
  dsimp only
  split
  · trivial
  · refine (completeAtOnce_canonical h c _).bind fun u hu => ?_
    split
    · exact modTeam_canonical hu _ _
    · exact acquireAt_canonical hu _ _ _

theorem tbar_canonical {fb : Bool} {t : State} (ht : execTbar fb s = .next t) : t.MemCanonical := by
  refine runInstr_canonical h (fun c => ?_) ht
  refine (engineReady_canonical h c).bind fun _ _ => (completeAtOnce_canonical h c _).bind fun u hu => ?_
  extract_lets n go
  have hg : ∀ v, v.MemCanonical → (go v).All State.MemCanonical := by
    intro v hv
    dsimp only [go]
    split
    · exact modGroup_canonical (acquireAt_canonical hv _ _ _) _ _
    · exact hv
  clear_value go
  split
  · exact hg u hu
  · exact (release_canonical hu c _ _).bind fun v hv => hg _ (modGroup_canonical hv _ _)

theorem waypt_canonical {fb : Bool} {t : State} (ht : execWaypt fb s = .next t) : t.MemCanonical := by
  refine runInstr_canonical h (fun c => ?_) ht
  refine (engineReady_canonical h c).bind fun _ _ => (completeAtOnce_canonical h c _).bind fun u hu => ?_
  split
  · exact hu
  · extract_lets n v passed
    have hv : v.MemCanonical := by
      dsimp only [v]
      split <;> exact hu
    clear_value v
    split
    · exact hv
    · split
      · exact modGroup_canonical hv _ _
      · extract_lets both there done
        split
        · split
          next heq => exact modGroup_canonical (takeWaypoint_canonical hv _ _ _ heq) _ _
          · trivial
        · exact hv

theorem depsig_canonical {fb : Bool} {t : State} (ht : execDepsig fb s = .next t) : t.MemCanonical := by
  refine runInstr_canonical h (fun c => ?_) ht
  refine (engineReady_canonical h c).bind fun _ _ => (completeAtOnce_canonical h c _).bind fun u hu =>
    (release_canonical hu c _ _).bind fun v hv => (performOnce_canonical hv c _ fun {x} hx => ?_).bind fun y hy => ?_
  · dsimp only [Res.All]
    split
    · exact hx
    · exact setBitmapBit_canonical hx _ _
  · exact modTeam_canonical hy _ _

/-! ## Collectives -/

/-- The reading of a command record, with its checks. -/
theorem collAsked_canonical (c : Ctx) (i : Instr) (p : Word) (w : Who) : (Claims.collAsked c i p w s).All fun x => x.2.MemCanonical := by
  refine (readStructIf_canonical h _ c i _ _ _).bind fun y hy => ?_
  split
  next bs u =>
  have hu : u.MemCanonical := hy
  extract_lets r x answer held dst src
  have hr : (held ()).All fun x => x.2.MemCanonical := (rangeCheck_canonical _ _).bind fun _ _ => by
    split
    · exact hu
    · exact hu
  clear_value held
  have hd : (dst ()).All fun x => x.2.MemCanonical := by
    dsimp only [dst]
    split
    · trivial
    · exact hr
  have hs : (src ()).All fun x => x.2.MemCanonical := by
    dsimp only [src]
    split
    · trivial
    · exact hd
  clear_value src dst
  refine (guardOp_canonical _).bind fun _ _ => ?_
  split
  · trivial
  · exact hs

theorem coll_canonical {a : Spec} {fb : Bool} {t : State} (ht : execColl a fb s = .next t) : t.MemCanonical := by
  refine runInstr_canonical h (fun c => ?_) ht
  refine (engineReady_canonical h c).bind fun _ _ => ?_
  extract_lets i w kind o'
  refine (guardOp_canonical _).bind fun _ _ => (addrS_canonical c _).bind fun p _ => ?_
  extract_lets go
  have hg : (go ()).All State.MemCanonical := by
    refine (countFlag_canonical h _ _).bind fun _ _ =>
      (performOnce_canonical h c _ fun {u} hu => collAsked_canonical hu c i p w).bind fun y hy => ?_
    split
    next v u =>
    have hu : u.MemCanonical := hy
    extract_lets r held o u'
    have hu' : u'.MemCanonical := by
      dsimp only [u']
      split
      · exact hu
      · exact (holdLines_canonical hu held).getD hu
    exact (joinEngine_canonical hu' c i o v).bind fun t ht => modGroup_canonical ht _ _
  clear_value go
  split
  · trivial
  · exact hg

theorem collWrite_canonical (p : CollPlan) (ws : List (Nat × Site × Carried)) : (collWrite s p ws).MemCanonical :=
  settleEverywhere_canonical (engineWrite_canonical h _ _) _

theorem collValues_canonical (x : Command) (plans : List CollPlan) : (collValues s x plans).2.2.MemCanonical := by
  unfold collValues
  dsimp only
  refine foldl_snd_canonical (fun y p hy => ?_) _ ?_
  · exact engineRead_canonical hy _ _ _
  · exact foldl_canonical (fun u p hu => writeBack_canonical hu _) _ h

theorem runCollective_canonical (lid k : Nat) : Gives State.MemCanonical (runCollective s lid k) := by
  refine .bind_any fun y => ?_
  split
  next x plans =>
  have hv := collValues_canonical h x plans
  split
  next outs fp u heq =>
  rw [heq] at hv
  extract_lets u1 u2 u3
  have h1 : u1.MemCanonical := foldl_canonical (fun v e hv => collWrite_canonical hv _ _) _ hv
  have h2 : u2.MemCanonical := by
    refine foldl_canonical (fun v p hv => ?_) _ h1
    have hn : ((noteResult (noteShare v p.w.g.team p.k (spadOffs (p.writes.map (·.2)))) p.w.g.team p.k
        [(2 ^ 35, fp.zeroExtend 64)]).raiseFp p.w.gid fp).MemCanonical :=
      raiseFp_canonical (noteResult_canonical (noteShare_canonical hv _ _ _) _ _ _) _ _
    split
    · exact raiseFp_canonical hn _ _
    · exact hn
  have h3 : u3.MemCanonical := h2
  exact .some (foldl_canonical (fun v p hv => freeLines_canonical hv _ _) _ h3)

theorem stopColl_canonical (k : Nat) : (stopColl s k).MemCanonical := by
  refine Gives.getD ?_ h
  refine .bind_any fun o => .bind_any fun t => .bind_any fun y => ?_
  split
  next x plans =>
  have hv := collValues_canonical h x plans
  split
  next outs fp u heq =>
  rw [heq] at hv
  refine .bind_any fun z => ?_
  exact .some (noteWritten_canonical (collWrite_canonical (linesDone_canonical hv _) _ _) _ _ _ _ _)

theorem collComplete_canonical (k : Nat) : Gives State.MemCanonical (collComplete k s) := by
  refine .bind_any fun o => ?_
  split
  · refine .bind_any fun t => ?_
    split
    · exact .some (finishOp_canonical h _ _)
    · exact (runCollective_canonical h _ _).bind fun u hu => .bind_any fun o' => .some (finishOp_canonical hu _ _)
  · exact .none

theorem collFault_canonical (k : Nat) : Gives State.MemCanonical (collFault k s) := by
  refine .bind_any fun o => .bind_any fun w => ?_
  extract_lets ps x all noted differs go
  have ha : ∀ t u, u.MemCanonical → (all t u).MemCanonical := fun t u hu => foldl_canonical (fun v p hv => endEngine_canonical hv _ _ _) _ hu
  have hn : noted.MemCanonical := h
  clear_value all noted differs
  have hg : Gives State.MemCanonical (go ()) := by
    dsimp only [go]
    split
    · exact .some (ha _ _ hn)
    · split
      · exact .some (ha _ _ h)
      · split
        · split
          · exact .none
          · exact .some (wantCopies_canonical h _)
        · refine .some ?_
          split
          · exact stallEngine_canonical h _ _ _
          · exact endEngine_canonical h _ _ _
  clear_value go
  split
  · split
    · exact .none
    · exact hg
  · exact .none

end Engines
end Sys2Proof.Machine
end

