-- ==== Sys2Proof/Proofs/CanonicalRegisters.lean ====
section
/-! Register instructions, clauses, placing and loading keep the canonical form of memory. -/
namespace Sys2Proof.Machine

section Registers
variable {s : State} (h : s.MemCanonical)
include h

/-! ## Register instructions -/

theorem runElementwise_canonical {sh : Shape} {f : OForm} {op : Nat → Nat → Nat → Flagged Nat} {t : State}
    (ht : runInstr (elementwise sh f op) s = .next t) : t.MemCanonical := runInstr_canonical h (elementwise_canonical h sh f op) ht

theorem runComparison_canonical {sh : Shape} {f : OForm} {op : Nat → Nat → Flagged Bool} {t : State}
    (ht : runInstr (comparison sh f op) s = .next t) : t.MemCanonical := runInstr_canonical h (comparison_canonical h sh f op) ht

theorem sel_canonical {f : OForm} {t : State} (ht : execSel f s = .next t) : t.MemCanonical := by
  refine runInstr_canonical h (fun c => ?_) ht
  refine (guardOp_canonical _).bind fun _ _ => (readSources_canonical h c _ _).bind fun x hx => ?_
  split
  · exact writeUniform_canonical hx c _ _
  · split
    · exact modGroup_canonical hx _ _
    · trivial

theorem lea_canonical {f : OForm} {t : State} (ht : execLea f s = .next t) : t.MemCanonical := by
  refine runInstr_canonical h (fun c => ?_) ht
  exact (guardOp_canonical _).bind fun _ _ => elementwise_canonical h _ _ _ c

theorem quantise_canonical {f : QForm} {op : Nat → Nat → Flagged Nat} {t : State} (ht : runInstr (quantise f op) s = .next t) :
    t.MemCanonical := by
  refine runInstr_canonical h (fun c => ?_) ht
  refine (guardOp_canonical _).bind fun _ _ => (readSources_canonical h c _ _).bind fun x hx => ?_
  extract_lets ls rs ended go
  have he : ∀ u, u.MemCanonical → (ended u).All State.MemCanonical := fun u hu => raiseFp_canonical hu _ _
  clear_value ended
  have hg : (go ()).All State.MemCanonical := by
    dsimp only [go]
    split
    · exact he _ (modGroup_canonical hx _ _)
    · exact (writeUniform_canonical hx c _ _).bind he
  clear_value go
  split
  · exact hx
  · exact hg

theorem qscale_canonical {f : QForm} {t : State} (ht : execQscale f s = .next t) : t.MemCanonical := by
  refine runInstr_canonical h (fun c => ?_) ht
  refine (guardOp_canonical _).bind fun _ _ => (guardOp_canonical _).bind fun _ _ => (readSources_canonical h c _ _).bind fun x hx => ?_
  split
  · exact modGroup_canonical hx _ _
  · exact writeUniform_canonical hx c _ _

/-! ## Cross-lane instructions -/

omit h in
theorem memberMask_canonical (c : Ctx) (x : Spec) : (memberMask c x).All fun _ => True := by unfold memberMask; split <;> trivial

theorem innerIf_canonical (c : Ctx) : (innerIf c s).All fun _ => True := (innermost_canonical h c).bind fun _ _ => trivial

theorem arrive_canonical (c : Ctx) (mma : Bool) (m : Mask) : (arrive c mma m s).All fun x => x.2.MemCanonical := by
  refine (innerIf_canonical h c).bind fun t _ => ?_
  extract_lets pending
  split
  · trivial
  · split
    · trivial
    · split
      · trivial
      · split
        · split
          · split
            · trivial
            · exact h
          · split <;> exact h
        · exact h

theorem crossLane_canonical (f : OForm) (ok : Bool) {op : Ctx → Mask → State → Res State}
    (ho : ∀ c m u, u.MemCanonical → (op c m u).All State.MemCanonical) (c : Ctx) : (crossLane f ok op c s).All State.MemCanonical := by
  refine (memberMask_canonical c _).bind fun m _ => (guardOp_canonical _).bind fun _ _ => (arrive_canonical h c _ _).bind fun x hx => ?_
  split
  next c' u =>
  have hu := ho c' m u hx
  split
  next heq =>
    rw [heq] at hu
    exact hu
  · exact h
  next heq =>
    rw [heq] at hu
    exact hu

theorem putLanes_canonical (c : Ctx) (d : Spec) (wide : Bool) (vals : List (Nat × Nat)) : (putLanes c d wide vals s).MemCanonical := by
  unfold putLanes
  split
  · exact h
  · split <;> exact h
  · exact h

theorem shfl_canonical {f : OForm} {t : State} (ht : execShfl f s = .next t) : t.MemCanonical := by
  refine runInstr_canonical h (fun c => crossLane_canonical h f _ (fun c m u hu => ?_) c) ht
  exact putLanes_canonical hu _ _ _ _

theorem vote_canonical {f : OForm} {t : State} (ht : execVote f s = .next t) : t.MemCanonical := by
  refine runInstr_canonical h (fun c => crossLane_canonical h f _ (fun c m u hu => ?_) c) ht
  exact putLanes_canonical hu _ _ _ _

theorem elect_canonical {f : OForm} {t : State} (ht : execElect f s = .next t) : t.MemCanonical := by
  refine runInstr_canonical h (fun c => crossLane_canonical h f _ (fun c m u hu => ?_) c) ht
  exact putLanes_canonical hu _ _ _ _

theorem redux_canonical {f : OForm} {t : State} (ht : execRedux f s = .next t) : t.MemCanonical := by
  refine runInstr_canonical h (fun c => crossLane_canonical h f _ (fun c m u hu => ?_) c) ht
  split
  · exact hu
  · exact raiseFp_canonical (putLanes_canonical hu _ _ _ _) _ _

theorem scan_canonical {f : OForm} {t : State} (ht : execScan f s = .next t) : t.MemCanonical := by
  refine runInstr_canonical h (fun c => crossLane_canonical h f _ (fun c m u hu => ?_) c) ht
  split
  · exact hu
  · exact raiseFp_canonical (putLanes_canonical hu _ _ _ _) _ _

omit h in
theorem namedLane_canonical (c : Ctx) (x : Src) (m : Mask) : (namedLane c x m).All fun _ => True := by
  unfold namedLane
  dsimp only
  split <;> trivial

theorem bcast_canonical {f : OForm} {t : State} (ht : execBcast f s = .next t) : t.MemCanonical := by
  refine runInstr_canonical h (fun c => crossLane_canonical h f _ (fun c m u hu => ?_) c) ht
  split
  · exact hu
  · exact (namedLane_canonical c _ _).bind fun k _ => putLanes_canonical hu _ _ _ _

theorem setlane_canonical {f : OForm} {t : State} (ht : execSetlane f s = .next t) : t.MemCanonical := by
  refine runInstr_canonical h (fun c => crossLane_canonical h f _ (fun c m u hu => ?_) c) ht
  split
  · exact hu
  · exact (namedLane_canonical c _ _).bind fun k _ => putLanes_canonical hu _ _ _ _

/-! ## Clauses -/

theorem startClause_canonical (gid k : Nat) : Gives State.MemCanonical (startClause gid k s) := by
  refine .bind_any fun g => .bind_any fun t => .bind_any fun l => .bind_any fun rid => .bind_any fun r => ?_
  dsimp only
  split
  · exact .none
  · split
    · exact .some (takeTrap_canonical (setGroup_canonical h _ _) _ _ _ _ _ _ _)
    · split
      · exact .none
      · split
        · exact .some (takeTrap_canonical h _ _ _ _ _ _ _)
        · exact .some h

theorem clauseIssue_canonical (gid : Nat) : Gives State.MemCanonical (clauseIssue gid s) := by
  refine .bind_any fun g => ?_
  split
  · exact startClause_canonical h _ _
  · exact .none

theorem clauseResume_canonical (gid : Nat) : Gives State.MemCanonical (clauseResume gid s) := by
  refine .bind_any fun g => ?_
  split
  · split
    · exact .none
    · exact startClause_canonical h _ _
  · refine .bind_any fun c => ?_
    split
    · split
      · exact .none
      · exact .some h
    · split
      · exact .some (Ctx.takeTrap_canonical (setGroup_canonical h _ _) c _)
      · exact .none
  · exact .none

/-! ## Placing and retirement of teams -/

theorem loadTeam_canonical (lid : Nat) (l : Launch) (r : Region) (t : Team) (stk : List Nat) : (loadTeam s lid l r t stk).MemCanonical := by
  unfold loadTeam
  extract_lets cores gs u
  have hu : u.MemCanonical := h
  exact dropLines_canonical hu _

theorem settledTeam_canonical (place : Nat) : Gives State.MemCanonical (settledTeam s place) := by
  have hr := releaseAt_canonical h place .device
  unfold settledTeam
  dsimp only
  split
  · exact .none
  · split
    · exact .none
    · exact .some hr

theorem retireTeam_canonical (tid : Nat) (t : Team) (l : Launch) : (retireTeam s tid t l).MemCanonical := by
  unfold retireTeam
  extract_lets gs ended u fp sampled v keep
  have hu : u.MemCanonical := by
    dsimp only [u]
    split
    · exact setBitmapBit_canonical h _ _
    · exact h
  exact hu

theorem settleTeams_canonical : (settleTeams s).MemCanonical := by
  refine foldl_canonical (fun u e hu => ?_) _ h
  split
  · extract_lets ids v
    have hv : v.MemCanonical := by
      refine foldl_canonical (fun w k hw => ?_) _ hu
      split
      · split
        · exact releaseAt_canonical hw _ _
        · exact hw
      · exact hw
    clear_value v
    split
    · exact hu
    · split
      · refine foldl_canonical (fun w k hw => ?_) _ hv
        split
        · exact retireTeam_canonical hw _ _ _
        · exact hw
      · exact hv
  · exact hu

/-! ## Regions and warm slots -/

theorem fixStatus_canonical (lid : Nat) (v : BitVec 8) : (fixStatus s lid v).MemCanonical := h

theorem regionLoad_canonical (lid : Nat) : Gives State.MemCanonical (regionLoad lid s) := by
  refine .bind_any fun l => ?_
  dsimp only
  split
  · exact .none
  · split
    · exact .none
    · exact .some (fixStatus_canonical h _ _)
    · exact .some h

theorem regionRelease_canonical (k : Nat) : Gives State.MemCanonical (regionRelease k s) := by
  refine .bind_any fun r => ?_
  dsimp only
  split
  · exact .none
  · exact .some h

theorem warmSlotImageWrite_canonical {slot : BitVec 8} {ptr : Word} {t : State} (ht : execWarmSlotImageWrite slot ptr s = .next t) :
    t.MemCanonical := by
  cases ht
  exact h

theorem warmSlotStaged_canonical (n : Nat) : Gives State.MemCanonical (warmSlotStaged n s) := by
  refine .bind_any fun w => ?_
  dsimp only
  split
  · exact .none
  · split
    · refine .bind_any fun r => ?_
      split
      · exact .some h
      · exact .some h
    · split
      · exact .none
      · split
        · exact .some h
        · exact .some h

end Registers
end Sys2Proof.Machine
end

