-- ==== Sys2Proof/Proofs/CanonicalMatrix.lean ====
section
/-! The matrix engine keeps the canonical form of memory. -/
namespace Sys2Proof.Machine

section Matrix
variable {s : State} (h : s.MemCanonical)
include h

/-! ## Operands -/

omit h in
theorem tileOperand_canonical (c : Ctx) (b : Spec) (top : Bool) : (tileOperand c b top).All fun _ => True := by
  unfold tileOperand
  extract_lets ok
  have ho : ∀ m, (ok m).All fun _ => True := by
    intro m
    dsimp only [ok]
    split <;> trivial
  clear_value ok
  split
  · dsimp only
    split
    · split
      · exact ho _
      · trivial
    · split
      · exact ho _
      · trivial
  · exact ho _
  · trivial

omit h in
theorem tileSpec_canonical (x : Spec) : (tileSpec x).All fun _ => True := by unfold tileSpec; split <;> trivial

omit h in
theorem position_canonical (c : Ctx) (b : Spec) : (position c b).All fun _ => True := by
  unfold position
  extract_lets go
  have hg : ∀ v, (go v).All fun _ => True := fun v => (guardOp_canonical _).bind fun _ _ => trivial
  clear_value go
  split
  · exact hg _
  · exact hg _
  · trivial

/-! ## MLDB -/

omit h in
theorem mldbChecks_canonical (c : Ctx) (f : Fmt) (x : Mldb) (ctl : Word) : (mldbChecks c f x ctl s).All fun _ => True := by
  unfold mldbChecks
  extract_lets w go
  have hg : (go ()).All fun _ => True := (guardOp_canonical _).bind fun _ _ => rangeCheck_canonical _ _
  clear_value go
  refine (guardOp_canonical _).bind fun _ _ => (guardOp_canonical _).bind fun _ _ => ?_
  split
  · trivial
  · exact hg

theorem mldbReads_canonical (x : Mldb) (start : Bool) (teams : List Nat) : (mldbReads s x start teams).MemCanonical :=
  foldl_canonical (fun _ _ hu => modTeam_canonical hu _ _) _ h

theorem replayMldb_canonical (c : Ctx) (x : Mldb) (v : List (Nat × Word)) : (replayMldb c x v s).MemCanonical :=
  modTeam_canonical (mldbReads_canonical (mldbReads_canonical h _ _ _) _ _ _) _ _

theorem mldb_canonical {a b : Spec} {fmt : Fmt} {fb : Bool} {t : State} (ht : execMldb a b fmt fb s = .next t) : t.MemCanonical := by
  refine runInstr_canonical h (fun c => ?_) ht
  refine (engineReady_canonical h c).bind fun _ _ => ?_
  extract_lets i
  split
  · extract_lets src scale
    refine (guardOp_canonical _).bind fun _ _ => (addrS_canonical c b).bind fun ctl _ => ?_
    extract_lets x begins mark o start
    refine (mldbChecks_canonical c _ _ _).bind fun _ _ => (countFlag_canonical h _ _).bind fun _ _ => ?_
    have hs : ∀ u, u.MemCanonical → (start u).MemCanonical := by
      intro u hu
      dsimp only [start]
      split <;> exact hu
    clear_value start
    split
    · exact (issueOp_canonical h c o).bind fun u hu => hs u hu
    · refine (takeOutside_canonical h c _ (perform := fun u => .ok ([namedOp u.nextId], u)) fun hu => hu).bind fun y hy => ?_
      split
      next v u =>
      have hu : u.MemCanonical := hy
      extract_lets now k done go
      have hg : (go ()).All State.MemCanonical := by
        refine (joinEngine_canonical hu c i o v).bind fun w hw => ?_
        extract_lets w1 w2
        have h1 : w1.MemCanonical := by
          dsimp only [w1]
          split
          · exact replayMldb_canonical hw _ _ _
          · exact hw
        have h2 : w2.MemCanonical := by
          dsimp only [w2]
          split
          · exact h1
          · exact hs _ h1
        clear_value w2
        dsimp only [Res.All]
        split <;> exact h2
      clear_value go
      split
      · exact hu
      · exact hg
  · trivial

theorem mldbComplete_canonical (k : Nat) : Gives State.MemCanonical (mldbComplete k s) := by
  refine .bind_any fun o => ?_
  extract_lets ofLoad
  have hl : ∀ f, Gives State.MemCanonical (ofLoad f) := by
    intro f
    refine .bind_any fun w => ?_
    extract_lets x u go
    have hg : Gives State.MemCanonical (go ()) := by
      dsimp only [go]
      have hf : u.MemCanonical := Who.fill_canonical h w x.bytes
      clear_value u
      split
      · exact .none
      next sites _ =>
        split
        · exact .none
        · have hr := engineRead_canonical (writeBack_canonical hf w.t.place) w.t.place o.group sites
          generalize engineRead (writeBack u w.t.place) w.t.place o.group sites = y at hr ⊢
          obtain ⟨bs, v⟩ := y
          dsimp only
          split
          · exact .none
          · exact .some (finishOp_canonical (noteResult_canonical (foldl_canonical (fun _ _ hu => modTeam_canonical hu _ _) _
              (mldbReads_canonical (mldbReads_canonical hr _ _ _) _ _ _)) _ _ _) _ _)
    clear_value go
    split
    · exact .none
    · exact hg
  clear_value ofLoad
  split
  · exact hl _
  · exact .none

theorem mldbFault_canonical (k : Nat) : Gives State.MemCanonical (mldbFault k s) := by
  refine .bind_any fun o => ?_
  extract_lets ofLoad
  have hl : ∀ f, Gives State.MemCanonical (ofLoad f) := by
    intro f
    refine .bind_any fun w => ?_
    extract_lets x fail go
    have hx : ∀ t, (fail t).MemCanonical := fun t =>
      endEngine_canonical (foldl_canonical (fun _ _ hu => modTeam_canonical hu _ _) _ (mldbReads_canonical h _ _ _)) _ _ _
    clear_value fail
    have hg : Gives State.MemCanonical (go ()) := by
      dsimp only [go]
      split
      · refine .some ?_
        split
        · exact stallEngine_canonical h _ _ _
        · exact hx _
      · split
        · exact .none
        · exact .bind_any fun off => .some (hx _)
    clear_value go
    split
    · exact .none
    · exact hg
  clear_value ofLoad
  split
  · exact hl _
  · exact .none

/-! ## MMA -/

theorem mma_canonical {f : XForm} {t : State} (ht : execMma f s = .next t) : t.MemCanonical := by
  refine runInstr_canonical h (fun c => ?_) ht
  refine (engineReady_canonical h c).bind fun _ _ => (arrive_canonical h c _ _).bind fun x hx => ?_
  split
  next c u =>
  have hu : u.MemCanonical := hx
  extract_lets t w first rows tag b n slots at_ src known loaded
  have hk : (known ()).All State.MemCanonical := by
    refine (addrS_canonical c _).bind fun d _ => ?_
    split
    · trivial
    · refine (guardOp_canonical _).bind fun _ _ => ?_
      extract_lets a offs got o issued free allowed clean
      have hi : (free ()).All State.MemCanonical := by
        dsimp only [free]
        split
        · exact h
        · exact issueOp_canonical hu c _
      clear_value free
      have ha : (allowed ()).All State.MemCanonical := by
        dsimp only [allowed]
        split
        · trivial
        · exact hi
      clear_value allowed
      have hc : (clean ()).All State.MemCanonical := by
        refine (guardOp_canonical _).bind fun _ _ => (guardOp_canonical _).bind fun _ _ => ?_
        split
        · trivial
        · exact ha
      clear_value clean
      split
      · trivial
      · exact hc
  clear_value known
  split
  · exact h
  · dsimp only [loaded]
    split
    · exact h
    · exact hk

theorem setTeam_canonical (k : Nat) (t : Team) : (s.setTeam k t).MemCanonical := h

theorem setFree_canonical (n : Nat) : ({ s with free := n } : State).MemCanonical := h

theorem mmaWriteback_canonical (k : Nat) : Gives State.MemCanonical (mmaWriteback k s) := by
  refine .bind_any fun o => ?_
  extract_lets ofMma
  have hl : ∀ f, Gives State.MemCanonical (ofMma f) := by
    intro f
    refine .bind_any fun w => ?_
    dsimp only
    split
    · exact .none
    · split
      · exact .none
      · exact .some (finishOp_canonical (raiseFp_canonical (setTeam_canonical (setFree_canonical h _) _ _) _ _) _ _)
  clear_value ofMma
  split
  · exact hl _
  · exact .none

theorem mmaFault_canonical (k : Nat) : Gives State.MemCanonical (mmaFault k s) := by
  refine .bind_any fun o => ?_
  extract_lets ofMma
  have hl : ∀ f, Gives State.MemCanonical (ofMma f) := by
    intro f
    refine .bind_any fun w => ?_
    dsimp only
    split
    · exact .none
    · exact .bind_any fun e => .some (faultOp_canonical (raiseFp_canonical (setTeam_canonical (setFree_canonical h _) _ _) _ _) _ _ _)
  clear_value ofMma
  split
  · exact hl _
  · exact .none

/-! ## Tiles -/

theorem mzero_canonical {b : Spec} {fb : Bool} {t : State} (ht : execMzero b fb s = .next t) : t.MemCanonical := by
  refine runInstr_canonical h (fun c => ?_) ht
  refine (engineReady_canonical h c).bind fun _ _ => (tileOperand_canonical c _ _).bind fun m _ => ?_
  dsimp only
  split
  · exact completeAtOnce_canonical h _ _
  · exact issueOp_canonical h _ _

theorem mrd_canonical {d a b : Spec} {ty : Ty} {rnd : Rnd} {sat fb : Bool} {t : State} (ht : execMrd d a b ty rnd sat fb s = .next t) :
    t.MemCanonical := by
  refine runInstr_canonical h (fun c => ?_) ht
  refine (engineReady_canonical h c).bind fun _ _ => (guardOp_canonical _).bind fun _ _ => (tileSpec_canonical a).bind fun n _ =>
    (position_canonical c b).bind fun x _ => ?_
  split
  · split
    · trivial
    · exact issueOp_canonical h _ _

theorem mwr_canonical {a b x : Spec} {ty : Ty} {fb : Bool} {t : State} (ht : execMwr a b x ty fb s = .next t) : t.MemCanonical := by
  refine runInstr_canonical h (fun c => ?_) ht
  refine (engineReady_canonical h c).bind fun _ _ => (guardOp_canonical _).bind fun _ _ => (tileSpec_canonical a).bind fun n _ =>
    (position_canonical c b).bind fun x _ => ?_
  split
  · split
    · trivial
    · exact issueOp_canonical h _ _

theorem mwait_canonical {b : Spec} {fb : Bool} {t : State} (ht : execMwait b fb s = .next t) : t.MemCanonical := by
  refine runInstr_canonical h (fun c => ?_) ht
  refine (engineReady_canonical h c).bind fun _ _ => (tileOperand_canonical c _ _).bind fun m _ => ?_
  extract_lets busy
  split
  · exact h
  · exact completeAtOnce_canonical h _ _

/-! ## MST -/

theorem mst_canonical {f : MForm} {t : State} (ht : execMst f s = .next t) : t.MemCanonical := by
  refine runInstr_canonical h (fun c => ?_) ht
  refine (engineReady_canonical h c).bind fun _ _ => ?_
  extract_lets i pair record r w src
  refine (tileSpec_canonical _).bind fun tile _ => (addrS_canonical c _).bind fun addr _ => ?_
  split
  · trivial
  · extract_lets p out named data checked bounded
    have hc : ∀ locs, (checked locs).All State.MemCanonical := by
      intro locs
      refine (awaitCopies_canonical h _).bind fun _ _ => (orderWaits_canonical h c _ _ _).bind fun u hu =>
        (noOverlap_canonical hu _ _ _).bind fun _ _ => ?_
      extract_lets glob bytes o issued converted ready
      have hi : (issued ()).All State.MemCanonical := by
        dsimp only [issued]
        split
        · exact issueOp_canonical hu _ _
        · exact issueHolder_canonical hu _ _ _ _
      clear_value issued
      have hv : (converted ()).All State.MemCanonical := by
        dsimp only [converted]
        split
        · trivial
        · exact hi
      clear_value converted
      have hr : (ready ()).All State.MemCanonical := by
        dsimp only [ready]
        split
        · split
          · exact hu
          · exact hv
        · exact hi
      clear_value ready
      split
      · exact hu
      · exact hr
    clear_value checked
    have hb : (bounded ()).All State.MemCanonical := by
      have ha := checkAccess_canonical h w .store false p.pieces
      dsimp only [bounded]
      split
      · trivial
      · exact ha.bind fun locs _ => hc locs
    clear_value bounded out
    refine (recordChecks_canonical _ _).bind fun _ _ => (guardOp_canonical _).bind fun _ _ => (guardOp_canonical _).bind fun _ _ => ?_
    split
    · trivial
    · exact hb

theorem mstWrite_canonical (k : Nat) (o : Op) (w : Who) (ws : List (Nat × Site × Carried)) :
    Gives State.MemCanonical (mstWrite s k o w ws) := by
  unfold mstWrite
  dsimp only
  split
  · exact .none
  · exact .some (settleEverywhere_canonical (engineWrite_canonical (writeBack_canonical h _) _ _) _)

theorem stopMst_canonical (k : Nat) : (stopMst s k).MemCanonical := by
  refine Gives.getD ?_ h
  refine .bind_any fun o => ?_
  extract_lets ofMst
  have hl : ∀ f, Gives State.MemCanonical (ofMst f) := by
    intro f
    refine .bind_any fun w => ?_
    dsimp only
    split
    · exact .none
    · exact .bind_any fun x => (mstWrite_canonical (linesDone_canonical h _) _ _ _ _).bind fun u hu => .some (noteWritten_canonical hu _ _ _ _ _)
  clear_value ofMst
  split
  · exact hl _
  · exact .none

theorem stopEngine_canonical (k : Nat) : (stopEngine s k).MemCanonical := by
  unfold stopEngine
  split
  · exact stopCopy_canonical h k
  · exact stopMst_canonical h k
  · exact stopColl_canonical h k
  · exact h

theorem bufstBuffer_canonical {f : MForm} {t : State} (ht : execBufstBuffer f s = .next t) : t.MemCanonical := by
  refine runInstr_canonical h (fun c => ?_) ht
  refine (addrS_canonical c _).bind fun p _ => ?_
  extract_lets n old go
  have hg : (go ()).All State.MemCanonical := by
    refine (afterAcquire_canonical h c).bind fun _ _ => ?_
    split
    · exact h
    · refine (completeAtOnce_canonical h c _).bind fun u hu => (readStruct_canonical hu c _ _ _ _).bind fun x hx =>
        (guardOp_canonical _).bind fun _ _ => ?_
      exact modTeam_canonical hx _ _
  clear_value go
  refine (guardOp_canonical _).bind fun _ _ => ?_
  split
  · trivial
  · exact hg

/-! ## Completion -/

theorem completeMatrix_canonical (k : Nat) (o : Op) : Gives State.MemCanonical (completeMatrix k o s) := by
  refine .bind_any fun w => ?_
  extract_lets tile row col zeroed act
  have ha : Gives State.MemCanonical (act ()) := by
    dsimp only [act]
    split
    · exact .some (finishOp_canonical (modTeam_canonical h _ _) _ _)
    · split
      · exact .none
      · exact .some (finishOp_canonical (raiseFp_canonical (modGroup_canonical h _ _) _ _) _ _)
    · exact .some (finishOp_canonical (raiseFp_canonical (modTeam_canonical h _ _) _ _) _ _)
    · split
      · exact .some (endEngine_canonical h _ _ _)
      next f _ _ ws st _ =>
        refine (mstWrite_canonical h _ _ _ _).bind fun u hu => .some (finishOp_canonical (freeLines_canonical ?_ _ _) _ _)
        have hn : ∀ offs, ((settleEverywhere (noteResult (noteShare u w.g.team k offs) w.g.team k [(2 ^ 35, st.fp.zeroExtend 64)]) o.locs).raiseFp
            o.group st.fp).MemCanonical := fun offs =>
          raiseFp_canonical (settleEverywhere_canonical (noteResult_canonical (noteShare_canonical hu _ _ _) _ _ _) _) _ _
        split
        · refine raiseSubst_canonical ?_ _ _
          split
          · exact raiseFp_canonical (hn _) _ _
          · exact hn _
        · split
          · exact raiseFp_canonical (hn _) _ _
          · exact hn _
    · exact .none
  clear_value act
  split
  · exact .none
  · exact ha

end Matrix
end Sys2Proof.Machine
end

