-- ==== Sys2Proof/Proofs/CanonicalSystem.lean ====
section
/-! System instructions, launches and dispatches keep the canonical form of memory. -/
namespace Sys2Proof.Machine

theorem Gives.ite {α : Type} {P : α → Prop} {c : Prop} [Decidable c] {x y : Option α} (hx : Gives P x) (hy : Gives P y) :
    Gives P (if c then x else y) := by
  split
  · exact hx
  · exact hy

section System
variable {s : State} (h : s.MemCanonical)
include h

/-! ## Special registers, traps and returns -/

theorem sread_canonical {d : Spec} {n : BitVec 8} {t : State} (ht : execSread d n s = .next t) : t.MemCanonical := by
  refine runInstr_canonical h (fun c => ?_) ht
  unfold sreadBody
  extract_lets k value go
  have hg : ∀ x : Word × State, x.2.MemCanonical → (go x).All State.MemCanonical := by
    intro x hx
    dsimp only [go]
    split
    · exact modGroup_canonical hx _ _
    · trivial
  clear_value go value
  refine (guardOp_canonical _).bind fun _ _ => ?_
  split
  · exact (takeOutside_canonical h c _ (perform := fun u => .ok ([(0, value u)], u)) fun hu => hu).bind fun x hx => hg _ hx
  · exact hg _ h

omit h in
theorem swriteValue_canonical (c : Ctx) (a : Spec) : (swriteValue c a).All fun _ => True := by unfold swriteValue; split <;> trivial

theorem swrite_canonical {a : Spec} {n : BitVec 8} {t : State} (ht : execSwrite a n s = .next t) : t.MemCanonical := by
  refine runInstr_canonical h (fun c => ?_) ht
  refine (swriteValue_canonical c a).bind fun v _ => ?_
  dsimp only
  split
  · trivial
  · trivial
  · exact h
  · refine (guardOp_canonical _).bind fun _ _ => ?_
    dsimp only [Res.All]
    split <;> exact h

theorem trap_canonical {imm : BitVec 32} {t : State} (ht : execTrap imm s = .next t) : t.MemCanonical := by
  refine runInstr_canonical h (fun c => ?_) ht
  trivial

theorem matchRft_canonical (i : Instr) (c : Ctx) : (matchRft i c s).All State.MemCanonical := by
  unfold matchRft
  split
  · trivial
  · exact (performOnce_canonical h c _ (perform := fun u => .ok ([], u)) fun hu => hu).bind fun x hx => hx

theorem rft_canonical {i : Instr} {next : Bool} {t : State} (ht : runControl (rftBody i next) s = .next t) : t.MemCanonical := by
  refine runControl_canonical h (fun c => ?_) ht
  exact (matchRft_canonical h i c).bind fun u hu => (returnFromTrap_canonical hu _ _).bind fun v hv => resumeEngines_canonical hv _

theorem rftAbort_canonical {t : State} (ht : execRftAbort s = .next t) : t.MemCanonical := by
  refine runControl_canonical h (fun c => ?_) ht
  exact (matchRft_canonical h _ c).bind fun u hu => requestEnd_canonical (modGroup_canonical hu _ _) _ _ _ _ _

/-! ## First-touch mapping and translations -/

theorem setDev_canonical (d : Device) : (s.setDev d).MemCanonical := h

theorem setFirstTouch_canonical (xs : List (Nat × BitVec 16 × Nat)) : ({ s with firstTouch := xs } : State).MemCanonical := h

theorem mappg_canonical (lid : Nat) (ctx : BitVec 16) (va : Nat) (tmpl : Word) : (mappg lid ctx va tmpl s).2.MemCanonical := by
  unfold mappg
  extract_lets interrupt
  have hi : ∀ u : State, u.MemCanonical → (interrupt u).MemCanonical := fun u hu => setDev_canonical hu _
  clear_value interrupt
  split
  · exact h
  · exact h
  · extract_lets old
    split
    · split <;> exact h
    · split
      · exact hi _ h
      next p _ =>
        extract_lets free e u v leaf frame w x
        have hu : u.MemCanonical := writePhys_canonical (copyFor_canonical h _) _ _ _
        clear_value u e leaf frame
        have hv : v.MemCanonical := by
          dsimp only [v]
          split
          · exact hi _ hu
          · exact hu
        clear_value v
        have hw : w.MemCanonical := zeroPage_canonical (copyFor_canonical hv _) _
        clear_value w
        have hx : x.MemCanonical := writePhys_canonical (copyFor_canonical hw _) _ _ _
        clear_value x
        split
        · exact hi _ h
        · split
          · exact hv
          · exact setFirstTouch_canonical hx _

theorem mappgInstr_canonical {d a b : Spec} {fb : Bool} {t : State} (ht : execMappg d a b fb s = .next t) : t.MemCanonical := by
  refine runInstr_canonical h (fun c => ?_) ht
  unfold mappgBody
  extract_lets i go
  have hg : (go ()).All State.MemCanonical := by
    refine (guardOp_canonical _).bind fun _ _ => (addrS_canonical c a).bind fun va _ => (addrS_canonical c b).bind fun tmpl _ =>
      (guardOp_canonical _).bind fun _ _ => (completeAtOnce_canonical h c _).bind fun u hu =>
      (performOnce_canonical hu c _ fun {w} hw => ?_).bind fun x hx => ?_
    · exact mappg_canonical hw _ _ _ _
    · dsimp only
      split
      · exact modGroup_canonical hx _ _
      · trivial
  clear_value go
  split
  · trivial
  · exact hg

theorem tlbinv_canonical {i : Instr} {a : Spec} {p : BitVec 16 → Nat → TlbEntry → Bool} {t : State}
    (ht : runInstr (tlbinvBody i a p) s = .next t) : t.MemCanonical := by
  refine runInstr_canonical h (fun c => ?_) ht
  unfold tlbinvBody
  extract_lets go
  have hg : (go ()).All State.MemCanonical := by
    refine (addrS_canonical c a).bind fun va _ => (completeAtOnce_canonical h c _).bind fun u hu =>
      (performOnce_canonical hu c _ fun {w} hw => ?_).bind fun x hx => ?_
    · exact setFab_canonical hw _
    · exact hx
  clear_value go
  split
  · trivial
  · exact hg

theorem ctxsvPut_canonical (c : Ctx) (i : Instr) (o : Op) (sig : Word) : Res.All State.MemCanonical
    (if c.t.side == .solo then do
      let s ← issueOp c o s
      .ok (assayLog c sig [] s)
    else do
      let s ← completeAtOnce c i s
      if anyBlocked s o.locs then .error (.wait s)
      let (_, s) ← performOnce c sig (fun s => do
        let (_, s) ← serveNow o s
        .ok ([], settleEverywhere s o.locs)) s
      .ok s) := by
  split
  · exact (issueOp_canonical h c _).bind fun u hu => assayLog_canonical hu _ _ _
  · refine (completeAtOnce_canonical h c _).bind fun u hu => ?_
    dsimp only
    split
    · exact hu
    · refine (performOnce_canonical hu c _ fun {w} hw => (serveNow_canonical hw _).bind fun y hy => ?_).bind fun x hx => ?_
      · exact settleEverywhere_canonical hy _
      · exact hx

theorem ctxsv_canonical {a : Spec} {fb : Bool} {t : State} (ht : execCtxsv a fb s = .next t) : t.MemCanonical := by
  refine runInstr_canonical h (fun c => ?_) ht
  unfold ctxsvBody
  extract_lets i bs src go
  clear_value bs src i
  have hg : (go ()).All State.MemCanonical := by
    refine (addrS_canonical c a).bind fun p _ => (guardOp_canonical _).bind fun _ _ => ?_
    extract_lets puts sig saved
    clear_value puts sig
    have hs : (saved ()).All State.MemCanonical := by
      refine (checkAccess_canonical h _ _ _ _).bind fun locs _ => (awaitCopies_canonical h _).bind fun _ _ =>
        (awaitMoves_canonical h _ _ _).bind fun _ _ => ?_
      extract_lets o
      clear_value o
      exact ctxsvPut_canonical h c i o sig
    clear_value saved
    split
    · trivial
    · exact hs
  clear_value go
  split
  · trivial
  · exact hg

theorem instructionComplete_canonical (k : Nat) : Gives State.MemCanonical (instructionComplete k s) := by
  refine .bind_any fun o => ?_
  split
  case h_5 => exact completeMemory_canonical h k o
  case h_1 | h_2 | h_3 | h_4 => exact completeMatrix_canonical h k o

/-! ## Acceptance -/

theorem takeSnapshots_canonical (lid : Nat) (l : Launch) : (takeSnapshots s lid l).MemCanonical := by
  unfold takeSnapshots
  split
  · exact h
  · split
    · exact h
    · refine foldl_canonical (fun u r hu => foldl_canonical (fun v x hv => ?_) _ hu) _ h
      exact setSnaps_canonical (markLeaf_canonical hv _ _ _ _) _

theorem acceptLaunch_canonical (l : Launch) : (acceptLaunch s l).MemCanonical := by
  unfold acceptLaunch
  extract_lets handler l' u
  have hu : u.MemCanonical := h
  clear_value u
  exact takeSnapshots_canonical (writeBitmapStatus_canonical (writeBitmapGrid_canonical hu _) _ _) _ _

theorem setQueue_canonical (k : Nat) (q : Queue) : (s.setQueue k q).MemCanonical := h

theorem queueSlotAccept_canonical (k : Nat) : Gives State.MemCanonical (queueSlotAccept k s) := by
  unfold queueSlotAccept
  split
  · exact .none
  · extract_lets q dev u
    have hu : u.MemCanonical := h
    clear_value u
    split
    · exact .some hu
    · extract_lets n
      split
      · exact .some (acceptLaunch_canonical (setQueue_canonical hu _ _) _)
      · split <;> exact .some hu

theorem abortHead_canonical (k : Nat) : (abortHead k s).MemCanonical := by
  unfold abortHead
  extract_lets old
  clear_value old
  split <;> exact h

theorem writeRecord_canonical (ctx : BitVec 16) (p : Word) (r : BitVec 512) : Gives State.MemCanonical (writeRecord s ctx p r) := by
  refine .bind_any fun locs => ?_
  split
  · exact devWrite_canonical h _ _ _
  · exact .none

theorem rewriteHeld_canonical (k : Nat) : (rewriteHeld k s).MemCanonical := by
  refine foldl_canonical (fun u e hu => ?_) _ h
  split
  · exact hu
  · exact (writeRecord_canonical hu _ _ _).getD hu

theorem qctlWrite_canonical (k : Nat) (v : Word) : (qctlWrite k v s).MemCanonical := by
  unfold qctlWrite
  extract_lets q q1 q2 q3 u w
  have hw : w.MemCanonical := by
    dsimp only [w]
    split
    · exact abortHead_canonical (setQueue_canonical h _ _) k
    · exact setQueue_canonical h _ _
  split
  · exact rewriteHeld_canonical hw k
  · exact hw

/-! ## Child grids and mailboxes -/

theorem setLaunches_canonical (k : Nat) (f : Launch → Launch) : (s.modLaunch k f).MemCanonical := h

theorem addChild_canonical (c : Ctx) (r : BitVec 1024) : (addChild c r s).2.MemCanonical :=
  acceptLaunch_canonical (setLaunches_canonical (setLaunches_canonical h _ _) _ _) _

theorem launchRead_canonical (c : Ctx) (i : Instr) (p : Word) : (launchRead c i p s).All fun x => x.2.MemCanonical := by
  unfold launchRead
  split
  · exact h
  · refine (readStructIf_canonical h _ c i _ _ _).bind fun x hx => (guardOp_canonical _).bind fun _ _ => ?_
    split
    · trivial
    · exact hx

theorem launchAt_canonical (c : Ctx) (i : Instr) (p : Word) : (launchAt c i p s).All fun x => x.2.MemCanonical := by
  refine (launchRead_canonical h c i p).bind fun x hx => ?_
  split
  split
  · exact modGroup_canonical hx _ _
  · exact addChild_canonical (modGroup_canonical hx _ _) _ _

theorem launch_canonical {d a : Spec} {fb : Bool} {t : State} (ht : execLaunch d a fb s = .next t) : t.MemCanonical := by
  refine runInstr_canonical h (fun c => ?_) ht
  refine (engineReady_canonical h c).bind fun _ _ => ?_
  extract_lets i go
  have hg : (go ()).All State.MemCanonical := by
    refine (completeAtOnce_canonical h c _).bind fun u hu => (release_canonical hu c _ _).bind fun v hv => (addrS_canonical c a).bind fun p _ => ?_
    extract_lets aligned
    have ha : (aligned ()).All State.MemCanonical := by
      refine (performOnce_canonical hv c _ fun hw => launchAt_canonical hw c i p).bind fun x hx => ?_
      split
      split
      · exact modGroup_canonical hx _ _
      · trivial
    clear_value aligned
    split
    · trivial
    · exact ha
  clear_value go
  refine (guardOp_canonical _).bind fun _ _ => ?_
  split
  · trivial
  · exact hg

theorem boxLine_canonical (c : Ctx) (p : Word) : (boxLine c p s).All fun _ => True := by
  refine (checkAccess_canonical h _ _ _ _).bind fun locs _ => ?_
  split <;> trivial

omit h in
theorem boxAligned_canonical (c : Ctx) (p : Word) (n : Nat) : (boxAligned c p n s).All fun _ => True := by
  unfold boxAligned
  split <;> trivial

theorem enterBox_canonical (c : Ctx) (x : Mailbox) : (enterBox c x s).All fun y => y.2.MemCanonical := by
  unfold enterBox
  dsimp only
  split
  · trivial
  · split
    · trivial
    · exact h

theorem bindAt_canonical (c : Ctx) (i : Instr) (line rec : Word) (place : Nat) : (bindAt c i line rec place s).All fun y => y.2.MemCanonical :=
  (checkAccess_canonical h _ _ _ _).bind fun _ _ => (readStructIf_canonical h _ c i _ _ _).bind fun _ hx =>
    (boxLine_canonical hx c line).bind fun _ _ => enterBox_canonical hx c _

theorem namedBox_canonical (c : Ctx) (line : Word) : (namedBox c line s).All fun _ => True := by
  refine (boxLine_canonical h c line).bind fun phys _ => ?_
  split
  · trivial
  · split <;> trivial

theorem mboxBody_canonical (i : Instr) (d a : Spec) {perform : Ctx → Word → Word → State → Res (List (Nat × Word) × State)}
    (hp : ∀ c p q {u : State}, u.MemCanonical → (perform c p q u).All fun x => x.2.MemCanonical) (c : Ctx) :
    (mboxBody i d a perform c s).All State.MemCanonical := by
  refine (engineReady_canonical h c).bind fun _ _ => ?_
  split
  · refine (guardOp_canonical _).bind fun _ _ => (boxAligned_canonical c _ _).bind fun _ _ =>
      (performOnce_canonical h c _ fun hu => hp _ _ _ hu).bind fun x hx => ?_
    exact modGroup_canonical hx _ _
  · trivial

theorem mboxBind_canonical {d a : Spec} {place : BitVec 12} {t : State} (ht : execMboxBind d a place s = .next t) : t.MemCanonical := by
  refine runInstr_canonical h (mboxBody_canonical h _ d a fun c p q {u} hu => ?_) ht
  exact (boxAligned_canonical c _ _).bind fun _ _ => bindAt_canonical hu c _ _ _ _

theorem mboxUnbind_canonical {d a : Spec} {place : BitVec 12} {t : State} (ht : execMboxUnbind d a place s = .next t) : t.MemCanonical := by
  refine runInstr_canonical h (mboxBody_canonical h _ d a fun c p q {u} hu => ?_) ht
  refine (namedBox_canonical hu c p).bind fun x _ => ?_
  dsimp only [Res.All]
  split <;> exact hu

theorem mboxCount_canonical {d a : Spec} {place : BitVec 12} {t : State} (ht : execMboxCount d a place s = .next t) : t.MemCanonical := by
  refine runInstr_canonical h (mboxBody_canonical h _ d a fun c p q {u} hu => ?_) ht
  exact (namedBox_canonical hu c p).bind fun x _ => hu

theorem mailboxFiring_canonical (k : Nat) : Gives State.MemCanonical (mailboxFiring k s) := by
  refine .bind_any fun x => ?_
  split
  · exact .some (fireBox_canonical h k)
  · exact .none

theorem setBoxes_canonical (xs : SMap Mailbox) : ({ s with boxes := xs } : State).MemCanonical := h

theorem handlerLaunch_canonical (k : Nat) : Gives State.MemCanonical (handlerLaunch k s) := by
  refine .bind_any fun x => ?_
  dsimp only
  split
  · exact .none
  · exact .some (acceptLaunch_canonical (setBoxes_canonical h _) _)

/-! ## Dispatches -/

theorem setConvoys_canonical (xs : List Convoy) : ({ s with convoys := xs } : State).MemCanonical := h

theorem placeTeam_canonical (lid : Nat) (l : Launch) (r : Region) (team : Nat) : Gives State.MemCanonical (placeTeam s lid l r team) := by
  refine .bind_any fun p => .bind_any fun segs => ?_
  extract_lets stk t sampled id s1 s2 eid s3 go
  have h1 : s1.MemCanonical := by
    dsimp only [s1]
    split <;> exact h
  have h2 : s2.MemCanonical := setLaunches_canonical h1 _ _
  clear_value s2
  have h3 : s3.MemCanonical := loadTeam_canonical h2 _ _ _ _ _
  clear_value s3
  have hg : Gives State.MemCanonical (go ()) := by
    dsimp only [go]
    split
    · exact .some (loadTeam_canonical h2 _ _ _ _ _)
    · refine .bind_any fun q => .bind_any fun esegs => ?_
      exact .bind_any fun a => .bind_any fun b => .some (setConvoys_canonical (loadTeam_canonical h3 _ _ _ _ _) _)
  clear_value go
  exact .ite .none hg

theorem dispatchReady_canonical (lid : Nat) (l : Launch) (r : Region) : Gives State.MemCanonical (dispatchReady s lid l r) := by
  unfold dispatchReady
  split
  · exact .some (fixStatus_canonical h _ _)
  · split
    · exact .none
    · split
      · exact .some h
      · exact .none
      · exact placeTeam_canonical h _ _ _ _

theorem setLaunch_canonical (k : Nat) (l : Launch) : (s.setLaunch k l).MemCanonical := h

theorem teamDispatch_canonical (lid : Nat) : Gives State.MemCanonical (teamDispatch lid s) := by
  refine .bind_any fun l => ?_
  dsimp only
  split
  · exact .none
  · split
    · exact .some (fixStatus_canonical h _ _)
    · refine .bind_any fun k => .bind_any fun r => ?_
      split
      · exact dispatchReady_canonical (setLaunch_canonical h _ _) _ _ _
      · split
        · exact .some (fixStatus_canonical h _ _)
        · exact .some ((dispatchReady_canonical (setLaunch_canonical h _ _) _ _ _).getD (setLaunch_canonical h _ _))

end System
end Sys2Proof.Machine
end

