-- ==== Sys2Proof/Proofs/CanonicalRecovery.lean ====
section
/-! Steps of the memory hierarchy, retirement, the log, recovery and the device's edge keep the canonical form of memory. -/
namespace Sys2Proof.Machine

theorem State.MemCanonical.of_mem {s t : State} (h : s.MemCanonical) (e : t.mem = s.mem) : t.MemCanonical := by
  unfold State.MemCanonical
  rw [e]
  exact h

section Device
variable {s : State} (h : s.MemCanonical)
include h

/-! ## The memory hierarchy -/

theorem l1WriteBack_canonical (core line : Nat) : Gives State.MemCanonical (l1WriteBack core line s) := by
  refine .bind_any fun _ => ?_
  extract_lets u
  have hu : u.MemCanonical := writeBackLines_canonical h _ _
  clear_value u
  refine .ite .none ?_
  have hb : (u.freeBit).2.MemCanonical := freeBit_canonical hu rfl
  refine .ite (.some ?_) (.some hb)
  exact setFab_canonical (unsubscribe_canonical hb _ _) _

theorem l1Invalidation_canonical (core line : Nat) : Gives State.MemCanonical (l1Invalidation core line s) := by
  refine .ite ?_ .none
  dsimp only
  split <;> exact .some (setFab_canonical h _)

theorem subscriberLineInstall_canonical (core line : Nat) : Gives State.MemCanonical (subscriberLineInstall core line s) := by
  refine .bind_any fun bytes => .ite .none ?_
  extract_lets fab u
  have hu : u.MemCanonical := setFab_canonical h _
  clear_value u
  split
  · exact .ite (.some (setFab_canonical (readOwned_canonical hu _ _) _)) (.some hu)
  · exact .some hu

theorem droverMigration_canonical (t line : Nat) : Gives State.MemCanonical (droverMigration t line s) := by
  refine .bind_any fun e => ?_
  dsimp only
  refine .ite .none (.ite .none (.ite (.some h) ?_))
  exact .ite (.some (changeWaybill_canonical (setFab_canonical h _) _ _)) .none

theorem retentionEntry_canonical (a : Array_) : Gives State.MemCanonical (retentionEntry a s) := .ite (.some h) .none

theorem retentionExit_canonical (a : Array_) : Gives State.MemCanonical (retentionExit a s) := by
  refine .ite ?_ .none
  have hb : ((s.setFab { s.fab with retained := s.fab.retained.erase a }).freeBit).2.MemCanonical := freeBit_canonical (setFab_canonical h _) rfl
  dsimp only
  refine .some ?_
  split
  · exact reportCorrected_canonical hb _ _
  · exact hb

/-! ## Ends and retirement -/

theorem endRequestArrival_canonical (lid : Nat) : Gives State.MemCanonical (endRequestArrival lid s) :=
  .bind_any fun _ => .bind_any fun _ => .some h

theorem haltEngines_canonical (gids : List Nat) : (haltEngines s gids).MemCanonical :=
  foldl_canonical (fun _ _ hu => stopEngine_canonical hu _) _ h

theorem dropEngines_canonical (gids : List Nat) (all : Bool) : (dropEngines s gids all).MemCanonical := by
  refine foldl_canonical (fun u e hu => ?_) _ h
  split
  · exact freeLines_canonical (s := { u with ops := SMap.del u.ops e.1 }) hu _ _
  · exact hu

theorem stopEngines_canonical (gids : List Nat) (all : Bool) : (stopEngines s gids all).MemCanonical :=
  dropEngines_canonical (haltEngines_canonical h _) _ _

theorem foldFpstat_canonical (lid : Nat) (gs : List (Nat × Group)) : (foldFpstat s lid gs).MemCanonical := h

theorem modGroups_canonical (gids : List Nat) (f : Group → Group) : (gids.foldl (fun s k => s.modGroup k f) s).MemCanonical :=
  foldl_canonical (fun _ _ hu => modGroup_canonical hu _ _) _ h

theorem fixStatuses_canonical (lids : List Nat) (v : BitVec 8) : (lids.foldl (fun s k => fixStatus s k v) s).MemCanonical :=
  foldl_canonical (fun _ _ hu => fixStatus_canonical hu _ _) _ h

theorem setSaved_canonical (xs : SMap SavedTeam) : ({ s with saved := xs } : State).MemCanonical := h

theorem haltLaunch_canonical (lid : Nat) (l : Launch) : (haltLaunch s lid l).MemCanonical :=
  fixStatuses_canonical (setSaved_canonical (foldFpstat_canonical (modGroups_canonical (stopEngines_canonical h _ _) _ _) _ _) _) _ _

theorem endLaunch_canonical (lid : Nat) : Gives State.MemCanonical (endLaunch lid s) :=
  .bind_any fun l => .ite .none (.some (haltLaunch_canonical h lid l))

theorem freeSnapshots_canonical (lid : Nat) : (freeSnapshots s lid).MemCanonical := by
  refine foldl_canonical (fun u x hu => ?_) _ (setSnaps_canonical h _)
  split
  · exact remarkLeaf_canonical hu _ _
  · exact hu

theorem report_canonical (x : Report) : (s.report x).MemCanonical := h

theorem retireInQueue_canonical (l : Launch) (r : BitVec 512) : (retireInQueue s l r).MemCanonical := by
  unfold retireInQueue
  extract_lets q held u
  have hu : u.MemCanonical := h
  clear_value u
  split
  · exact setDev_canonical hu _
  · exact hu

theorem recordWritten_canonical (l : Launch) (p : Word) (r : BitVec 512) (x : Report) :
    (if p = 0 then s else match writeRecord s l.ctx p r with | some s => s | none => s.report x).MemCanonical := by
  split
  · exact h
  · split
    next u hu => exact writeRecord_canonical h _ _ _ _ hu
    · exact report_canonical h _

theorem originRetired_canonical (lid : Nat) (l : Launch) (r : BitVec 512) :
    (match l.origin with
      | .queue => retireInQueue s l r
      | .child parent _ => s.modLaunch parent fun x => { x with children := x.children.erase lid }
      | .mailbox _ _ _ => s).MemCanonical := by
  split
  · exact retireInQueue_canonical h _ _
  · exact setLaunches_canonical h _ _
  · exact h

theorem launchRetire_canonical (lid : Nat) : Gives State.MemCanonical (launchRetire lid s) := by
  refine .bind_any fun l => .ite .none (.some ?_)
  have hd := recordWritten_canonical (writeBitmapStatus_canonical (setDev_canonical h { s.dev with devrseq := s.dev.devrseq + 1 }) l
    (if finalStatus l = 0x01 then 2 else 3)) l (recordPlace l) (completionRecord l (s.dev.devrseq + 1))
    { cls := 2, unit := 8, cause := 0x24, detail := BitVec.ofNat 64 (l.seq.toNat * 2 ^ 32 + l.queue % 64) }
  exact (freeSnapshots_canonical (originRetired_canonical hd lid l (completionRecord l (s.dev.devrseq + 1))) lid).of_mem rfl

/-! ## The log -/

theorem writeLog_canonical (x : Report) : (writeLog s x).MemCanonical := by
  unfold writeLog
  dsimp only
  split <;> exact h.of_mem rfl

theorem setLog_canonical (g : Log) : ({ s with log := g } : State).MemCanonical := h

theorem eventLogRecord_canonical : Gives State.MemCanonical (eventLogRecord s) := by
  unfold eventLogRecord
  split
  · exact .none
  · exact .ite (.some (writeLog_canonical (setLog_canonical h _) _)) .none

theorem coalescedWindowEnd_canonical (a b : BitVec 8) : Gives State.MemCanonical (coalescedWindowEnd a b s) := by
  unfold coalescedWindowEnd
  split
  · exact .none
  · exact .some (foldl_canonical (fun _ _ hu => closeWindow_canonical hu _) _ h)

theorem takeCheckpoint_canonical : Gives State.MemCanonical (takeCheckpoint s) := by
  refine .ite .none (.some ?_)
  exact h.of_mem rfl

theorem attQuote_canonical : (attQuote s).MemCanonical := by
  unfold attQuote formQuote
  dsimp only
  split <;> exact h.of_mem rfl

/-! ## Recovery -/

theorem ctxSuspend_canonical (c : BitVec 16) : (ctxSuspend c s).MemCanonical := h
theorem ctxResume_canonical (c : BitVec 16) : (ctxResume c s).MemCanonical := h

theorem freeOps_canonical (ops : List (Nat × Op)) :
    (ops.foldl (fun s o => freeLines { s with ops := SMap.del s.ops o.1 } o.1 o.2.locs) s).MemCanonical :=
  foldl_canonical (fun u o hu => freeLines_canonical (s := { u with ops := SMap.del u.ops o.1 }) hu _ _) _ h

theorem saveTeam_canonical (tid : Nat) : (saveTeam s tid).MemCanonical := by
  unfold saveTeam
  extract_lets u quiet
  have hu : u.MemCanonical := haltEngines_canonical h _
  clear_value u
  split
  · exact hu
  · extract_lets ops x' v
    have hv : v.MemCanonical := freeOps_canonical (writeBack_canonical hu _) _
    clear_value v
    exact hv.of_mem rfl

theorem preemptSave_canonical (tid : Nat) : Gives State.MemCanonical (preemptSave tid s) := by
  refine .bind_any fun t => .bind_any fun l => ?_
  dsimp only
  exact .ite .none (.ite .none (.ite .none (.some (foldl_canonical (fun _ _ hu => saveTeam_canonical hu _) _ h))))

theorem putBack_canonical (x : SavedTeam) (place : Nat) (fit : List (Nat × Nat)) : Gives State.MemCanonical (putBack s x place fit) := by
  unfold putBack
  extract_lets live slots gs src t u
  have hu : u.MemCanonical := h
  clear_value u
  exact .ite .none (foldlM_gives (fun _ _ hv => holdLines_canonical hv _) _ (dropLines_canonical hu _))

theorem failRestore_canonical (x : SavedTeam) (l : Launch) : (failRestore s x l).MemCanonical := by
  unfold failRestore
  split <;> exact h.of_mem rfl

theorem teamRestore_canonical (tid : Nat) : Gives State.MemCanonical (teamRestore tid s) := by
  refine .bind_any fun x => .bind_any fun l => .ite .none ?_
  dsimp only
  refine .ite (.some (failRestore_canonical h _ _)) (.bind_any fun p => .bind_any fun fit => .ite (putBack_canonical h _ _ _) ?_)
  exact .bind_any fun y => .bind (putBack_canonical h _ _ _) fun u hu => .bind_any fun q => .bind_any fun f => putBack_canonical hu _ _ _

theorem uncorrectableError_canonical (x : ErrSite) : Gives State.MemCanonical (uncorrectableError x s) := by
  unfold uncorrectableError
  extract_lets tag
  clear_value tag
  split
  · refine .ite (.some ?_) .none
    split <;> exact h.of_mem rfl
  · exact .bind_any fun _ => .ite .none (.some (h.of_mem rfl))
  · exact .bind_any fun _ => .ite .none (.some (h.of_mem rfl))
  · refine .bind_any fun l => .ite .none (.some ?_)
    split <;> exact h.of_mem rfl
  · exact .ite .none (.some (reportCorrected_canonical (setFree_canonical h _) _ _))
  · exact .bind_any fun _ => .ite .none (.some (h.of_mem rfl))

theorem snapshotCopy_canonical (page : Nat) : Gives State.MemCanonical (snapshotCopy page s) :=
  .bind_any fun x => .some (copySnapshot_canonical h x)

theorem discardRun_canonical (lid : Nat) : (discardRun s lid).MemCanonical := by
  unfold discardRun
  extract_lets gids s1 s2 ids
  have h2 : s2.MemCanonical := stopEngines_canonical (s := s1) h _ _
  clear_value s2
  exact h2.of_mem rfl

theorem setAllLaunches_canonical (xs : SMap Launch) : ({ s with launches := xs } : State).MemCanonical := h

theorem rollback_canonical (lid : Nat) : Gives State.MemCanonical (rollback lid s) := by
  refine .bind_any fun l => ?_
  refine .ite .none ?_
  refine .ite (.some ?_) (.some ?_)
  · refine foldl_canonical (fun u k hu => ?_) _ h
    exact setLaunches_canonical hu k _
  · refine setLaunch_canonical (report_canonical (setAllLaunches_canonical ?_ _) _) _ _
    refine foldl_canonical (fun u e hu => ?_) _ (foldl_canonical (fun u x hu => ?_) _ (foldl_canonical (fun u k hu => ?_) _ h))
    · split
      · exact putPage_canonical hu _ _ _ _ _
      · exact hu
    · split
      · exact putPage_canonical hu _ _ _ _ _
      · exact hu
    · exact discardRun_canonical hu k

theorem convoyMatch_canonical (gid : Nat) : Gives State.MemCanonical (convoyMatch gid s) := by
  refine .bind_any fun g => .bind_any fun t => .ite .none (.bind_any fun e => ?_)
  split
  · refine .some ?_
    split <;> exact h.of_mem rfl
  · exact .ite (.some (h.of_mem rfl)) .none
  · exact .ite (.some (h.of_mem rfl)) .none
  · exact .none

theorem returnToWaypoint_canonical (v : Convoy) : (returnToWaypoint s v).MemCanonical := by
  unfold returnToWaypoint
  extract_lets now mine engines s1 undo s2 posted s3 back
  have h1 : s1.MemCanonical := dropEngines_canonical h _ _
  clear_value s1
  have h3 : s3.MemCanonical := foldl_canonical (fun _ _ hu => putTeam_canonical hu _) _ (modConvoy_canonical h1 _ _)
  clear_value s3
  exact h3.of_mem rfl

theorem convoyMismatch_canonical (tid : Nat) : Gives State.MemCanonical (convoyMismatch tid s) := by
  refine .bind_any fun v => .bind_any fun a => .bind_any fun b => .bind_any fun l => ?_
  extract_lets s1 s2 set
  have h2 : s2.MemCanonical := h
  clear_value s2
  exact .ite (.some (h2.of_mem rfl)) (.some (modConvoy_canonical (returnToWaypoint_canonical h2 _) _ _))

theorem commitLogFull_canonical (tid : Nat) : Gives State.MemCanonical (commitLogFull tid s) := by
  refine .bind_any fun v => ?_
  dsimp only
  refine .ite .none (.ite .none ?_)
  split
  next u hu => exact .some (takeWaypoint_canonical h _ _ _ hu)
  · exact .some (h.of_mem rfl)

theorem assayerReplay_canonical (tid : Nat) : Gives State.MemCanonical (assayerReplay tid s) := by
  refine .bind_any fun x => .bind_any fun l => ?_
  dsimp only
  refine .ite .none (.some ?_)
  split <;> exact h.of_mem rfl

end Device
end Sys2Proof.Machine
end

