-- ==== Sys2Proof/Proofs/CanonicalEdge.lean ====
section
/-! The device's edge keeps the canonical form of memory: bias flips, page moves, resets, the host's accesses and registers. -/
namespace Sys2Proof.Machine

section Edge
variable {s : State} (h : s.MemCanonical)
include h

/-! ## Recalls and leaves -/

theorem recallLines_canonical (lines : List Nat) : (recallLines s lines).MemCanonical :=
  setFab_canonical (recallDirty_canonical h lines) _

theorem forgetCopies_canonical (line : Nat) : (forgetCopies s line).MemCanonical := by
  unfold forgetCopies
  split <;> exact h

theorem dropWaybills_canonical (lines : List Nat) : (dropWaybills s lines).MemCanonical := h

theorem changeLeaf_canonical (slot : Nat) (leaf : Word) (ctx : BitVec 16) (page : Nat) : (changeLeaf s slot leaf ctx page).MemCanonical :=
  setFab_canonical (writePhys_canonical h _ _ _) _

/-! ## Bias flips and page moves -/

theorem flipDone_canonical (err : Bool) (code : Nat) : (flipDone s err code).MemCanonical := h

theorem biasFlipStart_canonical (v : Word) : (biasFlipStart v s).MemCanonical := by
  unfold biasFlipStart
  extract_lets dev u
  have hu : u.MemCanonical := h
  clear_value u
  split
  · exact hu
  · split
    · exact setFab_canonical hu _
    · exact flipDone_canonical hu _ _

theorem biasFlipComplete_canonical : Gives State.MemCanonical (biasFlipComplete s) := by
  refine .bind_any fun x => ?_
  split
  split
  · refine .ite (.some (flipDone_canonical h _ _)) (.ite (.ite .none (.some ?_)) ?_)
    · exact flipDone_canonical (changeLeaf_canonical (hbmWritten_canonical (dropWaybills_canonical (recallLines_canonical h _) _) _ _) _ _ _ _) _ _
    · exact .ite .none (.ite (.some (flipDone_canonical h _ _)) (.some (flipDone_canonical (changeLeaf_canonical h _ _ _ _) _ _)))
  · exact .some (flipDone_canonical h _ _)

theorem migrationStart_canonical (v : Word) : (migrationStart v s).MemCanonical := by
  unfold migrationStart
  split
  · exact h
  · dsimp only
    split
    · exact setDev_canonical (setFab_canonical (writePhys_canonical h _ _ _) _) _
    · exact setDev_canonical h _

theorem lastCopied_canonical (slot : Option Nat) (n : Nat) : (match slot with
    | some slot => if n + 1 = 512 then writePhys s slot 8 (withMigration (leafAt s slot) 2).toNat else s
    | none => s).MemCanonical := by
  split
  · split
    · exact writePhys_canonical h _ _ _
    · exact h
  · exact h

theorem migrationLineCopy_canonical : Gives State.MemCanonical (migrationLineCopy s) := by
  refine .bind_any fun x => ?_
  split
  next ctx page old new n =>
    refine .ite .none ?_
    refine .ite .none (.some ?_)
    exact setFab_canonical (lastCopied_canonical (writeHome_canonical (dropWaybills_canonical (recallLines_canonical h _) _) _ _ _) _ _) _

theorem migrationComplete_canonical : Gives State.MemCanonical (migrationComplete s) := by
  refine .bind_any fun x => ?_
  split
  next ctx page old new n =>
    refine .ite .none (.some ?_)
    refine setDev_canonical (setFab_canonical ?_ _) _
    split
    · exact changeLeaf_canonical (setBoxes_canonical (recallLines_canonical h _) _) _ _ _ _
    · exact setBoxes_canonical (recallLines_canonical h _) _

/-! ## Bring-up -/

omit h in
theorem runSome_canonical {f : State → Option State} (hf : ∀ {u : State}, u.MemCanonical → Gives State.MemCanonical (f u)) :
    ∀ n {s : State}, s.MemCanonical → (runSome f n s).MemCanonical := by
  intro n
  induction n with
  | zero => exact id
  | succ n ih =>
    intro s h
    unfold runSome
    split
    next u hu => exact ih (hf h _ hu)
    · exact h

theorem finishPageWork_canonical : (finishPageWork s).MemCanonical := by
  have hr : (runSome biasFlipComplete 1 (runSome migrationComplete 1 (runSome migrationLineCopy 512 s))).MemCanonical :=
    runSome_canonical (fun hu => biasFlipComplete_canonical hu) _ (runSome_canonical (fun hu => migrationComplete_canonical hu) _
      (runSome_canonical (fun hu => migrationLineCopy_canonical hu) _ h))
  unfold finishPageWork
  dsimp only
  split
  · exact flipDone_canonical hr _ _
  · exact hr

theorem trainHost_canonical : (trainHost s).MemCanonical := h

theorem trainLinks_canonical : (trainLinks s).MemCanonical := by
  refine trainHost_canonical (foldl_canonical (fun u k hu => ?_) _ h)
  dsimp only
  split
  · exact hu
  · exact hu.of_mem rfl

theorem setWarm_canonical (n : Nat) (w : WarmSlot) : (s.setWarm n w).MemCanonical := h

theorem restageAll_canonical : (restageAll s).MemCanonical := by
  refine foldl_canonical (fun u e hu => ?_) _ h
  split
  · exact hu
  · exact (warmSlotStaged_canonical (setWarm_canonical hu _ _) _).getD hu

theorem openLog_canonical (first : Report) (measure : Bool) : (openLog first measure s).MemCanonical := by
  unfold openLog
  dsimp only
  split
  · exact setLog_canonical (writeLog_canonical (setLog_canonical h _) _) _
  · exact setLog_canonical h _

theorem requestRollback_canonical (lid : Nat) : (s.requestRollback lid).MemCanonical := h

theorem discardedAtReset_canonical (ran : Bool) (k : Nat) :
    (let s := discardRun (foldFpstat s k (groupsOf s k)) k
     let s := s.modLaunch k fun x => { x with rollback := false, requests := [], replaying := [] }
     if ran then fixStatus s k 0x07 else s).MemCanonical := by
  have hd := setLaunches_canonical (discardRun_canonical (foldFpstat_canonical h k (groupsOf s k)) k) k
    fun x => { x with rollback := false, requests := [], replaying := [] }
  dsimp only
  split
  · exact fixStatus_canonical hd _ _
  · exact hd

theorem settleAtReset_canonical (root : Nat) : (settleAtReset s root).MemCanonical := by
  unfold settleAtReset
  split
  · exact h
  · dsimp only
    split
    · exact (rollback_canonical (requestRollback_canonical h _) _).getD h
    · exact foldl_canonical (fun u k hu => discardedAtReset_canonical hu _ k) _ h

theorem settledAtReset_canonical (rs : List (Nat × Launch)) : (rs.foldl (fun s e => settleAtReset s e.1) s).MemCanonical :=
  foldl_canonical (fun _ e hu => settleAtReset_canonical hu e.1) _ h

theorem stageEffect_canonical (first : Report) (measure : Bool) (k : Nat) : (stageEffect first measure k s).MemCanonical := by
  unfold stageEffect
  split
  · split
    · exact h.of_mem rfl
    · exact h
  · exact h.of_mem rfl
  · exact trainLinks_canonical h
  · exact openLog_canonical h _ _
  · exact restageAll_canonical (finishPageWork_canonical (settledAtReset_canonical h _))
  · exact h

omit h in
theorem stages_canonical (first : Report) (measure : Bool) (n : Nat) :
    ∀ k {s : State}, s.MemCanonical → (stages first measure n k s).MemCanonical := by
  induction n with
  | zero => exact fun _ _ h => h
  | succ n ih =>
    intro k s h
    unfold stages
    split
    · exact setDev_canonical h _
    · exact ih _ (stageEffect_canonical (setDev_canonical h _) _ _ _)

theorem bringUp_canonical (first : Report) (measure : Bool) : (bringUp first measure s).MemCanonical :=
  setDev_canonical (stages_canonical _ _ _ _ (setDev_canonical h _)) _

theorem powerOn_canonical : Gives State.MemCanonical (powerOn s) := by
  refine .ite .none (.some ?_)
  exact bringUp_canonical (setDev_canonical h _) _ _

omit h in
theorem unpowered_canonical : (unpowered s).MemCanonical := resetInv

/-! ## Resets and lost parts -/

theorem deviceReset_canonical : (deviceReset s).MemCanonical := by
  unfold deviceReset
  extract_lets u v fab dev measure
  have hu : u.MemCanonical := haltEngines_canonical h _
  clear_value u
  have hv : v.MemCanonical := hu
  clear_value v
  exact bringUp_canonical (setDev_canonical (setFab_canonical hv _) _) _ _

theorem savedOnPart_canonical (p : Part) (x : SavedTeam) : (savedOnPart p x s).2.MemCanonical := by
  unfold savedOnPart
  split <;> exact h

theorem savedOnLost_canonical (p : Part) (es : List (Nat × SavedTeam)) : (es.foldl (fun (acc : Bool × State) e =>
    (acc.1 || (savedOnPart p e.2 acc.2).1, (savedOnPart p e.2 acc.2).2)) (false, s)).2.MemCanonical :=
  foldl_snd_canonical (fun _ e hx => savedOnPart_canonical hx p e.2) es h

theorem settleAtLoss_canonical (p : Part) (root : Nat) : (settleAtLoss p s root).MemCanonical := by
  unfold settleAtLoss
  split
  · exact h
  · dsimp only
    split
    · exact h
    · split
      · split
        · exact (rollback_canonical (requestRollback_canonical h _) _).getD h
        · exact h
      · split
        · exact fixStatuses_canonical (savedOnLost_canonical h p _) _ _
        · exact savedOnLost_canonical h p _

theorem dropTeams_canonical (p : Part) : (dropTeams p s).MemCanonical := by
  unfold dropTeams
  extract_lets ids gids u v
  have hu : u.MemCanonical := by
    refine foldl_canonical (fun u e hu => ?_) _ h
    split
    · exact foldFpstat_canonical hu _ _
    · exact hu
  clear_value u
  have hv : v.MemCanonical := stopEngines_canonical hu _ _
  clear_value v
  exact hv.of_mem rfl

theorem leaveRegions_canonical : (leaveRegions s).MemCanonical := h

theorem dropReticle_canonical (old : Device) (t : Fin 48) : (dropReticle old t s).MemCanonical := by
  refine setFab_canonical (foldl_canonical (fun u x hu => ?_) _ h) _
  exact setFab_canonical hu _

theorem partLost_canonical (p : Part) : Gives State.MemCanonical (partLost p s) := by
  refine .ite .none ?_
  extract_lets tag old s1 dev s2 s3
  have h3 : s3.MemCanonical := foldl_canonical (fun _ e hu => settleAtLoss_canonical hu p e.1) _ (setDev_canonical (s := s1) h _)
  clear_value s3
  split
  · exact .some (leaveRegions_canonical (dropReticle_canonical (dropTeams_canonical h3 _) _ _))
  · exact .some (setFab_canonical h3 _)
  · exact .some (setDev_canonical h3 _)
  · exact .some (setDev_canonical h3 _)

/-! ## The host's accesses and registers -/

theorem hostRecall_canonical (locs : List Nat) : (hostRecall s locs).MemCanonical := by
  unfold hostRecall
  split
  · exact recallLines_canonical h _
  · exact h

theorem hostBar2Access_canonical {off size : Nat} {data : Option Word} {t : State} (ht : execHostBar2Access off size data s = .next t) :
    t.MemCanonical := by
  unfold execHostBar2Access at ht
  extract_lets locs at ht
  clear_value locs
  split at ht
  · cases ht; exact h
  · split at ht
    · cases ht
    · split at ht
      · cases ht; exact h
      · split at ht
        · cases ht
          exact setDev_canonical (readLocs_canonical (hostRecall_canonical h _) _ _ _) _
        · cases ht
          exact writeHome_canonical (hostRecall_canonical (copyFor_canonical h _) _) _ _ _

theorem jibuegHostSnoop_canonical {line : Nat} {t : State} (ht : execJibuegHostSnoop line s = .next t) : t.MemCanonical :=
  event_canonical h (.ite (.some (forgetCopies_canonical (recallLines_canonical h _) _)) .none) ht

theorem pwrcapWrite_canonical (n : Nat) (v : Word) : (pwrcapWrite n v s).MemCanonical := h

theorem assayctlWrite_canonical (v : Word) : (assayctlWrite v s).MemCanonical := by
  unfold assayctlWrite
  split <;> exact h

theorem irqcauseClear_canonical (v : Word) : (irqcauseClear v s).MemCanonical := h

theorem qtailWrite_canonical (k : Nat) (v : BitVec 32) : (qtailWrite k v s).MemCanonical := h
theorem qcackWrite_canonical (k : Nat) (v : BitVec 32) : (qcackWrite k v s).MemCanonical := h
theorem qstatClear_canonical (k : Nat) : (qstatClear k s).MemCanonical := h

theorem queueWrite_canonical (k off : Nat) (v : Word) : (queueWrite k off v s).MemCanonical := by
  unfold queueWrite
  split
  · split
    · exact h
    · exact setQueue_canonical h _ _
  · exact qctlWrite_canonical h _ _
  · exact qtailWrite_canonical h _ _
  · exact qcackWrite_canonical h _ _
  · split
    · exact qstatClear_canonical h _
    · exact h
  · exact h

theorem warmPointer_canonical (n : Nat) (v : Word) : (warmPointer n v s).MemCanonical := by
  unfold warmPointer
  split
  next t ht => exact warmSlotImageWrite_canonical h ht
  · exact h

theorem logAckWrite_canonical (v : Word) : (logAckWrite v s).MemCanonical := setDev_canonical h _

theorem suspendWrite_canonical (v : Word) : (
    let c : BitVec 16 := v.extractLsb' 48 16
    let s := s.setDev { s.dev with suspId := c }
    let s := if v.getLsbD 0 then ctxSuspend c s else s
    if v.getLsbD 1 then ctxResume c s else s).MemCanonical := by
  dsimp only
  split <;> split <;> exact h.of_mem rfl

theorem edgeWrite_canonical (off : Nat) (v : Word) : (edgeWrite off v s).MemCanonical := by
  unfold edgeWrite
  extract_lets d
  split
  case h_3 => exact biasFlipStart_canonical h v
  case h_7 => exact migrationStart_canonical h v
  case h_8 => exact suspendWrite_canonical h v
  case h_9 => exact assayctlWrite_canonical h v
  case h_11 => exact logAckWrite_canonical h v
  case h_12 =>
    split
    · exact (takeCheckpoint_canonical h).getD h
    · exact h
  case h_15 => exact irqcauseClear_canonical h v
  case h_16 =>
    split
    · exact setDev_canonical h _
    · exact h
  case h_17 =>
    split
    · exact deviceReset_canonical h
    · exact h
  case h_19 =>
    split
    · exact setDev_canonical h _
    · split
      · exact setDev_canonical h _
      · split
        · exact pwrcapWrite_canonical h _ _
        · exact h
  all_goals exact setDev_canonical h _

theorem coldBoxes_canonical (k : Option Nat) : (coldBoxes s k).MemCanonical := h

theorem registerWrite_canonical (off : Nat) (v : Word) : (registerWrite off v s).MemCanonical := by
  unfold registerWrite
  split
  · exact h
  · split
    · exact queueWrite_canonical h _ _ _
    · split
      · dsimp only
        split
        · exact warmPointer_canonical h _ _
        · refine setWarm_canonical ?_ _ _
          split
          · exact h
          · exact coldBoxes_canonical h _
      · exact edgeWrite_canonical h _ _

end Edge
end Sys2Proof.Machine
end

