-- ==== Sys2Proof/Proofs/CanonicalSteps.lean ====
section
/-! Every instruction and every step keeps the canonical form of memory. -/
namespace Sys2Proof.Machine

/-- An instruction of the memory class: it reaches memory, the scratchpad or the tables. -/
def onMemory : Instr → Bool
  | .ld _ | .ldu _ | .st _ | .stu _ | .atom _ | .atomu _ | .ldfe _ | .stfe _ | .bufstRecord _ | .bufstBuffer _ | .pref _
  | .vdec _ | .venc _ | .fence _ | .flushl _ | .invl _ | .subscr _ => true
  | _ => false

/-- An instruction of the engine, matrix and system classes. -/
def onEngine : Instr → Bool
  | .bcopy _ | .stream _ _ _ | .sclose _ _ | .barw _ _ _ _ | .bara _ _ _ _ _ | .tbar _ | .coll _ _ | .launch _ _ _
  | .mboxBind _ _ _ | .mboxUnbind _ _ _ | .mboxCount _ _ _ | .depsig _ | .waypt _ | .mldb _ _ _ _ | .mma _ | .mzero _ _
  | .mrd _ _ _ _ _ _ _ | .mwr _ _ _ _ _ | .mst _ | .mwait _ _ | .sread _ _ | .swrite _ _ | .trap _ | .rftRetry | .rftNext
  | .rftAbort | .mappg _ _ _ _ | .tlbinvPage _ _ | .tlbinvContext _ _ | .ctxsv _ _ => true
  | _ => false

section Exec
variable {s : State} (h : s.MemCanonical)
include h

/-! ## Control instructions -/

theorem tokenIf_canonical {t : State} (ht : execTokenIf s = .next t) : t.MemCanonical :=
  runControl_canonical h (fun c => (notInHandler_canonical c).bind fun _ _ => tokenThen_canonical h c _) ht

theorem jump_canonical (c : Ctx) (g : Group) (a : BitVec 32) : (c.jump g a s).MemCanonical := h

theorem brx_canonical {x : Spec} {t : State} (ht : execBrx x s = .next t) : t.MemCanonical := by
  refine runControl_canonical h (fun c => ?_) ht
  refine (dispatchEntry_canonical c x).bind fun j _ => (checkTarget_canonical c j).bind fun a _ => ?_
  exact jump_canonical h c _ _

theorem callx_canonical {cond : Spec} {n : BitVec 4} {x : Spec} {t : State} (ht : execCallx cond n x s = .next t) : t.MemCanonical :=
  runControl_canonical h (fun c => (guardOp_canonical _).bind fun _ _ => callTo_canonical h c cond n (dispatchEntry_canonical c x)) ht

theorem ret_canonical {t : State} (ht : execRet s = .next t) : t.MemCanonical := by
  refine runControl_canonical h (fun c => ?_) ht
  refine (notInHandler_canonical c).bind fun _ _ => (innermost_canonical h c).bind fun o _ => ?_
  split
  · split
    · exact settlePaths_canonical h c _ _ _
    · trivial
  · trivial

theorem yield_canonical {t : State} (ht : execYield s = .next t) : t.MemCanonical := by
  refine runControl_canonical h (fun c => ?_) ht
  refine (notInHandler_canonical c).bind fun _ _ => (innerIf_canonical h c).bind fun o _ => ?_
  split
  · split <;> exact h
  · exact h

theorem wsyncWait_canonical {t : State} (ht : execWsyncWait s = .next t) : t.MemCanonical := by
  refine runInstr_canonical h (fun c => ?_) ht
  refine (notInHandler_canonical c).bind fun _ _ => ?_
  split
  · exact waitPorter_canonical h c
  · exact h

theorem wsyncWb_canonical {t : State} (ht : execWsyncWb s = .next t) : t.MemCanonical := by
  refine runInstr_canonical h (fun c => ?_) ht
  refine (notInHandler_canonical c).bind fun _ _ => ?_
  split
  · exact waitPorter_canonical (setGroup_canonical h _ _) c
  · split
    · exact waitPorter_canonical h c
    · exact setGroup_canonical h _ _

theorem winfo_canonical {item : WItem} {d : Spec} {t : State} (ht : execWinfo item d s = .next t) : t.MemCanonical := by
  refine runInstr_canonical h (fun c => ?_) ht
  split
  · exact setGroup_canonical h _ _
  · trivial

theorem pauseFor_canonical (c : Ctx) (n : BitVec 16) (recv : Bool) : (pauseFor n recv c s).All State.MemCanonical := setGroup_canonical h _ _

/-! ## Instructions -/

theorem exec_outside_canonical {i : Instr} {t : State} (hi : isOutside i = true)
    (ht : exec i s = .next t) : t.MemCanonical := by
  cases i with
  | qtailWrite q v => cases ht; exact qtailWrite_canonical h _ _
  | qctlEnable q v => cases ht; exact qctlWrite_canonical h _ _
  | abortHead q => cases ht; exact abortHead_canonical h _
  | rewrite q => cases ht; exact rewriteHeld_canonical h _
  | qcackWrite q v => cases ht; exact qcackWrite_canonical h _ _
  | qstatClearStopped q => cases ht; exact qstatClear_canonical h _
  | warmSlotImageWrite n p => exact warmSlotImageWrite_canonical h ht
  | mailboxFiring b => exact event_canonical h (mailboxFiring_canonical h _) ht
  | atomicRepeatPathLost k => exact event_canonical h (atomicRepeatPathLost_canonical h _) ht
  | l1WriteBack c n => exact event_canonical h (l1WriteBack_canonical h _ _) ht
  | retentionEntry a => exact event_canonical h (retentionEntry_canonical h _) ht
  | linkRetry l => cases ht; exact reportCorrected_canonical h _ _
  | linkStateChange l st => cases ht; exact Gives.getD (.ite .none (.some (setDev_canonical h _))) h
  | ctxsuspSuspend c => cases ht; exact ctxSuspend_canonical h _
  | ctxsuspResume c => cases ht; exact ctxResume_canonical h _
  | uncorrectableError x => exact event_canonical h (uncorrectableError_canonical h _) ht
  | ckptcmdCheckpoint => exact event_canonical h (takeCheckpoint_canonical h) ht
  | attcmdQuote => cases ht; exact attQuote_canonical h
  | biasFlipStart v => cases ht; exact biasFlipStart_canonical h _
  | migrationStart v => cases ht; exact migrationStart_canonical h _
  | devrstReset => cases ht; exact Gives.getD (.ite (.some (deviceReset_canonical h)) .none) h
  | powerOn => exact event_canonical h (powerOn_canonical h) ht
  | powerLoss | thermalShutdown => cases ht; exact Gives.getD (.ite (.some unpowered_canonical) .none) h
  | partLost p => exact event_canonical h (partLost_canonical h _) ht
  | hostPortReturn => cases ht; exact Gives.getD (.ite (.some (trainHost_canonical (setDev_canonical h _))) .none) h
  | thermalThrottle r => cases ht; exact Gives.getD (.ite .none (.some (setDev_canonical h _))) h
  | hostBar2Access off n x => exact hostBar2Access_canonical h ht
  | jibuegHostSnoop n => exact jibuegHostSnoop_canonical h ht
  | jibuegNegotiation up => cases ht; exact Gives.getD (.ite (.some (setDev_canonical h _)) .none) h
  | pwrcapWrite r v => cases ht; exact pwrcapWrite_canonical h _ _
  | assayctlWrite v => cases ht; exact assayctlWrite_canonical h _
  | irqcauseClear v => cases ht; exact irqcauseClear_canonical h _
  | registerWrite off v => cases ht; exact registerWrite_canonical h _ _
  | _ => cases hi

theorem exec_control_canonical {i : Instr} {t : State} (hi : i.isControl = true)
    (ht : exec i s = .next t) : t.MemCanonical := by
  cases i with
  | nop => exact runInstr_canonical h (body := fun _ s => .ok s) (fun _ => h) ht
  | bra sub cond t => exact runControl_canonical h (fun c => braTo_canonical h c _ _ _) ht
  | brd cond t => exact runControl_canonical h (fun c => brdTo_canonical h c _ _) ht
  | tokenIf => exact tokenIf_canonical h ht
  | tokenLoop t => exact runControl_canonical h (fun c => tokenLoop_canonical h c _) ht
  | joinIf t => exact runControl_canonical h (fun c => joinIf_canonical h c _) ht
  | joinLoop cond t => exact runControl_canonical h (fun c => joinLoop_canonical h c _ _) ht
  | brk cond | cont cond => exact runControl_canonical h (fun c => leaveLoop_canonical h c _ _) ht
  | brx x => exact brx_canonical h ht
  | call cond n j => exact runControl_canonical h (fun c => callTo_canonical h c _ _ (target := fun c => .ok (c.target j)) trivial) ht
  | callx cond n x => exact callx_canonical h ht
  | ret => exact ret_canonical h ht
  | exit cond => exact runControl_canonical h (fun c => exitLanes_canonical h c _) ht
  | yield => exact yield_canonical h ht
  | wsyncWait => exact wsyncWait_canonical h ht
  | wsyncWb => exact wsyncWb_canonical h ht
  | winfo item d => exact winfo_canonical h ht
  | pauseTime n | pauseRecv n => exact runControl_canonical h (fun c => pauseFor_canonical h c _ _) ht
  | _ => cases hi

theorem exec_onMemory_canonical {i : Instr} {t : State} (hi : onMemory i = true)
    (ht : exec i s = .next t) : t.MemCanonical := by
  cases i with
  | ld f | ldu f => exact runInstr_canonical h (fun c => loadBody_canonical h _ _ _ _ c) ht
  | st f | stu f => exact runInstr_canonical h (fun c => storeBody_canonical h _ _ _ c) ht
  | atom f | atomu f => exact runInstr_canonical h (fun c => atomBody_canonical h _ _ _ c) ht
  | ldfe f => exact ldfe_canonical h ht
  | stfe f => exact stfe_canonical h ht
  | bufstRecord f => exact bufstRecord_canonical h ht
  | bufstBuffer f => exact bufstBuffer_canonical h ht
  | pref f => exact pref_canonical h ht
  | vdec f => exact vdec_canonical h ht
  | venc f => exact venc_canonical h ht
  | fence f => exact runInstr_canonical h (fun c => fenceBody_canonical h _ c) ht
  | flushl f | invl f => exact runInstr_canonical h (fun c => flushBody_canonical h _ _ _ _ c) ht
  | subscr f => exact subscr_canonical h ht
  | _ => cases hi

theorem exec_onEngine_canonical {i : Instr} {t : State} (hi : onEngine i = true)
    (ht : exec i s = .next t) : t.MemCanonical := by
  cases i with
  | bcopy f => exact bcopy_canonical h ht
  | stream a n fb => exact stream_canonical h ht
  | sclose n fb => exact sclose_canonical h ht
  | barw a p sc fb => exact barw_canonical h ht
  | bara d a n sc fb => exact bara_canonical h ht
  | tbar fb => exact tbar_canonical h ht
  | coll a fb => exact coll_canonical h ht
  | launch d a fb => exact launch_canonical h ht
  | mboxBind d a p => exact mboxBind_canonical h ht
  | mboxUnbind d a p => exact mboxUnbind_canonical h ht
  | mboxCount d a p => exact mboxCount_canonical h ht
  | depsig fb => exact depsig_canonical h ht
  | waypt fb => exact waypt_canonical h ht
  | mldb a b fmt fb => exact mldb_canonical h ht
  | mma f => exact mma_canonical h ht
  | mzero b fb => exact mzero_canonical h ht
  | mrd d a b ty rnd sat fb => exact mrd_canonical h ht
  | mwr a b c ty fb => exact mwr_canonical h ht
  | mst f => exact mst_canonical h ht
  | mwait b fb => exact mwait_canonical h ht
  | sread d n => exact sread_canonical h ht
  | swrite a n => exact swrite_canonical h ht
  | trap imm => exact trap_canonical h ht
  | rftRetry | rftNext => exact rft_canonical h ht
  | rftAbort => exact rftAbort_canonical h ht
  | mappg d a b fb => exact mappgInstr_canonical h ht
  | tlbinvPage a fb | tlbinvContext a fb => exact tlbinv_canonical h ht
  | ctxsv a fb => exact ctxsv_canonical h ht
  | _ => cases hi

/-- The lane operations that `aluRow` does not list, and the device's own steps. -/
theorem exec_rest_canonical {i : Instr} {t : State}
    (hi : (isOutside i || i.isControl || (Claims.aluRow i).isSome || onMemory i || onEngine i) = false)
    (ht : exec i s = .next t) : t.MemCanonical := by
  cases i with
  | cmp f | fcmp f => exact runComparison_canonical h ht
  | sel f => exact sel_canonical h ht
  | lea f => exact lea_canonical h ht
  | qcvt f | dqcvt f => exact quantise_canonical h ht
  | qscale f => exact qscale_canonical h ht
  | shfl f => exact shfl_canonical h ht
  | vote f => exact vote_canonical h ht
  | redux f => exact redux_canonical h ht
  | scan f => exact scan_canonical h ht
  | elect f => exact elect_canonical h ht
  | bcast f => exact bcast_canonical h ht
  | setlane f => exact setlane_canonical h ht
  | queueSlotAccept q => exact event_canonical h (queueSlotAccept_canonical h _) ht
  | regionLoad l => exact event_canonical h (regionLoad_canonical h _) ht
  | regionRelease r => exact event_canonical h (regionRelease_canonical h _) ht
  | warmSlotStaged n => exact event_canonical h (warmSlotStaged_canonical h _) ht
  | teamDispatch l => exact event_canonical h (teamDispatch_canonical h _) ht
  | clauseIssue g => exact event_canonical h (clauseIssue_canonical h _) ht
  | clauseResume g => exact event_canonical h (clauseResume_canonical h _) ht
  | endLaunch l => exact event_canonical h (endLaunch_canonical h _) ht
  | instructionComplete k => exact event_canonical h (instructionComplete_canonical h _) ht
  | launchRetire l => exact event_canonical h (launchRetire_canonical h _) ht
  | handlerLaunch b => exact event_canonical h (handlerLaunch_canonical h _) ht
  | pauseExpiry g => exact event_canonical h (pauseExpiry_canonical h _) ht
  | fenceLinkTimeout g => exact event_canonical h (fenceLinkTimeout_canonical h _) ht
  | bcopyFirstBeat k => exact event_canonical h (bcopyFirstBeat_canonical h _) ht
  | bcopyComplete k => exact event_canonical h (bcopyComplete_canonical h _) ht
  | bcopyFault k => exact event_canonical h (bcopyFault_canonical h _) ht
  | outriderFetch g n => exact event_canonical h (outriderFetch_canonical h _ _) ht
  | collComplete k => exact event_canonical h (collComplete_canonical h _) ht
  | collFault k => exact event_canonical h (collFault_canonical h _) ht
  | mldbComplete k => exact event_canonical h (mldbComplete_canonical h _) ht
  | mldbFault k => exact event_canonical h (mldbFault_canonical h _) ht
  | mmaWriteback k => exact event_canonical h (mmaWriteback_canonical h _) ht
  | mmaFault k => exact event_canonical h (mmaFault_canonical h _) ht
  | porterSpill g => exact event_canonical h (porterSpill_canonical h _) ht
  | porterRefill g => exact event_canonical h (porterRefill_canonical h _) ht
  | tokenSpill g => exact event_canonical h (tokenSpill_canonical h _) ht
  | tokenReadback g => exact event_canonical h (tokenReadback_canonical h _) ht
  | tlbWalk r => exact event_canonical h (tlbWalk_canonical h _) ht
  | requestAtHome k => exact event_canonical h (requestAtHome_canonical h _) ht
  | refusalRetry k => exact event_canonical h (refusalRetry_canonical h _) ht
  | atomicRepeatTimeout k => exact event_canonical h (atomicRepeatTimeout_canonical h _) ht
  | l1Invalidation c n => exact event_canonical h (l1Invalidation_canonical h _ _) ht
  | subscriberLineInstall c n => exact event_canonical h (subscriberLineInstall_canonical h _ _) ht
  | droverMigration r n => exact event_canonical h (droverMigration_canonical h _ _) ht
  | retentionExit a => exact event_canonical h (retentionExit_canonical h _) ht
  | flitDelivery k => exact event_canonical h (flitDelivery_canonical h _) ht
  | creditGrant g p => exact event_canonical h (creditGrant_canonical h _ _) ht
  | peerAccessTimeout k => exact event_canonical h (peerAccessTimeout_canonical h _) ht
  | endRequestArrival l => exact event_canonical h (endRequestArrival_canonical h _) ht
  | preemptSave t => exact event_canonical h (preemptSave_canonical h _) ht
  | teamRestore t => exact event_canonical h (teamRestore_canonical h _) ht
  | snapshotCopy p => exact event_canonical h (snapshotCopy_canonical h _) ht
  | rollback l => exact event_canonical h (rollback_canonical h _) ht
  | convoyMatch g => exact event_canonical h (convoyMatch_canonical h _) ht
  | convoyMismatch t => exact event_canonical h (convoyMismatch_canonical h _) ht
  | commitLogFull t => exact event_canonical h (commitLogFull_canonical h _) ht
  | assayerReplay t => exact event_canonical h (assayerReplay_canonical h _) ht
  | eventLogRecord => exact event_canonical h (eventLogRecord_canonical h) ht
  | checkpoint => cases ht; exact Gives.getD (.ite (takeCheckpoint_canonical h) .none) h
  | biasFlipComplete => exact event_canonical h (biasFlipComplete_canonical h) ht
  | migrationLineCopy => exact event_canonical h (migrationLineCopy_canonical h) ht
  | migrationComplete => exact event_canonical h (migrationComplete_canonical h) ht
  | coalescedWindowEnd u c => exact event_canonical h (coalescedWindowEnd_canonical h _ _) ht
  | _ => cases hi

theorem exec_canonical {i : Instr} {t : State} (ht : exec i s = .next t) : t.MemCanonical := by
  cases hi : isOutside i || i.isControl || (Claims.aluRow i).isSome || onMemory i || onEngine i with
  | false => exact exec_rest_canonical h hi ht
  | true =>
    simp only [Bool.or_eq_true] at hi
    obtain (((ho | hc) | ha) | hm) | he := hi
    · exact exec_outside_canonical h ho ht
    · exact exec_control_canonical h hc ht
    · obtain ⟨r, hr⟩ := Option.isSome_iff_exists.mp ha
      rw [exec_of_aluRow hr] at ht
      exact runElementwise_canonical h ht
    · exact exec_onMemory_canonical h hm ht
    · exact exec_onEngine_canonical h he ht

/-! ## Steps -/

theorem Row.before_canonical (r : Row) : (r.before s).MemCanonical := by
  unfold Row.before
  split <;> exact h.of_mem rfl

theorem afterRow_canonical (s' : State) : (afterRow s' s).MemCanonical := by
  unfold afterRow
  extract_lets u ready
  have hu : u.MemCanonical := by
    dsimp only [u]
    split
    · exact retrigger_canonical (settleTeams_canonical h)
    · exact h
  clear_value u
  exact hu.of_mem rfl

omit h in
/-- What follows a row keeps the form where the row does. -/
theorem finishRow_canonical {o : Host.Outcome State Fault Refusal} {t : State} (ho : ∀ u, o = .next u → u.MemCanonical)
    (ht : finishRow s o = .next t) : t.MemCanonical := by
  cases o with
  | next u =>
    cases ht
    exact afterRow_canonical (ho u rfl) s
  | fault => cases ht
  | refused => cases ht

theorem ownStep_canonical {t : State} (ht : ownStep s = .next t) : t.MemCanonical := by
  unfold ownStep at ht
  split at ht
  next r _ => exact finishRow_canonical (fun u hu => exec_canonical (Row.before_canonical h r) hu) ht
  · refine finishRow_canonical (fun u hu => ?_) ht
    cases hu
    exact h

theorem setInputs_canonical (xs : List Instr) : ({ s with inputs := xs } : State).MemCanonical := h

theorem nextStep_canonical {t : State} (ht : nextStep s = .next t) : t.MemCanonical := by
  unfold nextStep at ht
  split at ht
  next i _ =>
    split at ht
    · exact ownStep_canonical h ht
    · refine finishRow_canonical (fun u hu => ?_) ht
      split at hu
      · exact exec_canonical (setInputs_canonical h _) hu
      · cases hu
        exact setInputs_canonical h _
  · exact ownStep_canonical h ht

end Exec

/-- Settles O8: memory is written at home, zeroed, replaced or lost with the power, and each of these keeps the form; a step is
a row, or an input, and what the step does after it. -/
theorem stepKeepsMemoryCanonical : Obligations.StepKeepsMemoryCanonical := by
  intro s t h ht
  exact nextStep_canonical h ht

end Sys2Proof.Machine
end

