-- ==== Sys2Proof/Proofs/BufferTables.lean ====
section
/-! BUFST (R237, R280): what its two forms load, and their misaligned pointers. -/
namespace Sys2Proof.Machine

section
variable {s s1 s2 : State} {c : Ctx} {f : MForm} {n : Fin 64} {bs : List Byte} (hi : Issues s c) (hf : f.addr = .s n)
include hi hf

theorem bufstRecord_misaligned (hr : f.recIx ≠ 0) (ha : (c.g.readS n.val).toNat % 8 ≠ 0) :
    exec (.bufstRecord f) s = .next (c.takeTrap
      { cause := 0x0E, addr := reportAddr (c.who s).stackBase c.g.stackSlot (c.g.readS n.val).toNat } (c.settled s)) := by
  refine exec_next_trap hi (body := fun c s => _) rfl ?_
  have hg : (f.recIx != 0#6) = true := bne_iff_ne.mpr hr
  simp [addrS, hf, hg, ha, Cause.alignment]

theorem bufstRecord_loads (hr : f.recIx ≠ 0) (ha : (c.g.readS n.val).toNat % 8 = 0) (hq : acquirePending s c.gid = false)
    (h1 : completeAtOnce c (.bufstRecord f) s = .ok s1) (h2 : readStruct c (.bufstRecord f) .i (c.g.readS n.val) 40 s1 = .ok (bs, s2)) :
    exec (.bufstRecord f) s = .next (c.done (s2.modTeam c.g.team fun t =>
      { t with records := SMap.set 0 t.records f.recIx.toNat (BitVec.ofNat 320 (leNat bs)) })) := by
  refine exec_next_done hi (body := fun c s => _) rfl ?_
  have hg : (f.recIx != 0#6) = true := bne_iff_ne.mpr hr
  simp [addrS, hf, hg, ha, afterAcquire, hq, h1, h2]

theorem bufstBuffer_misaligned (hr : f.recIx.toNat < 16) (ha : (c.g.readS n.val).toNat % 16 ≠ 0) :
    exec (.bufstBuffer f) s = .next (c.takeTrap
      { cause := 0x0E, addr := reportAddr (c.who s).stackBase c.g.stackSlot (c.g.readS n.val).toNat } (c.settled s)) := by
  refine exec_next_trap hi (body := fun c s => _) rfl ?_
  simp [addrS, hf, hr, ha, Cause.alignment]

omit hi hf in
theorem two_bits (k : BitVec 2) : k = 0 ∨ k = 1 ∨ k = 2 ∨ k = 3 := by
  revert k
  decide

theorem bufstBuffer_declares (hr : f.recIx.toNat < 16) (ha : (c.g.readS n.val).toNat % 16 = 0) (hq : acquirePending s c.gid = false)
    (he : engineOn s c.g.team c.t.place (fun x => match SMap.entry? c.t.bufs f.recIx.toNat with
      | some b => decide ((bufRange b.desc).1 ≤ x) && decide (x < (bufRange b.desc).1 + (bufRange b.desc).2)
      | none => false) = false)
    (h1 : completeAtOnce c (.bufstBuffer f) s = .ok s1) (h2 : readStruct c (.bufstBuffer f) .i (c.g.readS n.val) 16 s1 = .ok (bs, s2))
    (ho : bufOk c.t f.recIx.toNat (BitVec.ofNat 128 (leNat bs)) = true) :
    exec (.bufstBuffer f) s = .next (c.done (s2.modTeam c.g.team fun t =>
      let d := BitVec.ofNat 128 (leNat bs)
      let st := [BufState.empty, .filling, .full, .draining].getD (d.extractLsb' 97 2).toNat .empty
      { t with bufs := if d.getLsbD 96 then SMap.put t.bufs f.recIx.toNat { desc := d, state := st } else SMap.del t.bufs f.recIx.toNat })) := by
  refine exec_next_done hi (body := fun c s => _) rfl ?_
  cases hb : SMap.entry? c.t.bufs f.recIx.toNat <;> simp only [hb] at he <;>
    obtain hk | hk | hk | hk := two_bits ((BitVec.ofNat 128 (leNat bs)).extractLsb' 97 2) <;>
    simp [addrS, hf, hr, ha, afterAcquire, hq, h1, h2, ho, hb, he, hk, -BitVec.extractLsb'_toNat]
end

/-- Settles O35: each form reads its structure at the aligned pointer and stores it, or traps before anything else is done. -/
theorem tablesLoaded : Obligations.TablesLoaded := by
  intro s s1 s2 c f n bs hi hf
  refine ⟨fun hr => ⟨bufstRecord_misaligned hi hf hr, bufstRecord_loads hi hf hr⟩,
    fun hr => ⟨bufstBuffer_misaligned hi hf hr, fun ha hq he h1 h2 d hd ho => ?_⟩⟩
  subst hd
  exact bufstBuffer_declares hi hf hr ha hq he h1 h2 ho

end Sys2Proof.Machine
end

