-- ==== Sys2Proof/Proofs/Fences.lean ====
section
/-! FENCE (R287): releases, what a fence does once its obligations are met, and the trap of a system fence whose writes stay
unacknowledged. -/
namespace Sys2Proof.Machine

/-! ## Releases -/

theorem unreleased_eq_true {s : State} {gid : Nat} (h : s.pendingOps gid ≠ [] ∨ ∃ e ∈ s.groupOps gid, postedOpen s e.2 = true) :
    unreleased s gid = true := by
  simp only [unreleased, Bool.or_eq_true, List.any_eq_true]
  exact h.imp (by simp) id

theorem unreleased_eq_false {s : State} {gid : Nat} (hp : s.pendingOps gid = []) (hw : ∀ e ∈ s.groupOps gid, postedOpen s e.2 = false) :
    unreleased s gid = false := by
  simpa [unreleased, hp] using hw

theorem release_unreleased {s : State} {c : Ctx} (fence : Bool) (sc : Scope) (h : unreleased s c.gid = true) :
    release c fence sc s = .error (.wait s) := by
  simp [release, h]

theorem release_notReady {s : State} {c : Ctx} (fence : Bool) {sc : Scope} (h : releaseReady s c.t.place sc = false) :
    release c fence sc s = .error (.wait s) := by
  simp [release, h]

/-- A release that is ready is made, and waits for the invalidations that it caused where its scope says so. -/
theorem release_ready {s : State} {c : Ctx} {fence : Bool} {sc : Scope} (hu : unreleased s c.gid = false)
    (hr : releaseReady s c.t.place sc = true) : release c fence sc s =
      if (Scope.global sc || (fence && Scope.wide sc)) && invalidationsPending (releaseAt s c.t.place sc) then
        .error (.wait (releaseAt s c.t.place sc)) else .ok (releaseAt s c.t.place sc) := by
  simp [release, hu, hr]

theorem release_cases (s : State) (c : Ctx) (fence : Bool) (sc : Scope) :
    (s.pendingOps c.gid ≠ [] ∨ (∃ e ∈ s.groupOps c.gid, postedOpen s e.2 = true) → release c fence sc s = .error (.wait s)) ∧
    (s.pendingOps c.gid = [] → (∀ e ∈ s.groupOps c.gid, postedOpen s e.2 = false) →
      (releaseReady s c.t.place sc = false → release c fence sc s = .error (.wait s)) ∧
      (releaseReady s c.t.place sc = true →
        let awaited := Scope.global sc = true ∨ fence = true ∧ Scope.wide sc = true
        let t := releaseAt s c.t.place sc
        (¬ awaited ∨ invalidationsPending t = false → release c fence sc s = .ok t) ∧
        (awaited → invalidationsPending t = true → release c fence sc s = .error (.wait t)))) := by
  refine ⟨fun h => release_unreleased fence sc (unreleased_eq_true h), fun hp hw => ⟨fun hr => release_notReady fence hr, fun hr => ?_⟩⟩
  rw [release_ready (unreleased_eq_false hp hw) hr]
  constructor
  · rintro (ha | hi)
    · rw [if_neg]
      simp only [Bool.and_eq_true, Bool.or_eq_true]
      exact fun h => ha h.1
    · simp [hi]
  · intro ha hi
    rw [if_pos]
    simp only [Bool.and_eq_true, Bool.or_eq_true]
    exact ⟨ha, hi⟩

/-! ## The end of a fence -/

/-- A fence leaves the release that it made, for the group's next strong store or atomic to complete. -/
def Ctx.fenceEnded (c : Ctx) (f : MForm) (s : State) : State := s.modGroup c.gid fun g =>
  { g with fenceStart := none, fenceRel := if f.ord == .release || f.ord == .acqRel then some f.scope else g.fenceRel }

/-- What FENCE does with its obligations met: at system scope it also waits for posted writes, and traps where they stay. -/
def fenceEnd (f : MForm) (c : Ctx) (s : State) : Res State :=
  if f.scope = .system then
    if 0 < unacknowledged s c.gid then
      if unreachableWrite s c.gid || fenceLate s c.gid then
        .error (.trapIn { cause := Cause.fenceUnreachable, addr := BitVec.ofNat 64 (unacknowledged s c.gid) } (c.fenceEnded f s))
      else .error (.wait s)
    else do
      let (_, s) ← performOnce c (c.sig (.fence f) []) (fun s => .ok ([], s)) s
      completeAtOnce c (.fence f) (c.fenceEnded f s)
  else completeAtOnce c (.fence f) (c.fenceEnded f s)

/-- Counting the cycles of a fence touches no operation. -/
theorem acquirePending_startFence (c : Ctx) (s : State) : acquirePending (startFence c s) c.gid = acquirePending s c.gid := by
  unfold startFence
  split <;> rfl

/-- The state in which a fence's own obligations are met. -/
def fenceMet (f : MForm) (c : Ctx) (s : State) : State :=
  if f.ord = .acquire ∨ f.ord = .acqRel then acquireAt s c.gid c.t.place f.scope else s

section
variable {s s0 s1 : State} {c : Ctx} {f : MForm}

theorem fenceBody_of_met (ha : acquirePending s c.gid = false) {u : State} (hu : u = if f.scope = .system then startFence c s else s)
    (hr : (f.ord == .release || f.ord == .acqRel) = true → release c true f.scope u = .ok s0)
    (hl : (f.ord == .release || f.ord == .acqRel) = false → (u.pendingOps c.gid).any (fun e => isLoadOp e.2.instr) = false ∧ s0 = u)
    (hx : f.aux = true → release c true .system s0 = .ok s1) (hn : f.aux = false → s1 = s0) :
    fenceBody f c s = fenceEnd f c (fenceMet f c s1) := by
  have hq : afterAcquire c u = .ok () := by
    have : acquirePending u c.gid = false := by
      rw [hu, ← ha]
      split
      · exact acquirePending_startFence c s
      · rfl
    simp [afterAcquire, this]
  have hmet : (if (f.ord == .acquire || f.ord == .acqRel) = true then acquireAt s1 c.gid c.t.place f.scope else s1) = fenceMet f c s1 := by
    simp [fenceMet]
  unfold fenceBody fenceEnd Ctx.fenceEnded
  simp only [beq_iff_eq, ← hu, hq, Res.ok_bind]
  cases hrel : f.ord == .release || f.ord == .acqRel with
  | true =>
    cases haux : f.aux with
    | true => simp only [hr hrel, hx haux, hmet, Res.ok_bind, if_true]
    | false => cases hn haux; simp only [hr hrel, hmet, Res.ok_bind, if_true, Bool.false_eq_true, if_false]
  | false =>
    obtain ⟨h1, rfl⟩ := hl hrel
    cases haux : f.aux with
    | true => simp only [h1, hx haux, hmet, Res.ok_bind, if_true, Bool.false_eq_true, if_false]
    | false => cases hn haux; simp only [h1, hmet, Bool.false_eq_true, if_false]

/-! ## What a fence ends in -/

theorem fenceEnd_of_local (h : f.scope ≠ .system) (s : State) : fenceEnd f c s = completeAtOnce c (.fence f) (c.fenceEnded f s) := by
  simp [fenceEnd, h]

theorem fenceEnd_of_acknowledged (h : f.scope = .system) (hz : unacknowledged s c.gid = 0) {v : List (Nat × Word)} {s3 : State}
    (hp : performOnce c (c.sig (.fence f) []) (fun x => .ok ([], x)) s = .ok (v, s3)) :
    fenceEnd f c s = completeAtOnce c (.fence f) (c.fenceEnded f s3) := by
  simp [fenceEnd, h, hz, hp]

theorem fenceEnd_waits (h : f.scope = .system) (hz : unacknowledged s c.gid ≠ 0)
    (hl : (unreachableWrite s c.gid || fenceLate s c.gid) = false) : fenceEnd f c s = .error (.wait s) := by
  simp only [fenceEnd, h, if_true, Nat.pos_of_ne_zero hz, hl]
  rfl

theorem fenceEnd_traps (h : f.scope = .system) (hz : unacknowledged s c.gid ≠ 0)
    (hl : (unreachableWrite s c.gid || fenceLate s c.gid) = true) : fenceEnd f c s =
      .error (.trapIn { cause := 0x10, addr := BitVec.ofNat 64 (unacknowledged s c.gid) } (c.fenceEnded f s)) := by
  simp only [fenceEnd, h, if_true, Nat.pos_of_ne_zero hz, hl]
  rfl

theorem fenceLinkTimeout_traps {x : Trap} {u : State} (hc : s.ctx? c.gid = some c) (hw : c.g.phase = .waiting)
    (hl : fenceLate s c.gid = true) (hd : (codeAt c.r (c.g.hdr.toNat + 8 * c.g.idx)).bind decode? = some (.fence f))
    (hb : fenceBody f c s = .error (.trapIn x u)) : exec (.fenceLinkTimeout c.gid) s = .next (c.takeTrap x (c.settled u)) := by
  refine event_some (f := fenceLinkTimeout c.gid) ?_
  simp [fenceLinkTimeout, hc, hw, hl, hd, hb]

end

/-- Settles O38: a fence is its obligations, and then `fenceEnd` in the state in which they are met. -/
theorem fencesComplete : Obligations.FencesComplete := by
  refine ⟨release_cases, ?_⟩
  intro s s0 s1 c f hc ha rel u hr hl hx hn s2 ended late trapped
  have hb : fenceBody f c s = fenceEnd f c s2 := fenceBody_of_met ha rfl hr hl hx hn
  refine ⟨fun hi => ⟨fun hs t ht => ?_, fun hs hz => ⟨fun v s3 t hp ht => ?_, fun hsolo t ht => ?_⟩, fun hs hz hlate => ?_,
    fun hs hz hlate => ?_⟩, fun hw hlate hs hz hl2 hd => ?_⟩
  · exact exec_next_done hi rfl ((hb.trans (fenceEnd_of_local hs s2)).trans ht)
  · exact exec_next_done hi rfl ((hb.trans (fenceEnd_of_acknowledged hs hz hp)).trans ht)
  · refine exec_next_done hi rfl ((hb.trans (fenceEnd_of_acknowledged hs hz (v := []) ?_)).trans ht)
    exact performOnce_of_solo hsolo _ _ _
  · exact runInstr_wait hi (hb.trans (fenceEnd_waits hs hz hlate))
  · exact runInstr_trapIn hi (hb.trans (fenceEnd_traps hs hz hlate))
  · exact fenceLinkTimeout_traps hc hw hlate hd (hb.trans (fenceEnd_traps hs hz hl2))

end Sys2Proof.Machine
end

