-- ==== Sys2Proof/Proofs/Streams.lean ====
section
/-! Streams (R260, R261, R291): STREAM, SCLOSE and the outrider's fetch. -/
namespace Sys2Proof.Machine
open Sys2Proof.Claims

/-! ## STREAM and SCLOSE -/

section
variable {s s1 s2 : State} {c : Ctx} {a : Fin 64} {n : Fin 8} {fb : Bool} {bs : List Byte}
  (hi : Issues s c) (hs : c.g.sup = false) (ha : acquirePending s c.gid = false)
include hi hs ha

theorem stream_opens (hn : SMap.entry? c.g.streams n.val = none) (hp : (c.g.readS a.val).toNat % 64 = 0)
    (h1 : completeAtOnce c (.stream (.s a) n fb) s = .ok s1)
    (h2 : readStruct c (.stream (.s a) n fb) .i (c.g.readS a.val) 64 s1 = .ok (bs, s2)) {d : BitVec 512} (hd : d = BitVec.ofNat 512 (leNat bs))
    (ho : streamOk d (c.t.fileRec (d.extractLsb' 96 6).toNat) = .ok ()) {st : Stream}
    (hst : st = { desc := d, record := c.t.fileRec (d.extractLsb' 96 6).toNat, ready := true, since := s2.nextId }) :
    exec (.stream (.s a) n fb) s =
      .next (c.done (s2.modGroup c.gid fun g => { g with streams := SMap.put g.streams n.val st })) := by
  subst hd hst
  refine exec_next_done hi (body := fun c s => _) rfl ?_
  simp only [engineReady_of_ready hs ha, sVal, addrS, hn, Option.isSome_none, hp, h1, h2, ho, Res.ok_bind, ne_eq, not_true_eq_false,
    Bool.false_eq_true, if_false]

theorem stream_taken (hn : SMap.entry? c.g.streams n.val ≠ none) :
    exec (.stream (.s a) n fb) s = .next (c.takeTrap { cause := 0x13 } (c.settled s)) := by
  refine exec_next_trap hi (body := fun c s => _) rfl ?_
  simp only [engineReady_of_ready hs ha, sVal, addrS, Option.isSome_iff_ne_none.mpr hn, Res.ok_bind, if_true]
  rfl

omit hi hs ha in
/-- Closing a stream writes no register that is loaded or stored. -/
theorem destFree_sclose : DestFree c (.sclose n fb) s := by
  simp [DestFree, State.destBusy, destKeys]

theorem sclose_closes (hn : SMap.entry? c.g.streams n.val ≠ none) (hf : CounterFree c (.sclose n fb)) :
    exec (.sclose n fb) s = .next (c.done ((countedOnce c (.sclose n fb) s).modGroup c.gid fun g =>
      { g with streams := SMap.del g.streams n.val })) := by
  refine exec_next_done hi (body := fun c s => _) rfl ?_
  obtain ⟨hgid, hg, -⟩ := State.ctx?_spec hi.1
  rw [← hgid] at hg
  simp only [engineReady_of_ready hs ha, Option.isNone_iff_eq_none, hn, completeAtOnce_free hg hf destFree_sclose, Res.ok_bind, if_false]

theorem sclose_closed (hn : SMap.entry? c.g.streams n.val = none) :
    exec (.sclose n fb) s = .next (c.takeTrap { cause := 0x13 } (c.settled s)) := by
  refine exec_next_trap hi (body := fun c s => _) rfl ?_
  simp only [engineReady_of_ready hs ha, hn, Option.isNone_none, Res.ok_bind, if_true]
  rfl

end

/-! ## OUTRIDER_FETCH -/

/-- A vector joins what is fetched of a stream of a group. -/
def State.addVec (s : State) (gid n : Nat) (v : StreamVec) : State := s.modGroup gid fun y =>
  { y with streams := SMap.adjust y.streams n fun x => { x with fetched := x.fetched ++ [v] } }

/-- The outrider may fetch the next vector of a stream: there is one, there is room for it, and the accesses before STREAM are
served. -/
structure Fetches (s : State) (c : Ctx) (gid n : Nat) (st : Stream) (v : StreamVec) (t : State) : Prop where
  ctx : s.ctx? gid = some c
  entry : SMap.entry? c.g.streams n = some st
  ready : st.ready = true
  notEnded : c.g.phase ≠ .ended
  notStopped : c.g.phase ≠ .stopped
  room : st.fetched.length < (st.desc.extractLsb' 104 7).toNat
  more : st.pos + st.fetched.length < streamCount st.desc
  earlier : ∀ e ∈ s.groupOps gid, e.1 < st.since → e.2.reqs = []
  vec : streamVec s (c.who s) st (st.pos + st.fetched.length) = some (v, t)

/-- What the outrider does with the vector that it has fetched, by the side of the team (R376). -/
def joinFetched (s : State) (c : Ctx) (gid : Nat) (n : Fin 8) (st : Stream) (v : StreamVec) (t : State) : Option State :=
  let i := st.pos + st.fetched.length
  let logged (u : State) : State := assayLog c (c.sig (.stream (.s 0) n false) [i]) v.vals u
  match c.t.side with
  | .solo => some (logged (t.addVec gid n.val v))
  | .lead => do
    let p ← c.peer? s
    let other ← (s.group? p).bind fun g => SMap.entry? g.streams n.val
    if other.pos + other.fetched.length == i then some (logged ((t.addVec gid n.val v).addVec p n.val v))
    else if i < other.pos + other.fetched.length then some (t.addVec gid n.val v)
    else none
  | .escort => do
    let p ← c.peer? s
    let other ← (s.group? p).bind fun g => SMap.entry? g.streams n.val
    if i < other.pos + other.fetched.length then some (t.addVec gid n.val v) else none

section
variable {s t : State} {c : Ctx} {gid : Nat} {n : Fin 8} {st other : Stream} {v : StreamVec} {p : Nat} {g : Group}
  (hf : Fetches s c gid n.val st v t)
include hf

theorem Fetches.outriderFetch_eq : outriderFetch gid n s = joinFetched s c gid n st v t := by
  obtain ⟨hc, he, hr, hp1, hp2, hroom, hmore, hearly, hv⟩ := hf
  have hops : ((s.groupOps gid).any fun e => decide (e.1 < st.since) && !e.2.reqs.isEmpty) = false := by
    simp only [List.any_eq_false, Bool.and_eq_true, decide_eq_true_eq, Bool.not_eq_true', not_and]
    intro e he1 he2
    simp [hearly e he1 he2]
  have hblock : (c.g.phase == .ended || c.g.phase == .stopped || !st.ready || decide ((st.desc.extractLsb' 104 7).toNat ≤ st.fetched.length)
      || decide (streamCount st.desc ≤ st.pos + st.fetched.length)) = false := by
    simp [hp1, hp2, hr, hroom, hmore, -BitVec.extractLsb'_toNat]
  simp only [outriderFetch, Option.bind_eq_bind, hc, he, hv, hblock, hops, Option.bind_some, Bool.false_eq_true, if_false]
  rfl

theorem Fetches.solo (hs : c.t.side = .solo) : exec (.outriderFetch gid n) s =
    .next (assayLog c (c.sig (.stream (.s 0) n false) [st.pos + st.fetched.length]) v.vals (t.addVec gid n.val v)) := by
  refine event_some (f := outriderFetch gid n) (hf.outriderFetch_eq.trans ?_)
  simp [joinFetched, hs]

section
variable (hp : c.peer? s = some p) (hg : s.group? p = some g) (ho : SMap.entry? g.streams n.val = some other)
include hp hg ho

theorem Fetches.together (hs : c.t.side = .lead) (he : other.pos + other.fetched.length = st.pos + st.fetched.length) :
    exec (.outriderFetch gid n) s = .next (assayLog c (c.sig (.stream (.s 0) n false) [st.pos + st.fetched.length]) v.vals
      ((t.addVec gid n.val v).addVec p n.val v)) := by
  refine event_some (f := outriderFetch gid n) (hf.outriderFetch_eq.trans ?_)
  simp [joinFetched, hs, hp, hg, ho, he]

theorem Fetches.behind (hs : c.t.side ≠ .solo) (hl : st.pos + st.fetched.length < other.pos + other.fetched.length) :
    exec (.outriderFetch gid n) s = .next (t.addVec gid n.val v) := by
  refine event_some (f := outriderFetch gid n) (hf.outriderFetch_eq.trans ?_)
  cases hside : c.t.side with
  | solo => exact absurd hside hs
  | lead => simp [joinFetched, hside, hp, hg, ho, hl, hl.ne']
  | escort => simp [joinFetched, hside, hp, hg, ho, hl]

end

end

/-- Settles O41: the outrider's fetch is the vector that it reads, which then joins the streams of one side or of both. -/
theorem streamsOpen : Obligations.StreamsOpen := by
  intro s s1 s2 c a n fb bs p d
  refine ⟨fun hi hs ha => ⟨fun hn hp h1 h2 ho => stream_opens hi hs ha hn hp h1 h2 rfl ho rfl,
    fun hn => ⟨stream_taken hi hs ha hn, sclose_closes hi hs ha hn⟩, sclose_closed hi hs ha⟩, ?_⟩
  intro gid st v t hc he hr h1 h2 hroom hmore hearly hv
  have hf : Fetches s c gid n.val st v t := ⟨hc, he, hr, h1, h2, hroom, hmore, hearly, hv⟩
  exact ⟨hf.solo, fun p g other hside hp hg ho => ⟨hf.together hp hg ho, hf.behind hp hg ho hside⟩⟩

end Sys2Proof.Machine
end

