-- ==== Sys2Proof/Proofs/StoreFrame.lean ====
section
/-! What reaches memory (R242, R322): of all that serving a request does, only writes at home change memory, at the bytes that they
name; the dirty bytes of a core that may go home with it are those that it held before. -/
namespace Sys2Proof.Machine

/-! ## Dirty bytes -/

/-- A location that a core's L1 holds dirty. -/
def DirtyAt (f : Fabric) (core p : Nat) : Prop := ∃ x ∈ f.l1, x.core = core ∧ ∃ i < 128, x.dirty.getLsbD i = true ∧ p = 128 * x.line + i

theorem dirtyAt_of_mem_dirtyBytes {f : Fabric} {core : Nat} {x : Nat × Byte × Byte} (h : x ∈ dirtyBytes f core) : DirtyAt f core x.1 := by
  obtain ⟨y, hy, hx⟩ := List.mem_flatMap.mp h
  split at hx
  · next hc =>
    obtain ⟨i, hi, hx⟩ := List.mem_filterMap.mp hx
    split at hx
    · next hd =>
      obtain rfl := Option.some.inj hx
      exact ⟨y, hy, beq_iff_eq.mp hc, i, List.mem_range.mp hi, hd, rfl⟩
    · cases hx
  · cases hx

theorem mem_dirtyBytes_of_dirtyAt {f : Fabric} {core p : Nat} (h : DirtyAt f core p) : ∃ x ∈ dirtyBytes f core, x.1 = p := by
  obtain ⟨y, hy, hc, i, hi, hd, rfl⟩ := h
  refine ⟨(128 * y.line + i, (y.data[i]?).getD 0, 0xFF), List.mem_flatMap.mpr ⟨y, hy, ?_⟩, rfl⟩
  rw [if_pos (beq_iff_eq.mpr hc)]
  exact List.mem_filterMap.mpr ⟨i, List.mem_range.mpr hi, if_pos hd⟩

/-- The caches of one fabric hold no byte of a core dirty that those of another do not, and their pages move alike. -/
structure NoDirtier (core : Nat) (f f' : Fabric) : Prop where
  move : f'.move = f.move
  dirty : ∀ p, DirtyAt f' core p → DirtyAt f core p

namespace NoDirtier

variable {core : Nat} {f f' f'' : Fabric}

theorem refl (f : Fabric) : NoDirtier core f f := ⟨rfl, fun _ h => h⟩

theorem trans (h : NoDirtier core f f') (h' : NoDirtier core f' f'') : NoDirtier core f f'' :=
  ⟨h'.move.trans h.move, fun p hp => h.dirty p (h'.dirty p hp)⟩

/-- The L1s of both fabrics hold the same. -/
theorem of_l1 (hm : f'.move = f.move) (hl : f'.l1 = f.l1) : NoDirtier core f f' := ⟨hm, fun p h => by unfold DirtyAt at h ⊢; rwa [hl] at h⟩

/-- Each line of an L1 has the dirty bytes of a line that was there. -/
theorem of_lines (hm : f'.move = f.move)
    (h : ∀ x ∈ f'.l1, x.dirty = 0 ∨ ∃ y ∈ f.l1, y.core = x.core ∧ y.line = x.line ∧
      ∀ i, x.dirty.getLsbD i = true → y.dirty.getLsbD i = true) :
    NoDirtier core f f' := by
  refine ⟨hm, ?_⟩
  rintro p ⟨x, hx, hc, i, hi, hd, rfl⟩
  obtain hz | ⟨y, hy, hyc, hyl, hyd⟩ := h x hx
  · simp [hz] at hd
  · exact ⟨y, hy, hyc.trans hc, i, hi, hyd i hd, by rw [hyl]⟩

theorem foldl {α : Type} {g : Fabric → α → Fabric} (hg : ∀ f a, NoDirtier core f (g f a)) (l : List α) (f : Fabric) :
    NoDirtier core f (l.foldl g f) :=
  List.foldlRecOn l g (.refl f) fun b hb a _ => hb.trans (hg b a)

end NoDirtier

/-! ## Operations on L1s -/

section L1
variable (core : Nat) (f : Fabric)

theorem l1Drop_noDirtier (c line : Nat) : NoDirtier core f (l1Drop f c line) :=
  .of_lines rfl fun x hx => .inr ⟨x, (List.mem_filter.mp hx).1, rfl, rfl, fun _ h => h⟩

variable {f} in
/-- A line replaced by one that is no dirtier. -/
theorem l1Put_noDirtier {c line : Nat} {x y : L1Line} (hx : l1Find f c line = some x) (hc : y.core = x.core) (hl : y.line = x.line)
    (hd : y.dirty = x.dirty) : NoDirtier core f (l1Put f y) := by
  refine .of_lines rfl fun z hz => .inr ?_
  obtain rfl | hz := List.mem_cons.mp hz
  · exact ⟨x, List.mem_of_find?_eq_some hx, hc.symm, hl.symm, fun _ h => by rwa [hd] at h⟩
  · exact ⟨z, (List.mem_filter.mp hz).1, rfl, rfl, fun _ h => h⟩

theorem l1Clean_noDirtier (c : Nat) (locs : List Nat) : NoDirtier core f (l1Clean f c locs) := by
  refine .of_lines rfl fun x hx => .inr ?_
  obtain ⟨y, hy, rfl⟩ := List.mem_map.mp hx
  refine ⟨y, hy, ?_⟩
  split
  · refine ⟨rfl, rfl, fun i h => ?_⟩
    rw [BitVec.getLsbD_and, Bool.and_eq_true] at h
    exact h.1
  · exact ⟨rfl, rfl, fun _ h => h⟩

theorem addPoison_noDirtier (q : Nat) (t : BitVec 12) : NoDirtier core f (addPoison f q t) := .of_l1 rfl rfl

theorem settle_noDirtier (t w : Nat) : NoDirtier core f (settle f t w) := .of_l1 rfl rfl

theorem supersede_noDirtier (c line : Nat) : NoDirtier core f (supersede f c line) := by
  unfold supersede
  split <;> exact .of_l1 rfl rfl

theorem recordTag_noDirtier (x : Served) : NoDirtier core f (recordTag f x) := .of_l1 rfl rfl

theorem L1Line.write_kept (x : L1Line) (i : Nat) (v mask : Byte) :
    (x.write i v mask false).core = x.core ∧ (x.write i v mask false).line = x.line ∧ (x.write i v mask false).dirty = x.dirty := by
  unfold L1Line.write
  simp only [Bool.false_eq_true, if_false]
  split <;> exact ⟨rfl, rfl, rfl⟩

theorem l1Update_noDirtier (c : Nat) (ws : List (Nat × Byte × Byte)) : NoDirtier core f (l1Update f c ws) := by
  unfold l1Update
  extract_lets u v
  have hu : NoDirtier core f u := .foldl (fun g x => by
    dsimp only
    split
    · next y hy =>
      obtain ⟨hc, hl, hd⟩ := y.write_kept (x.1 % 128) x.2.1 x.2.2
      exact l1Put_noDirtier core hy hc hl hd
    · exact .refl g) _ f
  have hv : NoDirtier core u v := .foldl (fun g q => by
    split
    · next y hy => exact l1Put_noDirtier core hy rfl rfl rfl
    · exact .refl g) _ u
  split
  · exact hu.trans hv
  · exact (hu.trans hv).trans (.of_l1 rfl rfl)

theorem l1Taint_noDirtier (c : Nat) (sectors : List Nat) : NoDirtier core f (l1Taint f c sectors) :=
  .foldl (fun g q => by
    split
    · next x _ hx => exact l1Put_noDirtier core hx rfl rfl rfl
    · exact .refl g) _ f

theorem l1Install_noDirtier (c line : Nat) (bytes : List Byte) (owned : Bool) : NoDirtier core f (l1Install f c line bytes owned) := by
  unfold l1Install
  extract_lets full tags
  split
  · refine .of_lines rfl fun x hx => ?_
    obtain rfl | hx := List.mem_cons.mp hx
    · exact .inl rfl
    · exact .inr ⟨x, (List.mem_filter.mp hx).1, rfl, rfl, fun _ h => h⟩
  · next x hx => exact l1Put_noDirtier core hx rfl rfl rfl

theorem lagWrite_noDirtier (s : State) (t : Nat) (all : Bool) (wait : List Nat) (group w : Nat) :
    NoDirtier core f (lagWrite s t all wait group f w) := by
  unfold lagWrite
  extract_lets stuck here g behind mine sites
  have hg : NoDirtier core f g := by
    dsimp only [g]
    split
    · exact .of_l1 rfl rfl
    · exact settle_noDirtier core f t w
  clear_value g
  split
  · exact .of_l1 rfl rfl
  · split
    · exact hg
    · exact hg.trans (.of_l1 rfl rfl)

end L1

/-- Whether a page move forwards a location depends on the move alone. -/
theorem forwarded_congr {f f' : Fabric} (h : f'.move = f.move) (p : Nat) : forwarded f' p = forwarded f p := by
  unfold forwarded
  rw [h]

/-! ## What leaves memory alone -/

/-- A step changes no byte of memory, and leaves a core no dirtier. -/
structure Quiet (core : Nat) (s t : State) : Prop where
  mem : t.mem = s.mem
  caches : NoDirtier core s.fab t.fab

namespace Quiet

variable {core : Nat} {s t u : State}

theorem refl (s : State) : Quiet core s s := ⟨rfl, .refl _⟩

theorem trans (h : Quiet core s t) (h' : Quiet core t u) : Quiet core s u := ⟨h'.mem.trans h.mem, h.caches.trans h'.caches⟩

/-- Neither memory nor the L1s change. -/
theorem of_l1 (h : t.mem = s.mem) (hm : t.fab.move = s.fab.move) (hl : t.fab.l1 = s.fab.l1) : Quiet core s t := ⟨h, .of_l1 hm hl⟩

theorem setFab {f : Fabric} (h : NoDirtier core s.fab f) : Quiet core s (s.setFab f) := ⟨rfl, h⟩

theorem foldl {α : Type} {g : State → α → State} (hg : ∀ s a, Quiet core s (g s a)) (l : List α) (s : State) : Quiet core s (l.foldl g s) :=
  List.foldlRecOn l g (.refl s) fun b hb a _ => hb.trans (hg b a)

end Quiet

section Quiet
variable (core : Nat) (s : State)

theorem setWaybill_quiet (line : Nat) (w : Waybill) : Quiet core s (setWaybill s line w) := .of_l1 rfl rfl rfl

theorem reclaimOne_quiet (bank line : Nat) (r : Reclaim) : Quiet core s (reclaimOne s bank line r) := by
  cases r <;> exact .of_l1 rfl rfl rfl

theorem reclaimFrom_quiet (bank : Nat) (l : List (Nat × Reclaim)) : ∀ s, Quiet core s (reclaimFrom bank l s).1 := by
  induction l with
  | nil => exact .refl
  | cons x l ih =>
    intro s
    rw [reclaimFrom]
    split
    · exact reclaimOne_quiet core s _ _ _
    · exact (reclaimOne_quiet core s _ _ _).trans (ih _)

theorem makeRoom_quiet (line : Nat) : Quiet core s (makeRoom s line).1 := by
  unfold makeRoom
  dsimp only
  split
  · exact .refl s
  · exact reclaimFrom_quiet core _ _ s

theorem changeWaybill_quiet (line : Nat) (f : Waybill → Waybill) : Quiet core s (changeWaybill s line f).1 := by
  have h := makeRoom_quiet core s line
  unfold changeWaybill
  dsimp only
  split
  · exact h.trans (setWaybill_quiet core _ _ _)
  · exact h

theorem subscribe_quiet (c line : Nat) (sub : Option (Fmt × Fmt) × Bool) : Gives (Quiet core s) (subscribe s c line sub) := by
  have h := changeWaybill_quiet core s line fun w => w.subscribed c sub
  unfold subscribe
  dsimp only
  split
  · exact .some h
  · exact .none

theorem applyHint_quiet (c line : Nat) (x : Hint) (load biased : Bool) : Gives (Quiet core s) (applyHint s c line x load biased) := by
  have change (f : Waybill → Waybill) : Gives (Quiet core s)
      (if (changeWaybill s line f).2 = true then some (changeWaybill s line f).1 else none) := by
    split
    · exact .some (changeWaybill_quiet core s line f)
    · exact .none
  unfold applyHint
  dsimp only
  split
  · split
    · exact change _
    · exact .some (.refl s)
  · split
    · exact change _
    · exact .some (.refl s)
  · exact .some (.refl s)

theorem hintAt_quiet (w : Who) (f : Form) (p line : Nat) (load : Bool) : Gives (Quiet core s) (hintAt s w f p line load) :=
  applyHint_quiet core s _ _ _ _ _

theorem noteHome_quiet (t line : Nat) : Quiet core s (noteHome s t line) := by
  unfold noteHome
  dsimp only
  split
  · split <;> exact .of_l1 rfl rfl rfl
  · exact .of_l1 rfl rfl rfl

theorem countDrover_quiet (c line : Nat) (ctx : BitVec 16) (page : Nat) (req : Req) (h : Hint) :
    Quiet core s (countDrover s c line ctx page req h) := by
  unfold countDrover
  dsimp only
  split <;> exact .of_l1 rfl rfl rfl

theorem countAt_quiet (w : Who) (f : Form) (p line : Nat) (r : Req) : Quiet core s (countAt s w f p line r) :=
  (noteHome_quiet core s _ _).trans (countDrover_quiet core _ _ _ _ _ _ _)

theorem judge_quiet (line : Nat) (old new : List Byte) : Quiet core s (judge s line old new) := by
  unfold judge
  split
  · exact .refl s
  · split <;> exact .of_l1 rfl rfl rfl

theorem unsubscribe_quiet (c line : Nat) : Quiet core s (unsubscribe s c line) := by
  unfold unsubscribe
  split
  · exact .refl s
  · exact setWaybill_quiet core s _ _

theorem noteForwarded_quiet (c : Nat) (locs : List Nat) : Quiet core s (noteForwarded s c locs) := by
  unfold noteForwarded
  dsimp only
  split <;> exact .of_l1 rfl rfl rfl

theorem settleEverywhere_quiet (locs : List Nat) : Quiet core s (settleEverywhere s locs) := .of_l1 rfl rfl rfl

theorem settleSeen_quiet (t : Nat) : Quiet core s (settleSeen s t) := .of_l1 rfl rfl rfl

theorem l1Refresh_quiet (c line : Nat) (ws : List (Nat × Byte)) : Quiet core s (l1Refresh s c line ws) := by
  unfold l1Refresh
  split
  · exact .refl s
  · exact .setFab ((l1Update_noDirtier core _ _ _).trans (l1Taint_noDirtier core _ _ _))

theorem l1Fill_quiet (c line : Nat) (all : List Byte) : Quiet core s (l1Fill s c line all) := by
  unfold l1Fill
  split
  · exact l1Refresh_quiet core s _ _ _
  · exact .setFab (l1Install_noDirtier core _ _ _ _ _)

theorem readOwned_quiet (t line : Nat) : Quiet core s (readOwned s t line).2 :=
  .setFab (.foldl (fun f w => settle_noDirtier core f t w) _ _)

theorem readWord_quiet (t gid w : Nat) : Quiet core s (readWord s t gid w).2 := by
  unfold readWord
  dsimp only
  split
  · exact .refl s
  · split
    · split
      · exact .of_l1 rfl rfl rfl
      · split <;> exact .refl s
    · split <;> exact .of_l1 rfl rfl rfl

theorem readLocs_quiet (t gid : Nat) (locs : List Nat) : Quiet core s (readLocs s t gid locs).2 :=
  List.foldlRecOn (motive := fun x : List (Nat × List Byte) × State => Quiet core s x.2) _ _ (.refl s) fun x hx w _ =>
    hx.trans (readWord_quiet core x.2 t gid w)

theorem freeStack_quiet (w : Who) (bytes : List (Nat × Byte)) : Quiet core s (freeStack w bytes s).2 :=
  List.foldlRecOn (motive := fun x : List (Nat × Byte) × State => Quiet core s x.2) _ _ (.refl s) fun x hx b _ => by
    dsimp only
    split
    · exact hx.trans (.of_l1 rfl rfl rfl)
    · exact hx

theorem afterWrite_quiet (c : Nat) (wait : List Nat) (ws : List (Nat × Byte × Byte)) : Quiet core s (afterWrite s c wait ws) := by
  unfold afterWrite
  split
  · exact .setFab (l1Update_noDirtier core _ _ _)
  · exact .foldl (fun u n => (unsubscribe_quiet core u c n).trans (.setFab (l1Drop_noDirtier core _ _ _))) _ s

end Quiet

/-! ## Writes at home and write-backs -/

/-- A run of steps has left a byte of memory as it was, and can send home no byte of a core but those that meet P. -/
structure Spares (core a : Nat) (P : Nat → Prop) (s t : State) : Prop where
  mem : Memory.get t.mem a = Memory.get s.mem a
  move : t.fab.move = s.fab.move
  dirty : ∀ p, DirtyAt t.fab core p → P p

namespace Spares

variable {core a : Nat} {P : Nat → Prop} {s t u : State}

theorem start (h : ∀ x ∈ dirtyBytes s.fab core, P x.1) : Spares core a P s s :=
  ⟨rfl, rfl, fun p hp => by obtain ⟨x, hx, rfl⟩ := mem_dirtyBytes_of_dirtyAt hp; exact h x hx⟩

theorem quiet (h : Spares core a P s t) (hq : Quiet core t u) : Spares core a P s u :=
  ⟨by rw [hq.mem, h.mem], hq.caches.move.trans h.move, fun p hp => h.dirty p (hq.caches.dirty p hp)⟩

theorem gives {o : Option State} (h : Spares core a P s t) (hq : Gives (Quiet core t) o) : Gives (Spares core a P s) o :=
  fun u hu => h.quiet (hq u hu)

theorem dirtyBytes (h : Spares core a P s t) {x : Nat × Byte × Byte} (hx : x ∈ dirtyBytes t.fab core) : P x.1 :=
  h.dirty _ (dirtyAt_of_mem_dirtyBytes hx)

/-- A write at home of bytes that do not lie at the one in question. -/
theorem writeHomeBy (h : Spares core a P s t) (site : Nat) (all : Bool) (wait : List Nat) (group : Nat) {ws : List (Nat × Byte × Byte)}
    (hw : ∀ x ∈ ws, forwarded s.fab x.1 ≠ a) : Spares core a P s (writeHomeBy t site all wait group ws) := by
  have hmem : Memory.get (Machine.writeHomeBy t site all wait group ws).mem a = Memory.get t.mem a := by
    rw [writeHomeBy_mem]
    refine get_written_other fun x hx => ?_
    obtain ⟨y, hy, rfl⟩ := List.mem_map.mp hx
    rw [forwarded_congr h.move]
    exact hw y hy
  have hcaches : NoDirtier core t.fab (Machine.writeHomeBy t site all wait group ws).fab := by
    unfold Machine.writeHomeBy
    extract_lets ws' words lags lines before mem clean u
    have hl : NoDirtier core t.fab lags := .foldl (fun f w => lagWrite_noDirtier core f t site all wait group w) _ _
    have hu : NoDirtier core t.fab u.fab := hl.trans (.of_l1 rfl rfl)
    exact hu.trans (Quiet.foldl (fun v e => judge_quiet core v _ _ _) _ u).caches
  exact ⟨hmem.trans h.mem, hcaches.move.trans h.move, fun p hp => h.dirty p (hcaches.dirty p hp)⟩

section
variable (hP : ∀ p, P p → forwarded s.fab p ≠ a)
include hP

theorem sendHome (h : Spares core a P s t) (everywhere : Bool) {ws : List (Nat × Byte × Byte)} (hw : ∀ x ∈ ws, P x.1) :
    Spares core a P s (sendHome t core everywhere ws) := by
  unfold Machine.sendHome
  split
  · exact h
  · extract_lets locs u tags v
    have hu : Spares core a P s u := h.quiet (.foldl (fun y n => by
      split
      · exact countDrover_quiet core _ _ _ _ _ _ _
      · exact .refl y) _ t)
    have hv : Spares core a P s v := hu.writeHomeBy _ _ _ _ fun x hx => hP _ (hw x hx)
    refine hv.quiet (.setFab (.trans (.foldl (fun f e => ?_) _ _) (l1Clean_noDirtier core _ _ _)))
    exact addPoison_noDirtier core f _ _

theorem settleWeak (h : Spares core a P s t) (k : Nat) : Spares core a P s (settleWeak t core k) := by
  unfold Machine.settleWeak
  extract_lets due wide near dirty u v x
  have hd : ∀ x ∈ dirty, P x.1 := fun x hx => h.dirtyBytes hx
  have hu : Spares core a P s u := h.sendHome hP true fun x hx => hd x (List.mem_filter.mp hx).1
  have hv : Spares core a P s v := hu.sendHome hP false fun x hx => hd x (List.mem_filter.mp hx).1
  split
  · exact h
  · exact hv.quiet ((settleEverywhere_quiet core v wide).trans (.of_l1 rfl rfl rfl))

theorem writeBackLines (h : Spares core a P s t) (lines : List Nat) : Spares core a P s (writeBackLines t core lines) := by
  unfold Machine.writeBackLines
  dsimp only
  split
  · exact h
  · have hu := h.settleWeak hP (((t.fab.l1.filter fun x => x.core == core && lines.contains x.line && x.dirty != 0).map (·.wid)).foldl max 0)
    exact hu.sendHome hP false fun x hx => hu.dirtyBytes (List.mem_filter.mp hx).1

end

end Spares

end Sys2Proof.Machine
end

