-- ==== Sys2Proof/Proofs/HierarchySteps.lean ====
section
/-! Steps of the memory hierarchy (R234, R242, R247, R248, R250, R252, R254, R262, R398): walks, migrations, write-backs,
invalidations, installs, retention and links. -/
namespace Sys2Proof.Machine

/-! ## L1 lines -/

section
variable {s : State} {core : BitVec 12} {line : Nat} {x : L1Line} (hx : l1Find s.fab core.toNat line = some x)
include hx

theorem l1WriteBack_goes (hw : lineBackWaits s core.toNat line = false) {t t' : State} (ht : t = writeBackLines s core.toNat [line])
    (ht' : t' = { t with free := t.free + 1 }) :
    exec (.l1WriteBack core line) s = .next (if Config.freeBit t.free = true then
      (unsubscribe t' core.toNat line).setFab (l1Drop (unsubscribe t' core.toNat line).fab core.toNat line) else t') := by
  subst ht' ht
  refine event_some (f := l1WriteBack core.toNat line) ?_
  unfold l1WriteBack
  simp only [hx, hw, Option.bind_eq_bind, Option.bind_some, Bool.false_eq_true, if_false, State.freeBit]
  exact (apply_ite some _ _ _).symm

theorem l1Invalidation_arrives (hi : (core.toNat, line, none) ∈ s.fab.inval) {f : Fabric}
    (hf : f = { s.fab with inval := s.fab.inval.erase (core.toNat, line, none) }) :
    exec (.l1Invalidation core line) s = .next (s.setFab (if x.dirty = 0 then l1Drop f core.toNat line
      else l1Put f { x with valid := x.dirty, owned := false })) := by
  subst hf
  have hx' : l1Find { s.fab with inval := s.fab.inval.erase (core.toNat, line, none) } core.toNat line = some x := hx
  refine event_some (f := l1Invalidation core.toNat line) ?_
  unfold l1Invalidation
  simp only [List.contains_iff_mem.mpr hi, if_true, hx']

theorem subscriberLineInstall_takes {bytes : List Byte} (hb : sentLine s.fab core.toNat line = some bytes)
    (hw : lineStuck s (reticleOf core.toNat) line = false) {u : State}
    (hu : u = s.setFab { s.fab with inval := s.fab.inval.erase (core.toNat, line, some bytes) }) :
    exec (.subscriberLineInstall core line) s = .next (if x.owned = true then
      (readOwned u (reticleOf core.toNat) line).2.setFab
        (l1Install (readOwned u (reticleOf core.toNat) line).2.fab core.toNat line bytes true) else u) := by
  subst hu
  have hx' : l1Find (s.setFab { s.fab with inval := s.fab.inval.erase (core.toNat, line, some bytes) }).fab core.toNat line = some x := hx
  refine event_some (f := subscriberLineInstall core.toNat line) ?_
  unfold subscriberLineInstall
  simp only [hb, hw, hx', Option.bind_eq_bind, Option.bind_some, Bool.false_eq_true, if_false]
  cases x.owned <;> rfl

end

/-! ## Look-aside buffers and walks -/

theorem tlbFind_tlbAdd_same (t : List (Nat × TlbEntry)) (k n : Nat) (e : TlbEntry) : tlbFind (tlbAdd t k n e) k e.ctx e.page = some e := by
  simp [tlbFind, tlbAdd, TlbEntry.covers]

theorem tlbFind_tlbAdd_other (t : List (Nat × TlbEntry)) {k k' : Nat} (hk : k' ≠ k) (n : Nat) (e : TlbEntry) (c : BitVec 16) (page : Nat) :
    tlbFind (tlbAdd t k n e) k' c page = tlbFind t k' c page := by
  have hown : ((t.filter fun x => x.1 == k).take (n - 1)).find? (fun x => x.1 == k' && x.2.covers c page) = none := by
    refine List.find?_eq_none.mpr fun x hx hc => hk ?_
    have h1 := (List.mem_filter.mp (List.mem_of_mem_take hx)).2
    simp only [beq_iff_eq, Bool.and_eq_true] at h1 hc
    exact hc.1.symm.trans h1
  have hrest : (t.filter fun x => x.1 != k).find? (fun x => x.1 == k' && x.2.covers c page)
      = t.find? fun x => x.1 == k' && x.2.covers c page := by
    rw [List.find?_filter]
    congr 1
    funext x
    by_cases hx : x.1 = k'
    · simp [hx, hk]
    · simp [hx]
  unfold tlbFind tlbAdd
  rw [List.cons_append, List.find?_cons, List.find?_append, hown, hrest, beq_false_of_ne (Ne.symm hk)]
  rfl

/-- Every core that an entry is given to finds it. -/
theorem tlbFind_foldl_tlbAdd {k n : Nat} {e : TlbEntry} (cores : List Nat) : ∀ t : List (Nat × TlbEntry),
    tlbFind t k e.ctx e.page = some e ∨ k ∈ cores → tlbFind (cores.foldl (fun t k => tlbAdd t k n e) t) k e.ctx e.page = some e := by
  induction cores with
  | nil => exact fun t h => h.resolve_right List.not_mem_nil
  | cons c cores ih =>
    intro t h
    refine ih _ ?_
    by_cases hc : k = c
    · exact .inl (hc ▸ tlbFind_tlbAdd_same t k n e)
    · rw [tlbFind_tlbAdd_other t hc]
      exact h.imp_right fun hk => (List.mem_cons.mp hk).resolve_left hc

section
variable {s : State} {r : Fin 48} {w : Walk} (hw : s.fab.walks.find? (fun w => w.reticle == r.val) = some w)
  {f : Fabric} (hf : f = admitMiss { s.fab with walks := s.fab.walks.erase w } r.val)
include hw hf

/-- The cores whose groups wait for a walk. -/
def Walk.cores (w : Walk) (s : State) : List Nat := (w.waiters.filterMap fun g => do (← s.team? (← s.group? g).team).place).dedup

omit hw hf in
theorem Walk.mem_cores {g : Nat} (hg : g ∈ w.waiters) {x : Group} {t : Team} (hx : s.group? g = some x) (ht : s.team? x.team = some t) :
    t.place ∈ w.cores s := by
  refine List.mem_dedup.mpr (List.mem_filterMap.mpr ⟨g, hg, ?_⟩)
  simp [hx, ht]

theorem tlbWalk_finds {leaf : Word} {level : Nat} (hl : walkTables s w.ctx (w.page * 65536) = .found leaf level) :
    exec (.tlbWalk r) s = .next (s.setFab (tlbInstall f r.val (w.cores s) ⟨w.ctx, w.page, leaf, level⟩)) := by
  subst hf
  refine event_some (f := tlbWalk r) ?_
  unfold tlbWalk
  simp only [hw, hl, Option.bind_eq_bind, Option.bind_some]
  rfl

theorem tlbWalk_misses (hl : ∀ leaf level, walkTables s w.ctx (w.page * 65536) ≠ .found leaf level) :
    exec (.tlbWalk r) s =
      .next (w.waiters.foldl (fun s g => s.modGroup g fun x => { x with absent := w.page :: x.absent }) (s.setFab f)) := by
  subst hf
  refine event_some (f := tlbWalk r) ?_
  unfold tlbWalk
  simp only [hw, Option.bind_eq_bind, Option.bind_some]
  cases hwalk : walkTables s w.ctx (w.page * 65536) with
  | found leaf level => exact absurd hwalk (hl leaf level)
  | _ => rfl

end

/-! ## Migration of a line -/

section
variable {s : State} {r : Fin 48} {line : Nat} {e : Counted} (he : s.fab.drover.find? (fun e => e.reticle == r.val && e.line == line) = some e)
  (h0 : (SMap.get 8 s.dev.drovthr r.val).toNat ≠ 0) (hn : (SMap.get 8 s.dev.drovthr r.val).toNat ≤ e.count)
  {w : Waybill} (hw : w = waybill s line) (hh : w.held = false) (hf : w.inFlight = false)
  {s' : State} (hs' : s' = s.setFab { s.fab with drover := s.fab.drover.erase e })
include he h0 hn hw hh hf hs'

theorem droverMigration_stays (hst : w.pin = true ∨ w.counter = 15 ∨ inFlip s (128 * line) = true ∨ pageStays s e = true) :
    exec (.droverMigration r line) s = .next s' := by
  subst hw hs'
  have hst' : ((waybill s line).pin || (waybill s line).counter == 15 || inFlip s (128 * line) || pageStays s e) = true := by
    simpa only [Bool.or_eq_true, beq_iff_eq, or_assoc] using hst
  refine event_some (f := droverMigration r.val line) ?_
  unfold droverMigration
  simp only [he, Option.bind_eq_bind, Option.bind_some, h0, Nat.not_lt.mpr hn, or_self, if_false, hh, hf, Bool.or_self, Bool.false_eq_true,
    hst', if_true]
  rfl

theorem droverMigration_moves (hst : ¬ (w.pin = true ∨ w.counter = 15 ∨ inFlip s (128 * line) = true ∨ pageStays s e = true)) :
    exec (.droverMigration r line) s = .next (if (makeRoom s' line).2 = true then
      let w := waybill (makeRoom s' line).1 line
      setWaybill (makeRoom s' line).1 line
        { w with home := if bankLive s.dev e.core then e.core else anchorIn (reticleBanks s.dev r.val) line,
                 counter := min 15 (w.counter + 1), replicas := w.replicas &&& ~~~(BitVec.ofNat 48 (2 ^ r.val)) } else s) := by
  subst hw
  have hst' : ((waybill s line).pin || (waybill s line).counter == 15 || inFlip s (128 * line) || pageStays s e) = false := by
    simpa only [Bool.or_eq_false_iff, beq_eq_false_iff_ne, not_or, Bool.not_eq_true, ne_eq, and_assoc] using hst
  have hgo : droverMigration r.val line s = (let x := changeWaybill s' line fun w =>
      { w with home := if bankLive s.dev e.core then e.core else anchorIn (reticleBanks s.dev r.val) line,
               counter := min 15 (w.counter + 1), replicas := w.replicas &&& ~~~(BitVec.ofNat 48 (2 ^ r.val)) }
      if x.2 = true then some x.1 else none) := by
    unfold droverMigration
    simp only [he, Option.bind_eq_bind, Option.bind_some, h0, Nat.not_lt.mpr hn, or_self, if_false, hh, hf, Bool.or_self, Bool.false_eq_true,
      hst', ← hs']
    rfl
  unfold changeWaybill at hgo
  cases hr : (makeRoom s' line).2 with
  | true =>
    simp only [hr, if_true] at hgo
    exact event_some (f := droverMigration r.val line) hgo
  | false =>
    simp only [hr, Bool.false_eq_true, if_false] at hgo
    exact event_none (f := droverMigration r.val line) hgo

end

/-! ## Retention and links -/

theorem retentionEntry_enters {s : State} {a : Array_} (hr : s.dev.retctl ≠ 0) (ha : a ∉ s.fab.retained)
    (hi : ∀ p, a = .scratchpad p → ∀ e ∈ s.teams, e.2.place ≠ p.toNat) :
    exec (.retentionEntry a) s = .next (s.setFab { s.fab with retained := a :: s.fab.retained }) := by
  refine event_some (f := retentionEntry a) ?_
  unfold retentionEntry
  cases a with
  | bank p b => simpa [ha] using hr
  | scratchpad p =>
    have hidle : (s.teams.any fun e => e.2.place == p.toNat) = false := by
      simpa only [List.any_eq_false, beq_iff_eq] using hi p rfl
    simpa [ha, hidle] using hr

/-- What RETENTION_EXIT reports of an error that retention corrected. -/
def retentionReport (a : Array_) (s : State) : Report :=
  { cls := 0, unit := match a with | .scratchpad _ => 3 | .bank _ _ => 1, cause := 0x02, place := BitVec.ofNat 12 (arrayPlace a),
    detail := Config.reportDetail (s.free + 1), cycle := s.cycle (reticleOf (arrayPlace a)) }

theorem retentionExit_leaves {s : State} {a : Array_} (ha : a ∈ s.fab.retained) {t : State}
    (ht : t = { s.setFab { s.fab with retained := s.fab.retained.erase a } with free := s.free + 1 }) :
    exec (.retentionExit a) s = .next (if Config.freeBit s.free = true then t.reportCorrected 0 (retentionReport a s) else t) := by
  subst ht
  refine event_some (f := retentionExit a) ?_
  unfold retentionExit
  rw [if_pos (List.contains_iff_mem.mpr ha)]
  rfl

theorem linkStateChange_takes {s : State} {link : Fin 12} (h : .link link ∉ s.dev.lost) (st : LinkState) :
    exec (.linkStateChange link st) s = .next (s.setDev { s.dev with links := SMap.set .down s.dev.links link.val st }) := by
  refine event_some (f := fun s => _) ?_
  rw [if_neg fun hc => h (List.contains_iff_mem.mp hc)]

/-! ## The statement -/

/-- Settles O51: each row does what its lemma above says, and a write-back writes at home the core's dirty bytes alone. -/
theorem hierarchySteps : Obligations.HierarchySteps := by
  refine ⟨?_, ?_, ?_, ?_, ?_, fun s link st h => linkStateChange_takes h st, fun s link => rfl⟩
  · intro s core line x hx
    refine ⟨fun hw => l1WriteBack_goes hx hw rfl rfl, fun hi => l1Invalidation_arrives hx hi rfl,
      fun bytes hb hw => ⟨fun ho => ?_, fun ho => ?_⟩⟩
    · rw [subscriberLineInstall_takes hx hb hw rfl, ho]
      rfl
    · rw [subscriberLineInstall_takes hx hb hw rfl, ho]
      rfl
  · intro s r w hw
    refine ⟨fun leaf level hl => ⟨_, tlbWalk_finds hw rfl hl, ?_, rfl, fun g hg x t hx ht => ?_⟩, fun hl => tlbWalk_misses hw rfl hl⟩
    · exact congrArg (Option.map (·.leaf)) (tlbFind_tlbAdd_same _ r.val 4096 ⟨w.ctx, w.page, leaf, level⟩)
    · exact congrArg (Option.map (·.leaf))
        (tlbFind_foldl_tlbAdd (e := ⟨w.ctx, w.page, leaf, level⟩) (w.cores s) _ (.inr (w.mem_cores hg hx ht)))
  · intro s r line e he h0 hn w s' room stays hh hf
    refine ⟨droverMigration_stays he h0 hn rfl hh hf rfl, fun hst hr => ?_, fun hst hr => ?_⟩
    · exact (droverMigration_moves he h0 hn rfl hh hf rfl hst).trans (congrArg _ (if_neg (hr ▸ Bool.false_ne_true)))
    · exact (droverMigration_moves he h0 hn rfl hh hf rfl hst).trans (congrArg _ (if_pos hr))
  · intro s core line a h
    exact ((Spares.start (P := fun p => forwarded s.fab p ≠ a) h).writeBackLines (fun _ hp => hp) [line]).mem
  · intro s a
    refine ⟨retentionEntry_enters, fun ha => ⟨fun hb => ?_, fun hb => ⟨retentionReport a s, rfl, rfl, rfl, ?_⟩⟩⟩
    · rw [retentionExit_leaves ha rfl, hb]
      rfl
    · rw [retentionExit_leaves ha rfl, hb]
      rfl

end Sys2Proof.Machine
end

