-- ==== Sys2Proof/Proofs/RequestFrame.lean ====
section
/-! Requests at home (R242, R254, R270, R278, R316, R318, R319, R333, R399): what serving one leaves of memory, and what becomes of a
request that is served, refused or a peer's. -/
namespace Sys2Proof.Machine
open Sys2Proof.Claims

/-! ## What serving a request leaves of memory -/

/-- No byte that a location's write may reach is the one in question. -/
def Misses (s : State) (a p : Nat) : Prop := ¬ Reaches s.fab p a

theorem Misses.forwarded {s : State} {a : Nat} (p : Nat) (h : Misses s a p) : forwarded s.fab p ≠ a := (h <| .inl ·)

theorem Misses.forwardedAgain {s : State} {a p : Nat} (h : Misses s a p) : Machine.forwarded s.fab (Machine.forwarded s.fab p) ≠ a :=
  (h <| .inr ·)

section Frame
variable {s t : State} {w : Who} {a : Nat} (h : Spares w.t.place a (Misses s a) s t)
include h

theorem readLine_spares (k : Nat) (f : Form) (sub : Option (Option (Fmt × Fmt) × Bool)) (bytes : List (Nat × Nat)) :
    Gives (fun r => Spares w.t.place a (Misses s a) s r.s) (readLine t w k f sub bytes) := by
  unfold readLine
  split
  · exact .some h
  · extract_lets line core site req0 req locs inL1 x owned coming mine hit tags result keep
    split
    · exact .none
    · split
      · exact .some (h.quiet (noteForwarded_quiet _ _ _ _))
      · split
        · exact .none
        · refine (h.gives (hintAt_quiet _ _ _ _ _ _ _)).bind fun u hu => ?_
          extract_lets v v'
          have hv : Spares w.t.place a (Misses s a) s v' := by
            have hv : Spares w.t.place a (Misses s a) s v :=
              (hu.settleWeak Misses.forwarded k).quiet (countAt_quiet _ _ _ _ _ _ _)
            clear_value v
            dsimp only [v']
            split
            · exact hv.quiet (noteForwarded_quiet _ _ _ _)
            · exact hv.writeBackLines Misses.forwarded _
          clear_value v v'
          split
          · split
            · exact .none
            · have ho := hv.quiet (readOwned_quiet _ _ site line)
              generalize readOwned v' site line = y at ho ⊢
              obtain ⟨all, z⟩ := y
              have hi (z' : State) (hz : Spares w.t.place a (Misses s a) s z') (bs : List Byte) (b : Bool) :
                  Spares w.t.place a (Misses s a) s (z'.setFab (supersede (l1Install z'.fab core line bs b) core line)) :=
                hz.quiet (.setFab ((l1Install_noDirtier _ _ _ _ _ _).trans (supersede_noDirtier _ _ _ _)))
              dsimp only
              split
              · exact (ho.gives (subscribe_quiet _ _ _ _ _)).bind fun z' hz => .some (hi z' hz _ _)
              · exact .some (hi z ho _ _)
          · split
            · have hr := hv.quiet (readLocs_quiet _ _ site w.gid ((List.range 128).map fun i => 128 * line + i))
              generalize readLocs v' site w.gid _ = y at hr ⊢
              exact .some (hr.quiet (l1Fill_quiet _ _ _ _ _))
            · exact .some ((hv.quiet (readLocs_quiet _ _ _ _ _)).quiet (l1Refresh_quiet _ _ _ _ _))

theorem serveLoad_spares (k : Nat) (f : Form) (sub : Option (Option (Fmt × Fmt) × Bool)) (bytes : List (Nat × Nat)) :
    Gives (fun r => Spares w.t.place a (Misses s a) s r.s) (serveLoad t w k f sub bytes) := by
  unfold serveLoad
  dsimp only
  refine .bind (P := fun r : Read => Spares w.t.place a (Misses s a) s r.s) (foldlM_gives (fun r line hr => ?_) _ h) fun r hr => ?_
  · exact (readLine_spares hr _ _ _ _).bind fun x hx => .some hx
  · exact .some (hr.quiet (freeStack_quiet _ _ _ _))

theorem beforeWrite_spares (o : WriteOrder) (locs : List Nat) :
    Gives (Spares w.t.place a (Misses s a) s) (beforeWrite t w o locs) := by
  have hb := (h.settleWeak Misses.forwarded o.op).writeBackLines Misses.forwarded ((locs.map lineOf).dedup)
  unfold beforeWrite
  dsimp only
  generalize writeBackLines (settleWeak t w.t.place o.op) w.t.place ((locs.map lineOf).dedup) = u at hb ⊢
  split
  · exact .none
  · refine .some ?_
    split
    · exact hb.quiet (settleSeen_quiet _ _ _)
    · exact hb

/-- A store into the L1 changes no byte of memory but dirty ones that go home before it. -/
theorem storeL1_spares (o : WriteOrder) (fm : Form) (ws : List (Nat × Nat × Byte × Byte)) :
    Gives (fun u => Memory.get u.mem a = Memory.get s.mem a) (storeL1 t w o fm ws) := by
  unfold storeL1
  extract_lets core locs older u
  have hu : Memory.get u.mem a = Memory.get s.mem a := by
    dsimp only [u]
    split
    · exact (h.settleWeak Misses.forwarded o.op).mem
    · exact h.mem
  clear_value u
  split
  · exact .none
  · exact .some hu

omit h in
theorem fireBoxes_mem (boxes : List Nat) (s : State) : (boxes.foldl fireBox s).mem = s.mem := foldl_mem (f := fireBox) (fun _ _ => rfl) boxes s

theorem serveStore_spares (o : WriteOrder) (f : Form) {ws : List (Nat × Nat × Byte × Byte)} (hw : ∀ x ∈ ws, Misses s a x.2.1) :
    Gives (fun u => Memory.get u.mem a = Memory.get s.mem a) (serveStore t w o f ws) := by
  unfold serveStore
  extract_lets ws' spad glob boxes inL1 home core pages store jp
  have hhome : ∀ x ∈ home.map (·.2), forwarded s.fab x.1 ≠ a := by
    intro x hx
    obtain ⟨y, hy, rfl⟩ := List.mem_map.mp hx
    have hy : y ∈ ws' := (List.mem_filter.mp (List.mem_filter.mp hy).1).1
    dsimp only [ws'] at hy
    split at hy
    · exact (hw y hy).forwarded
    · obtain ⟨z, hz, rfl⟩ := List.mem_map.mp hy
      rw [forwarded_congr h.move z.2.1]
      exact (hw z hz).forwardedAgain
  have hjp : Gives (fun u => Memory.get u.mem a = Memory.get s.mem a) (jp ()) := by
    dsimp only [jp]
    refine .bind (P := Spares w.t.place a (Misses s a) s)
      (foldlM_gives (fun u x hu => hu.gives (hintAt_quiet _ _ _ _ _ _ _)) _ h) fun u hu => ?_
    have hstore : ∀ v, Spares w.t.place a (Misses s a) s v → Gives (fun u => Memory.get u.mem a = Memory.get s.mem a) (store v) :=
      fun v hv => (storeL1_spares hv _ _ _).bind fun v' hv' => .some <| by
        rw [modGroup_mem, fireBoxes_mem]
        exact hv'
    clear_value store
    split
    · exact hstore _ hu
    · refine (beforeWrite_spares hu _ _).bind fun v hv => hstore _ (.quiet (.writeHomeBy ?_ _ _ _ _ hhome) (afterWrite_quiet _ _ _ _ _))
      exact hv.quiet (.foldl (fun v' x => countAt_quiet _ _ _ _ _ _ _) _ v)
  split
  · exact .none
  · exact hjp

theorem serveAtomic_spares (o : WriteOrder) (f : Form) (op : AtomOp) (spoiled : Bool) (x y : Nat) {bytes : List (Nat × Nat)}
    (hw : ∀ b ∈ bytes, Misses s a b.2) :
    Gives (fun r => Memory.get r.s.mem a = Memory.get s.mem a) (serveAtomic t w o f op spoiled x y bytes) := by
  unfold serveAtomic
  extract_lets n core bytes' locs offs old boxes
  have hlocs : ∀ p ∈ locs, forwarded s.fab p ≠ a := by
    intro p hp
    obtain ⟨b, hb, rfl⟩ := List.mem_map.mp hp
    dsimp only [bytes', forwardAll] at hb
    split at hb
    · exact (hw b hb).forwarded
    · obtain ⟨z, hz, rfl⟩ := List.mem_map.mp hb
      rw [forwarded_congr h.move z.2]
      exact (hw z hz).forwardedAgain
  split
  · split <;> exact .some h.mem
  · split
    · exact .none
    · refine (beforeWrite_spares h _ _).bind fun u hu => ?_
      split
      · refine .bind (P := Spares w.t.place a (Misses s a) s) ?_ fun v hv => ?_
        · cases (bytes'.map fun x => (x.1, lineOf x.2)).head? with
          | none => exact .some hu
          | some x => exact (hu.gives (hintAt_quiet _ _ _ _ _ _ _)).bind fun v hv => .some (hv.quiet (countAt_quiet _ _ _ _ _ _ _))
        · refine .some ?_
          refine (congrArg (Memory.get · a) (fireBoxes_mem _ _)).trans (Spares.quiet (.writeHomeBy hv _ _ _ _ ?_) (afterWrite_quiet _ _ _ _ _)).mem
          exact fun z hz => hlocs _ (List.of_mem_zip hz).1
      · exact .some hu.mem

theorem serve_spares (k : Nat) (o : Op) (r : LaneReq) (hr : ∀ b ∈ r.bytes, Misses s a b.2) :
    Gives (fun x => Memory.get x.2.mem a = Memory.get s.mem a) (serve t w k o r) := by
  unfold serve
  refine .bind_any fun f => ?_
  extract_lets o' sub done line home spoiled jp
  split
  · dsimp only
    split
    · exact (serveLoad_spares h _ _ _ _).bind fun x hx => .some hx.mem
    · exact (serveLoad_spares h _ _ _ _).bind fun x hx => .some hx.mem
  · refine (serveStore_spares h _ _ fun x hx => ?_).bind fun x hx => .some hx
    obtain ⟨y, hy, rfl⟩ := List.mem_map.mp hx
    exact hr _ (List.of_mem_zip hy).1
  · have hjp : ∀ op, Gives (fun x => Memory.get x.2.mem a = Memory.get s.mem a) (jp op) := by
      intro op
      dsimp only [jp]
      split
      · exact .some h.mem
      · refine (serveAtomic_spares h _ _ _ _ _ _ hr).bind fun x hx => .some ?_
        dsimp only [done]
        split <;> exact hx
    clear_value jp
    split
    · exact hjp _
    · exact hjp _
    · exact .none
  · exact .some h.mem

end Frame

/-! ## REQUEST_AT_HOME and REFUSAL_RETRY -/

theorem refuse_mem (s : State) (k : Nat) (o : Op) (r : LaneReq) (bank line : Nat) : (refuse s k o r bank line).mem = s.mem := by
  have hm := (makeRoom_quiet 0 s line).mem
  unfold refuse
  dsimp only
  generalize makeRoom s line = u at hm ⊢
  split <;> exact hm

theorem finishOp_mem (s : State) (k : Nat) (o : Op) : (s.finishOp k o).mem = s.mem := by
  unfold State.finishOp
  dsimp only
  split <;> split <;> rfl

theorem afterServe_mem (s : State) (k : Nat) (o : Op) (r : LaneReq) : (afterServe s k o r).mem = s.mem := by
  unfold afterServe
  extract_lets u v
  have hv : v.mem = s.mem := by
    dsimp only [v]
    split <;> rfl
  clear_value v
  split
  · exact (finishOp_mem v k o).trans hv
  · exact hv

/-- A request of an operation leaves every byte that its requests do not name and that the core did not hold dirty. -/
theorem requestOf_spares {s : State} {k : Nat} {o : Op} {w : Who} {a : Nat} (hw : s.who? o.group = some w)
    (hr : ∀ r ∈ o.reqs, ∀ b ∈ r.bytes, Misses s a b.2) (hd : ∀ x ∈ dirtyBytes s.fab w.t.place, Misses s a x.1) :
    Gives (fun t => Memory.get t.mem a = Memory.get s.mem a) (requestOf k o s) := by
  unfold requestOf
  rw [hw]
  refine .bind (P := fun x => x = w) (.some rfl) fun w' hw' => ?_
  subst hw'
  extract_lets ready u
  refine .bind (P := fun r => r ∈ ready) (fun r hr => List.mem_of_getElem? hr) fun r hready => ?_
  have hr := hr r (List.mem_filter.mp hready).1
  have hrefuse (x : State) (hx : Memory.get x.mem a = Memory.get s.mem a) (bank line : Nat) :
      Memory.get (refuse x k o r bank line).mem a = Memory.get s.mem a := by rw [refuse_mem, hx]
  split
  next full v heq =>
  have hv : Spares w'.t.place a (Misses s a) s v := by
    cases heq
    exact ⟨rfl, rfl, (Spares.start (a := a) hd).dirty⟩
  extract_lets line bank ticket ahead jp
  have hjp : Gives (fun t => Memory.get t.mem a = Memory.get s.mem a) (jp ()) := by
    dsimp only [jp]
    split
    · exact .some (hrefuse v hv.mem _ _)
    · split
      next o' s' heq =>
        have hs' : Memory.get s'.mem a = Memory.get s.mem a := serve_spares hv k o r hr _ heq
        split
        · exact .some hs'
        · exact .some ((congrArg (Memory.get · a) (afterServe_mem _ _ _ _)).trans hs')
      · split
        · exact .none
        · exact .some (hrefuse v hv.mem _ _)
  split
  · exact .none
  · exact hjp

end Sys2Proof.Machine
end

