-- ==== Sys2Proof/Proofs/Requests.lean ====
section
/-! REQUEST_AT_HOME and REFUSAL_RETRY (R242, R254, R278, R316, R333, R399): the one request of an operation, a refused request, and a
peer's. -/
namespace Sys2Proof.Machine
open Sys2Proof.Claims

/-! ## Writes at home -/

theorem writeHomeBy_other {s : State} {ws : List (Nat × Byte × Byte)} {a : Nat} (h : ∀ x ∈ ws, forwarded s.fab x.1 ≠ a) (site group : Nat)
    (all : Bool) (wait : List Nat) : Memory.get (writeHomeBy s site all wait group ws).mem a = Memory.get s.mem a := by
  rw [writeHomeBy_mem]
  refine get_written_other fun x hx => ?_
  obtain ⟨y, hy, rfl⟩ := List.mem_map.mp hx
  exact h y hy

theorem writeHomeBy_same {s : State} {a : Nat} (h : forwarded s.fab a = a) (site group : Nat) (all : Bool) (wait : List Nat) (v m : Byte) :
    Memory.get (writeHomeBy s site all wait group [(a, v, m)]).mem a = (Memory.get s.mem a &&& ~~~m) ||| (v &&& m) := by
  rw [writeHomeBy_mem, List.map_singleton, h]
  exact Memory.get_set_self _ _ _

/-! ## Requests of an operation -/

section
variable {s : State} {k : Nat} {o : Op} (ho : s.op? k = some o)
include ho

theorem requestAtHome_of_op : requestAtHome k s = if isHolder o.instr then none else requestOf k o s := by
  unfold requestAtHome
  rw [ho]

theorem exec_requestAtHome_spares {t : State} (h : exec (.requestAtHome k) s = .next t) {w : Who} {a : Nat} (hw : s.who? o.group = some w)
    (hr : ∀ r ∈ o.reqs, ∀ b ∈ r.bytes, ¬ Reaches s.fab b.2 a) (hd : ∀ x ∈ dirtyBytes s.fab w.t.place, ¬ Reaches s.fab x.1 a) :
    Memory.get t.mem a = Memory.get s.mem a := by
  have hgives : Gives (fun t => Memory.get t.mem a = Memory.get s.mem a) (requestAtHome k s) := by
    rw [requestAtHome_of_op ho]
    split
    · exact .none
    · exact requestOf_spares hw hr hd
  obtain rfl : (requestAtHome k s).getD s = t := Host.Outcome.next.inj h
  exact hgives.getD rfl

theorem exec_requestAtHome_refused (hr : ∀ r ∈ o.reqs, r.refused = true) : exec (.requestAtHome k) s = .next s := by
  refine event_none (f := requestAtHome k) ?_
  rw [requestAtHome_of_op ho]
  split
  · rfl
  · have hready (w : Who) : o.reqs.filter (mayServe s w k o) = [] :=
      List.filter_eq_nil_iff.mpr fun r h => by simp [mayServe, hr r h]
    unfold requestOf
    cases s.who? o.group with
    | none => rfl
    | some w => simp only [hready, Option.bind_eq_bind, Option.bind_some, List.getElem?_nil, Option.bind_none]

theorem exec_refusalRetry {r : LaneReq} (hr : o.reqs.find? (·.refused) = some r) : exec (.refusalRetry k) s =
    .next (s.setOp k { o with reqs := o.reqs.map fun x => if x = r then { r with refused := false } else x }) := by
  refine event_some (f := refusalRetry k) ?_
  unfold refusalRetry
  simp only [ho, hr, Option.bind_eq_bind, Option.bind_some]
  rfl

/-- The one request of an operation is served where no bank is asked, or where it holds the ticket that comes first: whether
the bank has a free fill slot is then all the same. -/
theorem exec_requestAtHome_serves {w : Who} {r : LaneReq} {o' : Op} {s' : State} (hh : isHolder o.instr = false) (hr : o.reqs = [r])
    (hm : mayServe s w k o r = true) (hw : s.who? o.group = some w) {u : State} (hu : u = { s with free := s.free + 2 })
    (hb : r.bankLine u = none ∨ ∃ n, r.bankLine u = some n ∧ (refuser u n, k, r.lane) ∈ u.fab.tickets ∧
      ticketAhead u (refuser u n) k r.lane = false)
    (hs : serve u w k o r = some (o', s')) {v : State} (hv : v = { s' with free := s'.free + 1 }) :
    exec (.requestAtHome k) s = .next (
      if Config.freeBit s'.free && isAtomic o.instr && (r.bankLine u).isSome then v.setOp k { o with reqs := [{ r with lost := true }] }
      else afterServe v k o' r) := by
  refine event_some (f := requestAtHome k) ?_
  have hready : o.reqs.filter (mayServe s w k o) = [r] := by simp [hr, hm]
  have hu2 : ({ s with free := s.free + 1 } : State).freeBit = (Config.freeBit (s.free + 1), u) := hu ▸ rfl
  have hv2 : s'.freeBit = (Config.freeBit s'.free, v) := hv ▸ rfl
  rw [requestAtHome_of_op ho, if_neg (hh ▸ Bool.false_ne_true)]
  unfold requestOf
  simp only [hw, hready, Option.bind_eq_bind, Option.bind_some, List.length_singleton, Nat.mod_one, List.getElem?_cons_zero, hu2]
  obtain hn | ⟨n, hn, ht, ha⟩ := hb
  · simp only [hn, Option.isSome_none, Bool.false_and, Bool.and_false, Bool.false_eq_true, if_false, hs, hv2]
    rfl
  · simp only [hn, Option.map_some, Option.getD_some, List.contains_iff_mem.mpr ht, ha, Option.isSome_some, Bool.and_false,
      Bool.not_true, Bool.false_and, Bool.false_eq_true, if_false, hs, hv2, hr, List.map_singleton, if_true, Bool.and_true]
    exact (apply_ite some _ _ _).symm

end

/-! ## Requests of a peer -/

/-- The answer to a peer's request. -/
def State.answerPeer (s : State) (k : Nat) (bs : List Byte) : State := s.setFab { s.fab with peerReplies := s.fab.peerReplies ++ [(k, bs)] }

section
variable {s : State} {k : Nat} {r : PeerReq} (ho : s.op? k = none) (hr : SMap.entry? s.fab.peerReqs k = some r)
  {locs : List Nat} (hlocs : locs = (List.range r.size).map fun i => forwarded s.fab (r.loc + i))
  {u : State} (hu : u = s.setFab { s.fab with peerReqs := SMap.del s.fab.peerReqs k })
  (hl : (locs.map lineOf).any (lineWaits s .other) = false) (hp : ∀ p ∈ locs, p < 1536 * gib)
  (hb : blockedFor s (49 + r.peer.val) 0 locs = false)

section
include ho hr

theorem requestAtHome_of_peer : requestAtHome k s = servePeer k r s := by
  unfold requestAtHome
  simp only [ho, hr, Option.bind_eq_bind, Option.bind_some]

end

include hl hp hb in
/-- Nothing that a peer's request waits for stands before it. -/
theorem peer_goes : ((locs.map lineOf).any (lineWaits s .other) || !(locs.all fun p => p < 1536 * gib)
    || blockedFor s (49 + r.peer.val) 0 locs) = false := by
  have hall : (locs.all fun p => decide (p < 1536 * gib)) = true := List.all_eq_true.mpr fun p h => decide_eq_true (hp p h)
  rw [hl, hall, hb]
  rfl

include ho hr hlocs hu hl hp hb

theorem exec_requestAtHome_peerStore {bs : List Byte} (hd : r.data = some bs) (hc : cowPages s locs = []) :
    exec (.requestAtHome k) s = .next (writeHome u (49 + r.peer.val) false ((locs.zip bs).map fun x => (x.1, x.2, 0xFF))) := by
  refine event_some (f := requestAtHome k) ((requestAtHome_of_peer ho hr).trans ?_)
  have hgo := peer_goes hl hp hb
  subst hlocs hu
  unfold servePeer
  simp only [hgo, hd, hc, Option.isSome_some, Bool.true_or, if_true, Bool.false_eq_true, if_false, List.isEmpty_nil, Bool.not_true]

theorem exec_requestAtHome_peerLoad (hd : r.data = none) (ha : r.atomic = none) :
    exec (.requestAtHome k) s =
      .next ((readLocs u (49 + r.peer.val) 0 locs).2.answerPeer k (readLocs u (49 + r.peer.val) 0 locs).1) := by
  refine event_some (f := requestAtHome k) ((requestAtHome_of_peer ho hr).trans ?_)
  have hgo := peer_goes hl hp hb
  subst hlocs hu
  unfold servePeer
  simp only [hgo, hd, ha, Option.isSome_none, Bool.or_self, Bool.false_eq_true, if_false, List.isEmpty_nil, Bool.not_true]
  rfl

section
variable {op : AtomOp} {x y : Nat} {n : BitVec 16} (hd : r.data = none) (ha : r.atomic = some (op, x, y)) (ht : r.tag = some n)
  (hc : cowPages s locs = [])
include hd ha ht hc

theorem exec_requestAtHome_peerRepeat {z : Served} (hz : heldTag s.fab r.requester (lineOf r.loc) n = some z) {v : Word} (hv : z.old = some v) :
    exec (.requestAtHome k) s = .next (u.answerPeer k (leBytes r.size v.toNat)) := by
  refine event_some (f := requestAtHome k) ((requestAtHome_of_peer ho hr).trans ?_)
  have hgo := peer_goes hl hp hb
  subst hlocs hu
  unfold servePeer
  simp only [hgo, hd, ha, ht, hc, hz, hv, Option.isSome_none, Option.isSome_some, Bool.or_true, if_true, Bool.false_eq_true, if_false,
    List.isEmpty_nil, Bool.not_true, Option.bind_some, Option.map_some, Option.getD_some]
  rfl

theorem exec_requestAtHome_peerAtomic (hz : heldTag s.fab r.requester (lineOf r.loc) n = none) {old : Nat}
    (hold : old = leNat (readNewest s locs)) {v : State}
    (hv : v = writeHome u (49 + r.peer.val) false
      ((locs.zip (leBytes r.size (atomNew op (8 * r.size) x y old).1)).map fun y => (y.1, y.2, 0xFF))) {z : Served}
    (hzz : z = { home := (waybill s ((locs.map lineOf).headD 0)).home, line := lineOf r.loc, core := r.requester, tag := n,
                 old := some (BitVec.ofNat 64 old), fp := 0, poison := [] }) :
    exec (.requestAtHome k) s =
      .next ((v.setFab (recordTag v.fab z)).answerPeer k (leBytes r.size (BitVec.ofNat 64 old).toNat)) := by
  refine event_some (f := requestAtHome k) ((requestAtHome_of_peer ho hr).trans ?_)
  have hgo := peer_goes hl hp hb
  subst hzz hv hold hlocs hu
  unfold servePeer
  simp only [hgo, hd, ha, ht, hc, hz, Option.isSome_none, Option.isSome_some, Bool.or_true, if_true, Bool.false_eq_true, if_false,
    List.isEmpty_nil, Bool.not_true, Option.bind_some, Option.map_some, Option.getD_some]
  rfl

end

end

/-- Settles O33: a write at home and a request served change the bytes they name alone, by `Spares` along the whole of `serve`;
the rest is each case's own lemma. -/
theorem requestsServed : Obligations.RequestsServed := by
  refine ⟨fun s site group all wait ws a => ⟨fun h => writeHomeBy_other h site group all wait, ?_⟩,
    fun s t k o ho => ⟨?_, ?_, ?_, ?_⟩, ?_⟩
  · rintro v m rfl h
    exact writeHomeBy_same h site group all wait v m
  · exact fun h w a hw hr hd => exec_requestAtHome_spares ho h hw hr hd
  · exact exec_requestAtHome_refused ho
  · exact fun r hr => exec_refusalRetry ho hr
  · exact fun w r o' s' hh hr hm hw hb hs => exec_requestAtHome_serves ho hh hr hm hw rfl hb hs rfl
  · intro s k r ho hr t locs u answer hl hp hb
    refine ⟨fun bs hd hc => exec_requestAtHome_peerStore ho hr rfl rfl hl hp hb hd hc,
      fun hd ha => exec_requestAtHome_peerLoad ho hr rfl rfl hl hp hb hd ha, fun op a b n hd ha ht hc => ⟨fun x v hx hv => ?_, fun hx => ?_⟩⟩
    · exact exec_requestAtHome_peerRepeat ho hr rfl rfl hl hp hb hd ha ht hc hx hv
    · exact exec_requestAtHome_peerAtomic ho hr rfl rfl hl hp hb hd ha ht hc hx rfl rfl rfl

end Sys2Proof.Machine
end

