-- ==== Sys2Proof/Proofs/PageMoves.lean ====
section
/-! Bias flips and page moves (R257 to R259, R400). -/
namespace Sys2Proof.Machine

/-! ## Bias flips -/

section
variable {s : State} {v : Word} (hf : s.fab.flip = none) (hv : v.getLsbD 0 = true) {ctx : BitVec 16} {page : Nat}
  (hctx : ctx = s.dev.biasPg.extractLsb' 48 16) (hpage : page = (s.dev.biasPg.extractLsb' 0 40).toNat)
  {s' : State} (hs' : s' = s.setDev { s.dev with biasTarget := v.getLsbD 1 })
include hf hv hctx hpage hs'

theorem biasFlipStart_starts (he : flipError s' ctx page = 0) :
    exec (.biasFlipStart v) s = .next (s'.setFab { s.fab with flip := some (ctx, page, v.getLsbD 1) }) := by
  subst hs' hctx hpage
  refine event_some (f := fun s => some (biasFlipStart v s)) (congrArg some ?_)
  unfold biasFlipStart
  dsimp only [pageCtx, pageNo]
  rw [if_neg (by simp [hv, hf])]
  dsimp only [State.setDev] at he ⊢
  rw [he]
  rfl

theorem biasFlipStart_refused {n : Nat} (he : flipError s' ctx page = n + 1) :
    exec (.biasFlipStart v) s = .next (flipDone s' true (n + 1)) := by
  subst hs' hctx hpage
  refine event_some (f := fun s => some (biasFlipStart v s)) (congrArg some ?_)
  unfold biasFlipStart
  dsimp only [pageCtx, pageNo]
  rw [if_neg (by simp [hv, hf])]
  dsimp only [State.setDev] at he ⊢
  rw [he]
  rfl

end

section
variable {s : State} {ctx : BitVec 16} {page slot : Nat} {host : Bool} {leaf : Word} (hf : s.fab.flip = some (ctx, page, host))
  (hw : walkTables s ctx (page * 65536) = .found leaf 0) (hp : pageSlot s ctx page = some slot)
include hf hw hp

/-- A flip of a page whose leaf is found ends as its bias, the target and the host's link say. -/
theorem biasFlipComplete_of_leaf : biasFlipComplete s =
    if Leaf.hostBias leaf == host then some (flipDone s false 0)
    else if host = true then
      if recallWaits s (pageLines leaf) = true then none
      else some (flipDone (changeLeaf (hbmWritten (dropWaybills (recallLines s (pageLines leaf)) (pageLines leaf)) true (pageLines leaf)) slot
        (leaf ||| BitVec.ofNat 64 (2 ^ 57)) ctx page) false 0)
    else if s.dev.lost.contains .hostPort then none
    else if !s.dev.jibueg || !s.dev.hostUp then some (flipDone s true 0)
    else some (flipDone (changeLeaf s slot (leaf &&& ~~~(BitVec.ofNat 64 (2 ^ 57))) ctx page) false 0) := by
  unfold biasFlipComplete
  simp only [hf, hw, hp, Option.bind_eq_bind, Option.bind_some]
  rfl

theorem biasFlipComplete_same (h : Leaf.hostBias leaf = host) : exec .biasFlipComplete s = .next (flipDone s false 0) := by
  refine event_some (f := biasFlipComplete) ((biasFlipComplete_of_leaf hf hw hp).trans ?_)
  rw [if_pos (beq_iff_eq.mpr h)]

section
variable (hl : Leaf.hostBias leaf = false) (hh : host = true)
include hl hh

theorem biasFlipComplete_waits (hr : recallWaits s (pageLines leaf) = true) : exec .biasFlipComplete s = .next s := by
  refine event_none (f := biasFlipComplete) ((biasFlipComplete_of_leaf hf hw hp).trans ?_)
  rw [hl, hh, if_neg (by decide), if_pos rfl, if_pos hr]

theorem biasFlipComplete_toHost (hr : recallWaits s (pageLines leaf) = false) :
    exec .biasFlipComplete s = .next (flipDone (changeLeaf
      (hbmWritten (dropWaybills (recallLines s (pageLines leaf)) (pageLines leaf)) true (pageLines leaf)) slot
      (leaf ||| BitVec.ofNat 64 (2 ^ 57)) ctx page) false 0) := by
  refine event_some (f := biasFlipComplete) ((biasFlipComplete_of_leaf hf hw hp).trans ?_)
  rw [hl, hh, if_neg (by decide), if_pos rfl, if_neg (hr ▸ Bool.false_ne_true)]

end

section
variable (hl : Leaf.hostBias leaf = true) (hh : host = false) (hlost : .hostPort ∉ s.dev.lost)
include hl hh hlost

theorem biasFlipComplete_toDevice (hj : s.dev.jibueg = true) (hu : s.dev.hostUp = true) :
    exec .biasFlipComplete s = .next (flipDone (changeLeaf s slot (leaf &&& ~~~(BitVec.ofNat 64 (2 ^ 57))) ctx page) false 0) := by
  refine event_some (f := biasFlipComplete) ((biasFlipComplete_of_leaf hf hw hp).trans ?_)
  rw [hl, hh, if_neg (by decide), if_neg (by decide), if_neg fun h => hlost (List.contains_iff_mem.mp h), hj, hu, if_neg (by decide)]

theorem biasFlipComplete_unlinked (hj : s.dev.jibueg = false ∨ s.dev.hostUp = false) :
    exec .biasFlipComplete s = .next (flipDone s true 0) := by
  refine event_some (f := biasFlipComplete) ((biasFlipComplete_of_leaf hf hw hp).trans ?_)
  rw [hl, hh, if_neg (by decide), if_neg (by decide), if_neg fun h => hlost (List.contains_iff_mem.mp h), if_pos (by simpa using hj)]

end

end

/-! ## The start of a page move -/

section
variable {s : State} {v : Word} (hm : s.fab.move = none) (hv : v.getLsbD 0 = true) {ctx : BitVec 16} {page : Nat}
  (hctx : ctx = s.dev.migPg.extractLsb' 48 16) (hpage : page = (s.dev.migPg.extractLsb' 0 40).toNat)
include hm hv hctx hpage

theorem migrationStart_starts {leaf : Word} {slot : Nat} (he : moveError s ctx page = 0)
    (hw : walkTables s ctx (page * 65536) = .found leaf 0) (hp : pageSlot s ctx page = some slot)
    {t : State} (ht : t = writePhys s slot 8 (withMigration leaf 1).toNat) :
    exec (.migrationStart v) s = .next ((t.setFab { t.fab with move := some (ctx, page, leaf, movedLeaf leaf s.dev.migDst, 0) }).setDev
      { t.dev with migErr := false, migCode := 0 }) := by
  have hdst : t.dev.migDst = s.dev.migDst := by rw [ht, (writePhys_sameButStore s slot 8 (withMigration leaf 1).toNat).dev]
  rw [← hdst, ht]
  subst hctx hpage
  refine event_some (f := fun s => some (migrationStart v s)) (congrArg some ?_)
  unfold migrationStart
  rw [if_neg (by simp [hv, hm])]
  dsimp only [pageCtx, pageNo]
  rw [he, hw, hp]
  rfl

theorem migrationStart_refused {n : Nat} (he : moveError s ctx page = n + 1) :
    exec (.migrationStart v) s = .next (s.setDev (raiseCause { s.dev with migErr := true, migCode := BitVec.ofNat 4 (n + 1) } 3)) := by
  subst hctx hpage
  refine event_some (f := fun s => some (migrationStart v s)) (congrArg some ?_)
  unfold migrationStart
  rw [if_neg (by simp [hv, hm])]
  dsimp only [pageCtx, pageNo]
  rw [he]
  rfl

end

/-! ## Copying and the end of a page move -/

/-- The state in which a line of a moving page has been copied from one place to another. -/
def copiedLine (s : State) (a b : Nat) : State :=
  let u := dropWaybills (recallLines s [a / 128, b / 128]) [a / 128, b / 128]
  writeHome u 48 true ((Memory.bytes u.mem a 128).zipIdx.map fun x => (b + x.2, x.1, (0xFF : Byte)))

/-- With the last line the leaf says that all of them are copied. -/
def markPageCopied (v : State) (ctx : BitVec 16) (page n : Nat) : State :=
  match pageSlot v ctx page with
  | some slot => if n + 1 = 512 then writePhys v slot 8 (withMigration (leafAt v slot) 2).toNat else v
  | none => v

/-- The line's poison goes with it, no older bytes of it are seen any more, and the move names the next line. -/
def movedFab (s v : State) (a b : Nat) (next : Nat × Word × Word × Nat) (ctx : BitVec 16) : Fabric :=
  let u := dropWaybills (recallLines s [a / 128, b / 128]) [a / 128, b / 128]
  let tags := (List.range 4).filterMap fun i => (sectorTag u.fab (a / 32 + i)).map fun t => (b / 32 + i, t)
  { v.fab with poison := tags.foldl (fun m e => SMap.put m e.1 e.2) v.fab.poison,
               lags := v.fab.lags.filter fun (l : Lag) => l.word / 16 != a / 128, move := some (ctx, next) }

section
variable {s : State} {ctx : BitVec 16} {page n : Nat} {old new : Word} (hm : s.fab.move = some (ctx, page, old, new, n))
include hm

theorem migrationLineCopy_copies (hn : n < 512) {a b : Nat} (ha : a = Leaf.phys old 0 (page * 65536 + 128 * n))
    (hb : b = Leaf.phys new 0 (page * 65536 + 128 * n)) (hr : recallWaits s [a / 128, b / 128] = false) :
    exec .migrationLineCopy s = .next ((markPageCopied (copiedLine s a b) ctx page n).setFab
      (movedFab s (markPageCopied (copiedLine s a b) ctx page n) a b (page, old, new, n + 1) ctx)) := by
  subst ha hb
  refine event_some (f := migrationLineCopy) ?_
  unfold migrationLineCopy
  simp only [hm, Option.bind_eq_bind, Option.bind_some, if_neg (Nat.not_le.mpr hn), hr, Bool.false_eq_true, if_false]
  rfl

theorem migrationComplete_waits (hw : n < 512 ∨ (∃ e ∈ s.ops, ∃ r ∈ e.2.reqs, ∃ b ∈ r.bytes, inRanges (pageRanges old) b.2 = true) ∨
    recallWaits s (pageLines old) = true) : exec .migrationComplete s = .next s := by
  refine event_none (f := migrationComplete) ?_
  unfold migrationComplete
  simp only [hm, Option.bind_eq_bind, Option.bind_some]
  exact if_pos (hw.imp_right (.imp_left fun ⟨e, he, r, hr, b, hb, hi⟩ =>
    List.any_eq_true.mpr ⟨e, he, List.any_eq_true.mpr ⟨r, hr, List.any_eq_true.mpr ⟨b, hb, hi⟩⟩⟩))

theorem migrationComplete_ends (hn : 512 ≤ n)
    (ho : ∀ e ∈ s.ops, ∀ r ∈ e.2.reqs, ∀ b ∈ r.bytes, inRanges (pageRanges old) b.2 = false) (hr : recallWaits s (pageLines old) = false)
    {u v w : State} (hu : u = recallLines s (pageLines old))
    (hv : v = { u with boxes := u.boxes.map fun (e : Nat × Mailbox) => (e.1, { e.2 with phys := forwarded u.fab e.2.phys }) })
    {slot : Nat} (hp : pageSlot v ctx page = some slot)
    (hw : w = changeLeaf v slot (withMigration (withFrame (leafAt v slot) new) 0) ctx page) :
    exec .migrationComplete s = .next ((w.setFab { w.fab with move := none }).setDev (raiseCause w.dev 3)) := by
  refine event_some (f := migrationComplete) ?_
  have hgo : ¬ (n < 512 ∨ (s.ops.any fun e => e.2.reqs.any fun r => r.bytes.any fun b => inRanges (pageRanges old) b.2) = true ∨
      recallWaits s (pageLines old) = true) := by
    rintro (h | h | h)
    · omega
    · obtain ⟨e, he, h⟩ := List.any_eq_true.mp h
      obtain ⟨r, hr, h⟩ := List.any_eq_true.mp h
      obtain ⟨b, hb, h⟩ := List.any_eq_true.mp h
      exact absurd h (ho e he r hr b hb ▸ Bool.false_ne_true)
    · exact absurd h (hr ▸ Bool.false_ne_true)
  unfold migrationComplete
  simp only [hm, Option.bind_eq_bind, Option.bind_some, if_neg hgo, ← hu, ← hv, hp, ← hw]
  rfl

end

/-! ## The bytes of a copied line -/

theorem Memory.getElem?_bytes (m : List Host.Cell) (a : Nat) {n i : Nat} (hi : i < n) :
    ((Memory.bytes m a n)[i]?).getD 0 = Memory.get m (a + i) := by
  simp [Memory.bytes, hi]

theorem Memory.length_bytes (m : List Host.Cell) (a n : Nat) : (Memory.bytes m a n).length = n := by simp [Memory.bytes]

section
variable {s u : State} {a b : Nat} (hu : u = dropWaybills (recallLines s [a / 128, b / 128]) [a / 128, b / 128])
  (hf : ∀ i < 128, forwarded u.fab (b + i) = b + i)
include hu hf

theorem copiedLine_bytes {i : Nat} (hi : i < 128) : Memory.get (copiedLine s a b).mem (b + i) = Memory.get u.mem (a + i) := by
  subst hu
  have hlen := Memory.length_bytes (dropWaybills (recallLines s [a / 128, b / 128]) [a / 128, b / 128]).mem a 128
  unfold copiedLine
  exact (get_writeHome_run _ b _ true (fun i hi => hf i (hlen ▸ hi)) (hlen.symm ▸ hi)).trans (Memory.getElem?_bytes _ _ hi)

theorem copiedLine_other {p : Nat} (hp : ∀ i < 128, p ≠ b + i) : Memory.get (copiedLine s a b).mem p = Memory.get u.mem p := by
  subst hu
  unfold copiedLine writeHome
  dsimp only
  rw [writeHomeBy_mem]
  refine get_written_other fun x hx => ?_
  obtain ⟨y, hy, rfl⟩ := List.mem_map.mp hx
  obtain ⟨z, hz, rfl⟩ := List.mem_map.mp hy
  have hlt : z.2 < 128 := by simpa [Memory.length_bytes] using List.snd_lt_of_mem_zipIdx hz
  dsimp only
  rw [hf z.2 hlt]
  exact (hp z.2 hlt).symm

end

end Sys2Proof.Machine
end

