-- ==== Sys2Proof/Proofs/HostActs.lean ====
section
/-! The host's acts (R8, R72, R81, R226, R387, R388, R393 to R397, R403): accesses through BAR2, snoops, caps and settings, and writes of
registers. -/
namespace Sys2Proof.Machine

/-! ## BAR2 accesses -/

section
variable {s : State} {off size : Nat} {locs : List Nat} (hlocs : locs = (List.range size).map fun i => s.dev.hwin.toNat * 65536 + off + i)
include hlocs

theorem hostBar2Access_unbacked (hb : off + size ≤ 2 ^ 36) (hp : ∃ p ∈ locs, isBacked p = false ∨ isReserved p = true) (d : Option Word) :
    exec (.hostBar2Access off size d) s = .fault .unbackedAddress := by
  subst hlocs
  obtain ⟨p, hp, h⟩ := hp
  have hany : (bar2Locs s off size).any (fun p => !isBacked p || isReserved p) = true :=
    List.any_eq_true.mpr ⟨p, hp, by simpa using h⟩
  change execHostBar2Access off size d s = _
  unfold execHostBar2Access
  dsimp only
  rw [if_neg (show ¬ bar2Size < off + size from Nat.not_lt.mpr hb), if_pos hany]

section
variable (hb : off + size ≤ 2 ^ 36) (hp : ∀ p ∈ locs, isBacked p = true ∧ isReserved p = false)
include hb hp

/-- Past the checks of its addresses, an access waits, or reads or writes. -/
theorem hostBar2Access_checked (d : Option Word) : exec (.hostBar2Access off size d) s =
    if hostWaits s (.hostBar2Access off size d) = true then .next s
    else match d with
      | none => .next ((readLocs (hostRecall s locs) 48 0 locs).2.setDev
          { (readLocs (hostRecall s locs) 48 0 locs).2.dev with bar2 := (readLocs (hostRecall s locs) 48 0 locs).1 })
      | some v => .next (writeHome (hostRecall (copyFor s locs) locs) 48 false
          ((locs.zip (leBytes size v.toNat)).map fun (a, b) => (a, b, (0xFF : Byte)))) := by
  subst hlocs
  have hany : (bar2Locs s off size).any (fun p => !isBacked p || isReserved p) = false :=
    List.any_eq_false.mpr fun p h => by
      obtain ⟨h1, h2⟩ := hp p h
      simp [h1, h2]
  change execHostBar2Access off size d s = _
  unfold execHostBar2Access
  dsimp only
  rw [if_neg (show ¬ bar2Size < off + size from Nat.not_lt.mpr hb), if_neg (hany ▸ Bool.false_ne_true)]
  cases d <;> rfl

end

end

theorem hostBar2Access_beyond {s : State} {off size : Nat} (h : 2 ^ 36 < off + size) (d : Option Word) :
    exec (.hostBar2Access off size d) s = .next s := by
  change execHostBar2Access off size d s = _
  unfold execHostBar2Access
  dsimp only
  exact if_pos h

/-! ## Jibueg -/

theorem jibuegNegotiation_up {s : State} (h : s.dev.hostUp = true) (up : Bool) :
    exec (.jibuegNegotiation up) s = .next (s.setDev { s.dev with jibueg := up }) :=
  event_some (f := fun _ => _) (if_pos h)

theorem jibuegNegotiation_down {s : State} (h : s.dev.hostUp = false) (up : Bool) : exec (.jibuegNegotiation up) s = .next s :=
  event_none (f := fun _ => _) (if_neg (h ▸ Bool.false_ne_true))

theorem jibuegHostSnoop_recalls {s : State} {line : Nat} (hj : s.dev.jibueg = true) (hu : s.dev.hostUp = true)
    (hr : recallWaits s [line] = false) : exec (.jibuegHostSnoop line) s = .next (forgetCopies (recallLines s [line]) line) :=
  event_some (f := fun _ => _) (if_pos (by rw [hj, hu, hr]; rfl))

theorem jibuegHostSnoop_held {s : State} {line : Nat} (h : s.dev.jibueg = false ∨ s.dev.hostUp = false ∨ recallWaits s [line] = true) :
    exec (.jibuegHostSnoop line) s = .next s := by
  refine event_none (f := fun _ => _) (if_neg fun hc => ?_)
  simp only [Bool.and_eq_true, Bool.not_eq_true'] at hc
  obtain ⟨⟨hj, hu⟩, hr⟩ := hc
  simp [hj, hu, hr] at h

/-! ## Caps, settings and causes -/

theorem pwrcapWrite_stores (s : State) (r : Fin 48) (v : Word) : ∃ t, exec (.pwrcapWrite r v) s = .next t ∧
    SMap.get 500 t.dev.pwrcap r.val = v.extractLsb' 0 16 ∧
    t.log.reports = s.log.reports ++ [{ cls := 4, unit := 13, cause := 0x42, place := BitVec.ofNat 12 (64 * r.val),
                                        detail := (v.extractLsb' 0 16).zeroExtend 64 }] :=
  ⟨pwrcapWrite r.val v s, rfl, SMap.get_set_self _ _ _ _, rfl⟩

theorem assayctlWrite_ignored {s : State} {v : Word} (h : 16 < (v.extractLsb' 0 5).toNat) : exec (.assayctlWrite v) s = .next s :=
  event_some (f := fun s => some (assayctlWrite v s)) (congrArg some (if_pos h))

theorem assayctlWrite_stores {s : State} {v : Word} (h : (v.extractLsb' 0 5).toNat ≤ 16) :
    exec (.assayctlWrite v) s =
      .next (s.setDev (extendConfig { s.dev with assayEnable := v.getLsbD 7, assayK := v.extractLsb' 0 5 } 0x30300 (v &&& 0x9F))) :=
  event_some (f := fun s => some (assayctlWrite v s)) (congrArg some (if_neg (Nat.not_lt.mpr h)))

/-! ## Registers -/

theorem exec_registerWrite (off : Nat) (v : Word) (s : State) : exec (.registerWrite off v) s = .next (registerWrite off v s) := rfl

theorem registerWrite_misaligned {off : Nat} (h : off % 8 ≠ 0) (v : Word) (s : State) : registerWrite off v s = s := if_pos h

/-- A register of the edge or of the memory system. -/
theorem registerWrite_edge {off : Nat} (ha : off % 8 = 0) (h : 0x21000 ≤ off) (v : Word) (s : State) :
    registerWrite off v s = edgeWrite off v s := by
  unfold registerWrite
  rw [if_neg (not_not.mpr ha), if_neg (by omega), if_neg (by omega)]

/-- The words of the log's selected record and checkpoint are read-only. -/
theorem edgeWrite_logWindow {off : Nat} (h : 0x30440 ≤ off) (h' : off < 0x30500) (v : Word) (s : State) : edgeWrite off v s = s := by
  unfold edgeWrite
  dsimp only
  split
  case h_19 => rw [if_neg (by omega), if_neg (by omega), if_neg (by omega)]
  all_goals omega

theorem registerWrite_readOnly {off : Nat}
    (h : off ∈ [0x30400, 0x30408, 0x30420, 0x30800, 0x30808, 0x30820] ∨ 0x30440 ≤ off ∧ off < 0x30500) (v : Word) (s : State) :
    registerWrite off v s = s := by
  obtain h | ⟨h, h'⟩ := h
  · simp only [List.mem_cons, List.not_mem_nil, or_false] at h
    obtain rfl | rfl | rfl | rfl | rfl | rfl := h <;> rfl
  · by_cases ha : off % 8 = 0
    · exact (registerWrite_edge ha (by omega) v s).trans (edgeWrite_logWindow h h' v s)
    · exact registerWrite_misaligned ha v s

/-- A register of queue q. -/
theorem registerWrite_queue {q : Fin 64} {k : Nat} (hk : k < 64) (ha : k % 8 = 0) (v : Word) (s : State) :
    registerWrite (0x10000 + 64 * q.val + k) v s = queueWrite q.val k v s := by
  have hq : (0x10000 + 64 * q.val + k - 0x10000) / 64 = q.val := by omega
  have hr : (0x10000 + 64 * q.val + k) % 64 = k := by omega
  unfold registerWrite
  rw [if_neg (by omega), if_pos (by omega), hq, hr]

theorem registerWrite_warmShape (n : Fin 256) (v : Word) (s : State) :
    registerWrite (0x20000 + 16 * n.val + 8) v s = (if (s.warmSlot n.val).ctx = v.extractLsb' 48 16 then s
      else coldBoxes s (s.warmSlot n.val).region).setWarm n.val { s.warmSlot n.val with
        ctx := v.extractLsb' 48 16, cols := v.extractLsb' 42 6, rows := v.extractLsb' 36 6, origin := v.extractLsb' 24 12 } := by
  have hn : (0x20000 + 16 * n.val + 8 - 0x20000) / 16 = n.val := by omega
  unfold registerWrite
  rw [if_neg (by omega), if_neg (by omega), if_pos (by omega)]
  dsimp only
  rw [if_neg (by omega), hn]
  simp only [beq_iff_eq]

theorem exec_registerWrite_logAck (v : Word) (s : State) : exec (.registerWrite 0x30418 v) s =
    .next (s.setDev (if logCrowded s.log v.toNat then raiseCause { s.dev with logAck := v } 1 else { s.dev with logAck := v })) := rfl

theorem exec_registerWrite_biasPg (v : Word) (s : State) :
    exec (.registerWrite 0x30100 v) s = .next (s.setDev { s.dev with biasPg := v &&& 0xFFFF00FFFFFFFFFF }) := by
  have hmask : (0xFFFF00FFFFFFFFFF : Word) = ~~~0x0000FF0000000000 := by decide
  rw [hmask]
  rfl

/-! ## The statement -/

/-- Settles O59: each act does what its lemma above says. -/
theorem hostActs : Obligations.HostActs := by
  refine ⟨⟨?_, ?_, ?_, ?_⟩, ⟨?_, ?_, ?_⟩, ?_⟩
  · intro s v hf hv ctx page s'
    exact ⟨biasFlipStart_starts hf hv rfl rfl rfl, fun n => biasFlipStart_refused hf hv rfl rfl rfl⟩
  · intro s ctx page slot host leaf hf hw hp
    exact ⟨biasFlipComplete_same hf hw hp,
      fun hl hh => ⟨biasFlipComplete_waits hf hw hp hl hh, biasFlipComplete_toHost hf hw hp hl hh⟩,
      fun hl hh hlost => ⟨biasFlipComplete_toDevice hf hw hp hl hh hlost, biasFlipComplete_unlinked hf hw hp hl hh hlost⟩⟩
  · intro s v hm hv ctx page
    exact ⟨fun leaf slot he hw hp => migrationStart_starts hm hv rfl rfl he hw hp rfl, fun n => migrationStart_refused hm hv rfl rfl⟩
  · intro s ctx page n old new hm
    refine ⟨?_, ?_, migrationComplete_waits hm⟩
    · intro a b u v hn hr
      refine ⟨_, migrationLineCopy_copies hm hn rfl rfl hr, rfl, fun hlt => ?_, fun h511 slot hp => ?_, fun hf => ⟨?_, ?_⟩⟩
      · change (markPageCopied v ctx page n).mem = v.mem
        unfold markPageCopied
        split
        · rw [if_neg (by omega)]
        · rfl
      · change (markPageCopied v ctx page n).mem = _
        unfold markPageCopied
        rw [hp]
        exact congrArg State.mem (if_pos (by omega))
      · exact fun i hi => copiedLine_bytes rfl hf hi
      · exact fun p hp => copiedLine_other rfl hf hp
    · intro hn ho hr u v slot hp w
      exact ⟨migrationComplete_ends hm hn ho hr rfl rfl hp rfl, irqcause_raiseCause _ (by decide)⟩
  · intro s off size v locs
    refine ⟨fun hb hp => ⟨fun hw => ?_, fun d hw => ?_, fun hw => ?_⟩, fun hj => ?_, fun hj => ?_,
      fun hb hp d => hostBar2Access_unbacked rfl hb hp d, fun h d => hostBar2Access_beyond h d⟩
    · exact (hostBar2Access_checked rfl hb hp none).trans (if_neg (hw ▸ Bool.false_ne_true))
    · exact (hostBar2Access_checked rfl hb hp d).trans (if_pos hw)
    · exact (hostBar2Access_checked rfl hb hp (some v)).trans (if_neg (hw ▸ Bool.false_ne_true))
    · exact if_neg (hj ▸ Bool.false_ne_true)
    · exact if_pos hj
  · exact fun s line up => ⟨(jibuegNegotiation_up · up), (jibuegNegotiation_down · up), jibuegHostSnoop_recalls, jibuegHostSnoop_held⟩
  · exact fun s r v => ⟨pwrcapWrite_stores s r v, assayctlWrite_ignored, fun h => ⟨_, assayctlWrite_stores h, rfl, rfl, rfl⟩, rfl⟩
  · intro s off v
    refine ⟨fun h => ?_, fun h => ?_, rfl, exec_registerWrite_biasPg v s, rfl, fun h => ?_, fun h => ?_, rfl, rfl, fun q h => ?_, fun q => ?_,
      fun n => ?_⟩
    · rw [exec_registerWrite, registerWrite_misaligned h]
    · rw [exec_registerWrite, registerWrite_readOnly h]
    · rw [exec_registerWrite_logAck, h]
      rfl
    · rw [exec_registerWrite_logAck, h]
      rfl
    · exact congrArg Host.Outcome.next ((registerWrite_queue (k := 0) (by decide) (by decide) v s).trans
        (if_neg (h ▸ Bool.false_ne_true)))
    · exact congrArg Host.Outcome.next (registerWrite_queue (k := 0x10) (by decide) (by decide) v s)
    · exact congrArg Host.Outcome.next (registerWrite_warmShape n v s)

end Sys2Proof.Machine
end

