-- ==== Sys2Proof/Proofs/Completions.lean ====
section
/-! Completion of loads, stores and atomics (R126, R127, R270, R322), and the bytes of an access through record 0 (R265, R266). -/
namespace Sys2Proof.Machine
open Sys2Proof.Claims

/-! ## The bytes of an access through record 0 (R265, R266) -/

/-- A pointer below the top of region 0 moves by plain addition. -/
theorem ptrAdd_toNat_of_lt {start i : Nat} (h : start + i < 2 ^ 56) :
    (ptrAdd (BitVec.ofInt 64 start) (i : Nat)).toNat = start + i := by
  have hs : (BitVec.ofInt 64 (start : Int)).toNat = start := by
    rw [BitVec.ofInt_natCast, BitVec.toNat_ofNat]
    omega
  have hw : wrapInt 56 (((start % 2 ^ 56 : Nat) : Int) + (i : Int)) = start + i := by
    unfold wrapInt
    omega
  rw [ptrAdd, hs, hw, BitVec.toNat_ofNat]
  omega

/-- The mask of a raw store's byte is full. -/
theorem fullMask_byte {size i : Nat} (h : i < size) : BitVec.ofNat 8 ((2 ^ (8 * size) - 1) / 2 ^ (8 * i)) = 0xFF := by
  refine BitVec.eq_of_getLsbD_eq fun j hj => ?_
  rw [BitVec.getLsbD_ofNat, Nat.testBit_div_two_pow, Nat.testBit_two_pow_sub_one,
    show (0xFF : BitVec 8) = BitVec.allOnes 8 from rfl, BitVec.getLsbD_allOnes, decide_eq_true hj, Bool.true_and, decide_eq_true_eq]
  omega

section
variable {w : Who} {f : Form} {record : BitVec 320} {l start size : Nat} (hr : f.recIx = 0)
include hr

/-- Through record 0 a lane of an unformatted page is raw. -/
theorem through_raw : ({ lane := l, start := start } : LanePlan).through f record = none := by
  simp [LanePlan.through, hr]

variable (hs : f.size = size) (hb : start + size ≤ 2 ^ 56)
include hs hb

theorem loadLane_raw (get : Nat → Byte) :
    (loadLane w ⟨f, record, [{ lane := l, start := start }]⟩ { lane := l, start := start } get).toOption.map (·.data) =
      some (leNat ((List.range size).map fun i => get (start + i))) := by
  simp only [loadLane, through_raw hr, hs, Except.toOption, Option.map_some, Option.some.injEq]
  refine congrArg leNat (List.map_congr_left fun i hi => ?_)
  rw [ptrAdd_toNat_of_lt (by have := List.mem_range.mp hi; omega)]

theorem storeData_raw (data : Nat → Nat) :
    (storeData w ⟨f, record, [{ lane := l, start := start }]⟩ data).toOption.map (·.puts) =
      some [(l, (List.range size).map fun i => (start + i, BitVec.ofNat 8 (data l / 2 ^ (8 * i)), 0xFF))] := by
  have helems : ({ lane := l, start := start } : LanePlan).elems f record = [⟨l, 0, 0, BitVec.ofInt 64 start, 0, size⟩] := by
    simp [LanePlan.elems, through_raw hr, hs]
  have hput : putElem none ⟨l, 0, 0, BitVec.ofInt 64 start, 0, size⟩ (data l) =
      (List.range size).map fun i => (start + i, BitVec.ofNat 8 (data l / 2 ^ (8 * i)), 0xFF) := by
    refine List.map_congr_left fun i hi => ?_
    have hi : i < size := List.mem_range.mp hi
    simp only [pow_zero, mul_one, fullMask_byte hi]
    rw [ptrAdd_toNat_of_lt (by omega)]
  simp only [storeData, hr, storePlain, through_raw hr, helems, ne_eq, not_true_eq_false, false_and, if_false, List.foldl_cons,
    List.foldl_nil, hput, bind, Except.bind, Except.toOption, Option.map_some, List.nil_append]

end

/-! ## Completion (R126, R127, R270, R322) -/

/-- An operation whose requests are served, with no earlier writer of its registers, is of a memory instruction and may complete. -/
structure Completes (s : State) (k : Nat) (o : Op) (w : Who) (c : Ctx) (f : Form) : Prop where
  op : s.op? k = some o
  who : s.who? o.group = some w
  ctx : s.ctx? o.group = some c
  form : formOf o.instr = some f
  counted : isPosted o = false
  served : o.reqs = []
  unposted : o.posted = false
  dest : destFree s k o = true
  unblocked : anyBlocked s o.locs = false

/-- INSTRUCTION_COMPLETE of a memory instruction; that of a store from tiles is the matrix engine's. -/
theorem exec_instructionComplete {s t : State} {k : Nat} {o : Op} (ho : s.op? k = some o) (hm : ∀ f, o.instr ≠ .mst f)
    (hf : (formOf o.instr).isSome = true) (ht : completeMemory k o s = some t) : exec (.instructionComplete k) s = .next t := by
  refine event_some (f := instructionComplete k) ?_
  unfold instructionComplete
  rw [ho, ← ht]
  cases hi : o.instr with
  | mst f => exact absurd hi (hm f)
  | mzero | mrd | mwr => rw [hi] at hf; cases hf
  | _ => simp only [Option.bind_eq_bind, Option.bind_some, hi]

/-- The state with a completed load's lanes written, and its shared bytes logged. -/
def loadWritten (s : State) (o : Op) (w : Who) (c : Ctx) (f : Form) (d : Spec) (sx : Bool) (r : LoadDone) : State :=
  let u := writeLoad s o w.t.launch f d sx r
  if ∃ e ∈ o.got, sharedByte e.1 = true then assayLog c (o.sig []) (outsideVals o) u else u

/-- The state with a completed atomic's results written, its writes settled and the operation logged. -/
def atomWritten (s : State) (o : Op) (c : Ctx) (f : Form) (a : AForm) : State :=
  let u := settleEverywhere
    ((s.modGroup o.group fun g => o.inFrame g fun g =>
      o.res.foldl (fun g e => writeData g a.data f.size e.1 false e.2.toNat) g).raiseFp o.group o.fp) o.locs
  if o.locs = [] then u else assayLog c (o.sig (o.locs ++ o.vals.map fun e => e.2.toNat)) o.res u

namespace Completes
variable {s : State} {k : Nat} {o : Op} {w : Who} {c : Ctx} {f : Form} (h : Completes s k o w c f)
include h

/-- Nothing holds the completion back. -/
theorem goes : (!o.reqs.isEmpty || o.posted || !destFree s k o || anyBlocked s o.locs) = false := by
  simp [h.served, h.unposted, h.dest, h.unblocked]

theorem load {d : Spec} {sx : Bool} (hl : loadRow o.instr = some (f, d, sx)) : completeMemory k o s =
    match loadDone w f o with
    | .error x => some (s.faultOp k o x)
    | .ok r => match r.trap with
      | some x => some ((loadWritten s o w c f d sx r).faultOp k o x)
      | none => some (acquired f o.group w.t.place ((loadWritten s o w c f d sx r).finishOp k o)) := by
  unfold completeMemory loadWritten
  simp only [h.who, h.ctx, h.form, h.counted, h.goes, Option.bind_eq_bind, Option.bind_some, Bool.false_eq_true, if_false,
    ← List.any_eq_true]
  cases hi : o.instr with
  | ld m | ldu m => rw [hi] at hl; cases hl; rfl
  | _ => rw [hi] at hl; cases hl

theorem store (hs : (∃ d, storeRow o.instr = some (f, d)) ∨ (∃ a fb, o.instr = .ctxsv a fb) ∨ ∃ m, o.instr = .venc m) :
    completeMemory k o s = some (vencAdvance o ((completeStore s w.t.place o.locs).finishOp k o)) := by
  unfold completeMemory
  simp only [h.who, h.ctx, h.form, h.counted, h.goes, Option.bind_eq_bind, Option.bind_some, Bool.false_eq_true, if_false]
  obtain ⟨d, hs⟩ | ⟨a, fb, hi⟩ | ⟨m, hi⟩ := hs
  · cases hi : o.instr with
    | st m | stu m => rfl
    | _ => rw [hi] at hs; cases hs
  · simp only [hi]; rfl
  · simp only [hi]; rfl

theorem atom {a : AForm} {once : Bool} (ha : atomRow o.instr = some (a, once)) : completeMemory k o s =
    match poisonTrap w o.poison with
    | some x => some ((atomWritten s o c f a).faultOp k o x)
    | none => some (acquired f o.group w.t.place ((atomWritten s o c f a).finishOp k o)) := by
  unfold completeMemory atomWritten
  simp only [h.who, h.ctx, h.form, h.counted, h.goes, Option.bind_eq_bind, Option.bind_some, Bool.false_eq_true, if_false,
    ← List.isEmpty_iff]
  cases hi : o.instr with
  | atom m | atomu m => rw [hi] at ha; cases ha; rfl
  | _ => rw [hi] at ha; cases ha

theorem exec_next {t : State} (hm : ∀ m, o.instr ≠ .mst m) (ht : completeMemory k o s = some t) :
    exec (.instructionComplete k) s = .next t :=
  exec_instructionComplete h.op hm (h.form ▸ rfl) ht

end Completes

/-- What goes to peers or the host alone completes before it is acknowledged (R399). -/
theorem completeMemory_posted {s : State} {k : Nat} {o : Op} {w : Who} {c : Ctx} {f : Form} (hw : s.who? o.group = some w)
    (hc : s.ctx? o.group = some c) (hf : formOf o.instr = some f) (hp : isPosted o = true) (hn : o.posted = false) :
    completeMemory k o s =
      some ((vencAdvance o (s.setOp k { o with posted := true, flag := none, doneAt := s.nextId })).modGroup o.group fun g =>
        g.uncount o.flag) := by
  unfold completeMemory
  simp only [hw, hc, hf, hp, hn, Option.bind_eq_bind, Option.bind_some, Bool.false_eq_true, if_false, if_true]
  rfl

/-- Only a VENC that says so advances a pointer. -/
theorem vencAdvance_of_not {o : Op} (h : ∀ m, o.instr = .venc m → m.aux = false) (s : State) : vencAdvance o s = s := by
  unfold vencAdvance
  split
  · next m hm => split <;> simp [h m hm]
  · rfl

theorem vencAdvance_of_aux {o : Op} {m : MForm} {n : Fin 64} (hi : o.instr = .venc m) (ha : m.addr = .s n) (hx : m.aux = true)
    (s : State) : vencAdvance o s = s.modGroup o.group fun g => o.inFrame g fun g => g.writeS n.val (o.val 200) := by
  simp [vencAdvance, hi, ha, hx]

/-- Settles O32, by the equation of `completeMemory` for each kind of instruction. -/
theorem accessesComplete : Obligations.AccessesComplete := by
  refine ⟨fun w f record l start size hr hs hb => ⟨loadLane_raw hr hs hb, storeData_raw hr hs hb⟩,
    fun s k o w c f ho hw hc hf => ⟨fun hp hq hn hd hb => ?_, fun hp hn => ?_⟩⟩
  · have h : Completes s k o w c f := ⟨ho, hw, hc, hf, hp, hq, hn, hd, hb⟩
    refine ⟨fun d sx r hl hr => ?loaded, fun d sx x hl hx => ?failed, fun hs => ?stored, fun m n hi ha hx => ?encoded, fun a once ha => ?atom⟩
    case loaded =>
      have hm (m : MForm) : o.instr ≠ .mst m := fun hi => by rw [hi] at hl; cases hl
      have he := h.load hl
      simp only [hr] at he
      exact ⟨fun ht => h.exec_next hm (by rw [he, ht]; rfl), fun x ht => h.exec_next hm (by rw [he, ht]; rfl)⟩
    case failed =>
      refine h.exec_next (fun m hi => ?_) ((h.load hl).trans (by rw [hx]))
      rw [hi] at hl; cases hl
    case stored =>
      have hm (m : MForm) : o.instr ≠ .mst m := fun hi => by simp [hi, storeRow] at hs
      have hv (m : MForm) (hi : o.instr = .venc m) : m.aux = false := by simpa [hi, storeRow] using hs
      exact h.exec_next hm ((h.store (hs.imp_right (.imp_right fun ⟨m, hi, _⟩ => ⟨m, hi⟩))).trans
        (congrArg some (vencAdvance_of_not hv _)))
    case encoded =>
      exact h.exec_next (fun _ hm => nomatch hi.symm.trans hm)
        ((h.store (.inr (.inr ⟨m, hi⟩))).trans (congrArg some (vencAdvance_of_aux hi ha hx _)))
    case atom =>
      have hm (m : MForm) : o.instr ≠ .mst m := fun hi => by rw [hi] at ha; cases ha
      have he := h.atom ha
      exact ⟨fun ht => h.exec_next hm (by rw [he, poisonTrap_eq_none_iff.mpr ht]; rfl),
        fun x ht => h.exec_next hm (by rw [he, ht]; rfl)⟩
  · refine exec_instructionComplete ho (fun m hi => ?_) (hf ▸ rfl) (completeMemory_posted hw hc hf hp hn)
    rw [isPosted, hi] at hp; cases hp

end Sys2Proof.Machine
end

