-- ==== Sys2Proof/Proofs/FullEmpty.lean ====
section
/-! LDFE and STFE (R279): what they do with every granule full, and the wait of LDFE for an empty one. -/
namespace Sys2Proof.Machine

section
variable {s s1 s2 s3 : State} {c : Ctx} {f : MForm} {p : Plan} {locs : List Located} {o : Op}
  (hd : dataOk c.g false (sizeBytes f.size) f.data = true) (ha : (MForm.form f false).addrOk c.g = true)
  (hl : (MForm.form f false).acting c.g ≠ [])
include hd ha hl

/-- The operands of a full/empty access with an active lane are good. -/
theorem feOperands : (dataOk c.g false (MForm.form f false).size f.data && (MForm.form f false).addrOk c.g) = true ∧
    ((MForm.form f false).acting c.g).isEmpty = false := by
  exact ⟨Bool.and_eq_true_iff.mpr ⟨hd, ha⟩, by simpa using hl⟩

variable (hi : Issues s c)
include hi

section
variable (hp : planAccess c .load (MForm.form f false) spadOnly s = .ok p) (hc : checkAccess s (c.who s) .load false p.pieces = .ok locs)
  (ho : orderWaits c (MForm.form f false) locs false s = .ok s1) (hn : noOverlap c locs false s1 = .ok ())
include hp hc ho hn

theorem ldfe_waits (he : (locs.map fun b => b.loc - 2 ^ 48).all (fun a => SMap.get false c.t.fe (a / 16)) = false) :
    exec (.ldfe f) s = .next (c.waitHere s1) := by
  refine exec_next_wait hi (body := fun c s => _) rfl ?_
  obtain ⟨hok, hne⟩ := feOperands hd ha hl
  simp only [hok, hne, hp, hc, ho, hn, he, guardOp_true, Res.ok_bind, Bool.not_false, Bool.false_eq_true, if_false, if_true]

theorem ldfe_loads (he : (locs.map fun b => b.loc - 2 ^ 48).all (fun a => SMap.get false c.t.fe (a / 16)) = true)
    (h2 : completeAtOnce c (.ldfe f) s1 = .ok s2)
    (h3 : serveNow { c.op (.ldfe f) with record := p.record, vals := keepPlan p, reqs := loadReqs p locs } s2 = .ok (o, s3))
    {r : LoadDone} (hr : loadDone (c.who s) (MForm.form f false) o = .ok r) (ht : r.trap = none) :
    exec (.ldfe f) s = .next (c.done
      (let t := writeLoad s3 o c.lid (MForm.form f false) f.data false r
       if f.aux then t.modTeam c.g.team fun x => x.setGranules (locs.map fun b => b.loc - 2 ^ 48) false else t)) := by
  refine exec_next_done hi (body := fun c s => _) rfl ?_
  obtain ⟨hok, hne⟩ := feOperands hd ha hl
  simp only [hok, hne, hp, hc, ho, hn, he, h2, h3, hr, ht, guardOp_true, Res.ok_bind, Bool.not_true, Bool.false_eq_true, if_false]

end

theorem stfe_stores (hp : planAccess c .store (MForm.form f false) spadOnly s = .ok p)
    (hc : checkAccess s (c.who s) .store false p.pieces = .ok locs) (ho : orderWaits c (MForm.form f false) locs true s = .ok s1)
    (hn : noOverlap c locs true s1 = .ok ()) {st : Stored}
    (hst : storeData (c.who s) p (readData c.g f.data (sizeBytes f.size)) = .ok st) (h2 : completeAtOnce c (.stfe f) s1 = .ok s2)
    (h3 : serveNow { c.op (.stfe f) with reqs := putReqs locs st.puts } s2 = .ok (o, s3)) :
    exec (.stfe f) s = .next (c.done (s3.modTeam c.g.team fun x => x.setGranules (locs.map fun b => b.loc - 2 ^ 48) true)) := by
  refine exec_next_done hi (body := fun c s => _) rfl ?_
  obtain ⟨hok, hne⟩ := feOperands hd ha hl
  have hst : storeData (c.who s) p (readData c.g f.data (MForm.form f false).size) = .ok st := hst
  simp only [hok, hne, hp, hc, ho, hn, hst, h2, h3, guardOp_true, Res.ok_bind, Bool.false_eq_true, if_false]

end

/-- Settles O34: each instruction, with its operands good and its access checked, serves its requests at once and sets its granules. -/
theorem fullEmptyAccess : Obligations.FullEmptyAccess := by
  intro s s1 s2 c f p locs o hi hd ha hl offs
  refine ⟨fun hp hc ho hn => ⟨ldfe_waits hd ha hl hi hp hc ho hn, fun r he h2 s3 h3 hr ht => ?_⟩, fun hp hc ho hn st s3 hst h2 h3 => ?_⟩
  · exact ldfe_loads hd ha hl hi hp hc ho hn he h2 h3 hr ht
  · exact stfe_stores hd ha hl hi hp hc ho hn hst h2 h3

end Sys2Proof.Machine
end

