-- ==== Sys2Proof/Proofs/Repeats.lean ====
section
/-! Atomics sent again and accesses of peers that stay unanswered (R278, R333, R399). -/
namespace Sys2Proof.Machine
open Sys2Proof.Claims

/-! ## Atomics sent again -/

theorem exec_atomicRepeatPathLost {s : State} {k : Nat} {o : Op} (ho : s.op? k = some o) (ha : isAtomic o.instr = true) :
    exec (.atomicRepeatPathLost k) s = .next (repeatAtomic k o s) := by
  refine event_some (f := atomicRepeatPathLost k) ?_
  simp [atomicRepeatPathLost, ho, ha]

theorem exec_atomicRepeatTimeout {s : State} {k core : Nat} {o : Op} (ho : s.op? k = some o) (ha : isAtomic o.instr = true)
    (hc : (s.group? o.group).bind (placeOfGroup s) = some core) (hr : o.reqs ≠ [])
    (hl : o.sentAt + 0x100000 ≤ s.cycle (reticleOf core)) : exec (.atomicRepeatTimeout k) s = .next (repeatAtomic k o s) := by
  refine event_some (f := atomicRepeatTimeout k) ?_
  have hlate : (isAtomic o.instr && !o.reqs.isEmpty && decide (o.sentAt + 0x100000 ≤ s.cycle (reticleOf core))) = true := by
    rw [ha, List.isEmpty_eq_false_iff.mpr hr, decide_eq_true hl]
    rfl
  simp only [atomicRepeatTimeout, ho, hc, Option.bind_eq_bind, Option.bind_some, hlate, if_true]
  rfl

/-- A home that holds the tag of a repeat answers from its record: the state stays as it is (R278). -/
theorem serve_repeated {s : State} {w : Who} {k : Nat} {o : Op} {r : LaneReq} {u : BitVec 16} {x : Served}
    (ha : isAtomic o.instr = true) (hk : r.kind = .atomic) (ht : r.tag = some u) (hr : r.again = true)
    (hx : heldTag s.fab w.t.place (lineOf (((r.bytes.head?).map (·.2)).getD 0)) u = some x) :
    serve s w k o r = some ({ o with
      reqs := o.reqs.erase r, res := match x.old with | some v => o.res ++ [(r.lane, v)] | none => o.res, fp := o.fp ||| x.fp,
      poison := o.poison ++ x.poison.map fun (a, t) => (r.lane, a, t) }, s) := by
  unfold serve
  cases hi : o.instr with
  | atom a | atomu a => simp only [formOf, hk, ht, hr, hx, Option.bind_eq_bind, Option.bind_some, if_true]; rfl
  | _ => rw [hi] at ha; cases ha

/-! ## Peers that stay unanswered -/

/-- Every link to a peer's byte is down. -/
theorem linkDown_iff (s : State) (p : Nat) : linkDown s p = true ↔
    isPeer p = true ∧ ∀ i < 12, (SMap.get 0 s.dev.peers (peerOf p)).getLsbD i = true → SMap.get .down s.dev.links i = .down := by
  simp only [linkDown, Bool.and_eq_true, List.all_eq_true, List.mem_range, Bool.or_eq_true, Bool.not_eq_true', beq_iff_eq]
  refine and_congr_right fun _ => forall₂_congr fun i _ => ?_
  cases (SMap.get 0 s.dev.peers (peerOf p)).getLsbD i <;> simp

theorem exec_peerAccessTimeout {s : State} {k : Nat} {o : Op} {w : Who} (ho : s.op? k = some o) (hw : s.who? o.group = some w)
    (hl : isLoadOp o.instr = true) (hp : o.posted = false) (hq : (askedBy o).any isPeer = true)
    (ht : o.sentAt + w.g.linkFenceLim.zeroExtend 64 ≤ s.cycle (reticleOf w.t.place) ∨ ∃ p ∈ askedBy o, linkDown s p = true) :
    exec (.peerAccessTimeout k) s = .next (s.faultOp k o { cause := 0x10 }) := by
  refine event_some (f := peerAccessTimeout k) ?_
  have hlate : (decide (o.sentAt + w.g.linkFenceLim.zeroExtend 64 ≤ s.cycle (reticleOf w.t.place)) ||
      (askedBy o).any (linkDown s)) = true := by
    simpa [List.any_eq_true] using ht
  unfold askedBy at hq hlate
  simp only [peerAccessTimeout, ho, hw, hl, hp, hq, hlate, Option.bind_eq_bind, Option.bind_some, Bool.not_true, Bool.or_self,
    Bool.false_eq_true, if_false, if_true]
  rfl

/-- An instruction whose reads of a peer stay unanswered traps once its links are down or it has waited long enough, and else counts on. -/
theorem unanswered_peer {s : State} {o : Op} {w : Who} (hw : s.who? o.group = some w)
    (hk : ∀ r ∈ o.reqs, r.kind = .load ∨ r.kind = .atomic) (hq : (askedBy o).any isPeer = true) :
    unanswered o s =
      let now := s.cycle (reticleOf w.t.place)
      if (askedBy o).any (linkDown s) = true ∨
          w.g.peerStart.isSome = true ∧ w.g.peerStart.getD now + w.g.linkFenceLim.zeroExtend 64 ≤ now then
        .trap { cause := 0x10 }
      else .wait (s.modGroup o.group fun g => { g with peerStart := some (w.g.peerStart.getD now) }) := by
  have hall : (o.reqs.filter fun r => r.kind == .load || r.kind == .atomic) = o.reqs :=
    List.filter_eq_self.mpr fun r hr => by simpa using hk r hr
  unfold askedBy at hq ⊢
  simp only [unanswered, hall, hq, hw, if_true, Bool.or_eq_true, Bool.and_eq_true, decide_eq_true_eq]
  rfl

/-- Settles O39, by what a repeat, a home with its tag and an unanswered read each do. -/
theorem repeatsAndTimeouts : Obligations.RepeatsAndTimeouts := by
  intro s k core o w hw hc
  refine ⟨fun ho ha => ⟨exec_atomicRepeatPathLost ho ha, exec_atomicRepeatTimeout ho ha hc, fun r u x hk ht hr hx => ?_⟩,
    fun ho hl hp hq ht => ?_, fun hs hk hq => ?_⟩
  · rw [serve_repeated ha hk ht hr hx]
    exact ⟨rfl, rfl, fun v hv => by rw [hv]; rfl⟩
  · refine exec_peerAccessTimeout ho hw hl hp hq (ht.imp_right fun ⟨p, hp, hd⟩ => ⟨p, hp, (linkDown_iff s p).mpr hd⟩)
  · have hu : serveNow o s = .error (unanswered o s) := by simp [serveNow, hs]
    rw [hu, unanswered_peer hw hk hq]
    exact ⟨fun h => congrArg Except.error (if_pos h), fun h1 h2 => congrArg Except.error (if_neg (not_or.mpr ⟨by simp [h1], h2⟩))⟩

end Sys2Proof.Machine
end

