-- ==== Sys2Proof/Proofs/Copies.lean ====
section
/-! BCOPY (R288 to R290): its issue, alone and in a convoy, its first beat, its completion and its faults. -/
namespace Sys2Proof.Machine
open Sys2Proof.Claims

/-! ## What the lines of an engine leave alone -/

theorem fillTlb_sameButStore (s : State) (place : Nat) (c : BitVec 16) (vas : List Nat) : s.SameButStore (fillTlb s place c vas) := by
  refine State.SameButStore.foldl (fun s page => ?_) _ s
  split
  · rfl
  · split <;> rfl

theorem Who.fill_sameButStore (w : Who) (s : State) (ps : List Nat) : s.SameButStore (w.fill s ps) := fillTlb_sameButStore _ _ _ _

theorem reclaimOne_sameButStore (s : State) (bank line : Nat) (r : Reclaim) : s.SameButStore (reclaimOne s bank line r) := by
  cases r <;> rfl

theorem reclaimFrom_sameButStore (bank : Nat) (xs : List (Nat × Reclaim)) : ∀ s : State, s.SameButStore (reclaimFrom bank xs s).1 := by
  induction xs with
  | nil => exact fun s => .rfl' s
  | cons x xs ih =>
    intro s
    rw [reclaimFrom]
    split
    · exact reclaimOne_sameButStore s _ _ _
    · exact (reclaimOne_sameButStore s _ _ _).trans (ih _)

theorem changeWaybill_sameButStore (s : State) (line : Nat) (f : Waybill → Waybill) : s.SameButStore (changeWaybill s line f).1 := by
  have hm : s.SameButStore (makeRoom s line).1 := by
    unfold makeRoom
    dsimp only
    split
    · rfl
    · exact reclaimFrom_sameButStore _ _ s
  unfold changeWaybill
  dsimp only
  split
  · exact hm.then_setFab _
  · exact hm

theorem holdLines_sameButStore (s : State) (locs : List Nat) : Gives s.SameButStore (holdLines s locs) := by
  unfold holdLines
  extract_lets lines
  split
  · exact .none
  · refine foldlM_gives (P := s.SameButStore) (fun u n hu => ?_) _ (recallDirty_sameButStore s lines)
    have hc := hu.trans (changeWaybill_sameButStore u n fun w => { w with held := true })
    dsimp only
    split
    · exact .some hc
    · exact .none

/-! ## Engines at issue -/

theorem assayLog_sameButAssay (c : Ctx) (sig : Word) (vals : List (Nat × Word)) (s : State) :
    (assayLog c sig vals s).groups = s.groups ∧ (assayLog c sig vals s).nextId = s.nextId := by
  unfold assayLog assayPut
  dsimp only
  split
  · split <;> exact ⟨rfl, rfl⟩
  · exact ⟨rfl, rfl⟩

section
variable {s : State} {c : Ctx} {i : Instr} {o : Op} {sig : Word}

/-- The side that names an operation anew issues it. -/
theorem joinEngine_new {k : Nat} (hs : c.t.side ≠ .escort) (hk : k = s.nextId) (hn : k < 2 ^ 64) :
    joinEngine c i o [namedOp k] s = issueOp c o s := by
  have hv : (BitVec.ofNat 64 k).toNat = s.nextId := by rw [BitVec.toNat_ofNat, Nat.mod_eq_of_lt hn, hk]
  simp [joinEngine, namedOp, -BitVec.toNat_ofNat, hv, hs]

/-- A team on its own starts its engine at once, under the identity that the operation will have. -/
theorem startEngine_solo (hg : s.group? c.gid = some c.g) (hs : c.t.side = .solo) (hn : s.nextId < 2 ^ 64) (hf : CounterFree c i) :
    startEngine c i o sig s = issueOp c o (assayLog c sig [namedOp s.nextId] s) := by
  simp only [startEngine, countFlag_free hg hf, performOnce_of_solo hs, Res.ok_bind]
  exact joinEngine_new (by rw [hs]; decide) (assayLog_sameButAssay c sig _ s).2.symm hn

variable (hs : c.t.side = .solo)
include hs

theorem issueHolder_solo_waits (hl : holdLines s o.locs = none) : issueHolder c i o sig s = .error (.wait s) := by
  simp [issueHolder, hs, hl]

theorem issueHolder_solo (hg : s.group? c.gid = some c.g) (hn : s.nextId < 2 ^ 64) (hf : CounterFree c i) (ho : o.flag = c.flag i) {v : State}
    (hl : holdLines s o.locs = some v) : issueHolder c i o sig s = issueOp c o (assayLog c sig [namedOp v.nextId] v) := by
  have hsv := holdLines_sameButStore s o.locs v hl
  have hgv : v.group? c.gid = some c.g := by rw [State.group?, hsv.groups]; exact hg
  have hga : (assayLog c sig [namedOp s.nextId] s).group? c.gid = some c.g := by
    rw [State.group?, (assayLog_sameButAssay c sig _ s).1]
    exact hg
  simp only [issueHolder, hs, hl, startEngine_solo hg hs hn hf, issueOp_free hga ho hf, startEngine_solo hgv hs (hsv.nextId ▸ hn) hf]
  rfl

end

/-! ## BCOPY at issue -/

/-- The handler may start no engine (R354). -/
theorem engineReady_handler {s : State} {c : Ctx} (hs : c.g.sup = true) : engineReady c s = .error (.trap { cause := 0x02 }) := by
  simp [engineReady, notInHandler, hs]

section
variable {s : State} {c : Ctx} {f : EForm} {i j n : Fin 64}

theorem bcopy_handler (hi : Issues s c) (hs : c.g.sup = true) : exec (.bcopy f) s = .next (c.takeTrap { cause := 0x02 } (c.settled s)) := by
  refine exec_next_trap hi (body := bcopyBody f) rfl ?_
  simp only [bcopyBody, engineReady_handler hs, Res.error_bind]

variable (hsrc : f.src = .s i) (hdst : f.dst = .s j) (hlen : f.len = .s n) (ha : acquirePending s c.gid = false) (hs : c.g.sup = false)
include hsrc hdst hlen ha hs

theorem bcopyBody_illegal (hx : copyOf f.twoD (c.g.readS i.val) (c.g.readS j.val) (c.g.readS n.val) = none) :
    bcopyBody f c s = .error (.trap { cause := 0x02 }) := by
  simp only [bcopyBody, engineReady_of_ready hs ha, sVal, addrS, hsrc, hdst, hlen, hx, Res.ok_bind, illegal_eq]

variable {x : Copy} (hx : copyOf f.twoD (c.g.readS i.val) (c.g.readS j.val) (c.g.readS n.val) = some x)
include hx

theorem bcopyBody_unusable (hu : usable s.dev f.place.toNat = false) :
    bcopyBody f c s = .error (.trap { cause := 0x12, addr := f.place.zeroExtend 64 }) := by
  simp only [bcopyBody, engineReady_of_ready hs ha, sVal, addrS, hsrc, hdst, hlen, hx, hu, Res.ok_bind, Bool.not_false, if_true, trap_eq,
    Res.error_bind]
  rfl

/-- With its ranges checked BCOPY issues the engine that holds the lines it will write. -/
theorem bcopyBody_issues (hu : usable s.dev f.place.toNat = true)
    (hr : rangeCheck (c.who s) (x.rowsOf .load (c.g.readS i.val) x.sstride ++
      if isSpadPtr (c.g.readS j.val).toNat then [] else x.rowsOf .store (c.g.readS j.val) x.dstride) = .ok ()) :
    bcopyBody f c s =
      let u := (c.who s).fill s (if isSpadPtr (c.g.readS j.val).toNat then [] else x.pairs.map (·.2))
      issueHolder c (.bcopy f) { c.op (.bcopy f) with
        vals := [(0, c.g.readS i.val), (1, c.g.readS j.val), (2, c.g.readS n.val)], locs := heldByCopy u (c.who s) x }
        (c.sig (.bcopy f) [(c.g.readS i.val).toNat, (c.g.readS j.val).toNat, (c.g.readS n.val).toNat]) u := by
  simp only [bcopyBody, engineReady_of_ready hs ha, sVal, addrS, hsrc, hdst, hlen, hx, hu, hr, Res.ok_bind, Bool.not_true,
    Bool.false_eq_true, if_false]

end

/-! ## The first beat -/

section
variable {s : State} {k : Nat} {o : Op} {w : Who} {x : Copy}

/-- Copying some lines changes of the operation only how far it has come and the lines that it holds. -/
theorem copySome_op {tid : Nat} (ho : s.op? k = some o) :
    ∃ m ls, (copySome s k o w x tid).op? k = some { o with prog := m, locs := ls } := by
  unfold copySome
  extract_lets zs n u now
  split
  · exact ⟨o.prog, o.locs, ho⟩
  · exact ⟨_, _, SMap.entry?_put_self _ _ _⟩

theorem startCopy_op (tid : Nat) : ∃ m ls, (startCopy s k o w x tid).op? k =
    some { o with started := true, vals := (9, BitVec.ofNat 64 tid) :: o.vals, prog := m, locs := ls } :=
  copySome_op (SMap.entry?_put_self _ _ _)

end

/-- A BCOPY in flight: its operation, its frame and its copy. -/
structure InCopy (s : State) (k : Nat) (o : Op) (f : EForm) (w : Who) (x : Copy) : Prop where
  op : s.op? k = some o
  instr : o.instr = .bcopy f
  who : s.who? o.group = some w
  copy : o.copy f = some x

namespace InCopy
variable {s : State} {k : Nat} {o : Op} {f : EForm} {w : Who} {x : Copy} (h : InCopy s k o f w x)
include h

section
variable (hs : o.started = false) (hr : engineReady? s k o w.t.place = true) (hq : spadRetained s.fab f.place.toNat = false)
  {u : State} (hu : u = x.fill w (writeBack s w.t.place)) {toSpad : Bool} (ht : toSpad = (isSpadPtr x.dst.toNat && decide (x.rows * x.len ≠ 0)))
include hs hr hq hu ht

theorem firstBeat_alone (h1 : toSpad = false) (h2 : f.sig = false) :
    exec (.bcopyFirstBeat k) s = .next (startCopy u k o w x w.g.team) := by
  refine event_some (f := bcopyFirstBeat k) ?_
  subst hu
  simp only [bcopyFirstBeat, h.op, h.instr, h.who, h.copy, hs, hr, hq, ← ht, h1, h2, Option.bind_eq_bind, Option.bind_some, Bool.not_true,
    Bool.or_self, Bool.false_eq_true, if_false, Bool.not_false, Bool.and_self, if_true]
  rfl

variable (h1 : toSpad = true ∨ f.sig = true)
include h1

theorem firstBeat_nowhere (hn : teamAt u w.t.launch f.place.toNat w.t.side = none) :
    exec (.bcopyFirstBeat k) s = .next (endEngine u k o { cause := 0x12, addr := f.place.zeroExtend 64 }) := by
  refine event_some (f := bcopyFirstBeat k) ?_
  have hneed : (!toSpad && !f.sig) = false := by obtain h1 | h1 := h1 <;> simp [h1]
  subst hu
  simp only [bcopyFirstBeat, h.op, h.instr, h.who, h.copy, hs, hr, hq, ← ht, hneed, hn, Option.bind_eq_bind, Option.bind_some,
    Bool.not_true, Bool.or_self, Bool.false_eq_true, if_false]
  rfl

theorem firstBeat_starts {tid : Nat} {t : Team} (hn : teamAt u w.t.launch f.place.toNat w.t.side = some (tid, t))
    (hobj : f.sig = true → 16 * f.bar.toNat + 16 ≤ t.spadSize) (hreg : toSpad = true → ptrRegion x.dst = 0)
    (hoff : ∀ a ∈ (if toSpad then x.pairs.map fun p => p.2 % 2 ^ 56 - 0xF0000000000000 else []),
      a < t.spadSize ∧ engineBufOk t true a = true) :
    exec (.bcopyFirstBeat k) s = .next (startCopy u k o w x tid) := by
  refine event_some (f := bcopyFirstBeat k) ?_
  have hneed : (!toSpad && !f.sig) = false := by obtain h1 | h1 := h1 <;> simp [h1]
  have hobj : (f.sig && decide (t.spadSize < 16 * f.bar.toNat + 16)) = false := by
    cases hsig : f.sig
    · rfl
    · simpa using hobj hsig
  have hreg : (toSpad && decide (ptrRegion x.dst ≠ 0)) = false := by
    cases htop : toSpad
    · rfl
    · simpa using hreg htop
  have hsize : (if toSpad then x.pairs.map fun p => p.2 % 2 ^ 56 - 0xF0000000000000 else []).find?
      (fun a => decide (t.spadSize ≤ a)) = none := List.find?_eq_none.mpr fun a ha => by simpa using (hoff a ha).1
  have hbuf : (if toSpad then x.pairs.map fun p => p.2 % 2 ^ 56 - 0xF0000000000000 else []).find?
      (fun a => !engineBufOk t true a) = none := List.find?_eq_none.mpr fun a ha => by simpa using (hoff a ha).2
  subst hu
  simp only [bcopyFirstBeat, h.op, h.instr, h.who, h.copy, hs, hr, hq, ← ht, hneed, hn, hobj, hreg, hsize, hbuf, Option.bind_eq_bind,
    Option.bind_some, Bool.not_true, Bool.or_self, Bool.false_eq_true, if_false]
  rfl

end

/-! ## The end of a copy -/

theorem fault_gone (hs : o.started = true) (hf : o.fault = none) (hg : receiverGone s o = true) :
    exec (.bcopyFault k) s = .next (endEngine (endReads s o w x) k o { cause := 0x12, addr := f.place.zeroExtend 64 }) := by
  refine event_some (f := bcopyFault k) ?_
  simp only [bcopyFault, h.op, h.instr, h.who, h.copy, hs, hf, hg, Option.bind_eq_bind, Option.bind_some, Bool.not_true,
    Option.isSome_none, Bool.or_self, Bool.false_eq_true, if_false, if_true]
  rfl

end InCopy

/-- The receiving team of a copy stands. -/
theorem receiverGone_of_receivingTeam {s : State} {o : Op} {tid : Nat} (h : receivingTeam s o = some tid) : receiverGone s o = false := by
  unfold receivingTeam at h
  split at h
  · next hsome => rw [receiverGone, Option.isNone_eq_false_iff.mpr hsome, Bool.false_and]
  · cases h

/-- A copy under way to a standing team, and the state in which it goes on: that there is, or, once it has been resumed, that with its
core's bytes home. -/
structure Underway (s : State) (k : Nat) (o : Op) (f : EForm) (w : Who) (x : Copy) (tid : Nat) (u0 : State) : Prop
    extends InCopy s k o f w x where
  started : o.started = true
  sound : o.fault = none
  receiver : receivingTeam s o = some tid
  goesOn : (o.doneAt = 0 ∧ u0 = s) ∨ (o.doneAt ≠ 0 ∧ engineReady? s k o w.t.place = true ∧ u0 = writeBack s w.t.place)

/-- The state with a copy's bytes written and its lines free. -/
def copyDone (u : State) (k : Nat) (o : Op) (w : Who) (x : Copy) (tid : Nat) (zs : List (Site × Site)) : State :=
  let locs := siteLocs (zs.map (·.2))
  let v := endReads ((boxesAt u locs).foldl fireBox (freeLines (settleEverywhere
    (copyBytes u w.t.place o.group tid (zs.drop o.prog)) locs) k o.locs)) o w x
  if tid = w.g.team then noteShare v tid k (spadOffs (zs.map (·.2))) else v

namespace Underway
variable {s u0 : State} {k tid : Nat} {o : Op} {f : EForm} {w : Who} {x : Copy} {zs : List (Site × Site)}
  (h : Underway s k o f w x tid u0)
include h

section
variable (hz : copySites (x.fill w u0) w tid x = (zs, none))
  (hb : (boxesAt (x.fill w u0) (siteLocs (zs.map (·.2)))).all (boxHasRoom (x.fill w u0)) = true)
  (hv : invalidationsPending (x.fill w u0) = false) (hq : spadRetained (x.fill w u0).fab f.place.toNat = false)
  (hw : sitesWait (x.fill w u0) k o w.t.place ((zs.drop o.prog).flatMap fun z => [z.1, z.2]) = false)
  (hc : copiesDone (x.fill w u0) (siteLocs (zs.map (·.2))) = true)
include hz hb hv hq hw hc

/-- With every byte checked and nothing in its way a copy writes what it has not written; its barrier object then hears of it. -/
theorem completes (hn : (f.sig && signalWaits (x.fill w u0) w.t.place tid (16 * f.bar.toNat)) = false) :
    bcopyComplete k s =
      let ended := copyDone (x.fill w u0) k o w x tid zs
      if f.sig then
        match signalObject ended w.t.place tid (16 * f.bar.toNat) with
        | some t => some ((if tid = w.g.team then noteResult t tid k [(2 ^ 34 + 16 * f.bar.toNat, 0)] else t).finishOp k o)
        | none => some (endEngine ended k o { cause := 0x02, addr := objectAddr f })
      else some (ended.finishOp k o) := by
  simp only [bcopyComplete, h.op, h.instr, h.who, h.copy, h.started, h.sound, h.receiver, Option.bind_eq_bind, Option.bind_some,
    Bool.not_true, Option.isSome_none, Bool.or_self, Bool.false_eq_true, if_false]
  obtain ⟨hd, rfl⟩ | ⟨hd, hr, rfl⟩ := h.goesOn
  · rw [if_pos hd]
    simp only [hz, hb, hv, hq, hw, hc, hn, Bool.not_true, Option.isSome_none, Bool.or_self, Bool.false_eq_true, if_false]
    rfl
  · rw [if_neg hd, if_pos hr]
    simp only [hz, hb, hv, hq, hw, hc, hn, Bool.not_true, Option.isSome_none, Bool.or_self, Bool.false_eq_true, if_false]
    rfl

theorem exec_complete (hsig : f.sig = false) :
    exec (.bcopyComplete k) s = .next ((copyDone (x.fill w u0) k o w x tid zs).finishOp k o) := by
  refine event_some (f := bcopyComplete k) ?_
  rw [h.completes hz hb hv hq hw hc (by rw [hsig]; rfl)]
  simp [hsig]

variable (hsig : f.sig = true) (hn : signalWaits (x.fill w u0) w.t.place tid (16 * f.bar.toNat) = false)
include hsig hn

theorem exec_complete_signals {t : State}
    (ht : signalObject (copyDone (x.fill w u0) k o w x tid zs) w.t.place tid (16 * f.bar.toNat) = some t) :
    exec (.bcopyComplete k) s =
      .next ((if tid = w.g.team then noteResult t tid k [(2 ^ 34 + 16 * f.bar.toNat, 0)] else t).finishOp k o) := by
  refine event_some (f := bcopyComplete k) ?_
  rw [h.completes hz hb hv hq hw hc (by rw [hn, Bool.and_false])]
  simp [hsig, ht]

theorem exec_complete_noObject (ht : signalObject (copyDone (x.fill w u0) k o w x tid zs) w.t.place tid (16 * f.bar.toNat) = none) :
    exec (.bcopyComplete k) s = .next (endEngine (copyDone (x.fill w u0) k o w x tid zs) k o { cause := 0x02, addr := objectAddr f }) := by
  refine event_some (f := bcopyComplete k) ?_
  rw [h.completes hz hb hv hq hw hc (by rw [hn, Bool.and_false])]
  simp [hsig, ht]

end

section
variable {n p : Nat} (hz : copySites u0 w tid x = (zs, some (n, p)))
include hz

/-- A failed check lets what stands before it be written, and the copy then stalls or ends. -/
theorem faults :
    bcopyFault k s =
      let absent := isPageAbsent u0 w n p
      let zs := if absent then zs.take (x.lineCut zs.length) else zs
      let locs := siteLocs (zs.map (·.2))
      if sitesWait u0 k o w.t.place ((zs.drop o.prog).flatMap fun z => [z.1, z.2]) then none
      else if !copiesDone u0 locs then some (wantCopies u0 (cowPages u0 locs))
      else
        let e := copyUpTo u0 k o w tid zs zs.length
        if absent then some (stallEngine e.1 k e.2 (engineTrap w n p))
        else some (endEngine (endReads e.1 e.2 w x) k e.2 (engineTrap w n p)) := by
  simp only [bcopyFault, h.op, h.instr, h.who, h.copy, h.started, h.sound, receiverGone_of_receivingTeam h.receiver, h.receiver,
    Option.bind_eq_bind, Option.bind_some, Bool.not_true, Option.isSome_none, Bool.or_self, Bool.false_eq_true, if_false]
  obtain ⟨hd, rfl⟩ | ⟨hd, hr, rfl⟩ := h.goesOn
  · rw [if_pos hd, hz]
    rfl
  · rw [if_neg hd, if_pos hr, hz]
    rfl

theorem exec_fault_ends (ha : isPageAbsent u0 w n p = false) (hc : copiesDone u0 (siteLocs (zs.map (·.2))) = true)
    (hw : sitesWait u0 k o w.t.place ((zs.drop o.prog).flatMap fun z => [z.1, z.2]) = false) :
    exec (.bcopyFault k) s =
      let e := copyUpTo u0 k o w tid zs zs.length
      .next (endEngine (endReads e.1 e.2 w x) k e.2 (engineTrap w n p)) := by
  refine event_some (f := bcopyFault k) ?_
  rw [h.faults hz]
  simp only [ha, hw, hc, Bool.not_true, Bool.false_eq_true, if_false]

theorem exec_fault_stalls {ys : List (Site × Site)} (hy : ys = zs.take (x.lineCut zs.length)) (ha : isPageAbsent u0 w n p = true)
    (hc : copiesDone u0 (siteLocs (ys.map (·.2))) = true)
    (hw : sitesWait u0 k o w.t.place ((ys.drop o.prog).flatMap fun z => [z.1, z.2]) = false) :
    exec (.bcopyFault k) s =
      let e := copyUpTo u0 k o w tid ys ys.length
      .next (stallEngine e.1 k e.2 (engineTrap w n p)) := by
  refine event_some (f := bcopyFault k) ?_
  rw [h.faults hz]
  simp only [ha, ← hy, hw, hc, Bool.not_true, Bool.false_eq_true, if_false, if_true]

end

end Underway

/-- Settles O40: the issue is that of an engine with its held lines, and each of the three steps in flight has its outcome by cases. -/
theorem copies : Obligations.Copies := by
  refine ⟨fun s t c f i j n hi hsrc hdst hlen ha => ?_, fun s k tid n p o f w x zs ho hinstr hw hx => ?_⟩
  · refine ⟨bcopy_handler hi, fun hs hx => exec_next_trap hi (body := bcopyBody f) rfl (bcopyBody_illegal hsrc hdst hlen ha hs hx),
      fun x hs hx => ⟨fun hu => exec_next_trap hi (body := bcopyBody f) rfl (bcopyBody_unusable hsrc hdst hlen ha hs hx hu), fun hu hr => ?_⟩⟩
    intro u held o
    have hbody : bcopyBody f c s = issueHolder c (.bcopy f) o _ u := bcopyBody_issues hsrc hdst hlen ha hs hx hu hr
    refine ⟨fun ht => exec_next_done hi (body := bcopyBody f) rfl (hbody.trans ht), fun hside hn hf => ⟨fun hl => ?_, fun v hl ht => ?_⟩⟩
    · exact exec_next_wait hi (body := bcopyBody f) rfl (hbody.trans (issueHolder_solo_waits (o := o) hside hl))
    · obtain ⟨hgid, hg, -⟩ := State.ctx?_spec hi.1
      have hfill : s.SameButStore u := (c.who s).fill_sameButStore s _
      have hgu : u.group? c.gid = some c.g := by
        rw [State.group?, hfill.groups, hgid]
        exact hg
      have hnu : u.nextId < 2 ^ 64 := by
        rw [hfill.nextId]
        exact hn
      exact exec_next_done hi (body := bcopyBody f) rfl (hbody.trans ((issueHolder_solo (o := o) hside hgu hnu hf rfl hl).trans ht))
  · have h : InCopy s k o f w x := ⟨ho, hinstr, hw, hx⟩
    refine ⟨fun hs hr hq => ⟨h.firstBeat_alone hs hr hq rfl rfl, fun h1 => ⟨h.firstBeat_nowhere hs hr hq rfl rfl h1,
      fun t hn hobj hreg hoff => h.firstBeat_starts hs hr hq rfl rfl h1 hn hobj hreg hoff⟩, startCopy_op tid⟩, h.fault_gone, ?_⟩
    intro u0 hs hf ht h0 h1 locs asked
    have hgo : (o.doneAt = 0 ∧ u0 = s) ∨ (o.doneAt ≠ 0 ∧ engineReady? s k o w.t.place = true ∧ u0 = writeBack s w.t.place) :=
      (eq_or_ne o.doneAt 0).imp (fun hd => ⟨hd, h0 hd⟩) fun hd => ⟨hd, h1 hd⟩
    have hun : Underway s k o f w x tid u0 := { h with started := hs, sound := hf, receiver := ht, goesOn := hgo }
    refine ⟨fun hz hb hv hq hwait hc => ⟨hun.exec_complete hz hb hv hq hwait hc, fun hsig hn => ⟨fun t => ?_, ?_⟩⟩, fun hz => ⟨?_, ?_⟩⟩
    · exact hun.exec_complete_signals hz hb hv hq hwait hc hsig hn
    · exact hun.exec_complete_noObject hz hb hv hq hwait hc hsig hn
    · exact fun ha hc hwait => hun.exec_fault_ends hz ha hc hwait
    · exact fun ha hc hwait => hun.exec_fault_stalls hz rfl ha hc hwait

end Sys2Proof.Machine
end

