-- ==== Sys2Proof/Proofs/StackBaseMoves.lean ====
section
/-! A pointer of a group's stack names an address through the entry of its context (R228), and that entry is memory: a read that brings
the core's completed stores home may change it (R322). VDEC reports the address of a bad header after its read (R284), and SUBSCR goes
on to its next line through the entry that it began with (R283). -/
namespace Sys2Proof.Machine
open Sys2Proof.Claims

/-! ## A read that fills a line of the L1 -/

/-- `noteHome`, where `b` says that the line's home is its anchor. -/
def noteHomeAs (b : Bool) (s : State) (t line : Nat) : State :=
  let key := 48 * line + t
  if b then if (SMap.entry? s.fab.homes key).isSome then s.setFab { s.fab with homes := SMap.del s.fab.homes key } else s
  else s.setFab { s.fab with homes := SMap.put s.fab.homes key (waybill s line).home }

theorem noteHome_eq (s : State) (t line : Nat) : noteHome s t line = noteHomeAs ((waybill s line).home == anchor s.dev line) s t line := rfl

/-- What a read that the L1 does not serve leaves once it has filled the line, where `b` says that the line's home is its anchor. -/
def fillRead (b : Bool) (s : State) (w : Who) (k : Nat) (f : Form) (req : Req) (ptr loc : Nat) (bs : List (Nat × Nat)) : Read :=
  let core := w.t.place
  let line := lineOf loc
  let bytes := (ptr, loc) :: bs
  let u := settleWeak s core k
  let noted := countDrover (noteHomeAs b u (reticleOf core) line) core line w.l.ctx (((w.global ptr).getD 0) / 65536) req
    (effectiveHint u w f.hint ptr)
  let got := readLocs (noteForwarded noted core (bytes.map (·.2))) (reticleOf core) w.gid ((List.range 128).map fun i => 128 * line + i)
  let all := overL1 got.2.fab core line got.1 true
  ⟨bytes.map fun (p, q) => (p, (all[q % 128]?).getD 0), metPoison s.fab core false bytes, l1Fill got.2 core line all⟩

/-- A weak read of a line that neither stands in the L1 nor waits, and whose hint asks for nothing. -/
theorem readLine_fills {s : State} {w : Who} {k ptr loc : Nat} {f : Form} {req : Req} {bs : List (Nat × Nat)}
    (sub : Option (Option (Fmt × Fmt) × Bool)) (hq : effectiveReq s w f ptr loc = req) (ho : (req == .o) = false) (hu : (req != .u) = true)
    (hh : f.atHome = false) (hx : l1Find s.fab w.t.place (lineOf loc) = none)
    (hi : (inFlip s loc || lineHeld s (.thread w.gid k) (lineOf loc)) = false)
    (hl : ((((ptr, loc) :: bs).map (·.2)).mapM fun p => l1Byte s.fab w.t.place p) = none)
    (hw : (lineWaits s (.thread w.gid k) (lineOf loc) || weakBlocked s w.t.place k
      || anyBlocked s ((dirtyBytes s.fab w.t.place).map (·.1))) = false)
    (hv : hintAt s w f ptr (lineOf loc) true = some s) :
    ∃ b, readLine s w k f sub ((ptr, loc) :: bs) = some (fillRead b s w k f req ptr loc bs) := by
  refine ⟨(waybill (settleWeak s w.t.place k) (lineOf loc)).home == anchor (settleWeak s w.t.place k).dev (lineOf loc), ?_⟩
  simp only [readLine, hq, ho, hu, hh, hx, hi, hl, hw, hv, Bool.false_and, Bool.not_false, Bool.and_self, Option.map_none,
    Option.getD_none, Option.isSome_none, Bool.and_false, Bool.or_self, Bool.false_eq_true, if_false, if_true, Option.bind_eq_bind,
    Option.bind_some]
  rw [countAt, noteHome_eq, fillRead]
  rfl

/-! ## A core whose completed store gives its context another stack -/

/-- The L1 holds byte 10 of the entry of context 0, which makes the stack base 0x10000 where memory has 0. -/
def entryLine : L1Line :=
  { core := 0, line := 0, data := (List.replicate 128 0).set 10 1, valid := 1024, dirty := 1024, hint := .stream }

/-- A readable page of a user at a frame of stack 0. -/
def stackLeaf (frame : Nat) (biased : Bool) : Word := BitVec.ofNat 64 (2 ^ 52 + 256 * frame + 0xA + if biased then 2 ^ 57 else 0)

/-- Pages 0 to 2, of which 0 and 2 stand under host bias; the store of `entryLine` has completed, and line 1024 is in flight. -/
def stackFabric : Fabric :=
  { l1 := [entryLine, { core := 0, line := 1024, data := List.replicate 128 0, valid := BitVec.allOnes 128 }],
    tlb := [(0, ⟨0, 0, stackLeaf 1 true, 0⟩), (0, ⟨0, 1, stackLeaf 2 false, 0⟩), (0, ⟨0, 2, stackLeaf 3 true, 0⟩)],
    waybills := [(512, { home := 0 }), (1023, { home := 0 }), (1024, { home := 0, inFlight := true })],
    weak := [{ core := 0, done := 0, locs := [10] }] }

/-- Eight-byte elements from the last of page 0 of the stack. -/
def stackRecord : BitVec 320 := BitVec.ofNat 320 (0xE000000000FFF8 + 2 ^ 64 * (2 ^ 40 - 1) + 2 ^ 242)

def stackTeam : Team := { soloTeam with records := [(1, stackRecord)] }

/-- Two lanes whose s1 points at the foot of the stack, of which they have written 8 bytes. -/
def stackGroup : Group :=
  { handlerGroup with sup := false, exec := 3, sregs := [(1, 0xE0000000000000)], wrote := (List.range 8).map fun k => (k, true) }

def stackState : State :=
  { handlerState with
    teams := [(3, stackTeam)], groups := [(4, stackGroup)], fab := stackFabric, mem := Memory.set [] 0x10007 0x80,
    dev := { handlerState.dev with jibueg := true } }

def stackCtx : Ctx := { handlerCtx with g := stackGroup, t := stackTeam }

theorem issues_stack : Issues stackState stackCtx := by
  refine ⟨?_, rfl⟩
  have hc : codeAt soloRegion 0 = some (BitVec.ofNat 64 soloHeader.pack) := by decide
  have hd : decodeHeader (BitVec.ofNat 64 soloHeader.pack) = some soloHeader := by decide
  simp [State.ctx?, stackState, stackCtx, handlerState, handlerCtx, State.group?, State.team?, State.launch?, State.region?, SMap.entry?,
    stackGroup, stackTeam, handlerGroup, soloTeam, soloLaunch, hc, hd]

end Sys2Proof.Machine
end

