-- ==== Sys2Proof/Proofs/BadHeader.lean ====
section
/-! VDEC with a header that R284 does not allow: the read of the header moves the stack base, and the trap's address goes through
the new one. -/
namespace Sys2Proof.Machine
open Sys2Proof.Claims

theorem vRead_of_badHeader {c : Ctx} {f : MForm} {a : Word} {s u : State} {h : List Byte}
    (hr : readRaw c (.vdec f) f.req f.hint a 8 s = .ok (h, u)) (hh : vHeader (leNat h) = none) :
    vRead c f a s = .error (.trap { cause := 0x02, addr := reportAddr (c.who u).stackBase c.g.stackSlot a.toNat }) := by
  simp only [vRead, hr, Res.ok_bind, hh]
  rfl

/-- VDEC of an illegal header in a group's stack: the trap's address goes through the context's entry as the read left it. -/
theorem exec_vdec_badHeader {s s1 u : State} {c : Ctx} {f : MForm} {a : Word} {h : List Byte} (hi : Issues s c) (ha : vAddr c f = .ok a)
    (hd : dataOk c.g false 4 f.data = true) (he : c.g.exec ≠ 0) (hv : vAligned c a s = .ok ()) (hp : afterAcquire c s = .ok ())
    (h1 : completeAtOnce c (.vdec f) s = .ok s1) (hs : sharedByte a.toNat = false)
    (hr : readRaw c (.vdec f) f.req f.hint a 8 s1 = .ok (h, u)) (hh : vHeader (leNat h) = none) :
    exec (.vdec f) s =
      .next (c.takeTrap { cause := 0x02, addr := reportAddr (c.who u).stackBase c.g.stackSlot a.toNat } (c.settled s)) := by
  have hx : exec (.vdec f) = execVdec f := rfl
  rw [hx, execVdec]
  refine runInstr_trap hi ?_
  simp only [hd, ha, he, hv, hp, h1, readShared, hs, vRead_of_badHeader hr hh, guardOp_true, Res.ok_bind, Res.error_bind,
    Bool.false_eq_true, if_false]

/-- A load of one line of memory is the read of that line. -/
theorem serveLoad_line {s : State} {w : Who} {k : Nat} {f : Form} {sub : Option (Option (Fmt × Fmt) × Bool)} {bytes : List (Nat × Nat)}
    {r : Read} (hf : forwardAll s.fab bytes = bytes) (hs : (bytes.filter fun b => isSpad b.2) = [])
    (hg : (bytes.filter fun b => !isSpad b.2) = bytes) (hl : byLine bytes = [bytes]) (h : readLine s w k f sub bytes = some r) :
    serveLoad s w k f sub bytes = some ⟨(freeStack w r.bytes r.s).1, r.poison, (freeStack w r.bytes r.s).2⟩ := by
  simp [serveLoad, hf, hs, hg, hl, h, Team.spadTags]

/-- A raw read whose one request may be served and meets no poison. -/
theorem readRaw_of_serveLoad {c : Ctx} {i : Instr} {req : Req} {hint : Hint} {ptr : Word} {len : Nat} {s : State} {locs : List Located}
    (hc : checkAccess s (c.who s) .load false [{ lane := 0, ptr, len }] = .ok locs) (hn : noOverlap c locs false s = .ok ())
    {r : LaneReq} (hr : r = { lane := 0, kind := .load, bytes := locs.map fun b => (b.ptr, b.loc) })
    (hm : mayServe s (c.who s) s.nextId { c.op i with flag := none, reqs := [r] } r = true) {y : Read}
    (hs : serveLoad s (c.who s) s.nextId ⟨.s 0, 0, 0, len, req, hint, .relaxed, .none, true⟩ (some (none, false)) r.bytes = some y)
    (hp : y.poison = []) :
    readRaw c i req hint ptr len s =
      .ok ((List.range len).map fun (k : Nat) => SMap.get 0 (y.bytes.foldl (fun m (p, b) => SMap.put m p b) []) (ptrAdd ptr k).toNat, y.s) := by
  subst hr
  simp only [readRaw, hc, hn, hm, hs, hp, Res.ok_bind, if_true, List.map_nil, poisonTrap]

/-- VDEC of the block at the foot of the stack. -/
def footForm : MForm :=
  { data := .v 0, addr := .s 1, off := 0, recIx := 0, req := .i, hint := .stream, ord := .relaxed, scope := .none, size := .b4,
    aux := false, fb := false }

/-- The state in which VDEC reads the header. -/
def footState : State := countedOnce stackCtx (.vdec footForm) stackState

def footLocs : List Located := (List.range 8).map fun i => ⟨0, 0xE0000000000000 + i, 0x10000 + i, some (stackLeaf 1 true, 0)⟩

theorem Res.eq_ok_of_toOption {α : Type} {r : Res α} {a : α} (h : r.toOption = some a) : r = .ok a := by
  cases r with
  | ok b => exact congrArg _ (Option.some.inj h)
  | error e => cases h

theorem checkAccess_foot : checkAccess footState (stackCtx.who footState) .load false [{ lane := 0, ptr := 0xE0000000000000, len := 8 }] =
    .ok footLocs := Res.eq_ok_of_toOption (by decide +kernel)

theorem noOverlap_foot : noOverlap stackCtx footLocs false footState = .ok () := Res.eq_ok_of_toOption (by decide +kernel)

/-- The form of the load that reads the header. -/
def footLoad : Form := ⟨.s 0, 0, 0, 8, .i, .stream, .relaxed, .none, true⟩

def footReq : LaneReq := { lane := 0, kind := .load, bytes := footLocs.map fun b => (b.ptr, b.loc) }

/-- The read of the header, where `b` says that its line's home is its anchor. -/
def footRead (b : Bool) : Read :=
  fillRead b footState (stackCtx.who footState) footState.nextId footLoad .w 0xE0000000000000 0x10000 footReq.bytes.tail

theorem readLine_foot : ∃ b, readLine footState (stackCtx.who footState) footState.nextId footLoad (some (none, false)) footReq.bytes =
    some (footRead b) := by
  have h := readLine_fills (s := footState) (w := stackCtx.who footState) (k := footState.nextId) (ptr := 0xE0000000000000) (loc := 0x10000)
    (f := footLoad) (req := .w) (bs := footReq.bytes.tail) (some (none, false)) (by decide +kernel) rfl rfl rfl (by decide +kernel)
    (by decide +kernel) (by decide +kernel) (by decide +kernel) rfl
  exact h

/-- What VDEC has of the header. -/
def footHeader (b : Bool) : List Byte :=
  let y := (freeStack (stackCtx.who footState) (footRead b).bytes (footRead b).s).1
  (List.range 8).map fun (k : Nat) => SMap.get 0 (y.foldl (fun m (p, v) => SMap.put m p v) []) (ptrAdd (0xE0000000000000 : Word) k).toNat

def footAfter (b : Bool) : State := (freeStack (stackCtx.who footState) (footRead b).bytes (footRead b).s).2

theorem readRaw_foot : ∃ b, readRaw stackCtx (.vdec footForm) .i .stream 0xE0000000000000 8 footState = .ok (footHeader b, footAfter b) := by
  obtain ⟨b, hb⟩ := readLine_foot
  refine ⟨b, ?_⟩
  have hm : mayServe footState (stackCtx.who footState) footState.nextId { stackCtx.op (.vdec footForm) with flag := none, reqs := [footReq] }
      footReq = true := by decide +kernel
  have hl : serveLoad footState (stackCtx.who footState) footState.nextId footLoad (some (none, false)) footReq.bytes = some _ :=
    serveLoad_line (by decide +kernel) (by decide +kernel) (by decide +kernel) (by decide +kernel) hb
  have hp : ∀ b, (footRead b).poison = [] := by decide +kernel
  have h := readRaw_of_serveLoad (r := footReq) checkAccess_foot noOverlap_foot rfl hm hl (hp b)
  rw [h, footHeader, footAfter]

theorem footHeader_bad : ∀ b, vHeader (leNat (footHeader b)) = none := by decide +kernel

/-- The read has made the stack base 0x10000. -/
theorem stackBase_footAfter : ∀ b, (stackCtx.who (footAfter b)).stackBase = 0x10000 := by decide +kernel

/-- The address that a step leaves in the group's TRAPADDR. -/
def trapAddrAfter (o : Host.Outcome State Fault Refusal) : Option Word :=
  match o with
  | .next t => (t.group? 4).map (·.trapAddr)
  | _ => none

theorem trapAddrAfter_takeTrap (a : Word) :
    trapAddrAfter (.next (stackCtx.takeTrap { cause := 0x02, addr := a } (stackCtx.settled stackState))) = some a := by rfl

theorem completeAtOnce_foot : completeAtOnce stackCtx (.vdec footForm) stackState = .ok footState :=
  completeAtOnce_free (by rfl) (by intro k hk; cases hk) (by rw [DestFree]; decide +kernel)

theorem exec_vdec_foot :
    exec (.vdec footForm) stackState = .next (stackCtx.takeTrap { cause := 0x02, addr := 0x10000 } (stackCtx.settled stackState)) := by
  obtain ⟨b, hb⟩ := readRaw_foot
  have ha : vAddr stackCtx footForm = .ok 0xE0000000000000 := Res.eq_ok_of_toOption (by decide +kernel)
  have hv : vAligned stackCtx 0xE0000000000000 stackState = .ok () := Res.eq_ok_of_toOption (by decide +kernel)
  have hp : afterAcquire stackCtx stackState = .ok () := Res.eq_ok_of_toOption (by decide +kernel)
  rw [exec_vdec_badHeader issues_stack ha (by decide) (by decide) hv hp completeAtOnce_foot (by decide) hb (footHeader_bad b),
    stackBase_footAfter b]
  rfl

/-- What O37 says of a solo team's VDEC of an illegal header: the trap's address goes through the entry before the read. -/
theorem exec_vdec_badHeader_of_blockCodec (ho : Obligations.BlockCodec) {s s1 u : State} {c : Ctx} {f : MForm} {n : Fin 64} {a : Word}
    {h : List Byte} (hi : Issues s c) (hf : f.addr = .s n) (ha : ptrAdd (c.g.readS n.val) f.off.toInt = a)
    (hd : dataOk c.g false 4 f.data = true) (he : c.g.exec ≠ 0) (h8 : a.toNat % 8 = 0) (hp : acquirePending s c.gid = false)
    (h1 : completeAtOnce c (.vdec f) s = .ok s1) (hr : readRaw c (.vdec f) f.req f.hint a 8 s1 = .ok (h, u)) (hs : c.t.side = .solo)
    (hh : vHeader (leNat h) = none) :
    exec (.vdec f) s =
      .next (c.takeTrap { cause := 0x02, addr := reportAddr (c.who s).stackBase c.g.stackSlot a.toNat } (c.settled s)) := by
  subst ha
  obtain ⟨hv, -⟩ := ho
  obtain ⟨-, hv⟩ := hv s s1 u s c f n h [] 0 0 0 0 hi hf hd
  obtain ⟨-, hv, -⟩ := hv he
  obtain ⟨-, hv⟩ := hv h8 hp h1
  obtain ⟨hv, -⟩ := hv hr hs
  exact hv hh

/-- Refutes O37: in `stackState` the read of the header brings home a store to the context's entry, so that the trap's address goes
through the new stack base, where the statement has the one before the read. -/
theorem not_blockCodec : ¬ Obligations.BlockCodec := by
  intro h
  obtain ⟨b, hb⟩ := readRaw_foot
  have hs := exec_vdec_badHeader_of_blockCodec h (f := footForm) (n := 1) issues_stack rfl (by decide +kernel) (by decide) (by decide)
    (by decide) (by decide +kernel) completeAtOnce_foot hb rfl (footHeader_bad b)
  have ha := congrArg trapAddrAfter (exec_vdec_foot.symm.trans hs)
  rw [trapAddrAfter_takeTrap, trapAddrAfter_takeTrap] at ha
  exact absurd (Option.some.inj ha) (by decide +kernel)

end Sys2Proof.Machine
end


-- ==== Sys2Proof/Proofs/SubscribedLines.lean ====
section
/-! SUBSCR of two lines of a group's stack (R283): bringing the first moves the stack base, and with it the page of the second, which
the instruction asks for through the page that it began with. -/
namespace Sys2Proof.Machine
open Sys2Proof.Claims

/-- A line that the core does not subscribe is read. -/
theorem subscribeLine_reads {s : State} {w : Who} {f : Form} {sub : (Fmt × Fmt) × Bool} {ptr loc : Nat} {bs : List (Nat × Nat)} {r : Read}
    (hs : ((waybill s (lineOf loc)).subs.find? fun u => u.core == w.t.place) = none)
    (hr : readLine s w s.nextId { f with req := .o } (some (some sub.1, sub.2)) ((ptr, loc) :: bs) = some r) :
    subscribeLine s w f sub ((ptr, loc) :: bs) = some r.s := by
  simp only [subscribeLine, hs, hr, Option.map_some]

/-- The lines that SUBSCR subscribes. -/
def subscrLines (s : State) (locs : List Located) : List (List (Nat × Nat)) :=
  byLine (forwardAll s.fab ((locs.filter fun b => !isSpad b.loc && !isBypass s b.loc).map fun b => (b.ptr, b.loc)))

/-- SUBSCR of the last element of page 0 and the first of page 1. -/
def edgeForm : MForm :=
  { data := .v 0, addr := .s 0, off := 0, recIx := 1, req := .o, hint := .stream, ord := .relaxed, scope := .none, size := .b8,
    aux := false, fb := false }

/-- The bytes of an element of 8 bytes at a pointer. -/
def elemLocs (lane ptr loc : Nat) (leaf : Word) : List Located := (List.range 8).map fun i => ⟨lane, ptr + i, loc + i, some (leaf, 0)⟩

def edgeLocs : List Located :=
  elemLocs 0 0xE000000000FFF8 0x1FFF8 (stackLeaf 1 true) ++ elemLocs 1 0xE0000000010000 0x20000 (stackLeaf 2 false)

/-- The bytes of an access, as a request has them. -/
def located (locs : List Located) : List (Nat × Nat) := locs.map fun b => (b.ptr, b.loc)

def edgeState : State := countedOnce stackCtx (.subscr edgeForm) stackState

/-- SUBSCR's pointers go through the same entry once it has counted. -/
theorem who_edgeState : stackCtx.who edgeState = stackCtx.who stackState := rfl

theorem edgeLocs_checked : ∃ p, planAccess stackCtx .load (MForm.form edgeForm false) (fun _ => .ok ()) stackState = .ok p ∧
    checkAccess stackState (stackCtx.who stackState) .load false p.pieces = .ok edgeLocs := by
  have h : (planAccess stackCtx .load (MForm.form edgeForm false) (fun _ => .ok ()) stackState).toOption.bind (fun p =>
      (checkAccess stackState (stackCtx.who stackState) .load false p.pieces).toOption) = some edgeLocs := by decide +kernel
  obtain ⟨p, hp, hc⟩ := Option.bind_eq_some_iff.mp h
  exact ⟨p, Res.eq_ok_of_toOption hp, Res.eq_ok_of_toOption hc⟩

def firstLine : List (Nat × Nat) := located (elemLocs 0 0xE000000000FFF8 0x1FFF8 (stackLeaf 1 true))
def secondLine : List (Nat × Nat) := located (elemLocs 1 0xE0000000010000 0x20000 (stackLeaf 2 false))

theorem subscrLines_edge : subscrLines edgeState edgeLocs = [firstLine, secondLine] := by decide +kernel

/-- The form with which SUBSCR reads a line. -/
def edgeLoad : Form := { MForm.form edgeForm false with req := .o }

/-- The first line brought, where `b` says that its home is its anchor. -/
def edgeAfter (b : Bool) : State :=
  (fillRead b edgeState (stackCtx.who stackState) edgeState.nextId edgeLoad .w 0xE000000000FFF8 0x1FFF8 firstLine.tail).s

theorem subscribeLine_first : ∃ b, subscribeLine edgeState (stackCtx.who stackState) (MForm.form edgeForm false) ((.f64, .f64), false)
    firstLine = some (edgeAfter b) := by
  have h := readLine_fills (s := edgeState) (w := stackCtx.who stackState) (k := edgeState.nextId) (ptr := 0xE000000000FFF8) (loc := 0x1FFF8)
    (f := edgeLoad) (req := .w) (bs := firstLine.tail) (some (some (.f64, .f64), false)) (by decide +kernel) rfl rfl rfl
    (by decide +kernel) (by decide +kernel) (by decide +kernel) (by decide +kernel) rfl
  exact h.imp fun b hb => subscribeLine_reads (by decide +kernel) hb

/-- Through the entry that SUBSCR began with the second line would be subscribed, and waits. -/
theorem subscribeLine_second_waits : ∀ b, (subscribeLine (edgeAfter b) (stackCtx.who stackState) (MForm.form edgeForm false)
    ((.f64, .f64), false) secondLine).isNone = true := by decide +kernel

/-- Through the entry as it now stands the second line is on a page under host bias, and the L1 serves it. -/
theorem subscribeLine_second_hits : ∀ b, (subscribeLine (edgeAfter b) (stackCtx.who (edgeAfter b)) (MForm.form edgeForm false)
    ((.f64, .f64), false) secondLine).isSome = true := by decide +kernel

/-! ## What SUBSCR does, and what the statement has it do -/

@[simp] theorem counted_fab (c : Ctx) (i : Instr) (s : State) : (counted c i s).fab = s.fab := by
  unfold counted
  split <;> rfl

@[simp] theorem countedOnce_fab (c : Ctx) (i : Instr) (s : State) : (countedOnce c i s).fab = s.fab := counted_fab c i s

section
variable {s : State} {c : Ctx} {f : MForm} {p : Plan} {locs : List Located} {u : Fmt × Fmt} {m : Bool} (hi : Issues s c)
  (ha : (MForm.form f false).addrOk c.g = true) (hq : acquirePending s c.gid = false) (hl : (MForm.form f false).acting c.g ≠ [])
  (hr : recordChecks .load (c.t.fileRec (MForm.form f false).recIx) = .ok ()) (hf : CounterFree c (.subscr f))
  (hp : planAccess c .load (MForm.form f false) (fun _ => .ok ()) s = .ok p)
  (hc : checkAccess s (c.who s) .load false p.pieces = .ok locs) (hx : f.aux = false)
  (hu : subscription (some (Rec.ofBits (MForm.form f false).recIx (c.t.fileRec (MForm.form f false).recIx))) = some (some u, m))
  (hn : noOverlap c locs false s = .ok ())
include hi ha hq hl hr hf hp hc hx hu hn

/-- SUBSCR waits where a line is not to be had through the entry that it began with. -/
theorem subscr_waits (hw : (subscrLines (countedOnce c (.subscr f) s) locs).foldlM
      (fun v b => subscribeLine v (c.who s) (MForm.form f false) (u, m) b) (countedOnce c (.subscr f) s) = none) :
    exec (.subscr f) s = .next (c.waitHere (countedOnce c (.subscr f) s)) := by
  obtain ⟨hgid, hg, -⟩ := State.ctx?_spec hi.1
  have h1 : completeAtOnce c (.subscr f) s = .ok (countedOnce c (.subscr f) s) :=
    completeAtOnce_free (hgid ▸ hg) hf (by simp [DestFree, State.destBusy, destKeys])
  have he : exec (.subscr f) = execSubscr f := rfl
  rw [he, execSubscr]
  refine runInstr_wait hi ?_
  rw [subscrLines] at hw
  simp only [ha, List.isEmpty_eq_false_iff.mpr hl, hr, hu, hx, hp, hc, afterAcquire, hq, hn, h1, hw, guardOp_true, Res.ok_bind,
    Bool.false_eq_true, if_false]

/-- O36 has SUBSCR go on to each line through the entry as it stands by then. -/
theorem exec_subscr_of_cacheInstructions (ho : Obligations.CacheInstructions) {t : State}
    (ht : (subscrLines (countedOnce c (.subscr f) s) locs).foldlM
      (fun v b => subscribeLine v (c.who v) (MForm.form f false) (u, m) b) (countedOnce c (.subscr f) s) = some t) :
    exec (.subscr f) s = .next (c.done t) := by
  obtain ⟨-, -, -, -, h⟩ := ho s t c f p locs hi ha hq
  obtain ⟨h, -⟩ := h hl hr hf
  obtain ⟨-, h⟩ := h hp hc
  rw [subscrLines, countedOnce_fab] at ht
  exact h u m hx hu hn ht

end

/-- The group waits after a step. -/
def waitsAfter (o : Host.Outcome State Fault Refusal) : Bool :=
  match o with
  | .next t => match t.group? 4 with
    | some g => g.phase == .waiting
    | none => false
  | _ => false

theorem waitsAfter_edge : waitsAfter (.next (stackCtx.waitHere edgeState)) = true := by decide +kernel

/-- An instruction that is done leaves its group to go on. -/
theorem waitsAfter_done (t : State) : waitsAfter (.next (stackCtx.done t)) = false := by
  have hg : (stackCtx.done t).group? 4 = ((stackCtx.ended t).group? 4).map fun g => if g.idx < stackCtx.h.count.val + 1 then
      { g with idx := g.idx + 1, phase := .issuing } else g.goto stackCtx.nextClause (stackCtx.ended t).tick :=
    State.group?_modGroup_self _ _ _
  rw [waitsAfter, hg]
  cases (stackCtx.ended t).group? 4 with
  | none => rfl
  | some g =>
    dsimp only [Option.map_some]
    split <;> rfl

/-- Refutes O36: in `stackState` the statement looks at the second line through the entry that the first has changed, where the L1 serves
it, and has SUBSCR done; the instruction asks for it as it began, and waits. -/
theorem not_cacheInstructions : ¬ Obligations.CacheInstructions := by
  intro h
  obtain ⟨p, hp, hc⟩ := edgeLocs_checked
  obtain ⟨b, hb⟩ := subscribeLine_first
  have he : countedOnce stackCtx (.subscr edgeForm) stackState = edgeState := rfl
  have hr : recordChecks .load (stackCtx.t.fileRec (MForm.form edgeForm false).recIx) = .ok () := Res.eq_ok_of_toOption (by decide +kernel)
  have hu : subscription (some (Rec.ofBits (MForm.form edgeForm false).recIx (stackCtx.t.fileRec (MForm.form edgeForm false).recIx))) =
    some (some (.f64, .f64), false) := by decide +kernel
  have hn : noOverlap stackCtx edgeLocs false stackState = .ok () := Res.eq_ok_of_toOption (by decide +kernel)
  have hf : CounterFree stackCtx (.subscr edgeForm) := fun k hk => by cases hk
  obtain ⟨t, ht⟩ := Option.isSome_iff_exists.mp (subscribeLine_second_hits b)
  have hdone := exec_subscr_of_cacheInstructions issues_stack rfl (by decide +kernel) (by decide) hr hf hp hc rfl hu hn h (t := t) (by
    rw [he, subscrLines_edge]
    simp only [List.foldlM_cons, List.foldlM_nil, who_edgeState, hb, ht, Option.bind_eq_bind, Option.bind_some]
    rfl)
  have hwait := subscr_waits issues_stack rfl (by decide +kernel) (by decide) hr hf hp hc rfl hu hn (by
    rw [he, subscrLines_edge]
    simp only [List.foldlM_cons, hb, Option.isNone_iff_eq_none.mp (subscribeLine_second_waits b), Option.bind_eq_bind, Option.bind_some,
      Option.bind_none])
  have hw := congrArg waitsAfter (hwait.symm.trans hdone)
  rw [waitsAfter_done] at hw
  exact absurd (waitsAfter_edge.symm.trans hw) (by decide)

end Sys2Proof.Machine
end

