-- ==== Sys2Proof/Proofs/MatrixSteps.lean ====
section
/-! What a matrix operation does in its turn (R294, R297, R298, R308 to R315): INSTRUCTION_COMPLETE of MZERO, MRD, MWR and MST, and the
ends of MLDB and MMA. -/
namespace Sys2Proof.Machine
open Sys2Proof.Claims

/-! ## Teams of the state -/

/-- A map without some of its keys. -/
theorem SMap.get_filter_key {α : Type} (d : α) (p : Nat → Bool) (m : SMap α) (k : Nat) :
    SMap.get d (m.filter fun e => p e.1) k = if p k then SMap.get d m k else d := by
  induction m with
  | nil => simp [SMap.get]
  | cons e m ih =>
    obtain ⟨a, v⟩ := e
    by_cases hk : k = a
    · subst hk
      cases hp : p k <;> simp [hp, ih, SMap.get]
    · cases hp : p a <;> simp [hp, hk, ih, SMap.get]

theorem State.modTeam_of_some {s : State} {k : Nat} {t : Team} (f : Team → Team) (h : s.team? k = some t) :
    s.modTeam k f = s.setTeam k (f t) := by
  rw [State.team?] at h
  simp only [State.modTeam, State.setTeam, SMap.adjust, h]

theorem State.team_of_who? {s : State} {gid : Nat} {w : Who} (h : s.who? gid = some w) : s.team? w.g.team = some w.t := by
  simp only [State.who?, Option.bind_eq_bind, Option.pure_def, Option.bind_eq_some_iff, Option.some.injEq] at h
  obtain ⟨g, -, t, ht, l, -, rfl⟩ := h
  exact ht

/-! ## Tiles -/

/-- A team with some of its tiles zero. -/
def Team.clearTiles (t : Team) (mask : Nat) : Team := { t with tiles := t.tiles.filter fun e => !mask.testBit (e.1 / 2048) }

theorem Team.tileWord_clearTiles (t : Team) (mask a : Nat) {i n : Nat} (hi : i < 32) (hn : n < 64) :
    (t.clearTiles mask).tileWord a i n = if mask.testBit a then 0 else t.tileWord a i n := by
  have ha : (a * 2048 + i * 64 + n) / 2048 = a := by omega
  rw [Team.tileWord, Team.clearTiles, SMap.get_filter_key (p := fun j => !mask.testBit (j / 2048)), ha]
  cases mask.testBit a <;> rfl

/-! ## INSTRUCTION_COMPLETE -/

/-- Where nothing has it wait MST writes its bytes. -/
theorem mstWrite_of_ready {s : State} {k : Nat} {o : Op} {w : Who} {ws : List (Nat × Site × Carried)}
    (hs : sitesWait s k o w.t.place (ws.map fun e => e.2.1) = false) (hb : writeBackReady s w.t.place = true)
    (hc : copiesDone s (linesOf ws) = true) :
    mstWrite s k o w ws = some (settleEverywhere
      (engineWrite (writeBack s w.t.place) w.t.place (mirrorShare s w.g.team (ws.map (·.2)))) (linesOf ws)) := by
  have hc' : copiesDone s (siteLocs (ws.map fun e => e.2.1)) = true := hc
  simp only [mstWrite, hs, hb, hc', Bool.not_true, Bool.or_self, Bool.false_eq_true, if_false]
  rfl

/-- A matrix operation in its turn: its entry, its frame, and nothing before it that names what it names (R294). -/
structure InTurn (s : State) (k : Nat) (o : Op) (w : Who) : Prop where
  op : s.op? k = some o
  who : s.who? o.group = some w
  ready : matrixReady s k o = true

namespace InTurn
variable {s : State} {k : Nat} {o : Op} {w : Who} (h : InTurn s k o w)
include h

theorem complete_mzero {b : Spec} {fb : Bool} (hi : o.instr = .mzero b fb) :
    exec (.instructionComplete k) s = .next ((s.setTeam w.g.team (w.t.clearTiles o.tileMask)).finishOp k o) := by
  refine event_some (f := instructionComplete k) ?_
  simp only [instructionComplete, completeMatrix, h.op, h.who, h.ready, hi, Option.bind_eq_bind, Option.bind_some, Bool.not_true,
    Bool.false_eq_true, if_false, State.modTeam_of_some _ (State.team_of_who? h.who)]
  rfl

theorem complete_mrd {d a b : Spec} {ty : Ty} {rnd : Rnd} {sat fb : Bool} (hi : o.instr = .mrd d a b ty rnd sat fb)
    (hd : destFree s k o = true) :
    let r (l : Nat) : Flagged Nat := rowResult ty rnd sat (w.t.tileVal (o.val 0).toNat (ty == .f64) (o.val 1).toNat ((o.val 2).toNat + l))
    exec (.instructionComplete k) s = .next ((State.raiseFp (s.modGroup o.group fun g => o.inFrame g fun g => (lanes o.exec).foldl
      (fun g l => writeData g d (if ty = .f64 then 8 else 4) l false (r l).val) g) o.group
        (orFp ((lanes o.exec).map fun l => (r l).fp))).finishOp k o) := by
  refine event_some (f := instructionComplete k) ?_
  simp only [instructionComplete, completeMatrix, h.op, h.who, h.ready, hd, hi, Option.bind_eq_bind, Option.bind_some, Bool.not_true,
    Bool.false_eq_true, if_false]
  cases ty <;> simp only [List.foldl_map, List.map_map] <;> rfl

theorem complete_mwr {a b x : Spec} {ty : Ty} {fb : Bool} (hi : o.instr = .mwr a b x ty fb) :
    let r (l : Nat) : Flagged Nat := rowWord ty (o.val (400 + l)).toNat
    exec (.instructionComplete k) s = .next (((s.modTeam w.g.team fun t => (lanes o.exec).foldl
      (fun t l => t.setTileVal (o.val 0).toNat (ty == .f64) (o.val 1).toNat ((o.val 2).toNat + l) (r l).val) t).raiseFp o.group
        (orFp ((lanes o.exec).map fun l => (r l).fp))).finishOp k o) := by
  refine event_some (f := instructionComplete k) ?_
  simp only [instructionComplete, completeMatrix, h.op, h.who, h.ready, hi, Option.bind_eq_bind, Option.bind_some, Bool.not_true,
    Bool.false_eq_true, if_false]
  cases ty <;> simp only [List.foldl_map, List.map_map] <;> rfl

theorem fault_mst {f : MForm} {x : Trap} (hi : o.instr = .mst f) (hw : mstWrites w o f = .error x) :
    exec (.instructionComplete k) s = .next (endEngine s k o x) := by
  refine event_some (f := instructionComplete k) ?_
  simp only [instructionComplete, completeMatrix, h.op, h.who, h.ready, hi, hw, Option.bind_eq_bind, Option.bind_some, Bool.not_true,
    Bool.false_eq_true, if_false]
  rfl

theorem complete_mst {f : MForm} {ws : List (Nat × Site × Carried)} {st : Stored} (hi : o.instr = .mst f)
    (hw : mstWrites w o f = .ok (ws, st)) (hs : sitesWait s k o w.t.place (ws.map fun e => e.2.1) = false)
    (hb : writeBackReady s w.t.place = true) (hc : copiesDone s (linesOf ws) = true) :
    let own := ((o.reqs.head?.map fun r => r.bytes.filterMap fun b => if isSpad b.2 then some (b.2 - 2 ^ 48) else none)).getD []
    let t := settleEverywhere (engineWrite (writeBack s w.t.place) w.t.place (mirrorShare s w.g.team (ws.map (·.2)))) (linesOf ws)
    let t := noteResult (noteShare t w.g.team k own) w.g.team k [(2 ^ 35, st.fp.zeroExtend 64)]
    let t := (settleEverywhere t o.locs).raiseFp o.group st.fp
    let t := (o.twin.map (·.1)).elim t fun g => t.raiseFp g st.fp
    exec (.instructionComplete k) s =
      .next ((freeLines (if st.subst then t.raiseSubst w.t.launch f.recIx.toNat else t) k o.locs).finishOp k o) := by
  refine event_some (f := instructionComplete k) ?_
  simp only [instructionComplete, completeMatrix, h.op, h.who, h.ready, hi, hw, mstWrite_of_ready hs hb hc, Option.bind_eq_bind,
    Option.bind_some, Bool.not_true, Bool.false_eq_true, if_false]
  cases o.twin <;> rfl

end InTurn

/-! ## MLDB_COMPLETE and MLDB_FAULT -/

/-- The teams of an operation follow from its groups alone. -/
theorem mldbTeams_congr {s t : State} (h : t.groups = s.groups) (o : Op) : mldbTeams t o = mldbTeams s o := by
  have hg : t.group? = s.group? := funext fun g => by rw [State.group?, State.group?, h]
  rw [mldbTeams, mldbTeams, hg]

@[simp] theorem mldbReads_groups (s : State) (x : Mldb) (start : Bool) (teams : List Nat) :
    (mldbReads s x start teams).groups = s.groups := by
  induction teams generalizing s with
  | nil => rfl
  | cons t ts ih => exact ih _

/-- The end of an MLDB that may not go on: its slots are not valid, and its reads are over. -/
def mldbFails (s : State) (k : Nat) (o : Op) (x : Mldb) (y : Trap) : State :=
  endEngine ((mldbTeams s o).foldl (fun u team => u.modTeam team x.invalidate) (mldbReads s x false o.begunIn)) k o y

section
variable {s : State} {k : Nat} {o : Op} {w : Who} {a b : Spec} {f : Fmt} {fb : Bool} (ho : s.op? k = some o) (hw : s.who? o.group = some w)
  (hi : o.instr = .mldb a b f fb) (hr : mldbReady s k o w (o.mldb f) = true)
include ho hw hi hr

theorem exec_mldbComplete {sites : List Site} {bs : List Carried} {t : State}
    (hs : mldbSites (w.fill s (o.mldb f).bytes) w (o.mldb f) = .ok sites)
    (hwait : sitesWait (w.fill s (o.mldb f).bytes) k o w.t.place sites = false)
    (hread : engineRead (writeBack (w.fill s (o.mldb f).bytes) w.t.place) w.t.place o.group sites = (bs, t))
    (hb : (o.mldb f).badScale bs = none) :
    let x := o.mldb f
    let t := mldbReads (mldbReads t x true ((mldbTeams t o).filter fun m => !o.begunIn.contains m)) x false (mldbTeams t o)
    exec (.mldbComplete k) s = .next ((noteResult ((mldbTeams t o).foldl (fun y team => y.modTeam team (x.fillAll bs)) t) w.g.team k
      (bs.zipIdx.map fun e => (2 ^ 33 + e.2, e.1.word))).finishOp k o) := by
  refine event_some (f := mldbComplete k) ?_
  simp only [mldbComplete, ho, hw, hi, hr, hs, hwait, hread, hb, Option.bind_eq_bind, Option.bind_some, Bool.not_true,
    Bool.false_eq_true, if_false, Option.isSome_none, mldbTeams_congr (mldbReads_groups t _ _ _)]
  rfl

theorem exec_mldbFault_scale {sites : List Site} {bs : List Carried} {t : State} {off : Nat} (hs : mldbSites s w (o.mldb f) = .ok sites)
    (hwait : sitesWait s k o w.t.place sites = false)
    (hread : engineRead (writeBack s w.t.place) w.t.place o.group sites = (bs, t)) (hb : (o.mldb f).badScale bs = some off) :
    exec (.mldbFault k) s = .next (mldbFails s k o (o.mldb f)
      { cause := 0x02, addr := reportAddr w.stackBase w.g.stackSlot (ptrAdd (o.mldb f).scale off).toNat }) := by
  refine event_some (f := mldbFault k) ?_
  simp only [mldbFault, ho, hw, hi, hr, hs, hwait, hread, hb, Option.bind_eq_bind, Option.bind_some, Bool.not_true,
    Bool.false_eq_true, if_false]
  rfl

theorem exec_mldbFault_site {n p : Nat} (hs : mldbSites s w (o.mldb f) = .error (n, p)) :
    exec (.mldbFault k) s = .next (if isPageAbsent s w n p then stallEngine s k o (engineTrap w n p)
      else mldbFails s k o (o.mldb f) (engineTrap w n p)) := by
  refine event_some (f := mldbFault k) ?_
  simp only [mldbFault, ho, hw, hi, hr, hs, Option.bind_eq_bind, Option.bind_some, Bool.not_true, Bool.false_eq_true, if_false]
  rfl

end

/-! ## MMA_WRITEBACK and MMA_FAULT -/

/-- What an MMA leaves where it ends: its tile, its flags, and the free bits that it has drawn. -/
def mmaLeaves (s : State) (o : Op) (w : Who) (f : XForm) (t : Team × BitVec 7) : State :=
  ({ s with free := s.free + 64 * (32 * (f.chunks.toNat + 1)) }.setTeam w.g.team t.1).raiseFp o.group t.2

section
variable {s : State} {k : Nat} {o : Op} {w : Who} {f : XForm} (ho : s.op? k = some o) (hw : s.who? o.group = some w)
  (hi : o.instr = .mma f) (hr : mmaReady s k o w.t.place = true)
include ho hw hi hr

theorem exec_mmaWriteback (hd : (mmaData s w.t o f).fault = none) :
    exec (.mmaWriteback k) s = .next ((mmaLeaves s o w f (mmaTile w.t f (mmaData s w.t o f)
      (Slot.format (w.t.slotTag (o.val 301).toNat)) (32 * (f.chunks.toNat + 1)))).finishOp k o) := by
  refine event_some (f := mmaWriteback k) ?_
  simp only [mmaWriteback, ho, hw, hi, hr, hd, Option.bind_eq_bind, Option.bind_some, Bool.not_true, Bool.false_eq_true, if_false,
    Option.isSome_none]
  rfl

/-- A fault in the first 32 rows of K leaves the tile as it was, whatever it accumulates on (R308). -/
theorem exec_mmaFault {q : Nat} {x : Trap} (hd : (mmaData s w.t o f).fault = some (q, x)) :
    exec (.mmaFault k) s = .next ((mmaLeaves s o w f (if q < 32 then (w.t, 0) else mmaTile w.t f (mmaData s w.t o f)
      (Slot.format (w.t.slotTag (o.val 301).toNat)) (q / 32 * 32))).faultOp k o x) := by
  have hq : (q / 32 * 32 = 0) = (q < 32) := propext (by omega)
  refine event_some (f := mmaFault k) ?_
  simp only [mmaFault, ho, hw, hi, hr, hd, hq, Option.bind_eq_bind, Option.bind_some, Bool.not_true, Bool.false_eq_true, if_false]
  rfl

end

/-- Settles O45: each step of an operation in its turn, by the kind of its instruction. -/
theorem matrixCompletes : Obligations.MatrixCompletes := by
  intro s k o w ho hw hready tile row col
  have h : InTurn s k o w := ⟨ho, hw, hready⟩
  refine ⟨fun b fb hi => ⟨w.t.clearTiles o.tileMask, h.complete_mzero hi, fun a i n => w.t.tileWord_clearTiles o.tileMask a, rfl⟩,
    fun d a b ty rnd sat fb hi hd => h.complete_mrd hi hd, fun a b x ty fb hi => h.complete_mwr hi, fun f x hi hx => h.fault_mst hi hx,
    fun f ws st hi hx hs hb hc => h.complete_mst hi hx hs hb hc, fun a b f fb sites bs t hi hr => ⟨?_, ?_, ?_⟩,
    fun f hi hr => ⟨fun hd => exec_mmaWriteback ho hw hi hr hd, fun q x hd hq => ?_, fun q x hd hq => ?_⟩⟩
  · exact fun hs hwait hread hb => exec_mldbComplete ho hw hi hr hs hwait hread hb
  · exact fun off hs hwait hread hb => exec_mldbFault_scale ho hw hi hr hs hwait hread hb
  · exact fun n p hs => exec_mldbFault_site ho hw hi hr hs
  · have hx := exec_mmaFault ho hw hi hr hd
    rw [if_neg (Nat.not_lt.mpr hq)] at hx
    exact hx
  · have hx := exec_mmaFault ho hw hi hr hd
    rw [if_pos hq] at hx
    exact hx

end Sys2Proof.Machine
end

