-- ==== Sys2Proof/Proofs/MatrixTiles.lean ====
section
/-! MZERO, MRD, MWR and MWAIT at issue (R293, R294, R310 to R313). -/
namespace Sys2Proof.Machine
open Sys2Proof.Claims

/-! ## Instructions of engines that may issue -/

/-- An engine's or a matrix instruction in the handler is an illegal operand (R354). -/
theorem exec_engine_handler {s : State} {c : Ctx} {i : Instr} {rest : Unit → Ctx → State → Res State} (hi : Issues s c)
    (hs : c.g.sup = true) (he : exec i = runInstr fun c s => engineReady c s >>= fun u => rest u c s) :
    exec i s = .next (c.takeTrap { cause := 0x02 } (c.settled s)) :=
  exec_next_trap hi he (by simp only [engineReady_handler hs, Res.error_bind])

/-- An engine's or a matrix instruction that issues: its frame, outside the handler, and no acquire before it (R269, R354). -/
structure EngineIssues (s : State) (c : Ctx) : Prop where
  issues : Issues s c
  sup : c.g.sup = false
  acquire : acquirePending s c.gid = false

/-- An operation of the group, or of its convoy's other side for it, is in flight that MWAIT of a tile mask waits for (R313). -/
def MatrixAwaited (s : State) (gid m : Nat) : Prop :=
  ∃ e ∈ s.ops, (e.2.group = gid ∨ ∃ k, e.2.twin = some (gid, k)) ∧ isMatrix e.2.instr = true ∧
    (e.2.tileMask &&& m ≠ 0 ∨ m.testBit 16 = true ∧ isMldb e.2.instr = true)

namespace EngineIssues
variable {s : State} {c : Ctx} (h : EngineIssues s c)
include h

theorem ready : engineReady c s = .ok () := engineReady_of_ready h.sup h.acquire

theorem group : s.group? c.gid = some c.g := by
  obtain ⟨hgid, hg, -⟩ := State.ctx?_spec h.issues.1
  exact hgid ▸ hg

/-! ## MZERO, MRD and MWR -/

theorem exec_mzero_none {b : Spec} {fb : Bool} (hm : tileOperand c b false = .ok 0) (hf : CounterFree c (.mzero b fb)) :
    exec (.mzero b fb) s = .next (c.done (countedOnce c (.mzero b fb) s)) := by
  refine exec_next_done h.issues (he := rfl) ?_
  simp only [h.ready, hm, Res.ok_bind, if_true]
  exact completeAtOnce_free h.group hf (by simp [DestFree, destKeys, State.destBusy])

theorem exec_mzero_some {b : Spec} {fb : Bool} {m : Nat} (hm : tileOperand c b false = .ok m) (hm0 : m ≠ 0)
    (hf : CounterFree c (.mzero b fb)) :
    exec (.mzero b fb) s = .next (c.done (inFlight c (.mzero b fb) { c.op (.mzero b fb) with vals := naming m 0 0 } s)) := by
  refine exec_next_done h.issues (he := rfl) ?_
  simp only [h.ready, hm, Res.ok_bind, if_neg hm0]
  exact issueOp_free h.group rfl hf

section
variable {a b d : Spec} {ty : Ty} {fb : Bool} {n m row col : Nat} (hd : vDst c d ty.is64 = true) (ha : tileSpec a = .ok n)
  (hp : position c b = .ok (row, col)) (hm : tilePair c.t n (ty == .f64) = some m)
include hd ha hp hm

theorem exec_mrd {rnd : Rnd} {sat : Bool} (hf : CounterFree c (.mrd d a b ty rnd sat fb)) :
    exec (.mrd d a b ty rnd sat fb) s = .next (c.done (inFlight c (.mrd d a b ty rnd sat fb) { c.op (.mrd d a b ty rnd sat fb) with
      vals := naming m 0 0 ++ [(0, BitVec.ofNat 64 n), (1, BitVec.ofNat 64 row), (2, BitVec.ofNat 64 col)] } s)) := by
  refine exec_next_done h.issues (he := rfl) ?_
  simp only [h.ready, hd, ha, hp, hm, guardOp_true, Res.ok_bind]
  exact issueOp_free h.group rfl hf

theorem exec_mwr (hf : CounterFree c (.mwr a b d ty fb)) :
    exec (.mwr a b d ty fb) s = .next (c.done (inFlight c (.mwr a b d ty fb) { c.op (.mwr a b d ty fb) with
      vals := naming m 0 0 ++ [(0, BitVec.ofNat 64 n), (1, BitVec.ofNat 64 row), (2, BitVec.ofNat 64 col)] ++
        (lanes c.g.exec).map fun l => (400 + l, BitVec.ofNat 64 (readData c.g d (if ty = .f64 then 8 else 4) l)) } s)) := by
  refine exec_next_done h.issues (he := rfl) ?_
  simp only [h.ready, hd, ha, hp, hm, guardOp_true, Res.ok_bind, beq_iff_eq]
  exact issueOp_free h.group rfl hf

end

/-! ## MWAIT -/

section
variable {b : Spec} {fb : Bool} {m : Nat} (hm : tileOperand c b true = .ok m)
include hm

theorem exec_mwait_waits (hb : MatrixAwaited s c.gid m) :
    exec (.mwait b fb) s = .next (c.waitHere s) := by
  refine exec_next_wait h.issues (he := rfl) ?_
  simp only [h.ready, hm, Res.ok_bind]
  refine if_pos (List.any_eq_true.mpr ?_)
  obtain ⟨e, he, hg, hx, hn⟩ := hb
  refine ⟨e, he, ?_⟩
  obtain hg | ⟨k, hk⟩ := hg
  · simpa [hg, hx] using hn
  · simpa [hk, hx] using hn

theorem exec_mwait_passes (hb : ¬ MatrixAwaited s c.gid m) (hf : CounterFree c (.mwait b fb)) :
    exec (.mwait b fb) s = .next (c.done (countedOnce c (.mwait b fb) s)) := by
  refine exec_next_done h.issues (he := rfl) ?_
  simp only [h.ready, hm, Res.ok_bind]
  refine (if_neg fun hany => hb ?_).trans (completeAtOnce_free h.group hf (by simp [DestFree, destKeys, State.destBusy]))
  obtain ⟨e, he, hx⟩ := List.any_eq_true.mp hany
  refine ⟨e, he, ?_⟩
  cases ht : e.2.twin with
  | none => simpa [ht, and_assoc] using hx
  | some g =>
    obtain ⟨g, k⟩ := g
    simpa [ht, and_assoc] using hx

end

end EngineIssues

end Sys2Proof.Machine
end

