-- ==== Sys2Proof/Proofs/MatrixLoads.lean ====
section
/-! MLDB at issue (R296 to R298): from the own share, from elsewhere, and in a convoy (R376, R380). -/
namespace Sys2Proof.Machine
open Sys2Proof.Claims

/-- A team on its own takes its value, and the assayer logs it. -/
theorem takeOutside_of_solo {c : Ctx} (h : c.t.side = .solo) (sig : Word) (f : State → Res (List (Nat × Word) × State)) (s : State) :
    takeOutside c sig f s = (f s >>= fun r => .ok (r.1, assayLog c sig r.1 r.2)) := by
  simp only [takeOutside, h]

/-! ## What an MLDB issues -/

/-- What an MLDB of two s registers asks for. -/
def mldbAsked (c : Ctx) (k : Nat) (fmt : Fmt) (ctl : Word) : Mldb := mldbOf fmt (c.g.readS k) (c.g.readS (k + 1)) ctl

/-- The signature of an MLDB (R377). -/
def mldbSig (c : Ctx) (i : Instr) (k : Nat) (ctl : Word) : Word := c.sig i [(c.g.readS k).toNat, (c.g.readS (k + 1)).toNat, ctl.toNat]

/-- An MLDB whose lines or scales lie outside the share (R376). -/
def FromOutside (c : Ctx) (k : Nat) (fmt : Fmt) : Prop :=
  isSpadPtr (c.g.readS k).toNat = false ∨ fmt.hasScale = true ∧ isSpadPtr (c.g.readS (k + 1)).toNat = false

/-- The note of an MLDB whose reads begin when it issues. -/
def mldbMark (c : Ctx) (x : Mldb) : List (Nat × Word) := if x.begins c.t then [begun c.g.team] else []

/-- The operation of an MLDB. -/
def mldbOp (c : Ctx) (i : Instr) (k : Nat) (fmt : Fmt) (ctl : Word) : Op :=
  let x := mldbAsked c k fmt ctl
  { c.op i with vals := [(0, c.g.readS k), (1, c.g.readS (k + 1)), (2, ctl)] ++ naming 0 x.first x.count ++ mldbMark c x }

/-- The reads of an MLDB begin at its issue, where the buffers' states allow them (R238, R239). -/
def mldbStarts (c : Ctx) (x : Mldb) (y : State) : State :=
  if x.begins c.t then y.modTeam c.g.team fun m => m.engineReads x.ownReads true else y

/-- A convoy's escort notes in the shared operation when it issued, and that its reads have begun (R376). -/
def mldbNoted (c : Ctx) (x : Mldb) (v : List (Nat × Word)) (now : Nat) (y : State) : State :=
  if c.t.side = .escort then
    { y.modOp ((v.head?.map fun e => e.2.toNat).getD 0) fun o =>
        { o with vals := o.vals ++ (303, BitVec.ofNat 64 now) :: mldbMark c x } with nextId := y.nextId + 1 }
  else y

/-- A side of a convoy joins the MLDB that both have named: one that the log covers fills its slots in its turn (R376, R380). -/
def mldbJoins (c : Ctx) (i : Instr) (o : Op) (x : Mldb) (v : List (Nat × Word)) (u : State) : Res State :=
  if v.drop 1 != [] && earlierNaming u c.g.team u.nextId o then .error (.wait u)
  else joinEngine c i o v u >>= fun y =>
    .ok (mldbNoted c x v u.nextId (if v.drop 1 != [] then replayMldb c x v y else mldbStarts c x y))

section
variable {c : Ctx} {i : Instr} {o : Op} {x : Mldb} {v : List (Nat × Word)} {u : State}

theorem mldbJoins_fresh {t : State} (hv : v.drop 1 = []) (hj : joinEngine c i o v u = .ok t) :
    mldbJoins c i o x v u = .ok (mldbNoted c x v u.nextId (mldbStarts c x t)) := by
  simp only [mldbJoins, hv, hj, bne_self_eq_false, Bool.false_and, Bool.false_eq_true, if_false, Res.ok_bind]

theorem mldbJoins_waits (hv : v.drop 1 ≠ []) (he : earlierNaming u c.g.team u.nextId o = true) :
    mldbJoins c i o x v u = .error (.wait u) := by
  simp only [mldbJoins, bne_iff_ne.mpr hv, he, Bool.and_self, if_true]

theorem mldbJoins_logged {t : State} (hv : v.drop 1 ≠ []) (he : earlierNaming u c.g.team u.nextId o = false)
    (hj : joinEngine c i o v u = .ok t) : mldbJoins c i o x v u = .ok (mldbNoted c x v u.nextId (replayMldb c x v t)) := by
  simp only [mldbJoins, bne_iff_ne.mpr hv, he, hj, Bool.and_false, Bool.false_eq_true, if_false, if_true, Res.ok_bind]

/-- A team on its own starts the operation that it has named. -/
theorem mldbJoins_solo {s : State} {sig : Word} (hg : s.group? c.gid = some c.g) (hs : c.t.side = .solo) (hn : s.nextId < 2 ^ 64)
    (hf : CounterFree c i) (ho : o.flag = c.flag i) :
    mldbJoins c i o x [namedOp s.nextId] (assayLog c sig [namedOp s.nextId] s) =
      .ok (mldbStarts c x (inFlight c i o (assayLog c sig [namedOp s.nextId] s))) := by
  obtain ⟨hgroups, hnext⟩ := assayLog_sameButAssay c sig [namedOp s.nextId] s
  have hg' : (assayLog c sig [namedOp s.nextId] s).group? c.gid = some c.g := by
    rw [State.group?, hgroups]
    exact hg
  have hj := (joinEngine_new (i := i) (o := o) (by rw [hs]; decide) hnext.symm hn).trans (issueOp_free hg' ho hf)
  rw [mldbJoins_fresh rfl hj, mldbNoted, hs]
  rfl

end

/-- An MLDB whose operands and early checks pass. -/
structure MldbPasses (s : State) (c : Ctx) (k : Fin 64) (b : Spec) (fmt : Fmt) (fb : Bool) (ctl : Word) : Prop
    extends EngineIssues s c where
  even : k.val % 2 = 0
  ctl_ok : sVal c b = .ok ctl
  checks : mldbChecks c fmt (mldbAsked c k.val fmt ctl) ctl s = .ok ()
  free : CounterFree c (.mldb (.s k) b fmt fb)

namespace MldbPasses
variable {s : State} {c : Ctx} {k : Fin 64} {b : Spec} {fmt : Fmt} {fb : Bool} {ctl : Word} (h : MldbPasses s c k b fmt fb ctl)
include h

theorem even_beq : (k.val % 2 == 0) = true := beq_iff_eq.mpr h.even

/-- From the own share alone it starts its operation. -/
theorem body_share (h1 : isSpadPtr (c.g.readS k.val).toNat = true)
    (h2 : fmt.hasScale = true → isSpadPtr (c.g.readS (k.val + 1)).toNat = true) :
    ∃ body, exec (.mldb (.s k) b fmt fb) = runInstr body ∧ body c s =
      issueOp c (mldbOp c (.mldb (.s k) b fmt fb) k.val fmt ctl) s >>= fun y => .ok (mldbStarts c (mldbAsked c k.val fmt ctl) y) := by
  have hshare : (isSpadPtr (c.g.readS k.val).toNat && !(fmt.hasScale && !isSpadPtr (c.g.readS (k.val + 1)).toNat)) = true := by
    simpa [h1, imp_iff_not_or] using h2
  have hchecks := h.checks
  rw [mldbAsked] at hchecks
  refine ⟨_, rfl, ?_⟩
  simp only [h.ready, h.even_beq, h.ctl_ok, hchecks, countFlag_free h.group h.free, hshare, guardOp_true, Res.ok_bind, if_true]
  rfl

/-- From elsewhere the two sides of a convoy name one operation, which each joins. -/
theorem body_outside (h1 : FromOutside c k.val fmt) :
    ∃ body, exec (.mldb (.s k) b fmt fb) = runInstr body ∧ body c s =
      takeOutside c (mldbSig c (.mldb (.s k) b fmt fb) k.val ctl) (fun y => .ok ([namedOp y.nextId], y)) s >>= fun r =>
        mldbJoins c (.mldb (.s k) b fmt fb) (mldbOp c (.mldb (.s k) b fmt fb) k.val fmt ctl) (mldbAsked c k.val fmt ctl) r.1 r.2 := by
  have hshare : (isSpadPtr (c.g.readS k.val).toNat && !(fmt.hasScale && !isSpadPtr (c.g.readS (k.val + 1)).toNat)) = false := by
    obtain h1 | ⟨h1, h2⟩ := h1
    · rw [h1, Bool.false_and]
    · rw [h1, h2, Bool.not_false, Bool.and_self, Bool.not_true, Bool.and_false]
  have hchecks := h.checks
  rw [mldbAsked] at hchecks
  refine ⟨_, rfl, ?_⟩
  simp only [h.ready, h.even_beq, h.ctl_ok, hchecks, countFlag_free h.group h.free, hshare, guardOp_true, Res.ok_bind,
    Bool.false_eq_true, if_false]
  refine congrArg (_ >>= ·) (funext fun ⟨v, u⟩ => ?_)
  simp only [mldbJoins, mldbNoted]
  cases hlog : v.drop 1 != [] <;> cases hside : c.t.side <;> rfl

theorem exec_share (h1 : isSpadPtr (c.g.readS k.val).toNat = true)
    (h2 : fmt.hasScale = true → isSpadPtr (c.g.readS (k.val + 1)).toNat = true) :
    exec (.mldb (.s k) b fmt fb) s = .next (c.done (mldbStarts c (mldbAsked c k.val fmt ctl)
      (inFlight c (.mldb (.s k) b fmt fb) (mldbOp c (.mldb (.s k) b fmt fb) k.val fmt ctl) s))) := by
  obtain ⟨body, he, hb⟩ := h.body_share h1 h2
  exact exec_next_done h.issues he (by rw [hb, issueOp_free h.group rfl h.free, Res.ok_bind])

section
variable (h1 : FromOutside c k.val fmt) {v : List (Nat × Word)} {u : State}
  (htake : takeOutside c (mldbSig c (.mldb (.s k) b fmt fb) k.val ctl) (fun y => .ok ([namedOp y.nextId], y)) s = .ok (v, u))
include h1 htake

theorem exec_outside_done {t : State} (hj : mldbJoins c (.mldb (.s k) b fmt fb) (mldbOp c (.mldb (.s k) b fmt fb) k.val fmt ctl)
    (mldbAsked c k.val fmt ctl) v u = .ok t) : exec (.mldb (.s k) b fmt fb) s = .next (c.done t) := by
  obtain ⟨body, he, hb⟩ := h.body_outside h1
  exact exec_next_done h.issues he (by rw [hb, htake, Res.ok_bind, hj])

theorem exec_outside_waits {t : State} (hj : mldbJoins c (.mldb (.s k) b fmt fb) (mldbOp c (.mldb (.s k) b fmt fb) k.val fmt ctl)
    (mldbAsked c k.val fmt ctl) v u = .error (.wait t)) : exec (.mldb (.s k) b fmt fb) s = .next (c.waitHere t) := by
  obtain ⟨body, he, hb⟩ := h.body_outside h1
  exact exec_next_wait h.issues he (by rw [hb, htake, Res.ok_bind, hj])

end

theorem exec_outside_solo (h1 : FromOutside c k.val fmt) (hs : c.t.side = .solo) (hn : s.nextId < 2 ^ 64) :
    exec (.mldb (.s k) b fmt fb) s = .next (c.done (mldbStarts c (mldbAsked c k.val fmt ctl) (inFlight c (.mldb (.s k) b fmt fb)
      (mldbOp c (.mldb (.s k) b fmt fb) k.val fmt ctl) (assayLog c (mldbSig c (.mldb (.s k) b fmt fb) k.val ctl) [namedOp s.nextId] s)))) :=
  h.exec_outside_done h1 (takeOutside_of_solo hs _ _ _) (mldbJoins_solo h.group hs hn h.free rfl)

end MldbPasses

end Sys2Proof.Machine
end

