-- ==== Sys2Proof/Proofs/MatrixIssue.lean ====
section
/-! MMA and MST at issue (R299 to R301, R307, R314, R315), and what every matrix instruction does there. -/
namespace Sys2Proof.Machine
open Sys2Proof.Claims

/-! ## MMA -/

/-- An MMA whose lanes have all arrived, at slots whose first is valid (R307). -/
structure MmaArrives (s : State) (c : Ctx) (f : XForm) : Prop extends EngineIssues s c where
  whole : c.g.exec = fullMask c.g.width
  live : c.g.exec &&& ~~~c.g.live = 0
  resident : c.g.tokens ≠ [] ∨ c.g.spilledTok = 0
  settled : ∀ t ∈ c.g.tokens.head?, t.held = false
  valid : Slot.valid (c.t.slotTag f.slot.toNat) = true

/-- An MMA whose operands and early checks pass, at slots that no MLDB loads (R299 to R301). -/
structure MmaPasses (s : State) (c : Ctx) (f : XForm) (d : Word) (mask : Nat) : Prop extends MmaArrives s c f where
  loaded : ∀ q ∈ f.slot.toNat :: mmaSlots c f, slotLoading s c.g.team q = false
  base : sVal c f.abase = .ok d
  tile : tilePair c.t f.acc.toNat (isPair f) = some mask
  slots : mmaSlotsOk c f
  legal : combination f.sem f.accf f.afmt (Slot.format (c.t.slotTag f.slot.toNat)) = true
  blocks : ∀ y ∈ [f.afmt, Slot.format (c.t.slotTag f.slot.toNat)], y.isAsym = true → 32 * (f.chunks.toNat + 1) % y.block = 0
  descriptor : descriptorOk d = true
  bytes : ∀ o ∈ (aOperand f d).offsets, o < c.t.spadSize ∧ bufferAllows c.t .load o = true
  apart : overlapping s c.gid ((aOperand f d).offsets.map spadLoc) = false

namespace MmaArrives
variable {s : State} {c : Ctx} {f : XForm} (h : MmaArrives s c f)
include h

/-- An MMA names every lane, and all are there. -/
theorem arrive_all : arrive c true (fullMask c.g.width) s = .ok (c, s) := by
  obtain ⟨x, hx, hheld⟩ := innerIf_resident s h.resident
  have hsame : arrive c true (fullMask c.g.width) s = arrive c false (fullMask c.g.width) s := by
    simp [arrive, ← h.whole]
  rw [hsame, ← h.whole]
  exact arrive_active hx h.live (fun t ht => h.settled t (hheld t ht)) BitVec.and_self

theorem exec_waits (hq : ∃ q ∈ f.slot.toNat :: mmaSlots c f, slotLoading s c.g.team q = true) :
    exec (.mma f) s = .next (c.waitHere s) := by
  refine exec_next_wait h.issues (body := mmaBody f) rfl ?_
  simp only [mmaBody, h.ready, h.arrive_all, h.valid, Res.ok_bind, if_true]
  cases hfirst : slotLoading s c.g.team f.slot.toNat
  · have hany : (mmaSlots c f).any (slotLoading s c.g.team) = true := by
      obtain ⟨q, hq, hl⟩ := hq
      obtain rfl | hq := List.mem_cons.mp hq
      · exact absurd hl (by rw [hfirst]; exact Bool.false_ne_true)
      · exact List.any_eq_true.mpr ⟨q, hq, hl⟩
    rw [mmaSlots] at hany
    simp only [hany, Bool.false_eq_true, if_false, if_true, Res.error_bind]
  · simp only [if_true, Res.error_bind]

end MmaArrives

namespace MmaPasses
variable {s : State} {c : Ctx} {f : XForm} {d : Word} {mask : Nat} (h : MmaPasses s c f d mask)
include h

theorem slots_loaded : (mmaSlots c f).any (slotLoading s c.g.team) = false :=
  List.any_eq_false.mpr fun q hq => by rw [h.loaded q (List.mem_cons_of_mem _ hq)]; exact Bool.false_ne_true

theorem slots_checked : (slotsOwn c.t f.slot.toNat (mmaSlots c f).length && (mmaSlots c f).zipIdx.all fun x =>
    Slot.valid (c.t.slotTag x.1) && Slot.format (c.t.slotTag x.1) == Slot.format (c.t.slotTag f.slot.toNat) &&
      decide (min (slotRows (Slot.format (c.t.slotTag f.slot.toNat)))
        (32 * (f.chunks.toNat + 1) - x.2 * slotRows (Slot.format (c.t.slotTag f.slot.toNat))) ≤ Slot.rows (c.t.slotTag x.1))) = true := by
  obtain ⟨hown, hslots⟩ := h.slots
  refine Bool.and_eq_true_iff.mpr ⟨hown, List.all_eq_true.mpr fun x hx => ?_⟩
  obtain ⟨hv, -, hf, hr⟩ := hslots x hx
  simp only [hv, hf, beq_self_eq_true, decide_eq_true hr, Bool.and_self]

theorem slots_sound : (mmaSlots c f).filter (fun q => Slot.poisoned (c.t.slotTag q)) = [] := by
  refine List.filter_eq_nil_iff.mpr fun q hq => ?_
  obtain ⟨i, hi, rfl⟩ := List.mem_iff_getElem.mp hq
  obtain ⟨-, hp, -⟩ := List.forall_mem_zipIdx'.mp h.slots.2 i hi
  exact Bool.not_eq_true _ ▸ hp

theorem blocks_whole {y : Fmt} (hy : y ∈ [f.afmt, Slot.format (c.t.slotTag f.slot.toNat)]) :
    (!(y.isAsym && 32 * (f.chunks.toNat + 1) % y.block != 0)) = true := by
  cases ha : y.isAsym
  · rfl
  · rw [h.blocks y hy ha]
    rfl

theorem exec_issues (hf : CounterFree c (.mma f)) :
    exec (.mma f) s = .next (c.done (inFlight c (.mma f) { c.op (.mma f) with
      vals := (0, d) :: naming mask f.slot.toNat (mmaSlots c f).length,
      got := (aOperand f d).offsets.foldl (fun m o => SMap.put m o (c.t.spadByte o)) [] } s)) := by
  refine exec_next_done h.issues (body := mmaBody f) rfl ?_
  have hfirst : slotLoading s c.g.team f.slot.toNat = false := h.loaded _ List.mem_cons_self
  have hloaded := h.slots_loaded
  have hchecked := h.slots_checked
  have hsound := h.slots_sound
  have hsize : (aOperand f d).offsets.find? (fun o => decide (c.t.spadSize ≤ o)) = none :=
    List.find?_eq_none.mpr fun o ho => by simpa using (h.bytes o ho).1
  have hbuf : (aOperand f d).offsets.find? (fun o => !bufferAllows c.t .load o) = none :=
    List.find?_eq_none.mpr fun o ho => by simpa using (h.bytes o ho).2
  have hapart : overlapping s (c.who s).gid ((aOperand f d).offsets.map spadLoc) = false := h.apart
  rw [mmaSlots] at hloaded hchecked hsound
  rw [List.length_map, List.length_range] at hchecked
  simp only [mmaBody, h.ready, h.arrive_all, h.valid, hfirst, hloaded, h.base, h.tile, hchecked, hsound, h.legal,
    h.blocks_whole List.mem_cons_self, h.blocks_whole (List.mem_cons_of_mem _ List.mem_cons_self), h.descriptor, hsize, hbuf, hapart,
    List.min?_nil, Bool.and_self, guardOp_true, Res.ok_bind, Bool.false_eq_true, if_false, if_true]
  rw [mmaSlots, List.length_map, List.length_range]
  exact issueOp_free h.group rfl hf

end MmaPasses

/-! ## What the order of an access leaves alone -/

theorem releaseAt_sameButStore (s : State) (core : Nat) (sc : Scope) : s.SameButStore (releaseAt s core sc) := by
  have hb : s.SameButStore (if Scope.wide sc then writeBack s core else s) := by
    split
    · exact writeBack_sameButStore s core
    · rfl
  unfold releaseAt
  dsimp only
  split
  · exact hb.then_setFab _
  · exact hb

theorem release_sameButStore {s t : State} {c : Ctx} {fence : Bool} {sc : Scope} (h : release c fence sc s = .ok t) :
    s.SameButStore t := by
  unfold release at h
  dsimp only at h
  split at h
  · cases h
  · split at h
    · cases h
    · cases h
      exact releaseAt_sameButStore s c.t.place sc

theorem orderWaits_sameButStore {s t : State} {c : Ctx} {f : Form} {locs : List Located} {write : Bool}
    (h : orderWaits c f locs write s = .ok t) : s.SameButStore t := by
  have key : ∀ u, (awaitMoves c locs write u >>= fun _ => .ok u) = (.ok t : Res State) → u = t := by
    intro u hu
    cases hm : awaitMoves c locs write u with
    | ok a => rw [hm] at hu; exact Except.ok.inj hu
    | error e => rw [hm] at hu; cases hu
  cases ha : afterAcquire c s with
  | error e => rw [orderWaits, ha] at h; cases h
  | ok a =>
    simp only [orderWaits, ha, Res.ok_bind] at h
    split at h
    · cases hr : release c false f.scope s with
      | error e => rw [hr] at h; cases h
      | ok u =>
        rw [hr] at h
        exact key u h ▸ release_sameButStore hr
    · exact key s h ▸ .rfl' s

/-! ## MST -/

/-- The record that an MST names in its team's file. -/
abbrev mstRecord (c : Ctx) (f : MForm) : BitVec 320 := c.t.fileRec f.recIx.toNat

/-- The fields of that record. -/
abbrev mstRec (c : Ctx) (f : MForm) : Rec := Rec.ofBits f.recIx.toNat (mstRecord c f)

/-- An MST that has not issued, by the tile that it names. -/
def mstNamed (c : Ctx) (f : MForm) (mask : Nat) : Op := { c.op (.mst f) with vals := naming mask 0 0 }

/-- The operation of an MST. -/
def mstOp (c : Ctx) (f : MForm) (addr : Word) (tile mask : Nat) (locs : List Located) : Op :=
  { c.op (.mst f) with
    record := mstRecord c f, locs := globalLocs locs, vals := naming mask 0 0 ++ [(0, addr), (1, BitVec.ofNat 64 tile)],
    reqs := [{ lane := 0, kind := .store, bytes := (locs.map fun b => (b.ptr, b.loc)).dedup }] }

/-- The signature of an MST: its address and the words of its tile (R377). -/
def mstSig (c : Ctx) (f : MForm) (addr : Word) (tile : Nat) : Word :=
  c.sig (.mst f) (addr.toNat :: (List.range 32).flatMap fun i => (List.range 64).map fun n => c.t.tileVal tile (f.size == .b8) i n)

/-- An MST of global lines whose data are compared, logged or checked (R377, R389). -/
def MstAsked (c : Ctx) (locs : List Located) : Prop := (c.t.side ≠ .solo ∨ c.t.sampled = true) ∧ globalLocs locs ≠ []

theorem mstAsked_iff {c : Ctx} {locs : List Located} :
    ((c.t.side != .solo || c.t.sampled) && !(globalLocs locs).isEmpty) = true ↔ MstAsked c locs := by
  simp [MstAsked]

/-- An MST whose conversions may trap converts at issue (R272). -/
def MstJudged (c : Ctx) (f : MForm) : Prop := (mstRec c f).policy = 1

/-- An MST whose operands and early checks pass, after what its order waits for. -/
structure MstPasses (s : State) (c : Ctx) (f : MForm) (tile mask : Nat) (addr : Word) (locs : List Located) (s1 : State) : Prop
    extends EngineIssues s c where
  tile_ok : tileSpec f.data = .ok tile
  addr_ok : sVal c f.addr = .ok addr
  pair : tilePair c.t tile (f.size == .b8) = some mask
  record : recordChecks .store (mstRecord c f) = .ok ()
  type : if f.size = .b8 then (mstRec c f).reg = .f64 else (mstRec c f).reg = .f32 ∨ (mstRec c f).reg = .i32
  pitch : (if f.aux then 32 else 64) ≤ addr.toNat / 2 ^ 32
  blocks : wholeBlocks (mstPlan f (mstRecord c f) addr) = true
  bounds : ∀ e ∈ (mstPlan f (mstRecord c f) addr).elems, 0 ≤ (mstRec c f).elemBit e.n ∧
    (mstRec c f).elemBit e.n + (mstRec c f).stored.bits ≤ 8 * ((mstRec c f).extent : Int)
  access : checkAccess s (c.who s) .store false (mstPlan f (mstRecord c f) addr).pieces = .ok locs
  copies : awaitCopies locs s = .ok ()
  order : orderWaits c (MForm.form f true) locs true s = .ok s1
  apart : noOverlap c locs true s1 = .ok ()

/-- An MST that starts its operation: with its lines held where it writes outside the share (R331), and once for a convoy (R376). -/
def mstStarts (c : Ctx) (f : MForm) (tile mask : Nat) (addr : Word) (locs : List Located) (s : State) : Res State :=
  if (globalLocs locs).isEmpty then issueOp c (mstOp c f addr tile mask locs) s
  else issueHolder c (.mst f) (mstOp c f addr tile mask locs) (mstSig c f addr tile) s

section
variable {c : Ctx} {f : MForm} {tile mask : Nat} {addr : Word} {locs : List Located} {s : State}

theorem mstStarts_share (hg : globalLocs locs = []) :
    mstStarts c f tile mask addr locs s = issueOp c (mstOp c f addr tile mask locs) s :=
  if_pos (List.isEmpty_iff.mpr hg)

theorem mstStarts_global (hg : globalLocs locs ≠ []) :
    mstStarts c f tile mask addr locs s = issueHolder c (.mst f) (mstOp c f addr tile mask locs) (mstSig c f addr tile) s :=
  if_neg (mt List.isEmpty_iff.mp hg)

end

namespace MstPasses
variable {s s1 : State} {c : Ctx} {f : MForm} {tile mask : Nat} {addr : Word} {locs : List Located}
  (h : MstPasses s c f tile mask addr locs s1)
include h

theorem type_checked : ((if (f.size == .b8) = true then (mstRec c f).reg == .f64
    else (mstRec c f).reg == .f32 || (mstRec c f).reg == .i32) &&
      decide ((if f.aux then 32 else 64) ≤ addr.toNat / 2 ^ 32)) = true := by
  have htype := h.type
  rw [decide_eq_true h.pitch, Bool.and_true]
  by_cases hs : f.size = .b8
  · rw [if_pos hs] at htype
    rw [if_pos (beq_iff_eq.mpr hs), htype]
    rfl
  · rw [if_neg hs] at htype
    rw [if_neg (by simpa using hs)]
    simpa using htype

theorem elems_inside : (mstPlan f (mstRecord c f) addr).elems.findSome? (fun e =>
    if (mstRec c f).elemBit e.n < 0 then some e.ptr
    else if 8 * ((mstRec c f).extent : Int) < (mstRec c f).elemBit e.n + (mstRec c f).stored.bits then
      some (ptrAdd (mstRec c f).base (max ((mstRec c f).elemBit e.n) (8 * ((mstRec c f).extent : Int)) / 8))
    else none) = none := by
  refine List.findSome?_eq_none_iff.mpr fun e he => ?_
  obtain ⟨hlow, hhigh⟩ := h.bounds e he
  rw [if_neg (not_lt.mpr hlow), if_neg (not_lt.mpr hhigh)]

/-- What is compared, logged, checked or judged waits for what names the tile before it. -/
theorem body_waits (hn : earlierNaming s1 c.g.team s1.nextId (mstNamed c f mask) = true) (ha : MstAsked c locs ∨ MstJudged c f) :
    mstBody f c s = .error (.wait s1) := by
  rw [mstNamed] at hn
  simp only [mstBody, h.ready, h.tile_ok, h.addr_ok, h.pair, h.record, h.type_checked, h.blocks, h.elems_inside, h.access, h.copies,
    h.order, h.apart, hn, guardOp_true, Res.ok_bind, Res.error_bind, Bool.and_true, if_true]
  obtain ha | hj := ha
  · exact if_pos (mstAsked_iff.mpr ha)
  · rw [MstJudged] at hj
    simp only [hj, beq_self_eq_true, if_true, ite_self]

/-- An MST that has nothing more to wait for starts its operation. -/
theorem body_starts (ha : MstAsked c locs → earlierNaming s1 c.g.team s1.nextId (mstNamed c f mask) = false)
    (hj : MstJudged c f → earlierNaming s1 c.g.team s1.nextId (mstNamed c f mask) = false ∧ ∃ st, storeData (c.who s)
      (mstPlan f (mstRecord c f) addr) (fun l => c.t.tileVal tile (f.size == .b8) (l / 64) (l % 64)) = .ok st) :
    mstBody f c s = mstStarts c f tile mask addr locs s1 := by
  have hasked : (((c.t.side != .solo || c.t.sampled) && !(globalLocs locs).isEmpty) &&
      earlierNaming s1 c.g.team s1.nextId (mstNamed c f mask)) = false := by
    by_cases h1 : MstAsked c locs
    · rw [ha h1, Bool.and_false]
    · rw [Bool.eq_false_iff.mpr fun h2 => h1 (mstAsked_iff.mp h2), Bool.false_and]
  rw [globalLocs, mstNamed] at hasked
  simp only [mstBody, h.ready, h.tile_ok, h.addr_ok, h.pair, h.record, h.type_checked, h.blocks, h.elems_inside, h.access, h.copies,
    h.order, h.apart, hasked, guardOp_true, Res.ok_bind, Bool.false_eq_true, if_false]
  by_cases h1 : MstJudged c f
  · obtain ⟨hn, st, hst⟩ := hj h1
    rw [mstNamed] at hn
    rw [MstJudged] at h1
    simp only [h1, hn, hst, beq_self_eq_true, if_true, Bool.false_eq_true, if_false]
    rfl
  · rw [MstJudged] at h1
    simp only [beq_eq_false_iff_ne.mpr h1, Bool.false_eq_true, if_false]
    rfl

theorem group_after : s1.group? c.gid = some c.g := by
  rw [State.group?, (orderWaits_sameButStore h.order).groups]
  exact h.group

end MstPasses

/-- Settles O44, instruction by instruction, from what each does once its operands and early checks pass. -/
theorem matrixIssues : Obligations.MatrixIssues := by
  refine ⟨fun s c a b d ty rnd sat fb n m row col hi => ⟨fun hs => ?_, fun hs ha => ?_⟩, fun s c hi hs ha => ⟨?_, ?_, ?_⟩⟩
  · simp only [List.forall_mem_cons]
    exact ⟨exec_engine_handler hi hs rfl, exec_engine_handler hi hs rfl, exec_engine_handler hi hs rfl,
      exec_engine_handler hi hs rfl, List.forall_mem_nil _⟩
  · have h : EngineIssues s c := ⟨hi, hs, ha⟩
    refine ⟨fun hm hf => ⟨fun hm0 => h.exec_mzero_none (hm0 ▸ hm) hf, fun hm0 => h.exec_mzero_some hm hm0 hf⟩, fun hd hn hp hm =>
      ⟨fun hf => h.exec_mrd hd hn hp hm hf, fun hf => h.exec_mwr hd hn hp hm hf⟩, fun hm => ?_⟩
    exact ⟨h.exec_mwait_waits hm, h.exec_mwait_passes hm⟩
  · intro k b fmt fb ctl v u t i src scale x mark o sig heven hctl hchecks hf starts
    have h : MldbPasses s c k b fmt fb ctl := ⟨⟨hi, hs, ha⟩, heven, hctl, hchecks, hf⟩
    refine ⟨fun h1 h2 => h.exec_share h1 h2, fun h1 => ⟨fun hside hn => h.exec_outside_solo h1 hside hn, fun htake => ?_⟩⟩
    refine ⟨?_, ?_, ?_⟩
    · exact fun hv hj => h.exec_outside_done h1 htake (mldbJoins_fresh hv hj)
    · exact fun hv he => h.exec_outside_waits h1 htake (mldbJoins_waits hv he)
    · exact fun hv he hj => h.exec_outside_done h1 htake (mldbJoins_logged hv he hj)
  · intro f d mask hwhole hlive hres hset
    have arrives (hv : Slot.valid (c.t.slotTag f.slot.toNat) = true) : MmaArrives s c f :=
      ⟨⟨hi, hs, ha⟩, hwhole, hlive, hres, hset, hv⟩
    exact ⟨fun hq hv => (arrives hv).exec_waits hq, fun hq hb hm hv hslots hcomb hblocks hdesc hbytes hapart hf =>
      MmaPasses.exec_issues ⟨arrives hv, hq, hb, hm, hslots, hcomb, hblocks, hdesc, hbytes, hapart⟩ hf⟩
  · intro f tile mask addr locs s1 record r p o htile haddr hpair hrec htype hpitch hblocks hbounds hacc hcopies horder hapart
    have h : MstPasses s c f tile mask addr locs s1 :=
      ⟨⟨hi, hs, ha⟩, htile, haddr, hpair, hrec, htype, hpitch, hblocks, hbounds, hacc, hcopies, horder, hapart⟩
    have he : exec (.mst f) = runInstr (mstBody f) := rfl
    refine ⟨fun hw hn => exec_next_wait hi he (h.body_waits hn hw), fun hasked hjudged => ?_⟩
    have hbody := h.body_starts hasked hjudged
    refine ⟨fun hg t ht => exec_next_done hi he (hbody.trans ?_), fun hg t ht => exec_next_done hi he (hbody.trans ?_),
      fun hg hside hn hf => ⟨fun hl => exec_next_wait hi he (hbody.trans ?_), fun v t hl ht => exec_next_done hi he (hbody.trans ?_)⟩⟩
    · exact (mstStarts_share hg).trans ht
    · exact (mstStarts_global hg).trans ht
    · exact (mstStarts_global hg).trans (issueHolder_solo_waits hside hl)
    · exact (mstStarts_global hg).trans ((issueHolder_solo hside h.group_after hn hf rfl hl).trans ht)

end Sys2Proof.Machine
end

