-- ==== Sys2Proof/Proofs/Barriers.lean ====
section
/-! Barrier objects, BARA, BARW, TBAR, WAYPT and DEPSIG (R98, R342 to R346, R376, R378). -/
namespace Sys2Proof.Machine
open Sys2Proof.Claims

/-! ## Arrivals at an object (R342, R344) -/

/-- The fields of an object, from the top: waiters, reserved bits, phase, expected count, count. -/
theorem object_fields (w : BitVec 32) (r : BitVec 31) (p : BitVec 1) (e n : BitVec 32) :
    let v := w ++ r ++ p ++ e ++ n
    v.extractLsb' 0 32 = n ∧ v.extractLsb' 32 32 = e ∧ v.extractLsb' 64 1 = p ∧ v.extractLsb' 65 31 = r ∧ v.extractLsb' 96 32 = w := by
  refine ⟨?_, ?_, ?_, ?_, ?_⟩
  all_goals
    ext i hi
    simp only [BitVec.getElem_extractLsb', BitVec.getLsbD_append]
    grind

section
variable {v : BitVec 128} {n e x : Nat} (he : e = (v.extractLsb' 32 32).toNat) (hx : x = (v.extractLsb' 0 32).toNat)
include he hx

theorem arriveObject_below (h : x + n < e) : arriveObject v n = (v.extractLsb' 96 32 : BitVec 32) ++ (v.extractLsb' 65 31 : BitVec 31) ++
    (v.extractLsb' 64 1 : BitVec 1) ++ (v.extractLsb' 32 32 : BitVec 32) ++ BitVec.ofNat 32 (x + n) := by
  simp only [arriveObject, ← he, ← hx, Nat.div_eq_of_lt h, Nat.mod_eq_of_lt h, if_true, BitVec.xor_zero]

theorem arriveObject_reached (h0 : 0 < e) (h : x + n = e) : arriveObject v n = (0 : BitVec 32) ++ (v.extractLsb' 65 31 : BitVec 31) ++
    ~~~(v.extractLsb' 64 1 : BitVec 1) ++ (v.extractLsb' 32 32 : BitVec 32) ++ (0 : BitVec 32) := by
  have hflip : (v.extractLsb' 64 1 ^^^ BitVec.ofNat 1 1 : BitVec 1) = ~~~(v.extractLsb' 64 1) := BitVec.xor_allOnes
  simp only [arriveObject, ← he, ← hx, h, Nat.div_self h0, Nat.mod_self, Nat.one_ne_zero, if_false, hflip]
  rfl

end

/-- Whatever the number of arrivals, the expected count and the reserved bits stay. -/
theorem arriveObject_keeps (v : BitVec 128) (n : Nat) : (arriveObject v n).extractLsb' 32 32 = v.extractLsb' 32 32 ∧
    (arriveObject v n).extractLsb' 65 31 = v.extractLsb' 65 31 := by
  obtain ⟨-, he, -, hr, -⟩ := object_fields (if ((v.extractLsb' 0 32).toNat + n) / (v.extractLsb' 32 32).toNat = 0 then v.extractLsb' 96 32 else 0)
    (v.extractLsb' 65 31) (v.extractLsb' 64 1 ^^^ BitVec.ofNat 1 (((v.extractLsb' 0 32).toNat + n) / (v.extractLsb' 32 32).toNat))
    (v.extractLsb' 32 32) (BitVec.ofNat 32 (((v.extractLsb' 0 32).toNat + n) % (v.extractLsb' 32 32).toNat))
  exact ⟨he, hr⟩

namespace EngineIssues
variable {s s1 s2 : State} {c : Ctx} (h : EngineIssues s c)
include h

/-! ## BARA and BARW (R344, R345) -/

section
variable {d a : Fin 64} {sc : BScope} {fb : Bool} {off : Nat} (ho : objectAt c (c.g.readS a.val) s = .ok off)
  (hb : objectBad (c.t.object off) = false)
include ho hb

theorem exec_bara {count : Spec} {n : Nat} (hn : arrivalCount c count = .ok n) (h0 : n ≠ 0)
    (h1 : completeAtOnce c (.bara (.s d) (.s a) count sc fb) s = .ok s1) (h2 : release c false (BScope.scope sc) s1 = .ok s2) :
    exec (.bara (.s d) (.s a) count sc fb) s = .next (c.done
      ((s2.modTeam c.g.team fun t => t.setObject off (arriveObject (c.t.object off) n)).modGroup c.gid fun g =>
        g.writeS d.val (((c.t.object off).extractLsb' 64 1).zeroExtend 64))) := by
  refine exec_next_done h.issues (he := rfl) ?_
  simp only [h.ready, isSReg, guardOp_true, sVal, addrS, hn, ho, h0, h1, h2, hb, Res.ok_bind, if_false, Bool.false_eq_true]

variable {phase : Spec} {ph : Bool} (hp : phaseBit c phase = .ok ph) (h1 : completeAtOnce c (.barw (.s a) phase sc fb) s = .ok s1)
include hp h1

theorem exec_barw_passes (hne : (c.t.object off).getLsbD 64 ≠ ph) :
    exec (.barw (.s a) phase sc fb) s = .next (c.done (acquireAt s1 c.gid c.t.place (BScope.scope sc))) := by
  refine exec_next_done h.issues (he := rfl) ?_
  simp only [h.ready, sVal, addrS, hp, ho, hb, h1, Res.ok_bind, if_false, Bool.false_eq_true, beq_iff_eq, hne]

theorem exec_barw_waits (heq : (c.t.object off).getLsbD 64 = ph) :
    exec (.barw (.s a) phase sc fb) s = .next (c.waitHere
      (s1.modTeam c.g.team fun t => t.setObject off (c.t.object off ||| BitVec.ofNat 128 (2 ^ (96 + c.g.slot))))) := by
  refine exec_next_wait h.issues (he := rfl) ?_
  simp only [h.ready, sVal, addrS, hp, ho, hb, h1, Res.ok_bind, if_false, Bool.false_eq_true, beq_iff_eq, heq, if_true]

end

/-! ## TBAR (R346) -/

/-- A group's arrival at TBAR. -/
def tbarArrived (c : Ctx) (s : State) : State := s.modGroup c.gid fun g => { g with tbars := g.tbars + 1, arrived := true }

/-- TBAR after its n-th arrival: it goes on where every group of the team has arrived as often or has ended. -/
def tbarAwait (c : Ctx) (n : Nat) (s : State) : Res State :=
  if (s.teamGroups c.g.team).all fun e => e.2.phase == .ended || decide (n ≤ e.2.tbars) then
    .ok ((acquireAt s c.gid c.t.place .team).modGroup c.gid fun g => { g with arrived := false })
  else .error (.wait s)

omit h in
theorem tbarAwait_passes {t : State} {n : Nat} (ha : ∀ e ∈ t.teamGroups c.g.team, e.2.phase = .ended ∨ n ≤ e.2.tbars) :
    tbarAwait c n t = .ok ((acquireAt t c.gid c.t.place .team).modGroup c.gid fun g => { g with arrived := false }) :=
  if_pos (List.all_eq_true.mpr fun e he => by simpa using ha e he)

omit h in
theorem tbarAwait_waits {t : State} {n : Nat} (ha : ∃ e ∈ t.teamGroups c.g.team, e.2.phase ≠ .ended ∧ e.2.tbars < n) :
    tbarAwait c n t = .error (.wait t) := by
  obtain ⟨e, he, hp, hn⟩ := ha
  refine if_neg fun hall => ?_
  obtain hp' | hn' : e.2.phase = .ended ∨ n ≤ e.2.tbars := by simpa using List.all_eq_true.mp hall e he
  · exact hp hp'
  · omega

section
variable {fb : Bool} (h1 : completeAtOnce c (.tbar fb) s = .ok s1)
include h1

theorem body_tbar_arrives (ha : c.g.arrived = false) (h2 : release c false .team s1 = .ok s2) :
    ∃ body, exec (.tbar fb) = runInstr body ∧ body c s = tbarAwait c (c.g.tbars + 1) (tbarArrived c s2) := by
  refine ⟨_, rfl, ?_⟩
  simp only [h.ready, h1, h2, ha, Res.ok_bind, Bool.false_eq_true, if_false]
  rfl

theorem body_tbar_again (ha : c.g.arrived = true) :
    ∃ body, exec (.tbar fb) = runInstr body ∧ body c s = tbarAwait c c.g.tbars s1 := by
  refine ⟨_, rfl, ?_⟩
  simp only [h.ready, h1, ha, Res.ok_bind, if_true]
  rfl

end

/-! ## DEPSIG (R98) -/

/-- The team's bit of the bitmap is set, but in a protected launch or where it has been. -/
def signalled (c : Ctx) (s : State) : State := if c.l.prot || c.t.depsigned then s else setBitmapBit c.l c.t.index s

/-- DEPSIG once its signal has been given, or taken from the other side. -/
theorem exec_depsig {fb : Bool} {v : List (Nat × Word)} {s3 : State} (h1 : completeAtOnce c (.depsig fb) s = .ok s1)
    (h2 : release c false .device s1 = .ok s2)
    (h3 : performOnce c (c.sig (.depsig fb) []) (fun u => .ok ([], signalled c u)) s2 = .ok (v, s3)) :
    exec (.depsig fb) s = .next (c.done (s3.modTeam c.g.team fun t => { t with depsigned := true })) := by
  refine exec_next_done h.issues (he := rfl) ?_
  unfold signalled at h3
  simp only [h.ready, h1, h2, h3, Res.ok_bind]

/-! ## WAYPT (R378) -/

theorem exec_waypt_alone {fb : Bool} (hv : c.convoy? s = none) (hf : CounterFree c (.waypt fb)) :
    exec (.waypt fb) s = .next (c.done (countedOnce c (.waypt fb) s)) := by
  have hv' : c.convoy? (countedOnce c (.waypt fb) s) = none := by
    rw [← hv]
    unfold countedOnce counted
    split <;> rfl
  refine exec_next_done h.issues (he := rfl) ?_
  simp only [h.ready, completeAtOnce_free h.group hf (by simp [DestFree, destKeys, State.destBusy]), hv', Res.ok_bind]

/-- The number of the group's WAYPT: that of its arrival, where an earlier issue has made it. -/
def wayptNumber (c : Ctx) : Nat := if c.g.arrived then c.g.waypts else c.g.waypts + 1

/-- A group's arrival at its WAYPT, made once. -/
def wayptArrived (c : Ctx) (s : State) : State :=
  if c.g.arrived then s else s.modGroup c.gid fun g => { g with waypts := wayptNumber c, arrived := true }

/-- A group leaves its WAYPT. -/
def wayptPassed (c : Ctx) (s : State) : State := s.modGroup c.gid fun g => { g with arrived := false }

/-- WAYPT of a convoy's group after its arrival: it passes a waypoint that has been taken, and takes the one that both sides have
come to with nothing in flight. -/
def wayptAwait (c : Ctx) (v : Convoy) (s : State) : Res State :=
  let n := wayptNumber c
  if n ≤ v.wayNo then .ok (wayptPassed c s)
  else
    let both := s.teamGroups v.lead ++ s.teamGroups v.escort
    if (both.all fun e => e.2.phase == .ended || decide (n ≤ e.2.waypts)) && both.all fun e => (s.pendingOps e.1).isEmpty then
      match takeWaypoint s v n with
      | some s => .ok (wayptPassed c s)
      | none => trap Cause.convoyMismatch
    else .error (.wait s)

section
variable {fb : Bool} {v : Convoy} (h1 : completeAtOnce c (.waypt fb) s = .ok s1) (hv : c.convoy? s1 = some v)
include h1 hv

theorem body_waypt : ∃ body, exec (.waypt fb) = runInstr body ∧ body c s = wayptAwait c v (wayptArrived c s1) := by
  refine ⟨_, rfl, ?_⟩
  have hv' : c.convoy? (wayptArrived c s1) = some v := by
    rw [← hv]
    unfold wayptArrived
    split <;> rfl
  unfold wayptArrived wayptNumber at hv'
  simp only [h.ready, h1, hv, hv', Res.ok_bind]
  rfl

end

section
omit h
variable {v : Convoy} {u : State}

/-- A group is at its n-th waypoint, or has ended, and has nothing in flight. -/
def AtWaypoint (u : State) (n : Nat) (e : Nat × Group) : Prop := (e.2.phase = .ended ∨ n ≤ e.2.waypts) ∧ u.pendingOps e.1 = []

theorem wayptAwait_passes (hn : wayptNumber c ≤ v.wayNo) : wayptAwait c v u = .ok (wayptPassed c u) := if_pos hn

variable (hn : v.wayNo < wayptNumber c)
include hn

/-- With both sides there, what WAYPT does is up to the taking of the waypoint. -/
theorem wayptAwait_eq_takeWaypoint (hb : ∀ e ∈ u.teamGroups v.lead ++ u.teamGroups v.escort, AtWaypoint u (wayptNumber c) e) :
    wayptAwait c v u = match takeWaypoint u v (wayptNumber c) with
      | some t => .ok (wayptPassed c t)
      | none => .error (.trap { cause := 0x11 }) := by
  have hall : ((u.teamGroups v.lead ++ u.teamGroups v.escort).all fun e => e.2.phase == .ended || decide (wayptNumber c ≤ e.2.waypts)) = true :=
    List.all_eq_true.mpr fun e he => by simpa using (hb e he).1
  have hdone : ((u.teamGroups v.lead ++ u.teamGroups v.escort).all fun e => (u.pendingOps e.1).isEmpty) = true :=
    List.all_eq_true.mpr fun e he => List.isEmpty_iff.mpr (hb e he).2
  unfold wayptAwait
  simp only [if_neg (Nat.not_le.mpr hn), hall, hdone, Bool.and_self, if_true]
  cases takeWaypoint u v (wayptNumber c) <;> rfl

theorem wayptAwait_takes {t : State} (hb : ∀ e ∈ u.teamGroups v.lead ++ u.teamGroups v.escort, AtWaypoint u (wayptNumber c) e)
    (ht : takeWaypoint u v (wayptNumber c) = some t) : wayptAwait c v u = .ok (wayptPassed c t) := by
  rw [wayptAwait_eq_takeWaypoint hn hb, ht]

theorem wayptAwait_differs (hb : ∀ e ∈ u.teamGroups v.lead ++ u.teamGroups v.escort, AtWaypoint u (wayptNumber c) e)
    (ht : takeWaypoint u v (wayptNumber c) = none) : wayptAwait c v u = .error (.trap { cause := 0x11 }) := by
  rw [wayptAwait_eq_takeWaypoint hn hb, ht]

theorem wayptAwait_waits (hb : ∃ e ∈ u.teamGroups v.lead ++ u.teamGroups v.escort, ¬ AtWaypoint u (wayptNumber c) e) :
    wayptAwait c v u = .error (.wait u) := by
  obtain ⟨e, he, hne⟩ := hb
  refine (if_neg (Nat.not_le.mpr hn)).trans (if_neg fun hall => hne ?_)
  obtain ⟨hthere, hdone⟩ := Bool.and_eq_true_iff.mp hall
  exact ⟨by simpa using List.all_eq_true.mp hthere e he, List.isEmpty_iff.mp (List.all_eq_true.mp hdone e he)⟩

end

end EngineIssues

/-- Settles O42: the fields of the object that an arrival leaves, and each instruction's body up to the point at which it goes on,
waits or traps. -/
theorem barriers : Obligations.Barriers := by
  refine ⟨fun v n e x he hx _ hlt => ?_, fun s s1 s2 c d a count phase sc fb off n ph hi hsup hacq => ?_⟩
  · refine ⟨(arriveObject_keeps v n).1, (arriveObject_keeps v n).2, fun h => ?_, fun h => ?_⟩
    · rw [arriveObject_below he hx h]
      obtain ⟨hn, -, hp, -, hw⟩ := object_fields (v.extractLsb' 96 32) (v.extractLsb' 65 31) (v.extractLsb' 64 1) (v.extractLsb' 32 32)
        (BitVec.ofNat 32 (x + n))
      exact ⟨hn, hp, hw⟩
    · rw [arriveObject_reached he hx (by omega) h]
      obtain ⟨hn, -, hp, -, hw⟩ := object_fields 0 (v.extractLsb' 65 31) (~~~(v.extractLsb' 64 1)) (v.extractLsb' 32 32) 0
      exact ⟨hn, hp, hw⟩
  · have h : EngineIssues s c := ⟨hi, hsup, hacq⟩
    refine ⟨fun hn h0 ho h1 h2 hb => h.exec_bara ho hb hn h0 h1 h2,
      fun hp ho hb h1 => ⟨h.exec_barw_passes ho hb hp h1, h.exec_barw_waits ho hb hp h1⟩,
      fun ha h1 h2 => ?_, fun ha h1 hall => ?_, fun h1 h2 => ⟨fun v s3 h3 => h.exec_depsig h1 h2 h3, fun hs => ?_⟩,
      fun hv hf => h.exec_waypt_alone hv hf, fun v h1 hv => ?_⟩
    · obtain ⟨body, he, hbody⟩ := h.body_tbar_arrives h1 ha h2
      exact ⟨fun hall => exec_next_done hi he (hbody.trans (EngineIssues.tbarAwait_passes hall)),
        fun hex => exec_next_wait hi he (hbody.trans (EngineIssues.tbarAwait_waits hex))⟩
    · obtain ⟨body, he, hbody⟩ := h.body_tbar_again h1 ha
      exact exec_next_done hi he (hbody.trans (EngineIssues.tbarAwait_passes hall))
    · exact h.exec_depsig h1 h2 (performOnce_of_solo hs _ _ _)
    · obtain ⟨body, he, hbody⟩ := h.body_waypt h1 hv
      refine ⟨fun hn => exec_next_done hi he (hbody.trans (EngineIssues.wayptAwait_passes hn)), fun hn hall => ?_, fun hn hex => ?_⟩
      · exact ⟨fun t ht => exec_next_done hi he (hbody.trans (EngineIssues.wayptAwait_takes hn hall ht)),
          fun ht => exec_next_trap hi he (hbody.trans (EngineIssues.wayptAwait_differs hn hall ht))⟩
      · refine exec_next_wait hi he (hbody.trans (EngineIssues.wayptAwait_waits hn ?_))
        obtain ⟨e, hmem, hne⟩ := hex
        exact ⟨e, hmem, fun ⟨hthere, hdone⟩ => by
          obtain ⟨hp, hlt⟩ | hq := hne
          · exact hthere.elim hp (Nat.not_le.mpr hlt)
          · exact hq hdone⟩

end Sys2Proof.Machine
end

