-- ==== Sys2Proof/Proofs/Messages.lean ====
section
/-! Sends to one group, deliveries, receives and credit grants (R335 to R338). -/
namespace Sys2Proof.Machine
open Sys2Proof.Claims

/-! ## Receive queues -/

theorem Port.queue_lt (b : Word) : Port.queue b < 4 := (b.extractLsb' 0 2).isLt

/-- A queue's key names its group and its number. -/
theorem queueKey_parts (dst : Nat) (b : Word) : (dst * 4 + Port.queue b) / 4 = dst ∧ (dst * 4 + Port.queue b) % 4 = Port.queue b := by
  have := Port.queue_lt b
  omega

/-- A port of kind 0 names one place, the bound one. -/
theorem portPlaces_unicast {c : Ctx} {b : Word} (h : Port.kind b = 0) : portPlaces c b = [some (Port.place b)] := by
  simp [portPlaces, h]

/-! ## Sends (R335, R336) -/

theorem sendFlit_unbound {c : Ctx} {n : Nat} (v : Word) (s : State) (h : Port.kind (c.g.port n).bind = 3) :
    sendFlit c n v s = .error (.trap { cause := 0x13 }) := by
  simp [sendFlit, h, Cause.queueMisuse]

/-- The header's ordinal moves on with each flit that a port sends. -/
def ordinalSent (c : Ctx) (n : Nat) (s : State) : State :=
  s.modGroup c.gid fun g => g.setPort n { g.port n with sent := (c.g.port n).sent + 1 }

/-- A port takes one credit of a queue and asks for none. -/
def creditTaken (c : Ctx) (n key : Nat) (s : State) : State :=
  let held := (c.g.port n).credits
  s.modGroup c.gid fun g => g.setPort n { g.port n with credits := SMap.set 0 held key (SMap.get 0 held key - 1), request := false }

theorem sendFlit_unicast {s : State} {c : Ctx} {n dst : Nat} (v : Word) (hk : Port.kind (c.g.port n).bind = 0)
    (hr : Port.release (c.g.port n).bind = false) (hu : usable s.dev (Port.place (c.g.port n).bind) = true)
    (hd : receiver s c (Port.place (c.g.port n).bind) (Port.slot (c.g.port n).bind) = some dst)
    (hc : 0 < SMap.get 0 (c.g.port n).credits (dst * 4 + Port.queue (c.g.port n).bind)) :
    sendFlit c n v s = .ok (creditTaken c n (dst * 4 + Port.queue (c.g.port n).bind) (ordinalSent c n
      (launchFlit s dst (Port.queue (c.g.port n).bind)
        { hdr := flitHeader c (c.g.port n).bind (c.g.port n).sent, payload := v, src := c.gid * 4 + n }))) := by
  obtain ⟨hdst, hqueue⟩ := queueKey_parts dst (c.g.port n).bind
  simp [sendFlit, hk, hr, hu, hd, hc, portPlaces_unicast hk, hdst, hqueue, ordinalSent, creditTaken]

/-! ## Deliveries (R337, R338) -/

/-- A flit behind no earlier one of its sender and queue comes to its group, which takes it unless it has ended. -/
theorem flitDelivery_oldest {s : State} {k dst q : Nat} {f : Flit} {g : Group} (hf : SMap.entry? s.flits k = some (dst, q, f))
    (hg : s.group? dst = some g) (ho : ∀ e ∈ s.flits, e.1 < k → e.2.1 = dst → e.2.2.1 = q → e.2.2.2.src ≠ f.src) :
    flitDelivery k s = some ({ s with flits := SMap.del s.flits k }.setGroup dst
      (if g.phase = Phase.ended then g else { g with rx := g.rx ++ [(q, f)] })) := by
  have hfirst : (s.flits.any fun e => e.1 < k && e.2.1 == dst && e.2.2.1 == q && e.2.2.2.src == f.src) = false := by
    simp only [List.any_eq_false, Bool.and_eq_true, decide_eq_true_eq, beq_iff_eq]
    exact fun e he ⟨⟨⟨hlt, hd⟩, hq⟩, hsrc⟩ => ho e he hlt hd hq hsrc
  have hg' : State.group? { s with flits := SMap.del s.flits k } dst = some g := hg
  simp [flitDelivery, hf, hfirst, hg']

/-! ## Receives (R337) -/

/-- A receive takes a flit, once for both sides of a convoy, and shows its header in RXHDR. -/
theorem popFlit_eq (c : Ctx) (n : Nat) (s : State) : popFlit c n s =
    (takeOutside c (c.portSig [0x100 + n]) (flitTaken c n) s >>= fun r =>
      .ok (((r.1.find? fun e => e.1 = 0).map (·.2)).getD 0, r.2.modGroup c.gid fun g =>
        { g with rxhdr := ((r.1.find? fun e => e.1 = 1).map (·.2)).getD 0 })) := by
  have htaken : flitTaken c n = fun s => match s.group? c.gid with
      | none => .error (.wait s)
      | some g => match g.rx.find? fun e => e.1 = n with
        | none => .error (.wait s)
        | some e => match e.2.tag with
          | some tag => .error (.trap { cause := Cause.poisonConsumed, info := BitVec.ofNat 23 (4096 + tag.toNat) })
          | none => .ok ([(0, e.2.payload), (1, e.2.hdr)], if e.2.hdr.getLsbD 16
              then acquireAt (s.setGroup c.gid { g with rx := g.rx.erase e }) c.gid c.t.place .device
              else s.setGroup c.gid { g with rx := g.rx.erase e }) := by
    funext s
    unfold flitTaken
    cases s.group? c.gid with
    | none => rfl
    | some g =>
      simp only [Option.bind_some]
      cases g.rx.find? fun e => e.1 = n with
      | none => rfl
      | some e => rfl
  rw [htaken]
  rfl

/-- The oldest flit of a queue, neither poisoned nor with the release bit. -/
theorem flitTaken_plain {s : State} {c : Ctx} {n : Nat} {g : Group} {e : Nat × Flit} (hg : s.group? c.gid = some g)
    (he : g.rx.find? (fun e => e.1 = n) = some e) (htag : e.2.tag = none) (hrel : e.2.hdr.getLsbD 16 = false) :
    flitTaken c n s = .ok ([(0, e.2.payload), (1, e.2.hdr)], s.setGroup c.gid { g with rx := g.rx.erase e }) := by
  simp only [flitTaken, hg, he, htag, hrel, Option.bind_some, Option.map_some, Bool.false_eq_true, if_false]

/-! ## Credits (R336) -/

/-- A batch is one credit at least, and no more than the port may hold or the queue has slots for. -/
theorem batch_bounds {s : State} {held free : Nat} (hh : held < 4) (hf : 0 < free) :
    0 < batch s held free ∧ held + batch s held free ≤ 4 ∧ batch s held free ≤ free := by
  have hlt : Config.freeChoice s.free % min (4 - held) free < min (4 - held) free := Nat.mod_lt _ (by omega)
  unfold batch
  omega

/-- A port of kind 0 asks one queue. -/
theorem portKeys_unicast {s : State} {c : Ctx} {gid dst : Nat} {p : TxPort} (hc : s.ctx? gid = some c) (hk : Port.kind p.bind = 0)
    (hd : receiver s c (Port.place p.bind) (Port.slot p.bind) = some dst) : portKeys s gid p = [dst * 4 + Port.queue p.bind] := by
  simp [portKeys, hc, portPlaces_unicast hk, hd]

theorem creditGrant_unicast {s : State} {c : Ctx} {gid dst : Nat} {n : Fin 4} (hc : s.ctx? gid = some c)
    (hreq : (c.g.port n.val).request = true) (hk : Port.kind (c.g.port n.val).bind = 0)
    (hd : receiver s c (Port.place (c.g.port n.val).bind) (Port.slot (c.g.port n.val).bind) = some dst) :
    let p := c.g.port n.val
    let key := dst * 4 + Port.queue p.bind
    let held := SMap.get 0 p.credits key
    let free := freeSlots s dst (Port.queue p.bind)
    let credits := SMap.set 0 p.credits key (held + batch s held free)
    held < 4 → 0 < free → oldestAsk s key p.asked (gid * 4 + n.val) = true → credits ≠ p.credits →
      creditGrant gid n s =
        some ({ s with free := s.free + 1 }.modGroup gid fun g => g.setPort n.val { p with credits, request := false }) := by
  intro p key held free credits hh hf ho hne
  obtain ⟨hdst, hqueue⟩ := queueKey_parts dst p.bind
  obtain ⟨hgid, -⟩ := State.ctx?_spec hc
  have hkeys : portKeys s c.gid p = [key] := portKeys_unicast (hgid ▸ hc) hk hd
  simp [creditGrant, hc, hreq, hkeys, p, key, hdst, hqueue, hh, hf, ho, hne, held, free, credits]

/-- Settles O48: a send's flit and credit, a delivery, a receive and a grant, each from the operation's own lemma. -/
theorem messagesMove : Obligations.MessagesMove := by
  refine ⟨fun s c n dst v => ⟨sendFlit_unbound v s, fun hk hr hu hd hc => sendFlit_unicast v hk hr hu hd hc⟩,
    fun s k dst q f g hf hg ho => ⟨fun hp => ?_, fun hp => ?_⟩, fun s c n => ⟨fun v t h => ?_, fun g e hs hg he htag hrel => ?_⟩,
    fun s c gid dst n hc hreq hk hd hh hf ho => ?_⟩
  · exact event_some ((flitDelivery_oldest hf hg ho).trans (by rw [if_neg hp]))
  · exact event_some ((flitDelivery_oldest hf hg ho).trans (by rw [if_pos hp]))
  · rw [popFlit_eq, h, Res.ok_bind]
  · rw [popFlit_eq, takeOutside_of_solo hs, flitTaken_plain hg he htag hrel]
    rfl
  · obtain ⟨hpos, hmost, hfree⟩ := batch_bounds (s := s) hh hf
    exact ⟨_, hpos, hmost, hfree, fun hne => event_some (creditGrant_unicast hc hreq hk hd hh hf ho hne)⟩

end Sys2Proof.Machine
end

