-- ==== Sys2Proof/Proofs/Collectives.lean ====
section
/-! COLL at issue, COLL_COMPLETE and COLL_FAULT (R347 to R349, R376). -/
namespace Sys2Proof.Machine
open Sys2Proof.Claims

/-! ## The command record in a log entry -/

/-- The 64-bit words of a number, from the k-th on, make up its part above their place. -/
theorem foldr_words (x n k : Nat) :
    (List.range' k n).foldr (fun j m => x / 2 ^ (64 * j) % 2 ^ 64 + 2 ^ 64 * m) 0 = x / 2 ^ (64 * k) % 2 ^ (64 * n) := by
  induction n generalizing k with
  | zero => simp [Nat.mod_one]
  | succ n ih =>
    rw [List.range'_succ, List.foldr_cons, ih, Nat.mul_succ 64 n, Nat.add_comm (64 * n), Nat.pow_add, Nat.mod_mul, Nat.div_div_eq_div_mul,
      ← Nat.pow_add, Nat.mul_succ 64 k]

/-- What COLL puts into its values: the operation's identity, and its record in eight words. -/
def recordVals (k : Nat) (r : BitVec 512) : List (Nat × Word) :=
  namedOp k :: (List.range 8).map fun j => (j + 1, r.extractLsb' (64 * j) 64)

/-- The record that a list of such values holds. -/
def recordIn (v : List (Nat × Word)) : BitVec 512 := BitVec.ofNat 512 (((v.drop 1).take 8).foldr (fun e n => e.2.toNat + 2 ^ 64 * n) 0)

theorem recordIn_recordVals (k : Nat) (r : BitVec 512) : recordIn (recordVals k r) = r := by
  have hlen : ((List.range 8).map fun j => (j + 1, (r.extractLsb' (64 * j) 64 : Word))).length = 8 := by simp
  rw [recordIn, recordVals, List.drop_one, List.tail_cons, List.take_of_length_le (Nat.le_of_eq hlen), List.foldr_map]
  simp only [BitVec.extractLsb'_toNat, Nat.shiftRight_eq_div_pow]
  rw [List.range_eq_range', foldr_words, Nat.mul_zero, Nat.pow_zero, Nat.div_one, show 64 * 8 = 512 from rfl, Nat.mod_eq_of_lt r.isLt,
    BitVec.ofNat_toNat, BitVec.setWidth_eq]

/-! ## COLL at issue (R347, R349) -/

section
variable {s s1 : State} {c : Ctx} {i : Instr} {p : Word} {bs : List Byte} {w : Who} {r : BitVec 512} {x : Command}

/-- The record of a COLL whose early checks pass and whose lines can be held. -/
theorem collAsked_passes (hread : readStructIf false c i .i p 64 s = .ok (bs, s1)) (hr : r = BitVec.ofNat 512 (leNat bs))
    (hx : x = Command.ofBits (r.setWidth 320)) (hok : commandOk r c.l.teams = true) (hsrc : (apertureOf (ptrAddr x.src)).kind ≠ 1)
    (hdst : (apertureOf (ptrAddr x.dst)).kind ≠ 1) (hprot : x.devices = 1 ∨ c.l.prot = false) (hsa : x.src.toNat % x.size = 0)
    (hda : x.dst.toNat % x.size = 0)
    (hrange : rangeCheck w [(.load, x.src, x.srcCount c.l.teams * x.size), (.store, x.dst, x.dstCount c.l.teams * x.size)] = .ok ())
    (hhold : holdLines s1 (collHeld s1 w c.l.teams x c.t.index) ≠ none) : collAsked c i p w s = .ok (recordVals s1.nextId r, s1) := by
  have hgrant : ¬ (1 < x.devices ∧ c.l.prot = true) := by
    rintro ⟨hd, hp⟩
    rcases hprot with h | h
    · omega
    · simp [h] at hp
  have hroom : (holdLines s1 (collHeld s1 w c.l.teams x c.t.index)).isNone = false :=
    Option.isNone_eq_false_iff.mpr (Option.isSome_iff_ne_none.mpr hhold)
  simp only [collAsked, hread, Res.ok_bind, ← hr, ← hx, hok, bne_iff_ne.mpr hsrc, bne_iff_ne.mpr hdst, Bool.and_self, guardOp_true, if_neg hgrant,
    hsa, hda, ne_eq, not_true_eq_false, if_false, hrange, hroom, Bool.false_eq_true, recordVals]

end

section
variable {s : State} {c : Ctx} {i : Instr}

/-- The side that names an operation anew issues it, whatever else its values hold. -/
theorem joinEngine_names {o : Op} {k : Nat} (rest : List (Nat × Word)) (hs : c.t.side ≠ .escort) (hk : k = s.nextId) (hn : k < 2 ^ 64) :
    joinEngine c i o (namedOp k :: rest) s = issueOp c o s := by
  have hv : (BitVec.ofNat 64 k).toNat = s.nextId := by rw [BitVec.toNat_ofNat, Nat.mod_eq_of_lt hn, hk]
  simp [joinEngine, namedOp, -BitVec.toNat_ofNat, hv, hs]

end

theorem holdLines_getD_nextId (s : State) (locs : List Nat) : ((holdLines s locs).getD s).nextId = s.nextId := by
  cases h : holdLines s locs with
  | none => rfl
  | some u => exact (holdLines_sameButStore s locs u h).nextId

section
variable {c : Ctx} {i : Instr}

/-- COLL with its values taken: its lines are held, and its operation is the group's next collective. -/
def collJoin (c : Ctx) (w : Who) (i : Instr) (v : List (Nat × Word)) (s : State) : Res State :=
  let held := collHeld s w c.l.teams (Command.ofBits ((recordIn v).setWidth 320)) c.t.index
  joinEngine c i { c.op i with record := (recordIn v).setWidth 320, prog := c.g.colls + 1, locs := held } v
    (if c.t.side == .escort then s else (holdLines s held).getD s)

theorem collJoin_eq (w : Who) (v : List (Nat × Word)) (s : State) : collJoin c w i v s =
    let held := collHeld s w c.l.teams (Command.ofBits ((recordIn v).setWidth 320)) c.t.index
    joinEngine c i { c.op i with record := (recordIn v).setWidth 320, prog := c.g.colls + 1, locs := held } v
      (if c.t.side = .escort then s else (holdLines s held).getD s) := by
  simp only [collJoin, beq_iff_eq]

/-- A team on its own issues the operation that its own reading has named. -/
theorem collJoin_solo {w : Who} {k : Nat} {r : BitVec 512} {s : State} (hs : c.t.side = .solo) (hk : k = s.nextId) (hn : k < 2 ^ 64) :
    collJoin c w i (recordVals k r) s =
      let held := collHeld s w c.l.teams (Command.ofBits (r.setWidth 320)) c.t.index
      issueOp c { c.op i with record := r.setWidth 320, prog := c.g.colls + 1, locs := held } ((holdLines s held).getD s) := by
  unfold collJoin
  simp only [recordIn_recordVals, hs]
  exact joinEngine_names _ (by rw [hs]; decide) (hk.trans (holdLines_getD_nextId s _).symm) hn

end

/-! ## The instruction -/

/-- COLL up to its operation. -/
def collBody (a : Spec) (fb : Bool) (c : Ctx) (s : State) : Res State := do
  engineReady c s
  guardOp (isSReg a && c.g.slot == 0)
  let p ← sVal c a
  let w := c.who s
  if p.toNat % 64 ≠ 0 then trap Cause.alignment (reportAddr w.stackBase c.g.stackSlot p.toNat)
  let _ ← countFlag (c.flag (.coll a fb)) c.gid s
  let (v, s) ← performOnce c (c.sig (.coll a fb) [p.toNat]) (collAsked c (.coll a fb) p w) s
  let s ← collJoin c w (.coll a fb) v s
  .ok (s.modGroup c.gid fun g => { g with colls := g.colls + 1 })

theorem execColl_eq (a : Spec) (fb : Bool) : exec (.coll a fb) = runInstr (collBody a fb) := rfl

namespace EngineIssues
variable {s s1 s2 t : State} {c : Ctx} (h : EngineIssues s c) {a : Fin 64} {fb : Bool}
include h

theorem exec_coll_slot (hslot : c.g.slot ≠ 0) : exec (.coll (.s a) fb) s = .next (c.takeTrap { cause := 0x02 } (c.settled s)) := by
  refine exec_next_trap h.issues (he := execColl_eq _ _) ?_
  simp only [collBody, h.ready, isSReg, beq_false_of_ne hslot, Bool.and_false, guardOp_false, Res.ok_bind, Res.error_bind]

variable (hslot : c.g.slot = 0) (halign : (c.g.readS a.val).toNat % 64 = 0) (hf : CounterFree c (.coll (.s a) fb))
include hslot halign hf

theorem exec_coll {v : List (Nat × Word)} (hv : performOnce c (c.sig (.coll (.s a) fb) [(c.g.readS a.val).toNat])
      (collAsked c (.coll (.s a) fb) (c.g.readS a.val) (c.who s)) s = .ok (v, s2)) (hj : collJoin c (c.who s) (.coll (.s a) fb) v s2 = .ok t) :
    exec (.coll (.s a) fb) s = .next (c.done (t.modGroup c.gid fun g => { g with colls := g.colls + 1 })) := by
  refine exec_next_done h.issues (he := execColl_eq _ _) ?_
  simp only [collBody, h.ready, isSReg, hslot, sVal, addrS, halign, countFlag_free h.group hf, guardOp_true, Res.ok_bind, beq_self_eq_true,
    Bool.and_self, ne_eq, not_true_eq_false, if_false, hv, hj]

theorem exec_coll_solo {r : BitVec 512} (hs : c.t.side = .solo)
    (hask : collAsked c (.coll (.s a) fb) (c.g.readS a.val) (c.who s) s = .ok (recordVals s1.nextId r, s1)) (hn : s1.nextId < 2 ^ 64)
    (hs2 : s2 = assayLog c (c.sig (.coll (.s a) fb) [(c.g.readS a.val).toNat]) (recordVals s1.nextId r) s1)
    (ht : let held := collHeld s2 (c.who s) c.l.teams (Command.ofBits (r.setWidth 320)) c.t.index
      issueOp c { c.op (.coll (.s a) fb) with record := r.setWidth 320, prog := c.g.colls + 1, locs := held }
        ((holdLines s2 held).getD s2) = .ok t) :
    exec (.coll (.s a) fb) s = .next (c.done (t.modGroup c.gid fun g => { g with colls := g.colls + 1 })) := by
  refine h.exec_coll hslot halign hf (v := recordVals s1.nextId r) (s2 := s2) ?_ ?_
  · rw [performOnce_of_solo hs, hask, hs2]
    rfl
  · exact (collJoin_solo hs (hs2 ▸ (assayLog_sameButAssay c _ _ s1).2.symm) hn).trans ht

end EngineIssues

theorem State.group_of_who? {s : State} {gid : Nat} {w : Who} (h : s.who? gid = some w) : s.group? gid = some w.g := by
  simp only [State.who?, Option.bind_eq_bind, Option.pure_def, Option.bind_eq_some_iff, Option.some.injEq] at h
  obtain ⟨g, hg, t, -, l, -, rfl⟩ := h
  exact hg

section
variable {s s1 : State} {k : Nat} {o o1 : Op} {w : Who} {a : Spec} {fb : Bool} (ho : s.op? k = some o) (hi : o.instr = .coll a fb)
  (hw : s.who? o.group = some w)
include ho hi hw

/-! ## COLL_COMPLETE (R347) -/

theorem collComplete_started (h : o.started = true) : collComplete k s = some (s.finishOp k o) := by
  simp [collComplete, ho, hi, State.group_of_who? hw, State.team_of_who? hw, h]

theorem collComplete_carriedOut (h : o.started = false) (hrun : runCollective s w.t.launch o.prog = some s1) (ho1 : s1.op? k = some o1) :
    collComplete k s = some (s1.finishOp k o1) := by
  simp [collComplete, ho, hi, State.group_of_who? hw, State.team_of_who? hw, h, hrun, ho1]

/-! ## COLL_FAULT (R349) -/

omit ho hi hw

/-- A COLL's record is not team 0's, or one of its collective has been found not to be. -/
def Differs (s : State) (w : Who) (o : Op) : Prop :=
  (∃ q, (participants s w.t.launch o.prog).find? (fun p => p.1 == 0) = some q ∧
    ¬ sameCollective (Command.ofBits q.2.2.record) (Command.ofBits o.record)) ∨ o.prog ∈ w.l.differed

/-- A retired team has not issued the collective. -/
def Lacking (s : State) (w : Who) (o : Op) : Prop := ∃ t ∈ w.l.retired, ∀ p ∈ participants s w.t.launch o.prog, p.1 ≠ t

/-- The check that finds records to differ (R349). -/
def recordsDiffer (s : State) (w : Who) (o : Op) : Bool :=
  let x := Command.ofBits o.record
  (match (participants s w.t.launch o.prog).find? fun p => p.1 == 0 with
    | some q =>
      let y := Command.ofBits q.2.2.record
      y.opc != x.opc || y.red != x.red || y.fmt != x.fmt || y.count != x.count || y.root != x.root || y.devices != x.devices
    | none => false) || w.l.differed.contains o.prog

theorem recordsDiffer_iff : recordsDiffer s w o ↔ Differs s w o := by
  unfold recordsDiffer Differs sameCollective
  cases (participants s w.t.launch o.prog).find? fun p => p.1 == 0 with
  | none => simp
  | some q => simp [imp_iff_not_or, or_assoc]

theorem lacking_iff :
    (w.l.retired.filter fun t => !((participants s w.t.launch o.prog).any fun p => p.1 == t)) != [] ↔ Lacking s w o := by
  simp only [Lacking, bne_iff_ne, ne_eq, List.filter_eq_nil_iff, not_forall, Bool.not_eq_true', List.any_eq_false, beq_iff_eq, exists_prop,
    not_exists, not_and, not_not]

/-- Every COLL of the collective ends with a trap. -/
def allEnd (s : State) (w : Who) (o : Op) (x : Trap) (u : State) : State :=
  (participants s w.t.launch o.prog).foldl (fun s p => endEngine s p.2.1 p.2.2 x) u

include ho hi hw
variable (hs : o.started = false) (hf : o.fault = none)
include hs hf

/-- COLL_FAULT looks for records that differ, then for a team that is missing, then at the late checks. -/
theorem collFault_eq : ∃ late : Option State, (collFault k s = if recordsDiffer s w o then
      some (allEnd s w o { cause := 0x02 } (s.modLaunch w.t.launch fun l => { l with differed := (o.prog :: l.differed).dedup }))
    else if (w.l.retired.filter fun t => !((participants s w.t.launch o.prog).any fun p => p.1 == t)) != [] then
      some (allEnd s w o { cause := 0x13 } s)
    else late) ∧
    ∀ n b, collSites s w w.l.teams (Command.ofBits o.record) w.t.index = .error (n, b) →
      late = some (if isPageAbsent s w n b then stallEngine s k o (engineTrap w n b) else endEngine s k o (engineTrap w n b)) := by
  simp only [collFault, ho, hi, hw, hs, hf, Option.bind_eq_bind, Option.bind_some, Option.isSome_none, Bool.or_self, Bool.false_eq_true, if_false]
  exact ⟨_, rfl, fun n b hsite => by rw [hsite]; rfl⟩

theorem collFault_differs (h : Differs s w o) : collFault k s =
    some (allEnd s w o { cause := 0x02 } (s.modLaunch w.t.launch fun l => { l with differed := (o.prog :: l.differed).dedup })) := by
  obtain ⟨_, heq, -⟩ := collFault_eq ho hi hw hs hf
  exact heq.trans (if_pos (recordsDiffer_iff.mpr h))

variable (hsame : ¬ Differs s w o)
include hsame

theorem collFault_lacking (h : Lacking s w o) : collFault k s = some (allEnd s w o { cause := 0x13 } s) := by
  obtain ⟨_, heq, -⟩ := collFault_eq ho hi hw hs hf
  exact heq.trans ((if_neg (mt recordsDiffer_iff.mp hsame)).trans (if_pos (lacking_iff.mpr h)))

theorem collFault_late (h : ¬ Lacking s w o) {n b : Nat} (hsite : collSites s w w.l.teams (Command.ofBits o.record) w.t.index = .error (n, b)) :
    collFault k s = some (if isPageAbsent s w n b then stallEngine s k o (engineTrap w n b) else endEngine s k o (engineTrap w n b)) := by
  obtain ⟨late, heq, hlate⟩ := collFault_eq ho hi hw hs hf
  exact heq.trans ((if_neg (mt recordsDiffer_iff.mp hsame)).trans ((if_neg (mt lacking_iff.mp h)).trans (hlate n b hsite)))

end

/-- Settles O43: COLL by its body, of which a team on its own takes the record it has read itself; COLL_COMPLETE and COLL_FAULT by the
state in which they find the operation. -/
theorem collectives : Obligations.Collectives := by
  refine ⟨fun s s1 t c a fb bs hi hsup hacq => ?_, fun s s1 k o o1 w a fb ho hcoll hw =>
    ⟨fun hs => ?_, fun hs hrun ho1 => ?_, fun hs hf => ?_⟩⟩
  · have h : EngineIssues s c := ⟨hi, hsup, hacq⟩
    intro i p r x issued
    refine ⟨fun hslot => h.exec_coll_slot hslot, fun hslot halign hf => ⟨fun v s2 hv hj => ?_,
      fun hs hread hok hsrc hdst hprot hsa hda hrange hn hhold ht => ?_⟩⟩
    · refine h.exec_coll hslot halign hf hv ((collJoin_eq (c.who s) v s2).trans hj)
    · exact h.exec_coll_solo hslot halign hf hs (collAsked_passes hread rfl rfl hok hsrc hdst hprot hsa hda hrange hhold) hn rfl ht
  · exact event_some (collComplete_started ho hcoll hw hs)
  · exact event_some (collComplete_carriedOut ho hcoll hw hs hrun ho1)
  · refine ⟨fun hd => event_some (collFault_differs ho hcoll hw hs hf hd),
      fun hd hl => event_some (collFault_lacking ho hcoll hw hs hf hd hl),
      fun hd hl n b hsite => ⟨fun hp => ?_, fun hp => ?_⟩⟩
    · exact event_some ((collFault_late ho hcoll hw hs hf hd hl hsite).trans (by rw [hp, if_pos rfl]))
    · exact event_some ((collFault_late ho hcoll hw hs hf hd hl hsite).trans (by rw [hp, if_neg Bool.false_ne_true]))

end Sys2Proof.Machine
end

