-- ==== Sys2Proof/Proofs/RegisterFrames.lean ====
section
/-! What register instructions leave alone: no byte of memory, no queue, region or mailbox, and no operation in flight. -/
namespace Sys2Proof.Machine
open Sys2Proof.Claims

/-! ## Undisturbed states -/

/-- Two states that agree in memory, queues, regions, mailboxes and operations. -/
def State.Undisturbed (s t : State) : Prop :=
  t.mem = s.mem ∧ t.queues = s.queues ∧ t.regions = s.regions ∧ t.boxes = s.boxes ∧ t.ops = s.ops

theorem State.Undisturbed.refl (s : State) : s.Undisturbed s := ⟨rfl, rfl, rfl, rfl, rfl⟩

/-- The state that a stop hands on, if any, is undisturbed. -/
def Stop.Undisturbed (s : State) : Stop → Prop
  | .trap _ => True
  | .trapIn _ t | .wait t | .moved t => s.Undisturbed t

/-- A result that meets P, or a stop with an undisturbed state. -/
def Res.Undisturbing {α : Type} (s : State) (P : α → Prop) : Res α → Prop
  | .ok a => P a
  | .error e => e.Undisturbed s

namespace Res.Undisturbing
variable {α β : Type} {s : State} {P : α → Prop} {Q : β → Prop}

theorem bind {x : Res α} {f : α → Res β} (hx : x.Undisturbing s P) (hf : ∀ a, P a → (f a).Undisturbing s Q) :
    (x >>= f).Undisturbing s Q := by
  cases x with
  | ok a => exact hf a hx
  | error e => exact hx

/-- A computation that stops only with a trap of no state. -/
theorem bind_pure {x : Res α} {f : α → Res β} (hx : x.Undisturbing s fun _ => True) (hf : ∀ a, (f a).Undisturbing s Q) :
    (x >>= f).Undisturbing s Q :=
  hx.bind fun a _ => hf a

end Res.Undisturbing

/-! ## Ends of an instruction -/

section
variable {s₀ s : State} (h : s₀.Undisturbed s)
include h

theorem modGroup_undisturbed (k : Nat) (f : Group → Group) : s₀.Undisturbed (s.modGroup k f) := h

theorem doubleFault_undisturbed (gid : Nat) (g : Group) (t : Team) (l : Launch) (a : Word) : s₀.Undisturbed (doubleFault gid g t l a s) := by
  unfold doubleFault
  dsimp only
  split <;> exact h

theorem reportTag_undisturbed (lid : Nat) (i : BitVec 23) : s₀.Undisturbed (reportTag lid i s) := by
  unfold reportTag
  split <;> exact h

theorem takeTrap_undisturbed (gid : Nat) (g : Group) (t : Team) (l : Launch) (r : Region) (pos : BitVec 37) (x : Trap) :
    s₀.Undisturbed (takeTrap gid g t l r pos x s) := by
  have ht : s₀.Undisturbed (if x.cause = Cause.poisonConsumed then reportTag t.launch x.info s else s) := by
    split
    · exact reportTag_undisturbed h _ _
    · exact h
  unfold takeTrap
  generalize (if x.cause = Cause.poisonConsumed then reportTag t.launch x.info s else s) = u at ht ⊢
  dsimp only
  repeat' split
  · exact ht
  · exact doubleFault_undisturbed ht _ _ _ _ _
  · exact ht
  · exact ht
  · exact ht
  · exact doubleFault_undisturbed ht _ _ _ _ _

theorem Ctx.takeTrap_undisturbed (c : Ctx) (x : Trap) : s₀.Undisturbed (c.takeTrap x s) := by
  unfold Ctx.takeTrap
  split
  · exact Machine.takeTrap_undisturbed h _ _ _ _ _ _ _
  · exact h

theorem raisePopped_undisturbed (c : Ctx) : s₀.Undisturbed (c.raisePopped s) := by
  unfold Ctx.raisePopped
  split
  · exact h
  · split <;> exact h

end

section
variable {s t : State} {body : Ctx → State → Res State} (hb : ∀ c, s.ctx? s.cur = some c → (body c s).Undisturbing s s.Undisturbed)
include hb

theorem runWith_undisturbed {done : Ctx → State → State} (hd : ∀ c u, s.Undisturbed u → s.Undisturbed (done c u))
    (ht : runWith done body s = .next t) : s.Undisturbed t := by
  unfold runWith at ht
  split at ht
  · cases ht
  next c hc =>
    split at ht
    · cases ht
    · have hbody := hb c hc
      cases hr : body c s with
      | ok u =>
        simp only [hr] at ht hbody
        cases ht
        exact hd c _ (raisePopped_undisturbed hbody c)
      | error e =>
        cases e <;> simp only [hr] at ht hbody <;> cases ht
        · exact Ctx.takeTrap_undisturbed (s := c.settled s) (.refl s) c _
        · exact Ctx.takeTrap_undisturbed (s := c.settled _) hbody c _
        · exact hbody
        · exact hbody

theorem runInstr_undisturbed (ht : runInstr body s = .next t) : s.Undisturbed t :=
  runWith_undisturbed hb (fun c _ hu => modGroup_undisturbed hu c.gid _) ht

theorem runControl_undisturbed (ht : runControl body s = .next t) : s.Undisturbed t := runWith_undisturbed hb (fun _ _ hu => hu) ht

end

/-! ## Checks that touch no state -/

theorem guardOp_undisturbing (s : State) (b : Bool) : (guardOp b).Undisturbing s fun _ => True := by cases b <;> trivial

theorem condMask_undisturbing (s : State) (c : Ctx) (x : Spec) : (condMask c x).Undisturbing s fun _ => True := by
  unfold condMask
  split <;> trivial

theorem checkTarget_undisturbing (s : State) (c : Ctx) (a : Int) : (checkTarget c a).Undisturbing s fun _ => True := by
  unfold checkTarget
  split <;> trivial

theorem dispatchEntry_undisturbing (s : State) (c : Ctx) (x : Spec) : (dispatchEntry c x).Undisturbing s fun _ => True := by
  unfold dispatchEntry
  split
  · dsimp only
    split <;> trivial
  · trivial

theorem notInHandler_undisturbing (s : State) (c : Ctx) : (notInHandler c).Undisturbing s fun _ => True := guardOp_undisturbing s _

theorem memberMask_undisturbing (s : State) (c : Ctx) (x : Spec) : (memberMask c x).Undisturbing s fun _ => True := by
  unfold memberMask
  split <;> trivial

theorem swriteValue_undisturbing (s : State) (c : Ctx) (a : Spec) : (swriteValue c a).Undisturbing s fun _ => True := by
  unfold swriteValue
  split <;> trivial

/-! ## Values taken from outside (R376) -/

/-- No flit with the release bit waits for a group (R340). -/
def PlainFlits (gid : Nat) (s : State) : Prop := ∀ g, s.group? gid = some g → ∀ e ∈ g.rx, e.2.hdr.getLsbD 16 = false

/-- A group's queues have gained no flit that they had not. -/
theorem modGroup_plainFlits {gid : Nat} {s : State} (h : PlainFlits gid s) (k : Nat) {f : Group → Group} (hf : ∀ g, (f g).rx = g.rx) :
    PlainFlits gid (s.modGroup k f) := by
  intro g hg
  by_cases hk : gid = k
  · subst hk
    rw [State.group?_modGroup_self, Option.map_eq_some_iff] at hg
    obtain ⟨g', hg', rfl⟩ := hg
    rw [hf]
    exact h g' hg'
  · exact h g ((SMap.entry?_adjust_other _ f hk).symm.trans hg)

/-- Undisturbed, with no flit to acquire by. -/
structure Popping (s₀ : State) (gid : Nat) (s : State) : Prop where
  kept : s₀.Undisturbed s
  plain : PlainFlits gid s

section
variable {s₀ s : State} {gid : Nat} (h : Popping s₀ gid s)
include h

theorem Popping.modGroup (k : Nat) {f : Group → Group} (hf : ∀ g, (f g).rx = g.rx) : Popping s₀ gid (s.modGroup k f) :=
  ⟨h.kept, modGroup_plainFlits h.plain k hf⟩

theorem Popping.commitEntry (c : Ctx) (x : LoadValue) : Popping s₀ gid (c.commitEntry x s) := ⟨h.kept, h.plain⟩

theorem Popping.tookLogged (c : Ctx) : Popping s₀ gid (c.tookLogged s) := ⟨h.kept, h.plain⟩

theorem Popping.assayLog (c : Ctx) (sig : Word) (vals : List (Nat × Word)) : Popping s₀ gid (assayLog c sig vals s) := by
  refine ⟨?_, fun g hg => h.plain g ?_⟩
  · have hk := h.kept
    unfold Machine.assayLog assayPut
    split
    · dsimp only
      split <;> exact hk
    · exact hk
  · rw [← hg, State.group?, State.group?, (assayLog_sameButAssay c sig vals s).1]

theorem fromLog_popping (c : Ctx) (sig : Word) {f : Unit → Res (List (Nat × Word) × State)}
    (hf : (f ()).Undisturbing s₀ fun x => Popping s₀ gid x.2) : (fromLog c sig s f).Undisturbing s₀ fun x => Popping s₀ gid x.2 := by
  unfold fromLog
  split
  · split
    · trivial
    · split
      · revert hf
        generalize f () = r
        intro hf
        match r, hf with
        | .ok x, hx => exact hx.tookLogged c
        | .error (.trapIn x t), ht => exact ht
        | .error (.trap _), _ => trivial
        | .error (.wait t), ht => exact ht
        | .error (.moved t), ht => exact ht
      · split
        · exact h.kept
        · exact h.tookLogged c
  · exact hf

theorem takeOutside_popping (c : Ctx) (sig : Word) {perform : State → Res (List (Nat × Word) × State)}
    (hp : (perform s).Undisturbing s₀ fun x => Popping s₀ gid x.2) :
    (takeOutside c sig perform s).Undisturbing s₀ fun x => Popping s₀ gid x.2 := by
  have send (v : LoadValue) {u : State} (hu : Popping s₀ gid u) : Popping s₀ gid (match c.peer? u with
      | some p => u.modGroup p fun g => { g with lvq := g.lvq ++ [v] }
      | none => u) := by
    split
    · exact hu.modGroup _ fun _ => rfl
    · exact hu
  have sent (v : LoadValue) {u : State} (hu : s₀.Undisturbed u) : s₀.Undisturbed (match c.peer? u with
      | some p => u.modGroup p fun g => { g with lvq := g.lvq ++ [v] }
      | none => u) := by split <;> exact hu
  unfold takeOutside
  dsimp only
  split
  · exact hp.bind fun x hx => hx.assayLog c _ _
  · refine fromLog_popping h c sig ?_
    split
    · exact h.kept
    · revert hp
      generalize perform s = r
      intro hp
      match r, hp with
      | .ok x, hx => exact (send _ (hx.assayLog c _ _)).commitEntry c _
      | .error (.trap x), _ => exact sent _ h.kept
      | .error (.trapIn x t), ht => exact sent _ ht
      | .error (.wait t), ht => exact ht
      | .error (.moved t), ht => exact ht
  · refine fromLog_popping h c sig ?_
    split
    · exact h.kept
    · split
      · split
        · exact h.kept
        · exact h.modGroup _ fun _ => rfl
      · trivial

end

/-! ## Pops (R200, R261, R337) -/

section
variable {s₀ s : State} {c : Ctx} (h : Popping s₀ c.gid s)
include h

theorem popFlit_popping (n : Nat) : (popFlit c n s).Undisturbing s₀ fun x => Popping s₀ c.gid x.2 := by
  refine (takeOutside_popping h c _ ?_).bind fun x hx => hx.modGroup _ fun _ => rfl
  dsimp only
  split
  · exact h.kept
  next g hg =>
    split
    · exact h.kept
    next e he =>
      split
      · trivial
      · have hrel : e.2.hdr.getLsbD 16 = false := h.plain g hg e (List.mem_of_find?_eq_some he)
        rw [if_neg (by rw [hrel]; exact Bool.false_ne_true)]
        refine ⟨h.kept, fun g' hg' e' he' => ?_⟩
        rw [State.group?_setGroup_self, Option.some.injEq] at hg'
        subst hg'
        exact h.plain g hg e' (List.mem_of_mem_erase he')

theorem popStream_popping (n : Nat) : (popStream c n s).Undisturbing s₀ fun x => Popping s₀ c.gid x.2 := by
  unfold popStream
  dsimp only
  split
  · exact h.kept
  · split
    · trivial
    · split
      · exact h.kept
      · split
        · trivial
        · split
          · exact (fromLog_popping h c _ (f := fun _ => .error (.wait s)) h.kept).bind fun x hx => hx.modGroup _ fun _ => rfl
          · split
            · exact h.kept
            · split
              · split
                · exact (h.commitEntry c _).kept
                · trivial
              · split
                · exact (h.commitEntry c _).modGroup _ fun _ => rfl
                · exact h.modGroup _ fun _ => rfl

theorem popSrc_popping (x : Spec) : (popSrc c x s).Undisturbing s₀ fun x => Popping s₀ c.gid x.2 := by
  unfold popSrc
  split
  · exact (popFlit_popping h _).bind fun x hx => hx
  · exact (popStream_popping h _).bind fun x hx => hx
  · exact h

theorem readSources_undisturbing (f : OForm) (sh : Shape) : (readSources c f sh s).Undisturbing s₀ fun x => s₀.Undisturbed x.s := by
  refine (guardOp_undisturbing s₀ _).bind_pure fun _ => ?_
  dsimp only
  split
  · exact h.kept
  · refine .bind (P := fun x : Popped × State => Popping s₀ c.gid x.2) ?_ fun x hx =>
      .bind (P := fun x : Popped × State => Popping s₀ c.gid x.2) ?_ fun y hy =>
      .bind (P := fun x : Popped × State => Popping s₀ c.gid x.2) ?_ fun z hz => ?_
    case refine_1 | refine_2 | refine_3 =>
      split
      · exact h.kept
      · split
        · assumption
        · exact popSrc_popping ‹_› _
    change s₀.Undisturbed (ite _ _ _)
    split <;> exact hz.kept

end

/-! ## Elementwise instructions, comparisons and conversions -/

section
variable {s₀ s : State} (h : s₀.Undisturbed s)
include h

theorem writeUniform_undisturbing (c : Ctx) {d : Spec} (hd : ∀ n, d ≠ .txq n) (v : Nat) :
    (writeUniform c d v s).Undisturbing s₀ s₀.Undisturbed := by
  unfold writeUniform
  split
  · exact h
  next n => exact absurd rfl (hd n)
  · trivial

end

section
variable {s₀ s : State} {c : Ctx} (h : Popping s₀ c.gid s)
include h

theorem elementwise_undisturbing {f : OForm} (hd : ∀ n, f.d ≠ .txq n) (sh : Shape) (op : Nat → Nat → Nat → Flagged Nat) :
    (elementwise sh f op c s).Undisturbing s₀ s₀.Undisturbed := by
  refine (guardOp_undisturbing s₀ _).bind_pure fun _ => (readSources_undisturbing h f sh).bind fun x hx => ?_
  split
  · exact (writeUniform_undisturbing hx c hd _).bind fun _ hu => hu
  · split
    · exact hx
    · trivial

theorem comparison_undisturbing (sh : Shape) (f : OForm) (op : Nat → Nat → Flagged Bool) :
    (comparison sh f op c s).Undisturbing s₀ s₀.Undisturbed := by
  unfold comparison
  cases hd : isSReg f.d with
  | false => trivial
  | true =>
    have hs : ∀ n, f.d ≠ .txq n := fun n hn => by simp [hn, isSReg] at hd
    refine (readSources_undisturbing h f sh).bind fun x hx => ?_
    split <;> exact (writeUniform_undisturbing hx c hs _).bind fun _ hu => hu

theorem selBody_undisturbing {f : OForm} (hd : ∀ n, f.d ≠ .txq n) : (selBody f c s).Undisturbing s₀ s₀.Undisturbed := by
  refine (guardOp_undisturbing s₀ _).bind_pure fun _ => (readSources_undisturbing h _ _).bind fun x hx => ?_
  split
  · exact writeUniform_undisturbing hx c hd _
  · split
    · exact hx
    · trivial

theorem quantise_undisturbing {f : QForm} (hd : ∀ n, f.d ≠ .txq n) (op : Nat → Nat → Flagged Nat) :
    (quantise f op c s).Undisturbing s₀ s₀.Undisturbed := by
  refine (guardOp_undisturbing s₀ _).bind_pure fun _ => (readSources_undisturbing h _ _).bind fun x hx => ?_
  extract_lets ls rs ended go
  have hg : (go ()).Undisturbing s₀ s₀.Undisturbed := by
    dsimp only [go]
    split
    · exact hx
    · exact (writeUniform_undisturbing hx c hd _).bind fun _ hu => hu
  clear_value go
  split
  · exact hx
  · exact hg

theorem qscaleBody_undisturbing {f : QForm} (hd : ∀ n, f.d ≠ .txq n) : (qscaleBody f c s).Undisturbing s₀ s₀.Undisturbed := by
  refine (guardOp_undisturbing s₀ _).bind_pure fun _ => (guardOp_undisturbing s₀ _).bind_pure fun _ =>
    (readSources_undisturbing h _ _).bind fun x hx => ?_
  split
  · exact hx
  · exact writeUniform_undisturbing hx c hd _

end

/-! ## Special registers -/

theorem sreadBody_undisturbing {s₀ s : State} {c : Ctx} (h : Popping s₀ c.gid s) (d : Spec) (n : BitVec 8) :
    (sreadBody d n c s).Undisturbing s₀ s₀.Undisturbed := by
  unfold sreadBody
  extract_lets k value go
  have hg : ∀ x : Word × State, s₀.Undisturbed x.2 → (go x).Undisturbing s₀ s₀.Undisturbed := by
    intro x hx
    dsimp only [go]
    split
    · exact hx
    · trivial
  clear_value go value
  refine (guardOp_undisturbing s₀ _).bind_pure fun _ => ?_
  split
  · exact (takeOutside_popping h c _ (perform := fun u => .ok ([(0, value u)], u)) h).bind fun x hx => hg _ hx.kept
  · exact hg _ h.kept

/-! ## The porter and the token stack -/

section
variable {s₀ s : State} (h : s₀.Undisturbed s)
include h

theorem swriteBody_undisturbing (c : Ctx) (a : Spec) (n : BitVec 8) : (swriteBody a n c s).Undisturbing s₀ s₀.Undisturbed := by
  refine (swriteValue_undisturbing s₀ c a).bind_pure fun v => ?_
  dsimp only
  split
  · trivial
  · trivial
  · exact h
  · refine (guardOp_undisturbing s₀ _).bind_pure fun _ => ?_
    dsimp only [Res.Undisturbing]
    split <;> exact h

theorem waitPorter_undisturbing {α : Type} {P : α → Prop} (c : Ctx) : (waitPorter c s : Res α).Undisturbing s₀ P := by
  unfold waitPorter
  split <;> exact h

theorem innermost_undisturbing (c : Ctx) : (innermost c s).Undisturbing s₀ fun _ => True := by
  unfold innermost
  split
  · trivial
  · split
    · trivial
    · exact waitPorter_undisturbing h c

theorem innerIf_undisturbing (c : Ctx) : (innerIf c s).Undisturbing s₀ fun _ => True :=
  (innermost_undisturbing h c).bind fun _ _ => trivial

theorem topOf_undisturbing (c : Ctx) (k : TokKind) : (topOf c k s).Undisturbing s₀ fun _ => True := by
  refine (innermost_undisturbing h c).bind fun t _ => ?_
  split
  · split <;> trivial
  · trivial

theorem pushToken_undisturbing (c : Ctx) (t : Token) : (pushToken c t s).Undisturbing s₀ s₀.Undisturbed := by
  unfold pushToken
  dsimp only
  split
  · trivial
  · split
    · exact h
    · exact waitPorter_undisturbing (s := s.setGroup _ _) h c

/-- With no spilled token a path ends without a read. -/
theorem endPath_undisturbing (c : Ctx) (new : Option (Nat × Token)) (g : Group) : (endPath c new 0 g s).Undisturbing s₀ s₀.Undisturbed := by
  unfold endPath
  split <;> exact h

theorem settlePaths_undisturbing (c : Ctx) (new : Option (Nat × Token)) {g : Group} (hg : g.spilledTok = 0) (a : BitVec 32) :
    (settlePaths c new g a s).Undisturbing s₀ s₀.Undisturbed := by
  unfold settlePaths
  rw [hg]
  split
  · exact h
  · exact endPath_undisturbing h c new g

/-! ## Cross-lane instructions (R162, R189) -/

theorem arrive_undisturbing (c : Ctx) (mma : Bool) (m : Mask) : (arrive c mma m s).Undisturbing s₀ fun x => s₀.Undisturbed x.2 := by
  refine (innerIf_undisturbing h c).bind fun t _ => ?_
  dsimp only
  repeat' split
  all_goals trivial

theorem putLanes_undisturbed (c : Ctx) (d : Spec) (wide : Bool) (vals : List (Nat × Nat)) : s₀.Undisturbed (putLanes c d wide vals s) := by
  unfold putLanes
  split
  · exact h
  · split <;> exact h
  · exact h

theorem foldEffect_undisturbed (c : Ctx) (f : OForm) (run : List (Flagged Nat)) (vals : List (Nat × Nat)) :
    s₀.Undisturbed (foldEffect c f run vals s) :=
  putLanes_undisturbed h c _ _ _

/-- What a cross-lane row does reaches no further than its group. -/
theorem crossOp_undisturbing {i : Instr} {r : CrossRow} (hr : crossRow i = some r) (c : Ctx) (m : Mask) :
    (crossOp r c m s).Undisturbing s₀ s₀.Undisturbed := by
  unfold crossOp
  cases i with
  | shfl f | vote f | elect f => cases hr; exact putLanes_undisturbed h c _ _ _
  | redux f | scan f =>
    cases hr
    dsimp only
    cases (lanes m).map (laneOf c.g f.ty f.a) with
    | nil => exact h
    | cons x xs => exact foldEffect_undisturbed h c f _ _
  | bcast f | setlane f =>
    cases hr
    dsimp only
    split
    next e he =>
      split at he
      · cases he; exact h
      · split at he
        · cases he; exact putLanes_undisturbed h c _ _ _
        · cases he
    · trivial
  | _ => cases hr

theorem crossLane_undisturbing {i : Instr} {r : CrossRow} (hr : crossRow i = some r) (c : Ctx) :
    (crossLane r.f (r.ok c) (crossOp r) c s).Undisturbing s₀ s₀.Undisturbed := by
  refine (memberMask_undisturbing s₀ c _).bind_pure fun m => (guardOp_undisturbing s₀ _).bind_pure fun _ =>
    (arrive_undisturbing h c _ _).bind fun x hx => ?_
  obtain ⟨c', u⟩ := x
  have hu := crossOp_undisturbing hx hr c' m
  dsimp only
  revert hu
  generalize crossOp r c' m u = y
  intro hu
  match y, hu with
  | .ok _, hv => exact hv
  | .error (.trap _), _ => exact h
  | .error (.trapIn _ _), hv => exact hv
  | .error (.wait _), hv => exact hv
  | .error (.moved _), hv => exact hv

/-! ## Control instructions -/

variable (c : Ctx)

theorem braTo_undisturbing (sub : BraSub) (cond : Spec) (t : BitVec 32) : (braTo sub cond t c s).Undisturbing s₀ s₀.Undisturbed := by
  refine (condMask_undisturbing s₀ c cond).bind_pure fun m => ?_
  extract_lets taken
  split
  · exact (checkTarget_undisturbing s₀ c _).bind_pure fun _ => h
  · exact h

theorem brdTo_undisturbing (cond : Spec) (t : BitVec 32) : (brdTo cond t c s).Undisturbing s₀ s₀.Undisturbed := by
  refine (condMask_undisturbing s₀ c cond).bind_pure fun m => ?_
  split
  · exact h
  · refine (checkTarget_undisturbing s₀ c _).bind_pure fun a => ?_
    split
    · exact h
    · split
      · trivial
      · refine (topOf_undisturbing h c _).bind fun x _ => ?_
        dsimp only
        split
        · trivial
        · exact h

theorem tokenThen_undisturbing (t : Token) : (tokenThen t c s).Undisturbing s₀ s₀.Undisturbed :=
  (pushToken_undisturbing h c t).bind fun _ hu => hu

theorem tokenLoop_undisturbing (t : BitVec 32) : (tokenLoop t c s).Undisturbing s₀ s₀.Undisturbed := by
  refine (notInHandler_undisturbing s₀ c).bind_pure fun _ => (checkTarget_undisturbing s₀ c _).bind_pure fun a => ?_
  dsimp only
  split
  · exact tokenThen_undisturbing h c _
  · trivial

theorem joinIf_undisturbing (t : BitVec 32) : (joinIf t c s).Undisturbing s₀ s₀.Undisturbed := by
  refine (notInHandler_undisturbing s₀ c).bind_pure fun _ => (topOf_undisturbing h c _).bind fun x _ => ?_
  dsimp only
  split
  · exact h
  · exact (checkTarget_undisturbing s₀ c _).bind_pure fun _ => h

theorem callTo_undisturbing (cond : Spec) (n : BitVec 4) {target : Ctx → Res Int} (ht : (target c).Undisturbing s₀ fun _ => True) :
    (callTo cond n target c s).Undisturbing s₀ s₀.Undisturbed := by
  refine (notInHandler_undisturbing s₀ c).bind_pure fun _ => (condMask_undisturbing s₀ c cond).bind_pure fun m => ?_
  split
  · exact h
  · refine ht.bind_pure fun i => (checkTarget_undisturbing s₀ c _).bind_pure fun a => ?_
    dsimp only
    split
    · trivial
    · split
      · exact waitPorter_undisturbing (s := s.setGroup _ _) h c
      · exact h

theorem writeChanged_none_undisturbed : s₀.Undisturbed (writeChanged c none s) := h

section
variable (hz : c.g.spilledTok = 0)
include hz

theorem joinLoop_undisturbing (cond : Spec) (t : BitVec 32) : (joinLoop cond t c s).Undisturbing s₀ s₀.Undisturbed := by
  refine (notInHandler_undisturbing s₀ c).bind_pure fun _ => (topOf_undisturbing h c _).bind fun x _ =>
    (condMask_undisturbing s₀ c cond).bind_pure fun m => ?_
  dsimp only
  split
  · exact (checkTarget_undisturbing s₀ c _).bind_pure fun _ => h
  · exact settlePaths_undisturbing h c _ (by exact hz) _

/-- A loop's token is sought among the resident ones alone, and is one of them. -/
theorem onLoop_undisturbing (f : Token → Token) : (onLoop c f s).Undisturbing s₀ fun x =>
    s₀.Undisturbed x.2 ∧ ∀ y, x.1 = some y → y.1.spilledTok = 0 ∧ y.2 = none := by
  unfold onLoop
  split
  · exact ⟨h, fun y hy => by cases hy; exact ⟨hz, rfl⟩⟩
  · exact ⟨h, fun y hy => by cases hy⟩
  · rw [hz]
    exact ⟨h, fun y hy => by cases hy⟩

theorem leaveLoop_undisturbing (cond : Spec) (f : Mask → Token → Token) : (leaveLoop cond f c s).Undisturbing s₀ s₀.Undisturbed := by
  refine (notInHandler_undisturbing s₀ c).bind_pure fun _ => (condMask_undisturbing s₀ c cond).bind_pure fun m =>
    (onLoop_undisturbing h c hz _).bind fun x hx => ?_
  obtain ⟨hu, hy⟩ := hx
  dsimp only
  split
  · trivial
  next g y he =>
    obtain ⟨hg, rfl⟩ := hy _ he
    exact (settlePaths_undisturbing hu c none (by exact hg) _).bind fun u hu => writeChanged_none_undisturbed hu c

theorem exitLanes_undisturbing (cond : Spec) : (exitLanes cond c s).Undisturbing s₀ s₀.Undisturbed := by
  refine (notInHandler_undisturbing s₀ c).bind_pure fun _ => (condMask_undisturbing s₀ c cond).bind_pure fun m =>
    (onLoop_undisturbing h c hz _).bind fun x hx => ?_
  obtain ⟨hu, hy⟩ := hx
  have hg : (x.1.getD (c.g, none)).1.spilledTok = 0 ∧ (x.1.getD (c.g, none)).2 = none := by
    cases hx1 : x.1 with
    | none => exact ⟨hz, rfl⟩
    | some y => exact hy y hx1
  dsimp only
  rw [hg.2]
  split
  · exact writeChanged_none_undisturbed (s := State.setGroup _ _ _) hu c
  · exact (settlePaths_undisturbing hu c none (by exact hg.1) _).bind fun u hu => writeChanged_none_undisturbed hu c

end
end

/-! ## Instructions -/

/-- The instructions of which a spilled token may be read or written (R158, R161). -/
def SearchesTokens (i : Instr) : Prop := ∃ cond target, i ∈ [Instr.brk cond, .cont cond, .exit cond, .joinLoop cond target, .ret]

section
variable {s t : State} {i : Instr}

theorem tokenIf_undisturbed (ht : execTokenIf s = .next t) : s.Undisturbed t :=
  runControl_undisturbed (fun c _ => (notInHandler_undisturbing s c).bind_pure fun _ => tokenThen_undisturbing (.refl s) c _) ht

theorem callx_undisturbed {cond : Spec} {n : BitVec 4} {x : Spec} (ht : execCallx cond n x s = .next t) : s.Undisturbed t :=
  runControl_undisturbed (fun c _ => (guardOp_undisturbing s _).bind_pure fun _ =>
    callTo_undisturbing (.refl s) c cond n (dispatchEntry_undisturbing s c x)) ht

theorem yield_undisturbed (ht : execYield s = .next t) : s.Undisturbed t := by
  refine runControl_undisturbed (fun c _ => ?_) ht
  refine (notInHandler_undisturbing s c).bind_pure fun _ => (innerIf_undisturbing (.refl s) c).bind fun o _ => ?_
  split
  · split <;> exact .refl s
  · exact .refl s

theorem wsyncWait_undisturbed (ht : execWsyncWait s = .next t) : s.Undisturbed t := by
  refine runInstr_undisturbed (fun c _ => ?_) ht
  refine (notInHandler_undisturbing s c).bind_pure fun _ => ?_
  split
  · exact waitPorter_undisturbing (.refl s) c
  · exact .refl s

theorem wsyncWb_undisturbed (ht : execWsyncWb s = .next t) : s.Undisturbed t := by
  refine runInstr_undisturbed (fun c _ => ?_) ht
  refine (notInHandler_undisturbing s c).bind_pure fun _ => ?_
  split
  · exact waitPorter_undisturbing (s := s.setGroup _ _) (.refl s) c
  · split
    · exact waitPorter_undisturbing (.refl s) c
    · exact .refl s

theorem winfo_undisturbed {item : WItem} {d : Spec} (ht : execWinfo item d s = .next t) : s.Undisturbed t := by
  refine runInstr_undisturbed (fun c _ => ?_) ht
  split
  · exact .refl s
  · trivial

theorem brx_undisturbed {x : Spec} (ht : execBrx x s = .next t) : s.Undisturbed t := by
  refine runControl_undisturbed (fun c _ => ?_) ht
  exact (dispatchEntry_undisturbing s c x).bind_pure fun j => (checkTarget_undisturbing s c j).bind_pure fun a => .refl s

theorem ret_undisturbed (hz : ∀ c, s.ctx? s.cur = some c → c.g.spilledTok = 0) (ht : execRet s = .next t) : s.Undisturbed t := by
  refine runControl_undisturbed (fun c hc => ?_) ht
  refine (notInHandler_undisturbing s c).bind_pure fun _ => (innermost_undisturbing (.refl s) c).bind fun o _ => ?_
  split
  · split
    · exact settlePaths_undisturbing (.refl s) c _ (by exact hz c hc) _
    · trivial
  · trivial

theorem exec_control_undisturbed (hi : i.isControl = true) (hz : ∀ c, s.ctx? s.cur = some c → SearchesTokens i → c.g.spilledTok = 0)
    (ht : exec i s = .next t) : s.Undisturbed t := by
  have h := State.Undisturbed.refl s
  cases i with
  | nop => exact runInstr_undisturbed (body := fun _ s => .ok s) (fun _ _ => h) ht
  | bra sub cond t => exact runControl_undisturbed (fun c _ => braTo_undisturbing h c _ _ _) ht
  | brd cond t => exact runControl_undisturbed (fun c _ => brdTo_undisturbing h c _ _) ht
  | tokenIf => exact tokenIf_undisturbed ht
  | tokenLoop t => exact runControl_undisturbed (fun c _ => tokenLoop_undisturbing h c _) ht
  | joinIf t => exact runControl_undisturbed (fun c _ => joinIf_undisturbing h c _) ht
  | joinLoop cond t => exact runControl_undisturbed (fun c hc => joinLoop_undisturbing h c (hz c hc ⟨cond, t, by simp⟩) _ _) ht
  | brk cond | cont cond => exact runControl_undisturbed (fun c hc => leaveLoop_undisturbing h c (hz c hc ⟨cond, 0, by simp⟩) _ _) ht
  | exit cond => exact runControl_undisturbed (fun c hc => exitLanes_undisturbing h c (hz c hc ⟨cond, 0, by simp⟩) _) ht
  | brx x => exact brx_undisturbed ht
  | call cond n j => exact runControl_undisturbed (fun c _ => callTo_undisturbing h c _ _ (target := fun c => .ok (c.target j)) trivial) ht
  | callx cond n x => exact callx_undisturbed ht
  | ret => exact ret_undisturbed (fun c hc => hz c hc ⟨.int 0, 0, by simp⟩) ht
  | yield => exact yield_undisturbed ht
  | wsyncWait => exact wsyncWait_undisturbed ht
  | wsyncWb => exact wsyncWb_undisturbed ht
  | winfo item d => exact winfo_undisturbed ht
  | pauseTime n | pauseRecv n => exact runControl_undisturbed (body := pauseFor n _) (fun _ _ => h) ht
  | _ => cases hi

/-- The group's own frame at the start of its instruction. -/
theorem Popping.of_ctx {c : Ctx} (hc : s.ctx? s.cur = some c) (hrx : ∀ e ∈ c.g.rx, e.2.hdr.getLsbD 16 = false) : Popping s c.gid s := by
  obtain ⟨hgid, hg, -⟩ := State.ctx?_spec hc
  refine ⟨.refl s, fun g hg' => ?_⟩
  rw [hgid, hg, Option.some.injEq] at hg'
  exact hg' ▸ hrx

/-- A register-only instruction leaves all but its group's own state. -/
theorem exec_registerOnly_undisturbed (hi : RegisterOnly i) (hrx : ∀ c, s.ctx? s.cur = some c → ∀ e ∈ c.g.rx, e.2.hdr.getLsbD 16 = false)
    (hz : ∀ c, s.ctx? s.cur = some c → SearchesTokens i → c.g.spilledTok = 0) (ht : exec i s = .next t) : s.Undisturbed t := by
  have hp : ∀ c, s.ctx? s.cur = some c → Popping s c.gid s := fun c hc => .of_ctx hc (hrx c hc)
  obtain hctl | ⟨r, hr, hd⟩ | ⟨r, hr⟩ | ⟨r, hr, hd⟩ | ⟨r, hr⟩ | ⟨f, rfl | rfl, hd⟩ | ⟨f, rfl, hd⟩ |
    ⟨d, n, rfl⟩ | ⟨a, n, rfl⟩ | ⟨n, rfl⟩ := hi
  · exact exec_control_undisturbed hctl hz ht
  · rw [exec_of_aluRow hr] at ht
    exact runInstr_undisturbed (fun c hc => elementwise_undisturbing (hp c hc) hd _ _) ht
  · rw [exec_of_comparisonRow hr] at ht
    exact runInstr_undisturbed (fun c hc => comparison_undisturbing (hp c hc) _ _ _) ht
  · rw [exec_of_quantRow hr] at ht
    exact runInstr_undisturbed (fun c hc => quantise_undisturbing (hp c hc) hd _) ht
  · rw [exec_of_crossRow hr] at ht
    exact runInstr_undisturbed (fun c _ => crossLane_undisturbing (.refl s) hr c) ht
  · exact runInstr_undisturbed (fun c hc => selBody_undisturbing (hp c hc) hd) ht
  · exact runInstr_undisturbed (body := leaBody f)
      (fun c hc => (guardOp_undisturbing s _).bind_pure fun _ => elementwise_undisturbing (hp c hc) hd _ _) ht
  · exact runInstr_undisturbed (fun c hc => qscaleBody_undisturbing (hp c hc) hd) ht
  · exact runInstr_undisturbed (fun c hc => sreadBody_undisturbing (hp c hc) d n) ht
  · exact runInstr_undisturbed (fun c _ => swriteBody_undisturbing (.refl s) c a n) ht
  · exact runInstr_undisturbed (body := fun _ _ => trap _ _) (fun _ _ => trivial) ht

end

end Sys2Proof.Machine
end

