-- ==== Sys2Proof/Proofs/SpilledTokens.lean ====
section
/-! What reading and writing spilled tokens leaves of memory (R158, R161): a write reaches the token's own bytes, and what a core held
dirty may go home with it. -/
namespace Sys2Proof.Machine
open Sys2Proof.Claims

/-- Whatever a result is, where it is one it meets P. -/
def Res.Gives {α : Type} (P : α → Prop) (r : Res α) : Prop := ∀ a, r = .ok a → P a

namespace Res.Gives
variable {α β : Type} {P : α → Prop} {Q : β → Prop}

theorem ok {a : α} (h : P a) : Gives P (.ok a) := fun _ e => Except.ok.inj e ▸ h

theorem error {e : Stop} : Gives P (.error e) := fun _ h => by cases h

theorem bind {x : Res α} {f : α → Res β} (hx : Gives P x) (hf : ∀ a, P a → Gives Q (f a)) : Gives Q (x >>= f) := by
  cases x with
  | ok a => exact hf a (hx a rfl)
  | error e => exact error

end Res.Gives

/-! ## Accesses of a core's own -/

theorem fillTlb_quiet (core : Nat) (s : State) (place : Nat) (c : BitVec 16) (vas : List Nat) : Quiet core s (fillTlb s place c vas) :=
  .foldl (fun u page => by
    split
    · exact .refl u
    · split
      · exact .of_l1 rfl rfl rfl
      · exact .of_l1 rfl rfl rfl) _ s

section
variable {s t : State} {core a : Nat} (h : Spares core a (Misses s a) s t)
include h

/-- A core's read sends home no more than the dirty bytes of stores that it comes after. -/
theorem coreRead_spares (gid : Nat) (locs : List Nat) : Spares core a (Misses s a) s (coreRead t core gid locs).2 :=
  (h.settleWeak Misses.forwarded _).quiet (readLocs_quiet _ _ _ _ _)

/-- A core's write also writes its own bytes. -/
theorem coreWrite_spares (gid : Nat) {locs : List Nat} (hl : ∀ p ∈ locs, Misses s a p) (bytes : List Byte) :
    Spares core a (Misses s a) s (coreWrite t core gid locs bytes) := by
  unfold coreWrite
  extract_lets locs' ws u v
  have hw : ∀ x ∈ ws, forwarded s.fab x.1 ≠ a := by
    intro x hx
    obtain ⟨y, hy, rfl⟩ := List.mem_map.mp hx
    obtain ⟨p, hp, hpy⟩ := List.mem_map.mp (List.of_mem_zip hy).1
    dsimp only
    rw [← hpy, forwarded_congr h.move]
    exact (hl p hp).forwardedAgain
  have hu : Spares core a (Misses s a) s u := (h.settleWeak Misses.forwarded _).writeBackLines Misses.forwarded _
  exact (hu.writeHomeBy _ _ _ _ hw).quiet (.setFab (l1Update_noDirtier _ _ _ _))

end

/-! ## Spilled tokens -/

section
variable {s : State} {c : Ctx} {a : Nat}

/-- The locations of a token's bytes are kept folded: to evaluate them is to walk the tables for 32 bytes. -/
theorem writeSpilled_spares (h : Spares c.t.place a (Misses s a) s s) (j : Nat) (t : Token)
    (hl : ∀ locs, porterLocs s (c.who s) [.store] (c.g.tokenPtr j) 32 = .ok locs → ∀ p ∈ locs, Misses s a p) :
    Spares c.t.place a (Misses s a) s (writeSpilled c j t s) := by
  have key : ∀ f, f = writeSpilled → Spares c.t.place a (Misses s a) s (f c j t s) := by
    rintro f hf
    delta writeSpilled at hf
    subst hf
    dsimp only
    revert hl
    generalize porterLocs s _ _ _ _ = r
    intro hl
    cases r with
    | error x => exact h
    | ok locs => exact coreWrite_spares h _ (hl locs rfl) _
  exact key _ rfl

variable {u : State} (h : Spares c.t.place a (Misses s a) s u)
include h

theorem readSpilled_spares (both : Bool) (j : Nat) :
    (readSpilled c both j u).Gives fun x => Spares c.t.place a (Misses s a) s x.2 := by
  have key : ∀ f, f = readSpilled → (f c both j u).Gives fun x => Spares c.t.place a (Misses s a) s x.2 := by
    rintro f hf
    delta readSpilled at hf
    subst hf
    beta_reduce
    extract_lets w ptr v
    have hv : Spares c.t.place a (Misses s a) s v := h.quiet (fillTlb_quiet _ _ _ _ _)
    clear_value v w ptr
    generalize porterLocs v _ _ _ _ = r
    cases r with
    | error x => exact .error
    | ok locs =>
      have hr := coreRead_spares hv c.gid locs
      dsimp only
      generalize coreRead v c.t.place c.gid locs = x at hr ⊢
      generalize (if both = true then cowPages v locs else []) = copies
      split
      · exact .error
      · split
        · exact .error
        · split
          · exact .error
          · split
            · exact .ok hr
            · exact .error
  exact key _ rfl

end

section
variable {s : State} {c : Ctx} {a : Nat}

theorem seekSpilled_spares (n : Nat) : ∀ {u : State}, Spares c.t.place a (Misses s a) s u →
    (seekSpilled c n u).Gives fun x => Spares c.t.place a (Misses s a) s x.2 := by
  induction n with
  | zero => exact fun h => .ok h
  | succ n ih =>
    intro u h
    refine (readSpilled_spares h _ _).bind fun x hx => ?_
    dsimp only
    split
    · exact .ok hx
    · exact .ok hx
    · exact ih hx

theorem endPath_spares (new : Option (Nat × Token)) (n : Nat) : ∀ (g : Group) {u : State}, Spares c.t.place a (Misses s a) s u →
    (endPath c new n g u).Gives (Spares c.t.place a (Misses s a) s) := by
  have kept {u : State} (h : Spares c.t.place a (Misses s a) s u) (g : Group) : Spares c.t.place a (Misses s a) s (u.setGroup c.gid g) :=
    ⟨h.mem, h.move, h.dirty⟩
  induction n with
  | zero =>
    intro g u h
    unfold endPath
    split
    · exact .ok (kept h _)
    · exact .ok (kept h _)
  | succ k ih =>
    intro g u h
    unfold endPath
    split
    · exact .ok (kept h _)
    · dsimp only
      split
      · exact ih _ h
      · exact (readSpilled_spares h _ _).bind fun x hx => ih _ hx

theorem settlePaths_spares {u : State} (h : Spares c.t.place a (Misses s a) s u) (new : Option (Nat × Token)) (g : Group) (at_ : BitVec 32) :
    (settlePaths c new g at_ u).Gives (Spares c.t.place a (Misses s a) s) := by
  unfold settlePaths
  split
  · exact .ok ⟨h.mem, h.move, h.dirty⟩
  · exact endPath_spares new _ _ h

end

/-- Settles O13: a register-only instruction, function by function, reaches no further than its group and what describes its launch;
with spilled tokens, of memory only the token's bytes and what its core held dirty are written. -/
theorem registerOnlyKeepsMemory : Obligations.RegisterOnlyKeepsMemory := by
  refine ⟨fun i s t hi hc ht => ?_, fun s c j a t hl hd => ?_, fun s s1 c a hd =>
    ⟨fun both j t hr => ?_, fun n x hr => ?_, fun g at_ new hr => ?_⟩⟩
  · obtain ⟨hmem, hqueues, hregions, hboxes, hops⟩ :=
      exec_registerOnly_undisturbed hi (fun c h => (hc c h).1) (fun c h => (hc c h).2) ht
    exact ⟨fun a => by rw [hmem], hqueues, hregions, hboxes, hops⟩
  · exact (writeSpilled_spares (.start hd) j t hl).mem
  · exact (readSpilled_spares (.start hd) both j _ hr).mem
  · exact (seekSpilled_spares n (.start hd) _ hr).mem
  · exact (settlePaths_spares (.start hd) new g at_ _ hr).mem

end Sys2Proof.Machine
end
